-- ==== Sys2Proof/Word.lean ====
section
/-! DEFINITION. The word types of the module and their plainest arithmetic: bytes, the 64-bit register and memory word,
and the two's-complement readings that spec/00_scope.md (Pseudocode) and spec/02_scaled_integers.md (R29 to R31) use. -/

namespace Sys2Proof

abbrev Byte := BitVec 8
abbrev W32 := BitVec 32
abbrev W64 := BitVec 64

end Sys2Proof
end

