-- ==== Sys2Proof/Syntax.lean ====
section
/-! DEFINITION. The commands of the YK-32, one constructor per row of spec/opcode_table.json, with the row's operands.
A macro-op names its issuer and its delay (R193); a host command names its queue; an event names the unit it happens in
and what its environment supplies.  What a command does is in Sys2Proof/Machine. -/

namespace Sys2Proof

/-- Who reaches a macro-op: stream 2n + k of pavilion n (R270), or the handler unit of core 8n + m (R146). -/
inductive Who where
  | stream (k : Fin 16)
  | handler (m : Fin 64)
deriving DecidableEq, Repr

/-- A tile operand: base register b and height h (R112). -/
structure Tile where
  b : Nat
  h : Nat
deriving DecidableEq, Repr

/-- A scalar register operand s0 to s31 (in a handler hs0 to hs15), and an address register operand a0 to a15. -/
abbrev SReg := Fin 32
abbrev AReg := Fin 16

/-- A scalar register or a 32-bit immediate (R198, R225). -/
inductive SOpnd where
  | reg (r : SReg)
  | imm (v : BitVec 32)
deriving DecidableEq, Repr

/-- The operands that the four one-destination passes share (R69, R167). -/
structure PassOpnds where
  d : Tile
  s : Tile
  m : Option (Fin 64)
  sn : SReg
  eref : Int
  acc : Bool
  swap : Bool
deriving DecidableEq, Repr

/-- The operands of MCMPX and MCMPN beyond those of a pass (R170). -/
structure CmpOpnds where
  p : PassOpnds
  d2 : Tile
  sib : SReg
deriving DecidableEq, Repr

/-- The operands that TLOAD and TSTORE share (R172, R174). -/
structure MoveOpnds where
  t : Tile
  am : AReg
  sms : SReg
  ae : Option AReg
  ses : Option SReg
  mode : Bool
deriving DecidableEq, Repr

/-- The operands of SLOAD and SSTORE (R184, R186); `each` is the mode, `count` the completion kind. -/
structure XferOpnds where
  each : Bool
  adst : AReg
  asrc : AReg
  srows : SReg
  srb : SReg
  sss : SReg
  sds : SReg
  scs : SReg
  acpl : AReg
  count : Bool
deriving DecidableEq, Repr

/-- The operands of SLATH (R188). -/
structure SlathOpnds where
  each : Bool
  areq : AReg
  qlen : Nat
  ares : AReg
  srl : SReg
  scs : SReg
  acpl : AReg
  count : Bool
deriving DecidableEq, Repr

/-- The operands of EPROG (R211). -/
structure EprogOpnds where
  d : Tile
  a : Tile
  b : Option Tile
  prog : Fin 64
  tmask : BitVec 4
  base : Option AReg
  sc0 : Option SReg
  sc1 : Option SReg
  fixed : Bool
  eexp : Int
deriving DecidableEq, Repr

/-- The operands of EQUANT (R215). -/
structure EquantOpnds where
  d : Tile
  s : Tile
  sv : Fin 64
  perRow : Bool
  wcode : Fin 8
  fit : Bool
  e : Int
deriving DecidableEq, Repr

/-- The operands of FWAIT and FTAKE (R223, R224). -/
structure FwaitOpnds where
  each : Bool
  aw : AReg
  sd : Option SReg
  sd2 : Option SReg
  ag : AReg
  sgl : SReg
deriving DecidableEq, Repr

/-- The operands of FFILL and FEMPTY (R225, R227). -/
structure FfillOpnds where
  each : Bool
  aw : AReg
  sl : SOpnd
  sh : Option SOpnd
deriving DecidableEq, Repr

/-- The operands of CSEND and CSEND.TRY (R231). -/
structure CsendOpnds where
  each : Bool
  ar : AReg
  am : AReg
  len : Nat
  early : Bool
deriving DecidableEq, Repr


/-- What the lock of a lane's two rings sets (R514): drop ratio, sign, and the heater powers in µW. -/
structure RingLock where
  rset : Int
  ksign : Int
  htx : Nat
  hrx : Nat
deriving DecidableEq, Repr

/-- One second of a lane (R516, R517, R532): pre-FEC bit errors per 10^12 bits, uncorrectable codewords, corrected symbols. -/
structure LaneMeas where
  ber : Nat
  unc : Nat
  sym : Nat
deriving DecidableEq, Repr

/-- Whose read of host memory times out (R564): one core's share of a dynamic operation, a DMA channel, or a command queue. -/
inductive HostReader where
  | share (op : Nat) (core : Fin 64)
  | channel (ch : Fin 64)
  | queue (c : Fin 16) (q : Fin 8)
deriving DecidableEq, Repr


/-- One window of a generator's monitors (R620): the peak cycle-to-cycle jitter in ps, and the duty cycle of the worst cycle
in units of 0.5 %. -/
structure GenMeas where
  jit : Nat
  duty : Nat
deriving DecidableEq, Repr

/-- What the Lodge measures for a telemetry frame besides what registers hold (R635, R639): auxiliary power in mW, the rails as (mV, mA),
the power of each generator's domain in mW and of each stack in 0.1 W. -/
structure TelMeas where
  paux : Nat
  rails : List (Nat × Nat)
  plot : List Nat
  stack : List Nat
deriving DecidableEq, Repr

/-- What a training of the PCIe link ends in, and what the host configures then (R563, R580, R582): speed code, width, FLIT
mode, the enables of ATS, PRI, PASID and MSI-X with the MSI-X function mask, the allocation of Page Requests, Max Payload Size, Max Read
Request Size, the completion timeout in µs, and the addresses of the three BARs. -/
structure LinkUp where
  speed : Fin 8
  width : Nat
  flit : Bool
  ats : Bool
  pri : Bool
  pasid : Bool
  msixEn : Bool
  msixMask : Bool
  priMax : Nat
  mps : Nat
  mrrs : Nat
  timeoutUs : Nat
  bars : List Nat
deriving DecidableEq, Repr

/-- A host write to BAR0 or BAR4: offset, size in bytes, value, and whether its EP bit is set (R15, R565, R575). -/
structure BarWrite where
  bar4 : Bool
  off : Nat
  size : Nat
  v : BitVec 64
  ep : Bool
deriving DecidableEq, Repr


/-- What bits that have been upset make of a DRAM block (R329): an error that the code corrects, one that it detects, or one in
three or more symbols that it takes for other data, the bytes given, without any report. -/
inductive Upset where
  | correctable
  | uncorrectable
  | silent (bytes : List Byte)
deriving DecidableEq, Repr

/-- The commands. -/
inductive Instr where
  -- matrix and movement (spec/05)
  | wloadR (w : Who) (gap : Nat) (am ae : AReg)
  | wloadS (w : Who) (gap : Nat) (am ae : AReg) (fmt : Fin 4)
  | mpass (w : Who) (gap : Nat) (o : PassOpnds)
  | mpasst (w : Who) (gap : Nat) (o : PassOpnds)
  | mdist (w : Who) (gap : Nat) (o : PassOpnds)
  | msqd (w : Who) (gap : Nat) (o : PassOpnds)
  | mcmpx (w : Who) (gap : Nat) (o : CmpOpnds)
  | mcmpn (w : Who) (gap : Nat) (o : CmpOpnds)
  | tload (w : Who) (gap : Nat) (o : MoveOpnds)
  | tstore (w : Who) (gap : Nat) (o : MoveOpnds) (pack : Fin 4)
  | sload (w : Who) (gap : Nat) (o : XferOpnds)
  | sstore (w : Who) (gap : Nat) (o : XferOpnds)
  | slath (w : Who) (gap : Nat) (o : SlathOpnds)
  -- registers and loops (spec/06)
  | sset (w : Who) (gap : Nat) (sd : SReg) (v : BitVec 32)
  | sadd (w : Who) (gap : Nat) (sd sa : SReg) (b : SOpnd)
  | aset (w : Who) (gap : Nat) (ad : AReg) (v : BitVec 52)
  | aadd (w : Who) (gap : Nat) (ad aa : AReg) (b : SOpnd)
  | loop (w : Who) (gap : Nat) (sc : SReg) (body : Nat)
  | endloop (w : Who) (gap : Nat)
  -- element macro-ops
  | eprog (w : Who) (gap : Nat) (o : EprogOpnds)
  | eshufX (w : Who) (gap : Nat) (d s : Tile) (m : Fin 128)
  | eshufB (w : Who) (gap : Nat) (d s : Tile) (c : Fin 64)
  | esum (w : Who) (gap : Nat) (d s : Tile) (g : Fin 8)
  | emax (w : Who) (gap : Nat) (d s : Tile) (g : Fin 8) (d2 : Option Tile)
  | ebcast (w : Who) (gap : Nat) (d s : Tile) (v : Fin 64) (col : Bool) (op : Fin 8) (k : Fin 64)
  | equant (w : Who) (gap : Nat) (o : EquantOpnds)
  -- full/empty words and messages
  | fwait (w : Who) (gap : Nat) (o : FwaitOpnds)
  | ftake (w : Who) (gap : Nat) (o : FwaitOpnds)
  | ffill (w : Who) (gap : Nat) (o : FfillOpnds)
  | fempty (w : Who) (gap : Nat) (o : FfillOpnds)
  | fcountPlus (w : Who) (gap : Nat) (each : Bool) (aw : AReg) (k : Nat)
  | fcountMinus (w : Who) (gap : Nat) (each : Bool) (aw : AReg) (sk : SReg) (wait chk : Bool)
  | csend (w : Who) (gap : Nat) (o : CsendOpnds)
  | csendTry (w : Who) (gap : Nat) (o : CsendOpnds) (sd : SReg)
  | hret (w : Who) (gap : Nat)
  -- tile setup, fences, ending and yielding
  | tcfg (w : Who) (gap : Nat) (t : Tile) (wd : Fin 4)
  | trel (w : Who) (gap : Nat) (t : Tile)
  | fenceL (w : Who) (gap : Nat)
  | fenceX (w : Who) (gap : Nat)
  | commit (w : Who) (gap : Nat)
  | commitBufferRelease (k : Fin 16)
  | yield (w : Who) (gap : Nat)
  | programEnd (k : Fin 16)
  -- events of the bandstand, operations in flight, tokens and handlers (spec/05, spec/06, spec/10)
  | holdRelease (k : Fin 16)
  | operationCompletion (op : Nat) (core : Fin 64) (hostSt : Fin 4)
  | trellisToken (id : Nat)
  | trellisTimeout (id : Nat)
  | handlerDispatch (m : Fin 64)
  | handlerTimeLimit (m : Fin 64)
  | waitTimeout (k : Fin 16)
  | settleIntervalExpiry (w : Nat)
  -- the Gatehouse (spec/09)
  | doorbell (c : Fin 16) (q : Fin 8) (v : BitVec 64)
  | commandFetch (c : Fin 16) (q : Fin 8) (hostSt : Fin 4)
  | completionConsumerCount (c : Fin 16) (q : Fin 8) (v : BitVec 64)
  | nop (c : Fin 16) (q : Fin 8)
  | task (c : Fin 16) (q : Fin 8) (hostSt : Fin 4)
  | graph (c : Fin 16) (q : Fin 8) (hostSt : Fin 4)
  | openSeq (c : Fin 16) (q : Fin 8)
  | setSeq (c : Fin 16) (q : Fin 8)
  | closeSeq (c : Fin 16) (q : Fin 8)
  | loadBin (c : Fin 16) (q : Fin 8) (hostSt : Fin 4)
  | unloadBin (c : Fin 16) (q : Fin 8)
  | kill (c : Fin 16) (q : Fin 8)
  | dmaStart (c : Fin 16) (q : Fin 8)
  | readinessPoll
  | taskDispatch (hostSt : Fin 4)
  | preemptionSave (k : Fin 16)
  | preemptionComplete (k : Fin 16)
  | taskResume
  | taskRetry (i : Fin 4096)
  | deadlineSlackEvaluation
  | agingEvaluation
  | completionRecordWrite (c : Fin 16) (q : Fin 8)
  | taskIdQuarantineExpiry (i : Fin 4096)
  -- creels and the Belvedere (spec/10)
  | creelDelivery (c : Nat)
  | creditGrant (c : Nat)
  | creelEnable (c : Nat) (v : BitVec 64)
  | creelDisable (c : Nat) (v : BitVec 64)
  | creelQuarantineEnd (c : Nat)
  | hostCreelHeadWrite (k : Fin 64) (v : BitVec 20)
  | belvedereSample
  -- the Orangery (spec/07)
  | dynamicSubBankGrant (sl : Fin 64) (sub : Fin 128) (d : Nat)
  | packetHop (out : Fin 480) (cycles : Nat)
  | scrubRead (sl : Fin 64) (errs : List (Nat × Bool))
  | correctedWriteback (sl : Fin 64)
  | mdvalWrite (v : BitVec 64)
  | sliceReady (sl : Fin 64)
  -- slath engines and memory stacks (spec/08)
  | slathRequestCheck (op : Nat) (core : Fin 64)
  | workUnitStart (k : Fin 32)
  | workUnitDone (k : Fin 32) (ns : Nat)
  | pageWalk (c : Fin 16) (va : BitVec 48) (write sla : Bool)
  | inval (v : BitVec 64)
  | invalidationComplete
  | dramRefresh (k : Fin 32) (pc : Fin 64) (bank : Fin 16)
  | dramTemperatureSample (k : Fin 32) (degc : Fin 256)
  | dramScrubRead (k : Fin 32) (errs : List (Nat × Upset))
  | dramCorrectedWriteback (k : Fin 32)
  | rowSparing (k : Fin 32) (pc : Fin 64) (bank : Fin 16) (row : Fin 36864)
  | dieLinkReplay (k : Fin 32)
  | dieLinkLaneSpare (k : Fin 32) (up : Bool) (lane : Fin 264)
  | stackReady (k : Fin 32)
  -- DMA, page faults and the host's translation agent (spec/11)
  | descriptorFetch (ch : Fin 64) (hostSt : Fin 4)
  | dmaRun (ch : Fin 64) (hostSt : Fin 4)
  | descriptorEnd (ch : Fin 64)
  | requestLineWrite (l : Fin 256) (v : BitVec 64)
  | devicePageFault
  | fltresp (v : BitVec 64)
  | channelKill (ch : Fin 64) (v : BitVec 64)
  | channelStop (ch : Fin 64) (v : BitVec 64)
  | channelQuiet (ch : Fin 64)
  | atsInvalidationRequest (c : Option (Fin 16)) (a n : Nat)
  | prgResponse (idx : Fin 512) (ok : Bool)
  | completionTimeout (r : HostReader)
  -- wickets (spec/11)
  | wicketOpen (w : Fin 64) (v : BitVec 64)
  | wicketClose (w : Fin 64) (v : BitVec 64)
  | wicketQuarantineEnd (w : Fin 64)
  | wkret (w : Fin 64) (v : BitVec 64)
  -- ports and links (spec/13)
  | flitReceive (p : Fin 8) (bytes : List Byte)
  | nak (p : Fin 8)
  | nakRepeatTimer (p : Fin 8)
  | replayTimeout (p : Fin 8)
  | ackFlitTimer (p : Fin 8)
  | wr (p : Fin 8)
  | rdreq (p : Fin 8)
  | rddata (p : Fin 8)
  | wrack (p : Fin 8)
  | fereq (p : Fin 8)
  | fereply (p : Fin 8)
  | cmsg (p : Fin 8)
  | cmsgack (p : Fin 8)
  | grantreq (p : Fin 8)
  | grant (p : Fin 8)
  | laneoff (p : Fin 8) (lane : Fin 16) (seq : Fin 65536)
  | laneon (p : Fin 8) (lane : Fin 16) (seq : Fin 65536)
  | lanemove (p : Fin 8) (lane : Fin 16) (laser : Fin 18)
  | drain (p : Fin 8)
  | undrain (p : Fin 8)
  | ident (p : Fin 8) (serial : BitVec 48) (peerPort : Fin 8) (lasers : List (Fin 18)) (byte : Byte)
  | laserWarmupDone (p : Fin 8) (tgts : List Nat) (kp : Int)
  | ringlock (p : Fin 8) (locks : List RingLock)
  | lanetrain (p : Fin 8) (errs : List Nat) (peer : BitVec 16)
  | align (p : Fin 8) (ok : Bool) (byte : Byte)
  | quickRetrain (p : Fin 8)
  | fullRetrain (p : Fin 8)
  | retrain (p : Fin 8)
  | lnkctlDrainSet (p : Fin 8)
  | lnkctlDrainClear (p : Fin 8)
  | holdLimitExpiry (p : Fin 8)
  | ringLockLoop (p : Fin 8) (lane : Fin 16) (pin pdr rxdrop : BitVec 32)
  | laneTestDone (p : Fin 8) (lane : Fin 16) (errs : Nat) (lock : Option RingLock)
  | laneErrorMeasurement (p : Fin 8) (meas : List LaneMeas)
  | portRetryTimer (p : Fin 8)
  -- lanterns (spec/13)
  | lanternInsertion (p : Fin 8) (mem : List Byte) (latched : Bool)
  | lanternRemoval (p : Fin 8)
  | interlockOpen (p : Fin 8)
  | laserPowerLoop (p : Fin 8) (mpd : List Nat) (mw : Nat) (caset : BitVec 8)
  | laserWearCheck (p : Fin 8)
  | spareSettled (p : Fin 8)
  | laneMove (p : Fin 8)
  | usageRecordWrite (p : Fin 8)
  | forceoffSet (p : Fin 8)
  | forceoffClear (p : Fin 8)
  | bayOvercurrent (p : Fin 8)
  -- hedges, probes and the error log (spec/15)
  | hedge (cls res : Nat) (rows : List Nat)
  | probe (cls res : Nat)
  -- `found` are the rows of a probe that fails, or the lasers; a row of a container's part i is numbered as Machine.partRow does
  | probeDone (cls res : Nat) (pass : Bool) (found : List Nat) (cures : Bool)
  | hedgeAndProbe (cls : Fin 16) (res : BitVec 32)
  | hedgeAndHold (cls : Fin 16) (res : BitVec 32)
  | probeHedged (cls : Fin 16) (res : BitVec 32)
  | errorLogEntryWrite
  | logringEnable (v : BitVec 64)
  -- clocks, power and telemetry (spec/16)
  | monitorWindow (meas : List GenMeas)
  | governor (pin pd : Nat) (temps : List Int)
  | changeEpoch
  | changeResume
  | lockTimeout (late : List (Fin 10))
  | coolUpdate
  | telemetryFrame (m : TelMeas) (sent : Bool)
  | telringEnable (v : BitVec 64)
  -- switches of the Gatehouse (spec/09, spec/12)
  | modecfgWrite (v : BitVec 64)
  | queueEnable (c : Fin 16) (q : Fin 8) (vec : BitVec 8)
  | queueDisable (c : Fin 16) (q : Fin 8) (vec : BitVec 8)
  | queueStop (c : Fin 16) (q : Fin 8)
  | queueResume (c : Fin 16) (q : Fin 8)
  | ctxkill (c : Fin 16) (v : BitVec 64)
  | contextEnable (c : Fin 16) (v : BitVec 64)
  -- the host interface (spec/14)
  | bar2Read (o : BitVec 28) (n : Nat)
  | bar2Write (o : BitVec 28) (bs : List Byte) (ep : Bool)
  | registerWrite (w : BarWrite)
  | msixUnmask (v : BitVec 8)
  -- firmware (spec/16)
  | firmwareWrite (v : BitVec 64) (hostSt : Fin 4)
  | firmwareWriteDone (same : Bool)
  | firmwareActivate
  -- resets, power and pins (spec/14, spec/16, spec/17)
  | flr
  | hotReset
  | perst
  | d3hotEntry
  | cablePresenceChange (j3 j4 : Bool)
  | resetPin (low : Bool) (us : Nat)
  | moduleReset
  | pavilionReady (n : Fin 8)
  | undervoltage48v
  | undervoltage12v
  | thermalTrip
  -- management (spec/17)
  | smbusReadReady
  | smbusReadLodgestat
  | smbusReadPwr
  | smbusReadCoolctl
  | smbusReadTjmax
  | smbusReadErrstat
  | smbusReadSerial
  | jtagIdcode
  | jtagBypass (l : List Bool)
  | jtagBoundaryScan (l : List Bool)
  -- further events (spec/08, spec/13, spec/14, spec/16)
  | referenceClockLoss
  | pcieLinkTraining (u : LinkUp)
  | d0Return
  | dieLinkRetrainDone (k : Fin 32)
  | interlockClose (p : Fin 8)
deriving DecidableEq, Repr

end Sys2Proof
end

