-- ==== Sys2Proof/Decode.lean ====
section
/-! DEFINITION. The commands that the table's bits spell.  The table of this block gives no row any bits (a command is an
access or an event, and the format of binaries is not published, R6), so no word spells one. -/

namespace Sys2Proof

/-- The command that a word of the opcode table spells: none, for no row of the table has bits. -/
def decodeTableWord (_nbits _w : Nat) : Option Instr := none

end Sys2Proof
end

