-- ==== Sys2Proof/Config.lean ====
section
/-! DEFINITION. What an implementation fixes and what the spec leaves open: the latency tables, the body of a binary
that Novtofa compiles, in a format of Lanienion's own, and the free values (constants with no body, which no proof can see through). -/

namespace Sys2Proof

/-- The two latency tables of R245. -/
inductive LatTable where
  | a1
  | b0
deriving DecidableEq, Repr

/-- The two orderable parts of R7. -/
inductive Part where
  | a1
  | b0
deriving DecidableEq, Repr

/-- TLOAD and TSTORE, start to first register (R245). -/
def LatTable.tile : LatTable → Nat
  | .a1 => 14
  | .b0 => 12

/-- The element engine's reciprocal step, L of R136 (R245). -/
def LatTable.recip : LatTable → Nat
  | .a1 => 9
  | .b0 => 6

/-- An operand of a step of a randing program (R131). -/
inductive POpnd where
  | tileA
  | tileB
  | stage (i : Fin 4)
  | imm (v : BitVec 32)
  | c0
  | c1
  | lane
  | reg
deriving DecidableEq, Repr

/-- The destination of a step: a staging buffer, or D (R131). -/
inductive PDst where
  | stage (i : Fin 4)
  | d
deriving DecidableEq, Repr

/-- The step operations of R133. -/
inductive POp where
  | add
  | sub
  | mul
  | mulsh (k : Fin 64)
  | shift (sh : Int)
  | max
  | min
  | abs
  | neg
  | and
  | or
  | xor
  | cmpgt
  | cmpge
  | cmpeq
  | sel
  | lut (t : Fin 4)
  | recip (k : Fin 64)
  | rsqrt (k : Fin 64)
deriving DecidableEq, Repr

/-- One step of a randing program: its operation, its operands a, b and c, and its destination (R131). -/
structure PStep where
  op : POp
  a : POpnd
  b : POpnd
  c : POpnd
  dst : PDst
deriving DecidableEq, Repr

/-- A randing program: up to 32 steps (R129). -/
abbrev Program := List PStep

/-- One entry of a slot plan: slot `slot` of link direction `link` (R265). -/
structure Reservation where
  link : Nat
  slot : Nat
deriving DecidableEq, Repr

/-- One reservation of a binary's slot plan (R486): direction (0 east, 1 west, 2 south, 3 north), column, row offset, slot. -/
structure PlanEntry where
  dir : Nat
  x : Nat
  dy : Nat
  slot : Nat
deriving DecidableEq, Repr

/-- What the body of a binary gives the machine besides its macro-ops, which arrive as commands: its randing
programs (R129), the length in macro-ops of each of its handler routines (R147) and its slot plan (R265, R486). -/
structure BinBody where
  programs : List Program
  routines : List Nat
  plan : List PlanEntry
deriving DecidableEq, Repr

namespace Config

/-- FREE VALUE (DESIGN CHOICE, assumption 5): the binary format is known to Lanienion alone (R6), so what a body decodes to
is open. -/
opaque decodeBody : List Byte → Option BinBody

/-- FREE VALUE (assumption 7): the one-byte type that a control flit carries for each kind of control message (R530); the
spec names the kinds and gives no codes.  0 IDENT, 1 LANEOFF, 2 LANEON, 3 LANEMOVE, 4 DRAIN, 5 UNDRAIN. -/
opaque ctlCode : Nat → Byte

/-- FREE VALUE (assumption 8): whether the bytes of a firmware image pass the image's own CRC; the spec says that an image
holds one and not where (R616, R617). -/
opaque imageGood : List Byte → Bool

/-- FREE VALUE (assumption 8): the version, major and minor, that a firmware image carries (R641). -/
opaque imageVersion : List Byte → BitVec 16

/-- FREE VALUE (assumption 8): the serial number of the module, kept in its flash (R586). -/
opaque serial : BitVec 48

/-- FREE VALUE (assumption 8): the device identification that the JTAG IDCODE instruction returns; the spec gives no number
(R660). -/
opaque idcode : BitVec 32

/-- FREE VALUE (assumption 83): a number that gives the cycles of the reload after a resume that begins after a cycle; the spec
says only that they are fewer than 300 (R107). -/
opaque reloadTime : Nat → Nat

/-- FREE VALUE (assumption 94): how many packets more than one a virtual channel of a promenade link holds; the spec gives each
link direction four of them with credits, and no depth (R263). -/
opaque promDepth : Nat

/-- FREE VALUE (assumption 45): which log kind, less 1, the entry of a failed operation has, by its status; the spec sends its address
and operands to the error log (R191) and names no kind for them among the 23 of R611. -/
opaque failKind : Nat → Fin 23

/-- FREE VALUE (assumption 4): a byte the spec leaves undefined, drawn from a counter that the state holds. -/
opaque freeByte : Nat → Byte

end Config

end Sys2Proof
end

