-- ==== Sys2Proof/Machine/Map.lean ====
section
/-! DEFINITION. Maps by a Nat key in one canonical form: keys strictly rising, and no entry equal to what an unlisted key
reads as.  Registers, memory cells, metadata and every numbered unit of the module are held in such maps, so that
equal contents are equal data. -/

namespace Sys2Proof.Machine

/-- The value at key `a`: the listed one, else the default `d a`. -/
def amGet {β : Type} (d : Nat → β) : List (Nat × β) → Nat → β
  | [], a => d a
  | (k, v) :: m, a => if k = a then v else amGet d m a

/-- Remove key `a`. -/
def amErase {β : Type} : List (Nat × β) → Nat → List (Nat × β)
  | [], _ => []
  | (k, v) :: m, a => if k = a then amErase m a else (k, v) :: amErase m a

/-- List key `a` with value `v`, keeping the keys rising. -/
def amInsert {β : Type} : List (Nat × β) → Nat → β → List (Nat × β)
  | [], a, v => [(a, v)]
  | (k, w) :: m, a, v =>
    if k = a then (a, v) :: m else if a < k then (a, v) :: (k, w) :: m else (k, w) :: amInsert m a v

/-- Write `v` at key `a`; writing the default removes the entry. -/
def amSet {β : Type} [DecidableEq β] (d : Nat → β) (m : List (Nat × β)) (a : Nat) (v : β) : List (Nat × β) :=
  if v = d a then amErase m a else amInsert m a v

/-- The canonical form: every listed key is at least `lo`, the keys rise strictly, and no entry holds its default. -/
def amWfFrom {β : Type} [DecidableEq β] (d : Nat → β) : Nat → List (Nat × β) → Bool
  | _, [] => true
  | lo, (k, v) :: m => decide (lo ≤ k) && decide (v ≠ d k) && amWfFrom d (k + 1) m

def amWf {β : Type} [DecidableEq β] (d : Nat → β) (m : List (Nat × β)) : Bool := amWfFrom d 0 m

/-- The keys that a map lists. -/
def amKeys {β : Type} (m : List (Nat × β)) : List Nat := m.map Prod.fst

/-- Replace element `i` of a list by `f` of it (none past the end). -/
def listModify {β : Type} (l : List β) (i : Nat) (f : β → β) : List β :=
  match l, i with
  | [], _ => []
  | x :: xs, 0 => f x :: xs
  | x :: xs, n + 1 => x :: listModify xs n f

/-- Put `x` into a sorted list, before the elements that it may precede. -/
def insertBy {β : Type} (le : β → β → Bool) (x : β) : List β → List β
  | [] => [x]
  | y :: ys => if le x y then x :: y :: ys else y :: insertBy le x ys

/-- Sort a list; elements that may precede each other keep their order. -/
def sortBy {β : Type} (le : β → β → Bool) (l : List β) : List β := l.foldr (insertBy le) []

/-- The numbers `a, a + 1, …`, `n` of them. -/
def rangeFrom (a n : Nat) : List Nat := (List.range n).map (fun i => a + i)

/-- Whether the ranges `[a, a + n)` and `[b, b + m)` share a number. -/
def overlaps (a n b m : Nat) : Bool := decide (0 < n) && decide (0 < m) && decide (a < b + m) && decide (b < a + n)

/-- Two inclusive ranges, each a lowest and a highest byte, share a byte. -/
def rangeMeets (p q : Nat × Nat) : Bool := decide (p.1 ≤ q.2) && decide (q.1 ≤ p.2)

end Sys2Proof.Machine
end

