-- ==== Sys2Proof/Machine/Arith.lean ====
section
/-! DEFINITION. Scaled-integer arithmetic (spec/02_scaled_integers.md): the three narrowing functions, the column totals
of every pass mode, requantisation, lookup, reciprocal and reciprocal square root.  Values are exact integers; each
narrowing is explicit, and every function that can clip answers its value with the clip it reports. -/

namespace Sys2Proof.Machine

/-! ### Bits and bytes -/

/-- The two's-complement reading of the low `n` bits of `w`. -/
def sext (n : Nat) (w : Nat) : Int :=
  let r := w % 2 ^ n
  if 2 * r < 2 ^ n then (r : Int) else (r : Int) - (2 ^ n : Nat)

/-- The low `n` bits of `v` in two's complement. -/
def truncN (n : Nat) (v : Int) : Nat := (v % ((2 ^ n : Nat) : Int)).toNat

/-- The value of bytes in little-endian order. -/
def leVal : List Byte → Nat
  | [] => 0
  | b :: bs => b.toNat + 256 * leVal bs

/-- `n` bytes of `v` in little-endian order. -/
def leBytes : Nat → Nat → List Byte
  | 0, _ => []
  | n + 1, v => BitVec.ofNat 8 v :: leBytes n (v / 256)

/-- Bits [hi:lo] of `w`. -/
def bitsOf (w hi lo : Nat) : Nat := w / 2 ^ lo % 2 ^ (hi + 1 - lo)

def bitOf (w i : Nat) : Bool := bitsOf w i i == 1

/-- Cut a list into pieces of `n`. -/
def chunk {β : Type} (n : Nat) : Nat → List β → List (List β)
  | 0, _ => []
  | k + 1, l => l.take n :: chunk n k (l.drop n)

/-! ### Rounding and saturation (R37 to R39) -/

/-- `rne(v, k)`: the nearest integer to v / 2^k, ties to even (R37). -/
def rne (v : Int) (k : Nat) : Int :=
  if k = 0 then v
  else
    let m : Int := ((2 ^ k : Nat) : Int)
    let q := v / m
    let r := v - q * m
    let h : Int := ((2 ^ (k - 1) : Nat) : Int)
    if r > h ∨ (r = h ∧ q % 2 = 1) then q + 1 else q

/-- The least and the greatest n-bit signed value. -/
def intMin (n : Nat) : Int := -((2 ^ (n - 1) : Nat) : Int)
def intMax (n : Nat) : Int := ((2 ^ (n - 1) : Nat) : Int) - 1

/-- `sat(v, n)` with its clip report (R38). -/
def sat (v : Int) (n : Nat) : Int × Bool :=
  if v < intMin n then (intMin n, true) else if v > intMax n then (intMax n, true) else (v, false)

/-- `scale(v, s, n)` with its clip report (R39). -/
def scale (v s : Int) (n : Nat) : Int × Bool :=
  if s ≤ 0 then sat (rne v (-s).toNat) n
  else if v = 0 then (0, false)
  else if s ≥ n then sat (v * ((2 ^ (n - 1) : Nat) : Int)) n
  else sat (v * ((2 ^ s.toNat : Nat) : Int)) n

/-! ### Lookup, reciprocal and reciprocal square root (R61 to R64) -/

def tableAt (t : List Int) (i : Nat) : Int := t.getD i 0

/-- `lookup(x, T)` (R61). -/
def lookup (x : Int) (t : List Int) : Int :=
  let u := (x + 32768).toNat % 65536
  let i := u / 256
  let f := u % 256
  let t0 := tableAt t i
  let t1 := if i < 255 then tableAt t (i + 1) else tableAt t 255
  t0 + rne ((t1 - t0) * (f : Int)) 8

/-- How many of the `n` low bits of `a` lie above its highest 1. -/
def clz : Nat → Nat → Nat
  | 0, _ => 0
  | n + 1, a => if a / 2 ^ n % 2 = 1 then 0 else 1 + clz n a

/-- The integer square root, rounded down, of a number below 2^(2n), found bit by bit from `r`. -/
def isqrtFrom : Nat → Nat → Nat → Nat
  | 0, _, r => r
  | n + 1, v, r => let c := r + 2 ^ n; if c * c ≤ v then isqrtFrom n v c else isqrtFrom n v r

def isqrt (v : Nat) : Nat := isqrtFrom 20 v 0

/-- `recip(d, K)` with its report to the lane range flag (R62, R64). -/
def recip (d : Int) (k : Nat) : Int × Bool :=
  if d = 0 then (intMax 32, true)
  else
    let a := d.natAbs
    let lz := clz 32 a
    let z := a * 2 ^ lz
    let t := z / 2 ^ 24
    let y0 := 2 ^ 23 / (2 * t + 1)
    let e : Int := 2147483648 - rne ((z * y0 : Nat) : Int) 16
    let y1 := rne ((y0 : Int) * e) 30
    let q := scale y1 ((lz : Int) - 46 + (k : Int)) 32
    (if d < 0 then -q.1 else q.1, q.2)

/-- `rsqrt(d, K)` with its report to the lane range flag (R63, R64). -/
def rsqrt (d : Int) (k : Nat) : Int × Bool :=
  if d = 0 then (intMax 32, true)
  else if d < 0 then (0, true)
  else
    let lz2 := clz 32 d.natAbs / 2 * 2
    let z := d.natAbs * 2 ^ lz2
    let t := z / 2 ^ 24
    let y0 := isqrt (2 ^ 37 / (2 * t + 1))
    let u := rne ((z * y0 * y0 : Nat) : Int) 30
    let e : Int := 3 * 1073741824 - u
    let y1 := rne ((y0 : Int) * e) 31
    scale y1 (((lz2 : Int) - 30) / 2 - 15 + (k : Int)) 32

/-! ### Packed mantissas (R31) -/

/-- Element `i` of a plane packed at `w` bits an element (8, 4 or 2). -/
def packedAt (row : List Byte) (w i : Nat) : Int :=
  if w = 8 then sext 8 (row.getD i 0).toNat
  else if w = 4 then sext 4 ((row.getD (i / 2) 0).toNat / 2 ^ (4 * (i % 2)))
  else sext 2 ((row.getD (i / 4) 0).toNat / 2 ^ (2 * (i % 4)))

/-- The bytes that hold `vs` packed at `w` bits an element, low bits only (R31, R174). -/
def packRow (w : Nat) : Nat → List Int → List Byte
  | 0, _ => []
  | n + 1, vs =>
    let per := 8 / w
    BitVec.ofNat 8 (((vs.take per).zipIdx.map (fun p => truncN w p.1 * 2 ^ (w * p.2))).sum)
      :: packRow w n (vs.drop per)

/-! ### Column totals (R41 to R45, R99, R103, R104)

A column is given by its 128 terms as (row mask, weight, activation), four bands of 32, with the band's weight and
activation exponents. -/

/-- The six pass modes. -/
inductive PassMode where
  | mpass
  | mpasst
  | mdist
  | msqd
  | mcmpx
  | mcmpn
deriving DecidableEq, Repr

/-- One band of a column: its exponents and its (unmasked, weight, activation) terms. -/
structure Band where
  ew : Int
  ea : Int
  terms : List (Bool × Int × Int)
deriving DecidableEq, Repr

/-- The exact sum of one band and its exponent in a summing mode (R41, R42, R103). -/
def bandSum (mode : PassMode) (b : Band) : Int × Int :=
  let x := max b.ew b.ea
  let term := fun (t : Bool × Int × Int) =>
    if t.1 then
      match mode with
      | .mdist | .msqd =>
        let dv := rne t.2.1 (x - b.ew).toNat - rne t.2.2 (x - b.ea).toNat
        if mode = .mdist then (dv.natAbs : Int) else dv * dv
      | _ => t.2.1 * t.2.2
    else 0
  ((b.terms.map term).sum,
   match mode with
   | .mdist => x
   | .msqd => 2 * x
   | _ => b.ew + b.ea)

/-- Fold one more band into a column total and its clip report (R43). -/
def addBand (mode : PassMode) (eref : Int) (acc : Int × Bool) (b : Band) : Int × Bool :=
  let p := bandSum mode b
  let al := scale p.1 (p.2 - eref) 40
  let t := sat (acc.1 + al.1) 40
  (t.1, acc.2 || al.2 || t.2)

/-- The 40-bit column total of a summing mode over its bands in order, with its clip report (R43). -/
def columnTotal (mode : PassMode) (eref : Int) (bs : List Band) : Int × Bool :=
  bs.foldl (addBand mode eref) (0, false)

/-- The accumulator write of R44: the lane's new value and whether a clip is reported. -/
def accWrite (acc : Bool) (old : Int) (tot : Int × Bool) : Int × Bool :=
  let r := sat (if acc then old + tot.1 else tot.1) 32
  (r.1, tot.2 || r.2)

/-- Whether `a` is strictly better than `b` in a comparison mode (R104). -/
def better (mode : PassMode) (a b : Int) : Bool :=
  match mode with
  | .mcmpn => decide (a < b)
  | _ => decide (a > b)

/-- The extreme product of a band and its row within the band, none if every row is masked (R104). -/
def bandBest (mode : PassMode) (ts : List (Bool × Int × Int)) : Option (Int × Nat) :=
  ts.zipIdx.foldl (fun o t =>
    if t.1.1 then
      let p := t.1.2.1 * t.1.2.2
      match o with
      | none => some (p, t.2)
      | some q => if better mode p q.1 then some (p, t.2) else o
    else o) none

/-- What a column of a comparison pass has found so far (R104). -/
structure Extreme where
  found : Bool
  best : Int
  idx : Int
  clip : Bool
deriving DecidableEq, Repr

/-- Fold band `b.2` into a column's extreme (R104). -/
def addExtreme (mode : PassMode) (eref : Int) (x : Extreme) (b : Band × Nat) : Extreme :=
  match bandBest mode b.1.terms with
  | none => x
  | some q =>
    let v := scale q.1 (b.1.ew + b.1.ea - eref) 40
    if !x.found || better mode v.1 x.best then ⟨true, v.1, ((32 * b.2 + q.2 : Nat) : Int), x.clip || v.2⟩
    else { x with clip := x.clip || v.2 }

def columnExtreme (mode : PassMode) (eref : Int) (bs : List Band) : Extreme :=
  bs.zipIdx.foldl (addExtreme mode eref) ⟨false, 0, -1, false⟩

/-! ### Requantisation (R49 to R54) -/

/-- MULT and SHIFT of a scale word (R49). -/
def scaleMult (sw : Nat) : Int := sext 16 sw
def scaleShift (sw : Nat) : Nat := bitsOf sw 21 16

/-- One lane in fixed-exponent mode (R51). -/
def requant (a : Int) (sw w : Nat) : Int × Bool := sat (rne (a * scaleMult sw) (scaleShift sw)) w

def fitsAt (w t : Nat) (ps : List (Int × Nat)) : Bool :=
  ps.all (fun p => !(sat (rne p.1 (p.2 + t)) w).2)

/-- The least t from `t0` at which every lane of a block fits in w bits, searched for at most `fuel` steps (R53). -/
def blockFitT (w : Nat) (ps : List (Int × Nat)) : Nat → Nat → Nat
  | 0, t => t
  | n + 1, t => if fitsAt w t ps then t else blockFitT w ps n (t + 1)

/-- Block-fit of one block: its lanes, its exponent, and whether a lane clipped (R53, R54). -/
def blockFit (w : Nat) (e0 : Int) (ps : List (Int × Nat)) : List Int × Int × Bool :=
  let t0 := blockFitT w ps 64 0
  let t := if e0 + (t0 : Int) > 127 then (127 - e0).toNat else t0
  let rs := ps.map (fun p => sat (rne p.1 (p.2 + t)) w)
  (rs.map Prod.fst, e0 + (t : Int), rs.any Prod.snd)

/-! ### Modular sums (R57, R58) -/

/-- The 48-bit partial of a reduction: the exact sum modulo 2^48, signed (R58). -/
def partial48 (vs : List Int) : Int := sext 48 (truncN 48 vs.sum)

/-- The delivered result and the overflow bit of a partial (R58). -/
def deliver (p : Int) : Int × Bool :=
  (sext 32 (truncN 32 p), decide (p < intMin 32) || decide (p > intMax 32))

/-! ### Steps of a randing program (R133) -/

/-- Bitwise operations act on 32 bits, then keep the low `w` bits (R133). -/
def bitwise (f : Nat → Nat → Nat) (a b : Int) (w : Nat) : Int := sext w (f (truncN 32 a) (truncN 32 b))

def stepSat (p : Int × Bool) (w : Nat) : Int × Bool := let r := sat p.1 w; (r.1, p.2 || r.2)

/-- The result of one step on operands a, b and c for a destination of `w` bits, and whether it sets the lane range flag;
`tabs` holds the four lookup tables. -/
def stepVal (tabs : Nat → List Int) (op : POp) (a b c : Int) (w : Nat) : Int × Bool :=
  match op with
  | .add => sat (a + b) w
  | .sub => sat (a - b) w
  | .mul => sat (a * b) w
  | .mulsh k => scale (a * b) (-(k.val : Int)) w
  | .shift sh => scale a sh w
  | .max => sat (max a b) w
  | .min => sat (min a b) w
  | .abs => sat (a.natAbs : Int) w
  | .neg => sat (-a) w
  | .and => (bitwise Nat.land a b w, false)
  | .or => (bitwise Nat.lor a b w, false)
  | .xor => (bitwise Nat.xor a b w, false)
  | .cmpgt => (if a > b then 1 else 0, false)
  | .cmpge => (if a ≥ b then 1 else 0, false)
  | .cmpeq => (if a = b then 1 else 0, false)
  | .sel => sat (if c ≠ 0 then b else a) w
  | .lut t => let x := sat a 16; stepSat (lookup x.1 (tabs t.val), x.2) w
  | .recip k => stepSat (recip a k.val) w
  | .rsqrt k => stepSat (rsqrt a k.val) w

/-- The value of an operand for lane `l` of register `i` (R131). -/
def opndVal (a b : Int) (stage : Nat → Int) (c0 c1 : Int) (l i : Nat) : POpnd → Int
  | .tileA => a
  | .tileB => b
  | .stage j => stage j.val
  | .imm v => v.toInt
  | .c0 => c0
  | .c1 => c1
  | .lane => (l : Int)
  | .reg => (i : Int)

/-- Run the steps of a program on one lane: the staging values, the value written to D, and the lane range report
(R131 to R134). -/
def runSteps (tabs : Nat → List Int) (a b c0 c1 : Int) (l i wd : Nat) :
    List PStep → List (Nat × Int) → Int → Bool → Int × Bool
  | [], _, d, lrf => (d, lrf)
  | st :: rest, stage, d, lrf =>
    let v := fun o => opndVal a b (amGet (fun _ => 0) stage) c0 c1 l i o
    let w := match st.dst with
      | .d => wd
      | .stage _ => 32
    let r := stepVal tabs st.op (v st.a) (v st.b) (v st.c) w
    match st.dst with
    | .d => runSteps tabs a b c0 c1 l i wd rest stage r.1 (lrf || r.2)
    | .stage j => runSteps tabs a b c0 c1 l i wd rest (amSet (fun _ => 0) stage j.val r.1) d (lrf || r.2)

/-- A step's own number is in its range: SHIFT takes −63 to 63 (R133). -/
def pstepOk (st : PStep) : Bool :=
  match st.op with
  | .shift sh => decide (-63 ≤ sh) && decide (sh ≤ 63)
  | _ => true

/-- Whether a program is legal: up to 32 steps, each of them in range, of which exactly the last writes D (R129, R132,
R133). -/
def programOk (p : Program) : Bool :=
  decide (p.length ≤ 32) && p.all pstepOk &&
  (match p.reverse with
   | [] => false
   | last :: front => last.dst == .d && front.all (fun st => st.dst != .d))

/-- Whether a program names tile B (R131). -/
def programUsesB (p : Program) : Bool := p.any (fun st => st.a == .tileB || st.b == .tileB || st.c == .tileB)

/-- How many RECIP and RSQRT steps a program has, q of R136. -/
def programRecips (p : Program) : Nat :=
  (p.filter (fun st => match st.op with
    | .recip _ | .rsqrt _ => true
    | _ => false)).length

/-! ### Shuffles (R140, R141) -/

/-- One stage of the ESHUF.B network on distance bit `d`, with the 64 control bits of the stage. -/
def shufStage (d : Nat) (ctl : Nat → Bool) (v : List Int) : List Int :=
  (List.range 128).map (fun l =>
    let lo := if l / 2 ^ d % 2 = 0 then l else l - 2 ^ d
    let j := lo / 2 ^ (d + 1) * 2 ^ d + lo % 2 ^ d
    if ctl j then v.getD (if lo = l then l + 2 ^ d else lo) 0 else v.getD l 0)

/-- The 13 stages of ESHUF.B under control lanes `c` (R141). -/
def shufB (c v : List Int) : List Int :=
  (List.range 13).foldl (fun v st =>
    let d := if st ≤ 6 then st else 12 - st
    shufStage d (fun j => bitOf (truncN 8 (c.getD ((64 * st + j) / 8) 0)) ((64 * st + j) % 8)) v) v

def shufX (m : Nat) (v : List Int) : List Int := (List.range 128).map (fun l => v.getD (Nat.xor l m) 0)

/-! ### Lane groups (R142 to R144) -/

/-- The groups of 2^g lanes of a register. -/
def laneGroups (g : Nat) (v : List Int) : List (List Int) := chunk (2 ^ g) (128 / 2 ^ g) v

/-- ESUM of one register: its lanes, and whether a group's exact partial left the 32-bit range (R143). -/
def esumReg (g : Nat) (v : List Int) : List Int × Bool :=
  let rs := (laneGroups g v).map (fun gr => deliver (partial48 gr))
  (rs.flatMap (fun r => List.replicate (2 ^ g) r.1), rs.any Prod.snd)

/-- The largest value of a group and the lowest position that holds it (R144). -/
def groupMax (gr : List Int) : Int × Nat :=
  gr.zipIdx.foldl (fun m x => if x.1 > m.1 then (x.1, x.2) else m) (gr.headD 0, 0)

/-- EMAX of one register: its value lanes and its index lanes (R144). -/
def emaxReg (g : Nat) (v : List Int) : List Int × List Int :=
  let rs := (laneGroups g v).map groupMax
  (rs.flatMap (fun r => List.replicate (2 ^ g) r.1), rs.flatMap (fun r => List.replicate (2 ^ g) (r.2 : Int)))

end Sys2Proof.Machine
end

