-- ==== Sys2Proof/Machine/RegMap.lean ====
section
/-! DEFINITION. The register map of BAR0: one definition per register (its byte offset) and per field (its bits), and
one row per register kind with the reset value and the access codes of R16, taken row by row from the register tables
of spec/03 to spec/16.  A field whose Reset column says `fw` holds 0 at module reset (assumption 3). -/

namespace Sys2Proof.Machine

/-- A register field: the BAR0 offset of its register and its most and least significant bits. -/
structure Fld where
  reg : Nat
  hi : Nat
  lo : Nat
deriving DecidableEq, Repr

/-- One kind of register: its name, the offset of its first instance, the (count, stride) of each index, its reset
value, and the masks of its RW and W1C bits.  A bit in neither mask is RO, WO or reserved (R16, R18). -/
structure RegRow where
  name : String
  base : Nat
  dims : List (Nat × Nat)
  reset : Nat
  rw : Nat
  w1c : Nat
deriving DecidableEq, Repr


/-! ### Registers of spec/03_matrix_array.md (R109) -/

/-- `PAV[n].CORE[m].ARRSTAT` (03 R109). -/
def rARRSTAT (i j : Nat) : Nat := 0x1011000 + i * 0x100000 + j * 0x10000
def fARRSTAT_WMODE (i j : Nat) : Fld := ⟨rARRSTAT i j, 5, 4⟩
def fARRSTAT_PEND (i j : Nat) : Fld := ⟨rARRSTAT i j, 3, 3⟩
def fARRSTAT_REPL (i j : Nat) : Fld := ⟨rARRSTAT i j, 2, 2⟩
def fARRSTAT_BUSY (i j : Nat) : Fld := ⟨rARRSTAT i j, 1, 1⟩
def fARRSTAT_HEDGED (i j : Nat) : Fld := ⟨rARRSTAT i j, 0, 0⟩
/-- `PAV[n].CORE[m].ARRREPAIR` (03 R109). -/
def rARRREPAIR (i j : Nat) : Nat := 0x1011008 + i * 0x100000 + j * 0x10000
def fARRREPAIR_V1 (i j : Nat) : Fld := ⟨rARRREPAIR i j, 17, 17⟩
def fARRREPAIR_V0 (i j : Nat) : Fld := ⟨rARRREPAIR i j, 16, 16⟩
def fARRREPAIR_F1 (i j : Nat) : Fld := ⟨rARRREPAIR i j, 15, 8⟩
def fARRREPAIR_F0 (i j : Nat) : Fld := ⟨rARRREPAIR i j, 7, 0⟩
/-- `PAV[n].CORE[m].COLFLAG0` (03 R109). -/
def rCOLFLAG0 (i j : Nat) : Nat := 0x1011010 + i * 0x100000 + j * 0x10000
def fCOLFLAG0_COLF (i j : Nat) : Fld := ⟨rCOLFLAG0 i j, 63, 0⟩
/-- `PAV[n].CORE[m].COLFLAG1` (03 R109). -/
def rCOLFLAG1 (i j : Nat) : Nat := 0x1011018 + i * 0x100000 + j * 0x10000
def fCOLFLAG1_COLF (i j : Nat) : Fld := ⟨rCOLFLAG1 i j, 63, 0⟩
/-- `PAV[n].CORE[m].ARRPASSES` (03 R109). -/
def rARRPASSES (i j : Nat) : Nat := 0x1011020 + i * 0x100000 + j * 0x10000
def fARRPASSES_PASSES (i j : Nat) : Fld := ⟨rARRPASSES i j, 63, 0⟩
/-- `PAV[n].CORE[m].ARRFEED` (03 R109). -/
def rARRFEED (i j : Nat) : Nat := 0x1011028 + i * 0x100000 + j * 0x10000
def fARRFEED_FEED (i j : Nat) : Fld := ⟨rARRFEED i j, 63, 0⟩
/-- `PAV[n].CORE[m].COLCNT[k]` (03 R109). -/
def rCOLCNT (i j k : Nat) : Nat := 0x1011100 + i * 0x100000 + j * 0x10000 + k * 0x8
def fCOLCNT_CNTHI (i j k : Nat) : Fld := ⟨rCOLCNT i j k, 63, 32⟩
def fCOLCNT_CNTLO (i j k : Nat) : Fld := ⟨rCOLCNT i j k, 31, 0⟩

/-! ### Registers of spec/04_tiles_and_element_engine.md (R154) -/

/-- `PAV[n].CORE[m].TRLIVE` (04 R154). -/
def rTRLIVE (i j : Nat) : Nat := 0x1012000 + i * 0x100000 + j * 0x10000
def fTRLIVE_MAP (i j : Nat) : Fld := ⟨rTRLIVE i j, 63, 0⟩
/-- `PAV[n].CORE[m].TRSTALE` (04 R154). -/
def rTRSTALE (i j : Nat) : Nat := 0x1012008 + i * 0x100000 + j * 0x10000
def fTRSTALE_MAP (i j : Nat) : Fld := ⟨rTRSTALE i j, 63, 0⟩
/-- `PAV[n].CORE[m].TRREL` (04 R154). -/
def rTRREL (i j : Nat) : Nat := 0x1012010 + i * 0x100000 + j * 0x10000
def fTRREL_MAP (i j : Nat) : Fld := ⟨rTRREL i j, 63, 0⟩
/-- `PAV[n].CORE[m].TRWIDTH0` (04 R154). -/
def rTRWIDTH0 (i j : Nat) : Nat := 0x1012018 + i * 0x100000 + j * 0x10000
def fTRWIDTH0_WIDTH (i j : Nat) : Fld := ⟨rTRWIDTH0 i j, 63, 0⟩
/-- `PAV[n].CORE[m].TRWIDTH1` (04 R154). -/
def rTRWIDTH1 (i j : Nat) : Nat := 0x1012020 + i * 0x100000 + j * 0x10000
def fTRWIDTH1_WIDTH (i j : Nat) : Fld := ⟨rTRWIDTH1 i j, 63, 0⟩
/-- `PAV[n].CORE[m].LRFLAG` (04 R154). -/
def rLRFLAG (i j : Nat) : Nat := 0x1012028 + i * 0x100000 + j * 0x10000
def fLRFLAG_LRF (i j : Nat) : Fld := ⟨rLRFLAG i j, 0, 0⟩
/-- `PAV[n].CORE[m].LRCNT` (04 R154). -/
def rLRCNT (i j : Nat) : Nat := 0x1012030 + i * 0x100000 + j * 0x10000
def fLRCNT_COUNT (i j : Nat) : Fld := ⟨rLRCNT i j, 31, 0⟩
/-- `PAV[n].CORE[m].STALECNT` (04 R154). -/
def rSTALECNT (i j : Nat) : Nat := 0x1012038 + i * 0x100000 + j * 0x10000
def fSTALECNT_COUNT (i j : Nat) : Fld := ⟨rSTALECNT i j, 31, 0⟩
/-- `PAV[n].CORE[m].EESTAT` (04 R154). -/
def rEESTAT (i j : Nat) : Nat := 0x1012040 + i * 0x100000 + j * 0x10000
def fEESTAT_TVALID (i j : Nat) : Fld := ⟨rEESTAT i j, 7, 4⟩
def fEESTAT_RELOAD (i j : Nat) : Fld := ⟨rEESTAT i j, 1, 1⟩
def fEESTAT_BUSY (i j : Nat) : Fld := ⟨rEESTAT i j, 0, 0⟩
/-- `PAV[n].CORE[m].TBLADDR[t]` (04 R154). -/
def rTBLADDR (i j k : Nat) : Nat := 0x1012080 + i * 0x100000 + j * 0x10000 + k * 0x8
def fTBLADDR_OFFSET (i j k : Nat) : Fld := ⟨rTBLADDR i j k, 24, 0⟩
/-- `PAV[n].CORE[m].HNDSTAT` (04 R154). -/
def rHNDSTAT (i j : Nat) : Nat := 0x1013000 + i * 0x100000 + j * 0x10000
def fHNDSTAT_ROUTINE (i j : Nat) : Fld := ⟨rHNDSTAT i j, 11, 4⟩
def fHNDSTAT_CREEL (i j : Nat) : Fld := ⟨rHNDSTAT i j, 3, 1⟩
def fHNDSTAT_RUN (i j : Nat) : Fld := ⟨rHNDSTAT i j, 0, 0⟩
/-- `PAV[n].CORE[m].HNDLIM` (04 R154). -/
def rHNDLIM (i j : Nat) : Nat := 0x1013008 + i * 0x100000 + j * 0x10000
def fHNDLIM_LIMIT (i j : Nat) : Fld := ⟨rHNDLIM i j, 31, 0⟩
/-- `PAV[n].CORE[m].HNDCNT` (04 R154). -/
def rHNDCNT (i j : Nat) : Nat := 0x1013010 + i * 0x100000 + j * 0x10000
def fHNDCNT_COUNT (i j : Nat) : Fld := ⟨rHNDCNT i j, 63, 0⟩
/-- `PAV[n].CORE[m].HNDFLT` (04 R154). -/
def rHNDFLT (i j : Nat) : Nat := 0x1013018 + i * 0x100000 + j * 0x10000
def fHNDFLT_TLIM (i j : Nat) : Fld := ⟨rHNDFLT i j, 1, 1⟩
def fHNDFLT_ILL (i j : Nat) : Fld := ⟨rHNDFLT i j, 0, 0⟩
/-- `PAV[n].CORE[m].HNDFCNT` (04 R154). -/
def rHNDFCNT (i j : Nat) : Nat := 0x1013020 + i * 0x100000 + j * 0x10000
def fHNDFCNT_TLCNT (i j : Nat) : Fld := ⟨rHNDFCNT i j, 63, 32⟩
def fHNDFCNT_ILCNT (i j : Nat) : Fld := ⟨rHNDFCNT i j, 31, 0⟩

/-! ### Registers of spec/05_macro_ops_matrix_and_movement.md (R191) -/

/-- `PAV[n].CORE[m].SOPOUT` (05 R191). -/
def rSOPOUT (i j : Nat) : Nat := 0x1014000 + i * 0x100000 + j * 0x10000
def fSOPOUT_OUT (i j : Nat) : Fld := ⟨rSOPOUT i j, 6, 0⟩
/-- `PAV[n].CORE[m].SOPCNT` (05 R191). -/
def rSOPCNT (i j : Nat) : Nat := 0x1014008 + i * 0x100000 + j * 0x10000
def fSOPCNT_COUNT (i j : Nat) : Fld := ⟨rSOPCNT i j, 63, 0⟩
/-- `PAV[n].CORE[m].SOPERR` (05 R191). -/
def rSOPERR (i j : Nat) : Nat := 0x1014010 + i * 0x100000 + j * 0x10000
def fSOPERR_FAIL (i j : Nat) : Fld := ⟨rSOPERR i j, 7, 1⟩
/-- `PAV[n].CORE[m].SOPLAST` (05 R191). -/
def rSOPLAST (i j : Nat) : Nat := 0x1014018 + i * 0x100000 + j * 0x10000
def fSOPLAST_VALUE (i j : Nat) : Fld := ⟨rSOPLAST i j, 63, 0⟩
/-- `PAV[n].CORE[m].SOPECNT[k]` (05 R191). -/
def rSOPECNT (i j k : Nat) : Nat := 0x1014108 + i * 0x100000 + j * 0x10000 + (k - 1) * 0x8
def fSOPECNT_COUNT (i j k : Nat) : Fld := ⟨rSOPECNT i j k, 31, 0⟩

/-! ### Registers of spec/10_full_empty_and_creels.md (R439) -/

/-- `PAV[n].CORE[m].CRL[i].CRLCFG` (10 R439). -/
def rCRLCFG (i j k : Nat) : Nat := 0x1015000 + i * 0x100000 + j * 0x10000 + k * 0x40
def fCRLCFG_EN (i j k : Nat) : Fld := ⟨rCRLCFG i j k, 63, 63⟩
def fCRLCFG_GEN (i j k : Nat) : Fld := ⟨rCRLCFG i j k, 62, 59⟩
def fCRLCFG_CTX (i j k : Nat) : Fld := ⟨rCRLCFG i j k, 58, 55⟩
def fCRLCFG_ROUTINE (i j k : Nat) : Fld := ⟨rCRLCFG i j k, 49, 44⟩
def fCRLCFG_SIZE (i j k : Nat) : Fld := ⟨rCRLCFG i j k, 43, 40⟩
def fCRLCFG_QUIET (i j k : Nat) : Fld := ⟨rCRLCFG i j k, 31, 31⟩
def fCRLCFG_BASE (i j k : Nat) : Fld := ⟨rCRLCFG i j k, 24, 12⟩
/-- `PAV[n].CORE[m].CRL[i].CRLPTR` (10 R439). -/
def rCRLPTR (i j k : Nat) : Nat := 0x1015008 + i * 0x100000 + j * 0x10000 + k * 0x40
def fCRLPTR_TAIL (i j k : Nat) : Fld := ⟨rCRLPTR i j k, 51, 32⟩
def fCRLPTR_HEAD (i j k : Nat) : Fld := ⟨rCRLPTR i j k, 19, 0⟩
/-- `PAV[n].CORE[m].CRL[i].CRLCRED` (10 R439). -/
def rCRLCRED (i j k : Nat) : Nat := 0x1015010 + i * 0x100000 + j * 0x10000 + k * 0x40
def fCRLCRED_WAITREQ (i j k : Nat) : Fld := ⟨rCRLCRED i j k, 55, 45⟩
def fCRLCRED_POOL (i j k : Nat) : Fld := ⟨rCRLCRED i j k, 44, 24⟩
def fCRLCRED_GRANTQ (i j k : Nat) : Fld := ⟨rCRLCRED i j k, 20, 0⟩
/-- `PAV[n].CORE[m].CRL[i].CRLSTAT` (10 R439). -/
def rCRLSTAT (i j k : Nat) : Nat := 0x1015018 + i * 0x100000 + j * 0x10000 + k * 0x40
def fCRLSTAT_STALECNT (i j k : Nat) : Fld := ⟨rCRLSTAT i j k, 63, 48⟩
def fCRLSTAT_STALE (i j k : Nat) : Fld := ⟨rCRLSTAT i j k, 40, 40⟩
def fCRLSTAT_OCC (i j k : Nat) : Fld := ⟨rCRLSTAT i j k, 35, 15⟩
def fCRLSTAT_MSGS (i j k : Nat) : Fld := ⟨rCRLSTAT i j k, 14, 0⟩
/-- `PAV[n].CORE[m].CRL[i].CRLHDR[j]` (10 R439). -/
def rCRLHDR (i j k : Nat) : Nat := 0x1015020 + i * 0x100000 + j * 0x10000 + k * 0x40
def fCRLHDR_HDR (i j k : Nat) : Fld := ⟨rCRLHDR i j k, 63, 0⟩

/-! ### Registers of spec/06_macro_ops_element_sync_control.md (R247) -/

/-- `PAV[n].STR[k].STRSTAT` (06 R247). -/
def rSTRSTAT (i j : Nat) : Nat := 0x1000000 + i * 0x100000 + j * 0x100
def fSTRSTAT_CTX (i j : Nat) : Fld := ⟨rSTRSTAT i j, 27, 24⟩
def fSTRSTAT_HALF (i j : Nat) : Fld := ⟨rSTRSTAT i j, 23, 23⟩
def fSTRSTAT_DEPTH (i j : Nat) : Fld := ⟨rSTRSTAT i j, 22, 20⟩
def fSTRSTAT_WAITK (i j : Nat) : Fld := ⟨rSTRSTAT i j, 19, 16⟩
def fSTRSTAT_STATE (i j : Nat) : Fld := ⟨rSTRSTAT i j, 2, 0⟩
/-- `PAV[n].STR[k].STRPC` (06 R247). -/
def rSTRPC (i j : Nat) : Nat := 0x1000008 + i * 0x100000 + j * 0x100
def fSTRPC_TASK (i j : Nat) : Fld := ⟨rSTRPC i j, 47, 32⟩
def fSTRPC_PC (i j : Nat) : Fld := ⟨rSTRPC i j, 31, 0⟩
/-- `PAV[n].STR[k].STRLT` (06 R247). -/
def rSTRLT (i j : Nat) : Nat := 0x1000010 + i * 0x100000 + j * 0x100
def fSTRLT_ID (i j : Nat) : Fld := ⟨rSTRLT i j, 8, 8⟩
def fSTRLT_PINREC (i j : Nat) : Fld := ⟨rSTRLT i j, 2, 2⟩
def fSTRLT_PINTST (i j : Nat) : Fld := ⟨rSTRLT i j, 1, 1⟩
def fSTRLT_PINTLD (i j : Nat) : Fld := ⟨rSTRLT i j, 0, 0⟩
/-- `PAV[n].STR[k].STRSKIP` (06 R247). -/
def rSTRSKIP (i j : Nat) : Nat := 0x1000018 + i * 0x100000 + j * 0x100
def fSTRSKIP_PC (i j : Nat) : Fld := ⟨rSTRSKIP i j, 63, 32⟩
def fSTRSKIP_CAUSE (i j : Nat) : Fld := ⟨rSTRSKIP i j, 15, 8⟩
def fSTRSKIP_SKIP (i j : Nat) : Fld := ⟨rSTRSKIP i j, 0, 0⟩
/-- `PAV[n].STR[k].STRSKIPCNT` (06 R247). -/
def rSTRSKIPCNT (i j : Nat) : Nat := 0x1000020 + i * 0x100000 + j * 0x100
def fSTRSKIPCNT_COUNT (i j : Nat) : Fld := ⟨rSTRSKIPCNT i j, 31, 0⟩
/-- `PAV[n].STR[k].STRWAIT` (06 R247). -/
def rSTRWAIT (i j : Nat) : Nat := 0x1000028 + i * 0x100000 + j * 0x100
def fSTRWAIT_CYCLES (i j : Nat) : Fld := ⟨rSTRWAIT i j, 63, 0⟩
/-- `PAV[n].STR[k].STRLOOP0` (06 R247). -/
def rSTRLOOP0 (i j : Nat) : Nat := 0x1000030 + i * 0x100000 + j * 0x100
def fSTRLOOP0_HI (i j : Nat) : Fld := ⟨rSTRLOOP0 i j, 63, 32⟩
def fSTRLOOP0_LO (i j : Nat) : Fld := ⟨rSTRLOOP0 i j, 31, 0⟩
/-- `PAV[n].STR[k].STRLOOP1` (06 R247). -/
def rSTRLOOP1 (i j : Nat) : Nat := 0x1000038 + i * 0x100000 + j * 0x100
def fSTRLOOP1_HI (i j : Nat) : Fld := ⟨rSTRLOOP1 i j, 63, 32⟩
def fSTRLOOP1_LO (i j : Nat) : Fld := ⟨rSTRLOOP1 i j, 31, 0⟩

/-! ### Registers of spec/10_full_empty_and_creels.md (R440) -/

/-- `PAV[n].STR[k].STRWTO` (10 R440). -/
def rSTRWTO (i j : Nat) : Nat := 0x1000040 + i * 0x100000 + j * 0x100
def fSTRWTO_TOCNT (i j : Nat) : Fld := ⟨rSTRWTO i j, 63, 32⟩
def fSTRWTO_STRWTO (i j : Nat) : Fld := ⟨rSTRWTO i j, 19, 0⟩

/-! ### Registers of spec/11_ordering_dma_and_wickets.md (R481) -/

/-- `PAV[n].STR[k].STRHOLD` (11 R481). -/
def rSTRHOLD (i j : Nat) : Nat := 0x1000048 + i * 0x100000 + j * 0x100
def fSTRHOLD_HOLDS (i j : Nat) : Fld := ⟨rSTRHOLD i j, 31, 0⟩
/-- `PAV[n].STR[k].STRHOLDCY` (11 R481). -/
def rSTRHOLDCY (i j : Nat) : Nat := 0x1000050 + i * 0x100000 + j * 0x100
def fSTRHOLDCY_CYCLES (i j : Nat) : Fld := ⟨rSTRHOLDCY i j, 63, 0⟩

/-! ### Registers of spec/07_orangery.md (R287) -/

/-- `ORG.ORGREADY` (07 R287). -/
def rORG_ORGREADY : Nat := 0x2000000
def fORG_ORGREADY_READY : Fld := ⟨rORG_ORGREADY, 63, 0⟩
/-- `ORG.ORGHEDGE` (07 R287). -/
def rORG_ORGHEDGE : Nat := 0x2000008
def fORG_ORGHEDGE_HEDGED : Fld := ⟨rORG_ORGHEDGE, 63, 0⟩
/-- `ORG.PROMCTL` (07 R287). -/
def rORG_PROMCTL : Nat := 0x2000010
def fORG_PROMCTL_RESMAX : Fld := ⟨rORG_PROMCTL, 11, 8⟩
def fORG_PROMCTL_PLANEN : Fld := ⟨rORG_PROMCTL, 0, 0⟩
/-- `ORG.SCRUBCTL` (07 R287). -/
def rORG_SCRUBCTL : Nat := 0x2000018
def fORG_SCRUBCTL_EN : Fld := ⟨rORG_SCRUBCTL, 16, 16⟩
def fORG_SCRUBCTL_INTERVAL : Fld := ⟨rORG_SCRUBCTL, 15, 0⟩
/-- `ORG.COLLSTAT` (07 R287). -/
def rORG_COLLSTAT : Nat := 0x2000020
def fORG_COLLSTAT_LINK : Fld := ⟨rORG_COLLSTAT, 31, 24⟩
def fORG_COLLSTAT_SLOT : Fld := ⟨rORG_COLLSTAT, 23, 20⟩
def fORG_COLLSTAT_OWNER : Fld := ⟨rORG_COLLSTAT, 19, 16⟩
def fORG_COLLSTAT_REQ : Fld := ⟨rORG_COLLSTAT, 15, 12⟩
def fORG_COLLSTAT_CAP : Fld := ⟨rORG_COLLSTAT, 1, 1⟩
def fORG_COLLSTAT_COLL : Fld := ⟨rORG_COLLSTAT, 0, 0⟩
/-- `ORG.COLLCNT` (07 R287). -/
def rORG_COLLCNT : Nat := 0x2000028
def fORG_COLLCNT_COUNT : Fld := ⟨rORG_COLLCNT, 31, 0⟩
/-- `ORG.OVRCNT` (07 R287). -/
def rORG_OVRCNT : Nat := 0x2000030
def fORG_OVRCNT_COUNT : Fld := ⟨rORG_OVRCNT, 31, 0⟩
/-- `ORG.HOLESTAT` (07 R287). -/
def rORG_HOLESTAT : Nat := 0x2000038
def fORG_HOLESTAT_NRDYCNT : Fld := ⟨rORG_HOLESTAT, 63, 48⟩
def fORG_HOLESTAT_HOLECNT : Fld := ⟨rORG_HOLESTAT, 47, 32⟩
def fORG_HOLESTAT_NRDY : Fld := ⟨rORG_HOLESTAT, 1, 1⟩
def fORG_HOLESTAT_HOLE : Fld := ⟨rORG_HOLESTAT, 0, 0⟩
/-- `ORG.MDADDR` (07 R287). -/
def rORG_MDADDR : Nat := 0x2000040
def fORG_MDADDR_ADDR : Fld := ⟨rORG_MDADDR, 30, 3⟩
/-- `ORG.MDVAL` (07 R287). -/
def rORG_MDVAL : Nat := 0x2000048
def fORG_MDVAL_POISON : Fld := ⟨rORG_MDVAL, 1, 1⟩
def fORG_MDVAL_FULL : Fld := ⟨rORG_MDVAL, 0, 0⟩
/-- `ORG.SLC[s].BANKHEDGE` (07 R287). -/
def rSLC_BANKHEDGE (i : Nat) : Nat := 0x2010000 + i * 0x40
def fSLC_BANKHEDGE_HEDGED (i : Nat) : Fld := ⟨rSLC_BANKHEDGE i, 15, 0⟩
/-- `ORG.SLC[s].CECNT` (07 R287). -/
def rSLC_CECNT (i : Nat) : Nat := 0x2010008 + i * 0x40
def fSLC_CECNT_COUNT (i : Nat) : Fld := ⟨rSLC_CECNT i, 31, 0⟩
/-- `ORG.SLC[s].UECNT` (07 R287). -/
def rSLC_UECNT (i : Nat) : Nat := 0x2010010 + i * 0x40
def fSLC_UECNT_COUNT (i : Nat) : Fld := ⟨rSLC_UECNT i, 31, 0⟩
/-- `ORG.SLC[s].UELAST` (07 R287). -/
def rSLC_UELAST (i : Nat) : Nat := 0x2010018 + i * 0x40
def fSLC_UELAST_UE (i : Nat) : Fld := ⟨rSLC_UELAST i, 63, 63⟩
def fSLC_UELAST_ADDR (i : Nat) : Fld := ⟨rSLC_UELAST i, 30, 3⟩
/-- `ORG.SLC[s].DYNDEFER` (07 R287). -/
def rSLC_DYNDEFER (i : Nat) : Nat := 0x2010020 + i * 0x40
def fSLC_DYNDEFER_CYCLES (i : Nat) : Fld := ⟨rSLC_DYNDEFER i, 63, 0⟩
/-- `ORG.PLANMASK[L]` (07 R287). -/
def rORG_PLANMASK (i : Nat) : Nat := 0x2020000 + i * 0x10
def fORG_PLANMASK_MASK (i : Nat) : Fld := ⟨rORG_PLANMASK i, 15, 0⟩
/-- `ORG.PLANOWN[L]` (07 R287). -/
def rORG_PLANOWN (i : Nat) : Nat := 0x2020008 + i * 0x10
def fORG_PLANOWN_OWNER (i : Nat) : Fld := ⟨rORG_PLANOWN i, 63, 0⟩
/-- `ORG.LSTALL[L]` (07 R287). -/
def rORG_LSTALL (i : Nat) : Nat := 0x2030000 + i * 0x8
def fORG_LSTALL_CYCLES (i : Nat) : Fld := ⟨rORG_LSTALL i, 63, 0⟩
/-- `ORG.OWN[q]` (07 R287). -/
def rORG_OWN (i : Nat) : Nat := 0x2040000 + i * 0x8
def fORG_OWN_OWNER (i : Nat) : Fld := ⟨rORG_OWN i, 63, 0⟩

/-! ### Registers of spec/08_memory_stacks_and_slath_engines.md (R338) -/

/-- `SLA[n].STAT` (08 R338). -/
def rSTK_STAT (i : Nat) : Nat := 0x2800000 + i * 0x10000
def fSTK_STAT_REFX2 (i : Nat) : Fld := ⟨rSTK_STAT i, 5, 5⟩
def fSTK_STAT_THROT (i : Nat) : Fld := ⟨rSTK_STAT i, 4, 4⟩
def fSTK_STAT_HEDGED (i : Nat) : Fld := ⟨rSTK_STAT i, 3, 3⟩
def fSTK_STAT_LINKDEG (i : Nat) : Fld := ⟨rSTK_STAT i, 2, 2⟩
def fSTK_STAT_READY (i : Nat) : Fld := ⟨rSTK_STAT i, 1, 1⟩
def fSTK_STAT_TRAIN (i : Nat) : Fld := ⟨rSTK_STAT i, 0, 0⟩
/-- `SLA[n].LINKSTAT` (08 R338). -/
def rSTK_LINKSTAT (i : Nat) : Nat := 0x2800008 + i * 0x10000
def fSTK_LINKSTAT_SPUP (i : Nat) : Fld := ⟨rSTK_LINKSTAT i, 7, 4⟩
def fSTK_LINKSTAT_SPDN (i : Nat) : Fld := ⟨rSTK_LINKSTAT i, 3, 0⟩
/-- `SLA[n].LINKCNT` (08 R338). -/
def rSTK_LINKCNT (i : Nat) : Nat := 0x2800010 + i * 0x10000
def fSTK_LINKCNT_REPLAY (i : Nat) : Fld := ⟨rSTK_LINKCNT i, 63, 32⟩
def fSTK_LINKCNT_CRC (i : Nat) : Fld := ⟨rSTK_LINKCNT i, 31, 0⟩
/-- `SLA[n].PCHEDGE` (08 R338). -/
def rSTK_PCHEDGE (i : Nat) : Nat := 0x2800018 + i * 0x10000
def fSTK_PCHEDGE_HEDGED (i : Nat) : Fld := ⟨rSTK_PCHEDGE i, 63, 0⟩
/-- `SLA[n].CECNT` (08 R338). -/
def rSTK_CECNT (i : Nat) : Nat := 0x2800020 + i * 0x10000
def fSTK_CECNT_COUNT (i : Nat) : Fld := ⟨rSTK_CECNT i, 31, 0⟩
/-- `SLA[n].UECNT` (08 R338). -/
def rSTK_UECNT (i : Nat) : Nat := 0x2800028 + i * 0x10000
def fSTK_UECNT_COUNT (i : Nat) : Fld := ⟨rSTK_UECNT i, 31, 0⟩
/-- `SLA[n].UELAST` (08 R338). -/
def rSTK_UELAST (i : Nat) : Nat := 0x2800030 + i * 0x10000
def fSTK_UELAST_UE (i : Nat) : Fld := ⟨rSTK_UELAST i, 63, 63⟩
def fSTK_UELAST_OFFSET (i : Nat) : Fld := ⟨rSTK_UELAST i, 35, 6⟩
/-- `SLA[n].SPARED` (08 R338). -/
def rSTK_SPARED (i : Nat) : Nat := 0x2800038 + i * 0x10000
def fSTK_SPARED_ROWS (i : Nat) : Fld := ⟨rSTK_SPARED i, 31, 16⟩
def fSTK_SPARED_LEFT (i : Nat) : Fld := ⟨rSTK_SPARED i, 5, 0⟩
/-- `SLA[n].SCRUBPOS` (08 R338). -/
def rSTK_SCRUBPOS (i : Nat) : Nat := 0x2800040 + i * 0x10000
def fSTK_SCRUBPOS_PASSES (i : Nat) : Fld := ⟨rSTK_SCRUBPOS i, 63, 32⟩
def fSTK_SCRUBPOS_NEXT (i : Nat) : Fld := ⟨rSTK_SCRUBPOS i, 29, 6⟩
/-- `SLA[n].TEMP` (08 R338). -/
def rSTK_TEMP (i : Nat) : Nat := 0x2800048 + i * 0x10000
def fSTK_TEMP_DEGC (i : Nat) : Fld := ⟨rSTK_TEMP i, 7, 0⟩
/-- `SLA[n].UNITCNT` (08 R338). -/
def rSTK_UNITCNT (i : Nat) : Nat := 0x2800050 + i * 0x10000
def fSTK_UNITCNT_COUNT (i : Nat) : Fld := ⟨rSTK_UNITCNT i, 63, 0⟩
/-- `SLA[n].BUSYNS` (08 R338). -/
def rSTK_BUSYNS (i : Nat) : Nat := 0x2800058 + i * 0x10000
def fSTK_BUSYNS_COUNT (i : Nat) : Fld := ⟨rSTK_BUSYNS i, 63, 0⟩
/-- `SLA[n].RDBYTES` (08 R338). -/
def rSTK_RDBYTES (i : Nat) : Nat := 0x2800060 + i * 0x10000
def fSTK_RDBYTES_COUNT (i : Nat) : Fld := ⟨rSTK_RDBYTES i, 63, 0⟩
/-- `SLA.READY` (08 R338). -/
def rSLA_READY : Nat := 0x2a00000
def fSLA_READY_MAP : Fld := ⟨rSLA_READY, 31, 0⟩
/-- `SLA.HEDGED` (08 R338). -/
def rSLA_HEDGED : Nat := 0x2a00008
def fSLA_HEDGED_MAP : Fld := ⟨rSLA_HEDGED, 31, 0⟩
/-- `SLA.SCRUBCTL` (08 R338). -/
def rSLA_SCRUBCTL : Nat := 0x2a00010
def fSLA_SCRUBCTL_EN : Fld := ⟨rSLA_SCRUBCTL, 24, 24⟩
def fSLA_SCRUBCTL_INTERVAL : Fld := ⟨rSLA_SCRUBCTL, 23, 0⟩
/-- `SLA.INVAL` (08 R338). -/
def rSLA_INVAL : Nat := 0x2a00018
def fSLA_INVAL_CTX : Fld := ⟨rSLA_INVAL, 51, 48⟩
def fSLA_INVAL_VA : Fld := ⟨rSLA_INVAL, 47, 16⟩
def fSLA_INVAL_SCOPE : Fld := ⟨rSLA_INVAL, 1, 0⟩
/-- `SLA.INVALSTAT` (08 R338). -/
def rSLA_INVALSTAT : Nat := 0x2a00020
def fSLA_INVALSTAT_DROPCNT : Fld := ⟨rSLA_INVALSTAT, 63, 48⟩
def fSLA_INVALSTAT_DROP : Fld := ⟨rSLA_INVALSTAT, 1, 1⟩
def fSLA_INVALSTAT_BUSY : Fld := ⟨rSLA_INVALSTAT, 0, 0⟩
/-- `SLA.WALKCNT` (08 R338). -/
def rSLA_WALKCNT : Nat := 0x2a00028
def fSLA_WALKCNT_BADCNT : Fld := ⟨rSLA_WALKCNT, 63, 48⟩
def fSLA_WALKCNT_BAD : Fld := ⟨rSLA_WALKCNT, 47, 47⟩
def fSLA_WALKCNT_WALKS : Fld := ⟨rSLA_WALKCNT, 46, 0⟩
/-- `SLA.REJ` (08 R338). -/
def rSLA_REJ : Nat := 0x2a00030
def fSLA_REJ_CAUSE : Fld := ⟨rSLA_REJ, 63, 56⟩
def fSLA_REJ_CTX : Fld := ⟨rSLA_REJ, 55, 52⟩
def fSLA_REJ_REJFLAG : Fld := ⟨rSLA_REJ, 32, 32⟩
def fSLA_REJ_REJCNT : Fld := ⟨rSLA_REJ, 31, 0⟩
/-- `SLA.CTXMEM[c]` (08 R338). -/
def rSLA_CTXMEM (i : Nat) : Nat := 0x2a00100 + i * 0x8
def fSLA_CTXMEM_EN (i : Nat) : Fld := ⟨rSLA_CTXMEM i, 63, 63⟩
def fSLA_CTXMEM_PRIV (i : Nat) : Fld := ⟨rSLA_CTXMEM i, 62, 62⟩
def fSLA_CTXMEM_ROOT (i : Nat) : Fld := ⟨rSLA_CTXMEM i, 40, 12⟩

/-! ### Registers of spec/09_gatehouse_tasks_and_queues.md (R401) -/

/-- `GATE.GATESTAT` (09 R401). -/
def rGATE_GATESTAT : Nat := 0x100000
def fGATE_GATESTAT_INFLIGHT : Fld := ⟨rGATE_GATESTAT, 44, 32⟩
def fGATE_GATESTAT_READY : Fld := ⟨rGATE_GATESTAT, 28, 16⟩
def fGATE_GATESTAT_RUN : Fld := ⟨rGATE_GATESTAT, 15, 0⟩
/-- `GATE.AGECFG` (09 R401). -/
def rGATE_AGECFG : Nat := 0x100008
def fGATE_AGECFG_PROMPT : Fld := ⟨rGATE_AGECFG, 47, 32⟩
def fGATE_AGECFG_BULK : Fld := ⟨rGATE_AGECFG, 31, 16⟩
def fGATE_AGECFG_IDLE : Fld := ⟨rGATE_AGECFG, 15, 0⟩
/-- `GATE.DISPCFG` (09 R401). -/
def rGATE_DISPCFG : Nat := 0x100010
def fGATE_DISPCFG_RETRY : Fld := ⟨rGATE_DISPCFG, 2, 2⟩
def fGATE_DISPCFG_DLPROM : Fld := ⟨rGATE_DISPCFG, 1, 1⟩
def fGATE_DISPCFG_PREEN : Fld := ⟨rGATE_DISPCFG, 0, 0⟩
/-- `GATE.PREEMPTCNT` (09 R401). -/
def rGATE_PREEMPTCNT : Nat := 0x100018
def fGATE_PREEMPTCNT_RESUMES : Fld := ⟨rGATE_PREEMPTCNT, 63, 32⟩
def fGATE_PREEMPTCNT_PREEMPTS : Fld := ⟨rGATE_PREEMPTCNT, 31, 0⟩
/-- `GATE.REJSTAT` (09 R401). -/
def rGATE_REJSTAT : Nat := 0x100020
def fGATE_REJSTAT_CODE : Fld := ⟨rGATE_REJSTAT, 63, 56⟩
def fGATE_REJSTAT_CTX : Fld := ⟨rGATE_REJSTAT, 55, 52⟩
def fGATE_REJSTAT_QUEUE : Fld := ⟨rGATE_REJSTAT, 51, 49⟩
def fGATE_REJSTAT_REJ : Fld := ⟨rGATE_REJSTAT, 32, 32⟩
def fGATE_REJSTAT_REJCNT : Fld := ⟨rGATE_REJSTAT, 31, 0⟩
/-- `GATE.STALECNT` (09 R401). -/
def rGATE_STALECNT : Nat := 0x100028
def fGATE_STALECNT_COUNT : Fld := ⟨rGATE_STALECNT, 31, 0⟩
/-- `GATE.YIELDREQ` (09 R401). -/
def rGATE_YIELDREQ : Nat := 0x100030
def fGATE_YIELDREQ_REQ : Fld := ⟨rGATE_YIELDREQ, 15, 0⟩

/-! ### Registers of spec/12_compiler_contract_and_determinism.md (R508) -/

/-- `GATE.MODECFG` (12 R508). -/
def rGATE_MODECFG : Nat := 0x100038
def fGATE_MODECFG_REJCNT : Fld := ⟨rGATE_MODECFG, 63, 48⟩
def fGATE_MODECFG_REJ : Fld := ⟨rGATE_MODECFG, 2, 2⟩
def fGATE_MODECFG_ORDSTRICT : Fld := ⟨rGATE_MODECFG, 1, 1⟩
def fGATE_MODECFG_ORDERED : Fld := ⟨rGATE_MODECFG, 0, 0⟩

/-! ### Registers of spec/09_gatehouse_tasks_and_queues.md (R401) -/

/-- `GATE.CTX[c].CTXCTL` (09 R401). -/
def rCTXCTL (i : Nat) : Nat := 0x101000 + i * 0x40
def fCTXCTL_EN (i : Nat) : Fld := ⟨rCTXCTL i, 63, 63⟩
def fCTXCTL_YK8 (i : Nat) : Fld := ⟨rCTXCTL i, 62, 62⟩
def fCTXCTL_MAXTASK (i : Nat) : Fld := ⟨rCTXCTL i, 44, 32⟩
/-- `GATE.CTX[c].BINAREA` (09 R401). -/
def rBINAREA (i : Nat) : Nat := 0x101008 + i * 0x40
def fBINAREA_COUNT (i : Nat) : Fld := ⟨rBINAREA i, 39, 32⟩
def fBINAREA_BASE (i : Nat) : Fld := ⟨rBINAREA i, 30, 16⟩
/-- `GATE.CTX[c].SAVEAREA` (09 R401). -/
def rSAVEAREA (i : Nat) : Nat := 0x101010 + i * 0x40
def fSAVEAREA_NSAVE (i : Nat) : Fld := ⟨rSAVEAREA i, 51, 48⟩
def fSAVEAREA_BASE (i : Nat) : Fld := ⟨rSAVEAREA i, 24, 16⟩
/-- `GATE.CTX[c].CTXKILL` (09 R401). -/
def rCTXKILL (i : Nat) : Nat := 0x101018 + i * 0x40
def fCTXKILL_KILL (i : Nat) : Fld := ⟨rCTXKILL i, 0, 0⟩
/-- `GATE.CTX[c].Q[q].QCTL` (09 R401). -/
def rQCTL (i j : Nat) : Nat := 0x102000 + i * 0x200 + j * 0x40
def fQCTL_VEC (i j : Nat) : Fld := ⟨rQCTL i j, 23, 16⟩
def fQCTL_STOP (i j : Nat) : Fld := ⟨rQCTL i j, 2, 2⟩
def fQCTL_RESUME (i j : Nat) : Fld := ⟨rQCTL i j, 1, 1⟩
def fQCTL_EN (i j : Nat) : Fld := ⟨rQCTL i j, 0, 0⟩
/-- `GATE.CTX[c].Q[q].CMDRING` (09 R401). -/
def rCMDRING (i j : Nat) : Nat := 0x102008 + i * 0x200 + j * 0x40
def fCMDRING_SIZE (i j : Nat) : Fld := ⟨rCMDRING i j, 63, 60⟩
def fCMDRING_ADDR (i j : Nat) : Fld := ⟨rCMDRING i j, 51, 5⟩
/-- `GATE.CTX[c].Q[q].CPLRING` (09 R401). -/
def rCPLRING (i j : Nat) : Nat := 0x102010 + i * 0x200 + j * 0x40
def fCPLRING_SIZE (i j : Nat) : Fld := ⟨rCPLRING i j, 63, 60⟩
def fCPLRING_ADDR (i j : Nat) : Fld := ⟨rCPLRING i j, 51, 5⟩
/-- `GATE.CTX[c].Q[q].QPTR` (09 R401). -/
def rQPTR (i j : Nat) : Nat := 0x102018 + i * 0x200 + j * 0x40
def fQPTR_TAIL (i j : Nat) : Fld := ⟨rQPTR i j, 63, 32⟩
def fQPTR_HEAD (i j : Nat) : Fld := ⟨rQPTR i j, 31, 0⟩
/-- `GATE.CTX[c].Q[q].CPLPTR` (09 R401). -/
def rCPLPTR (i j : Nat) : Nat := 0x102020 + i * 0x200 + j * 0x40
def fCPLPTR_CPLTAIL (i j : Nat) : Fld := ⟨rCPLPTR i j, 63, 32⟩
def fCPLPTR_CPLHEAD (i j : Nat) : Fld := ⟨rCPLPTR i j, 31, 0⟩
/-- `GATE.CTX[c].Q[q].QSTAT` (09 R401). -/
def rQSTAT (i j : Nat) : Nat := 0x102028 + i * 0x200 + j * 0x40
def fQSTAT_DBDROP (i j : Nat) : Fld := ⟨rQSTAT i j, 47, 32⟩
def fQSTAT_CAUSE (i j : Nat) : Fld := ⟨rQSTAT i j, 23, 16⟩
def fQSTAT_STATE (i j : Nat) : Fld := ⟨rQSTAT i j, 2, 0⟩
/-- `GATE.SEQ[s].SEQA` (09 R401). -/
def rSEQA (i : Nat) : Nat := 0x110000 + i * 0x10
def fSEQA_OPEN (i : Nat) : Fld := ⟨rSEQA i, 63, 63⟩
def fSEQA_CTX (i : Nat) : Fld := ⟨rSEQA i, 59, 56⟩
def fSEQA_CLASS (i : Nat) : Fld := ⟨rSEQA i, 55, 54⟩
def fSEQA_PTADDR (i : Nat) : Fld := ⟨rSEQA i, 47, 6⟩
/-- `GATE.SEQ[s].SEQB` (09 R401). -/
def rSEQB (i : Nat) : Nat := 0x110008 + i * 0x10
def fSEQB_LATECNT (i : Nat) : Fld := ⟨rSEQB i, 63, 32⟩
def fSEQB_DEADLINE (i : Nat) : Fld := ⟨rSEQB i, 23, 0⟩

/-! ### Registers of spec/11_ordering_dma_and_wickets.md (R480) -/

/-- `DMA.DMASTAT` (11 R480). -/
def rDMA_DMASTAT : Nat := 0x3000000
def fDMA_DMASTAT_RUN : Fld := ⟨rDMA_DMASTAT, 63, 0⟩
/-- `DMA.STALECNT` (11 R480). -/
def rDMA_STALECNT : Nat := 0x3000008
def fDMA_STALECNT_COUNT : Fld := ⟨rDMA_STALECNT, 31, 0⟩
/-- `DMA.FLTRING` (11 R480). -/
def rDMA_FLTRING : Nat := 0x3000010
def fDMA_FLTRING_SIZE : Fld := ⟨rDMA_FLTRING, 63, 60⟩
def fDMA_FLTRING_EN : Fld := ⟨rDMA_FLTRING, 59, 59⟩
def fDMA_FLTRING_ADDR : Fld := ⟨rDMA_FLTRING, 51, 5⟩
/-- `DMA.FLTPTR` (11 R480). -/
def rDMA_FLTPTR : Nat := 0x3000018
def fDMA_FLTPTR_TAIL : Fld := ⟨rDMA_FLTPTR, 63, 32⟩
def fDMA_FLTPTR_HEAD : Fld := ⟨rDMA_FLTPTR, 31, 0⟩
/-- `DMA.FLTRESP` (11 R480). -/
def rDMA_FLTRESP : Nat := 0x3000020
def fDMA_FLTRESP_RESULT : Fld := ⟨rDMA_FLTRESP, 17, 16⟩
def fDMA_FLTRESP_FID : Fld := ⟨rDMA_FLTRESP, 15, 0⟩
/-- `DMA.FLTSTAT` (11 R480). -/
def rDMA_FLTSTAT : Nat := 0x3000028
def fDMA_FLTSTAT_STALECNT : Fld := ⟨rDMA_FLTSTAT, 63, 48⟩
def fDMA_FLTSTAT_OPEN : Fld := ⟨rDMA_FLTSTAT, 40, 32⟩
def fDMA_FLTSTAT_WAITCNT : Fld := ⟨rDMA_FLTSTAT, 31, 16⟩
def fDMA_FLTSTAT_WAIT : Fld := ⟨rDMA_FLTSTAT, 0, 0⟩
/-- `DMA.CH[ch].CHCTL` (11 R480). -/
def rCHCTL (i : Nat) : Nat := 0x3001000 + i * 0x40
def fCHCTL_EN (i : Nat) : Fld := ⟨rCHCTL i, 63, 63⟩
def fCHCTL_CTX (i : Nat) : Fld := ⟨rCHCTL i, 62, 59⟩
def fCHCTL_CLASS (i : Nat) : Fld := ⟨rCHCTL i, 58, 57⟩
def fCHCTL_QUIET (i : Nat) : Fld := ⟨rCHCTL i, 56, 56⟩
def fCHCTL_GEN (i : Nat) : Fld := ⟨rCHCTL i, 55, 52⟩
def fCHCTL_KILL (i : Nat) : Fld := ⟨rCHCTL i, 2, 2⟩
def fCHCTL_STOP (i : Nat) : Fld := ⟨rCHCTL i, 1, 1⟩
/-- `DMA.CH[ch].CHSTAT` (11 R480). -/
def rCHSTAT (i : Nat) : Nat := 0x3001008 + i * 0x40
def fCHSTAT_DID (i : Nat) : Fld := ⟨rCHSTAT i, 63, 48⟩
def fCHSTAT_BADN (i : Nat) : Fld := ⟨rCHSTAT i, 47, 32⟩
def fCHSTAT_DONEN (i : Nat) : Fld := ⟨rCHSTAT i, 31, 16⟩
def fCHSTAT_STATE (i : Nat) : Fld := ⟨rCHSTAT i, 2, 0⟩
/-- `DMA.CH[ch].CHDESC` (11 R480). -/
def rCHDESC (i : Nat) : Nat := 0x3001010 + i * 0x40
def fCHDESC_ADDR (i : Nat) : Fld := ⟨rCHDESC i, 51, 0⟩
/-- `DMA.CH[ch].CHERR` (11 R480). -/
def rCHERR (i : Nat) : Nat := 0x3001018 + i * 0x40
def fCHERR_LAST (i : Nat) : Fld := ⟨rCHERR i, 63, 56⟩
def fCHERR_BADCNT (i : Nat) : Fld := ⟨rCHERR i, 39, 8⟩
def fCHERR_BAD (i : Nat) : Fld := ⟨rCHERR i, 0, 0⟩
/-- `DMA.CH[ch].CHBYTES` (11 R480). -/
def rCHBYTES (i : Nat) : Nat := 0x3001020 + i * 0x40
def fCHBYTES_BYTES (i : Nat) : Fld := ⟨rCHBYTES i, 63, 0⟩
/-- `DMA.REQ[l]` (11 R480). -/
def rDMA_REQ (i : Nat) : Nat := 0x3003000 + i * 0x8
def fDMA_REQ_KIND (i : Nat) : Fld := ⟨rDMA_REQ i, 63, 63⟩
def fDMA_REQ_PEND (i : Nat) : Fld := ⟨rDMA_REQ i, 47, 32⟩
def fDMA_REQ_ADDR (i : Nat) : Fld := ⟨rDMA_REQ i, 30, 3⟩
/-- `DMA.WKT[w].WKCTL` (11 R480). -/
def rWKCTL (i : Nat) : Nat := 0x3004000 + i * 0x40
def fWKCTL_EN (i : Nat) : Fld := ⟨rWKCTL i, 63, 63⟩
def fWKCTL_GEN (i : Nat) : Fld := ⟨rWKCTL i, 62, 59⟩
def fWKCTL_CTX (i : Nat) : Fld := ⟨rWKCTL i, 58, 55⟩
def fWKCTL_QUIET (i : Nat) : Fld := ⟨rWKCTL i, 54, 54⟩
def fWKCTL_PERM (i : Nat) : Fld := ⟨rWKCTL i, 51, 48⟩
def fWKCTL_INIT (i : Nat) : Fld := ⟨rWKCTL i, 23, 0⟩
/-- `DMA.WKT[w].WKPEER` (11 R480). -/
def rWKPEER (i : Nat) : Nat := 0x3004008 + i * 0x40
def fWKPEER_PORTS (i : Nat) : Fld := ⟨rWKPEER i, 23, 16⟩
def fWKPEER_PCTX (i : Nat) : Fld := ⟨rWKPEER i, 15, 0⟩
/-- `DMA.WKT[w].WKBASE` (11 R480). -/
def rWKBASE (i : Nat) : Nat := 0x3004010 + i * 0x40
def fWKBASE_BASE (i : Nat) : Fld := ⟨rWKBASE i, 51, 12⟩
/-- `DMA.WKT[w].WKSIZE` (11 R480). -/
def rWKSIZE (i : Nat) : Nat := 0x3004018 + i * 0x40
def fWKSIZE_PAGES (i : Nat) : Fld := ⟨rWKSIZE i, 26, 0⟩
/-- `DMA.WKT[w].WKPOOL` (11 R480). -/
def rWKPOOL (i : Nat) : Nat := 0x3004020 + i * 0x40
def fWKPOOL_OUT (i : Nat) : Fld := ⟨rWKPOOL i, 63, 32⟩
def fWKPOOL_POOL (i : Nat) : Fld := ⟨rWKPOOL i, 31, 0⟩
/-- `DMA.WKT[w].WKRELW` (11 R480). -/
def rWKRELW (i : Nat) : Nat := 0x3004028 + i * 0x40
def fWKRELW_EN (i : Nat) : Fld := ⟨rWKRELW i, 63, 63⟩
def fWKRELW_ADDR (i : Nat) : Fld := ⟨rWKRELW i, 30, 3⟩
/-- `DMA.WKT[w].WKRET` (11 R480). -/
def rWKRET (i : Nat) : Nat := 0x3004030 + i * 0x40
def fWKRET_BYTES (i : Nat) : Fld := ⟨rWKRET i, 31, 0⟩
/-- `DMA.WKT[w].WKSTAT` (11 R480). -/
def rWKSTAT (i : Nat) : Nat := 0x3004038 + i * 0x40
def fWKSTAT_VIOLCNT (i : Nat) : Fld := ⟨rWKSTAT i, 63, 48⟩
def fWKSTAT_STALECNT (i : Nat) : Fld := ⟨rWKSTAT i, 47, 32⟩
def fWKSTAT_CAUSE (i : Nat) : Fld := ⟨rWKSTAT i, 11, 8⟩
def fWKSTAT_STALE (i : Nat) : Fld := ⟨rWKSTAT i, 1, 1⟩
def fWKSTAT_VIOL (i : Nat) : Fld := ⟨rWKSTAT i, 0, 0⟩

/-! ### Registers of spec/13_oantaec_links_and_lanterns.md (R560) -/

/-- `LNK[p].LNKCTL` (13 R560). -/
def rLNKCTL (i : Nat) : Nat := 0x3400000 + i * 0x10000
def fLNKCTL_EN (i : Nat) : Fld := ⟨rLNKCTL i, 63, 63⟩
def fLNKCTL_DRAIN (i : Nat) : Fld := ⟨rLNKCTL i, 62, 62⟩
def fLNKCTL_RETRAIN (i : Nat) : Fld := ⟨rLNKCTL i, 61, 61⟩
def fLNKCTL_MINLANES (i : Nat) : Fld := ⟨rLNKCTL i, 56, 52⟩
def fLNKCTL_HOLDTO (i : Nat) : Fld := ⟨rLNKCTL i, 31, 0⟩
/-- `LNK[p].LNKSTAT` (13 R560). -/
def rLNKSTAT (i : Nat) : Nat := 0x3400008 + i * 0x10000
def fLNKSTAT_STATE (i : Nat) : Fld := ⟨rLNKSTAT i, 63, 61⟩
def fLNKSTAT_DRAINED (i : Nat) : Fld := ⟨rLNKSTAT i, 60, 60⟩
def fLNKSTAT_HOLDING (i : Nat) : Fld := ⟨rLNKSTAT i, 59, 59⟩
def fLNKSTAT_ACTIVE (i : Nat) : Fld := ⟨rLNKSTAT i, 52, 48⟩
/-- `LNK[p].LNKPEER` (13 R560). -/
def rLNKPEER (i : Nat) : Nat := 0x3400010 + i * 0x10000
def fLNKPEER_PORT (i : Nat) : Fld := ⟨rLNKPEER i, 50, 48⟩
def fLNKPEER_SERIAL (i : Nat) : Fld := ⟨rLNKPEER i, 47, 0⟩
/-- `LNK[p].LANEMAP` (13 R560). -/
def rLANEMAP (i : Nat) : Nat := 0x3400018 + i * 0x10000
def fLANEMAP_HEDGED (i : Nat) : Fld := ⟨rLANEMAP i, 31, 16⟩
def fLANEMAP_ACTIVE (i : Nat) : Fld := ⟨rLANEMAP i, 15, 0⟩
/-- `LNK[p].TXLAS0` (13 R560). -/
def rTXLAS0 (i : Nat) : Nat := 0x3400020 + i * 0x10000
def fTXLAS0_LASER (i : Nat) : Fld := ⟨rTXLAS0 i, 39, 0⟩
/-- `LNK[p].TXLAS1` (13 R560). -/
def rTXLAS1 (i : Nat) : Nat := 0x3400028 + i * 0x10000
def fTXLAS1_LASER (i : Nat) : Fld := ⟨rTXLAS1 i, 39, 0⟩
/-- `LNK[p].RXLAS0` (13 R560). -/
def rRXLAS0 (i : Nat) : Nat := 0x3400030 + i * 0x10000
def fRXLAS0_LASER (i : Nat) : Fld := ⟨rRXLAS0 i, 39, 0⟩
/-- `LNK[p].RXLAS1` (13 R560). -/
def rRXLAS1 (i : Nat) : Nat := 0x3400038 + i * 0x10000
def fRXLAS1_LASER (i : Nat) : Fld := ⟨rRXLAS1 i, 39, 0⟩
/-- `LNK[p].LNKEVT` (13 R560). -/
def rLNKEVT (i : Nat) : Nat := 0x3400040 + i * 0x10000
def fLNKEVT_RETRCNT (i : Nat) : Fld := ⟨rLNKEVT i, 63, 48⟩
def fLNKEVT_LHCNT (i : Nat) : Fld := ⟨rLNKEVT i, 47, 32⟩
def fLNKEVT_MALCNT (i : Nat) : Fld := ⟨rLNKEVT i, 31, 16⟩
def fLNKEVT_PEERCNT (i : Nat) : Fld := ⟨rLNKEVT i, 15, 8⟩
def fLNKEVT_MAL (i : Nat) : Fld := ⟨rLNKEVT i, 3, 3⟩
def fLNKEVT_PEERCHG (i : Nat) : Fld := ⟨rLNKEVT i, 2, 2⟩
def fLNKEVT_LHEDGE (i : Nat) : Fld := ⟨rLNKEVT i, 1, 1⟩
def fLNKEVT_RETR (i : Nat) : Fld := ⟨rLNKEVT i, 0, 0⟩
/-- `LNK[p].FLITTX` (13 R560). -/
def rFLITTX (i : Nat) : Nat := 0x3400048 + i * 0x10000
def fFLITTX_COUNT (i : Nat) : Fld := ⟨rFLITTX i, 63, 0⟩
/-- `LNK[p].FLITRX` (13 R560). -/
def rFLITRX (i : Nat) : Nat := 0x3400050 + i * 0x10000
def fFLITRX_COUNT (i : Nat) : Fld := ⟨rFLITRX i, 63, 0⟩
/-- `LNK[p].REPLAYCNT` (13 R560). -/
def rREPLAYCNT (i : Nat) : Nat := 0x3400058 + i * 0x10000
def fREPLAYCNT_REPLAYS (i : Nat) : Fld := ⟨rREPLAYCNT i, 63, 32⟩
def fREPLAYCNT_BADFLITS (i : Nat) : Fld := ⟨rREPLAYCNT i, 31, 0⟩
/-- `LNK[p].VCCRED` (13 R560). -/
def rVCCRED (i : Nat) : Nat := 0x3400060 + i * 0x10000
def fVCCRED_CRED (i : Nat) : Fld := ⟨rVCCRED i, 47, 0⟩
/-- `LNK[p].LNKRTT` (13 R560). -/
def rLNKRTT (i : Nat) : Nat := 0x3400068 + i * 0x10000
def fLNKRTT_NS (i : Nat) : Fld := ⟨rLNKRTT i, 19, 0⟩
/-- `LNK[p].LNKSESS` (13 R560). -/
def rLNKSESS (i : Nat) : Nat := 0x3400070 + i * 0x10000
def fLNKSESS_SESSIONS (i : Nat) : Fld := ⟨rLNKSESS i, 47, 16⟩
def fLNKSESS_LINKID (i : Nat) : Fld := ⟨rLNKSESS i, 15, 0⟩
/-- `LNK[p].PWGEN[j]` (13 R560). -/
def rPWGEN (i j : Nat) : Nat := 0x3400080 + i * 0x10000 + j * 0x8
def fPWGEN_GEN (i j : Nat) : Fld := ⟨rPWGEN i j, 63, 0⟩
/-- `LNK[p].LANE[l].FECSYM` (13 R560). -/
def rFECSYM (i j : Nat) : Nat := 0x3400100 + i * 0x10000 + j * 0x20
def fFECSYM_COUNT (i j : Nat) : Fld := ⟨rFECSYM i j, 63, 0⟩
/-- `LNK[p].LANE[l].FECUNC` (13 R560). -/
def rFECUNC (i j : Nat) : Nat := 0x3400108 + i * 0x10000 + j * 0x20
def fFECUNC_COUNT (i j : Nat) : Fld := ⟨rFECUNC i j, 31, 0⟩
/-- `LNK[p].LANE[l].LANEBER` (13 R560). -/
def rLANEBER (i j : Nat) : Nat := 0x3400110 + i * 0x10000 + j * 0x20
def fLANEBER_PPT (i j : Nat) : Fld := ⟨rLANEBER i j, 31, 0⟩
/-- `LNK[p].LANE[l].LANEHTR` (13 R560). -/
def rLANEHTR (i j : Nat) : Nat := 0x3400118 + i * 0x10000 + j * 0x20
def fLANEHTR_RX (i j : Nat) : Fld := ⟨rLANEHTR i j, 31, 16⟩
def fLANEHTR_TX (i j : Nat) : Fld := ⟨rLANEHTR i j, 15, 0⟩
/-- `LNK[p].RWIN[j].RWCTL` (13 R560). -/
def rRWCTL (i j : Nat) : Nat := 0x3400300 + i * 0x10000 + j * 0x20
def fRWCTL_EN (i j : Nat) : Fld := ⟨rRWCTL i j, 63, 63⟩
def fRWCTL_WKT (i j : Nat) : Fld := ⟨rRWCTL i j, 53, 48⟩
def fRWCTL_CFLT (i j : Nat) : Fld := ⟨rRWCTL i j, 32, 32⟩
def fRWCTL_WORDS (i j : Nat) : Fld := ⟨rRWCTL i j, 31, 0⟩
/-- `LNK[p].RWIN[j].RWBASE` (13 R560). -/
def rRWBASE (i j : Nat) : Nat := 0x3400308 + i * 0x10000 + j * 0x20
def fRWBASE_VALUE (i j : Nat) : Fld := ⟨rRWBASE i j, 37, 3⟩
/-- `LNK[p].RWIN[j].RWLEN` (13 R560). -/
def rRWLEN (i j : Nat) : Nat := 0x3400310 + i * 0x10000 + j * 0x20
def fRWLEN_VALUE (i j : Nat) : Fld := ⟨rRWLEN i j, 37, 3⟩
/-- `LNK[p].RWIN[j].RWCNT` (13 R560). -/
def rRWCNT (i j : Nat) : Nat := 0x3400318 + i * 0x10000 + j * 0x20
def fRWCNT_VALUE (i j : Nat) : Fld := ⟨rRWCNT i j, 37, 3⟩
/-- `LAN[p].LANCTL` (13 R561). -/
def rLANCTL (i : Nat) : Nat := 0x3480000 + i * 0x1000
def fLANCTL_FORCEOFF (i : Nat) : Fld := ⟨rLANCTL i, 1, 1⟩
def fLANCTL_EN (i : Nat) : Fld := ⟨rLANCTL i, 0, 0⟩
/-- `LAN[p].LANSTAT` (13 R561). -/
def rLANSTAT (i : Nat) : Nat := 0x3480008 + i * 0x1000
def fLANSTAT_CASET (i : Nat) : Fld := ⟨rLANSTAT i, 63, 56⟩
def fLANSTAT_SPARES (i : Nat) : Fld := ⟨rLANSTAT i, 15, 12⟩
def fLANSTAT_REJCAUSE (i : Nat) : Fld := ⟨rLANSTAT i, 11, 8⟩
def fLANSTAT_KNOWN (i : Nat) : Fld := ⟨rLANSTAT i, 5, 5⟩
def fLANSTAT_INTLK (i : Nat) : Fld := ⟨rLANSTAT i, 4, 4⟩
def fLANSTAT_PRESENT (i : Nat) : Fld := ⟨rLANSTAT i, 3, 3⟩
def fLANSTAT_STATE (i : Nat) : Fld := ⟨rLANSTAT i, 2, 0⟩
/-- `LAN[p].LANSER0` (13 R561). -/
def rLANSER0 (i : Nat) : Nat := 0x3480010 + i * 0x1000
def fLANSER0_ASCII (i : Nat) : Fld := ⟨rLANSER0 i, 63, 0⟩
/-- `LAN[p].LANSER1` (13 R561). -/
def rLANSER1 (i : Nat) : Nat := 0x3480018 + i * 0x1000
def fLANSER1_ASCII (i : Nat) : Fld := ⟨rLANSER1 i, 63, 0⟩
/-- `LAN[p].LANLIFE` (13 R561). -/
def rLANLIFE (i : Nat) : Nat := 0x3480020 + i * 0x1000
def fLANLIFE_HOURS (i : Nat) : Fld := ⟨rLANLIFE i, 63, 32⟩
def fLANLIFE_ENERGY (i : Nat) : Fld := ⟨rLANLIFE i, 31, 0⟩
/-- `LAN[p].LANEVT` (13 R561). -/
def rLANEVT (i : Nat) : Nat := 0x3480028 + i * 0x1000
def fLANEVT_WEARCNT (i : Nat) : Fld := ⟨rLANEVT i, 63, 48⟩
def fLANEVT_REPLCNT (i : Nat) : Fld := ⟨rLANEVT i, 47, 32⟩
def fLANEVT_SWCNT (i : Nat) : Fld := ⟨rLANEVT i, 31, 16⟩
def fLANEVT_SWITCH (i : Nat) : Fld := ⟨rLANEVT i, 2, 2⟩
def fLANEVT_REPL (i : Nat) : Fld := ⟨rLANEVT i, 1, 1⟩
def fLANEVT_WEAR (i : Nat) : Fld := ⟨rLANEVT i, 0, 0⟩
/-- `LAN[p].LANPWR` (13 R561). -/
def rLANPWR (i : Nat) : Nat := 0x3480030 + i * 0x1000
def fLANPWR_MW (i : Nat) : Fld := ⟨rLANPWR i, 15, 0⟩
/-- `LAN[p].LASER[k]` (13 R561). -/
def rLASER (i j : Nat) : Nat := 0x3480040 + i * 0x1000 + j * 0x8
def fLASER_STATE (i j : Nat) : Fld := ⟨rLASER i j, 63, 61⟩
def fLASER_LANE (i j : Nat) : Fld := ⟨rLASER i j, 55, 52⟩
def fLASER_BIAS (i j : Nat) : Fld := ⟨rLASER i j, 51, 36⟩
def fLASER_RATIO (i j : Nat) : Fld := ⟨rLASER i j, 35, 28⟩
def fLASER_POWER (i j : Nat) : Fld := ⟨rLASER i j, 27, 12⟩
/-- `LAN[p].IDMEM[q]` (13 R561). -/
def rIDMEM (i j : Nat) : Nat := 0x3480200 + i * 0x1000 + j * 0x8
def fIDMEM_BYTES (i j : Nat) : Fld := ⟨rIDMEM i j, 63, 0⟩

/-! ### Registers of spec/14_host_interface.md (R586) -/

/-- `HOST.HOSTID` (14 R586). -/
def rHOST_HOSTID : Nat := 0x0
def fHOST_HOSTID_VENDOR : Fld := ⟨rHOST_HOSTID, 63, 48⟩
def fHOST_HOSTID_DEVICE : Fld := ⟨rHOST_HOSTID, 47, 32⟩
def fHOST_HOSTID_PART : Fld := ⟨rHOST_HOSTID, 23, 16⟩
def fHOST_HOSTID_STEP : Fld := ⟨rHOST_HOSTID, 15, 8⟩
def fHOST_HOSTID_LTPROV : Fld := ⟨rHOST_HOSTID, 1, 0⟩
/-- `HOST.SERIAL` (14 R586). -/
def rHOST_SERIAL : Nat := 0x8
def fHOST_SERIAL_SERIAL : Fld := ⟨rHOST_SERIAL, 47, 0⟩
/-- `HOST.LINKSTAT` (14 R586). -/
def rHOST_LINKSTAT : Nat := 0x10
def fHOST_LINKSTAT_RETRCNT : Fld := ⟨rHOST_LINKSTAT, 63, 48⟩
def fHOST_LINKSTAT_PASIDEN : Fld := ⟨rHOST_LINKSTAT, 13, 13⟩
def fHOST_LINKSTAT_PRIEN : Fld := ⟨rHOST_LINKSTAT, 12, 12⟩
def fHOST_LINKSTAT_ATSEN : Fld := ⟨rHOST_LINKSTAT, 11, 11⟩
def fHOST_LINKSTAT_FLIT : Fld := ⟨rHOST_LINKSTAT, 10, 10⟩
def fHOST_LINKSTAT_WIDTH : Fld := ⟨rHOST_LINKSTAT, 9, 5⟩
def fHOST_LINKSTAT_SPEED : Fld := ⟨rHOST_LINKSTAT, 2, 0⟩
/-- `HOST.WINCTL` (14 R586). -/
def rHOST_WINCTL : Nat := 0x18
def fHOST_WINCTL_EN : Fld := ⟨rHOST_WINCTL, 63, 63⟩
def fHOST_WINCTL_SPACE : Fld := ⟨rHOST_WINCTL, 55, 52⟩
def fHOST_WINCTL_CTX : Fld := ⟨rHOST_WINCTL, 51, 48⟩
def fHOST_WINCTL_BASE : Fld := ⟨rHOST_WINCTL, 47, 28⟩
/-- `HOST.HOSTHI` (14 R586). -/
def rHOST_HOSTHI : Nat := 0x20
def fHOST_HOSTHI_HI : Fld := ⟨rHOST_HOSTHI, 63, 48⟩
/-- `HOST.BARERR` (14 R586). -/
def rHOST_BARERR : Nat := 0x28
def fHOST_BARERR_LASTOFF : Fld := ⟨rHOST_BARERR, 51, 4⟩
def fHOST_BARERR_DBSIZE : Fld := ⟨rHOST_BARERR, 3, 3⟩
def fHOST_BARERR_OFF : Fld := ⟨rHOST_BARERR, 2, 2⟩
def fHOST_BARERR_UE : Fld := ⟨rHOST_BARERR, 1, 1⟩
def fHOST_BARERR_TRANS : Fld := ⟨rHOST_BARERR, 0, 0⟩
/-- `HOST.BARERRCNT` (14 R586). -/
def rHOST_BARERRCNT : Nat := 0x30
def fHOST_BARERRCNT_DBSIZECNT : Fld := ⟨rHOST_BARERRCNT, 63, 48⟩
def fHOST_BARERRCNT_OFFCNT : Fld := ⟨rHOST_BARERRCNT, 47, 32⟩
def fHOST_BARERRCNT_UECNT : Fld := ⟨rHOST_BARERRCNT, 31, 16⟩
def fHOST_BARERRCNT_TRANSCNT : Fld := ⟨rHOST_BARERRCNT, 15, 0⟩
/-- `HOST.CTXPASID[c]` (14 R586). -/
def rHOST_CTXPASID (i : Nat) : Nat := 0x100 + i * 0x8
def fHOST_CTXPASID_EN (i : Nat) : Fld := ⟨rHOST_CTXPASID i, 63, 63⟩
def fHOST_CTXPASID_PASID (i : Nat) : Fld := ⟨rHOST_CTXPASID i, 19, 0⟩
/-- `HOST.IRQSRC[i]` (14 R586 (7 to 15 read 0)). -/
def rHOST_IRQSRC (i : Nat) : Nat := 0x200 + i * 0x8
def fHOST_IRQSRC_EN (i : Nat) : Fld := ⟨rHOST_IRQSRC i, 63, 63⟩
def fHOST_IRQSRC_VEC (i : Nat) : Fld := ⟨rHOST_IRQSRC i, 47, 40⟩
def fHOST_IRQSRC_PEND (i : Nat) : Fld := ⟨rHOST_IRQSRC i, 32, 32⟩
def fHOST_IRQSRC_COUNT (i : Nat) : Fld := ⟨rHOST_IRQSRC i, 31, 0⟩
/-- `HOST.HCRL[k].HCRLCFG` (14 R586). -/
def rHCRLCFG (i : Nat) : Nat := 0x10000 + i * 0x40
def fHCRLCFG_EN (i : Nat) : Fld := ⟨rHCRLCFG i, 63, 63⟩
def fHCRLCFG_GEN (i : Nat) : Fld := ⟨rHCRLCFG i, 62, 59⟩
def fHCRLCFG_CTX (i : Nat) : Fld := ⟨rHCRLCFG i, 58, 55⟩
def fHCRLCFG_IRQEN (i : Nat) : Fld := ⟨rHCRLCFG i, 48, 48⟩
def fHCRLCFG_SIZE (i : Nat) : Fld := ⟨rHCRLCFG i, 47, 44⟩
def fHCRLCFG_VEC (i : Nat) : Fld := ⟨rHCRLCFG i, 39, 32⟩
def fHCRLCFG_QUIET (i : Nat) : Fld := ⟨rHCRLCFG i, 31, 31⟩
/-- `HOST.HCRL[k].HCRLBASE` (14 R586). -/
def rHCRLBASE (i : Nat) : Nat := 0x10008 + i * 0x40
def fHCRLBASE_ADDR (i : Nat) : Fld := ⟨rHCRLBASE i, 51, 12⟩
/-- `HOST.HCRL[k].HCRLPTR` (14 R586). -/
def rHCRLPTR (i : Nat) : Nat := 0x10010 + i * 0x40
def fHCRLPTR_TAIL (i : Nat) : Fld := ⟨rHCRLPTR i, 51, 32⟩
def fHCRLPTR_HEAD (i : Nat) : Fld := ⟨rHCRLPTR i, 19, 0⟩
/-- `HOST.HCRL[k].HCRLCRED` (14 R586). -/
def rHCRLCRED (i : Nat) : Nat := 0x10018 + i * 0x40
def fHCRLCRED_WAITREQ (i : Nat) : Fld := ⟨rHCRLCRED i, 55, 45⟩
def fHCRLCRED_POOL (i : Nat) : Fld := ⟨rHCRLCRED i, 44, 24⟩
def fHCRLCRED_GRANTQ (i : Nat) : Fld := ⟨rHCRLCRED i, 20, 0⟩
/-- `HOST.HCRL[k].HCRLSTAT` (14 R586). -/
def rHCRLSTAT (i : Nat) : Nat := 0x10020 + i * 0x40
def fHCRLSTAT_STALECNT (i : Nat) : Fld := ⟨rHCRLSTAT i, 63, 48⟩
def fHCRLSTAT_HEADCNT (i : Nat) : Fld := ⟨rHCRLSTAT i, 47, 42⟩
def fHCRLSTAT_HEADERR (i : Nat) : Fld := ⟨rHCRLSTAT i, 41, 41⟩
def fHCRLSTAT_STALE (i : Nat) : Fld := ⟨rHCRLSTAT i, 40, 40⟩
def fHCRLSTAT_OCC (i : Nat) : Fld := ⟨rHCRLSTAT i, 35, 15⟩
def fHCRLSTAT_MSGS (i : Nat) : Fld := ⟨rHCRLSTAT i, 14, 0⟩
/-- `HOST.MSIXADDR[v]` (14 R577 (layout: PCIe)). -/
def rHOST_MSIXADDR (i : Nat) : Nat := 0x80000 + i * 0x10
def fHOST_MSIXADDR_ADDR (i : Nat) : Fld := ⟨rHOST_MSIXADDR i, 63, 0⟩
/-- `HOST.MSIXCTL[v]` (14 R577 (layout: PCIe)). -/
def rHOST_MSIXCTL (i : Nat) : Nat := 0x80008 + i * 0x10
def fHOST_MSIXCTL_MASK (i : Nat) : Fld := ⟨rHOST_MSIXCTL i, 32, 32⟩
def fHOST_MSIXCTL_DATA (i : Nat) : Fld := ⟨rHOST_MSIXCTL i, 31, 0⟩
/-- `HOST.MSIXPBA[j]` (14 R577 (layout: PCIe)). -/
def rHOST_MSIXPBA (i : Nat) : Nat := 0x90000 + i * 0x8
def fHOST_MSIXPBA_PEND (i : Nat) : Fld := ⟨rHOST_MSIXPBA i, 63, 0⟩

/-! ### Registers of spec/15_errors_and_containment.md (R613) -/

/-- `ERR.ERRSTAT` (15 R613). -/
def rERRSTAT : Nat := 0x3c00000
def fERRSTAT_FATAL : Fld := ⟨rERRSTAT, 63, 63⟩
def fERRSTAT_PROBING : Fld := ⟨rERRSTAT, 55, 48⟩
def fERRSTAT_HEDGECNT : Fld := ⟨rERRSTAT, 47, 16⟩
def fERRSTAT_HEDGE : Fld := ⟨rERRSTAT, 0, 0⟩
/-- `ERR.FATALINFO` (15 R613). -/
def rFATALINFO : Nat := 0x3c00008
def fFATALINFO_CAUSE : Fld := ⟨rFATALINFO, 63, 56⟩
def fFATALINFO_TICK : Fld := ⟨rFATALINFO, 47, 0⟩
/-- `ERR.LOGRING` (15 R613). -/
def rLOGRING : Nat := 0x3c00010
def fLOGRING_SIZE : Fld := ⟨rLOGRING, 63, 60⟩
def fLOGRING_EN : Fld := ⟨rLOGRING, 59, 59⟩
def fLOGRING_ADDR : Fld := ⟨rLOGRING, 51, 6⟩
/-- `ERR.LOGPTR` (15 R613). -/
def rLOGPTR : Nat := 0x3c00018
def fLOGPTR_TAIL : Fld := ⟨rLOGPTR, 63, 32⟩
def fLOGPTR_HEAD : Fld := ⟨rLOGPTR, 31, 0⟩
/-- `ERR.LOGSTAT` (15 R613). -/
def rLOGSTAT : Nat := 0x3c00020
def fLOGSTAT_LOSTCNT : Fld := ⟨rLOGSTAT, 63, 32⟩
def fLOGSTAT_LOST : Fld := ⟨rLOGSTAT, 31, 31⟩
def fLOGSTAT_QUEUED : Fld := ⟨rLOGSTAT, 8, 0⟩
/-- `ERR.LOGMASK` (15 R613). -/
def rLOGMASK : Nat := 0x3c00028
def fLOGMASK_MASK : Fld := ⟨rLOGMASK, 31, 1⟩
/-- `ERR.PROBECFG` (15 R613). -/
def rPROBECFG : Nat := 0x3c00030
def fPROBECFG_WINDOW : Fld := ⟨rPROBECFG, 47, 32⟩
def fPROBECFG_COUNT : Fld := ⟨rPROBECFG, 23, 16⟩
def fPROBECFG_AUTO : Fld := ⟨rPROBECFG, 0, 0⟩
/-- `ERR.PROBECNT` (15 R613). -/
def rPROBECNT : Nat := 0x3c00038
def fPROBECNT_RUN : Fld := ⟨rPROBECNT, 63, 32⟩
def fPROBECNT_LASTING : Fld := ⟨rPROBECNT, 31, 0⟩
/-- `ERR.HEDGECMD` (15 R613). -/
def rHEDGECMD : Nat := 0x3c00040
def fHEDGECMD_ACTION : Fld := ⟨rHEDGECMD, 63, 60⟩
def fHEDGECMD_CLASS : Fld := ⟨rHEDGECMD, 59, 56⟩
def fHEDGECMD_RES : Fld := ⟨rHEDGECMD, 31, 0⟩
/-- `ERR.HEDGECMDST` (15 R613). -/
def rHEDGECMDST : Nat := 0x3c00048
def fHEDGECMDST_BUSY : Fld := ⟨rHEDGECMDST, 63, 63⟩
def fHEDGECMDST_RESULT : Fld := ⟨rHEDGECMDST, 62, 60⟩
/-- `ERR.HEDGECORE` (15 R613). -/
def rHEDGECORE : Nat := 0x3c00050
def fHEDGECORE_MAP : Fld := ⟨rHEDGECORE, 63, 0⟩
/-- `ERR.HEDGEMISC` (15 R613). -/
def rHEDGEMISC : Nat := 0x3c00058
def fHEDGEMISC_LANTERN : Fld := ⟨rHEDGEMISC, 63, 56⟩
def fHEDGEMISC_PORT : Fld := ⟨rHEDGEMISC, 55, 48⟩
def fHEDGEMISC_CTX : Fld := ⟨rHEDGEMISC, 47, 32⟩
def fHEDGEMISC_PLOT : Fld := ⟨rHEDGEMISC, 25, 16⟩
def fHEDGEMISC_PAV : Fld := ⟨rHEDGEMISC, 7, 0⟩
/-- `ERR.HEDGEDMA` (15 R613). -/
def rHEDGEDMA : Nat := 0x3c00060
def fHEDGEDMA_MAP : Fld := ⟨rHEDGEDMA, 63, 0⟩
/-- `ERR.KINDCNT[k]` (15 R613). -/
def rKINDCNT (i : Nat) : Nat := 0x3c00108 + (i - 1) * 0x8
def fKINDCNT_COUNT (i : Nat) : Fld := ⟨rKINDCNT i, 31, 0⟩
/-- `ERR.HEDGECNT[c]` (15 R613). -/
def rHEDGECNT (i : Nat) : Nat := 0x3c00208 + (i - 1) * 0x8
def fHEDGECNT_HEDGES (i : Nat) : Fld := ⟨rHEDGECNT i, 63, 32⟩
def fHEDGECNT_LASTING (i : Nat) : Fld := ⟨rHEDGECNT i, 31, 16⟩
def fHEDGECNT_REPAIRS (i : Nat) : Fld := ⟨rHEDGECNT i, 15, 0⟩

/-! ### Registers of spec/16_bringup_clocks_power_telemetry.md (R640) -/

/-- `CLK.REFTICK` (16 R640). -/
def rREFTICK : Nat := 0x3a00000
def fREFTICK_TICK : Fld := ⟨rREFTICK, 63, 0⟩
/-- `CLK.STEPCTL` (16 R640). -/
def rSTEPCTL : Nat := 0x3a00008
def fSTEPCTL_BOOSTEN : Fld := ⟨rSTEPCTL, 63, 63⟩
def fSTEPCTL_STEPREQ : Fld := ⟨rSTEPCTL, 58, 56⟩
def fSTEPCTL_CAPW : Fld := ⟨rSTEPCTL, 43, 32⟩
/-- `CLK.STEPSTAT` (16 R640). -/
def rSTEPSTAT : Nat := 0x3a00010
def fSTEPSTAT_CUR : Fld := ⟨rSTEPSTAT, 63, 61⟩
def fSTEPSTAT_TARGET : Fld := ⟨rSTEPSTAT, 60, 58⟩
def fSTEPSTAT_CHANGING : Fld := ⟨rSTEPSTAT, 57, 57⟩
def fSTEPSTAT_LIMIT : Fld := ⟨rSTEPSTAT, 51, 48⟩
def fSTEPSTAT_EPOCH : Fld := ⟨rSTEPSTAT, 47, 0⟩
/-- `CLK.EPOCHCNT` (16 R640). -/
def rEPOCHCNT : Nat := 0x3a00018
def fEPOCHCNT_CHANGES : Fld := ⟨rEPOCHCNT, 63, 32⟩
def fEPOCHCNT_WORST : Fld := ⟨rEPOCHCNT, 15, 0⟩
/-- `CLK.THROTCNT` (16 R640). -/
def rTHROTCNT : Nat := 0x3a00020
def fTHROTCNT_THRMS : Fld := ⟨rTHROTCNT, 63, 32⟩
def fTHROTCNT_CAPMS : Fld := ⟨rTHROTCNT, 31, 0⟩
/-- `CLK.PWR` (16 R640). -/
def rCLK_PWR : Nat := 0x3a00028
def fCLK_PWR_PIN : Fld := ⟨rCLK_PWR, 63, 32⟩
def fCLK_PWR_PAVG10 : Fld := ⟨rCLK_PWR, 31, 0⟩
/-- `CLK.GENMON[j]` (16 R640). -/
def rGENMON (i : Nat) : Nat := 0x3a00100 + i * 0x8
def fGENMON_LOCK (i : Nat) : Fld := ⟨rGENMON i, 63, 63⟩
def fGENMON_HEDGED (i : Nat) : Fld := ⟨rGENMON i, 62, 62⟩
def fGENMON_DUTY (i : Nat) : Fld := ⟨rGENMON i, 55, 48⟩
def fGENMON_JIT (i : Nat) : Fld := ⟨rGENMON i, 47, 32⟩
def fGENMON_JITLIM (i : Nat) : Fld := ⟨rGENMON i, 31, 16⟩
def fGENMON_FAILCNT (i : Nat) : Fld := ⟨rGENMON i, 15, 0⟩
/-- `LODGE.LODGESTAT` (16 R641). -/
def rLODGESTAT : Nat := 0x3800000
def fLODGESTAT_FWVER : Fld := ⟨rLODGESTAT, 63, 48⟩
def fLODGESTAT_IMAGE : Fld := ⟨rLODGESTAT, 47, 47⟩
def fLODGESTAT_FALLBACK : Fld := ⟨rLODGESTAT, 46, 46⟩
def fLODGESTAT_STATE : Fld := ⟨rLODGESTAT, 45, 43⟩
def fLODGESTAT_POWH : Fld := ⟨rLODGESTAT, 31, 0⟩
/-- `LODGE.READY` (16 R641). -/
def rLODGE_READY : Nat := 0x3800008
def fLODGE_READY_PORT : Fld := ⟨rLODGE_READY, 55, 48⟩
def fLODGE_READY_STACK : Fld := ⟨rLODGE_READY, 47, 16⟩
def fLODGE_READY_PAV : Fld := ⟨rLODGE_READY, 15, 8⟩
def fLODGE_READY_CORE : Fld := ⟨rLODGE_READY, 4, 0⟩
/-- `LODGE.FWCMD` (16 R641). -/
def rFWCMD : Nat := 0x3800010
def fFWCMD_OP : Fld := ⟨rFWCMD, 63, 62⟩
def fFWCMD_LEN : Fld := ⟨rFWCMD, 61, 52⟩
def fFWCMD_ADDR : Fld := ⟨rFWCMD, 51, 12⟩
/-- `LODGE.FWSTAT` (16 R641). -/
def rFWSTAT : Nat := 0x3800018
def fFWSTAT_BUSY : Fld := ⟨rFWSTAT, 63, 63⟩
def fFWSTAT_RESULT : Fld := ⟨rFWSTAT, 62, 60⟩
/-- `LODGE.TELRING` (16 R641). -/
def rTELRING : Nat := 0x3800020
def fTELRING_SIZE : Fld := ⟨rTELRING, 63, 60⟩
def fTELRING_EN : Fld := ⟨rTELRING, 59, 59⟩
def fTELRING_ADDR : Fld := ⟨rTELRING, 51, 11⟩
/-- `LODGE.TELSTAT` (16 R641). -/
def rTELSTAT : Nat := 0x3800028
def fTELSTAT_SEQ : Fld := ⟨rTELSTAT, 63, 32⟩
def fTELSTAT_MISSCNT : Fld := ⟨rTELSTAT, 31, 0⟩
/-- `LODGE.COOLCTL` (16 R641). -/
def rCOOLCTL : Nat := 0x3800030
def fCOOLCTL_COOL : Fld := ⟨rCOOLCTL, 39, 32⟩
def fCOOLCTL_MIN : Fld := ⟨rCOOLCTL, 15, 8⟩
/-- `LODGE.MTR[s].MTRNOW` (16 R641). -/
def rMTRNOW (i : Nat) : Nat := 0x3810000 + i * 0x10
def fMTRNOW_RUN (i : Nat) : Fld := ⟨rMTRNOW i, 63, 63⟩
def fMTRNOW_OVER (i : Nat) : Fld := ⟨rMTRNOW i, 32, 32⟩
def fMTRNOW_ELAPSED (i : Nat) : Fld := ⟨rMTRNOW i, 31, 0⟩
/-- `LODGE.MTR[s].MTRHIST` (16 R641). -/
def rMTRHIST (i : Nat) : Nat := 0x3810008 + i * 0x10
def fMTRHIST_WORST (i : Nat) : Fld := ⟨rMTRHIST i, 63, 32⟩
def fMTRHIST_LAST (i : Nat) : Fld := ⟨rMTRHIST i, 31, 0⟩
/-- `BELV.BELVCTL` (16 R642). -/
def rBELVCTL : Nat := 0x3b00000
def fBELVCTL_EN : Fld := ⟨rBELVCTL, 63, 63⟩
def fBELVCTL_THRESH : Fld := ⟨rBELVCTL, 47, 32⟩
def fBELVCTL_SAMPLE : Fld := ⟨rBELVCTL, 9, 0⟩
/-- `BELV.BELVCNT` (16 R642). -/
def rBELVCNT : Nat := 0x3b00008
def fBELVCNT_DECL : Fld := ⟨rBELVCNT, 31, 0⟩
/-- `BELV.BELVCTX[c]` (16 R642). -/
def rBELVCTX (i : Nat) : Nat := 0x3b00100 + i * 0x8
def fBELVCTX_EN (i : Nat) : Fld := ⟨rBELVCTX i, 63, 63⟩
def fBELVCTX_ADDR (i : Nat) : Fld := ⟨rBELVCTX i, 51, 6⟩

/-! ### The rows -/

def regRows0 : List RegRow := [
  ⟨"ARRSTAT", 0x1011000, [(8, 0x100000), (8, 0x10000)], 0x0, 0x0, 0x0⟩,
  ⟨"ARRREPAIR", 0x1011008, [(8, 0x100000), (8, 0x10000)], 0x0, 0x0, 0x0⟩,
  ⟨"COLFLAG0", 0x1011010, [(8, 0x100000), (8, 0x10000)], 0x0, 0x0, 0xffffffffffffffff⟩,
  ⟨"COLFLAG1", 0x1011018, [(8, 0x100000), (8, 0x10000)], 0x0, 0x0, 0xffffffffffffffff⟩,
  ⟨"ARRPASSES", 0x1011020, [(8, 0x100000), (8, 0x10000)], 0x0, 0x0, 0x0⟩,
  ⟨"ARRFEED", 0x1011028, [(8, 0x100000), (8, 0x10000)], 0x0, 0x0, 0x0⟩,
  ⟨"COLCNT", 0x1011100, [(8, 0x100000), (8, 0x10000), (64, 0x8)], 0x0, 0x0, 0x0⟩,
  ⟨"TRLIVE", 0x1012000, [(8, 0x100000), (8, 0x10000)], 0x0, 0x0, 0x0⟩,
  ⟨"TRSTALE", 0x1012008, [(8, 0x100000), (8, 0x10000)], 0x0, 0x0, 0x0⟩,
  ⟨"TRREL", 0x1012010, [(8, 0x100000), (8, 0x10000)], 0x0, 0x0, 0x0⟩,
  ⟨"TRWIDTH0", 0x1012018, [(8, 0x100000), (8, 0x10000)], 0x0, 0x0, 0x0⟩,
  ⟨"TRWIDTH1", 0x1012020, [(8, 0x100000), (8, 0x10000)], 0x0, 0x0, 0x0⟩,
  ⟨"LRFLAG", 0x1012028, [(8, 0x100000), (8, 0x10000)], 0x0, 0x0, 0x1⟩,
  ⟨"LRCNT", 0x1012030, [(8, 0x100000), (8, 0x10000)], 0x0, 0x0, 0x0⟩,
  ⟨"STALECNT", 0x1012038, [(8, 0x100000), (8, 0x10000)], 0x0, 0x0, 0x0⟩,
  ⟨"EESTAT", 0x1012040, [(8, 0x100000), (8, 0x10000)], 0x0, 0x0, 0x0⟩,
  ⟨"TBLADDR", 0x1012080, [(8, 0x100000), (8, 0x10000), (4, 0x8)], 0x0, 0x0, 0x0⟩,
  ⟨"HNDSTAT", 0x1013000, [(8, 0x100000), (8, 0x10000)], 0x0, 0x0, 0x0⟩,
  ⟨"HNDLIM", 0x1013008, [(8, 0x100000), (8, 0x10000)], 0x10000, 0xffffffff, 0x0⟩,
  ⟨"HNDCNT", 0x1013010, [(8, 0x100000), (8, 0x10000)], 0x0, 0x0, 0x0⟩,
  ⟨"HNDFLT", 0x1013018, [(8, 0x100000), (8, 0x10000)], 0x0, 0x0, 0x3⟩,
  ⟨"HNDFCNT", 0x1013020, [(8, 0x100000), (8, 0x10000)], 0x0, 0x0, 0x0⟩,
  ⟨"SOPOUT", 0x1014000, [(8, 0x100000), (8, 0x10000)], 0x0, 0x0, 0x0⟩,
  ⟨"SOPCNT", 0x1014008, [(8, 0x100000), (8, 0x10000)], 0x0, 0x0, 0x0⟩,
  ⟨"SOPERR", 0x1014010, [(8, 0x100000), (8, 0x10000)], 0x0, 0x0, 0xfe⟩,
  ⟨"SOPLAST", 0x1014018, [(8, 0x100000), (8, 0x10000)], 0x0, 0x0, 0x0⟩]

def regRows1 : List RegRow := [
  ⟨"SOPECNT", 0x1014108, [(8, 0x100000), (8, 0x10000), (7, 0x8)], 0x0, 0x0, 0x0⟩,
  ⟨"CRLCFG", 0x1015000, [(8, 0x100000), (8, 0x10000), (8, 0x40)], 0x80000000, 0x8783ff0001fff000, 0x0⟩,
  ⟨"CRLPTR", 0x1015008, [(8, 0x100000), (8, 0x10000), (8, 0x40)], 0x0, 0x0, 0x0⟩,
  ⟨"CRLCRED", 0x1015010, [(8, 0x100000), (8, 0x10000), (8, 0x40)], 0x400, 0x1fffff, 0x0⟩,
  ⟨"CRLSTAT", 0x1015018, [(8, 0x100000), (8, 0x10000), (8, 0x40)], 0x0, 0x0, 0x10000000000⟩,
  ⟨"CRLHDR", 0x1015020, [(8, 0x100000), (8, 0x10000), (8, 0x40), (4, 0x8)], 0x0, 0x0, 0x0⟩,
  ⟨"STRSTAT", 0x1000000, [(8, 0x100000), (2, 0x100)], 0x0, 0x0, 0x0⟩,
  ⟨"STRPC", 0x1000008, [(8, 0x100000), (2, 0x100)], 0x0, 0x0, 0x0⟩,
  ⟨"STRLT", 0x1000010, [(8, 0x100000), (2, 0x100)], 0x0, 0x0, 0x0⟩,
  ⟨"STRSKIP", 0x1000018, [(8, 0x100000), (2, 0x100)], 0x0, 0x0, 0x1⟩,
  ⟨"STRSKIPCNT", 0x1000020, [(8, 0x100000), (2, 0x100)], 0x0, 0x0, 0x0⟩,
  ⟨"STRWAIT", 0x1000028, [(8, 0x100000), (2, 0x100)], 0x0, 0x0, 0x0⟩,
  ⟨"STRLOOP0", 0x1000030, [(8, 0x100000), (2, 0x100)], 0x0, 0x0, 0x0⟩,
  ⟨"STRLOOP1", 0x1000038, [(8, 0x100000), (2, 0x100)], 0x0, 0x0, 0x0⟩,
  ⟨"STRWTO", 0x1000040, [(8, 0x100000), (2, 0x100)], 0x0, 0xfffff, 0x0⟩,
  ⟨"STRHOLD", 0x1000048, [(8, 0x100000), (2, 0x100)], 0x0, 0x0, 0x0⟩,
  ⟨"STRHOLDCY", 0x1000050, [(8, 0x100000), (2, 0x100)], 0x0, 0x0, 0x0⟩,
  ⟨"ORG_ORGREADY", 0x2000000, [], 0x0, 0x0, 0x0⟩,
  ⟨"ORG_ORGHEDGE", 0x2000008, [], 0x0, 0x0, 0x0⟩,
  ⟨"ORG_PROMCTL", 0x2000010, [], 0x801, 0xf01, 0x0⟩,
  ⟨"ORG_SCRUBCTL", 0x2000018, [], 0x10080, 0x1ffff, 0x0⟩,
  ⟨"ORG_COLLSTAT", 0x2000020, [], 0x0, 0x0, 0x1⟩,
  ⟨"ORG_COLLCNT", 0x2000028, [], 0x0, 0x0, 0x0⟩,
  ⟨"ORG_OVRCNT", 0x2000030, [], 0x0, 0x0, 0x0⟩,
  ⟨"ORG_HOLESTAT", 0x2000038, [], 0x0, 0x0, 0x3⟩,
  ⟨"ORG_MDADDR", 0x2000040, [], 0x0, 0x7ffffff8, 0x0⟩]

def regRows2 : List RegRow := [
  ⟨"ORG_MDVAL", 0x2000048, [], 0x0, 0x3, 0x0⟩,
  ⟨"SLC_BANKHEDGE", 0x2010000, [(64, 0x40)], 0x0, 0x0, 0x0⟩,
  ⟨"SLC_CECNT", 0x2010008, [(64, 0x40)], 0x0, 0x0, 0x0⟩,
  ⟨"SLC_UECNT", 0x2010010, [(64, 0x40)], 0x0, 0x0, 0x0⟩,
  ⟨"SLC_UELAST", 0x2010018, [(64, 0x40)], 0x0, 0x0, 0x8000000000000000⟩,
  ⟨"SLC_DYNDEFER", 0x2010020, [(64, 0x40)], 0x0, 0x0, 0x0⟩,
  ⟨"ORG_PLANMASK", 0x2020000, [(224, 0x10)], 0x0, 0x0, 0x0⟩,
  ⟨"ORG_PLANOWN", 0x2020008, [(224, 0x10)], 0x0, 0x0, 0x0⟩,
  ⟨"ORG_LSTALL", 0x2030000, [(224, 0x8)], 0x0, 0x0, 0x0⟩,
  ⟨"ORG_OWN", 0x2040000, [(3072, 0x8)], 0x0, 0xcfcfcfcfcfcfcfcf, 0x0⟩,
  ⟨"STK_STAT", 0x2800000, [(32, 0x10000)], 0x0, 0x0, 0x0⟩,
  ⟨"STK_LINKSTAT", 0x2800008, [(32, 0x10000)], 0x0, 0x0, 0x0⟩,
  ⟨"STK_LINKCNT", 0x2800010, [(32, 0x10000)], 0x0, 0x0, 0x0⟩,
  ⟨"STK_PCHEDGE", 0x2800018, [(32, 0x10000)], 0x0, 0x0, 0x0⟩,
  ⟨"STK_CECNT", 0x2800020, [(32, 0x10000)], 0x0, 0x0, 0x0⟩,
  ⟨"STK_UECNT", 0x2800028, [(32, 0x10000)], 0x0, 0x0, 0x0⟩,
  ⟨"STK_UELAST", 0x2800030, [(32, 0x10000)], 0x0, 0x0, 0x8000000000000000⟩,
  ⟨"STK_SPARED", 0x2800038, [(32, 0x10000)], 0x0, 0x0, 0x0⟩,
  ⟨"STK_SCRUBPOS", 0x2800040, [(32, 0x10000)], 0x0, 0x0, 0x0⟩,
  ⟨"STK_TEMP", 0x2800048, [(32, 0x10000)], 0x0, 0x0, 0x0⟩,
  ⟨"STK_UNITCNT", 0x2800050, [(32, 0x10000)], 0x0, 0x0, 0x0⟩,
  ⟨"STK_BUSYNS", 0x2800058, [(32, 0x10000)], 0x0, 0x0, 0x0⟩,
  ⟨"STK_RDBYTES", 0x2800060, [(32, 0x10000)], 0x0, 0x0, 0x0⟩,
  ⟨"SLA_READY", 0x2a00000, [], 0x0, 0x0, 0x0⟩,
  ⟨"SLA_HEDGED", 0x2a00008, [], 0x0, 0x0, 0x0⟩,
  ⟨"SLA_SCRUBCTL", 0x2a00010, [], 0x1010000, 0x1ffffff, 0x0⟩]

def regRows3 : List RegRow := [
  ⟨"SLA_INVAL", 0x2a00018, [], 0x0, 0x0, 0x0⟩,
  ⟨"SLA_INVALSTAT", 0x2a00020, [], 0x0, 0x0, 0x2⟩,
  ⟨"SLA_WALKCNT", 0x2a00028, [], 0x0, 0x0, 0x800000000000⟩,
  ⟨"SLA_REJ", 0x2a00030, [], 0x0, 0x0, 0x100000000⟩,
  ⟨"SLA_CTXMEM", 0x2a00100, [(16, 0x8)], 0x0, 0xc00001fffffff000, 0x0⟩,
  ⟨"GATE_GATESTAT", 0x100000, [], 0x0, 0x0, 0x0⟩,
  ⟨"GATE_AGECFG", 0x100008, [], 0x3200c8, 0xffffffffffff, 0x0⟩,
  ⟨"GATE_DISPCFG", 0x100010, [], 0x7, 0x7, 0x0⟩,
  ⟨"GATE_PREEMPTCNT", 0x100018, [], 0x0, 0x0, 0x0⟩,
  ⟨"GATE_REJSTAT", 0x100020, [], 0x0, 0x0, 0x100000000⟩,
  ⟨"GATE_STALECNT", 0x100028, [], 0x0, 0x0, 0x0⟩,
  ⟨"GATE_YIELDREQ", 0x100030, [], 0x0, 0x0, 0x0⟩,
  ⟨"GATE_MODECFG", 0x100038, [], 0x0, 0x3, 0x4⟩,
  ⟨"CTXCTL", 0x101000, [(16, 0x40)], 0x100000000000, 0xc0001fff00000000, 0x0⟩,
  ⟨"BINAREA", 0x101008, [(16, 0x40)], 0x0, 0xff7fff0000, 0x0⟩,
  ⟨"SAVEAREA", 0x101010, [(16, 0x40)], 0x0, 0xf000001ff0000, 0x0⟩,
  ⟨"CTXKILL", 0x101018, [(16, 0x40)], 0x0, 0x0, 0x0⟩,
  ⟨"QCTL", 0x102000, [(16, 0x200), (8, 0x40)], 0x0, 0xff0001, 0x0⟩,
  ⟨"CMDRING", 0x102008, [(16, 0x200), (8, 0x40)], 0x0, 0xf00fffffffffffe0, 0x0⟩,
  ⟨"CPLRING", 0x102010, [(16, 0x200), (8, 0x40)], 0x0, 0xf00fffffffffffe0, 0x0⟩,
  ⟨"QPTR", 0x102018, [(16, 0x200), (8, 0x40)], 0x0, 0x0, 0x0⟩,
  ⟨"CPLPTR", 0x102020, [(16, 0x200), (8, 0x40)], 0x0, 0xffffffff, 0x0⟩,
  ⟨"QSTAT", 0x102028, [(16, 0x200), (8, 0x40)], 0x0, 0x0, 0x0⟩,
  ⟨"SEQA", 0x110000, [(1024, 0x10)], 0x0, 0x0, 0x0⟩,
  ⟨"SEQB", 0x110008, [(1024, 0x10)], 0x0, 0x0, 0x0⟩,
  ⟨"DMA_DMASTAT", 0x3000000, [], 0x0, 0x0, 0x0⟩]

def regRows4 : List RegRow := [
  ⟨"DMA_STALECNT", 0x3000008, [], 0x0, 0x0, 0x0⟩,
  ⟨"DMA_FLTRING", 0x3000010, [], 0x0, 0xf80fffffffffffe0, 0x0⟩,
  ⟨"DMA_FLTPTR", 0x3000018, [], 0x0, 0xffffffff, 0x0⟩,
  ⟨"DMA_FLTRESP", 0x3000020, [], 0x0, 0x0, 0x0⟩,
  ⟨"DMA_FLTSTAT", 0x3000028, [], 0x0, 0x0, 0x1⟩,
  ⟨"CHCTL", 0x3001000, [(64, 0x40)], 0x500000000000000, 0xfe00000000000000, 0x0⟩,
  ⟨"CHSTAT", 0x3001008, [(64, 0x40)], 0x0, 0x0, 0x0⟩,
  ⟨"CHDESC", 0x3001010, [(64, 0x40)], 0x0, 0x0, 0x0⟩,
  ⟨"CHERR", 0x3001018, [(64, 0x40)], 0x0, 0x0, 0x1⟩,
  ⟨"CHBYTES", 0x3001020, [(64, 0x40)], 0x0, 0x0, 0x0⟩,
  ⟨"DMA_REQ", 0x3003000, [(256, 0x8)], 0x0, 0x800000007ffffff8, 0x0⟩,
  ⟨"WKCTL", 0x3004000, [(64, 0x40)], 0x40000000000000, 0x878f000000ffffff, 0x0⟩,
  ⟨"WKPEER", 0x3004008, [(64, 0x40)], 0x0, 0xffffff, 0x0⟩,
  ⟨"WKBASE", 0x3004010, [(64, 0x40)], 0x0, 0xffffffffff000, 0x0⟩,
  ⟨"WKSIZE", 0x3004018, [(64, 0x40)], 0x0, 0x7ffffff, 0x0⟩,
  ⟨"WKPOOL", 0x3004020, [(64, 0x40)], 0x0, 0x0, 0x0⟩,
  ⟨"WKRELW", 0x3004028, [(64, 0x40)], 0x0, 0x800000007ffffff8, 0x0⟩,
  ⟨"WKRET", 0x3004030, [(64, 0x40)], 0x0, 0x0, 0x0⟩,
  ⟨"WKSTAT", 0x3004038, [(64, 0x40)], 0x0, 0x0, 0x3⟩,
  ⟨"LNKCTL", 0x3400000, [(8, 0x10000)], 0x808000000000ea60, 0xc1f00000ffffffff, 0x0⟩,
  ⟨"LNKSTAT", 0x3400008, [(8, 0x10000)], 0x0, 0x0, 0x0⟩,
  ⟨"LNKPEER", 0x3400010, [(8, 0x10000)], 0x0, 0x0, 0x0⟩,
  ⟨"LANEMAP", 0x3400018, [(8, 0x10000)], 0x0, 0x0, 0x0⟩,
  ⟨"TXLAS0", 0x3400020, [(8, 0x10000)], 0x0, 0x0, 0x0⟩,
  ⟨"TXLAS1", 0x3400028, [(8, 0x10000)], 0x0, 0x0, 0x0⟩,
  ⟨"RXLAS0", 0x3400030, [(8, 0x10000)], 0x0, 0x0, 0x0⟩]

def regRows5 : List RegRow := [
  ⟨"RXLAS1", 0x3400038, [(8, 0x10000)], 0x0, 0x0, 0x0⟩,
  ⟨"LNKEVT", 0x3400040, [(8, 0x10000)], 0x0, 0x0, 0xf⟩,
  ⟨"FLITTX", 0x3400048, [(8, 0x10000)], 0x0, 0x0, 0x0⟩,
  ⟨"FLITRX", 0x3400050, [(8, 0x10000)], 0x0, 0x0, 0x0⟩,
  ⟨"REPLAYCNT", 0x3400058, [(8, 0x10000)], 0x0, 0x0, 0x0⟩,
  ⟨"VCCRED", 0x3400060, [(8, 0x10000)], 0x0, 0x0, 0x0⟩,
  ⟨"LNKRTT", 0x3400068, [(8, 0x10000)], 0x0, 0x0, 0x0⟩,
  ⟨"LNKSESS", 0x3400070, [(8, 0x10000)], 0x0, 0x0, 0x0⟩,
  ⟨"PWGEN", 0x3400080, [(8, 0x10000), (4, 0x8)], 0x0, 0xffffffffffffffff, 0x0⟩,
  ⟨"FECSYM", 0x3400100, [(8, 0x10000), (16, 0x20)], 0x0, 0x0, 0x0⟩,
  ⟨"FECUNC", 0x3400108, [(8, 0x10000), (16, 0x20)], 0x0, 0x0, 0x0⟩,
  ⟨"LANEBER", 0x3400110, [(8, 0x10000), (16, 0x20)], 0x0, 0x0, 0x0⟩,
  ⟨"LANEHTR", 0x3400118, [(8, 0x10000), (16, 0x20)], 0x0, 0x0, 0x0⟩,
  ⟨"RWCTL", 0x3400300, [(8, 0x10000), (4, 0x20)], 0x0, 0x803f000000000000, 0x100000000⟩,
  ⟨"RWBASE", 0x3400308, [(8, 0x10000), (4, 0x20)], 0x0, 0x3ffffffff8, 0x0⟩,
  ⟨"RWLEN", 0x3400310, [(8, 0x10000), (4, 0x20)], 0x0, 0x3ffffffff8, 0x0⟩,
  ⟨"RWCNT", 0x3400318, [(8, 0x10000), (4, 0x20)], 0x0, 0x3ffffffff8, 0x0⟩,
  ⟨"LANCTL", 0x3480000, [(8, 0x1000)], 0x1, 0x3, 0x0⟩,
  ⟨"LANSTAT", 0x3480008, [(8, 0x1000)], 0x0, 0x0, 0x0⟩,
  ⟨"LANSER0", 0x3480010, [(8, 0x1000)], 0x0, 0x0, 0x0⟩,
  ⟨"LANSER1", 0x3480018, [(8, 0x1000)], 0x0, 0x0, 0x0⟩,
  ⟨"LANLIFE", 0x3480020, [(8, 0x1000)], 0x0, 0x0, 0x0⟩,
  ⟨"LANEVT", 0x3480028, [(8, 0x1000)], 0x0, 0x0, 0x7⟩,
  ⟨"LANPWR", 0x3480030, [(8, 0x1000)], 0x0, 0x0, 0x0⟩,
  ⟨"LASER", 0x3480040, [(8, 0x1000), (18, 0x8)], 0x0, 0x0, 0x0⟩,
  ⟨"IDMEM", 0x3480200, [(8, 0x1000), (64, 0x8)], 0x0, 0x0, 0x0⟩]

def regRows6 : List RegRow := [
  ⟨"HOST_HOSTID", 0x0, [], 0x1f3d000000000000, 0x0, 0x0⟩,
  ⟨"HOST_SERIAL", 0x8, [], 0x0, 0x0, 0x0⟩,
  ⟨"HOST_LINKSTAT", 0x10, [], 0x0, 0x0, 0x0⟩,
  ⟨"HOST_WINCTL", 0x18, [], 0x0, 0x80fffffff0000000, 0x0⟩,
  ⟨"HOST_HOSTHI", 0x20, [], 0x0, 0xffff000000000000, 0x0⟩,
  ⟨"HOST_BARERR", 0x28, [], 0x0, 0x0, 0xf⟩,
  ⟨"HOST_BARERRCNT", 0x30, [], 0x0, 0x0, 0x0⟩,
  ⟨"HOST_CTXPASID", 0x100, [(16, 0x8)], 0x0, 0x80000000000fffff, 0x0⟩,
  ⟨"HOST_IRQSRC", 0x200, [(7, 0x8)], 0x0, 0x8000ff0000000000, 0x100000000⟩,
  ⟨"HCRLCFG", 0x10000, [(64, 0x40)], 0x80000000, 0x8781f0ff00000000, 0x0⟩,
  ⟨"HCRLBASE", 0x10008, [(64, 0x40)], 0x0, 0xffffffffff000, 0x0⟩,
  ⟨"HCRLPTR", 0x10010, [(64, 0x40)], 0x0, 0xfffff, 0x0⟩,
  ⟨"HCRLCRED", 0x10018, [(64, 0x40)], 0x400, 0x1fffff, 0x0⟩,
  ⟨"HCRLSTAT", 0x10020, [(64, 0x40)], 0x0, 0x0, 0x30000000000⟩,
  ⟨"HOST_MSIXADDR", 0x80000, [(256, 0x10)], 0x0, 0xffffffffffffffff, 0x0⟩,
  ⟨"HOST_MSIXCTL", 0x80008, [(256, 0x10)], 0x100000000, 0x1ffffffff, 0x0⟩,
  ⟨"HOST_MSIXPBA", 0x90000, [(4, 0x8)], 0x0, 0x0, 0x0⟩,
  ⟨"ERRSTAT", 0x3c00000, [], 0x0, 0x0, 0x1⟩,
  ⟨"FATALINFO", 0x3c00008, [], 0x0, 0x0, 0x0⟩,
  ⟨"LOGRING", 0x3c00010, [], 0x0, 0xf80fffffffffffc0, 0x0⟩,
  ⟨"LOGPTR", 0x3c00018, [], 0x0, 0xffffffff, 0x0⟩,
  ⟨"LOGSTAT", 0x3c00020, [], 0x0, 0x0, 0x80000000⟩,
  ⟨"LOGMASK", 0x3c00028, [], 0xfffffffe, 0xfffffffe, 0x0⟩,
  ⟨"PROBECFG", 0x3c00030, [], 0x1800030001, 0xffff00ff0001, 0x0⟩,
  ⟨"PROBECNT", 0x3c00038, [], 0x0, 0x0, 0x0⟩,
  ⟨"HEDGECMD", 0x3c00040, [], 0x0, 0x0, 0x0⟩]

def regRows7 : List RegRow := [
  ⟨"HEDGECMDST", 0x3c00048, [], 0x0, 0x0, 0x0⟩,
  ⟨"HEDGECORE", 0x3c00050, [], 0x0, 0x0, 0x0⟩,
  ⟨"HEDGEMISC", 0x3c00058, [], 0x0, 0x0, 0x0⟩,
  ⟨"HEDGEDMA", 0x3c00060, [], 0x0, 0x0, 0x0⟩,
  ⟨"KINDCNT", 0x3c00108, [(31, 0x8)], 0x0, 0x0, 0x0⟩,
  ⟨"HEDGECNT", 0x3c00208, [(13, 0x8)], 0x0, 0x0, 0x0⟩,
  ⟨"REFTICK", 0x3a00000, [], 0x0, 0x0, 0x0⟩,
  ⟨"STEPCTL", 0x3a00008, [], 0xaf000000000, 0x87000fff00000000, 0x0⟩,
  ⟨"STEPSTAT", 0x3a00010, [], 0x0, 0x0, 0x0⟩,
  ⟨"EPOCHCNT", 0x3a00018, [], 0x0, 0x0, 0x0⟩,
  ⟨"THROTCNT", 0x3a00020, [], 0x0, 0x0, 0x0⟩,
  ⟨"CLK_PWR", 0x3a00028, [], 0x0, 0x0, 0x0⟩,
  ⟨"GENMON", 0x3a00100, [(10, 0x8)], 0x190000, 0xffff0000, 0x0⟩,
  ⟨"LODGESTAT", 0x3800000, [], 0x0, 0x0, 0x0⟩,
  ⟨"LODGE_READY", 0x3800008, [], 0x0, 0x0, 0x0⟩,
  ⟨"FWCMD", 0x3800010, [], 0x0, 0x0, 0x0⟩,
  ⟨"FWSTAT", 0x3800018, [], 0x0, 0x0, 0x0⟩,
  ⟨"TELRING", 0x3800020, [], 0x0, 0xf80ffffffffff800, 0x0⟩,
  ⟨"TELSTAT", 0x3800028, [], 0x0, 0x0, 0x0⟩,
  ⟨"COOLCTL", 0x3800030, [], 0x4000, 0xff00, 0x0⟩,
  ⟨"MTRNOW", 0x3810000, [(1024, 0x10)], 0x0, 0x0, 0x0⟩,
  ⟨"MTRHIST", 0x3810008, [(1024, 0x10)], 0x0, 0x0, 0x0⟩,
  ⟨"BELVCTL", 0x3b00000, [], 0x8000001900000004, 0x8000ffff000003ff, 0x0⟩,
  ⟨"BELVCNT", 0x3b00008, [], 0x0, 0x0, 0x0⟩,
  ⟨"BELVCTX", 0x3b00100, [(16, 0x8)], 0x0, 0x800fffffffffffc0, 0x0⟩]

/-- Every register kind of BAR0. -/
def regRows : List RegRow :=
  regRows0 ++ regRows1 ++ regRows2 ++ regRows3 ++ regRows4 ++ regRows5 ++ regRows6 ++ regRows7

/-- Whether offset `d` past a row's first register is one of its instances: the strides fall, and each index lies
below its count. -/
def dimsHit : List (Nat × Nat) → Nat → Bool
  | [], d => d == 0
  | (c, st) :: ds, d => decide (d / st < c) && dimsHit ds (d % st)

def RegRow.hit (r : RegRow) (off : Nat) : Bool := decide (r.base ≤ off) && dimsHit r.dims (off - r.base)

/-- The row of the register at BAR0 offset `off`, none at an unassigned offset (R19). -/
def rowOf (off : Nat) : Option RegRow := regRows.find? (fun r => r.hit off)

/-- What a register that nothing has written holds: its reset value (R20). -/
def regReset (off : Nat) : Nat := match rowOf off with
  | some r => r.reset
  | none => 0

end Sys2Proof.Machine
end

