-- ==== Sys2Proof/Machine/State.lean ====
section
/-! DEFINITION. The state of the module: every register, memory, buffer, queue and table that spec/02 to spec/17 give it,
as plain data, with the queue of waiting commands.  Units that come in numbers are maps by their number; the value an
unlisted number reads as is the unit at module reset.  The machine after module reset is at the end. -/

namespace Sys2Proof.Machine

open Sys2Proof

/-- Why a step stops for good.  No command of the table ends so: the spec gives each of them an outcome for every state,
so this reason exists only because the interface asks for a type. -/
inductive Fault where
  /-- Raised by no meaning (safe: nothing is claimed of it). -/
  | noMeaningStops
deriving DecidableEq, Repr

/-- Why a command has no meaning. -/
inductive Refusal where
  /-- Raised by an arm of `exec` whose command has no meaning yet (safe). -/
  | notModelled (mnemonic : String)
deriving DecidableEq, Repr

/-! ### Tile registers (R111 to R123) -/

inductive RegState where
  | empty
  | live
  | releasing
deriving DecidableEq, Repr

inductive Width where
  | w8
  | w16
  | w32
deriving DecidableEq, Repr

/-- What the bandstand knows of one tile register of a stream: its state, lane width, stale bit, provenance (up to two
ranges of local offsets, lowest and highest byte), and the cycle at which a RELEASING register becomes EMPTY. -/
structure RegMeta where
  st : RegState
  width : Width
  stale : Bool
  prov : List (Nat × Nat)
  emptyAt : Nat
deriving DecidableEq, Repr

def RegMeta.reset : RegMeta := ⟨.empty, .w8, false, [], 0⟩

/-- The contents of one tile register of one core: its lanes and its four exponent bytes.  A lane that is not listed is
0. -/
structure RegData where
  lanes : List Int
  exps : List Int
deriving DecidableEq, Repr

def RegData.zero : RegData := ⟨[], []⟩

/-! ### Weights (R66, R67, R84, R107) -/

/-- One loaded weight image: its format (0 SI8, 1 SI4, 2 SI2), the logical rows and the exponent bytes read so far.  A
byte not read is 0, so image 0, which is never loaded, is the zero weights of R84. -/
structure WSet where
  fmt : Nat
  rows : List (List Byte)
  exps : List Byte
deriving DecidableEq, Repr

def WSet.zero : WSet := ⟨0, [], []⟩

/-- The Orangery addresses of a weight image's planes and its format, as the bandstand records them (R107). -/
structure Image where
  am : Nat
  ae : Nat
  fmt : Nat
deriving DecidableEq, Repr

/-! ### Credit accounts and message senders (R408, R424) -/

/-- One credit account: the creel it serves (its tag, or for the creel of a peer 2^16 plus the device address of its ring
base), the bytes it holds, and when it was used last. -/
structure Account where
  tag : Nat
  bytes : Nat
  used : Nat
deriving DecidableEq, Repr

/-! ### Cores and handler units -/

/-- A running handler (R148, R151): its creel, its routine, the tick at which it started, its open loops, its program
counter. -/
structure Handler where
  creel : Nat
  routine : Nat
  start : Nat
  loops : List (Nat × Nat)
  pc : Nat
deriving DecidableEq, Repr

/-- The weight registers of one core as the bandstand knows them: the images, by number, that its main and its shadow
registers hold, the image that the shadow registers held before the last ripple load (whose writes may still be on their
way, R79), and the records of the active and of the pending image (R107). -/
structure Weights where
  main : Nat
  shadow : Nat
  behind : Nat
  act : Option Image
  pend : Option Image
deriving DecidableEq, Repr

/-- The weight registers of R84: image 0, and no record. -/
def Weights.zero : Weights := ⟨0, 0, 0, none, none⟩

/-- One core: tile register contents, the states that its last task left its registers in (R114), lookup tables (R126),
weight registers, and the handler unit with its registers and credit accounts (R148, R424); `handled` holds the contexts whose
handlers have run since the last Belvedere sample (R436); `hndEnds` is the number of handlers that have ended, by which a late reply
knows its handler. -/
structure Core where
  tile : List (Nat × RegData)
  left : List (Nat × RegMeta)
  tables : List (Nat × List Int)
  weights : Weights
  handler : Option Handler
  hs : List (Nat × BitVec 32)
  ha : List (Nat × BitVec 52)
  accounts : List Account
  handled : List Nat
  hndEnds : Nat
deriving DecidableEq, Repr

def Core.reset : Core := ⟨[], [], [], Weights.zero, none, [], [], [], [], 0⟩

/-! ### The static pipeline of a stream (R70 to R76, R136, R137, R172, R174) -/

/-- A source vector of a pass, read and not yet drained: vector number, core, lanes and exponents. -/
structure Feed where
  k : Nat
  core : Nat
  lanes : List Int
  exps : List Int
deriving DecidableEq, Repr

/-- A pass in flight: its operands captured at issue, the weight registers that it meets in each core, the cycle at which the
ripple load behind it was issued (R79), the plane count, and the masks read at @+1. -/
structure PassF where
  mode : PassMode
  d : Tile
  d2 : Tile
  s : Tile
  m : Option Nat
  n : Nat
  eref : Int
  ibase : Int
  acc : Bool
  i16 : Bool
  swap : Bool
  planes : Nat
  wids : List (Nat × Weights)
  ripple : Nat
  masks : List (Nat × List Int)
  hits : List (Nat × Bool)
deriving DecidableEq, Repr

/-- A TLOAD or TSTORE in flight: offsets, strides, mode, lane bytes, packing (8, 4 or 2 bits an element) and latency. -/
structure MoveF where
  t : Tile
  am : Int
  sms : Int
  ae : Option Int
  ses : Int
  transposed : Bool
  w : Nat
  pack : Nat
  lat : Nat
deriving DecidableEq, Repr

/-- An EPROG in flight. -/
structure EprogF where
  d : Tile
  a : Tile
  b : Option Tile
  prog : Program
  tmask : Nat
  tbase : Nat
  c0 : Int
  c1 : Int
  fixed : Bool
  eexp : Int
  lat : Nat
deriving DecidableEq, Repr

/-- An EQUANT in flight. -/
structure EquantF where
  d : Tile
  s : Tile
  sv : Nat
  perRow : Bool
  wbits : Nat
  fit : Bool
  e : Int
deriving DecidableEq, Repr

/-- A weight load in flight: its image's number, its planes and format, and the slots that the withy chain and the deskew
buffers hold: read, and not yet presented to the cores (R85, R87). -/
structure WloadF where
  id : Nat
  am : Nat
  ae : Nat
  fmt : Nat
  slots : List (Nat × List Byte)
deriving DecidableEq, Repr

/-- What a core's array holds and shows beside its weights at a macro-op boundary (R107): active format and pending flag. -/
structure ArrayAt where
  weights : Weights
  wmode : Nat
  pending : Bool
deriving DecidableEq, Repr

inductive FlightOp where
  | wload (w : WloadF)
  | pass (p : PassF)
  | tload (m : MoveF)
  | tstore (m : MoveF)
  | eprog (e : EprogF)
  | eshufX (d s : Tile) (m : Nat)
  | eshufB (d s : Tile) (c : Nat)
  | esum (d s : Tile) (g : Nat)
  | emax (d s : Tile) (g : Nat) (d2 : Option Tile)
  | ebcast (d s : Tile) (v : Nat) (col : Bool) (op k : Nat)
  | equant (q : EquantF)
deriving DecidableEq, Repr

/-- An entry of a range tracker (R443): its owner (program order of a static macro-op, or number of a dynamic
operation), the slices and local offsets it covers, and the cycle that releases a static entry, or the request range of a
SLATH (R189; 0 where an operation's entry has no such cycle). -/
structure Range where
  static : Bool
  owner : Nat
  slices : List Nat
  lo : Nat
  hi : Nat
  write : Bool
  until_ : Nat
deriving DecidableEq, Repr

/-- A static macro-op in flight: its program order, its issue cycle, its index, the cores it runs on, its operation, the vectors a
pass has read, the registers of a TLOAD that an acquire has marked (R122), whether it has set the lane range flag
on each core, the slice ranges it takes (R159), whether another macro-op has changed what it would read or write again
(R389), the arrays as they were before a weight load or a pass with the swap bit (R107), whether it
is issued again at its issue cycle after a resume (R392), and the operand values that the log takes (R209). -/
structure Flight where
  seq : Nat
  issue : Nat
  pc : Nat
  cores : List Nat
  op : FlightOp
  feeds : List Feed
  marked : List Nat
  lrf : List Nat
  extent : List Range
  spoilt : Bool
  before : List (Nat × ArrayAt)
  again : Bool
  data : List Nat
deriving DecidableEq, Repr

/-- A register write that lands at the start of cycle `cycle`; a lane that is `none` keeps its contents. -/
structure Land where
  cycle : Nat
  seq : Nat
  plane : Nat
  core : Nat
  reg : Nat
  lanes : List (Option Int)
  exps : Option (List Int)
  prov : List (Nat × Nat)
  stale : Bool
deriving DecidableEq, Repr

/-- A TSTORE write to the Orangery in cycle `cycle`, seen by slice reads from the next cycle (R174). -/
structure MStore where
  cycle : Nat
  seq : Nat
  cells : List Host.Cell
deriving DecidableEq, Repr

/-- What the issue distances of R81 are measured from: the last pass, the last SI4 or SI2 pass (issue and feed length),
the last weight load of either kind, the last ripple load and the last stall load. -/
structure ArrTiming where
  pass : Option (Nat × Nat)
  subPass : Option (Nat × Nat)
  wload : Option Nat
  ripple : Option Nat
  stall : Option Nat
deriving DecidableEq, Repr

def ArrTiming.reset : ArrTiming := ⟨none, none, none, none, none⟩

/-! ### Full/empty words (R402 to R410) -/

/-- The metadata of a word: EMPTY is the default. -/
inductive WMeta where
  | empty
  | full
  | poisoned
deriving DecidableEq, Repr

/-- What a waiting access waits for: a full word (FWAIT), a take (FTAKE), a count of `k` (FCOUNT−), or any count, all of
which a wicket's drain takes (R479). -/
inductive TakeKind where
  | fwait
  | ftake
  | fcount (k : Nat) (chk : Bool)
  | drain
deriving DecidableEq, Repr

/-- Who waits at a word, or is answered by an access to it (R405). -/
inductive FeAgent where
  /-- a local access of a stream: the core whose word it is -/
  | local_ (k core : Nat)
  /-- the remote access of dynamic operation `op` of this module -/
  | remote (op : Nat)
  /-- an access that a peer asked for: port, source (R408 key), and the operation number to answer -/
  | peer (port key op : Nat)
  | dma (ch : Nat)
  | drain (wk : Nat)
deriving DecidableEq, Repr

/-- A waiter entry at a word: arrival is its place in the order of arrivals, `tick` the reference tick of it. -/
structure Waiter where
  word : Nat
  agent : FeAgent
  key : Nat
  kind : TakeKind
  arrival : Nat
  tick : Nat
deriving DecidableEq, Repr

/-- The accesses to a word that may be asked for from elsewhere (R403). -/
inductive FeAcc where
  | take (kind : TakeKind) (wait : Bool)
  | fill (v : BitVec 64)
  | empty (v : BitVec 64)
  | count (k : Nat)
deriving DecidableEq, Repr

/-- The outcome of an access: the value read, or a skip cause of R209. -/
inductive FeRes where
  | ok (v : BitVec 64)
  | cause (c : Nat)
deriving DecidableEq, Repr

/-! ### Dynamic operations (R176 to R190, R217, R231) -/

/-- One core's share of a SLOAD or SSTORE: source and destination device addresses, rows, bytes a row, strides. -/
structure Xfer where
  src : Nat
  dst : Nat
  rows : Nat
  rb : Nat
  ss : Int
  ds : Int
deriving DecidableEq, Repr

/-- What one core's share of a dynamic operation does. -/
inductive ShareOp where
  | sload (x : Xfer)
  | sstore (x : Xfer)
  | slath (req qlen ares srl : Nat) (body : List Byte)
  | fe (addr : Nat) (acc : FeAcc)
  | send (creel tag : Nat) (addr : Nat) (msg : List Byte) (flags : Nat)
deriving DecidableEq, Repr

/-- How far a share has come: waiting to be performed, from a position in bytes; halted at a page fault with its position
(R461); sent to a peer and not acknowledged; done with a status of R179. -/
inductive ShareState where
  | waiting (pos : Nat)
  | faulted (pos : Nat)
  | sent
  | done (status : Nat)
deriving DecidableEq, Repr

/-- One core's share of a dynamic operation: the physical core, its work, its completion word (an Orangery address) if it
has one, and its progress. -/
structure Share where
  core : Nat
  op : ShareOp
  cpl : Option Nat
  st : ShareState
deriving DecidableEq, Repr

/-- A dynamic operation in flight: who issued it, its context, class, program order
(of a handler: how many handlers of its core had ended), completion kind, whether its
completion is held for COMMIT (R180), whether its issuer waits for the reply, the tick of its issue, its
macro-op's index and operand values for the log (R209), and its shares. -/
structure DynOp where
  who : Who
  ctx : Nat
  cls : Nat
  task : Nat
  seq : Nat
  count : Bool
  held : Bool
  reply : Bool
  tick : Nat
  pc : Nat
  data : List Nat
  shares : List Share
deriving DecidableEq, Repr

/-- An entry of a stream's commit buffer (R226, R240): the words of a held fill or counter update, a held completion by
operation number and word, or a held message. -/
inductive CEntry where
  | fill (words : List Nat) (v : BitVec 64)
  | count (words : List Nat) (k : Nat)
  | cpl (op : Nat) (results : List (Nat × BitVec 64 × Bool)) (count : Bool)
  | msg (creel tag : Nat) (addr : Nat) (core : Nat) (bytes : List Byte)
deriving DecidableEq, Repr

/-! ### Streams -/

inductive StrState where
  | idle
  | running
  | waiting
  | held
  | ending
deriving DecidableEq, Repr

/-- What a waiting stream waits for (R194): local words that have not answered yet (with the macro-op's destination
registers and guard range), credit for a send, a fence, COMMIT step 1 or 3, or the reply of a remote access. -/
inductive Wait where
  | none_
  | words (todo : List Nat) (sd sd2 : Option SReg) (guard : Nat × Nat × Nat)
  | reply (op : Nat) (sd sd2 : Option SReg) (guard : Nat × Nat × Nat)
  | credit (creel : Nat) (cost : Nat) (i : Instr)
  | fence (x : Bool) (seq : Nat)
  | commit1
  | commit2
  | commit3
deriving DecidableEq, Repr

/-- One instruction stream: stream 2n + k runs on the whole of pavilion n or on its half k (R195).  `data` holds the operand
values of the macro-op last issued (R209), `releasing` the commit entries that are released and whose words are not yet
accessed, each with its access cycle (R239), `acq` the guards of the acquires that complete in a later cycle,
each with that cycle (R122, R223), `heldAs` the ranges that its held macro-op would take, `reload` the cycle at which the reload of a resumed task ends (R392),
`obliged` says that a held macro-op must still issue before its task can be pre-empted (R389), and `parked` is the wait of a
take that was pre-empted while it waited at a peer, with its reply once it has come (R224, R230). -/
structure Stream where
  st : StrState
  wait : Wait
  waitSince : Nat
  held : Option Instr
  heldAs : List Range
  heldAt : Nat
  task : Nat
  ctx : Nat
  cls : Nat
  half : Bool
  cores : List Nat
  check : Bool
  lt : LatTable
  now : Nat
  nextSlot : Nat
  seq : Nat
  pc : Nat
  nextPc : Nat
  data : List Nat
  sregs : List (Nat × BitVec 32)
  aregs : List (Nat × BitVec 52)
  loops : List (Nat × Nat)
  tile : List (Nat × RegMeta)
  flights : List Flight
  gone : List Flight
  lands : List Land
  stores : List MStore
  ranges : List Range
  arr : ArrTiming
  eeFree : Nat
  tldFree : Nat
  tstFree : Nat
  programs : List Program
  routines : Nat
  plan : List Reservation
  commit : List CEntry
  releasing : List (Nat × CEntry)
  acq : List (Nat × (Nat × Nat × Nat))
  outs : List (Nat × Nat)
  released : Bool
  ended : Option Nat
  late : Option Nat
  accounts : List Account
  preempt : Option Nat
  obliged : Bool
  parked : Option (Wait × Option Instr × Option FeRes)
  reload : Nat
  resident : Option Nat
  issued : Bool
  bcnt : Nat
  startTick : Nat
deriving DecidableEq, Repr

def Stream.reset : Stream where
  st := .idle
  wait := .none_
  waitSince := 0
  held := none
  heldAs := []
  heldAt := 0
  task := 0
  ctx := 0
  cls := 0
  half := false
  cores := []
  check := false
  lt := .a1
  now := 0
  nextSlot := 0
  seq := 0
  pc := 0
  nextPc := 0
  data := []
  sregs := []
  aregs := []
  loops := []
  tile := []
  flights := []
  gone := []
  lands := []
  stores := []
  ranges := []
  arr := ArrTiming.reset
  eeFree := 0
  tldFree := 0
  tstFree := 0
  programs := []
  routines := 0
  plan := []
  commit := []
  releasing := []
  acq := []
  outs := []
  released := false
  ended := none
  late := none
  accounts := []
  preempt := none
  obliged := false
  parked := none
  reload := 0
  resident := none
  issued := false
  bcnt := 0
  startTick := 0

/-! ### Bank queues, tokens and creels -/

/-- A dynamic full/empty access waiting at its sub-bank (R257): the slice, the sub-bank, the class, the agent of R257
(0 promenade port, 1 stack port, 2 handler unit, 3 operations of the own pavilion), the word, the access, and who is
answered. -/
structure BankReq where
  slice : Nat
  sub : Nat
  cls : Nat
  agent : Nat
  addr : Nat
  acc : FeAcc
  dest : FeAgent
  key : Nat
deriving DecidableEq, Repr

/-- What a token on the trellis carries (R546): the reply or acknowledgement of a remote access, or a credit grant. -/
inductive TokenKind where
  | reply (op : Nat) (res : FeRes)
  | grant (who : Who) (tag amount : Nat)
deriving DecidableEq, Repr

/-- A token crossing between plots: the receiving plot (pavilions 0 to 7, the spine 8), what it carries, and the
reference tick at which it was sent. -/
structure Token where
  id : Nat
  plot : Nat
  kind : TokenKind
  tick : Nat
deriving DecidableEq, Repr

/-- Who a credit grant goes to: a stream or handler of this module, or the peer on a port (with the request's tag and
reference, R478). -/
inductive GrantTo where
  | own (w : Who)
  | peer (port : Nat) (ref : Nat)
deriving DecidableEq, Repr

/-- A grant request waiting at a creel or a wicket (R426, R478): the shortfall it must cover and the bytes asked for. -/
structure GrantReq where
  dest : GrantTo
  tag : Nat
  short : Nat
  want : Nat
deriving DecidableEq, Repr

/-- Who learns that a message is written in its ring: a share of a dynamic operation, or a message packet of a peer. -/
inductive MsgFrom where
  | op (id core : Nat)
  | peer (port : Nat) (ref : Nat)
  | commit (k : Nat)
deriving DecidableEq, Repr

/-- A message at a creel's input stage (R429): its source key, its place in arrival order, the tick of its arrival, the
tag of its credit, and the header fields that its sender gives. -/
structure StageMsg where
  key : Nat
  order : Nat
  tick : Nat
  tag : Nat
  flags : Nat
  src : Nat
  srcid : Nat
  taskid : Nat
  ctx : Nat
  bytes : List Byte
  back : MsgFrom
deriving DecidableEq, Repr

/-- An entry in a creel ring: its offset, its size E, the W of a marker written after it, and the header fields that the
handler unit and the Belvedere read. -/
structure CrlEntry where
  off : Nat
  size : Nat
  marker : Nat
  seq : Nat
  srcid : Nat
  arrive : Nat
deriving DecidableEq, Repr

/-- What a creel holds beside its registers (R416 to R434): its entries from HEAD, the messages written since EN was set,
the phase, the credit granted and not yet spent or returned, its waiting grant requests, its input stage, the tick
at which EN was last cleared, and the unspent bytes granted to the peer on each port. -/
structure Creel where
  entries : List CrlEntry
  written : Nat
  phase : Bool
  out : Nat
  requests : List GrantReq
  stage : List StageMsg
  cleared : Nat
  peers : List (Nat × Nat)
deriving DecidableEq, Repr

def Creel.reset : Creel := ⟨[], 0, true, 0, [], [], 0, []⟩

/-! ### Error log and interrupts (R577 to R580, R608 to R611) -/

/-- A log event with the fields of R610; `data` holds its four words. -/
structure LogEntry where
  kind : Nat
  cause : Nat
  rclass : Nat
  flags : Nat
  res : Nat
  tick : Nat
  ctx : Nat
  stream : Nat
  task : Nat
  pc : Nat
  addr : Nat
  data : List Nat
deriving DecidableEq, Repr

/-- A line of the Lodge's console on UART_TX (R659): a function of the bring-up is ready, by its bit of LODGE.READY, at a tick; or
an entry of the error log. -/
inductive ConsoleLine where
  | ready (bit tick : Nat)
  | entry (e : LogEntry)
deriving DecidableEq, Repr

/-- A memory BAR of 64 bits (R569): its size, whether it is prefetchable, and the address that the host has given it. -/
structure BarReg where
  size : Nat
  prefetch : Bool
  base : Nat
deriving DecidableEq, Repr

/-- The capabilities that the function lists (R563). -/
inductive PcieCap where
  | express
  | power
  | msix
  | aer
  | ats
  | pri
  | pasid
  | serial
deriving DecidableEq, Repr

/-- The configuration registers of the function (R562, R563, R565, R569) that no register of the HOST block shows: subsystem IDs, class
code, revision, BARs, capability list, Max Payload Size supported and set, Max Read Request Size, completion timeout in µs, Poisoned TLP
Received in AER's status, the Smallest Translation Unit in bytes, and the Invalidate Queue Depth. -/
structure PcieCfg where
  subVendor : Nat
  subDevice : Nat
  classCode : Nat
  revision : Nat
  bars : List BarReg
  caps : List PcieCap
  mpsMax : Nat
  mps : Nat
  mrrs : Nat
  timeoutUs : Nat
  poisoned : Bool
  stu : Nat
  invDepth : Nat
deriving DecidableEq, Repr

/-- The configuration registers at reset; Max Payload Size 128 and Max Read Request Size 512 are PCIe's own (PRESUMED, assumption
112). -/
def PcieCfg.reset (p : Part) : PcieCfg where
  subVendor := 0x1F3D
  subDevice := if p = .a1 then 0x0320 else 0x0321
  classCode := 0x120000
  revision := if p = .a1 then 0xA1 else 0xB0
  bars := [⟨2 ^ 26, false, 0⟩, ⟨2 ^ 28, true, 0⟩, ⟨2 ^ 17, false, 0⟩]
  caps := [.express, .power, .msix, .aer, .ats, .pri, .pasid, .serial]
  mpsMax := 512
  mps := 128
  mrrs := 512
  timeoutUs := 10000
  poisoned := false
  stu := 4096
  invDepth := 32

/-- What the host's configuration of the PCIe function holds (R566, R580, R582): MSI-X enable and function mask, and
whether the function is in D3hot; whether the PCIe link is in L0; and the other configuration registers. -/
structure Pcie where
  msixEn : Bool
  msixMask : Bool
  d3 : Bool
  l0 : Bool
  cfg : PcieCfg
deriving DecidableEq, Repr

def Pcie.reset (p : Part) : Pcie := ⟨false, false, false, false, PcieCfg.reset p⟩

/-! ### The Gatehouse (spec/09) -/

/-- The fields of a task body (R349), with the lists that are read at acceptance: the slots named and the output ranges
as (LOCAL, address, length) (R350, R351). -/
structure TaskBody where
  bin : Nat
  cls : Nat
  width : Nat
  streams : Nat
  wreg : Nat
  retry : Bool
  maxtry : Nat
  rdy : Bool
  urgth : Nat
  seqs : List Nat
  plen : Nat
  outs : List (Bool × Nat × Nat)
  param : Nat
  ready : Nat
deriving DecidableEq, Repr

/-- Where a task stands: waiting for predecessors, its readiness word or a stream; running; being pre-empted, with its save
slot, whether its images are written, and the task that asked for the stream (R388); pre-empted with its save slot; waiting for the operations of a failed attempt before its retry (R396) or for its page faults
(R462); ended with a status and DETAIL (R358). -/
inductive TaskSt where
  | waiting
  | running (k : Nat)
  | preempting (k slot : Nat) (written : Bool) (by_ : Option Nat)
  | preempted (k slot : Nat)
  | retrying (k : Nat)
  | ended (status detail : Nat)
deriving DecidableEq, Repr

/-- What a pre-empted task keeps of one core (R107, R128, R153): tile registers, weight images with their records, active
format and pending flag, and the offsets and valid bits of its tables. -/
structure SavedCore where
  tile : List (Nat × RegData)
  array : ArrayAt
  offsets : List Nat
  valid : Nat
deriving DecidableEq, Repr

/-- What a pre-empted task keeps (R391, R392): its stream, and each participating core. -/
structure Saved where
  stream : Stream
  cores : List (Nat × SavedCore)
deriving DecidableEq, Repr

/-- A task that has been accepted (R371): its ID, owner, command position and node, predecessors, body, doorbell time,
order of acceptance, promotion, attempts and flags, the count of plan removals at its last slot collision (R380), readiness,
state, last stream, what a pre-emption saved, and the tick at which it ended.  `cmd` is the key of its command, `aborts` how many
of its attempts ended by a page fault in YK-8 mode (R462). -/
structure Task where
  id : Nat
  ctx : Nat
  q : Nat
  cmd : Nat
  node : Option Nat
  cpl : Bool
  preds : List Nat
  body : TaskBody
  cls : Nat
  doorbell : Nat
  order : Nat
  dlprom : Bool
  attempts : Nat
  aborts : Nat
  preempted : Bool
  retried : Bool
  coll : Bool
  collAt : Option Nat
  word : Nat
  st : TaskSt
  last : Option Nat
  saved : Option Saved
  dispatched : Nat
  endTick : Nat
  faults : Nat
deriving DecidableEq, Repr

/-- A command that has been fetched (R341): its 64 bytes, its place in the ring count, its doorbell time; `bad` holds the
status of a fetch that failed (R359). -/
structure Fetched where
  bytes : List Byte
  pos : Nat
  doorbell : Nat
  bad : Option Nat
deriving DecidableEq, Repr

/-- A command that has been accepted and has not completed: a key of its own, position, opcode, tag, flags, doorbell time, and what it
waits for: the IDs of its tasks that have not ended (a TASK's one, a GRAPH's nodes, those a KILL names), or a DMA chain;
`bad` is the lowest node that did not end OK, as (node, status, DETAIL). -/
structure Cmd where
  key : Nat
  pos : Nat
  opcode : Nat
  tag : Nat
  flags : Nat
  doorbell : Nat
  tasks : List Nat
  chan : Option Nat
  bad : Option (Nat × Nat × Nat)
  detail : Nat
deriving DecidableEq, Repr

/-- A completion record that waits to be written, with the key of its command (R345, R357); `stops` says that its command has stopped
the queue, whose message follows the record (R578). -/
structure Rec where
  key : Nat
  status : Nat
  opcode : Nat
  tag : Nat
  taskid : Nat
  flags : Nat
  node : Nat
  doorbell : Nat
  seqs : List Nat
  pos : Nat
  detail : Nat
  stream : Nat
  attempts : Nat
  irq : Bool
  quiet : Bool
  free : Option Nat
  stops : Bool
deriving DecidableEq, Repr

/-- A task as its command describes it, its lists read (R349 to R353). -/
structure Node where
  idx : Option Nat
  preds : List Nat
  cpl : Bool
  body : TaskBody
deriving DecidableEq, Repr

/-- What a command queue holds beside its registers: the doorbells not used up, as (TAIL, tick); the commands fetched; the
nodes of the oldest of them while it waits for task capacity, checked and read (R350, R367); the commands accepted; the
records to write. -/
structure Queue where
  bells : List (Nat × Nat)
  fetched : List Fetched
  parsed : Option (List Node)
  cmds : List Cmd
  recs : List Rec
deriving DecidableEq, Repr

def Queue.reset : Queue := ⟨[], [], none, [], []⟩

/-- A binary handle of a context (R363): its generation, and what it holds while it is loaded: area units, latency
table, CHECK and NEEDORD, and its body. -/
structure Bin where
  gen : Nat
  loaded : Bool
  units : List Nat
  bytes : Nat
  lt : LatTable
  check : Bool
  needord : Bool
  body : BinBody
deriving DecidableEq, Repr

def Bin.reset : Bin := ⟨0, false, [], 0, .a1, false, false, ⟨[], [], []⟩⟩

/-- A save slot in use (R366): context, pavilion, slot number, stream, task index. -/
structure SlotUse where
  ctx : Nat
  pav : Nat
  slot : Nat
  stream : Nat
  task : Nat
deriving DecidableEq, Repr

/-- The age and the boost of one queue at one arbitration point (R384). -/
structure Age where
  age : Nat
  boost : Nat
deriving DecidableEq, Repr
/-! ### Oantaec ports (spec/13 R518 to R545) -/

/-- A packet header (R534). -/
structure Hdr where
  ty : Nat
  attr : Nat
  src : Nat
  status : Nat
  handle : Nat
  tag : Nat
  off : Nat
  sub : Nat
  len : Nat
deriving DecidableEq, Repr

structure Pkt where
  hdr : Hdr
  body : List Byte
deriving DecidableEq, Repr

/-- A packet received and not handed on, with the flits of receive buffer that it frees (R529). -/
structure RxPkt where
  pkt : Pkt
  flits : Nat
deriving DecidableEq, Repr

/-- A sequenced flit in the replay buffer (R521, R524), with the tick of its latest sending. -/
structure TxFlit where
  seq : Nat
  vc : Nat
  ctrl : Bool
  crvc : Nat
  credit : Nat
  sop : Nat
  payload : List Byte
  sent : Nat
deriving DecidableEq, Repr

/-- Packet bytes that wait on a virtual channel; `fresh` while the packet's header is still the first of them; `key` names the operation
of this module that the packet is of (its SRC and TAG, R534), none for a reply. -/
structure Chunk where
  vc : Nat
  cls : Nat
  key : Option Nat
  fresh : Bool
  bytes : List Byte
deriving DecidableEq, Repr

/-- Who waits for the answer to a request that this module has sent. -/
inductive TxnFor where
  | share (op core : Nat)
  | dma (ch did : Nat)
  | wicketCredit (w : Nat)
  | creelCredit (who : Who) (key : Nat)
deriving DecidableEq, Repr

/-- Bytes asked for from a peer: offset in the wicket, length, and the device address they go to. -/
structure Piece where
  off : Nat
  len : Nat
  dst : Nat
deriving DecidableEq, Repr

/-- An operation sent to a peer and not answered (R534, R538): the SRC and TAG by which its replies are known (`Hdr.key`), the answers still expected (WR packets, or bytes of
read data, or 1), the bytes moved so far, the places of read data, the packets that wait for wicket credit, and the ID of the
task whose operation it is (R372). -/
structure Txn where
  tag : Nat
  who : TxnFor
  wk : Nat
  left : Nat
  bytes : Nat
  pieces : List Piece
  todo : List Pkt
  asked : Bool
  task : Option Nat
deriving DecidableEq, Repr

/-- A change of the stripe that takes effect at flit `seq` of the sending or the receiving direction (R531). -/
structure LaneChange where
  lane : Nat
  on : Bool
  rx : Bool
  seq : Nat
deriving DecidableEq, Repr

/-- A ring lock loop (R514): the drop ratio set at lock, the sign, the dither step, the last dropped power, the parity of
the period, and the periods for which the ratio has been off. -/
structure Ring where
  rset : Int
  ksign : Int
  step : Int
  plast : Int
  odd : Bool
  off : Nat
deriving DecidableEq, Repr

/-- What one port holds beside its registers; `ownByte` is the random byte of its IDENT (R520), `tries` the tick of its last
retry (R602), `ctlq` the control messages that wait to be sent (R524, R526), `txIdx` the transmission index of the next flit
(R523). -/
structure Port where
  txSeq : Nat
  rxSeq : Nat
  buf : List TxFlit
  replays : Nat
  progress : Nat
  nakd : Bool
  nakTick : Nat
  nakIn : Option Nat
  owes : Bool
  sentAt : Nat
  owed : List Nat
  txq : List Chunk
  rr : Nat
  rxPart : List (Nat × List Byte)
  carry : List (Nat × Nat)
  rxq : List RxPkt
  txns : List Txn
  nextTag : Nat
  wallets : List (Nat × (Nat × Nat))
  asked : List (Nat × Hdr)
  nextRef : Nat
  peerDrain : Bool
  undrain : Bool
  attempts : Nat
  quickFails : Nat
  quick : Bool
  lanes : List LaneChange
  testing : List Nat
  bad : List (Nat × Nat)
  rings : List (Nat × Ring)
  tries : Nat
  ownByte : Byte
  ctlq : List (Nat × List Byte)
  txIdx : Nat
deriving DecidableEq, Repr

def Port.reset : Port where
  txSeq := 0
  rxSeq := 65535
  buf := []
  replays := 0
  progress := 0
  nakd := false
  nakTick := 0
  nakIn := none
  owes := false
  sentAt := 0
  owed := [0, 0, 0]
  txq := []
  rr := 0
  rxPart := []
  carry := []
  rxq := []
  txns := []
  nextTag := 0
  wallets := []
  asked := []
  nextRef := 0
  peerDrain := false
  undrain := false
  attempts := 0
  quickFails := 0
  quick := false
  lanes := []
  testing := []
  bad := []
  rings := []
  tries := 0
  ownByte := 0#8
  ctlq := []
  txIdx := 0

/-- What a wicket holds beside its registers (R478, R479): the unspent bytes granted to each port, its waiting requests,
and the tick of its last closing. -/
structure Wicket where
  granted : List (Nat × Nat)
  requests : List GrantReq
  closed : Nat
deriving DecidableEq, Repr

def Wicket.reset : Wicket := ⟨[], [], 0⟩

/-! ### Lanterns (R548 to R559) -/

/-- The seated lantern of a bay: its identity memory, the targets and the loop gain of its power loops, the bias sums of each
laser's last seconds (newest first, 60 at most; the numbers of their samples under 32 + laser), the running second's sums
and samples alike, for how many samples in a row a laser has stood at its cap below target, the energy counted towards the
next Wh in mW ms, the lanes still to move, the spare that settles, the laser that retires, when the record was last
written, whether the bay's supply is switched off (R649), and the highest case temperature that its loops have read (R552). -/
structure Lantern where
  mem : List Byte
  tgt : List (Nat × Nat)
  kp : Int
  means : List (Nat × List Nat)
  sums : List (Nat × Nat)
  capped : List (Nat × Nat)
  energy : Nat
  moves : List Nat
  settling : Option Nat
  retiring : Option Nat
  hourAt : Nat
  supplyOff : Bool
  tmax : Nat
deriving DecidableEq, Repr

def Lantern.reset : Lantern := ⟨[], [], 0, [], [], [], 0, [], none, none, 0, false, 0⟩

/-! ### DMA and page faults (R457 to R475) -/

/-- A descriptor (R464). -/
structure Desc where
  next : Nat
  op : Nat
  flags : Nat
  line : Nat
  src : Nat
  dst : Nat
  run : Nat
  n1 : Nat
  n2 : Nat
  n3 : Nat
  ss : List Int
  ds : List Int
  cplw : Nat
  seed : Nat
deriving DecidableEq, Repr

/-- What a DMA channel does: nothing, fetching its next descriptor, running one, waiting for a request at a counter word
(R470), for an answer of a peer, halted at a fault, waiting to end its descriptor. -/
inductive ChanSt where
  | idle
  | fetching
  | running
  | waiting
  | peer
  | faulted
  | ending
deriving DecidableEq, Repr

/-- A DMA channel: its chain's command, its descriptor and its place in it; the checksum so far and the bytes not yet in it;
what a run waits for at a peer (1 read data, 2 acknowledgements), or that its packets have set out (3); the space of a failure. -/
structure Chan where
  st : ChanSt
  ctx : Nat
  q : Nat
  cmd : Nat
  addr : Nat
  pos : Nat
  desc : Option Desc
  idx : Nat
  token : Bool
  csum : Nat
  tail : List Byte
  bytes : Nat
  status : Nat
  stop : Bool
  killed : Bool
  done : Nat
  bad : Nat
  firstBad : Nat
  endTick : Nat
  phase : Nat
  space : Nat
  heldAt : Option Nat
deriving DecidableEq, Repr

def Chan.reset : Chan := ⟨.idle, 0, 0, 0, 0, 0, none, 0, false, 0, [], 0, 0, false, false, 0, 0, 0, 0, 0, 0, none⟩

/-- Who halts at a page fault: a share of a dynamic operation, a DMA channel, a slath operation, or a task that was aborted
for it (R462).  A page request of a killed chain keeps the DID it was sent under (R475). -/
inductive FaultBy where
  | task (i : Nat)
  | share (op core : Nat)
  | dma (ch : Nat)
  | slath (op core : Nat)
  | oldDma (ch did : Nat)
deriving DecidableEq, Repr

/-- A device page fault (R459): its identifier (none while it waits for one or for ring room), context, page base and
size, the agents joined to it, and the record's fields, the tick of the fault among them. -/
structure PageFault where
  fid : Option Nat
  ctx : Nat
  base : Nat
  size : Nat
  by_ : List FaultBy
  source : Nat
  access : Nat
  agent : Nat
  va : Nat
  task : Nat
  tick : Nat
deriving DecidableEq, Repr

/-- An entry of a translation buffer (R301): context, page base, page size, DPA, rights, and in the DMA path's buffer the PASID
it was asked for under (R582). -/
structure Tlb where
  ctx : Nat
  base : Nat
  size : Nat
  dpa : Nat
  r : Bool
  w : Bool
  pasid : Option Nat
deriving DecidableEq, Repr

/-- A page request of PRI (R458): its group index, who waits, whether it has been sent, and its PASID (R582). -/
structure Pri where
  idx : Nat
  by_ : FaultBy
  sent : Bool
  pasid : Option Nat
deriving DecidableEq, Repr

/-! ### Slath operations (R304 to R328) -/

/-- A sub-request (R306). -/
structure SubReq where
  op : Nat
  fmt : Nat
  nv : Nat
  ctl : Nat
  eref : Int
  seq : Nat
  daddr : Nat
  vm : Nat
  ve : Nat
  cnt0 : Nat
  cnt1 : Nat
  pitch : Nat
  epitch : Nat
  layer : Nat
  kvh : Nat
  ksel : Nat
  t0 : Nat
  t1 : Nat
deriving DecidableEq, Repr

/-- What the request unit holds of a sub-request: its fields, its status, whether it is rejected, the cache page table
entries it read (DK, DV and block addresses), the operand bytes it read, and whether it has no payload of its own because
it failed before its units; and while step 3 is not over, the page table address and the header as they were read (R323). -/
structure SubRun where
  r : SubReq
  status : Nat
  rejected : Bool
  space : Nat
  dk : Nat
  dv : Nat
  blocks : List Nat
  vms : List (List Byte)
  ves : List (List Byte)
  list : List Byte
  rows : List Byte
  pt : Nat
  head : List Byte
deriving DecidableEq, Repr

/-- A work unit (R312): the share it belongs to, its sub-request, its number in it, its stack, class and stream, whether
it is waiting (0), running (1) or done (2), its status, and the totals it formed. -/
structure WUnit where
  op : Nat
  core : Nat
  sub : Nat
  idx : Nat
  stack : Nat
  cls : Nat
  stream : Nat
  st : Nat
  status : Nat
  space : Nat
  vals : List (Int × Bool)
  data : List Byte
deriving DecidableEq, Repr

/-- A slath operation whose request has been read: its share, its sub-requests, the one whose step 3 a page fault holds, and
the pages that the host has refused it, and whether its results are on their way. -/
structure SlaRun where
  op : Nat
  core : Nat
  subs : List SubRun
  part : Option SubRun
  refused : List Tlb
  sent : Bool
deriving DecidableEq, Repr

/-! ### The promenade (R260 to R269) -/

/-- A packet on the promenade: the work it belongs to (a share of a dynamic operation, or a run of a DMA channel), its class
and stream, whether it is an urgent one that may take the stream's reserved slots (R266), the router it is at and the input it came by (0 the slice of the router, 1 east, 2 west, 3 south, 4 north, 5 and
6 its stacks, 7 the spine), its destination and the output that it takes there (0, 5, 6 or 7 likewise), and the first cycle in
which it can leave (R263). -/
structure PromPkt where
  op : Nat
  core : Nat
  cls : Nat
  stream : Nat
  own : Bool
  at_ : Nat
  inp : Nat
  dst : Nat
  out : Nat
  ready : Nat
deriving DecidableEq, Repr

/-! ### Hedges, clocks, the Lodge and the pins -/

/-- A hedged resource (R588): class, RES, whether it is lasting, whether its probe has started and when, whether it waits
for a command, the rows named by its errors, the action of the command that waits for its probe, and the tick at which it was
hedged. -/
structure Hedge where
  cls : Nat
  res : Nat
  lasting : Bool
  probing : Bool
  held : Bool
  since : Nat
  rows : List Nat
  cmd : Nat
  began : Nat
deriving DecidableEq, Repr

/-- A recorded transient (R600): class, resource, the powered time in ticks, and the rows that its errors named (R599). -/
structure Transient where
  cls : Nat
  res : Nat
  at_ : Nat
  rows : List Nat
deriving DecidableEq, Repr

/-- A pending or running change of the clock step (R624 to R627): target, epoch, whether the plots have stopped,
and a decision to apply after it, with its tick. -/
structure Change where
  target : Nat
  epoch : Nat
  stopped : Bool
  next : Option (Nat × Nat)
deriving DecidableEq, Repr

/-- A firmware image of the flash (R616): its bytes and whether its CRC is good. -/
structure FwImage where
  bytes : List Byte
  good : Bool
deriving DecidableEq, Repr

/-- What the Lodge holds beside its registers: the two images, which of them the boot header names active, the boot step,
the firmware write in progress, powered time at reset in ticks, the boot steps done, the stored lantern calibrations (bay,
serial number, targets, gain), the spare rows used (bank rows of the Orangery and DRAM rows), the spare die-link lanes
used, the die-link CRC failures counted per lane, the thermal limits of the last ten governor runs and the powers of the last ten,
newest first, whether throttling is in force, what the telemetry window has counted (tasks judged late; the hold counts at its
start; whether an epoch fell in it; whether the frame before it was skipped), the monitors that failed in the last
window, the stacks whose die link retrains, the calibrated VDDC of each step in mV, the last readings of the thermal
sensors in 1/16 °C, TJMAX and TJIDX of the latest frame, and the banks and pseudo-channels, by class and resource, whose uncorrectable
errors have been reported and whose hedge has still to come (R274, R330, R590). -/
structure Lodge where
  images : List FwImage
  active : Nat
  bootStep : Nat
  writing : Option (List Byte)
  powTicks : Nat
  calib : List (Nat × List Byte × List (Nat × Nat) × Int)
  bankSpares : List (Nat × Nat)
  dramSpares : List (Nat × Nat)
  laneSpares : List (Nat × Nat)
  tlims : List Nat
  pins10 : List Nat
  throttling : Bool
  late : Nat
  holds : List (Nat × Nat)
  pause : Bool
  lost : Bool
  jitBad : List Nat
  linkWait : List Nat
  vddc : List Nat
  temps : List Int
  telLast : Nat
  reported : List (Nat × Nat)
  rail : Nat
deriving DecidableEq, Repr

def Lodge.reset : Lodge where
  images := [⟨[], true⟩, ⟨[], false⟩]
  active := 0
  bootStep := 5
  writing := none
  powTicks := 0
  calib := []
  bankSpares := []
  dramSpares := []
  laneSpares := []
  tlims := []
  pins10 := []
  throttling := false
  late := 0
  holds := []
  pause := false
  lost := false
  jitBad := []
  linkWait := []
  vddc := [600, 630, 660, 700, 740, 780, 830, 880]
  temps := []
  telLast := 0
  reported := []
  rail := 0

/-- The pins and the power of the module (spec/17, R614, R631, R647): whether 48 V conversion runs, the Lodge runs, power
good, whether the cables of J3 and J4 are seated, as read and as the last link training took it, whether RESET# is low, the COOL output, the
bits that the last JTAG scan put out on TDO, whether the 12 V auxiliary rail is within its limits and the reference is present, the levels
of GA2 to GA0, which the module pulls up, and the SMBus address that they gave at module reset (R654, R655; assumption 115).  Until
MODULE_RESET has run the bring-up, the rails are off. -/
structure Pins where
  conv : Bool
  lodge : Bool
  pwrgd : Bool
  cbl : List Bool
  cblUsed : List Bool
  resetLow : Bool
  cool : Nat
  scan : List Bool
  aux12 : Bool
  refclk : Bool
  ga : Nat
  smAddr : Nat
deriving DecidableEq, Repr

def Pins.reset : Pins := ⟨false, false, false, [false, false], [false, false], false, 0, [], true, true, 7, 0x5F⟩

/-- A memory request that the module has sent to the host: whether it writes, its PCIe address and length, and the PASID it
carries (R582). -/
structure UpReq where
  write : Bool
  addr : Nat
  len : Nat
  pasid : Option Nat
deriving DecidableEq, Repr

/-- What the last read answered: its bytes, whether the completion carried EP (R570), and whether it was an Unsupported Request
(R565, R568). -/
structure Reply where
  bytes : List Byte
  ep : Bool
  ur : Bool
deriving DecidableEq, Repr


/-! ### The module -/

/-- The state of the module.  `slaRefused` holds, while the request unit deals with a request, the pages that the host has
refused it (R460).  `uses` counts the uses of credit accounts (R424); `lastAt` holds, for each event that comes back after an interval
(Ops, `evScrub` and the following), one more than the tick at which it last happened (R276, R335, R435, R628, ...); `frame` is the
cycle count of the store die, `plotClock` says how the cycles of the plots stand to reference ticks: for each stretch at one clock
step or in one pause, newest first, its first tick, the cycles before it, and its rate in quarter cycles a tick (R618, R625); and `outAt`
and `inAt` hold, for each output of a router and for each of its own ports by router and input, one more than the cycle in which it last
carried a packet, and `stallAt` the same of the last stall that LSTALL has counted (R260, R261, R264, R287).  `bankAt` holds, for each
sub-bank, in which cycle of its core's stream and of its slice's clock, which `bankClock` holds, it last granted dynamic accesses, and how
many (R252).  `belvIssued` holds the contexts of streams that have issued a macro-op since the last sample of the Belvedere and are
free again (R438). -/
structure State where
  part : Part
  regs : List (Nat × W64)
  free : Nat
  pending : List Instr
  org : List Host.Cell
  dram : List Host.Cell
  host : List Host.Cell
  wordMeta : List (Nat × WMeta)
  orgErr : List (Nat × Nat)
  orgWb : List Nat
  cores : List (Nat × Core)
  streams : List (Nat × Stream)
  wsets : List (Nat × WSet)
  nextW : Nat
  waiters : List Waiter
  arrivals : Nat
  fullAt : List (Nat × Nat)
  ops : List (Nat × DynOp)
  nextOp : Nat
  bankq : List BankReq
  bankRR : List (Nat × Nat)
  bankAt : List (Nat × Nat × Nat × Nat)
  bankClock : List (Nat × Nat)
  tokens : List Token
  nextTok : Nat
  creels : List (Nat × Creel)
  logQ : List LogEntry
  pcie : Pcie
  msgs : List (Nat × Nat)
  up : List UpReq
  uses : Nat
  tasks : List (Nat × Option Task)
  gens : List (Nat × Nat)
  lastId : Nat
  accepted : Nat
  queues : List (Nat × Queue)
  bins : List (Nat × Bin)
  slots : List SlotUse
  ages : List (Nat × Age)
  planRemovals : Nat
  ports : List (Nat × Port)
  wickets : List (Nat × Wicket)
  lanterns : List (Nat × Lantern)
  wire : List (Nat × Nat × List Byte)
  chans : List (Nat × Chan)
  faults : List PageFault
  fidGens : List (Nat × Nat)
  dmaTlb : List Tlb
  slaTlb : List Tlb
  inval : Option (Nat × Nat × Nat)
  pri : List Pri
  priNext : Nat
  priMax : Nat
  slaRuns : List SlaRun
  slaRefused : List Tlb
  units : List WUnit
  unitRR : List (Nat × Nat)
  dramErr : List (Nat × Nat)
  dramWb : List Nat
  refreshed : List (Nat × Nat)
  scrubAt : List (Nat × Nat)
  lastAt : List (Nat × Nat)
  plotClock : List (Nat × Nat × Nat)
  frame : Nat
  outAt : List (Nat × Nat)
  inAt : List (Nat × Nat)
  stallAt : List (Nat × Nat)
  packets : List PromPkt
  hopRR : List (Nat × Nat)
  hedges : List Hedge
  transients : List Transient
  change : Option Change
  lodge : Lodge
  pins : Pins
  reply : Reply
  aer : Nat
  console : List ConsoleLine
  belvArmed : List (Nat × Bool)
  belvCount : List (Nat × Nat)
  belvIssued : List Nat
deriving DecidableEq, Repr

/-- The machine right after module reset, every register at its reset value (R20), every memory EMPTY and 0. -/
def State.reset : State where
  part := .b0
  regs := []
  free := 0
  pending := []
  org := []
  dram := []
  host := []
  wordMeta := []
  orgErr := []
  orgWb := []
  cores := []
  streams := []
  wsets := []
  nextW := 1
  waiters := []
  arrivals := 0
  fullAt := []
  ops := []
  nextOp := 1
  bankq := []
  bankRR := []
  bankAt := []
  bankClock := []
  tokens := []
  nextTok := 0
  creels := []
  logQ := []
  pcie := Pcie.reset .b0
  msgs := []
  up := []
  uses := 0
  tasks := []
  gens := []
  lastId := 4095
  accepted := 0
  queues := []
  bins := []
  slots := []
  ages := []
  planRemovals := 0
  ports := []
  wickets := []
  lanterns := []
  wire := []
  chans := []
  faults := []
  fidGens := []
  dmaTlb := []
  slaTlb := []
  inval := none
  pri := []
  priNext := 0
  priMax := 0
  slaRuns := []
  slaRefused := []
  units := []
  unitRR := []
  dramErr := []
  dramWb := []
  refreshed := []
  scrubAt := []
  lastAt := []
  plotClock := [(0, 0, 50)]
  frame := 0
  outAt := []
  inAt := []
  stallAt := []
  packets := []
  hopRR := []
  hedges := []
  transients := []
  change := none
  lodge := Lodge.reset
  pins := Pins.reset
  reply := ⟨[], false, false⟩
  aer := 0
  console := []
  belvArmed := []
  belvCount := []
  belvIssued := []

end Sys2Proof.Machine
end

