-- ==== Sys2Proof/Machine/Ops.lean ====
section
/-! DEFINITION. The named operations over registers, units, memories, the error log and interrupts, which every meaning is
written in.  A register is read and written here and nowhere else. -/

namespace Sys2Proof.Machine

open Sys2Proof

/-! ### Registers (R15 to R20, R606) -/

def regDefault (off : Nat) : W64 := BitVec.ofNat 64 (regReset off)

def regGet (s : State) (off : Nat) : W64 := amGet regDefault s.regs off

def regPut (s : State) (off : Nat) (v : W64) : State := { s with regs := amSet regDefault s.regs off v }

/-- The value of a register field. -/
def getF (s : State) (f : Fld) : Nat := bitsOf (regGet s f.reg).toNat f.hi f.lo

/-- Bits [hi:lo] of `w` replaced by the low bits of `v`. -/
def putBits (w hi lo v : Nat) : Nat :=
  let n := hi + 1 - lo
  w - bitsOf w hi lo * 2 ^ lo + v % 2 ^ n * 2 ^ lo

/-- Set a register field. -/
def setF (s : State) (f : Fld) (v : Nat) : State :=
  regPut s f.reg (BitVec.ofNat 64 (putBits (regGet s f.reg).toNat f.hi f.lo v))

/-- Add to a counter field, modulo its width (R606). -/
def bump (s : State) (f : Fld) (n : Nat) : State := setF s f (getF s f + n)

/-- Set bit `i` of a field that is a map of bits. -/
def setBit (s : State) (f : Fld) (i : Nat) (b : Bool) : State :=
  setF s f (putBits (getF s f) i i (if b then 1 else 0))

def getBit (s : State) (f : Fld) (i : Nat) : Bool := bitOf (getF s f) i

def isSet (s : State) (f : Fld) : Bool := getF s f == 1

/-- The reference tick (R639): 100 MHz, 10 ns. -/
def tick (s : State) : Nat := getF s fREFTICK_TICK

/-! Events that come back after an interval, by number: `State.lastAt` holds one more than the tick at which each last happened. -/

/-- The scrubber of slice m is event m (R276), those of stack k are event 64 + k (R335). -/
def evScrub (unit : Nat) : Nat := unit
def evReadiness : Nat := 96
def evSlack : Nat := 97
def evAging : Nat := 98
def evSample : Nat := 99
def evMonitors : Nat := 100
def evGovernor : Nat := 101
def evCool : Nat := 102
def evTelemetry : Nat := 103
def evTemp (k : Nat) : Nat := 128 + k
def evLanes (p : Nat) : Nat := 160 + p
def evPower (p : Nat) : Nat := 168 + p
def evWear (p : Nat) : Nat := 176 + p
def evRing (p l : Nat) : Nat := 256 + 16 * p + l

def lastOf (s : State) (ev : Nat) : Nat := amGet (fun _ => 0) s.lastAt ev

/-- An event happens now. -/
def noteAt (s : State) (ev : Nat) : State := { s with lastAt := amSet (fun _ => 0) s.lastAt ev (tick s + 1) }

/-- Whether an event that comes back every `n` ticks may happen: it has not yet, or `n` ticks ago at the latest. -/
def due (s : State) (ev n : Nat) : Bool := lastOf s ev == 0 || decide (lastOf s ev + n ≤ tick s + 1)

/-- What happens every `n` ticks: a command that comes before has no effect (assumption 72). -/
def every (ev n : Nat) (f : State → State) (s : State) : State := if due s ev n then f (noteAt s ev) else s

/-- Whether a window of `n` ticks has ended since an event last happened; windows start at the multiples of `n`. -/
def windowEnded (s : State) (ev n : Nat) : Bool := decide ((lastOf s ev - 1) / n < tick s / n)

/-- What happens once for each window of `n` ticks. -/
def eachWindow (ev n : Nat) (f : State → State) (s : State) : State := if windowEnded s ev n then f (noteAt s ev) else s

/-- What a write of `new` makes of a register of row `r` that holds `old`: RW bits take the new value, W1C bits are
cleared by 1s, every other bit keeps its value (R16, R18). -/
def regWritten (r : RegRow) (old new : Nat) : Nat :=
  let keep := Nat.xor (Nat.lor old r.rw) r.rw
  let w1c := Nat.land old (Nat.land new r.w1c)
  Nat.lor (Nat.xor keep w1c) (Nat.land new r.rw)

/-- Both halves of a 32-bit write: the register value that the write presents, with the other half kept for RW bits and 0
for W1C bits (R15). -/
def widen (r : RegRow) (old off size val : Nat) : Nat :=
  if size = 8 then val % 2 ^ 64
  else if off % 8 = 0 then Nat.land old r.rw / 2 ^ 32 * 2 ^ 32 + val % 2 ^ 32
  else val % 2 ^ 32 * 2 ^ 32 + Nat.land old r.rw % 2 ^ 32

/-! ### Power, and the host's way in (R568, R614 to R616, R631, R647) -/

/-- The rails are up and the Lodge runs. -/
def on (s : State) : Bool := s.pins.conv && s.pins.lodge

/-- LODGESTAT.STATE is recovery: only the HOST and LODGE blocks work (R616). -/
def recovering (s : State) : Bool := getF s fLODGESTAT_STATE == 2

/-- The plots, the store die and the promenade stand still between the two ends of a change epoch (R76, R253, R625). -/
def paused (s : State) : Bool := (s.change.map (fun c => c.stopped)).getD false

/-- What `t` makes of `s` unless the plots stand still: then nothing happens. -/
def unlessPaused (s t : State) : State := if paused s then s else t

/-- Every block works, those that a change of the clock step has stopped apart. -/
def awake (s : State) : Bool := on s && !(recovering s)

/-- Every block works, and the plots run. -/
def working (s : State) : Bool := awake s && !(paused s)

/-- The answer of a command of the plots (pavilions, spine, store die; R618): unless the module works and the plots run, nothing
happens; a command stands for the time at which its plot does it, so what arrives in a pause comes after it (assumption 100). -/
def whenOn (s t : State) : Host.Outcome State Fault Refusal := .next (if working s then t else s)

/-- The answer of a command of a unit that goes on in the pause of a change: a slath die, a lane clock, the Lodge (R625). -/
def whenAwake (s t : State) : Host.Outcome State Fault Refusal := .next (if awake s then t else s)

/-- The answer of a command that works in recovery too. -/
def whenUp (s t : State) : Host.Outcome State Fault Refusal := .next (if on s then t else s)

/-- Whether a memory request of the host at BAR0 offset `off` is served: the link is up, the function is not in D3hot, and the
host interface does not stand still (R618, R625). -/
def servedAt (s : State) (off : Nat) : Bool :=
  on s && s.pcie.l0 && !s.pcie.d3 && !(paused s) &&
  (!(recovering s) || decide (off < 0x100000) || (decide (0x3800000 ≤ off) && decide (off < 0x3A00000)))

/-- Whether memory requests to every block are served. -/
def served (s : State) : Bool := servedAt s 0x100000

/-- The answer of a command that the host sends as a memory request: one that is not served has no effect (R568, R615). -/
def whenServed (s t : State) : Host.Outcome State Fault Refusal := .next (if served s then t else s)

/-- A tick of the reference clock passes (R639); it stands while the module is off. -/
def idle (s : State) : State := if on s then bump s fREFTICK_TICK 1 else s

/-! ### Numbered units -/

def getCore (s : State) (m : Nat) : Core := amGet (fun _ => Core.reset) s.cores m
def setCore (s : State) (m : Nat) (c : Core) : State := { s with cores := amSet (fun _ => Core.reset) s.cores m c }
def modCore (s : State) (m : Nat) (f : Core → Core) : State := setCore s m (f (getCore s m))

def getStr (s : State) (k : Nat) : Stream := amGet (fun _ => Stream.reset) s.streams k
def setStr (s : State) (k : Nat) (t : Stream) : State :=
  { s with streams := amSet (fun _ => Stream.reset) s.streams k t }
def modStr (s : State) (k : Nat) (f : Stream → Stream) : State := setStr s k (f (getStr s k))

def getCreel (s : State) (c : Nat) : Creel := amGet (fun _ => Creel.reset) s.creels c
def setCreel (s : State) (c : Nat) (x : Creel) : State :=
  { s with creels := amSet (fun _ => Creel.reset) s.creels c x }
def modCreel (s : State) (c : Nat) (f : Creel → Creel) : State := setCreel s c (f (getCreel s c))

def getWSet (s : State) (i : Nat) : WSet := amGet (fun _ => WSet.zero) s.wsets i
def modWSet (s : State) (i : Nat) (f : WSet → WSet) : State :=
  { s with wsets := amSet (fun _ => WSet.zero) s.wsets i (f (getWSet s i)) }

/-- The dynamic operation of a number, while it is in flight. -/
def findOp (s : State) (i : Nat) : Option DynOp := (s.ops.find? (fun p => p.1 == i)).map Prod.snd
def setOp (s : State) (i : Nat) (d : DynOp) : State :=
  { s with ops := s.ops.map (fun p => if p.1 == i then (i, d) else p) }
def dropOp (s : State) (i : Nat) : State := { s with ops := s.ops.filter (fun p => p.1 != i) }

/-- Apply `f` for each element of a list in order. -/
def forEach {β : Type} (l : List β) (f : State → β → State) (s : State) : State := l.foldl f s

/-- The pavilion of a stream, the core number 8n + m of a core of it, and the stream a core runs under. -/
def pavOf (k : Nat) : Nat := k / 2
def coresOfPav (n : Nat) : List Nat := rangeFrom (8 * n) 8

/-- The pavilion of a stream runs in half mode: a half runs on either of its streams (R195, R376). -/
def splitPav (s : State) (n : Nat) : Bool :=
  (getStr s (2 * n + 1)).st != .idle || ((getStr s (2 * n)).st != .idle && (getStr s (2 * n)).half)

/-- The stream that a core belongs to: stream 2n, or 2n + 1 for cores 4 to 7 while the pavilion is split (R195). -/
def streamOfCore (s : State) (m : Nat) : Nat :=
  let n := m / 8
  if 4 ≤ m % 8 ∧ splitPav s n = true then 2 * n + 1 else 2 * n

/-- The plot cycles that had passed at reference tick `t` (R14, R618, R625): 6.25 + 1.25 × step a tick, none in a pause. -/
def cyclesAt (s : State) (t : Nat) : Nat :=
  match s.plotClock.find? (fun g => decide (g.1 ≤ t)) with
  | some g => g.2.1 + (t - g.1) * g.2.2 / 4
  | none => 0

/-- The plot cycles that have passed since reference tick `t`. -/
def cyclesSince (s : State) (t : Nat) : Nat := cyclesAt s (tick s) - cyclesAt s t

/-- A stretch of the plots' clock begins at tick `t` with `cycles` behind it, at `rate` quarter cycles a tick. -/
def clockFrom (s : State) (t cycles rate : Nat) : State := { s with plotClock := (t, cycles, rate) :: s.plotClock }

/-! ### Register-file access -/

def Width.bits : Width → Nat
  | .w8 => 8
  | .w16 => 16
  | .w32 => 32

def Width.code : Width → Nat
  | .w8 => 0
  | .w16 => 1
  | .w32 => 2

def Width.ofCode : Nat → Width
  | 0 => .w8
  | 1 => .w16
  | _ => .w32

def regMeta (t : Stream) (r : Nat) : RegMeta := amGet (fun _ => RegMeta.reset) t.tile r
def setMeta (t : Stream) (r : Nat) (m : RegMeta) : Stream :=
  { t with tile := amSet (fun _ => RegMeta.reset) t.tile r m }

def regData (s : State) (m r : Nat) : RegData := amGet (fun _ => RegData.zero) (getCore s m).tile r
def setRegData (s : State) (m r : Nat) (d : RegData) : State :=
  modCore s m (fun c => { c with tile := amSet (fun _ => RegData.zero) c.tile r d })

/-- All 128 lanes and all four exponent bytes of a register. -/
def lanesOf (d : RegData) : List Int := (List.range 128).map (fun l => d.lanes.getD l 0)
def expsOf (d : RegData) : List Int := (List.range 4).map (fun j => d.exps.getD j 0)

def tileRegs (t : Tile) : List Nat := rangeFrom t.b t.h

def sreg (t : Stream) (r : Nat) : Nat := (amGet (fun _ => 0#32) t.sregs r).toNat
def setSreg (t : Stream) (r v : Nat) : Stream :=
  { t with sregs := amSet (fun _ => 0#32) t.sregs r (BitVec.ofNat 32 v) }
def areg (t : Stream) (r : Nat) : Nat := (amGet (fun _ => 0#52) t.aregs r).toNat
def setAreg (t : Stream) (r v : Nat) : Stream :=
  { t with aregs := amSet (fun _ => 0#52) t.aregs r (BitVec.ofNat 52 v) }

def hsreg (c : Core) (r : Nat) : Nat := (amGet (fun _ => 0#32) c.hs r).toNat
def setHs (c : Core) (r v : Nat) : Core := { c with hs := amSet (fun _ => 0#32) c.hs r (BitVec.ofNat 32 v) }
def hareg (c : Core) (r : Nat) : Nat := (amGet (fun _ => 0#52) c.ha r).toNat
def setHa (c : Core) (r v : Nat) : Core := { c with ha := amSet (fun _ => 0#52) c.ha r (BitVec.ofNat 52 v) }

/-! ### Memories (R249, R251, R271, R293) -/

def sliceBytes : Nat := 0x1800000

def orgAddr (slice off : Nat) : Nat := slice * 0x2000000 + off
def orgSlice (a : Nat) : Nat := a / 0x2000000
def orgOff (a : Nat) : Nat := a % 0x2000000

/-- An assigned Orangery address (R249, R250). -/
def orgAssigned (a : Nat) : Bool := decide (a < 2 ^ 31) && decide (orgOff a < sliceBytes)

/-- What a byte that nothing has written reads as: 0 in the Orangery (R277) and in DRAM (R337); in host memory 0 too,
which is the model's choice (assumption 6). -/
def freshByte (_ : Nat) : Byte := 0#8

/-- The canonical form of a memory: addresses strictly rising, and no entry equal to what an unlisted address reads as. -/
def Memory.wf (m : List Host.Cell) : Bool := amWf freshByte m

def orgByte (s : State) (a : Nat) : Byte := amGet freshByte s.org a
def dramByte (s : State) (a : Nat) : Byte := amGet freshByte s.dram a
def hostByte (s : State) (a : Nat) : Byte := amGet freshByte s.host a

def orgRead (s : State) (a n : Nat) : List Byte := (List.range n).map (fun i => orgByte s (a + i))
def dramRead (s : State) (a n : Nat) : List Byte := (List.range n).map (fun i => dramByte s (a + i))
def hostRead (s : State) (a n : Nat) : List Byte := (List.range n).map (fun i => hostByte s (a + i))

/-- Write bytes at consecutive keys of a memory. -/
def putBytes : List Host.Cell → Nat → List Byte → List Host.Cell
  | m, _, [] => m
  | m, a, b :: bs => putBytes (amSet freshByte m a b) (a + 1) bs

/-- The words a range of bytes covers whole, whose errors a write replaces (R275). -/
def wholeWords (a n : Nat) : List Nat :=
  ((List.range ((n + 7) / 8 + 1)).map (fun i => (a / 8 + i) * 8)).filter (fun w => decide (a ≤ w) && decide (w + 8 ≤ a + n))

/-- Error state of a stored word: 0 good, 1 correctable, 2 uncorrectable (R271). -/
def orgErrAt (s : State) (w : Nat) : Nat := amGet (fun _ => 0) s.orgErr (w / 8 * 8)

/-- A stored word is good again. -/
def mendWord (s : State) (a : Nat) : State := { s with orgErr := amErase s.orgErr (a / 8 * 8) }

/-- Write Orangery bytes; a word written whole is good again (R275). -/
def orgWrite (s : State) (a : Nat) (bs : List Byte) : State :=
  { s with org := putBytes s.org a bs,
           orgErr := (wholeWords a bs.length).foldl (fun m w => amErase m w) s.orgErr }

def dramWrite (s : State) (a : Nat) (bs : List Byte) : State := { s with dram := putBytes s.dram a bs }
def hostWrite (s : State) (a : Nat) (bs : List Byte) : State := { s with host := putBytes s.host a bs }

/-- The 64 data bits of an Orangery word. -/
def wordVal (s : State) (w : Nat) : Nat := leVal (orgRead s w 8)
def setWord (s : State) (w v : Nat) : State := orgWrite s w (leBytes 8 v)

def metaOf (s : State) (w : Nat) : WMeta := amGet (fun _ => WMeta.empty) s.wordMeta w
def setMetaW (s : State) (w : Nat) (m : WMeta) : State :=
  { s with wordMeta := amSet (fun _ => WMeta.empty) s.wordMeta w m }

/-- Whether an Orangery range of `n` bytes at `a` meets an uncorrectable word (R274). -/
def orgUe (s : State) (a n : Nat) : Bool :=
  s.orgErr.any (fun p => p.2 == 2 && overlaps p.1 8 a n)

/-- The SPACE field of a device address and the rest of it. -/
def spaceOf (a : Nat) : Nat := bitsOf a 51 48
def inSpace (a : Nat) : Nat := a % 2 ^ 48

/-- Cut `n` bytes at offset `off` at every multiple of `m`: (offset, length) in order (R536). -/
def cutAt (m : Nat) : Nat → Nat → Nat → List (Nat × Nat)
  | 0, _, _ => []
  | fuel + 1, off, n =>
    if n = 0 then [] else
      let k := min n (m - off % m)
      (off, k) :: cutAt m fuel (off + k) (n - k)

/-! ### Ownership (R279, R280) -/

def granule (a : Nat) : Nat := 384 * orgSlice a + orgOff a / 65536

/-- The owner byte of a granule: OWN register g div 8, byte g mod 8. -/
def ownerByte (s : State) (g : Nat) : Nat := bitsOf (regGet s (rORG_OWN (g / 8))).toNat (8 * (g % 8) + 7) (8 * (g % 8))

/-- Whether granule `g` is a valid granule of context `c` with the RES bit as asked. -/
def granuleOk (s : State) (c : Nat) (res : Bool) (g : Nat) : Bool :=
  let b := ownerByte s g
  bitOf b 7 && (bitOf b 6 == res) && b % 16 == c

/-- Whether `n` bytes at Orangery address `a` lie in one slice, in granules of context `c` (R280). -/
def rangeOwned (s : State) (c : Nat) (res : Bool) (a n : Nat) : Bool :=
  orgAssigned a && decide (orgOff a + n ≤ sliceBytes) &&
  (rangeFrom (granule a) ((orgOff a % 65536 + n + 65535) / 65536)).all (granuleOk s c res)

/-- `n` bytes at an Orangery address, in one slice, in granules of the context, reserved ones too (R281, R282): what a descriptor and
a wicket may name.  That a descriptor which names an unassigned address is a bad one, and not one whose address does not translate, is
the model's choice (assumption 56). -/
def dmaOwned (s : State) (ctx a n : Nat) : Bool :=
  orgAssigned a && decide (orgOff a + n ≤ sliceBytes) &&
  (rangeFrom (granule a) ((orgOff a % 65536 + n + 65535) / 65536)).all (fun g => granuleOk s ctx false g || granuleOk s ctx true g)

/-! ### Log (R607 to R611) -/

def logRoom (s : State) : Bool := decide (s.logQ.length < 256)

/-- Record an event: count it, drop it if masked, queue it and show it on the console, or lose it (R607 to R609, R659). -/
def logPut (s : State) (e : LogEntry) : State :=
  let s := bump s (fKINDCNT_COUNT e.kind) 1
  let e := { e with tick := tick s }
  if e.kind != 0x15 && e.kind != 0x16 && !(bitOf (getF s fLOGMASK_MASK) (e.kind - 1)) then s
  else if logRoom s then { s with logQ := s.logQ ++ [e], console := s.console ++ [.entry e] }
  else bump (setF s fLOGSTAT_LOST 1) fLOGSTAT_LOSTCNT 1

def LogEntry.blank : LogEntry := ⟨0, 0, 0, 0, 0, 0, 0xFF, 0xFF, 0, 0xFFFFFFFF, 0, []⟩

/-- An event of a kind and a cause with its data words. -/
def logEvent (s : State) (kind cause : Nat) (addr : Nat) (data : List Nat) : State :=
  logPut s { LogEntry.blank with kind := kind, cause := cause, addr := addr, data := data }

/-! ### Interrupts (R577 to R580) -/

/-- Send the MSI-X message of vector `v`, or set its pending bit while it is masked; nothing while MSI-X is not enabled
(R580). -/
def raiseVec (s : State) (v : Nat) : State :=
  if !s.pcie.msixEn then s
  else if s.pcie.msixMask || isSet s (fHOST_MSIXCTL_MASK v) then
    setBit s (fHOST_MSIXPBA_PEND (v / 64)) (v % 64) true
  else { s with msgs := s.msgs ++ [((regGet s (rHOST_MSIXADDR v)).toNat, getF s (fHOST_MSIXCTL_DATA v))] }

/-- An event of module source `i` (R579). -/
def irqSource (s : State) (i : Nat) : State :=
  let s := bump (setF s (fHOST_IRQSRC_PEND i) 1) (fHOST_IRQSRC_COUNT i) 1
  if isSet s (fHOST_IRQSRC_EN i) then raiseVec s (getF s (fHOST_IRQSRC_VEC i)) else s

/-- Space 0x8 addresses become PCIe addresses through HOSTHI (R581); host memory is keyed by PCIe address. -/
def pcieAddr (s : State) (a : Nat) : Nat := getF s fHOST_HOSTHI_HI * 2 ^ 48 + a % 2 ^ 48

/-- The PASID that a request on behalf of a context carries (R582): none for requests of no context. -/
def pasidOf (s : State) : Option Nat → Option Nat
  | none => none
  | some c => if isSet s fHOST_LINKSTAT_PASIDEN && isSet s (fHOST_CTXPASID_EN c) then some (getF s (fHOST_CTXPASID_PASID c)) else none

/-- A request of `n` bytes at space 0x8 address `a` goes to the host on behalf of a context, with the PASID of that moment (R582, R583). -/
def sendUp (s : State) (ctx : Option Nat) (write : Bool) (a n : Nat) : State :=
  { s with up := s.up ++ [⟨write, pcieAddr s a, n, pasidOf s ctx⟩] }

def toHost (s : State) (ctx : Option Nat) (a : Nat) (bs : List Byte) : State :=
  hostWrite (sendUp s ctx true a bs.length) (pcieAddr s a) bs

/-- An entry that carries its PHASE in its first bytes goes to the host in two posted writes: bytes 8 and on, and then bytes 0 to
7 (R421, R608, R638). -/
def toHostEntry (s : State) (ctx : Option Nat) (a : Nat) (bs : List Byte) : State :=
  toHost (toHost s ctx (a + 8) (bs.drop 8)) ctx a (bs.take 8)
def fromHost (s : State) (a n : Nat) : List Byte := hostRead s (pcieAddr s a) n

/-! ### Free values -/

/-- Draw the next free byte (assumption 4). -/
def drawByte (s : State) : State × Byte := ({ s with free := s.free + 1 }, Config.freeByte s.free)

/-- Draw `n` free bytes. -/
def drawBytes (n : Nat) (s : State) : State × List Byte :=
  ({ s with free := s.free + n }, (List.range n).map (fun i => Config.freeByte (s.free + i)))

end Sys2Proof.Machine
end

