-- ==== Sys2Proof/Machine/Flags.lean ====
section
/-! DEFINITION. Every sticky flag that the arithmetic and the storage of a core raise, with the counter beside it: column
overflow (R45, R110), lane range (R56, LRCNT of R154), stale marks, and correctable and uncorrectable Orangery words
(R273, R274). -/

namespace Sys2Proof.Machine

open Sys2Proof

/-- Set the overflow flag of array column `c` of core `m` (R45). -/
def setColFlag (s : State) (m c : Nat) : State :=
  if c < 64 then setBit s (fCOLFLAG0_COLF (m / 8) (m % 8)) c true
  else setBit s (fCOLFLAG1_COLF (m / 8) (m % 8)) (c - 64) true

/-- Count one pass that set the flag of column `c` (R110). -/
def countCol (s : State) (m c : Nat) : State :=
  if c % 2 = 0 then bump s (fCOLCNT_CNTLO (m / 8) (m % 8) (c / 2)) 1
  else bump s (fCOLCNT_CNTHI (m / 8) (m % 8) (c / 2)) 1

/-- Set the lane range flag of core `m` (R56). -/
def setLrFlag (s : State) (m : Nat) : State := setF s (fLRFLAG_LRF (m / 8) (m % 8)) 1

/-- Count one macro-op that set the lane range flag (R154). -/
def countLr (s : State) (m : Nat) : State := bump s (fLRCNT_COUNT (m / 8) (m % 8)) 1

/-- Count a register marked stale on core `m` (R122). -/
def countStale (s : State) (m n : Nat) : State := bump s (fSTALECNT_COUNT (m / 8) (m % 8)) n

/-- The bank of a slice that an address lies in (R251). -/
def bankOf (a : Nat) : Nat := bitsOf (orgOff a) 11 8

/-- An uncorrectable error is reported to the Lodge: whether it starts a hedge, which the first one of a resource that is not
hedged does (R595, R601, R610); the hedge itself is the command that follows (R590; assumption 48). -/
def reportUe (s : State) (cls key : Nat) (hedged : Bool) : State × Bool :=
  if hedged || s.lodge.reported.contains (cls, key) then (s, false)
  else ({ s with lodge := { s.lodge with reported := (cls, key) :: s.lodge.reported } }, true)

/-- An uncorrectable word at `a`: UELAST, UECNT and a log entry naming reader (0), scrubber (1) or merge write (2)
(R274, R611).  The place of the check bits and the metadata in DATA[1] is not given, so that word is free. -/
def noteUe (s : State) (a by_ : Nat) : State :=
  let sl := orgSlice a
  let s := bump (setF (setF s (fSLC_UELAST_UE sl) 1) (fSLC_UELAST_ADDR sl) (a / 8)) (fSLC_UECNT_COUNT sl) 1
  let r := reportUe s 3 (16 * sl + bankOf a) (getBit s (fSLC_BANKHEDGE_HEDGED sl) (bankOf a))
  let x := drawBytes 8 r.1
  logPut x.1 { LogEntry.blank with
    kind := 0x02, cause := by_, rclass := 3, addr := a,
    res := bitsOf (orgOff a) 24 12 * 2 ^ 16 + sl * 16 + bankOf a,
    flags := if r.2 then 1 else 0,
    data := [wordVal s (a / 8 * 8), leVal x.2] }

/-- A corrected word at `a`: CECNT, and a corrected write-back to make (R273). -/
def noteCe (s : State) (a : Nat) : State :=
  let s := bump s (fSLC_CECNT_COUNT (orgSlice a)) 1
  { s with orgWb := if s.orgWb.contains a then s.orgWb else s.orgWb ++ [a] }

/-- What an access that reads the word `w` notes of an error in it; `by_` names the reader (R273, R274). -/
def noteWord (s : State) (w by_ : Nat) : State :=
  match orgErrAt s w with
  | 2 => noteUe s w by_
  | 1 => noteCe s w
  | _ => s

/-- What a read of `n` bytes at `a` notes of the words in error that it meets; `by_` names the reader (R273, R274). -/
def noteRead (s : State) (a n by_ : Nat) : State :=
  forEach (s.orgErr.filter (fun p => overlaps p.1 8 a n))
    (fun s p => if p.2 == 2 then noteUe s p.1 by_ else noteCe s p.1) s

/-- Write Orangery bytes: a word written in part is read first, so a correctable one is counted and good again, and a part that
covers less than an uncorrectable word is dropped (R273, R275).  Answers whether a part was dropped. -/
def mergeWrite (s : State) (a : Nat) (bs : List Byte) : State × Bool :=
  (cutAt 8 (bs.length / 8 + 2) a bs.length).foldl (fun (acc : State × Bool) c =>
    if orgErrAt acc.1 c.1 = 2 ∧ c.2 < 8 then (noteUe acc.1 (c.1 / 8 * 8) 2, true)
    else
      let s := if orgErrAt acc.1 c.1 = 1 ∧ c.2 < 8 then
          bump (mendWord acc.1 c.1) (fSLC_CECNT_COUNT (orgSlice c.1)) 1
        else acc.1
      (orgWrite s c.1 ((bs.drop (c.1 - a)).take c.2), acc.2)) (s, false)

end Sys2Proof.Machine
end

