-- ==== Sys2Proof/Machine/Pipeline.lean ====
section
/-! DEFINITION. The static pipeline of a stream, cycle by cycle: when each macro-op in flight reads slices and registers, what
it computes, and when its writes land (spec/03 R70 to R105, spec/04 R119 to R145, spec/05 R162 to R175).  Within a cycle,
writes land first, in program order and plane order, so that the last one is kept (R120); then reads are made; then TSTORE
bytes go to the slice, seen from the next cycle (R174). -/

namespace Sys2Proof.Machine

open Sys2Proof

/-- Why a task ended other than by COMMIT: a skip cause of R209 is below 0x100; these are the other ends. -/
def endHedged (cls : Nat) : Nat := 0x1000 + cls
def endKilled : Nat := 0x101
def endYk8 : Nat := 0x102
def endCommitted : Nat := 0x103
def endFetch : Nat := 0x104

/-! ### Timing of each macro-op -/

/-- The planes of a weight format (R66). -/
def planesOf (fmt : Nat) : Nat := if fmt = 0 then 1 else if fmt = 1 then 2 else 4

def wbitsOf (fmt : Nat) : Nat := if fmt = 0 then 8 else if fmt = 1 then 4 else 2

/-- The feed length f of a pass (R70). -/
def PassF.feed (p : PassF) : Nat := if p.i16 then 4 * p.n else p.n

/-- The cycle, from issue, at which vector k is read, accumulated and readable (R164). -/
def PassF.readAt (p : PassF) (k : Nat) : Nat := if p.i16 then 2 + 4 * k else 2 + k
def PassF.accAt (p : PassF) (k : Nat) : Nat := if p.i16 then 265 + 4 * k else 262 + k

/-- c, q and x of R136, and the cycle at which register i of D is readable. -/
def EprogF.c (e : EprogF) : Nat := (e.prog.length + 3) / 4
def EprogF.x (e : EprogF) : Nat := programRecips e.prog * (e.lat - 1)
def EprogF.landAt (e : EprogF) (i : Nat) : Nat := 8 + e.x + (i + 1) * e.c
def EprogF.readAt (e : EprogF) (i : Nat) : Nat := 1 + i * e.c

/-- The cycle at which register 0 of the destination of an element macro-op is readable, less its index (R137). -/
def elemLat : FlightOp → Nat
  | .eshufX _ _ _ | .eshufB _ _ _ => 5
  | .ebcast _ _ _ _ _ _ => 6
  | .equant q => if q.fit then 9 else 7
  | _ => 10

/-- The cycle, from issue, after which a weight load writes no cell: the last shadow write of a ripple load is at @+278, the
last row of a stall load is written at @+151 (R79, R80). -/
def WloadF.life (w : WloadF) : Nat := if w.fmt = 0 then 279 else 152

/-- The cycle, from issue, after which a macro-op does nothing more; it is in flight until then. -/
def FlightOp.life : FlightOp → Nat
  | .wload w => w.life
  | .pass p => 263 + p.feed
  | .tload m => m.lat + m.t.h
  | .tstore m => m.lat + m.t.h
  | .eprog e => e.landAt (e.d.h - 1)
  | .eshufX d s m => elemLat (.eshufX d s m) + d.h
  | .eshufB d s c => elemLat (.eshufB d s c) + d.h
  | .esum d s g => elemLat (.esum d s g) + d.h
  | .emax d s g o => elemLat (.emax d s g o) + d.h
  | .ebcast d s v a b c => elemLat (.ebcast d s v a b c) + d.h
  | .equant q => elemLat (.equant q) + q.d.h

/-- The last of the numbers `r, r + h, r + 2h, …` below `n`, if there is one. -/
def lastOfRing (r h n : Nat) : Option Nat := if r < n then some (n - 1 - (n - 1 - r) % h) else none

/-- Index of register `r` within a tile. -/
def tileIdx (t : Tile) (r : Nat) : Option Nat := if t.b ≤ r ∧ r < t.b + t.h then some (r - t.b) else none

/-- The cycles, from issue, at which a macro-op reads register `r` and at which its writes of `r` land, the last of each
(R117). -/
def FlightOp.lastRead (op : FlightOp) (r : Nat) : Option Nat :=
  let one := fun (t : Tile) => (tileIdx t r).map (fun i => 1 + i)
  let vec := fun (v h : Nat) => if v = r then some h else none
  let mx := fun (a b : Option Nat) => match a, b with
    | some x, some y => some (max x y)
    | some x, none => some x
    | none, y => y
  match op with
  | .wload _ => none
  | .pass p =>
    mx ((tileIdx p.s r).bind (fun i => (lastOfRing i p.s.h p.n).map p.readAt)) (if p.m == some r then some 1 else none)
  | .tload _ => none
  | .tstore m => one m.t
  | .eprog e =>
    mx ((tileIdx e.a r).map e.readAt) (e.b.bind (fun b => (tileIdx b r).map e.readAt))
  | .eshufX _ s _ => one s
  | .eshufB _ s c => mx (one s) (vec c s.h)
  | .esum _ s _ => one s
  | .emax _ s _ _ => one s
  | .ebcast _ s v _ _ _ => mx (one s) (vec v s.h)
  | .equant q => mx (one q.s) (vec q.sv q.s.h)

/-- The first cycle, from issue, at which a macro-op reads register `r`, accumulator reads included (R494). -/
def FlightOp.firstRead (op : FlightOp) (r : Nat) : Option Nat :=
  let one := fun (t : Tile) => (tileIdx t r).map (fun i => 1 + i)
  let vec := fun (v : Nat) => if v = r then some 1 else none
  let mn := fun (a b : Option Nat) => match a, b with
    | some x, some y => some (min x y)
    | some x, none => some x
    | none, y => y
  match op with
  | .wload _ => none
  | .pass p =>
    let acc := fun (t : Tile) (pl : Nat) => if p.acc then
        (tileIdx t r).bind (fun i => if i < pl * p.n then some (p.accAt (i / pl)) else none) else none
    mn (mn ((tileIdx p.s r).bind (fun i => if i < p.n then some (p.readAt i) else none)) (if p.m == some r then some 1 else none))
       (mn (acc p.d p.planes) (match p.mode with
         | .mcmpx | .mcmpn => acc p.d2 1
         | _ => none))
  | .tload _ => none
  | .tstore m => one m.t
  | .eprog e => mn ((tileIdx e.a r).map e.readAt) (e.b.bind (fun b => (tileIdx b r).map e.readAt))
  | .eshufX _ s _ => one s
  | .eshufB _ s c => mn (one s) (vec c)
  | .esum _ s _ => one s
  | .emax _ s _ _ => one s
  | .ebcast _ s v _ _ _ => mn (one s) (vec v)
  | .equant q => mn (one q.s) (vec q.sv)

def FlightOp.lastWrite (op : FlightOp) (r : Nat) : Option Nat :=
  match op with
  | .wload _ => none
  | .tstore _ => none
  | .pass p =>
    let w := fun (t : Tile) (pl : Nat) =>
      (tileIdx t r).bind (fun i => (lastOfRing i t.h (pl * p.n)).map (fun j => p.accAt (j / pl) + 2))
    match p.mode with
    | .mcmpx | .mcmpn => match w p.d 1 with
      | some x => some x
      | none => w p.d2 1
    | _ => w p.d p.planes
  | .tload m => (tileIdx m.t r).map (fun i => m.lat + i)
  | .eprog e => (tileIdx e.d r).map e.landAt
  | .emax d s g o => match tileIdx d r with
    | some i => some (elemLat (.emax d s g o) + i)
    | none => o.bind (fun t => (tileIdx t r).map (fun i => elemLat (.emax d s g o) + i))
  | .eshufX d s m => (tileIdx d r).map (fun i => elemLat (.eshufX d s m) + i)
  | .eshufB d s c => (tileIdx d r).map (fun i => elemLat (.eshufB d s c) + i)
  | .esum d s g => (tileIdx d r).map (fun i => elemLat (.esum d s g) + i)
  | .ebcast d s v a b c => (tileIdx d r).map (fun i => elemLat (.ebcast d s v a b c) + i)
  | .equant q => (tileIdx q.d r).map (fun i => elemLat (.equant q) + i)

def tileList (l : List Tile) : List Nat := l.flatMap tileRegs

/-- The tile registers that a macro-op in flight reads and writes. -/
def FlightOp.reads : FlightOp → List Nat
  | .wload _ => []
  | .pass p => tileRegs p.s ++ p.m.toList ++ (if p.acc then tileList [p.d, p.d2] else [])
  | .tload _ => []
  | .tstore m => tileRegs m.t
  | .eprog e => tileRegs e.a ++ tileList e.b.toList
  | .eshufX _ s _ => tileRegs s
  | .eshufB _ s c => c :: tileRegs s
  | .esum _ s _ => tileRegs s
  | .emax _ s _ _ => tileRegs s
  | .ebcast _ s v _ _ _ => v :: tileRegs s
  | .equant q => q.sv :: tileRegs q.s

def FlightOp.writes : FlightOp → List Nat
  | .wload _ => []
  | .pass p => tileList [p.d, p.d2]
  | .tload m => tileRegs m.t
  | .tstore _ => []
  | .eprog e => tileRegs e.d
  | .eshufX d _ _ | .eshufB d _ _ | .esum d _ _ | .ebcast d _ _ _ _ _ => tileRegs d
  | .emax d _ _ o => tileRegs d ++ tileList o.toList
  | .equant q => tileRegs q.d

/-! ### Slice accesses of a macro-op (R158, R254, R255) -/

/-- The byte offset of lane `l` of register `i` under a TLOAD or TSTORE (R172). -/
def MoveF.laneOff (m : MoveF) (i l : Nat) : Int :=
  if m.transposed then m.am + (l : Int) * m.sms + (i : Int) * (m.w : Int)
  else m.am + (i : Int) * m.sms + ((l * m.w : Nat) : Int)

/-- The byte offset of exponent byte 0 of register `i`, where exponents move. -/
def MoveF.expOff (m : MoveF) (i : Nat) : Option Int :=
  if m.w < 4 then m.ae.map (fun a => a + (i : Int) * m.ses) else none

/-- The bytes a register takes in the slice, without exponents: a packed row, or its lanes. -/
def MoveF.rowBytes (m : MoveF) : Nat := if m.pack = 8 then 128 * m.w else 128 * m.pack / 8

/-- Every byte offset that register `i` touches, mantissas then exponents: (offset, length) pieces. -/
def MoveF.pieces (m : MoveF) (i : Nat) : List (Int × Nat) :=
  (if m.transposed then (List.range 128).map (fun l => (m.laneOff i l, m.w))
   else [(m.laneOff i 0, m.rowBytes)]) ++
  (match m.expOff i with
   | some e => [(e, 4)]
   | none => [])

/-- The sectors of a piece (R251). -/
def sectorsOf (off n : Nat) : List Nat := rangeFrom (off / 32) ((off + n - 1) / 32 + 1 - off / 32)

/-- The slice use of a static macro-op in one cycle: bytes read, bytes written, and the sectors read and written. -/
structure PortUse where
  rd : Nat
  wr : Nat
  rsec : List Nat
  wsec : List Nat
deriving DecidableEq, Repr

def PortUse.none_ : PortUse := ⟨0, 0, [], []⟩

def movePort (m : MoveF) (i : Nat) (write : Bool) : PortUse :=
  let secs := ((m.pieces i).flatMap (fun p => sectorsOf p.1.toNat p.2)).eraseDups
  let n := m.rowBytes + (if (m.expOff i).isSome then 4 else 0)
  if write then ⟨0, n, [], secs⟩ else ⟨n, 0, secs, []⟩

/-- The use that a macro-op makes of the local port of slice `sl` at `rel` cycles from its issue. -/
def FlightOp.port (op : FlightOp) (sl rel : Nat) : PortUse :=
  match op with
  | .wload w =>
    let n := 256 * planesOf w.fmt
    if (rel = 2 ∨ rel = 3) ∧ orgSlice w.ae = sl then ⟨n, 0, sectorsOf (orgOff w.ae + n * (rel - 2)) n, []⟩
    else if 4 ≤ rel ∧ rel ≤ 131 ∧ orgSlice w.am = sl then ⟨128, 0, sectorsOf (orgOff w.am + 128 * (rel - 4)) 128, []⟩
    else PortUse.none_
  | .tload m => if 2 ≤ rel ∧ rel < 2 + m.t.h then movePort m (rel - 2) false else PortUse.none_
  | .tstore m => if m.lat ≤ rel ∧ rel < m.lat + m.t.h then movePort m (rel - m.lat) true else PortUse.none_
  | .eprog e =>
    if rel = 1 ∨ rel = 2 then
      let ts := (List.range 4).filter (fun t => bitOf e.tmask t)
      ⟨256 * ts.length, 0, ts.flatMap (fun t => sectorsOf (e.tbase + 512 * t + 256 * (rel - 1)) 256), []⟩
    else PortUse.none_
  | _ => PortUse.none_

def addPort (a b : PortUse) : PortUse :=
  ⟨a.rd + b.rd, a.wr + b.wr, (a.rsec ++ b.rsec).eraseDups, a.wsec ++ b.wsec⟩

/-- The use of slice `sl` that the macro-ops in flight make in cycle `c`. -/
def flightPort (t : Stream) (sl c : Nat) : PortUse :=
  t.flights.foldl (fun p f => if c < f.issue then p else addPort p (f.op.port sl (c - f.issue))) PortUse.none_

/-- The sub-banks of slice `sl` both of whose accesses the static macro-ops use in cycle `c` (R252, R256). -/
def fullSubs (t : Stream) (sl c : Nat) : List Nat :=
  let subs := (let u := flightPort t sl c; (u.rsec ++ u.wsec).map (fun x => x % 128))
  (subs.filter (fun x => decide (2 ≤ subs.count x))).eraseDups

/-! ### The pieces of a transfer (R184, R251, R258) -/

/-- The rows of a transfer: source and destination address of each (R184). -/
def xferRows (x : Xfer) : List (Nat × Nat) :=
  (List.range x.rows).map (fun (r : Nat) => (truncN 52 ((x.src : Int) + (r : Int) * x.ss), truncN 52 ((x.dst : Int) + (r : Int) * x.ds)))

/-- The bytes at a device address cut at every 4 KiB, where a page may end; the Orangery has no pages. -/
def cutPages (a n : Nat) : List (Nat × Nat) :=
  if spaceOf a = 0 then (if n = 0 then [] else [(a, n)]) else cutAt 4096 (n / 4096 + 2) a n

/-- The pieces of a copy of `n` bytes: source, destination, length, none crossing a page at either end. -/
def copyPieces (src dst n : Nat) : List (Nat × Nat × Nat) :=
  (cutPages src n).flatMap (fun c =>
    (cutPages (dst + (c.1 - src)) c.2).map (fun e => (c.1 + (e.1 - (dst + (c.1 - src))), e.1, e.2)))

def xferPieces (x : Xfer) : List (Nat × Nat × Nat) := (xferRows x).flatMap (fun r => copyPieces r.1 r.2 x.rb)

def xferOf : ShareOp → Option Xfer
  | .sload x => some x
  | .sstore x => some x
  | _ => none

/-- Drop the first `n` bytes of a list of pieces. -/
def dropPieces : Nat → List (Nat × Nat × Nat) → List (Nat × Nat × Nat)
  | _, [] => []
  | n, (a, b, k) :: rest => if n = 0 then (a, b, k) :: rest else if k ≤ n then dropPieces (n - k) rest else (a + n, b + n, k - n) :: rest

/-- How much of a piece one turn moves: a sector of the Orangery, or a block of DRAM, which is accessed whole (R258, R331). -/
def turnLen (a b k : Nat) : Nat :=
  let dram := fun (x : Nat) => spaceOf x == 1 || spaceOf x == 2
  let upTo := fun (x n : Nat) => n - x % n
  if dram a || dram b then min k (min (if dram a then upTo a 64 else k) (if dram b then upTo b 64 else k))
  else min k (min (if spaceOf a = 0 then upTo a 32 else k) (if spaceOf b = 0 then upTo b 32 else k))

/-- What the next turn of a transfer moves: the first of the pieces that are left, or a part of it. -/
def nextTurn : List (Nat × Nat × Nat) → List (Nat × Nat × Nat)
  | [] => []
  | (a, b, k) :: _ => [(a, b, turnLen a b k)]

/-- The sub-banks, b of slice m as 128 m + b, that `n` bytes at a device address lie in; none outside the Orangery. -/
def subsOf (a n : Nat) : List Nat :=
  if spaceOf a = 0 then ((sectorsOf (orgOff a) n).map (fun x => 128 * orgSlice a + x % 128)).eraseDups else []

/-- The sub-banks at which dynamic requests wait: of full/empty accesses, and of the next turn of each transfer of this module whose
packets have arrived (R259). -/
def wantedSubs (s : State) : List Nat :=
  s.bankq.map (fun b => 128 * b.slice + b.sub) ++
  s.ops.flatMap (fun o => o.2.shares.flatMap (fun x =>
    match xferOf x.op, x.st with
    | some t, .waiting pos =>
      if spaceOf t.src = 9 ∨ spaceOf t.dst = 9 ∨ s.packets.any (fun p => p.op == o.1 && p.core == x.core) = true then []
      else (nextTurn (dropPieces pos (xferPieces t))).flatMap (fun p => subsOf p.1 p.2.2 ++ subsOf p.2.1 p.2.2)
    | _, _ => []))

/-- Count the sub-bank cycles of cycle `c` in which a dynamic request waits because the static accesses use both accesses of its
sub-bank (R259). -/
def countDefer (k c : Nat) (s : State) : State :=
  let t := getStr s k
  let full := t.cores.flatMap (fun m => (fullSubs t m c).map (fun b => 128 * m + b))
  if full.isEmpty then s
  else
    let wanted := wantedSubs s
    forEach (full.filter (fun x => wanted.contains x)) (fun s x => bump s (fSLC_DYNDEFER_CYCLES (x / 128)) 1) s

/-! ### One cycle -/

/-- Put a landing write into the list, ordered by cycle, then program order, then plane. -/
def insertLand (l : Land) : List Land → List Land
  | [] => [l]
  | x :: xs =>
    if l.cycle < x.cycle ∨ (l.cycle = x.cycle ∧ (l.seq < x.seq ∨ (l.seq = x.seq ∧ l.plane < x.plane))) then l :: x :: xs
    else x :: insertLand l xs

def addLand (s : State) (k : Nat) (l : Land) : State := modStr s k (fun t => { t with lands := insertLand l t.lands })

def mergeLanes (new : List (Option Int)) (old : List Int) : List Int :=
  (List.range 128).map (fun i => ((new.getD i none).getD (old.getD i 0)))

/-- A write landing in a register: its lanes, its exponents where it writes them, its provenance and stale bit (R114,
R121). -/
def landOne (k : Nat) (s : State) (l : Land) : State :=
  let d := regData s l.core l.reg
  let s := setRegData s l.core l.reg ⟨mergeLanes l.lanes d.lanes, l.exps.getD d.exps⟩
  modStr s k (fun t => setMeta t l.reg { regMeta t l.reg with prov := l.prov, stale := l.stale })

/-- Whether a write is lost to another of the same cycle and register: one of a later macro-op, or of a higher plane of the
same pass (R120). -/
def Land.lostTo (l x : Land) : Bool :=
  x.core == l.core && x.reg == l.reg && x.cycle == l.cycle &&
  (decide (l.seq < x.seq) || (x.seq == l.seq && decide (l.plane < x.plane)))

def lostLands (now : List Land) : List Land := now.filter (fun l => now.any l.lostTo)

/-- The macro-op in flight whose write of a register is kept in a cycle: the last in program order. -/
def keptBy (t : Stream) (now : List Land) (reg cycle : Nat) : Option Flight :=
  let q := ((now.filter (fun l => l.reg == reg && l.cycle == cycle)).map (fun l => l.seq)).foldl max 0
  t.flights.find? (fun f => f.seq == q)

/-- A CHECK build logs two writes to one register in one cycle, once for the register on all of its cores (R120, R495), under the
index and the operand values of the macro-op whose write is kept: which of the two the entry names is the model's choice
(assumption 101). -/
def logCollisions (k : Nat) (now : List Land) (s : State) : State :=
  let t := getStr s k
  if !t.check then s
  else forEach ((lostLands now).map (fun l => (l.reg, l.cycle, l.seq, l.plane))).eraseDups
    (fun s l =>
      let f := keptBy t now l.1 l.2.1
      logPut s { LogEntry.blank with
        kind := 0x01, cause := 0x0F, ctx := t.ctx, stream := k, task := t.task, pc := (f.map (fun f => f.pc)).getD t.pc,
        data := (f.map (fun f => f.data)).getD t.data }) s

/-- Whether a write of register `r` in cycle `c` by the macro-op of program order `q` changes what a macro-op in flight would
do when it is run again: it has read the register already, or its own write of it would come after one that belongs later
(R389). -/
def Flight.spoiltBy (f : Flight) (r c q : Nat) : Bool :=
  q != f.seq &&
  ((match f.op.firstRead r with
    | some x => decide (f.issue + x < c)
    | none => false) ||
   (f.op.writes.contains r && (decide (f.seq < q) || (match f.op.lastWrite r with
    | some x => decide (f.issue + x ≤ c)
    | none => false))) && decide (f.issue < c))

def markSpoilt (now : List Land) (t : Stream) : Stream :=
  { t with flights := t.flights.map (fun f =>
      if now.any (fun l => f.spoiltBy l.reg l.cycle l.seq) then { f with spoilt := true } else f) }

/-- Phase 1: the writes that land in cycle `c`; of two to one register, the lost one writes nothing (R120). -/
def landPhase (k c : Nat) (s : State) : State :=
  let t := getStr s k
  let now := t.lands.filter (fun l => decide (l.cycle ≤ c))
  let s := logCollisions k now s
  let s := modStr s k (fun t => markSpoilt now { t with lands := t.lands.filter (fun l => decide (c < l.cycle)) })
  forEach (now.filter (fun l => !(now.any l.lostTo))) (landOne k) s

/-- Set the lane range flag of a core for a macro-op, counting the macro-op once (LRCNT of R154). -/
def raiseLr (f : Flight) (m : Nat) (clip : Bool) (s : State) : Flight × State :=
  if !clip then (f, s)
  else if f.lrf.contains m then (f, setLrFlag s m)
  else ({ f with lrf := m :: f.lrf }, countLr (setLrFlag s m) m)

/-- What a static read of `n` bytes at `a` notes: an uncorrectable word is delivered as read, and the stream issues no
further macro-op of its task, which ends as a hedged task does (R274). -/
def noteStatic (k : Nat) (s : State) (a n : Nat) : State :=
  let s' := noteRead s a n 0
  if orgUe s a n then modStr s' k (fun t => { t with st := .ending, ended := some (endHedged 3) }) else s'

/-- The words that `n` bytes at `a` lie in. -/
def wordsOf (a n : Nat) : List Nat := if n = 0 then [] else (rangeFrom (a / 8) ((a + n - 1) / 8 + 1 - a / 8)).map (fun i => 8 * i)

/-- A static read of some words, each of them once (R273, R274). -/
def noteStaticWords (k : Nat) (s : State) (ws : List Nat) : State :=
  if s.orgErr.isEmpty then s else forEach ws (fun s w => noteStatic k s w 8) s

/-- The bytes of a static read, as stored. -/
def staticRead (s : State) (m : Nat) (off : Int) (n : Nat) : List Byte := orgRead s (orgAddr m off.toNat) n

/-- The lane value of `w` bytes. -/
def laneVal (bs : List Byte) : Int := sext (8 * bs.length) (leVal bs)

/-- The lanes, exponents and provenance that a TLOAD reads for register `i` on core `m` (R121, R172). -/
def tloadRow (s : State) (mv : MoveF) (m i : Nat) : List Int × Option (List Int) × List (Nat × Nat) :=
  let lanes := (List.range 128).map (fun l => laneVal (staticRead s m (mv.laneOff i l) mv.w))
  let offs := (List.range 128).map (fun l => mv.laneOff i l)
  let lo := offs.foldl min (mv.laneOff i 0)
  let hi := offs.foldl max (mv.laneOff i 0) + (mv.w : Int) - 1
  match mv.expOff i with
  | some e => (lanes, some ((staticRead s m e 4).map (fun b => sext 8 b.toNat)),
               [(lo.toNat, hi.toNat), (e.toNat, (e + 3).toNat)])
  | none => (lanes, none, [(lo.toNat, hi.toNat)])

/-- The cells that a TSTORE writes for register `i` of core `m` (R174). -/
def tstoreCells (d : RegData) (mv : MoveF) (m i : Nat) : List Host.Cell :=
  let lanes := lanesOf d
  let body : List Host.Cell :=
    if mv.pack = 8 then
      (List.range 128).flatMap (fun l =>
        (leBytes mv.w (truncN (8 * mv.w) (lanes.getD l 0))).zipIdx.map
          (fun b => (orgAddr m (mv.laneOff i l).toNat + b.2, b.1)))
    else
      (packRow mv.pack mv.rowBytes lanes).zipIdx.map (fun b => (orgAddr m (mv.laneOff i 0).toNat + b.2, b.1))
  match mv.expOff i with
  | some e => body ++ (expsOf d).zipIdx.map (fun x => (orgAddr m e.toNat + x.2, BitVec.ofNat 8 (truncN 8 x.1)))
  | none => body

/-! ### The array of a core (R65 to R68, R79, R90, R91) -/

/-- The faulty physical rows that a core's repair map names, in ascending order (R90). -/
def faultRows (s : State) (m : Nat) : List Nat :=
  (if isSet s (fARRREPAIR_V0 (m / 8) (m % 8)) then [getF s (fARRREPAIR_F0 (m / 8) (m % 8))] else []) ++
  (if isSet s (fARRREPAIR_V1 (m / 8) (m % 8)) then [getF s (fARRREPAIR_F1 (m / 8) (m % 8))] else [])

/-- p(l): the physical row of logical row `l`, the (l + 1)th row that is not faulty (R90). -/
def physRow (faults : List Nat) (l : Nat) : Nat := faults.foldl (fun p f => if f ≤ p then p + 1 else p) l

/-- The logical row that physical row `p` of the 130 carries; none where it is idle (R65, R91). -/
def logicalRow (faults : List Nat) (p : Nat) : Option Nat :=
  let l := p - (faults.filter (fun f => decide (f < p))).length
  if faults.contains p then none else if l < 128 then some l else none

/-- The physical row whose band shifter is enabled for band `b`: it carries the band's last logical row (R91). -/
def shifterRow (faults : List Nat) (b : Nat) : Nat := physRow faults (32 * b + 31)

/-- The eight bits that an image puts into the main (`up` false) or shadow register of a cell, logical row `r` and column `c`
(R66). -/
def imageBits (ws : WSet) (up : Bool) (r c : Nat) : Nat :=
  let row := ws.rows.getD r []
  match ws.fmt with
  | 0 => (row.getD c 0).toNat
  | 1 => truncN 4 (packedAt row 4 ((if up then 128 else 0) + c))
  | _ =>
    let j := if up then 256 else 0
    truncN 2 (packedAt row 2 (j + c)) + 4 * truncN 2 (packedAt row 2 (j + 128 + c))

/-- A weight register of cell (p, c): the loader places logical rows at their physical rows, and an idle row holds zero weights
in both registers (R90, R91). -/
def cellBits (faults : List Nat) (ws : WSet) (up : Bool) (p c : Nat) : Nat :=
  match logicalRow faults p with
  | some l => imageBits ws up l c
  | none => 0

/-- The active format of a pass, by its plane count, and whether plane `j` stands in the shadow registers (R66). -/
def fmtOf (planes : Nat) : Nat := if planes = 1 then 0 else if planes = 2 then 1 else 2
def upperPlane (fmt j : Nat) : Bool := (fmt == 1 && j == 1) || (fmt == 2 && decide (2 ≤ j))

/-- The weight of plane `j` in a register's bits (R66). -/
def planeWeight (fmt j bits : Nat) : Int :=
  match fmt with
  | 0 => sext 8 bits
  | 1 => sext 4 (bits % 16)
  | _ => sext 2 (bits / 4 ^ (j % 2) % 4)

/-- The image whose bits vector `k` of a pass issued at `issue` meets in a register of physical row `p`, logical row `l`.  The
shadow registers of the row take those of the ripple load behind the pass at its @+24+l, before a vector that comes later
(R79); a vector of the same cycle still meets the old ones (assumption 80). -/
def PassF.imageAt (q : PassF) (issue m : Nat) (up : Bool) (k p l : Nat) : Nat :=
  let w := amGet (fun _ => Weights.zero) q.wids m
  if !up then w.main
  else if w.shadow = w.behind ∨ q.ripple + 24 + l < issue + 4 + k + p then w.shadow
  else w.behind

/-- The weight of plane `j`, logical row `r` and column `c` that vector `k` of a pass meets on core `m`. -/
def cellWeight (s : State) (q : PassF) (issue m k j r c : Nat) : Int :=
  let fs := faultRows s m
  let p := physRow fs r
  let fmt := fmtOf q.planes
  let up := upperPlane fmt j
  planeWeight fmt j (cellBits fs (getWSet s (q.imageAt issue m up k p r)) up p c)

/-- An exponent byte that an image holds for the buffer of the main (`up` false) or shadow registers: the first (`second` false)
or the second plane of the buffer, band `b`, column `c`. -/
def imageExp (ws : WSet) (up second : Bool) (b c : Nat) : Int :=
  let i := match ws.fmt with
    | 0 => 0
    | 1 => if up then 1 else 0
    | _ => (if up then 2 else 0) + (if second then 1 else 0)
  sext 8 (ws.exps.getD (512 * i + 128 * b + c) 0).toNat

/-- ew[b][c] of plane `j` on core `m` (R66, R67).  An SI8 image has one exponent plane, so a ripple load leaves the second plane
of an SI2 shadow buffer as it was (assumption 80). -/
def cellExp (s : State) (q : PassF) (m j b c : Nat) : Int :=
  let fmt := fmtOf q.planes
  let w := amGet (fun _ => Weights.zero) q.wids m
  let second := fmt == 2 && j % 2 == 1
  if !(upperPlane fmt j) then imageExp (getWSet s w.main) false second b c
  else
    let ws := getWSet s w.shadow
    imageExp (if second && ws.fmt == 0 then getWSet s w.behind else ws) true second b c

/-- The masks of a pass on core `m`: bit 0 of a lane is rowmask, bit 1 colmask; all 1 with no mask register (R95). -/
def maskBit (p : PassF) (m lane bit : Nat) : Bool :=
  match p.m with
  | none => true
  | some _ => bitOf (truncN 8 ((amGet (fun _ => []) p.masks m).getD lane 0)) bit

/-- The four bands of output lane `o` of plane `j`: over rows for every mode but MPASST, over columns for MPASST (R41,
R99).  Band b takes the physical rows from the shifter of band b − 1 to its own that carry logical rows; an idle row passes
the sums unchanged (R91). -/
def bandsOf (s : State) (p : PassF) (issue m : Nat) (fd : Feed) (j o : Nat) : List Band :=
  (List.range 4).map (fun b =>
    match p.mode with
    | .mpasst =>
      ⟨cellExp s p m 0 (o / 32) (32 * b), fd.exps.getD b 0,
       (List.range 32).map (fun i =>
         (maskBit p m (32 * b + i) 1, cellWeight s p issue m fd.k 0 o (32 * b + i), fd.lanes.getD (32 * b + i) 0))⟩
    | _ =>
      ⟨cellExp s p m j b o, fd.exps.getD b 0,
       (List.range 32).map (fun i =>
         (maskBit p m (32 * b + i) 0, cellWeight s p issue m fd.k j (32 * b + i) o, fd.lanes.getD (32 * b + i) 0))⟩)

/-- Whether output lane `o` is unmasked (R96, R99). -/
def outOn (p : PassF) (m o : Nat) : Bool :=
  match p.mode with
  | .mpasst => maskBit p m o 0
  | _ => maskBit p m o 1

/-- The new value of output lane `o` of a summing pass, none where it keeps its contents, and whether it clips (R44, R96). -/
def sumLane (s : State) (p : PassF) (issue m : Nat) (fd : Feed) (j : Nat) (old : Int) (o : Nat) : Option Int × Bool :=
  if outOn p m o then
    let r := accWrite p.acc old (columnTotal p.mode p.eref (bandsOf s p issue m fd j o))
    (some r.1, r.2)
  else if p.acc then (none, false)
  else (some 0, false)

/-- The new value and index lanes of column `o` of a comparison pass (R105). -/
def cmpLane (s : State) (p : PassF) (issue m : Nat) (fd : Feed) (old : Int) (o : Nat) : Option Int × Option Int × Bool :=
  let x := columnExtreme p.mode p.eref (bandsOf s p issue m fd 0 o)
  if !outOn p m o || !x.found then
    if p.acc then (none, none, false) else (some 0, some (-1), false)
  else
    let v := sat x.best 32
    let idx := sext 32 (truncN 32 (x.idx + p.ibase))
    if p.acc && !(better p.mode v.1 old) then (none, none, x.clip || v.2)
    else (some v.1, some idx, x.clip || v.2)

/-- Record the clips of a pass on core `m`: the flags, and each column counted once for the pass (R45, R110). -/
def noteClips (p : PassF) (m : Nat) (clips : List Bool) (s : State) : PassF × State :=
  clips.zipIdx.foldl (fun ps c =>
    if c.1 then
      let key := 128 * m + c.2
      let s := setColFlag ps.2 m c.2
      if amGet (fun _ => false) ps.1.hits key then (ps.1, s)
      else ({ ps.1 with hits := amSet (fun _ => false) ps.1.hits key true }, countCol s m c.2)
    else ps) (p, s)

/-- The accumulator stage of vector `fd` on its core (R44, R72, R74): the landings two cycles later, and the clips. -/
def drainFeed (k c : Nat) (f : Flight) (p : PassF) (fd : Feed) (s : State) : PassF × State :=
  let m := fd.core
  match p.mode with
  | .mcmpx | .mcmpn =>
    let r1 := p.d.b + fd.k % p.d.h
    let r2 := p.d2.b + fd.k % p.d2.h
    let old := lanesOf (regData s m r1)
    let rs := (List.range 128).map (fun o => cmpLane s p f.issue m fd (old.getD o 0) o)
    let s := addLand s k ⟨c + 2, f.seq, 0, m, r1, rs.map (fun x => x.1), none, [], false⟩
    let s := addLand s k ⟨c + 2, f.seq, 1, m, r2, rs.map (fun x => x.2.1), none, [], false⟩
    noteClips p m (rs.map (fun x => x.2.2)) s
  | _ =>
    (List.range p.planes).foldl (fun ps j =>
      let r := p.d.b + (p.planes * fd.k + j) % p.d.h
      let old := lanesOf (regData ps.2 m r)
      let rs := (List.range 128).map (fun o => sumLane ps.2 p f.issue m fd j (old.getD o 0) o)
      let s := addLand ps.2 k ⟨c + 2, f.seq, j, m, r, rs.map Prod.fst, none, [], false⟩
      noteClips ps.1 m (rs.map Prod.snd) s) (p, s)

/-- What a pass in flight does in cycle `c` (R70 to R74, R95). -/
def passCycle (k c : Nat) (f : Flight) (p : PassF) (s : State) : Flight × State :=
  let rel := c - f.issue
  let p := if rel = 1 then
      match p.m with
      | some r => { p with masks := f.cores.map (fun m => (m, lanesOf (regData s m r))) }
      | none => p
    else p
  let s := if 4 ≤ rel ∧ rel < 4 + p.feed then
      forEach f.cores (fun s m => bump s (fARRFEED_FEED (m / 8) (m % 8)) 1) s
    else s
  let stepK := if p.i16 then 4 else 1
  let kv := (rel - 2) / stepK
  let new := if 2 ≤ rel ∧ (rel - 2) % stepK = 0 ∧ kv < p.n then
      f.cores.map (fun m =>
        let d := regData s m (p.s.b + kv % p.s.h)
        (⟨kv, m, lanesOf d, expsOf d⟩ : Feed))
    else []
  let due := f.feeds.filter (fun fd => p.accAt fd.k == rel)
  let rest := f.feeds.filter (fun fd => p.accAt fd.k != rel)
  let r := due.foldl (fun ps fd => drainFeed k c f ps.1 fd ps.2) (p, s)
  let s := if rel = 263 + p.feed then
      forEach f.cores (fun s m => bump s (fARRPASSES_PASSES (m / 8) (m % 8)) 1) r.2
    else r.2
  ({ f with op := .pass r.1, feeds := rest ++ new }, s)

/-! ### Weight registers at issue (R78 to R80) -/

def wmodeOf (s : State) (m : Nat) : Nat := getF s (fARRSTAT_WMODE (m / 8) (m % 8))
def setWmode (s : State) (m v : Nat) : State := setF s (fARRSTAT_WMODE (m / 8) (m % 8)) v
def pendOf (s : State) (m : Nat) : Bool := isSet s (fARRSTAT_PEND (m / 8) (m % 8))
def setPend (s : State) (m v : Nat) : State := setF s (fARRSTAT_PEND (m / 8) (m % 8)) v

/-- The weight registers with a ripple load behind them (R78), after a stall load (R80), and after a swap front (R79). -/
def Weights.rippled (w : Weights) (id am ae : Nat) : Weights :=
  { w with shadow := id, behind := w.shadow, pend := some ⟨am, ae, 0⟩ }
def Weights.stalled (_ : Weights) (id am ae fmt : Nat) : Weights := ⟨id, id, id, some ⟨am, ae, fmt⟩, none⟩
def Weights.swapped (w : Weights) : Weights := ⟨w.shadow, w.main, w.main, w.pend, none⟩

/-- The array of core `m` as it stands (R107). -/
def arrayAt (s : State) (m : Nat) : ArrayAt := ⟨(getCore s m).weights, wmodeOf s m, pendOf s m⟩

def setArray (s : State) (m : Nat) (a : ArrayAt) : State :=
  setPend (setWmode (modCore s m (fun c => { c with weights := a.weights })) m a.wmode) m (if a.pending then 1 else 0)

/-- A weight load at issue on some cores: WLOAD.R gives its image to the shadow registers and sets the pending flag; WLOAD.S
gives it to both, and its format becomes active. -/
def loadArrays (cores : List Nat) (w : WloadF) (s : State) : State :=
  forEach cores (fun s m =>
    if w.fmt = 0 then setPend (modCore s m (fun c => { c with weights := c.weights.rippled w.id w.am w.ae })) m 1
    else setWmode (setPend (modCore s m (fun c => { c with weights := c.weights.stalled w.id w.am w.ae w.fmt })) m 0) m w.fmt) s

/-- The swap front of a pass on some cores (R79). -/
def swapArrays (cores : List Nat) (s : State) : State :=
  forEach cores (fun s m => setWmode (setPend (modCore s m (fun c => { c with weights := c.weights.swapped })) m 0) m 0) s

/-- The weight registers that a pass on some cores meets: after its own swap front where it has one. -/
def metWeights (s : State) (swap : Bool) (cores : List Nat) : List (Nat × Weights) :=
  cores.map (fun m => (m, if swap then (getCore s m).weights.swapped else (getCore s m).weights))

/-- A macro-op that is run again after a resume issues: its effect on the arrays is made again, from the arrays as they are
now (R107, R392). -/
def againEff (f : Flight) (s : State) : Flight × State :=
  match f.op with
  | .wload w => (f, loadArrays f.cores w s)
  | .pass p => ({ f with op := .pass { p with wids := metWeights s p.swap f.cores } }, if p.swap then swapArrays f.cores s else s)
  | _ => (f, s)

/-- What a weight load does in cycle `c`: slot s is read at @+2+s into the withy chain, with every core's deskew buffer at its
end, and is presented to every core at @+22+s (R85, R87). -/
def wloadCycle (k c : Nat) (f : Flight) (w : WloadF) (s : State) : Flight × State :=
  let rel := c - f.issue
  let n := 256 * planesOf w.fmt
  let slot := rel - 2
  let a := if slot < 2 then w.ae + n * slot else w.am + 128 * (slot - 2)
  let len := if slot < 2 then n else 128
  let r := if 2 ≤ rel ∧ rel ≤ 131 then (w.slots ++ [(slot, orgRead s a len)], noteStatic k s a len) else (w.slots, s)
  let out := r.1.filter (fun x => x.1 + 22 == rel)
  let s := forEach out (fun s x => modWSet s w.id (fun g =>
    if x.1 < 2 then { g with exps := g.exps ++ x.2 } else { g with rows := g.rows ++ [x.2] })) r.2
  ({ f with op := .wload { w with slots := r.1.filter (fun x => x.1 + 22 != rel) } }, s)

/-- What a TLOAD reads in cycle `c` (R172). -/
def tloadCycle (k c : Nat) (f : Flight) (mv : MoveF) (s : State) : Flight × State :=
  let rel := c - f.issue
  if 2 ≤ rel ∧ rel < 2 + mv.t.h then
    let i := rel - 2
    (f, forEach f.cores (fun s m =>
      let r := tloadRow s mv m i
      let s := addLand s k ⟨f.issue + mv.lat + i, f.seq, 0, m, mv.t.b + i, r.1.map some, r.2.1, r.2.2, f.marked.contains i⟩
      noteStaticWords k s (((mv.pieces i).flatMap (fun pc => wordsOf (orgAddr m pc.1.toNat) pc.2)).eraseDups)) s)
  else (f, s)

/-- What a TSTORE reads in cycle `c` (R174, R175). -/
def tstoreCycle (k c : Nat) (f : Flight) (mv : MoveF) (s : State) : Flight × State :=
  let rel := c - f.issue
  if 1 ≤ rel ∧ rel < 1 + mv.t.h then
    let i := rel - 1
    let new : List MStore :=
      f.cores.map (fun m => ⟨f.issue + mv.lat + i, f.seq, tstoreCells (regData s m (mv.t.b + i)) mv m i⟩)
    (f, modStr s k (fun t => { t with stores := t.stores ++ new }))
  else (f, s)

def tableOf (c : Core) (t : Nat) : List Int := amGet (fun _ => []) c.tables t

def setTable (s : State) (m t : Nat) (vs : List Int) : State :=
  modCore s m (fun x => { x with tables := amSet (fun _ => []) x.tables t vs })

/-- The exponent bytes of register D of an EPROG (R135): none for 32-bit lanes. -/
def eprogExps (t : Stream) (e : EprogF) (dreg : Nat) (aexps : List Int) : Option (List Int) :=
  if (regMeta t dreg).width = .w32 then none
  else if e.fixed then some (List.replicate 4 e.eexp)
  else some aexps

/-- The exponent bytes that an EPROG reads with register `r` of A: 0 where its lanes have 32 bits (R135). -/
def sourceExps (t : Stream) (r : Nat) (d : RegData) : List Int :=
  if (regMeta t r).width = .w32 then [0, 0, 0, 0] else expsOf d

/-- Run an EPROG on the rows of A and B that one core read for register `i` (R130 to R135). -/
def eprogRow (t : Stream) (c : Core) (e : EprogF) (i : Nat) (a b : List Int) : List Int × Bool :=
  let wd := (regMeta t (e.d.b + i)).width.bits
  let rs := (List.range 128).map (fun l =>
    runSteps (tableOf c) (a.getD l 0) (b.getD l 0) e.c0 e.c1 l i wd e.prog [] 0 false)
  (rs.map Prod.fst, rs.any Prod.snd)

/-- What an EPROG does in cycle `c`: its table reads (R126), its register reads and, in the cycle before each landing,
its computation (R136). -/
def eprogCycle (k c : Nat) (f : Flight) (e : EprogF) (s : State) : Flight × State :=
  let rel := c - f.issue
  let s := if (rel = 1 ∨ rel = 2) ∧ e.tmask ≠ 0 then
      forEach f.cores (fun s m =>
        forEach ((List.range 4).filter (fun t => bitOf e.tmask t)) (fun s t =>
          let a := orgAddr m (e.tbase + 512 * t + 256 * (rel - 1))
          let vs := (chunk 2 128 (orgRead s a 256)).map laneVal
          let s := setTable s m t (if rel = 1 then vs else (tableOf (getCore s m) t).take 128 ++ vs)
          noteStatic k s a 256) s) s
    else s
  let i := (rel - 1) / e.c
  let new := if 1 ≤ rel ∧ (rel - 1) % e.c = 0 ∧ i < e.d.h then
      f.cores.flatMap (fun m =>
        let a := regData s m (e.a.b + i)
        let b := match e.b with
          | some t => regData s m (t.b + i)
          | none => RegData.zero
        [(⟨i, m, lanesOf a, sourceExps (getStr s k) (e.a.b + i) a⟩ : Feed), ⟨i + 16, m, lanesOf b, []⟩])
    else []
  let due := f.feeds.filter (fun fd => decide (fd.k < 16) && e.landAt fd.k == rel + 1)
  let rest := f.feeds.filter (fun fd => !(e.landAt (fd.k % 16) == rel + 1))
  let r := due.foldl (fun (fs : Flight × State) fd =>
    let t := getStr fs.2 k
    let bl := ((f.feeds.find? (fun x => x.k == fd.k + 16 && x.core == fd.core)).map (fun x => x.lanes)).getD []
    let v := eprogRow t (getCore fs.2 fd.core) e fd.k fd.lanes bl
    let s := addLand fs.2 k ⟨c + 1, f.seq, 0, fd.core, e.d.b + fd.k, v.1.map some,
      eprogExps t e (e.d.b + fd.k) fd.exps, [], false⟩
    raiseLr fs.1 fd.core v.2 s) (f, s)
  ({ r.1 with feeds := rest ++ new }, r.2)

/-- The operation codes of EBCAST (R214). -/
def ebcastOp (op k : Nat) : POp :=
  match op with
  | 0 => .add
  | 1 => .sub
  | 2 => .mul
  | 3 => .mulsh (Fin.ofNat 64 k)
  | 4 => .max
  | _ => .min

/-- One register of the element macro-ops of R137: destination writes as (register, lanes, exponents), and the clip.  The one
register of a control, vector or scale operand is read anew with each register of the source, at @+1+i, so that what has
landed in it meanwhile is seen: R137 leaves open when it is read (assumption 81). -/
def elemRow (s : State) (t : Stream) (m i : Nat) (op : FlightOp) : List (Nat × List Int × Option (List Int)) × Bool :=
  let rd := fun (x : Tile) => regData s m (x.b + i)
  let keep := fun (d : Nat) (e : List Int) => if (regMeta t d).width = .w32 then none else some e
  match op with
  | .eshufX d sr x => ([(d.b + i, shufX x (lanesOf (rd sr)), keep (d.b + i) (expsOf (rd sr)))], false)
  | .eshufB d sr c =>
    ([(d.b + i, shufB (lanesOf (regData s m c)) (lanesOf (rd sr)), keep (d.b + i) (expsOf (rd sr)))], false)
  | .esum d sr g => let r := esumReg g (lanesOf (rd sr)); ([(d.b + i, r.1, none)], r.2)
  | .emax d sr g o =>
    let r := emaxReg g (lanesOf (rd sr))
    ((d.b + i, r.1, none) :: (match o with
      | some x => [(x.b + i, r.2, none)]
      | none => []), false)
  | .ebcast d sr v col op k =>
    let vl := lanesOf (regData s m v)
    let w := (regMeta t (d.b + i)).width.bits
    let rs := (lanesOf (rd sr)).zipIdx.map (fun a =>
      stepVal (fun _ => []) (ebcastOp op k) a.1 (vl.getD (if col then i else a.2) 0) 0 w)
    let e := if (regMeta t (sr.b + i)).width = .w32 then [0, 0, 0, 0] else expsOf (rd sr)
    ([(d.b + i, rs.map Prod.fst, keep (d.b + i) e)], rs.any Prod.snd)
  | .equant q =>
    let sv := lanesOf (regData s m q.sv)
    let sw := fun (l : Nat) => truncN 32 (sv.getD (if q.perRow then i else l) 0)
    let src := lanesOf (rd q.s)
    if q.fit then
      let bs := (List.range 4).map (fun j => blockFit q.wbits q.e
        ((List.range 32).map (fun l => (src.getD (32 * j + l) 0 * scaleMult (sw (32 * j + l)), scaleShift (sw (32 * j + l))))))
      ([(q.d.b + i, bs.flatMap (fun b => b.1), some (bs.map (fun b => b.2.1)))], bs.any (fun b => b.2.2))
    else
      let rs := src.zipIdx.map (fun a => requant a.1 (sw a.2) q.wbits)
      let e := if q.wbits ≤ 16 ∧ (regMeta t (q.d.b + i)).width ≠ .w32 then some (List.replicate 4 q.e) else none
      ([(q.d.b + i, rs.map Prod.fst, e)], rs.any Prod.snd)
  | _ => ([], false)

/-- The height of an element macro-op's tile. -/
def elemHeight : FlightOp → Nat
  | .eshufX d _ _ | .eshufB d _ _ | .esum d _ _ | .emax d _ _ _ | .ebcast d _ _ _ _ _ => d.h
  | .equant q => q.d.h
  | _ => 0

/-- What an element macro-op of R137 does in cycle `c`. -/
def elemCycle (k c : Nat) (f : Flight) (s : State) : Flight × State :=
  let rel := c - f.issue
  if 1 ≤ rel ∧ rel < 1 + elemHeight f.op then
    let i := rel - 1
    f.cores.foldl (fun (fs : Flight × State) m =>
      let r := elemRow fs.2 (getStr fs.2 k) m i f.op
      let s := forEach (r.1.zipIdx) (fun s w =>
        addLand s k ⟨f.issue + elemLat f.op + i, f.seq, w.2, m, w.1.1, w.1.2.1.map some, w.1.2.2, [], false⟩) fs.2
      raiseLr fs.1 m r.2 s) (f, s)
  else (f, s)

/-- Phase 2: what one macro-op in flight does in cycle `c`. -/
def flightCycle (k c : Nat) (f : Flight) (s : State) : Flight × State :=
  if f.again && c == f.issue then againEff { f with again := false } s
  else match f.op with
  | .wload w => wloadCycle k c f w s
  | .pass p => passCycle k c f p s
  | .tload mv => tloadCycle k c f mv s
  | .tstore mv => tstoreCycle k c f mv s
  | .eprog e => eprogCycle k c f e s
  | _ => elemCycle k c f s

/-- Phase 2 over the macro-ops in flight, in program order. -/
def readPhase (k c : Nat) : List Flight → State → List Flight × State
  | [], s => ([], s)
  | f :: fs, s =>
    let r := flightCycle k c f s
    let q := readPhase k c fs r.2
    (r.1 :: q.1, q.2)

/-- Store cells but those of the words `bad`, and mend the words `good`. -/
def putCells (bad good : List Nat) (cells : List Host.Cell) (s : State) : State :=
  { s with org := cells.foldl (fun m c => if bad.contains (c.1 / 8 * 8) then m else amSet freshByte m c.1 c.2) s.org,
           orgErr := good.foldl (fun m w => amErase m w) s.orgErr }

/-- Write the cells of a TSTORE into the Orangery.  A word that is not written whole is read first, as R273 and R274 state: a
correctable one is counted and mended by the write, and an uncorrectable one drops its bytes and ends the stream's task as
a hedged one (R275). -/
def storeCells (k : Nat) (s : State) (cells : List Host.Cell) : State :=
  let whole := fun (w : Nat) => (List.range 8).all (fun i => cells.any (fun c => c.1 == w + i))
  let hit := s.orgErr.filter (fun p => cells.any (fun c => c.1 / 8 * 8 == p.1))
  let bad := (hit.filter (fun p => p.2 == 2 && !whole p.1)).map Prod.fst
  let mended := (hit.filter (fun p => p.2 == 1 && !whole p.1)).map Prod.fst
  let good := (hit.filter (fun p => p.2 != 2 || whole p.1)).map Prod.fst
  let s := forEach mended (fun s w => bump s (fSLC_CECNT_COUNT (orgSlice w)) 1) s
  let s := forEach bad (fun s w => noteUe s w 2) (putCells bad good cells s)
  if bad.isEmpty then s else modStr s k (fun t => { t with st := .ending, ended := some (t.ended.getD (endHedged 3)) })

/-- Phase 3: the TSTORE bytes of cycle `c` (R174). -/
def storePhase (k c : Nat) (s : State) : State :=
  let t := getStr s k
  let now := t.stores.filter (fun x => decide (x.cycle ≤ c))
  let hit := fun (f : Flight) => now.any (fun x => x.seq != f.seq && x.cells.any (fun b => f.extent.any (fun r =>
    !r.write && r.slices.contains (orgSlice b.1) && decide (r.lo ≤ orgOff b.1) && decide (orgOff b.1 ≤ r.hi))))
  let s := modStr s k (fun t => { t with
    stores := t.stores.filter (fun x => decide (c < x.cycle)),
    flights := t.flights.map (fun f => if f.issue < c && hit f then { f with spoilt := true } else f) })
  forEach now (fun s x => storeCells k s x.cells) s

/-! ### Acquires and stale marks (R121, R122) -/

/-- The state of a register at the present cycle: RELEASING becomes EMPTY after its last access (R114, R117). -/
def regNow (t : Stream) (r : Nat) : RegMeta :=
  let m := regMeta t r
  if m.st = .releasing ∧ m.emptyAt ≤ t.now then { m with st := .empty, stale := false, prov := [] } else m

/-- The part of a guard that lies in the slice of core `m`: (0, …) is no guard, (1, offset, length) an EACH guard, (2,
address, length) a ONE guard (R223). -/
def guardIn (g : Nat × Nat × Nat) (m : Nat) : Option (Nat × Nat) :=
  if g.2.2 = 0 then none
  else if g.1 = 1 then some (g.2.1, g.2.1 + g.2.2 - 1)
  else if g.1 = 2 ∧ orgSlice g.2.1 = m then some (orgOff g.2.1, orgOff g.2.1 + g.2.2 - 1)
  else none

/-- The provenance that register `i` of a TLOAD takes (R121). -/
def tloadProv (mv : MoveF) (i : Nat) : List (Nat × Nat) :=
  let offs := (List.range 128).map (fun l => mv.laneOff i l)
  let lo := offs.foldl min (mv.laneOff i 0)
  let hi := offs.foldl max (mv.laneOff i 0) + (mv.w : Int) - 1
  (lo.toNat, hi.toNat) :: (match mv.expOff i with
    | some e => [(e.toNat, (e + 3).toNat)]
    | none => [])

def provHit (prov : List (Nat × Nat)) (g : Nat × Nat) : Bool := prov.any (fun p => rangeMeets p g)

/-- The provenances that count for a LIVE register of a stream in cycle `c`: its own, and those of the rows that TLOADs in flight
have still to write (R122). -/
def provsOf (t : Stream) (c r : Nat) : List (List (Nat × Nat)) :=
  if (regNow { t with now := c } r).st = .live then
    (regMeta t r).prov :: t.flights.flatMap (fun f => match f.op with
      | .tload mv => match tileIdx mv.t r with
        | some i => if c < f.issue + mv.lat + i then [tloadProv mv i] else []
        | none => []
      | _ => [])
  else []

/-- The guard parts of a stream's participating cores. -/
def guardParts (t : Stream) (g : Nat × Nat × Nat) : List (Nat × (Nat × Nat)) :=
  t.cores.filterMap (fun m => (guardIn g m).map (fun x => (m, x)))

/-- An acquire of stream `k` completes with a guard range in cycle `c`: mark the LIVE registers whose provenance it meets
(R122). -/
def acquire (k c : Nat) (g : Nat × Nat × Nat) (s : State) : State :=
  let t := getStr s k
  let live := fun (r : Nat) => (regNow { t with now := c } r).st == .live
  let parts := guardParts t g
  let hits := fun (prov : List (Nat × Nat)) => parts.any (fun p => provHit prov p.2)
  let s := forEach parts (fun s p =>
    countStale s p.1 ((List.range 64).filter (fun r => (provsOf t c r).any (fun pv => provHit pv p.2))).length) s
  modStr s k (fun t => { t with
    tile := (List.range 64).foldl (fun tl r =>
      let m := amGet (fun _ => RegMeta.reset) tl r
      if live r && hits m.prov then amSet (fun _ => RegMeta.reset) tl r { m with stale := true } else tl) t.tile,
    lands := t.lands.map (fun l => if live l.reg && hits l.prov then { l with stale := true } else l),
    flights := t.flights.map (fun f => match f.op with
      | .tload mv => { f with marked := (List.range mv.t.h).filter (fun i => f.marked.contains i || (live (mv.t.b + i) && hits (tloadProv mv i))) }
      | _ => f) })

/-- The acquires that complete in cycle `c`, after the writes that land in it. -/
def acquirePhase (k c : Nat) (s : State) : State :=
  let now := (getStr s k).acq.filter (fun a => decide (a.1 ≤ c))
  let s := modStr s k (fun t => { t with acq := t.acq.filter (fun a => decide (c < a.1)) })
  forEach now (fun s a => acquire k c a.2 s) s

/-! ### One running cycle -/

def FlightOp.isLoad : FlightOp → Bool
  | .wload _ => true
  | _ => false

def FlightOp.isMatrix : FlightOp → Bool
  | .wload _ => true
  | .pass _ => true
  | _ => false

/-- The macro-ops that are still in flight after cycle `c`.  Once a weight load has ended it is never issued again (R392), so the
matrix macro-ops before it could not meet their weights again, and run to their end (R106, R107; assumption 102). -/
def stillFlying (c : Nat) (fs : List Flight) : List Flight :=
  let loaded := ((fs.filter (fun f => f.op.isLoad && decide (f.op.life ≤ c - f.issue))).map (fun f => f.seq)).foldl max 0
  (fs.filter (fun f => decide (c - f.issue < f.op.life))).map (fun f =>
    if f.op.isMatrix && decide (f.seq < loaded) then { f with spoilt := true } else f)

/-- One running cycle of stream `k`: cycle `c`. -/
def cycle (k c : Nat) (s : State) : State :=
  let s := acquirePhase k c (landPhase k c (countDefer k c s))
  let r := readPhase k c (getStr s k).flights s
  let fs := stillFlying c r.1
  let s := modStr r.2 k (fun t => { t with flights := fs })
  let s := storePhase k c s
  modStr s k (fun t => { t with now := c, ranges := t.ranges.filter (fun x => x.until_ == 0 || decide (c ≤ x.until_)) })

/-- Whether nothing of the stream's static pipeline is left to do. -/
def quiet (t : Stream) : Bool :=
  t.flights.isEmpty && t.lands.isEmpty && t.stores.isEmpty && t.acq.isEmpty && !(t.ranges.any (fun x => x.static || x.until_ != 0))

/-- Run stream `k` for `n` cycles; a quiet pipeline only moves its clock. -/
def runCycles (k : Nat) : Nat → State → State
  | 0, s => s
  | n + 1, s =>
    let t := getStr s k
    if quiet t then modStr s k (fun t => { t with now := t.now + (n + 1) })
    else runCycles k n (cycle k (t.now + 1) s)

/-- Run stream `k` up to cycle `c`. -/
def runTo (k c : Nat) (s : State) : State := runCycles k (c - (getStr s k).now) s

/-- The cycle by which everything in flight has ended. -/
def drainCycle (t : Stream) : Nat :=
  (t.flights.map (fun f => f.issue + f.op.life)).foldl max
    ((t.lands.map (fun l => l.cycle)).foldl max ((t.stores.map (fun x => x.cycle)).foldl max
      ((t.acq.map Prod.fst).foldl max t.now)))

/-- Let every static macro-op in flight run to its end (R207). -/
def drain (k : Nat) (s : State) : State := runTo k (drainCycle (getStr s k)) s

/-- The cycle in which the last write of a TSTORE in flight lands, if there is one (R225, R237). -/
def lastStoreLand (t : Stream) : Option Nat :=
  t.flights.foldl (fun o f => match f.op with
    | .tstore m => some (max (o.getD 0) (f.issue + m.lat + m.t.h - 1))
    | _ => o) none

/-- The state of a register once nothing of the stream's pipeline is left to do: none is RELEASING (R117). -/
def restMeta (t : Stream) (r : Nat) : RegMeta :=
  let m := regMeta t r
  if m.st = .releasing then { m with st := .empty, stale := false, prov := [], emptyAt := 0 } else m

def restTile (t : Stream) : List (Nat × RegMeta) :=
  (List.range 64).foldl (fun l r => amSet (fun _ => RegMeta.reset) l r (restMeta t r)) t.tile

/-- The cycle at which `r` becomes EMPTY when released now: the cycle after its last access in flight (R117). -/
def emptyCycle (t : Stream) (r : Nat) : Nat :=
  t.flights.foldl (fun e f =>
    max e (max (((f.op.lastRead r).map (fun x => f.issue + x + 1)).getD 0)
               (((f.op.lastWrite r).map (fun x => f.issue + x + 1)).getD 0))) (t.now + 1)

end Sys2Proof.Machine
end

