-- ==== Sys2Proof/Machine/LinkTx.lean ====
section
/-! DEFINITION. The sending side of an Oantaec port (spec/13 R521 to R531, R534 to R536, R539, R544, R545; spec/11 R478):
flits and their CRC, virtual channels, the replay buffer, packets, requests that wait for an answer, and the wicket credit
that this module holds at its peers. -/

namespace Sys2Proof.Machine

open Sys2Proof

def getPort (s : State) (p : Nat) : Port := amGet (fun _ => Port.reset) s.ports p
def setPort (s : State) (p : Nat) (x : Port) : State := { s with ports := amSet (fun _ => Port.reset) s.ports p x }
def modPort (s : State) (p : Nat) (f : Port → Port) : State := setPort s p (f (getPort s p))

def getWk (s : State) (w : Nat) : Wicket := amGet (fun _ => Wicket.reset) s.wickets w
def setWk (s : State) (w : Nat) (x : Wicket) : State := { s with wickets := amSet (fun _ => Wicket.reset) s.wickets w x }
def modWk (s : State) (w : Nat) (f : Wicket → Wicket) : State := setWk s w (f (getWk s w))

def getChan (s : State) (ch : Nat) : Chan := amGet (fun _ => Chan.reset) s.chans ch
def setChan (s : State) (ch : Nat) (x : Chan) : State := { s with chans := amSet (fun _ => Chan.reset) s.chans ch x }
def modChan (s : State) (ch : Nat) (f : Chan → Chan) : State := setChan s ch (f (getChan s ch))

/-! ### The CRC of a flit (R522) -/

def crcStep : Nat → Nat → Nat
  | 0, c => c
  | n + 1, c => crcStep n (if c % 2 = 1 then Nat.xor (c / 2) 0xEDB88320 else c / 2)

def crc32Reg (c : Nat) : List Byte → Nat
  | [] => c
  | b :: bs => crc32Reg (crcStep 8 (Nat.xor c b.toNat)) bs

/-- The CRC-32 of IEEE 802.3 frames. -/
def crc32 (bs : List Byte) : Nat := Nat.xor (crc32Reg 0xFFFFFFFF bs) 0xFFFFFFFF

/-! ### Addresses of space 0x9 -/

def peerPort (a : Nat) : Nat := bitsOf a 47 44
def peerWk (a : Nat) : Nat := bitsOf a 43 38
def peerOff (a : Nat) : Nat := bitsOf a 37 0

/-- The training states of R518. -/
def portState (s : State) (p : Nat) : Nat := getF s (fLNKSTAT_STATE p)
def portUp (s : State) (p : Nat) : Bool := decide (p < 8) && portState s p == 6

/-- Whether new operations toward a port wait: from DRAIN until UNDRAIN has gone out (R545). -/
def portHolds (s : State) (p : Nat) : Bool := isSet s (fLNKCTL_DRAIN p) || (getPort s p).peerDrain || (getPort s p).undrain

/-! ### Flits (R521, R524, R528, R529) -/

def vcCredit (s : State) (p v : Nat) : Nat := bitsOf (getF s (fVCCRED_CRED p)) (16 * v + 15) (16 * v)
def setVcCredit (s : State) (p v n : Nat) : State :=
  setF s (fVCCRED_CRED p) (putBits (getF s (fVCCRED_CRED p)) (16 * v + 15) (16 * v) n)

def padTo (n : Nat) (bs : List Byte) : List Byte := bs ++ List.replicate (n - bs.length) 0#8

/-- The 256 bytes of a flit. -/
def flitBytes (s : State) (p seq flags crvc credit sop : Nat) (payload : List Byte) : List Byte :=
  let body := leBytes 2 seq ++ leBytes 2 (getPort s p).rxSeq ++ leBytes 1 flags ++ leBytes 1 crvc ++ leBytes 2 credit ++
    leBytes 1 sop ++ leBytes 1 0 ++ leBytes 2 (getF s (fLNKSESS_LINKID p)) ++ padTo 240 payload
  body ++ leBytes 4 (crc32 body)

def laneOn (s : State) (p l : Nat) : Bool := getBit s (fLANEMAP_ACTIVE p) l
def laneHedged (s : State) (p l : Nat) : Bool := getBit s (fLANEMAP_HEDGED p) l
def activeLanes (s : State) (p : Nat) : Nat := ((List.range 16).filter (laneOn s p)).length

/-- The lane of the flit that follows after `i` others (R523): the active lanes in ascending order take them in turn. -/
def laneOf (s : State) (p i : Nat) : Nat :=
  let l := (List.range 16).filter (laneOn s p)
  l.getD (((getPort s p).txIdx + i) % l.length) 0

/-- Put a flit on the fibre, on the lane that its transmission index gives: it carries the present ACK. -/
def emit (s : State) (p : Nat) (bs : List Byte) : State :=
  modPort { s with wire := s.wire ++ [(p, laneOf s p 0, bs)] } p (fun x => { x with owes := false, sentAt := tick s, txIdx := x.txIdx + 1 })

/-- The credit that the next flit returns: virtual channel and flits. -/
def owedCredit (x : Port) : Nat × Nat :=
  match (List.range 3).find? (fun v => decide (0 < x.owed.getD v 0)) with
  | some v => (v, min (x.owed.getD v 0) 1024)
  | none => (0, 0)

def payCredit (s : State) (p : Nat) (c : Nat × Nat) : State :=
  modPort s p (fun x => { x with owed := listModify x.owed c.1 (fun n => n - c.2) })

/-- An IDLE flit: ACK, credit, and NAK where asked (R525, R530). -/
def sendIdle (s : State) (p : Nat) (nak : Bool) : State :=
  let x := getPort s p
  let c := owedCredit x
  emit (payCredit s p c) p (flitBytes s p x.txSeq (16 + (if nak then 4 else 0)) c.1 c.2 15 [])

def TxFlit.bytes (s : State) (p : Nat) (f : TxFlit) : List Byte :=
  flitBytes s p f.seq (f.vc + (if f.ctrl then 8 else 0)) f.crvc f.credit f.sop f.payload

/-- A log entry of a port (R611 kind 0x0F). -/
def logLink (s : State) (p cause rclass res flags : Nat) : State :=
  logPut s { LogEntry.blank with
    kind := 0x0F, cause := cause, rclass := rclass, res := res, flags := flags,
    data := [(regGet s (rLNKSTAT p)).toNat, (regGet s (rLANEMAP p)).toNat] }

/-! ### Lanes (R531) -/

/-- Put a lane in or out of the stripe. -/
def setLane (p : Nat) (s : State) (l : Nat) (on : Bool) : State :=
  let s := setBit s (fLANEMAP_ACTIVE p) l on
  setF s (fLNKSTAT_ACTIVE p) (activeLanes s p)

/-- Carry out the changes of the stripe whose flit is due (R531): `rx` the receiving direction. -/
def applyLanes (s : State) (p : Nat) (rx : Bool) : State :=
  let x := getPort s p
  let due := fun (c : LaneChange) => c.rx == rx && c.seq == (if rx then (x.rxSeq + 1) % 65536 else x.txSeq)
  let s := modPort s p (fun x => { x with lanes := x.lanes.filter (fun c => !due c) })
  forEach (x.lanes.filter due) (fun s c => logLink (setLane p s c.lane c.on) p 6 0 0 0) s

/-- Send a sequenced flit and keep it for replay (R524). -/
def sendFlit (s : State) (p vc : Nat) (ctrl : Bool) (sop : Nat) (payload : List Byte) : State :=
  let x := getPort s p
  let c := owedCredit x
  let f : TxFlit := ⟨x.txSeq, vc, ctrl, c.1, c.2, sop, payload, tick s⟩
  let s := emit (payCredit s p c) p (f.bytes s p)
  let s := modPort s p (fun x => { x with
    txSeq := (x.txSeq + 1) % 65536, buf := x.buf ++ [f],
    progress := if x.buf.isEmpty then tick s else x.progress })
  applyLanes (bump s (⟨rFLITTX p, 63, 0⟩ : Fld) 1) p false

/-- Send again every flit of the replay buffer, in order (R526). -/
def replayAll (s : State) (p : Nat) : State :=
  let fs := (getPort s p).buf
  let s := bump s (fREPLAYCNT_REPLAYS p) 1
  let s := forEach fs (fun s f => bump (emit s p (f.bytes s p)) (⟨rFLITTX p, 63, 0⟩ : Fld) 1) s
  modPort s p (fun x => { x with buf := x.buf.map (fun f => { f with sent := tick s }) })

/-- Take up to `room` payload bytes of virtual channel `v` from the waiting chunks: the bytes, where in the flit the first
header starts (in units of 16 B; 15 if none does), and what is left. -/
def takeChunks (v : Nat) : Nat → List Chunk → List Byte × Nat × List Chunk
  | _, [] => ([], 15, [])
  | room, c :: cs =>
    if c.vc ≠ v then
      let r := takeChunks v room cs
      (r.1, r.2.1, c :: r.2.2)
    else if room = 0 then ([], 15, c :: cs)
    else
      let now := c.bytes.take room
      let rest := c.bytes.drop room
      let pos := (240 - room) / 16
      if rest.isEmpty then
        let r := takeChunks v (room - now.length) cs
        (now ++ r.1, if c.fresh then pos else r.2.1, r.2.2)
      else (now, if c.fresh then pos else 15, { c with bytes := rest, fresh := false } :: cs)

/-- The class of the packet at the head of a virtual channel. -/
def headCls (x : Port) (v : Nat) : Option Nat := (x.txq.find? (fun c => c.vc == v)).map (fun c => c.cls)

/-- The virtual channel of the next flit (R529): RSP first, then the highest class, then round-robin. -/
def nextVc (s : State) (p : Nat) : Option Nat :=
  let x := getPort s p
  let ok := fun v => (headCls x v).isSome && decide (0 < vcCredit s p v)
  if ok 1 then some 1
  else
    let order := if x.rr = 0 then [2, 0] else [0, 2]
    let cands := order.filter ok
    let best := cands.foldl (fun m v => min m ((headCls x v).getD 3)) 3
    cands.find? (fun v => headCls x v == some best)

/-- Whether the port may send a sequenced flit that is new: the replay buffer has room (R524), and no NAK waits for its replay
(R526). -/
def mayPut (s : State) (p : Nat) : Bool :=
  decide ((getPort s p).buf.length < 4095) && (getPort s p).nakIn.isNone

/-- Send flits while a virtual channel has bytes and credit (R524, R529). -/
def pumpN (p : Nat) : Nat → State → State
  | 0, s => s
  | n + 1, s =>
    let x := getPort s p
    if !(portUp s p) || !(mayPut s p) then s
    else match nextVc s p with
      | none => s
      | some v =>
        let r := takeChunks v 240 x.txq
        let s := modPort s p (fun x => { x with txq := r.2.2, rr := if v = 1 then x.rr else v })
        pumpN p n (sendFlit (setVcCredit s p v (vcCredit s p v - 1)) p v false r.2.1 r.1)

/-- Send a control flit (R530): its type and its arguments.  LANEOFF (1) and LANEON (2) name the flit, 64 ahead, from which the
lane's change holds (R531). -/
def ctlFlit (p : Nat) (s : State) (kind : Nat) (args : List Byte) : State :=
  if kind = 1 ∨ kind = 2 then
    let at_ := ((getPort s p).txSeq + 64) % 65536
    let s := modPort s p (fun x => { x with lanes := x.lanes ++ [⟨leVal (args.take 1), kind == 2, false, at_⟩] })
    sendFlit s p 0 true 15 (Config.ctlCode kind :: (args ++ leBytes 2 at_))
  else sendFlit s p 0 true 15 (Config.ctlCode kind :: args)

/-- Send the control messages that wait, while the port may send. -/
def pumpCtl (p : Nat) : Nat → State → State
  | 0, s => s
  | n + 1, s =>
    match (getPort s p).ctlq with
    | [] => s
    | c :: cs =>
      if mayPut s p && (portState s p == 5 || portState s p == 6) then
        pumpCtl p n (ctlFlit p (modPort s p (fun x => { x with ctlq := cs })) c.1 c.2)
      else s

/-- Send what waits at a port: control messages, which need no credit (R529), then packets. -/
def pump (s : State) (p : Nat) : State :=
  let s := pumpCtl p (getPort s p).ctlq.length s
  pumpN p (((getPort s p).txq.map (fun c => c.bytes.length)).sum / 16 + 1) s

/-- Send a control message as soon as the port may. -/
def sendCtl (s : State) (p kind : Nat) (args : List Byte) : State :=
  let s := modPort s p (fun x => { x with ctlq := x.ctlq ++ [(kind, args)] })
  pumpCtl p (getPort s p).ctlq.length s

/-! ### Packets (R534 to R536) -/

def Hdr.bytes (h : Hdr) : List Byte :=
  leBytes 1 h.ty ++ leBytes 1 h.attr ++ leBytes 1 h.src ++ leBytes 1 h.status ++ leBytes 2 h.handle ++ leBytes 2 h.tag ++
  leBytes 5 h.off ++ leBytes 1 h.sub ++ leBytes 2 h.len

def Hdr.cls (h : Hdr) : Nat := h.attr % 4
def Hdr.ctx (h : Hdr) : Nat := bitsOf h.attr 5 2
def Hdr.wk (h : Hdr) : Nat := h.handle % 64
def Hdr.gen (h : Hdr) : Nat := bitsOf h.handle 15 12

/-- What tells one operation from another at a port: the sender and the identifier that it gave (R534). -/
def Hdr.key (h : Hdr) : Nat := h.src * 65536 + h.tag

/-- The operation that a reply answers; a grant of wicket credit answers the request that its operation made for it (R478). -/
def replyKey (h : Hdr) : Nat := if h.ty = 0x0A ∧ h.sub = 1 then 2 ^ 24 + h.key else h.key

/-- The virtual channel that a packet type travels on (R528). -/
def vcOf (ty : Nat) : Nat :=
  if ty = 1 ∨ ty = 7 then 2 else if ty = 2 ∨ ty = 5 ∨ ty = 9 then 0 else 1

/-- The payload bytes of a packet in a flit stream, before padding to 16 B (R535). -/
def bodyLen (ty len : Nat) : Nat :=
  match ty with
  | 0x01 | 0x03 | 0x05 | 0x06 | 0x07 | 0x09 | 0x0A => len
  | _ => 0

def roundUp (n m : Nat) : Nat := (n + m - 1) / m * m

def Pkt.bytes (k : Pkt) : List Byte := k.hdr.bytes ++ padTo (roundUp k.body.length 16) k.body

/-- Whether a packet type is a request, whose SRC and TAG are of the module that sends it (R534). -/
def isRequest (ty : Nat) : Bool := ty == 1 || ty == 2 || ty == 5 || ty == 7 || ty == 9

/-- Hand a packet to its virtual channel. -/
def queuePkt (s : State) (p : Nat) (k : Pkt) : State :=
  modPort s p (fun x => { x with txq := x.txq ++ [⟨vcOf k.hdr.ty, k.hdr.cls, if isRequest k.hdr.ty then some k.hdr.key else none, true, k.bytes⟩] })

def sendPkt (s : State) (p : Nat) (k : Pkt) : State := pump (queuePkt s p k) p

/-- The generation that this module uses for wicket `w` of the peer on port `p` (R539). -/
def peerGen (s : State) (p w : Nat) : Nat := bitsOf (getF s (fPWGEN_GEN p (w / 16))) (4 * (w % 16) + 3) (4 * (w % 16))

/-- Remember a request that waits for a reply, and answer its reference. -/
def askRef (s : State) (p : Nat) (h : Hdr) : State × Nat :=
  let n := (getPort s p).nextRef
  (modPort s p (fun x => { x with asked := x.asked ++ [(n, h)], nextRef := n + 1 }), n)

/-- Send the reply to a request that the peer made, if the session still knows it (R537, R538). -/
def sendReply (s : State) (p ref ty status sub len : Nat) (body : List Byte) : State :=
  match ((getPort s p).asked.find? (fun r => r.1 == ref)).map Prod.snd with
  | none => s
  | some h =>
    let s := modPort s p (fun x => { x with asked := x.asked.filter (fun r => r.1 != ref) })
    sendPkt s p ⟨{ h with ty := ty, status := status, sub := sub, len := len }, body⟩

/-- The reply to a full/empty request: the cause and the word's data (R535). -/
def replyFe (s : State) (p ref : Nat) (res : FeRes) : State :=
  match res with
  | .ok v => sendReply s p ref 0x06 0 0 8 (leBytes 8 v.toNat)
  | .cause c => sendReply s p ref 0x06 0 c 8 (leBytes 8 0)

/-! ### Requests of this module (R534 TAG, R536, R478) -/

/-- The SRC byte of a sender (R534). -/
def srcOf : Who → Nat
  | .stream k => k.val
  | .handler m => 64 + m.val

/-- The next identifier of an operation at a port. -/
def newTag (s : State) (p : Nat) : State × Nat :=
  let n := (getPort s p).nextTag
  (modPort s p (fun x => { x with nextTag := (n + 1) % 65536 }), n)

def wallet (s : State) (p w : Nat) : Nat :=
  match (getPort s p).wallets.find? (fun e => e.1 == w) with
  | some e => if e.2.1 = peerGen s p w then e.2.2 else 0
  | none => 0

def setWallet (s : State) (p w n : Nat) : State :=
  modPort s p (fun x => { x with wallets := amSet (fun _ => (0, 0)) x.wallets w (if n = 0 then (0, 0) else (peerGen s p w, n)) })

/-- A header of an operation of this module. -/
def reqHdr (s : State) (a ty src ctx cls tag sub len : Nat) (last : Bool) : Hdr where
  ty := ty
  attr := cls + 4 * ctx + (if last then 64 else 0)
  src := src
  status := 0
  handle := peerGen s (peerPort a) (peerWk a) * 4096 + peerWk a
  tag := tag
  off := peerOff a
  sub := sub
  len := len

/-- The bytes of credit a WR packet spends (R478). -/
def wrCost (k : Pkt) : Nat := roundUp k.body.length 32

def setTxn (s : State) (p : Nat) (t : Txn) : State :=
  modPort s p (fun x => { x with txns := x.txns.map (fun u => if u.tag == t.tag then t else u) })
def dropTxn (s : State) (p tag : Nat) : State :=
  modPort s p (fun x => { x with txns := x.txns.filter (fun u => u.tag != tag) })
def findTxn (s : State) (p tag : Nat) : Option Txn := (getPort s p).txns.find? (fun u => u.tag == tag)

/-- A packet names the generation that is current as it is sent (R539). -/
def withGen (s : State) (p w : Nat) (k : Pkt) : Pkt := { k with hdr := { k.hdr with handle := peerGen s p w * 4096 + w } }

/-- Send what a transaction's credit covers; one that is short asks for credit once (R478). -/
def pumpTxn (p tag : Nat) : Nat → State → State
  | 0, s => s
  | n + 1, s =>
    match findTxn s p tag with
    | none => s
    | some t =>
      match t.todo with
      | [] => s
      | k :: ks =>
        let have_ := wallet s p t.wk
        if wrCost k ≤ have_ then
          pumpTxn p tag n (sendPkt (setTxn (setWallet s p t.wk (have_ - wrCost k)) p { t with todo := ks }) p (withGen s p t.wk k))
        else if t.asked then s
        else
          let s := setTxn s p { t with asked := true }
          let req := max (wrCost k - have_) 4096
          let s := modPort s p (fun x => { x with txns := x.txns ++ [⟨2 ^ 24 + tag, .wicketCredit t.wk, t.wk, 1, 0, [], [], false, none⟩] })
          sendPkt s p ⟨{ (withGen s p t.wk k).hdr with ty := 0x09, sub := 1, len := 4, attr := k.hdr.attr % 64, off := 0 }, leBytes 4 req⟩

/-- The task whose operation a transaction serves, if a stream issued it. -/
def txnTask (s : State) : TxnFor → Option Nat
  | .share op _ => (findOp s op).bind (fun d => match d.who with
    | .stream _ => some d.task
    | .handler _ => none)
  | _ => none

/-- The TAG of an operation: the descriptor's identifier for a DMA channel, else the next one of the port (R534). -/
def tagFor (s : State) (p : Nat) (who : TxnFor) : State × Nat :=
  match who with
  | .dma _ did => (s, did)
  | _ => newTag s p

/-- Start a transaction of sender `src`: register it and answer its tag. -/
def openTxn (s : State) (p : Nat) (who : TxnFor) (src wk left : Nat) (pieces : List Piece) : State × Nat :=
  let r := tagFor s p who
  (modPort r.1 p (fun x => { x with txns := x.txns ++ [⟨src * 65536 + r.2, who, wk, left, 0, pieces, [], false, txnTask s who⟩] }), r.2)

/-- Read ranges of a peer: one RDREQ for each piece, cut at 4,096 bytes (R536). -/
def peerRead (s : State) (who : TxnFor) (src ctx cls : Nat) (rows : List (Nat × Nat × Nat)) : State :=
  match rows with
  | [] => s
  | (a, _, _) :: _ =>
    let p := peerPort a
    let cuts := rows.flatMap (fun r => (cutAt 4096 (r.2.1 / 4096 + 2) (peerOff r.1) r.2.1).map (fun c =>
      (r.1, c.1, c.2, r.2.2 + (c.1 - peerOff r.1))))
    let total := (cuts.map (fun c => c.2.2.1)).sum
    let o := openTxn s p who src (peerWk a) total (cuts.map (fun c => ⟨c.2.1, c.2.2.1, c.2.2.2⟩))
    let n := cuts.length
    let s := forEach ((List.range n).zip cuts) (fun s x =>
      queuePkt s p ⟨{ reqHdr s x.2.1 0x02 src ctx cls o.2 0 x.2.2.2.1 (x.1 + 1 == n) with off := x.2.2.1 }, []⟩) o.1
    pump s p

/-- Write bytes to a peer: WR packets cut at 256 bytes, sent as wicket credit allows (R536, R478). -/
def peerWrite (s : State) (who : TxnFor) (src ctx cls : Nat) (rows : List (Nat × List Byte)) : State :=
  match rows with
  | [] => s
  | (a, _) :: _ =>
    let p := peerPort a
    let cuts := rows.flatMap (fun r => (cutAt 256 (r.2.length / 256 + 2) (peerOff r.1) r.2.length).map (fun c =>
      (r.1, c.1, (r.2.drop (c.1 - peerOff r.1)).take c.2)))
    let n := cuts.length
    let o := openTxn s p who src (peerWk a) n (cuts.map (fun c => ⟨c.2.1, c.2.2.length, 0⟩))
    let pkts := ((List.range n).zip cuts).map (fun x =>
      (⟨{ reqHdr o.1 x.2.1 0x01 src ctx cls o.2 0 x.2.2.2.length (x.1 + 1 == n) with off := x.2.2.1 }, x.2.2.2⟩ : Pkt))
    let key := src * 65536 + o.2
    match findTxn o.1 p key with
    | none => o.1
    | some t => pumpTxn p key (n + 1) (setTxn o.1 p { t with todo := pkts })

/-- The sub-operation and the k of a full/empty request (R535). -/
def feSub : FeAcc → Nat
  | .take .fwait _ => 1
  | .take .ftake _ => 2
  | .fill _ => 3
  | .empty _ => 4
  | .count _ => 5
  | .take (.fcount _ _) _ => 6
  | .take .drain _ => 6

def feBody : FeAcc → List Byte
  | .take (.fcount k chk) wait => leBytes 8 0 ++ leBytes 2 k ++ leBytes 1 ((if wait then 1 else 0) + (if chk then 2 else 0)) ++ leBytes 5 0
  | .take _ wait => leBytes 10 0 ++ leBytes 1 (if wait then 1 else 0) ++ leBytes 5 0
  | .fill v => leBytes 8 v.toNat ++ leBytes 8 0
  | .empty v => leBytes 8 v.toNat ++ leBytes 8 0
  | .count k => leBytes 8 0 ++ leBytes 2 k ++ leBytes 6 0

/-- Ask a peer for a full/empty access (R535). -/
def peerFe (s : State) (who : TxnFor) (src ctx cls a : Nat) (acc : FeAcc) : State :=
  let o := openTxn s (peerPort a) who src (peerWk a) 1 []
  sendPkt o.1 (peerPort a) ⟨reqHdr o.1 a 0x05 src ctx cls o.2 (feSub acc) 16 true, feBody acc⟩

/-- Send a creel message to a peer (R535). -/
def peerMsg (s : State) (who : TxnFor) (src ctx cls a : Nat) (msg : List Byte) : State :=
  let o := openTxn s (peerPort a) who src (peerWk a) 1 []
  sendPkt o.1 (peerPort a) ⟨reqHdr o.1 a 0x07 src ctx cls o.2 0 msg.length true, msg⟩

/-- Ask a peer's creel for credit (R426, R478). -/
def peerCredit (s : State) (w : Who) (key ctx cls a n : Nat) : State :=
  let o := openTxn s (peerPort a) (.creelCredit w key) (srcOf w) (peerWk a) 1 []
  sendPkt o.1 (peerPort a) ⟨reqHdr o.1 a 0x09 (srcOf w) ctx cls o.2 2 4 true, leBytes 4 n⟩

end Sys2Proof.Machine
end

