-- ==== Sys2Proof/Machine/Creel.lean ====
section
/-! DEFINITION. Creels (spec/10 R416 to R434): rings, credit pools, grants, entries and the accounts of senders.  Creels 0 to
511 are the receive creels of the cores, 512 to 575 the host's (R416). -/

namespace Sys2Proof.Machine

open Sys2Proof

/-! ### A creel's registers, whichever block they lie in -/

def crlHost (c : Nat) : Bool := decide (512 ≤ c)
def crlPick (c : Nat) (core : Nat → Nat → Nat → Fld) (host : Nat → Fld) : Fld :=
  if crlHost c then host (c - 512) else core (c / 64) (c / 8 % 8) (c % 8)

def crlEN (c : Nat) : Fld := crlPick c fCRLCFG_EN fHCRLCFG_EN
def crlGEN (c : Nat) : Fld := crlPick c fCRLCFG_GEN fHCRLCFG_GEN
def crlCTX (c : Nat) : Fld := crlPick c fCRLCFG_CTX fHCRLCFG_CTX
def crlSIZE (c : Nat) : Fld := crlPick c fCRLCFG_SIZE fHCRLCFG_SIZE
def crlQUIET (c : Nat) : Fld := crlPick c fCRLCFG_QUIET fHCRLCFG_QUIET
def crlTAIL (c : Nat) : Fld := crlPick c fCRLPTR_TAIL fHCRLPTR_TAIL
def crlHEAD (c : Nat) : Fld := crlPick c fCRLPTR_HEAD fHCRLPTR_HEAD
def crlPOOL (c : Nat) : Fld := crlPick c fCRLCRED_POOL fHCRLCRED_POOL
def crlWAITREQ (c : Nat) : Fld := crlPick c fCRLCRED_WAITREQ fHCRLCRED_WAITREQ
def crlGRANTQ (c : Nat) : Fld := crlPick c fCRLCRED_GRANTQ fHCRLCRED_GRANTQ
def crlOCC (c : Nat) : Fld := crlPick c fCRLSTAT_OCC fHCRLSTAT_OCC
def crlMSGS (c : Nat) : Fld := crlPick c fCRLSTAT_MSGS fHCRLSTAT_MSGS
def crlSTALE (c : Nat) : Fld := crlPick c fCRLSTAT_STALE fHCRLSTAT_STALE
def crlSTALECNT (c : Nat) : Fld := crlPick c fCRLSTAT_STALECNT fHCRLSTAT_STALECNT

/-- The ring size S (R417). -/
def crlS (s : State) (c : Nat) : Nat := 4096 * 2 ^ min (getF s (crlSIZE c)) 8

/-- The device address of the ring's base: an Orangery address, or a host address of space 0x8 (R419). -/
def crlBase (s : State) (c : Nat) : Nat :=
  if crlHost c then getF s (fHCRLBASE_ADDR (c - 512)) * 4096
  else orgAddr (c / 8) (getF s (fCRLCFG_BASE (c / 64) (c / 8 % 8) (c % 8)) * 4096)

/-- The creel tag in force (R432). -/
def crlTag (s : State) (c : Nat) : Nat := getF s (crlGEN c) * 4096 + c

def tagCreel (tag : Nat) : Nat := tag % 4096
def tagOk (s : State) (tag : Nat) : Bool := decide (tagCreel tag < 576) && crlTag s (tagCreel tag) == tag

/-- The enabled creel of context `ctx` whose ring base is device address `a` (R419). -/
def crlAt (s : State) (ctx a : Nat) : Option Nat :=
  (List.range 576).find? (fun c => isSet s (crlEN c) && crlBase s c == a && getF s (crlCTX c) == ctx)

/-- An arrival under a stale tag is dropped and counted (R433). -/
def crlStale (s : State) (tag : Nat) : State :=
  let c := tagCreel tag
  if c < 576 ∧ tag < 65536 then
    logEvent (bump (setF s (crlSTALE c) 1) (crlSTALECNT c) 1) 0x09 2 0 [tag, crlTag s c, 0, 0]
  else s

/-- Bytes return to a creel's pool (R425, R428). -/
def poolAdd (s : State) (c n : Nat) : State := setF s (crlPOOL c) (getF s (crlPOOL c) + n)
def poolSub (s : State) (c n : Nat) : State := setF s (crlPOOL c) (getF s (crlPOOL c) - n)

/-- Credit of tag `tag` returns to its creel unspent (R424); under a stale tag it is dropped and counted (R433).  The credit
of a peer's creel, which no packet of R535 returns, ends with its account (assumption 9). -/
def creditReturn (s : State) (tag n : Nat) : State :=
  if tag < 65536 ∧ tagOk s tag then
    let c := tagCreel tag
    modCreel (poolAdd s c n) c (fun x => { x with out := x.out - n })
  else crlStale s tag

/-! ### Accounts (R424) -/

def accountOf (l : List Account) (tag : Nat) : Nat := ((l.find? (fun a => a.tag == tag)).map (fun a => a.bytes)).getD 0

/-- The least recently used account of a full set. -/
def oldestAccount (l : List Account) : Option Account :=
  l.foldl (fun o a => match o with
    | none => some a
    | some b => if a.used < b.used then some a else some b) none

/-- Use the account of `tag`, opening it with 0 bytes if there is none; `now`, the count of uses, marks the use.  With `max` accounts in use,
the one used least recently is given up, and its credit is answered to return to its creel. -/
def openAccount (mx now : Nat) (l : List Account) (tag : Nat) : List Account × Option Account :=
  if l.any (fun a => a.tag == tag) then
    (l.map (fun a => if a.tag == tag then { a with used := now } else a), none)
  else if l.length < mx then (l ++ [⟨tag, 0, now⟩], none)
  else match oldestAccount l with
    | none => (l ++ [⟨tag, 0, now⟩], none)
    | some o => (l.filter (fun a => a.tag != o.tag) ++ [⟨tag, 0, now⟩], some o)

def addAccount (l : List Account) (tag n : Nat) : List Account :=
  l.map (fun a => if a.tag == tag then { a with bytes := a.bytes + n } else a)
def subAccount (l : List Account) (tag n : Nat) : List Account :=
  l.map (fun a => if a.tag == tag then { a with bytes := a.bytes - n } else a)

def accountsOf (s : State) : Who → List Account
  | .stream k => (getStr s k.val).accounts
  | .handler m => (getCore s m.val).accounts

def setAccounts (s : State) (w : Who) (l : List Account) : State :=
  match w with
  | .stream k => modStr s k.val (fun t => { t with accounts := l })
  | .handler m => modCore s m.val (fun c => { c with accounts := l })

/-- A sender uses the account of `tag`; an account given up returns its credit (R424). -/
def useAccount (s : State) (w : Who) (tag : Nat) : State :=
  let mx := match w with
    | .stream _ => 16
    | .handler _ => 8
  let r := openAccount mx s.uses (accountsOf s w) tag
  let s := setAccounts { s with uses := s.uses + 1 } w r.1
  match r.2 with
  | some o => creditReturn s o.tag o.bytes
  | none => s

/-- Every account of a sender returns its credit (R424). -/
def closeAccounts (s : State) (w : Who) : State :=
  forEach (accountsOf s w) (fun s a => if a.bytes = 0 then s else creditReturn s a.tag a.bytes) (setAccounts s w [])

/-! ### Entries (R420 to R423, R429) -/

/-- Write an entry into a creel's ring; one of a host creel goes in two posted writes, its first 8 bytes last (R421). -/
def crlWrite (s : State) (c off : Nat) (bs : List Byte) : State :=
  if crlHost c then toHostEntry s (some (getF s (crlCTX c))) (crlBase s c + off) bs else orgWrite s (crlBase s c + off) bs

/-- The 32-byte header of an entry (R420). -/
def crlHeader (kind units flags src tag srcid seq taskid ctx arrive : Nat) : List Byte :=
  leBytes 1 kind ++ leBytes 1 units ++ leBytes 1 flags ++ leBytes 1 src ++ leBytes 2 tag ++ leBytes 2 srcid ++
  leBytes 4 seq ++ leBytes 2 taskid ++ leBytes 1 ctx ++ leBytes 1 0 ++ leBytes 8 arrive ++ leBytes 8 0

/-- The message that a creel writes next: the first to arrive when ORDERED is 0, the least source key, in each sender's
own order, when ORDERED is 1 (R429). -/
def stageNext (ordered : Bool) (l : List StageMsg) : Option StageMsg :=
  l.foldl (fun o m => match o with
    | none => some m
    | some b => if ordered && decide (m.key < b.key) then some m else some b) none

/-- Write a message as an entry at TAIL, after a wrap marker where it does not fit (R420 to R423, R425). -/
def writeEntry (s : State) (c : Nat) (m : StageMsg) : State :=
  let x := getCreel s c
  let size := crlS s c
  let e := m.bytes.length + 32
  let tail := getF s (crlTAIL c)
  let ph := fun (b : Bool) => if b then 128 else 0
  let fits := decide (tail + e ≤ size)
  let w := if fits then 0 else size - tail
  let s := if fits then s
    else crlWrite s c tail (crlHeader 2 (w / 32) (ph x.phase) 0 0 0 0 0 0 (tick s))
  let off := if fits then tail else 0
  let phase := if fits then x.phase else !x.phase
  let s := crlWrite s c off
    (crlHeader 1 (e / 32) (m.flags + ph phase) m.src m.tag m.srcid x.written m.taskid m.ctx (tick s) ++ m.bytes)
  let newTail := if off + e = size then 0 else off + e
  let ent : CrlEntry := ⟨off, e, 0, x.written, m.srcid, tick s⟩
  let empty := x.entries.isEmpty
  let old := if fits then x.entries else
    match x.entries.reverse with
    | [] => []
    | l :: r => ({ l with marker := w } :: r).reverse
  let s := setCreel s c { x with
    entries := old ++ [ent], written := (x.written + 1) % 2 ^ 32,
    phase := if off + e = size then !phase else phase, out := x.out - e }
  let s := setF s (crlTAIL c) newTail
  let s := setF s (crlMSGS c) (getF s (crlMSGS c) + 1)
  -- a marker written while the ring is empty is consumed at once (R423): its bytes never leave the pool
  let s := if empty && !fits then setF s (crlHEAD c) 0 else s
  let s := setF s (crlOCC c) (getF s (crlOCC c) + e + (if empty then 0 else w))
  if empty then s else poolSub s c w

/-- The head entry is consumed, with the marker after it; its bytes return to the pool (R423, R425). -/
def consumeHead (s : State) (c : Nat) : State :=
  let x := getCreel s c
  match x.entries with
  | [] => s
  | e :: es =>
    let s := setCreel s c { x with entries := es }
    let n := e.size + e.marker
    let s := setF s (crlOCC c) (getF s (crlOCC c) - n)
    let s := setF s (crlMSGS c) (getF s (crlMSGS c) - 1)
    let head := if e.marker ≠ 0 then 0 else if e.off + e.size = crlS s c then 0 else e.off + e.size
    poolAdd (setF s (crlHEAD c) head) c n

/-- Put a message at a creel's input stage; one under a stale tag, or for a creel that is not enabled, is dropped and
counted, and its sender sees it as sent (R429, R433).  Answers whether it was taken. -/
def stageMsg (s : State) (c : Nat) (m : StageMsg) : State × Bool :=
  if tagOk s m.tag then
    (modCreel { s with arrivals := s.arrivals + 1 } c
      (fun x => { x with stage := x.stage ++ [{ m with order := s.arrivals, tick := tick s }] }), true)
  else (crlStale s m.tag, false)

/-! ### Wicket credit given to peers (R478, R479) -/

def portGranted (x : Wicket) (p : Nat) : Nat := amGet (fun _ => 0) x.granted p

/-- Spend or void a port's unspent bytes at wicket `w`; the OUT field follows. -/
def setGranted (s : State) (w p n : Nat) : State :=
  let s := modWk s w (fun x => { x with granted := amSet (fun _ => 0) x.granted p n })
  setF s (fWKPOOL_OUT w) ((getWk s w).granted.map Prod.snd).sum

/-- The grant that a wicket's pool allows: multiples of 256 bytes that cover the shortfall (R478). -/
def wicketGrant (pool : Nat) (r : GrantReq) : Option Nat :=
  let g := min (roundUp r.want 256) (pool / 256 * 256)
  if r.short ≤ g ∧ 0 < g then some g else none

/-- Serve the waiting requests of a wicket in order of arrival (R478). -/
def serveWicket (w : Nat) : Nat → State → State
  | 0, s => s
  | n + 1, s =>
    let x := getWk s w
    match x.requests with
    | [] => s
    | r :: rs =>
      match r.dest, wicketGrant (getF s (fWKPOOL_POOL w)) r with
      | .peer p ref, some g =>
        let s := setWk s w { x with requests := rs }
        let s := setF s (fWKPOOL_POOL w) (getF s (fWKPOOL_POOL w) - g)
        let s := setGranted s w p (portGranted (getWk s w) p + g)
        serveWicket w n (sendReply s p ref 0x0A 0 1 8 (leBytes 4 g ++ leBytes 4 0))
      | _, _ => s

/-- Released bytes return to a wicket's pool, and its requests are served (R479). -/
def wicketRelease (s : State) (w n : Nat) : State :=
  let s := setF s (fWKPOOL_POOL w) (min (getF s (fWKPOOL_POOL w) + n) (2 ^ 32 - 1))
  serveWicket w ((getWk s w).requests.length + 1) s

/-! ### Grants (R425, R426) -/

/-- Queue a grant request at a creel; one under a stale tag is dropped and counted (R433). -/
def requestGrant (s : State) (r : GrantReq) : State :=
  if tagOk s r.tag then
    let c := tagCreel r.tag
    let s := modCreel s c (fun x => { x with requests := x.requests ++ [r] })
    setF s (crlWAITREQ c) (getCreel s c).requests.length
  else crlStale s r.tag

/-- The grant that a creel's pool allows for a request, none while it does not cover the shortfall (R425, R426). -/
def grantFor (pool : Nat) (r : GrantReq) : Option Nat :=
  let g := min r.want (pool - 256)
  if r.short ≤ g then some g else none

/-- The plot of a sender on the trellis: pavilions 0 to 7. -/
def plotOf : Who → Nat
  | .stream k => k.val / 2
  | .handler m => m.val / 8

/-- Send a token on the trellis (R546). -/
def sendToken (s : State) (plot : Nat) (kd : TokenKind) : State :=
  { s with tokens := s.tokens ++ [⟨s.nextTok, plot, kd, tick s⟩], nextTok := s.nextTok + 1 }

/-- Withdraw the ring of a creel: every waiting message and request goes (R434). -/
def clearCreel (s : State) (c : Nat) : State :=
  let s := setCreel s c Creel.reset
  setF (setF (setF (setF (setF s (crlHEAD c) 0) (crlTAIL c) 0) (crlMSGS c) 0) (crlOCC c) 0) (crlWAITREQ c) 0

end Sys2Proof.Machine
end

