-- ==== Sys2Proof/Machine/FullEmpty.lean ====
section
/-! DEFINITION. Full/empty words (spec/10 R402 to R414): the effect of every access on a word, its waiters and their order,
acquires and stale marking (spec/04 R121, R122). -/

namespace Sys2Proof.Machine

open Sys2Proof

/-- COUNT and CAP of a counter word (R221). -/
def cntCount (v : Nat) : Nat := bitsOf v 15 0
def cntCap (v : Nat) : Nat := bitsOf v 31 16
def cntPut (v n : Nat) : Nat := putBits v 15 0 n

/-- Whether an Orangery bank is hedged: its full/empty accesses fault as poisoned (R413). -/
def bankHedged (s : State) (w : Nat) : Bool := getBit s (fSLC_BANKHEDGE_HEDGED (orgSlice w)) (bankOf w)

/-- The metadata an access finds: a word of a hedged bank is as if POISONED (R413). -/
def seenMeta (s : State) (w : Nat) : WMeta := if bankHedged s w then .poisoned else metaOf s w

/-- What a taker finds at a word: granted with the value read, a fault, or its condition does not hold (R224, R229). -/
inductive TakeOut where
  | got (v : Nat)
  | fault (c : Nat)
  | notYet
deriving DecidableEq, Repr

def tryTake (s : State) (w : Nat) (kd : TakeKind) : TakeOut :=
  match seenMeta s w with
  | .poisoned => .fault 0x0A
  | m =>
    let v := wordVal s w
    match kd with
    | .fwait | .ftake => if m = .full then .got v else .notYet
    | .fcount k chk =>
      if cntCount v < k then .notYet
      else if chk && cntCount v != k then .fault 0x09
      else .got v
    | .drain => if cntCount v = 0 then .notYet else .got v

/-- A word is empty: no settle interval of it runs any more (R407). -/
def emptyWord (s : State) (w : Nat) : State := { setMetaW s w .empty with fullAt := amSet (fun _ => 0) s.fullAt w 0 }

/-- What a taken counter leaves: its word FULL while its COUNT is not 0 (R229).  One that was EMPTY becomes FULL then, and its
settle interval starts (R407). -/
def countedDown (s : State) (w n : Nat) : State :=
  if n = 0 then emptyWord s w
  else
    let s' := setMetaW s w .full
    if metaOf s w = .empty ∧ isSet s fGATE_MODECFG_ORDERED = true then { s' with fullAt := amSet (fun _ => 0) s.fullAt w (tick s + 1) } else s'

/-- What a granted taker leaves: FWAIT changes nothing, FTAKE empties, FCOUNT− takes k (R403, R229). -/
def doTake (s : State) (w : Nat) (kd : TakeKind) : State :=
  match kd with
  | .fwait => s
  | .ftake => emptyWord s w
  | .fcount k _ =>
    let v := wordVal s w
    countedDown (setWord s w (cntPut v (cntCount v - k))) w (cntCount v - k)
  | .drain => emptyWord (setWord s w (cntPut (wordVal s w) 0)) w

/-! ### Stops of a stream -/

/-- Whether the cycles of a wait are planned-wait cycles (R194, R238, R239). -/
def Wait.planned : Wait → Bool
  | .none_ => false
  | .commit2 => false
  | _ => true

/-- The cycles of a wait under way that count as planned-wait cycles (R194, R247). -/
def waitedNow (s : State) (t : Stream) : Nat := if t.wait.planned then cyclesSince s t.waitSince else 0

/-- Count the cycles for which stream `k` has waited (STRWAIT, R247). -/
def countWait (k : Nat) (s : State) : State :=
  let t := getStr s k
  if t.wait.planned then bump s (fSTRWAIT_CYCLES (k / 2) (k % 2)) (cyclesSince s t.waitSince) else s

/-- The cycles of a dynamic hold under way (R446); one in which a pre-emption has been requested stops nothing any more (R389),
unless its macro-op must still issue. -/
def heldNow (s : State) (t : Stream) : Nat :=
  if t.st = .held ∧ t.held.isSome = true ∧ (t.preempt = none ∨ t.obliged = true) then cyclesSince s t.heldAt else 0

/-- Count the cycles for which stream `k` has been held (STRHOLDCY, R446, R481). -/
def countHold (k : Nat) (s : State) : State :=
  let t := getStr s k
  if heldNow s t = 0 then s else bump s (fSTRHOLDCY_CYCLES (k / 2) (k % 2)) (heldNow s t)

/-- The tracker entries of a stream's full/empty macro-op are released at its completion (R444). -/
def closeWords (t : Stream) : Stream := { t with ranges := t.ranges.filter (fun r => !(r.static && r.until_ == 0)) }

/-- Leave no waiter of stream `k`'s own accesses at a word (R405). -/
def dropLocalWaiters (k : Nat) (s : State) : State :=
  { s with waiters := s.waiters.filter (fun w => match w.agent with
    | .local_ j _ => j != k
    | _ => true) }

/-- Withdraw a remote access of this module: from its sub-bank and from its word, so that it has no effect (R405, R415). -/
def dropRemote (s : State) (op : Nat) : State :=
  { dropOp s op with
    bankq := s.bankq.filter (fun b => b.dest != .remote op),
    waiters := s.waiters.filter (fun w => w.agent != .remote op) }

/-- Withdraw the take at a peer for which a pre-empted stream still has no reply (R405). -/
def dropParked (s : State) (t : Stream) : State :=
  match t.parked with
  | some (.reply op _ _ _, _, none) => dropRemote s op
  | _ => s

/-- Withdraw the accesses of the waiting macro-op of stream `k` (R389, R405). -/
def withdraw (k : Nat) (s : State) : State :=
  let s := dropParked (dropLocalWaiters k s) (getStr s k)
  match (getStr s k).wait with
  | .reply op _ _ _ => dropRemote s op
  | _ => s

/-- Stop stream `k` with end cause `c`: the bandstand issues no later macro-op of the task (R207), and leaves no waiter at a
word (R405).  The cycles of a wait or a hold that ends here are counted. -/
def stopStream (k c : Nat) (s : State) : State :=
  modStr (withdraw k (countWait k (countHold k s))) k (fun t => { closeWords t with
    st := .ending, wait := .none_, held := none, parked := none, ended := some c })

/-- Whether a wait ends before the stream's next issue slot, so that a fault that comes back to the stream acts only after it
(R226, R410; assumption 78). -/
def Wait.outlasts : Wait → Bool
  | .words _ _ _ _ => true
  | .reply _ _ _ _ => true
  | .credit _ _ _ => true
  | .fence _ _ => true
  | _ => false

/-- A fault of cause `c` has come back to stream `k`: its task ends at its next issue slot (R226, R410). -/
def stopLate (k c : Nat) (s : State) : State :=
  if (getStr s k).wait.outlasts then modStr s k (fun t => { t with late := some (t.late.getD c) }) else stopStream k c s

/-- Record a skip of the macro-op at index `idx` of a task on stream `k` (R206, R209): the skip flag, its cause and index,
the counter, and the log entry with its operand values. -/
def noteSkip (k ctx task c idx : Nat) (data : List Nat) (s : State) : State :=
  let n := k / 2
  let j := k % 2
  let s := setF (setF (setF s (fSTRSKIP_SKIP n j) 1) (fSTRSKIP_CAUSE n j) c) (fSTRSKIP_PC n j) idx
  let s := bump s (fSTRSKIPCNT_COUNT n j) 1
  logPut s { LogEntry.blank with
    kind := 0x01, cause := c, ctx := ctx, stream := k, task := task, pc := idx, data := data }

/-- Skip the macro-op at index `idx`: the skip is recorded, and the task ends (R206, R207). -/
def skip (k c idx : Nat) (data : List Nat) (s : State) : State :=
  let t := getStr s k
  stopStream k c (modStr (noteSkip k t.ctx t.task c idx data s) k (fun t => { t with pc := idx, issued := true }))

/-- Stream `k` goes on after a planned wait: the cycles it stopped for are counted (STRWAIT), and its next slot starts
`after` cycles from its stopped cycle, and not before its macro-op's slot ends; a fault that came back meanwhile ends its task there (R226, R410). -/
def resumeWait (k after : Nat) (s : State) : State :=
  let late := (getStr s k).late
  let s := modStr (countWait k s) k (fun t => { closeWords t with
    st := .running, wait := .none_, held := none, nextSlot := max t.nextSlot (t.now + after + (if t.check then 1 else 0)) })
  match late with
  | some c => stopStream k c s
  | none => s

/-- The acquire of a guard completes `n` cycles on (R122, R218): the registers are compared in that cycle. -/
def laterAcquire (k n : Nat) (g : Nat × Nat × Nat) (s : State) : State :=
  if g.2.2 = 0 then s else modStr s k (fun t => { t with acq := t.acq ++ [(t.now + n, g)] })

/-- A macro-op has issued: the stream's indices move on (R192). -/
def stepPc (t : Stream) : Stream := { t with pc := t.nextPc, nextPc := t.nextPc + 1, seq := t.seq + 1, issued := true }

/-- Write the destination registers of a take (R223). -/
def writeTaken (t : Stream) (sd sd2 : Option SReg) (v : Nat) : Stream :=
  let t := match sd with
    | some r => setSreg t r.val v
    | none => t
  match sd2 with
  | some r => setSreg t r.val (v / 2 ^ 32)
  | none => t

/-! ### Answers (R404 to R406) -/

/-- Leave a waiter entry at a word (R405). -/
def addWaiter (s : State) (w : Nat) (ag : FeAgent) (key : Nat) (kd : TakeKind) : State :=
  { s with waiters := s.waiters ++ [⟨w, ag, key, kd, s.arrivals, tick s⟩], arrivals := s.arrivals + 1 }

/-- The access of a dynamic operation has been performed at its word: its share is done, whatever its outcome (R237). -/
def sharesDone (s : State) (op st : Nat) : State :=
  match findOp s op with
  | some d => setOp s op { d with shares := d.shares.map (fun x => { x with st := .done st }) }
  | none => s

/-- Tell an agent the outcome of its access.  A stream whose own words have all answered acquires its guard and goes on
three cycles after the access (R218, R219); one that meets a fault skips its macro-op.  A peer's request is answered on
its port, a DMA channel has its request or ends its descriptor (R470), and a wicket adds what it drained and waits again
(R479). -/
def answer (s : State) (ag : FeAgent) (res : FeRes) : State :=
  match ag with
  | .local_ k core =>
    let t := getStr s k
    match t.wait, res with
    | .words todo sd sd2 g, .ok v =>
      let todo := todo.filter (fun m => m != core)
      let s := modStr s k (fun t => writeTaken { t with
        wait := .words todo sd sd2 g,
        held := match t.held with
          | some (.fwait w gap o) => some (.fwait w gap o)
          | _ => none } sd sd2 v.toNat)
      if todo.isEmpty then resumeWait k 3 (laterAcquire k 3 g s) else s
    | .words _ _ _ _, .cause c => skip k c t.pc t.data s
    | _, _ => s
  | .remote op =>
    match findOp s op with
    | some d => sendToken (sharesDone s op 0) (plotOf d.who) (.reply op res)
    | none => s
  | .peer port _ ref => replyFe s port ref res
  | .dma ch =>
    match res with
    | .ok _ => modChan s ch (fun c => if c.st = .waiting then { c with st := .running, token := true } else c)
    | .cause _ => modChan s ch (fun c => if c.st = .waiting then { c with st := .ending, status := 0x0A } else c)
  | .drain wk =>
    match res with
    | .ok v =>
      let s := wicketRelease s wk (256 * cntCount v.toNat)
      if isSet s (fWKRELW_EN wk) then addWaiter s (getF s (fWKRELW_ADDR wk) * 8) (.drain wk) (320 + wk) .drain else s
    | .cause _ => s

/-- The outcome of an access that met an uncorrectable word (R274, R275; assumption 79): a local word is delivered as it was
read, and its stream issues nothing more of its task; a dynamic access fails. -/
def badWord (s : State) (ag : FeAgent) (v : Nat) : State :=
  match ag with
  | .local_ k _ =>
    answer (modStr s k (fun t => { t with late := some (t.late.getD (endHedged 3)) })) ag (.ok (BitVec.ofNat 64 v))
  | .peer port _ ref => sendReply s port ref 0x06 1 0 8 (leBytes 8 0)
  | .dma ch => modChan s ch (fun c => if c.st = .waiting then { c with st := .ending, status := 1 } else c)
  | _ => answer s ag (.cause 0x0A)

/-- Grant a taker whose condition holds at word `w`, which reads as `v` (R403). -/
def grantTake (s : State) (w : Nat) (kd : TakeKind) (ag : FeAgent) (v : Nat) : State :=
  let s := noteWord s w 0
  if orgErrAt s w = 2 then
    badWord (match ag, kd with
      | .local_ _ _, .ftake => doTake s w kd
      | _, _ => s) ag v
  else answer (doTake s w kd) ag (.ok (BitVec.ofNat 64 v))

/-! ### Accesses (R403 to R410) -/

def ordered (s : State) : Bool := isSet s fGATE_MODECFG_ORDERED

/-- Whether device address `a` lies in an open wicket whose PERM has FE or CREEL set (R503). -/
def inSharedWicket (s : State) (a : Nat) : Bool :=
  (List.range 64).any (fun k => isSet s (fWKCTL_EN k) && (getBit s (fWKCTL_PERM k) 2 || getBit s (fWKCTL_PERM k) 3) &&
    decide (getF s (fWKBASE_BASE k) * 4096 ≤ a) && decide (a < (getF s (fWKBASE_BASE k) + getF s (fWKSIZE_PAGES k)) * 4096))

/-- Whether `n` reference ticks complete the settle interval of the word or ring at `a`: 200 ticks in such a wicket, 128
store-die cycles elsewhere (R407, R503). -/
def settledFor (s : State) (a n : Nat) : Bool :=
  if inSharedWicket s a then decide (200 ≤ n) else decide (128 ≤ cyclesSince s (tick s - n))

/-- Whether a waiter is a taker of word `w` (R406). -/
def isTaker (w : Nat) (x : Waiter) : Bool := x.word == w && x.kind != .fwait

/-- The takers at `w` in grant order: arrival when ORDERED is 0, source key when it is 1 (R407). -/
def takersOf (s : State) (w : Nat) : List Waiter :=
  let l := s.waiters.filter (isTaker w)
  if ordered s then sortBy (fun a b => decide (a.key ≤ b.key)) l else l

def dropWaiter (s : State) (x : Waiter) : State := { s with waiters := s.waiters.filter (fun y => y != x) }

/-- Examine takers in order: each whose condition holds is granted in turn, until the word is EMPTY (R406). -/
def examine (w : Nat) : List Waiter → State → State
  | [], s => s
  | x :: xs, s =>
    if metaOf s w = .empty then s
    else match tryTake s w x.kind with
      | .got v => examine w xs (grantTake (dropWaiter s x) w x.kind x.agent v)
      | .fault c => examine w xs (answer (dropWaiter s x) x.agent (.cause c))
      | .notYet => examine w xs s

/-- The tasks that wait for their readiness word, in order of acceptance. -/
def watchers (s : State) : List (Nat × Task) :=
  sortBy (fun a b => decide (a.2.order ≤ b.2.order)) ((s.tasks.filterMap (fun p => p.2.map (fun t => (p.1, t)))).filter
    (fun p => p.2.body.rdy && p.2.word == 0 && p.2.st == .waiting))

def setTask (s : State) (i : Nat) (t : Option Task) : State := { s with tasks := amSet (fun _ => none) s.tasks i t }
def getTask (s : State) (i : Nat) : Option Task := amGet (fun _ => none) s.tasks i

/-- The words that the Gatehouse watches: the first 1,024 of those that tasks wait for (R370). -/
def watchedWords (s : State) : List Nat := (((watchers s).map (fun p => p.2.body.ready)).eraseDups).take 1024

/-- The Gatehouse sees word `w` full (1) or poisoned (2) for the tasks that watch it (R370). -/
def seeReady (s : State) (w v : Nat) : State :=
  if (watchedWords s).contains w then
    forEach (watchers s) (fun s p => if p.2.body.ready = w then setTask s p.1 (some { p.2 with word := v }) else s) s
  else s

/-- An access has left word `w` FULL or POISONED: deal with its waiters (R406); with ORDERED set the takers wait for the
settle interval (R407). -/
def wake (s : State) (w : Nat) : State :=
  match metaOf s w with
  | .empty => s
  | .poisoned =>
    let l := s.waiters.filter (fun x => x.word == w)
    forEach l (fun s x => answer (dropWaiter s x) x.agent (.cause 0x0A)) (seeReady s w 2)
  | .full =>
    let s := seeReady s w 1
    let l := s.waiters.filter (fun x => x.word == w && x.kind == .fwait)
    let v := wordVal s w
    let s := forEach l (fun s x => grantTake (dropWaiter s x) w .fwait x.agent v) s
    if ordered s then
      if amGet (fun _ => 0) s.fullAt w = 0 then { s with fullAt := amSet (fun _ => 0) s.fullAt w (tick s + 1) } else s
    else examine w (takersOf s w) s

/-- Set a word's metadata, and deal with its waiters. -/
def markWord (s : State) (w : Nat) (m : WMeta) : State :=
  let was := metaOf s w
  let s := setMetaW s w m
  let s := if m = .empty ∨ was = .empty then { s with fullAt := amSet (fun _ => 0) s.fullAt w 0 } else s
  wake s w

/-- Store a word's data and metadata, and deal with its waiters. -/
def putWord (s : State) (w v : Nat) (m : WMeta) : State := markWord (setWord s w v) w m

/-- Poison a word, keeping its data (R412). -/
def poisonWord (s : State) (w : Nat) : State := wake (setMetaW s w .poisoned) w

/-- Perform one access at word `w` for an agent, and answer it (R403, R404, R409).  With ORDERED set a taker that finds the word
FULL waits for the settle interval (R407). -/
def feAccess (s : State) (w : Nat) (ag : FeAgent) (key : Nat) (acc : FeAcc) : State :=
  match acc with
  | .take kd wait =>
    if ordered s && wait && kd != .fwait && seenMeta s w == .full then addWaiter s w ag key kd
    else match tryTake s w kd with
      | .got v => wake (grantTake s w kd ag v) w
      | .fault c => answer s ag (.cause c)
      | .notYet => if wait then addWaiter s w ag key kd else answer s ag (.cause 0x08)
  | .fill v =>
    match seenMeta s w with
    | .empty => answer (putWord s w v.toNat .full) ag (.ok 0)
    | .full => answer s ag (.cause 0x07)
    | .poisoned => answer s ag (.cause 0x0A)
  | .empty v =>
    if bankHedged s w then answer s ag (.cause 0x0A) else answer (putWord s w v.toNat .empty) ag (.ok 0)
  | .count k =>
    let v := wordVal s w
    if seenMeta s w = .poisoned then answer s ag (.cause 0x0A)
    else if orgErrAt s w = 2 then badWord (noteWord s w 2) ag 0
    else if cntCount v + k ≤ cntCap v then
      let s := noteWord s w 2
      answer (putWord s w (cntPut v (cntCount v + k)) (if cntCount v + k = 0 then .empty else .full)) ag (.ok 0)
    else answer s ag (.cause 0x07)

/-- What an access finds without performing it: the cause it would fault with, 0 for none (R403). -/
def feCause (s : State) (w : Nat) (acc : FeAcc) : Nat :=
  match acc, seenMeta s w with
  | .fill _, .empty => 0
  | .fill _, .full => 0x07
  | .fill _, .poisoned => 0x0A
  | .empty _, _ => if bankHedged s w then 0x0A else 0
  | .count _, .poisoned => 0x0A
  | .count k, _ => if cntCount (wordVal s w) + k ≤ cntCap (wordVal s w) then 0 else 0x07
  | .take kd wait, _ => match tryTake s w kd with
    | .got _ => 0
    | .fault c => c
    | .notYet => if wait then 0 else 0x08

/-- Perform a completion on its word: a FILL of `v` or a COUNT of 1, or the poisoning of a failure (R178, R179, R403).
Answers whether it overflowed; an overflow leaves the word POISONED (R410). -/
def completeWord (s : State) (w v : Nat) (count failed : Bool) : State × Bool :=
  if seenMeta s w = .poisoned then (s, false)
  else if failed then
    ((if !count && metaOf s w == .empty then wake (setMetaW (setWord s w v) w .poisoned) w else poisonWord s w), false)
  else if count then
    let x := wordVal s w
    let s := noteWord s w 2
    if orgErrAt s w = 2 then (s, false)
    else if cntCount x + 1 ≤ cntCap x then (putWord s w (cntPut x (cntCount x + 1)) .full, false)
    else (poisonWord s w, true)
  else match metaOf s w with
    | .empty => (putWord s w v .full, false)
    | _ => (poisonWord s w, true)

end Sys2Proof.Machine
end

