-- ==== Sys2Proof/Machine/Gate.lean ====
section
/-! DEFINITION. Shared operations of the Gatehouse (spec/09): ends of tasks and commands, completion records waiting to be
written, poisoning of outputs, slot plans, and the settling of streams whose task has ended. -/

namespace Sys2Proof.Machine

open Sys2Proof

def getQ (s : State) (c q : Nat) : Queue := amGet (fun _ => Queue.reset) s.queues (8 * c + q)
def setQ (s : State) (c q : Nat) (x : Queue) : State :=
  { s with queues := amSet (fun _ => Queue.reset) s.queues (8 * c + q) x }
def modQ (s : State) (c q : Nat) (f : Queue → Queue) : State := setQ s c q (f (getQ s c q))

def getBin (s : State) (c i : Nat) : Bin := amGet (fun _ => Bin.reset) s.bins (256 * c + i)
def setBin (s : State) (c i : Nat) (b : Bin) : State :=
  { s with bins := amSet (fun _ => Bin.reset) s.bins (256 * c + i) b }

/-- Every task that has been accepted and whose entry is not free, with its index. -/
def taskList (s : State) : List (Nat × Task) := s.tasks.filterMap (fun p => p.2.map (fun t => (p.1, t)))

def TaskSt.isEnded : TaskSt → Bool
  | .ended _ _ => true
  | _ => false

/-- Tasks accepted and not ended (R367). -/
def unended (s : State) : List (Nat × Task) := (taskList s).filter (fun p => !p.2.st.isEnded)

/-- The task of a 16-bit ID, if the ID's generation is the current one (R371, R372). -/
def taskById (s : State) (id : Nat) : Option Task :=
  match getTask s (id % 4096) with
  | some t => if t.id = id then some t else none
  | none => none

/-- An arrival under a stale task ID (R372). -/
def staleTask (s : State) (id : Nat) : State :=
  logEvent (bump s fGATE_STALECNT_COUNT 1) 0x09 1 0 [id, amGet (fun _ => 0) s.gens (id % 4096), 0, 0]

/-! ### Commands and records -/

/-- The codes of QSTAT.STATE (R401). -/
def qDisabled : Nat := 0
def qRunning : Nat := 1
def qStopped : Nat := 2
def qError : Nat := 3
def qFull : Nat := 4
def qCapacity : Nat := 5
def qKilled : Nat := 6

def qState (s : State) (c q : Nat) : Nat := getF s (fQSTAT_STATE c q)

/-- A queue stops in a state of QSTAT, with the status that stopped it. -/
def setStopped (s : State) (c q st cause : Nat) : State := setF (setF s (fQSTAT_STATE c q) st) (fQSTAT_CAUSE c q) cause

/-- Stop a queue where no record tells of it: it raises its vector at once (R578). -/
def stopQueue (s : State) (c q st cause : Nat) : State := raiseVec (setStopped s c q st cause) (getF s (fQCTL_VEC c q))

/-- Stop a queue by the command whose record it has just taken: its message follows that record (R578). -/
def stopAtRec (s : State) (c q st cause : Nat) : State :=
  modQ (setStopped s c q st cause) c q (fun x => { x with
    recs := x.recs.dropLast ++ x.recs.getLast?.toList.map (fun r => { r with stops := true }) })

def pushRec (s : State) (c q : Nat) (r : Rec) : State := modQ s c q (fun x => { x with recs := x.recs ++ [r] })

/-- A command that names no task completes: its record waits to be written. -/
def recOf (cm : Cmd) (status detail : Nat) : Rec where
  key := cm.key
  status := status
  opcode := cm.opcode
  tag := cm.tag
  taskid := 0
  flags := 0
  node := 0
  doorbell := cm.doorbell
  seqs := []
  pos := cm.pos
  detail := detail
  stream := 0xFF
  attempts := 0
  irq := bitOf cm.flags 2
  quiet := bitOf cm.flags 3
  free := none
  stops := false

/-- The record of a task or a node (R357). -/
def taskRec (i : Nat) (t : Task) (cm : Cmd) (status detail : Nat) : Rec where
  key := cm.key
  status := status
  opcode := cm.opcode
  tag := cm.tag
  taskid := t.id
  flags := (if t.dlprom then 2 else 0) + (if t.preempted then 4 else 0) + (if t.retried then 8 else 0) +
    (if t.coll then 16 else 0) + (if t.node.isSome then 32 else 0)
  node := t.node.getD 0
  doorbell := t.doorbell
  seqs := t.body.seqs
  pos := cm.pos
  detail := detail
  stream := t.last.getD 0xFF
  attempts := t.attempts
  irq := bitOf cm.flags 2
  quiet := bitOf cm.flags 3
  free := some i
  stops := false

/-- Record that a task of a command has ended: the command forgets it, and keeps the lowest failed node (R359). -/
def cmdTaskEnded (cm : Cmd) (t : Task) (status detail : Nat) : Cmd :=
  { cm with
    tasks := cm.tasks.filter (fun i => i != t.id),
    bad := match t.node with
      | some n =>
        if status = 0 then cm.bad
        else match cm.bad with
          | some b => if n < b.1 then some (n, status, detail) else cm.bad
          | none => some (n, status, detail)
      | none => cm.bad }

/-- Complete the GRAPH and KILL commands of queue (c, q) that wait for no task any more (R347, R359). -/
def completeCmds (s : State) (c q : Nat) : State :=
  let x := getQ s c q
  let done := x.cmds.filter (fun cm => (cm.opcode == 2 || cm.opcode == 8) && cm.tasks.isEmpty)
  let s := setQ s c q { x with cmds := x.cmds.filter (fun cm => !((cm.opcode == 2 || cm.opcode == 8) && cm.tasks.isEmpty)) }
  forEach done (fun s cm => pushRec s c q (match cm.bad with
    | some b => { recOf cm b.2.1 b.2.2 with node := b.1 }
    | none => recOf cm 0 cm.detail)) s

/-- End one task with a status and DETAIL (R358, R360): its state, its record where it writes one, its successors'
predecessors. -/
def endOne (s : State) (i status detail : Nat) : State :=
  match getTask s i with
  | none => s
  | some t =>
    if t.st.isEnded then s
    else
      let s := setTask s i (some { t with st := .ended status detail, endTick := tick s, saved := none })
      let s := { s with slots := s.slots.filter (fun u => u.task != i) }
      let x := getQ s t.ctx t.q
      let own := x.cmds.find? (fun cm => cm.key == t.cmd && (cm.opcode == 1 || cm.opcode == 2))
      let s := modQ s t.ctx t.q (fun x => { x with
        cmds := (x.cmds.map (fun cm => if cm.opcode == 1 || cm.opcode == 2 || cm.opcode == 8 then
            (if cm.opcode == 8 then { cm with tasks := cm.tasks.filter (fun j => j != t.id) }
             else if cm.key == t.cmd then cmdTaskEnded cm t status detail else cm) else cm)).filter
          (fun cm => !(cm.opcode == 1 && cm.key == t.cmd)) })
      let s := match own with
        | some cm => if cm.opcode == 1 || t.cpl then pushRec s t.ctx t.q (taskRec i t cm status detail) else s
        | none => s
      let s := if status = 0 then
          { s with tasks := s.tasks.map (fun p => (p.1, p.2.map (fun u =>
              if u.ctx == t.ctx && u.q == t.q && u.cmd == t.cmd && u.node.isSome then
                { u with preds := u.preds.filter (fun j => some j != t.node) } else u))) }
        else s
      completeCmds s t.ctx t.q

/-- The unended nodes of a command that have node `n` among their predecessors. -/
def successors (s : State) (t : Task) (n : Nat) : List (Nat × Task) :=
  (unended s).filter (fun p => p.2.ctx == t.ctx && p.2.q == t.q && p.2.cmd == t.cmd && p.2.node.isSome && p.2.preds.contains n)

/-- End a list of tasks, each with its successors after it with PRED_FAILED (R369).  A graph has 256 nodes of at most 16
predecessors, so at most 4,096 ends follow the first. -/
def endTasks : Nat → List (Nat × Nat × Nat) → State → State
  | 0, _, s => s
  | _, [], s => s
  | n + 1, (i, status, detail) :: rest, s =>
    match getTask s i with
    | none => endTasks n rest s
    | some t =>
      if t.st.isEnded then endTasks n rest s
      else
        let s := endOne s i status detail
        let more := if status = 0 then [] else
          match t.node with
          | some nd => (successors s t nd).map (fun p => (p.1, 8, nd))
          | none => []
        endTasks n (rest ++ more) s

def endTask (s : State) (i status detail : Nat) : State := endTasks 4200 [(i, status, detail)] s

/-! ### Streams' shapes, output ranges, plans -/

/-- The slices of a stream in the shape a WIDTH asks for (R376). -/
def slicesOf (width k : Nat) : List Nat :=
  if width ≤ 1 then rangeFrom (8 * (k / 2)) 8 else rangeFrom (8 * (k / 2) + 4 * (k % 2)) 4

def coreHedged (s : State) (m : Nat) : Bool := getBit s fHEDGECORE_MAP m

/-- The cores of a stream in that shape that are not hedged, in ascending order (R378). -/
def hostCores (s : State) (width k : Nat) : List Nat := (slicesOf width k).filter (fun m => !coreHedged s m)

/-- The declared output ranges of a task as Orangery ranges on stream `k`; with no stream, the LOCAL ones are left out
(R351). -/
def outRanges (b : TaskBody) (k : Option Nat) : List (Nat × Nat) :=
  b.outs.flatMap (fun o =>
    if o.1 then
      match k with
      | some k => (slicesOf b.width k).map (fun m => (orgAddr m (o.2.1 % 2 ^ 25), o.2.2))
      | none => []
    else [(o.2.1, o.2.2)])

def inOuts (outs : List (Nat × Nat)) (w : Nat) : Bool := outs.any (fun o => overlaps o.1 o.2 w 8)

/-- Poison every word of a task's declared output ranges (R398, R412). -/
def poisonOuts (s : State) (t : Task) : State :=
  forEach (outRanges t.body t.last) (fun s o =>
    forEach (List.range (o.2 / 8)) (fun s i => poisonWord s (o.1 + 8 * i)) s) s

/-- Remove every reservation of stream `k`; its packets in flight finish in unreserved slots (R266). -/
def removePlan (s : State) (k : Nat) : State :=
  let t := getStr s k
  let s := forEach t.plan (fun s r =>
    setBit (setF s (⟨rORG_PLANOWN r.link, 4 * r.slot + 3, 4 * r.slot⟩ : Fld) 0) (fORG_PLANMASK_MASK r.link) r.slot false) s
  let s := if t.plan.isEmpty then s else { s with
    planRemovals := s.planRemovals + 1,
    packets := s.packets.map (fun p => if p.stream = k then { p with own := false } else p) }
  modStr s k (fun t => { t with plan := [] })

/-! ### Ending a stream's task -/

/-- Whether a stream's task of this ID issued an operation; a handler's belongs to no task. -/
def DynOp.ofTask (d : DynOp) (id : Nat) : Bool :=
  d.task == id && (match d.who with
    | .stream _ => true
    | .handler _ => false)

/-- The operations of a stream in flight, a pre-empted task's among them (R181, R182). -/
def strOps (s : State) (k : Nat) : List (Nat × DynOp) :=
  s.ops.filter (fun p => match p.2.who with
    | .stream j => j.val == k
    | .handler _ => false)

/-- The operations in flight of the task that a stream runs. -/
def opsOf (s : State) (k : Nat) : List (Nat × DynOp) := (strOps s k).filter (fun p => p.2.task == (getStr s k).task)

/-- Discard a stream's commit buffer: the credit of each held message returns (R207, R428). -/
def discardCommit (s : State) (k : Nat) : State :=
  let s := forEach (getStr s k).commit (fun s e => match e with
    | .msg _ tag _ _ bytes => creditReturn s tag (bytes.length + 32)
    | _ => s) s
  modStr s k (fun t => { t with commit := [], releasing := [] })

/-- A stream is free again: it keeps its clock, the binary of its last task (R365), and the ranges of a pre-empted task's
operations (R181).  The registers of its cores stay as the task left them until the next dispatch (R114, R381). -/
def freeStream (s : State) (k : Nat) : State :=
  let t := getStr s k
  let s := removePlan (closeAccounts s (.stream (Fin.ofNat 16 k))) k
  let s := forEach t.cores (fun s m => modCore s m (fun c => { c with left := restTile t })) s
  let s := if t.issued then { s with belvIssued := t.ctx :: s.belvIssued } else s
  setStr s k { Stream.reset with
    now := t.now, nextSlot := t.now + 1, programs := t.programs, routines := t.routines, resident := t.resident,
    ctx := t.ctx, lt := t.lt, check := t.check, ranges := t.ranges.filter (fun r => !r.static) }

/-- Whether a hedged task may be tried again (R396); an attempt that a page fault aborted in YK-8 mode does not count (R462). -/
def mayRetry (s : State) (t : Task) (released : Bool) : Bool :=
  isSet s fGATE_DISPCFG_RETRY && t.body.retry && decide (t.attempts ≤ t.body.maxtry + t.aborts) && !released

/-- End the task of stream `k` by the cause the stream ended with; its operations have completed (R208, R394 to R398,
R462). -/
def finishStream (s : State) (k c : Nat) : State :=
  let st := getStr s k
  let i := st.task % 4096
  let rel := if st.released then 2 ^ 63 else 0
  let s := { s with slots := s.slots.filter (fun u => u.task != i) }
  match getTask s i with
  | none => freeStream s k
  | some t =>
    let gate := fun (s : State) (cause status detail : Nat) => logPut s { LogEntry.blank with
      kind := 0x0B, cause := cause, ctx := t.ctx, stream := k, task := t.id, data := [t.q, status, detail, 0] }
    if c = endCommitted then endTask (freeStream s k) i 0 0
    else if c = endKilled then endTask (poisonOuts (freeStream s k) t) i 7 0
    else if c = endFetch then endTask (freeStream s k) i 3 0x02
    else if c = endYk8 then
      setTask (freeStream s k) i (some { t with st := .retrying k, retried := true, aborts := t.aborts + 1 })
    else if 0x1000 ≤ c then
      if mayRetry s t st.released then
        gate (setTask (freeStream s k) i (some { t with st := .retrying k, retried := true })) 5 6 (c - 0x1000)
      else endTask (poisonOuts (freeStream s k) t) i 6 (c - 0x1000 + rel)
    else endTask (freeStream s k) i (if c = 0x0A then 5 else 4) (c + st.pc % 2 ^ 32 * 65536 + rel)

/-- Settle one stream whose task is ending: its static macro-ops run to their end, what it holds for COMMIT is discarded,
and the task ends once its last operation has completed (R207, R208); not while the plots stand still (R76). -/
def settleOne (s : State) (k : Nat) : State :=
  match (getStr s k).ended with
  | none => s
  | some _ =>
    if paused s then s
    else
    let s := discardCommit (drain k s) k
    if (opsOf s k).isEmpty then finishStream s k ((getStr s k).ended.getD 0) else s

/-- End the tasks whose readiness word was found poisoned (R370). -/
def settleReady (s : State) : State :=
  forEach ((unended s).filter (fun p => p.2.word == 2 && p.2.st == .waiting))
    (fun s p => endTask s p.1 5 (0x0A + 0xFFFFFFFF * 65536)) s

/-- Settle every stream that is ending, and every task whose readiness word is poisoned.  The poisoning of a killed or
hedged task's outputs can stop further streams, whose own ends poison nothing, so two passes settle all. -/
def settle (s : State) : State :=
  settleReady (forEach (List.range 16) settleOne (forEach (List.range 16) settleOne s))

/-! ### Handler units (R146 to R152, R210) -/

/-- The running handler of a core stops; its message counts as handled and is consumed (R423, R431).  That a hedge or a kill
consumes the message too is the model's choice: R431 names the ends by R149, R151 and R235 (assumption 85). -/
def cutHandler (s : State) (m : Nat) : State :=
  match (getCore s m).handler with
  | none => s
  | some h =>
    let s := modCore s m (fun c => { c with handler := none, hndEnds := c.hndEnds + 1 })
    consumeHead (setF s (fHNDSTAT_RUN (m / 8) (m % 8)) 0) h.creel

/-- The running handler ends by HRET, an illegal macro-op or its time limit, and is counted (R154, R235). -/
def endHandler (s : State) (m : Nat) : State :=
  match (getCore s m).handler with
  | none => s
  | some _ => cutHandler (bump s (fHNDCNT_COUNT (m / 8) (m % 8)) 1) m

/-- A handler that reaches an illegal macro-op, or one that would be skipped, ends as if at HRET, and ILL is set (R149,
R210). -/
def handlerIll (s : State) (m cause : Nat) : State :=
  match (getCore s m).handler with
  | none => s
  | some h =>
    let n := m / 8
    let s := bump (setF s (fHNDFLT_ILL n (m % 8)) 1) (fHNDFCNT_ILCNT n (m % 8)) 1
    let s := logPut s { LogEntry.blank with
      kind := 0x0C, cause := 1, ctx := getF s (crlCTX h.creel), pc := h.pc, data := [h.routine, h.creel, cause, 0] }
    endHandler s m

/-- A macro-op that only a main stream may use, reached by a handler (R149). -/
def mainOnly (w : Who) (s : State) (f : Nat → State) : State :=
  match w with
  | .stream k => f k.val
  | .handler m => unlessPaused s (handlerIll s m.val 0x01)

/-- A handler's macro-op has been issued. -/
def handlerStep (s : State) (m : Nat) : State :=
  modCore s m (fun c => { c with handler := c.handler.map (fun h => { h with pc := h.pc + 1 }) })

end Sys2Proof.Machine
end

