-- ==== Sys2Proof/Machine/Operands.lean ====
section
/-! DEFINITION. Operand forms and the checks a macro-op meets at issue (spec/05 R156 to R159, R171, R176, R177; spec/06 R216,
R217): tiles, addresses of the device's spaces, local offsets, register states, ranges.  A check answers the cause code of
R209, 0 when it passes. -/

namespace Sys2Proof.Machine

open Sys2Proof

/-- The first cause that is not 0. -/
def firstCause : List Nat → Nat
  | [] => 0
  | c :: cs => if c ≠ 0 then c else firstCause cs

/-- Cause `c` when a check fails. -/
def need (ok : Bool) (c : Nat) : Nat := if ok then 0 else c

/-! ### Tiles (R112 to R123) -/

def tileOk (t : Tile) : Bool := decide (1 ≤ t.h) && decide (t.h ≤ 16) && decide (t.b + t.h ≤ 64)

def tileMeets (a b : Tile) : Bool := overlaps a.b a.h b.b b.h

def oneReg (r : Nat) : Tile := ⟨r, 1⟩

/-- The lane width of a tile when every register of it is LIVE with one width (R157). -/
def tileWidth (t : Stream) (x : Tile) : Option Width :=
  let ms := (tileRegs x).map (regNow t)
  match ms with
  | [] => none
  | m :: rest =>
    if (m :: rest).all (fun y => y.st == .live && y.width == m.width) then some m.width else none

/-- Check 2 for one tile: EMPTY or RELEASING registers, mixed or unaccepted widths, and stale registers where they are
read (R113, R115, R123). -/
def tileCause (t : Stream) (x : Tile) (widths : List Width) (read : Bool) : Nat :=
  let ms := (tileRegs x).map (regNow t)
  if ms.any (fun m => m.st != .live) then 0x03
  else if ms.any (fun m => !(widths.contains m.width)) || ms.any (fun m => some m.width != (ms.head?).map (fun y => y.width)) then 0x02
  else if read && ms.any (fun m => m.stale) then 0x04
  else 0

/-- Check 2 over several tiles: an empty register first, then a conflict, then a stale one.  R157 orders the checks, and not the
outcomes of check 2 where several tiles fail it differently: that order is the model's choice (assumption 103). -/
def tilesCause (l : List Nat) : Nat :=
  if l.contains 0x03 then 0x03 else if l.contains 0x02 then 0x02 else if l.contains 0x04 then 0x04 else 0

def anyWidth : List Width := [.w8, .w16, .w32]

/-! ### Addresses -/

/-- A scalar register as a signed 32-bit value. -/
def sregI (t : Stream) (r : Nat) : Int := sext 32 (sreg t r)

/-- A local offset: bits [51:25] are 0 and the slice holds it (R171). -/
def localOk (a n : Nat) : Bool := decide (a + n ≤ sliceBytes)

/-- `n` bytes at a local offset, in granules of the context in every slice of the list (R171, R280). -/
def localOwned (s : State) (ctx : Nat) (slices : List Nat) (off n : Nat) : Bool :=
  localOk off n && slices.all (fun m => rangeOwned s ctx false (orgAddr m off) n)

/-- `n` bytes at an Orangery address, in one slice, in granules of the context (R250, R280). -/
def orgOwned (s : State) (ctx a n : Nat) : Bool := rangeOwned s ctx false a n

/-- An integer offset as a natural number, none if it is negative. -/
def natOff (o : Int) : Option Nat := if o < 0 then none else some o.toNat

/-- Whether the context has the privilege that space 0x2 asks for (R294). -/
def hasPriv (s : State) (ctx : Nat) : Bool := isSet s (fSLA_CTXMEM_PRIV ctx)

/-- The space codes of the device address map. -/
def spaceKnown (sp : Nat) : Bool := sp == 0 || sp == 1 || sp == 2 || sp == 8 || sp == 9

/-- A word that a full/empty macro-op may name: its Orangery address and whether it is local to the stream; none where the
operand is illegal (R216, R217).  A peer word is answered with its device address. -/
inductive WordAt where
  | bad
  | here (core w : Nat)
  | other (w : Nat)
  | peer (a : Nat)
deriving DecidableEq, Repr

/-- The slices whose words are local to stream `k` (R217). -/
def localSlices (t : Stream) (k : Nat) : List Nat := if t.half then rangeFrom (4 * k) 4 else coresOfPav (k / 2)

/-! ### Ranges (R159, R183, R446) -/

/-- Whether a new range meets a held one: it would write bytes of a held range, or read bytes of a held write range. -/
def rangeBlocks (old new : Range) : Bool :=
  old.slices.any (fun m => new.slices.contains m) && rangeMeets (old.lo, old.hi) (new.lo, new.hi) && (new.write || old.write)

/-- The ranges of pre-empted tasks that the tracker of the pavilion's other stream holds: they hold the task that has the pavilion
now (R181). -/
def leftRanges (s : State) (k : Nat) : List Range :=
  let t := getStr s (if k % 2 = 0 then k + 1 else k - 1)
  t.ranges.filter (fun r => !r.static && (t.st == .idle || (findOp s r.owner).any (fun d => d.task != t.task)))

def blockers (s : State) (k : Nat) (new : List Range) : List Range :=
  ((getStr s k).ranges ++ leftRanges s k).filter (fun o => new.any (rangeBlocks o))

def staticCount (t : Stream) : Nat := (t.ranges.filter (fun r => r.static)).length

/-! ### The local port (R158, R254) -/

/-- Whether a cycle's use keeps the byte budget and uses no sub-bank more than twice. -/
def portOk (p : PortUse) : Bool :=
  let subs := (p.rsec ++ p.wsec).map (fun x => x % 128)
  decide (p.rd ≤ 2048) && decide (p.wr ≤ 1024) && subs.all (fun x => decide (subs.count x ≤ 2))

/-- Check 4 for a macro-op that issues at cycle `c` and uses `slices` over `life` cycles (R158, R254). -/
def portFits (t : Stream) (c : Nat) (slices : List Nat) (op : FlightOp) : Bool :=
  slices.all (fun sl => (List.range (op.life + 1)).all (fun rel =>
    let u := op.port sl rel
    if u = PortUse.none_ then true else portOk (addPort u (flightPort t sl (c + rel)))))

/-- Check 4 for a full/empty access in cycle `c`: 8 B read, and written too unless it is an FWAIT (R218). -/
def fePort (off : Nat) (write : Bool) : PortUse := ⟨8, if write then 8 else 0, [off / 32], if write then [off / 32] else []⟩

def fePortFits (t : Stream) (c : Nat) (words : List (Nat × Nat)) (write : Bool) : Bool :=
  words.all (fun w => portOk (addPort (fePort (orgOff w.2) write) (flightPort t w.1 c)))

/-! ### Early reads in a CHECK build (R494) -/

/-- The first register that a new macro-op would read before an earlier macro-op's write of it lands: the register, the
read cycle and the landing cycle. -/
def earlyRead (t : Stream) (c : Nat) (op : FlightOp) : Option (Nat × Nat × Nat) :=
  (List.range 64).findSome? (fun r =>
    match op.firstRead r with
    | none => none
    | some rd =>
      let l := t.flights.foldl (fun m f => max m (((f.op.lastWrite r).map (fun x => f.issue + x)).getD 0)) 0
      if c + rd < l then some (r, c + rd, l) else none)

/-! ### Issue (R157, R192, R193, R446) -/

/-- What the checks of R157 make of a macro-op: the cause of checks 1 to 4 (0 if they pass) with the operand values that
the log takes, the ranges it would hold, and whether it counts as a dynamic operation (R182). -/
structure Plan where
  cause : Nat
  data : List Nat
  ranges : List Range
  dyn : Bool
deriving DecidableEq, Repr

/-- Whether a plan is blocked now (check 5): by held ranges one of which at least is static, or by a full static tracker; by request
ranges of SLATHs alone, which end at a cycle that is known (R189); by other dynamic ranges, or by 64 operations in flight. -/
inductive Hold where
  | free
  | static (untilC : Nat)
  | request (untilC : Nat)
  | dynamic
deriving DecidableEq, Repr

def lastUntil (l : List Range) : Nat := (l.map (fun r => r.until_)).foldl max 0

def holdOf (s : State) (k : Nat) (p : Plan) : Hold :=
  let t := getStr s k
  let bs := blockers s k p.ranges
  let news := (p.ranges.filter (fun r => r.static)).length
  let full := decide (0 < news) && decide (32 < staticCount t + news)
  let st := bs.filter (fun r => r.static)
  if !st.isEmpty then .static (lastUntil st)
  else if full then .static (((t.ranges.filter (fun r => r.static)).map (fun r => r.until_)).foldl min (t.now + 1000000))
  else if !bs.isEmpty then (if bs.all (fun r => r.until_ != 0) then .request (lastUntil bs) else .dynamic)
  else if p.dyn && decide (64 ≤ (strOps s k).length) then .dynamic
  else .free

/-- `n` cycles pass in which the pavilion stands still and the requests of its SLATHs go on being read (R189): their ranges end by so
much earlier in the pavilion's own count. -/
def readOn (n : Nat) (t : Stream) : Stream :=
  { t with ranges := (t.ranges.filter (fun r => r.static || r.until_ == 0 || decide (t.now + n ≤ r.until_))).map (fun r =>
      if r.static || r.until_ == 0 then r else { r with until_ := r.until_ - n }) }

/-- Wait out the ranges that block a macro-op and end at known cycles.  While one of them is static only issue stops, and the
macro-op issues in the cycle after the last of them is released; while all are request ranges the whole pavilion stops (R446).
Answers the state and whether a dynamic hold is left. -/
def waitStatic (k : Nat) (p : Plan) : Nat → State → State × Bool
  | 0, s => (s, true)
  | n + 1, s =>
    match holdOf s k p with
    | .free => (s, false)
    | .dynamic => (s, true)
    | .static c =>
      let now := (getStr s k).now
      let s := runTo k (c + 1) s
      waitStatic k p n (bump s (fSTRHOLDCY_CYCLES (k / 2) (k % 2)) (c + 1 - now))
    | .request c =>
      let d := c + 1 - (getStr s k).now
      waitStatic k p n (bump (modStr s k (readOn d)) (fSTRHOLDCY_CYCLES (k / 2) (k % 2)) d)

/-- Issue a main-stream macro-op: at its cycle (R193) the checks of R157 in order; a failing one skips it; a hold keeps
it, with the ranges it would take; then `eff` is its effect at issue, and its slot lasts `u` cycles, one more in a CHECK build
(R196).  A stream that is not running issues nothing (assumption 2), none does while the plots stand still (R76), and none
whose task has ended in the cycles of a hold (R274).  An early read (cause 0x0E, R494) is found at the cycle in which the macro-op
issues: after a hold, not before it. -/
def issueStr (k gap u : Nat) (i : Instr) (plan : State → Stream → Plan) (eff : State → State) (s : State) : State :=
  if (getStr s k).st ≠ .running ∨ (getStr s k).preempt ≠ none ∨ paused s = true then s
  else
    let s := runTo k ((getStr s k).nextSlot + gap) s
    if (getStr s k).st ≠ .running then settle s
    else
      let p := plan s (getStr s k)
      let first := holdOf s k p
      if p.cause ≠ 0 ∧ (p.cause ≠ 0x0E ∨ first = .free) then settle (skip k p.cause (getStr s k).nextPc p.data s)
      else
        let s := if first = .free then s else bump s (fSTRHOLD_HOLDS (k / 2) (k % 2)) 1
        let r := waitStatic k p 200 s
        if (getStr r.1 k).st ≠ .running then settle r.1
        else if r.2 then
          modStr r.1 k (fun t => { t with st := .held, held := some i, heldAs := p.ranges, heldAt := tick s, nextSlot := t.now - gap })
        else if first ≠ .free ∧ (plan r.1 (getStr r.1 k)).cause = 0x0E then
          settle (skip k 0x0E (getStr r.1 k).nextPc (plan r.1 (getStr r.1 k)).data r.1)
        else
          let c := (getStr r.1 k).now
          let s := modStr r.1 k (fun t => stepPc { t with nextSlot := c + u + (if t.check then 1 else 0) })
          settle (eff s)

/-- The operand values of a macro-op that may end its task later, noted in its stream for the log (R209). -/
def noteData (k : Nat) (plan : State → Stream → Plan) (s : State) : State :=
  modStr s k (fun t => { t with data := (plan s t).data })

/-- The extent of a static read or write as a tracker entry (R443): `slices` at offsets lo to hi until cycle `untilC`. -/
def staticRange (t : Stream) (slices : List Nat) (lo hi : Nat) (write : Bool) (untilC : Nat) : Range :=
  ⟨true, t.seq, slices, lo, hi, write, untilC⟩

/-- Put a static macro-op in flight with its tracker entries and its operand values. -/
def launch (k : Nat) (op : FlightOp) (ranges : List Range) (data : List Nat) (s : State) : State :=
  modStr s k (fun t =>
    let c := t.now
    { t with flights := t.flights ++ [⟨t.seq, c, t.pc, t.cores, op, [], [], [], ranges, false, [], false, data⟩],
             ranges := t.ranges ++ ranges })

/-- Note, with a macro-op just put in flight, the arrays of its cores as they are before its effect on them (R107). -/
def noteBefore (k : Nat) (s : State) : State :=
  modStr s k (fun t => { t with flights := t.flights.dropLast ++ (t.flights.getLast?.toList.map (fun f =>
    { f with before := f.cores.map (fun m => (m, arrayAt s m)) })) })

/-- The checks of a static macro-op after its own: the port (check 4), and in a CHECK build the early reads (R494). -/
def staticPlan (t : Stream) (cause : Nat) (data : List Nat) (slices : List Nat) (op : FlightOp) (ranges : List Range) : Plan :=
  let c := if cause ≠ 0 then cause else need (portFits t t.now slices op) 0x06
  if c ≠ 0 then ⟨c, data, [], false⟩
  else match if t.check then earlyRead t t.now op else none with
    | some e => ⟨0x0E, [e.1, e.2.1, e.2.2, 0], ranges, false⟩
    | none => ⟨0, data, ranges, false⟩

end Sys2Proof.Machine
end

