-- ==== Sys2Proof/Machine/Matrix.lean ====
section
/-! DEFINITION. The matrix macro-ops: weight loads and the six passes (spec/03; spec/05 R162 to R170). -/

namespace Sys2Proof.Machine

open Sys2Proof

/-! ### Array state and distances (R79 to R84) -/

/-- The pending flag of a stream's array, whose cores hold one each.  Where they differ, as they may after tasks of the halves, a
load takes the flag as set when any core's is, and a swap takes it as clear unless every core's is set: R83 does not say what
the bandstand takes (assumption 82). -/
def anyPend (s : State) (t : Stream) : Bool := t.cores.any (pendOf s)
def allPend (s : State) (t : Stream) : Bool := t.cores.all (pendOf s)

/-- The active format that a stream's array has: that of its first participating core. -/
def activeFmt (s : State) (t : Stream) : Nat := wmodeOf s (t.cores.headD 0)

/-- Whether cycle `now` is at least `d` after an event, if it happened (R81). -/
def distOk (now : Nat) (ev : Option Nat) (d : Nat) : Bool :=
  match ev with
  | some c => decide (c + d ≤ now)
  | none => true

def passEnd (p : Option (Nat × Nat)) : Option Nat := p.map (fun x => x.1 + x.2)

/-- A weight plane lies in one slice of the loading pavilion or half, in granules of the context (R86, R280). -/
def planeOk (s : State) (t : Stream) (k a n : Nat) : Bool :=
  decide (a < 2 ^ 31) && (localSlices t k).contains (orgSlice a) && orgOwned s t.ctx a n

/-! ### Weight loads (R162, R163) -/

def wloadRanges (t : Stream) (am ae p : Nat) : List Range :=
  [staticRange t [orgSlice am] (orgOff am) (orgOff am + 16383) false (t.now + 132),
   staticRange t [orgSlice ae] (orgOff ae) (orgOff ae + 512 * p - 1) false (t.now + 132)]

def wloadPlan (k : Nat) (am ae fmt : Nat) (legal : Bool) (incons : Bool) (s : State) (t : Stream) : Plan :=
  let p := planesOf fmt
  let c1 := need (legal && am % 256 == 0 && ae % 64 == 0 && planeOk s t k am 16384 && planeOk s t k ae (512 * p)) 0x01
  let c3 := need (!incons && distOk t.now t.arr.wload 130) 0x05
  staticPlan t (firstCause [c1, c3]) [am, ae, fmt, 0] (localSlices t k) (.wload ⟨0, am, ae, fmt, []⟩) (wloadRanges t am ae p)

/-- Put a weight load in flight: a new image, empty until its slots are read. -/
def wloadStart (k am ae fmt : Nat) (s : State) : Nat × State :=
  let id := s.nextW
  let s := modWSet { s with nextW := s.nextW + 1 } id (fun _ => ⟨fmt, [], []⟩)
  let t := getStr s k
  (id, noteBefore k (launch k (.wload ⟨id, am, ae, fmt, []⟩) (wloadRanges t am ae (planesOf fmt)) [am, ae, fmt, 0] s))

/-- WLOAD.R at issue: the shadow registers of every participating core take the image, and the pending flag is set (R78,
R162). -/
def wloadREff (k am ae : Nat) (s : State) : State :=
  let r := wloadStart k am ae 0 s
  let s := loadArrays (getStr r.2 k).cores ⟨r.1, am, ae, 0, []⟩ r.2
  modStr s k (fun t => { t with
    arr := { t.arr with wload := some t.now, ripple := some t.now } })

/-- The checks of WLOAD.R and of WLOAD.S. -/
def wloadRPlan (k : Nat) (am ae : AReg) (s : State) (t : Stream) : Plan :=
  wloadPlan k (areg t am.val) (areg t ae.val) 0 true (anyPend s t || !distOk t.now (passEnd t.arr.subPass) 0) s t

def wloadSPlan (k : Nat) (am ae : AReg) (fmt : Nat) (s : State) (t : Stream) : Plan :=
  wloadPlan k (areg t am.val) (areg t ae.val) fmt (fmt == 1 || fmt == 2)
    (anyPend s t || !distOk t.now (passEnd t.arr.pass) 109) s t

def execWloadR (w : Who) (gap : Nat) (am ae : AReg) (s : State) : Host.Outcome State Fault Refusal :=
  .next (mainOnly w s (fun k =>
    issueStr k gap 1 (.wloadR w gap am ae) (wloadRPlan k am ae)
      (fun s => wloadREff k (areg (getStr s k) am.val) (areg (getStr s k) ae.val) s) s))

/-- WLOAD.S at issue: both weight registers take the image, and its format becomes active (R80, R163). -/
def wloadSEff (k am ae fmt : Nat) (s : State) : State :=
  let r := wloadStart k am ae fmt s
  let s := loadArrays (getStr r.2 k).cores ⟨r.1, am, ae, fmt, []⟩ r.2
  modStr s k (fun t => { t with
    arr := { t.arr with wload := some t.now, stall := some t.now } })

def execWloadS (w : Who) (gap : Nat) (am ae : AReg) (fmt : Fin 4) (s : State) : Host.Outcome State Fault Refusal :=
  .next (mainOnly w s (fun k =>
    issueStr k gap 1 (.wloadS w gap am ae fmt) (wloadSPlan k am ae fmt.val)
      (fun s => wloadSEff k (areg (getStr s k) am.val) (areg (getStr s k) ae.val) fmt.val s) s))

/-! ### Passes (R164 to R170) -/

/-- Only MPASS takes 16-bit activations and SI4 or SI2 weights; MPASST takes 16-bit activations with SI8 weights (R40,
R98, R102). -/
def wide16 : PassMode → Bool
  | .mpass | .mpasst => true
  | _ => false

/-- Whether a pass without the swap bit pairs with the active weights (R40, R83). -/
def pairOk (mode : PassMode) (fmt : Nat) (w : Option Width) : Bool :=
  fmt == 0 || (mode == .mpass && w == some .w8)

/-- The pass put in flight, with its operands as they are at issue (R69, R156). -/
def passOf (mode : PassMode) (o : PassOpnds) (d2 : Tile) (ib : Int) (s : State) (t : Stream) : PassF where
  mode := mode
  d := o.d
  d2 := d2
  s := o.s
  m := o.m.map Fin.val
  n := sreg t o.sn.val
  eref := o.eref
  ibase := ib
  acc := o.acc
  i16 := tileWidth t o.s == some .w16
  swap := o.swap
  planes := planesOf (if o.swap then 0 else activeFmt s t)
  wids := metWeights s o.swap t.cores
  ripple := t.arr.ripple.getD 0
  masks := []
  hits := []

/-- The operand values of a pass for the log (R209). -/
def passData (o : PassOpnds) (t : Stream) : List Nat := [o.d.b, o.s.b, (o.m.map Fin.val).getD 0, sreg t o.sn.val]

def passPlan (mode : PassMode) (o : PassOpnds) (d2 : Option Tile) (s : State) (t : Stream) : Plan :=
  let n := sreg t o.sn.val
  let w := tileWidth t o.s
  let c1 := need (decide (1 ≤ n) && decide (n ≤ 4096) && tileOk o.d && tileOk o.s &&
    (match d2 with
     | some x => tileOk x && !(tileMeets o.d x) && x.h == o.d.h
     | none => true) && (wide16 mode || w != some .w16)) 0x01
  let c2 := tilesCause ([tileCause t o.s [.w8, .w16] true, tileCause t o.d [.w32] o.acc] ++
    (match o.m with
     | some r => [tileCause t (oneReg r.val) [.w8] true]
     | none => []) ++
    (match d2 with
     | some x => [tileCause t x [.w32] o.acc]
     | none => []))
  let c3 := need (distOk t.now (passEnd t.arr.pass) 0 &&
    (if o.swap then allPend s t && distOk t.now t.arr.ripple 22
     else pairOk mode (activeFmt s t) w && distOk t.now t.arr.stall 21)) 0x05
  staticPlan t (firstCause [c1, c2, c3]) (passData o t) []
    (.pass (passOf mode o (d2.getD ⟨0, 0⟩) 0 s t)) []

/-- A pass at issue: the swap front exchanges main and shadow registers (R79), and the pass is put in flight. -/
def passEff (k : Nat) (mode : PassMode) (o : PassOpnds) (d2 : Tile) (ib : Int) (s : State) : State :=
  let p := passOf mode o d2 ib s (getStr s k)
  let fmt := activeFmt s (getStr s k)
  let s := launch k (.pass p) [] (passData o (getStr s k)) s
  let s := if o.swap then swapArrays (getStr s k).cores (noteBefore k s) else s
  modStr s k (fun t => { t with arr := { t.arr with
    pass := some (t.now, p.feed),
    subPass := if o.swap || fmt == 0 then t.arr.subPass else some (t.now, p.feed) } })

def issuePass (mode : PassMode) (k gap : Nat) (i : Instr) (o : PassOpnds) (d2 : Option Tile) (sib : Option SReg) (s : State) : State :=
  issueStr k gap 1 i (passPlan mode o d2)
    (fun s => passEff k mode o (d2.getD ⟨0, 0⟩) ((sib.map (fun r => sregI (getStr s k) r.val)).getD 0) s) s

def execMpass (w : Who) (gap : Nat) (o : PassOpnds) (s : State) : Host.Outcome State Fault Refusal :=
  .next (mainOnly w s (fun k => issuePass .mpass k gap (.mpass w gap o) o none none s))

def execMpasst (w : Who) (gap : Nat) (o : PassOpnds) (s : State) : Host.Outcome State Fault Refusal :=
  .next (mainOnly w s (fun k => issuePass .mpasst k gap (.mpasst w gap o) o none none s))

def execMdist (w : Who) (gap : Nat) (o : PassOpnds) (s : State) : Host.Outcome State Fault Refusal :=
  .next (mainOnly w s (fun k => issuePass .mdist k gap (.mdist w gap o) o none none s))

def execMsqd (w : Who) (gap : Nat) (o : PassOpnds) (s : State) : Host.Outcome State Fault Refusal :=
  .next (mainOnly w s (fun k => issuePass .msqd k gap (.msqd w gap o) o none none s))

def execMcmpx (w : Who) (gap : Nat) (o : CmpOpnds) (s : State) : Host.Outcome State Fault Refusal :=
  .next (mainOnly w s (fun k => issuePass .mcmpx k gap (.mcmpx w gap o) o.p (some o.d2) (some o.sib) s))

def execMcmpn (w : Who) (gap : Nat) (o : CmpOpnds) (s : State) : Host.Outcome State Fault Refusal :=
  .next (mainOnly w s (fun k => issuePass .mcmpn k gap (.mcmpn w gap o) o.p (some o.d2) (some o.sib) s))

end Sys2Proof.Machine
end

