-- ==== Sys2Proof/Machine/Movement.lean ====
section
/-! DEFINITION. TLOAD and TSTORE (spec/05 R171 to R175). -/

namespace Sys2Proof.Machine

open Sys2Proof

/-- The movement put in flight, with its operands as they are at issue. -/
def moveOf (t : Stream) (o : MoveOpnds) (w : Width) (pack : Nat) : MoveF where
  t := o.t
  am := (areg t o.am.val : Int)
  sms := sregI t o.sms.val
  ae := if w = .w32 then none else o.ae.map (fun a => (areg t a.val : Int))
  ses := (o.ses.map (fun r => sregI t r.val)).getD 0
  transposed := o.mode
  w := w.bits / 8
  pack := pack
  lat := t.lt.tile

def packBits : Nat → Nat
  | 1 => 4
  | 2 => 2
  | _ => 8

/-- Every piece of the slice that a movement touches: mantissas and exponents apart. -/
def mantPieces (m : MoveF) : List (Int × Nat) :=
  (List.range m.t.h).flatMap (fun i =>
    if m.transposed then (List.range 128).map (fun l => (m.laneOff i l, m.w)) else [(m.laneOff i 0, m.rowBytes)])
def expPieces (m : MoveF) : List (Int × Nat) :=
  (List.range m.t.h).filterMap (fun i => (m.expOff i).map (fun e => (e, 4)))

/-- The bounding range of pieces, lowest and highest byte. -/
def bounds : List (Int × Nat) → Option (Int × Int)
  | [] => none
  | p :: ps => some (ps.foldl (fun b q => (min b.1 q.1, max b.2 (q.1 + (q.2 : Int) - 1))) (p.1, p.1 + (p.2 : Int) - 1))

def pieceOk (s : State) (ctx : Nat) (cores : List Nat) (p : Int × Nat) : Bool :=
  decide (0 ≤ p.1) && localOwned s ctx cores p.1.toNat p.2

/-- The tracker entries of a movement: one for its mantissa bytes, one for its exponent bytes (R444). -/
def moveRanges (t : Stream) (m : MoveF) (write : Bool) (untilC : Nat) : List Range :=
  ([bounds (mantPieces m), bounds (expPieces m)].filterMap id).map
    (fun b => staticRange t t.cores b.1.toNat b.2.toNat write untilC)

/-- The pieces of the slice that a movement touches whatever the lane width of its tile: those of 8-bit lanes, which the pieces of wider
lanes take in, and the exponent bytes where they move (R171). -/
def leastPieces (t : Stream) (o : MoveOpnds) (store : Bool) (pack : Nat) : List (Int × Nat) :=
  let m := moveOf t o .w8 (packBits pack)
  mantPieces m ++ (if store && tileWidth t o.t == some .w32 then [] else expPieces m)

/-- Check 1 of a movement that needs no lane width, ownership among it (R171, R172, R174, R280); the width-dependent tests are those of
`moveWidthOk`. -/
def moveFormOk (s : State) (t : Stream) (o : MoveOpnds) (store : Bool) (pack : Nat) : Bool :=
  tileOk o.t && decide (areg t o.am.val < sliceBytes) &&
  (if o.mode then true else areg t o.am.val % 32 == 0 && sregI t o.sms.val % 32 == 0) &&
  (match o.ae with
   | some a => (store && tileWidth t o.t == some .w32) ||
      (decide (areg t a.val < sliceBytes) && (match o.ses with
       | some r => sregI t r.val % 4 == 0
       | none => false))
   | none => true) &&
  pack != 3 && (pack == 0 || !o.mode) && (leastPieces t o store pack).all (pieceOk s t.ctx t.cores)

/-- Check 1 of a movement for its tile's one lane width (R157, R171 to R174, R280). -/
def moveWidthOk (s : State) (t : Stream) (o : MoveOpnds) (store : Bool) (pack : Nat) (w : Width) : Bool :=
  let m := moveOf t o w (packBits pack)
  (if o.mode then m.am % (m.w : Int) == 0 && m.sms % (m.w : Int) == 0 else true) &&
  (store || (if w = .w32 then o.ae.isNone else o.ae.isSome)) &&
  (pack == 0 || w == .w8) &&
  (mantPieces m ++ expPieces m).all (pieceOk s t.ctx t.cores)

/-- The operand values of a movement for the log (R209). -/
def moveData (o : MoveOpnds) (t : Stream) : List Nat :=
  [o.t.b, areg t o.am.val, sreg t o.sms.val, ((o.ae.map (fun a => areg t a.val))).getD 0]

def movePlan (o : MoveOpnds) (store : Bool) (pack : Nat) (s : State) (t : Stream) : Plan :=
  let w := tileWidth t o.t
  let c1 := need (moveFormOk s t o store pack && (match w with
    | some x => moveWidthOk s t o store pack x
    | none => true)) 0x01
  let c2 := tileCause t o.t anyWidth store
  let c3 := need (decide ((if store then t.tstFree else t.tldFree) ≤ t.now)) 0x05
  let m := moveOf t o (w.getD .w8) (packBits pack)
  let untilC := t.now + o.t.h + (if store then m.lat else 2)
  staticPlan t (firstCause [c1, c2, c3]) (moveData o t) t.cores (if store then .tstore m else .tload m) (moveRanges t m store untilC)

/-- A movement at issue: it is put in flight, and its port is taken for h cycles (R173, R175). -/
def moveEff (k : Nat) (o : MoveOpnds) (store : Bool) (pack : Nat) (s : State) : State :=
  let t := getStr s k
  let m := moveOf t o ((tileWidth t o.t).getD .w8) (packBits pack)
  let untilC := t.now + o.t.h + (if store then m.lat else 2)
  let s := launch k (if store then .tstore m else .tload m) (moveRanges t m store untilC) (moveData o t) s
  modStr s k (fun t => if store then { t with tstFree := t.now + o.t.h } else { t with tldFree := t.now + o.t.h })

def execTload (w : Who) (gap : Nat) (o : MoveOpnds) (s : State) : Host.Outcome State Fault Refusal :=
  .next (mainOnly w s (fun k =>
    issueStr k gap 1 (.tload w gap o) (movePlan o false 0) (moveEff k o false 0) s))

def execTstore (w : Who) (gap : Nat) (o : MoveOpnds) (pack : Fin 4) (s : State) : Host.Outcome State Fault Refusal :=
  .next (mainOnly w s (fun k =>
    issueStr k gap 1 (.tstore w gap o pack) (movePlan o true pack.val) (moveEff k o true pack.val) s))

end Sys2Proof.Machine
end

