-- ==== Sys2Proof/Machine/Element.lean ====
section
/-! DEFINITION. The element macro-ops, and TCFG and TREL (spec/04; spec/06 R210 to R215, R236). -/

namespace Sys2Proof.Machine

open Sys2Proof

/-- Check 3 of every element macro-op: the engine runs one at a time (R138). -/
def eeCause (t : Stream) : Nat := need (decide (t.eeFree ≤ t.now)) 0x05

/-- The cycle from issue at which the next element macro-op may issue (R136, R137). -/
def elemDuration (op : FlightOp) : Nat :=
  match op with
  | .eprog e => 8 + e.x + e.d.h * e.c
  | _ => elemLat op + elemHeight op - 1

/-- Put an element macro-op in flight. -/
def elemEff (k : Nat) (op : FlightOp) (ranges : List Range) (data : List Nat) (s : State) : State :=
  modStr (launch k op ranges data s) k (fun t => { t with eeFree := t.now + elemDuration op })

/-- The target width of a wcode (R215). -/
def wcodeBits (c : Nat) : Nat := 2 ^ (c + 1)

/-- The operand values of an element macro-op for the log (R209). -/
def elemData : FlightOp → List Nat
  | .eshufX d s m => [d.b, s.b, m, 0]
  | .eshufB d s c => [d.b, s.b, c, 0]
  | .esum d s g => [d.b, s.b, g, 0]
  | .emax d s g o => [d.b, s.b, g, (o.map (fun x => x.b)).getD 0]
  | .ebcast d s v _ op _ => [d.b, s.b, v, op]
  | .equant q => [q.d.b, q.s.b, q.sv, (List.range 5).findIdx (fun c => wcodeBits c == q.wbits)]
  | _ => []

def elemPlan (t : Stream) (c1 : Nat) (tiles : List Nat) (op : FlightOp) : Plan :=
  staticPlan t (firstCause [c1, tilesCause tiles, eeCause t]) (elemData op) [] op []

/-! ### EPROG (R211) -/

def eprogOf (t : Stream) (o : EprogOpnds) : EprogF where
  d := o.d
  a := o.a
  b := o.b
  prog := (t.programs[o.prog.val]?).getD []
  tmask := o.tmask.toNat
  tbase := (o.base.map (fun a => areg t a.val)).getD 0
  c0 := (o.sc0.map (fun r => sregI t r.val)).getD 0
  c1 := (o.sc1.map (fun r => sregI t r.val)).getD 0
  fixed := o.fixed
  eexp := o.eexp
  lat := t.lt.recip

/-- The table images that a mask names: tracker entries until @+3 (R127, R444). -/
def tableRanges (t : Stream) (e : EprogF) : List Range :=
  ((List.range 4).filter (fun i => bitOf e.tmask i)).map (fun i =>
    staticRange t t.cores (e.tbase + 512 * i) (e.tbase + 512 * i + 511) false (t.now + 3))

/-- The operand values of EPROG for the log (R209). -/
def eprogData (o : EprogOpnds) : List Nat := [o.d.b, o.a.b, (o.b.map (fun b => b.b)).getD 0, o.prog.val]

def eprogPlan (o : EprogOpnds) (s : State) (t : Stream) : Plan :=
  let e := eprogOf t o
  let prog := t.programs[o.prog.val]?
  let c1 := need (tileOk o.d && tileOk o.a && o.a.h == o.d.h &&
    (match o.b with
     | some b => tileOk b && b.h == o.d.h
     | none => true) &&
    (match prog with
     | some p => programOk p && (o.b.isSome || !programUsesB p)
     | none => false) &&
    (e.tmask == 0 || (o.base.isSome && e.tbase % 64 == 0 &&
      ((List.range 4).filter (fun i => bitOf e.tmask i)).all (fun i =>
        localOwned s t.ctx t.cores (e.tbase + 512 * i) 512)))) 0x01
  let c2 := tilesCause ([tileCause t o.d anyWidth false, tileCause t o.a anyWidth true] ++
    (match o.b with
     | some b => [tileCause t b anyWidth true]
     | none => []))
  staticPlan t (firstCause [c1, c2, eeCause t]) (eprogData o) t.cores (.eprog e) (tableRanges t e)

/-- EPROG at issue: in flight, with each loaded table's image recorded on every core (R126, R128). -/
def eprogEff (k : Nat) (o : EprogOpnds) (s : State) : State :=
  let t := getStr s k
  let e := eprogOf t o
  let s := elemEff k (.eprog e) (tableRanges t e) (eprogData o) s
  forEach t.cores (fun s m =>
    forEach ((List.range 4).filter (fun i => bitOf e.tmask i)) (fun s i =>
      setBit (setF s (fTBLADDR_OFFSET (m / 8) (m % 8) i) (e.tbase + 512 * i)) (fEESTAT_TVALID (m / 8) (m % 8)) i true) s) s

/-- Every table entry of a core is 0, and no table counts as loaded (R127, R128). -/
def blankTables (s : State) (m : Nat) : State :=
  let s := forEach (List.range 4) (fun s i => setF s (fTBLADDR_OFFSET (m / 8) (m % 8) i) 0) s
  modCore (setF s (fEESTAT_TVALID (m / 8) (m % 8)) 0) m (fun c => { c with tables := [] })

def execEprog (w : Who) (gap : Nat) (o : EprogOpnds) (s : State) : Host.Outcome State Fault Refusal :=
  .next (mainOnly w s (fun k => issueStr k gap 1 (.eprog w gap o) (eprogPlan o) (eprogEff k o) s))

/-! ### ESHUF (R212) -/

/-- Heights and lane widths of a shuffle are equal, or it is a tile configuration conflict (R212). -/
def shufTiles (t : Stream) (d s : Tile) : List Nat :=
  [tileCause t d anyWidth false, tileCause t s anyWidth true,
   need (d.h == s.h && (tileWidth t d).isSome && tileWidth t d == tileWidth t s) 0x02]

/-- The checks of ESHUF.X and of ESHUF.B. -/
def eshufXPlan (d sr : Tile) (m : Nat) (_ : State) (t : Stream) : Plan :=
  elemPlan t (need (tileOk d && tileOk sr) 0x01) (shufTiles t d sr) (.eshufX d sr m)

def eshufBPlan (d sr : Tile) (c : Nat) (_ : State) (t : Stream) : Plan :=
  elemPlan t (need (tileOk d && tileOk sr) 0x01)
    (shufTiles t d sr ++ [tileCause t (oneReg c) [.w8] true]) (.eshufB d sr c)

def execEshufX (w : Who) (gap : Nat) (d sr : Tile) (m : Fin 128) (s : State) : Host.Outcome State Fault Refusal :=
  .next (mainOnly w s (fun k =>
    issueStr k gap 1 (.eshufX w gap d sr m) (eshufXPlan d sr m.val) (elemEff k (.eshufX d sr m.val) [] (elemData (.eshufX d sr m.val))) s))

def execEshufB (w : Who) (gap : Nat) (d sr : Tile) (c : Fin 64) (s : State) : Host.Outcome State Fault Refusal :=
  .next (mainOnly w s (fun k =>
    issueStr k gap 1 (.eshufB w gap d sr c) (eshufBPlan d sr c.val) (elemEff k (.eshufB d sr c.val) [] (elemData (.eshufB d sr c.val))) s))

/-! ### ESUM and EMAX (R213) -/

/-- The checks of ESUM and of EMAX. -/
def esumPlan (d sr : Tile) (g : Nat) (_ : State) (t : Stream) : Plan :=
  elemPlan t (need (tileOk d && tileOk sr && g != 0 && d.h == sr.h) 0x01)
    [tileCause t d [.w32] false, tileCause t sr anyWidth true] (.esum d sr g)

def emaxPlan (d sr : Tile) (g : Nat) (d2 : Option Tile) (_ : State) (t : Stream) : Plan :=
  elemPlan t (need (tileOk d && tileOk sr && g != 0 && d.h == sr.h &&
      (match d2 with
       | some x => tileOk x && x.h == sr.h && !(tileMeets x d)
       | none => true)) 0x01)
    ([tileCause t d [.w32] false, tileCause t sr anyWidth true] ++
      (match d2 with
       | some x => [tileCause t x [.w32] false]
       | none => [])) (.emax d sr g d2)

def execEsum (w : Who) (gap : Nat) (d sr : Tile) (g : Fin 8) (s : State) : Host.Outcome State Fault Refusal :=
  .next (mainOnly w s (fun k =>
    issueStr k gap 1 (.esum w gap d sr g) (esumPlan d sr g.val) (elemEff k (.esum d sr g.val) [] (elemData (.esum d sr g.val))) s))

def execEmax (w : Who) (gap : Nat) (d sr : Tile) (g : Fin 8) (d2 : Option Tile) (s : State) :
    Host.Outcome State Fault Refusal :=
  .next (mainOnly w s (fun k =>
    issueStr k gap 1 (.emax w gap d sr g d2) (emaxPlan d sr g.val d2) (elemEff k (.emax d sr g.val d2) [] (elemData (.emax d sr g.val d2))) s))

/-! ### EBCAST (R214) and EQUANT (R215) -/

/-- The checks of EBCAST. -/
def ebcastPlan (d sr : Tile) (v : Nat) (col : Bool) (op kk : Nat) (_ : State) (t : Stream) : Plan :=
  elemPlan t (need (tileOk d && tileOk sr && d.h == sr.h && decide (op < 6)) 0x01)
    [tileCause t d anyWidth false, tileCause t sr anyWidth true, tileCause t (oneReg v) anyWidth true]
    (.ebcast d sr v col op kk)

def execEbcast (w : Who) (gap : Nat) (d sr : Tile) (v : Fin 64) (col : Bool) (op : Fin 8) (kk : Fin 64) (s : State) :
    Host.Outcome State Fault Refusal :=
  .next (mainOnly w s (fun k => issueStr k gap 1 (.ebcast w gap d sr v col op kk)
    (ebcastPlan d sr v.val col op.val kk.val) (elemEff k (.ebcast d sr v.val col op.val kk.val) [] (elemData (.ebcast d sr v.val col op.val kk.val))) s))

def equantOf (o : EquantOpnds) : EquantF where
  d := o.d
  s := o.s
  sv := o.sv.val
  perRow := o.perRow
  wbits := wcodeBits o.wcode.val
  fit := o.fit
  e := o.e

def equantPlan (o : EquantOpnds) (_ : State) (t : Stream) : Plan :=
  let wb := wcodeBits o.wcode.val
  elemPlan t
    (need (tileOk o.d && tileOk o.s && decide (o.wcode.val < 5) && !(o.fit && wb == 32) && o.d.h == o.s.h) 0x01)
    [tileCause t o.s [.w32] true, tileCause t (oneReg o.sv.val) [.w32] true,
     tileCause t o.d ((if o.fit then [.w8, .w16] else anyWidth).filter (fun x => decide (wb ≤ x.bits))) false]
    (.equant (equantOf o))

def execEquant (w : Who) (gap : Nat) (o : EquantOpnds) (s : State) : Host.Outcome State Fault Refusal :=
  .next (mainOnly w s (fun k =>
    issueStr k gap 1 (.equant w gap o) (equantPlan o) (elemEff k (.equant (equantOf o)) [] (elemData (.equant (equantOf o)))) s))

/-! ### TCFG and TREL (R114 to R117, R236) -/

/-- Check 2 of TCFG: every register EMPTY.  Check 2 of TREL is that of any tile (R113, R117, R157). -/
def allState (t : Stream) (x : Tile) (st : RegState) : Bool := ((tileRegs x).map (regNow t)).all (fun m => m.st == st)

/-- The checks of TCFG and of TREL. -/
def tcfgPlan (x : Tile) (wd : Nat) (_ : State) (t : Stream) : Plan :=
  ⟨firstCause [need (tileOk x && wd != 3) 0x01, need (allState t x .empty) 0x02], [x.b, x.h, wd, 0], [], false⟩

def trelPlan (x : Tile) (_ : State) (t : Stream) : Plan :=
  ⟨firstCause [need (tileOk x) 0x01, tileCause t x anyWidth false], [x.b, x.h, 0, 0], [], false⟩

/-- The contents of some registers change now: a macro-op in flight that has read one of them, or would write it again, cannot be run
again with the same results (R106, R389). -/
def spoilBy (regs : List Nat) (t : Stream) : Stream :=
  { t with flights := t.flights.map (fun f => if regs.any (fun r => f.spoiltBy r t.now t.seq) then { f with spoilt := true } else f) }

/-- TCFG at issue: each register LIVE and not stale, every lane and exponent byte 0 on every core (R114). -/
def tcfgEff (k : Nat) (x : Tile) (w : Width) (s : State) : State :=
  let s := modStr s k (fun t => spoilBy (tileRegs x) ((tileRegs x).foldl (fun t r => setMeta t r ⟨.live, w, false, [], 0⟩) t))
  forEach (getStr s k).cores (fun s m => forEach (tileRegs x) (fun s r => setRegData s m r RegData.zero) s) s

def execTcfg (w : Who) (gap : Nat) (x : Tile) (wd : Fin 4) (s : State) : Host.Outcome State Fault Refusal :=
  .next (mainOnly w s (fun k =>
    issueStr k gap 1 (.tcfg w gap x wd) (tcfgPlan x wd.val) (tcfgEff k x (Width.ofCode wd.val)) s))

/-- TREL at issue: each register RELEASING until the cycle after its last access by an earlier macro-op (R117). -/
def trelEff (k : Nat) (x : Tile) (s : State) : State :=
  modStr s k (fun t => (tileRegs x).foldl (fun u r =>
    setMeta u r { regMeta u r with st := .releasing, emptyAt := emptyCycle t r }) t)

def execTrel (w : Who) (gap : Nat) (x : Tile) (s : State) : Host.Outcome State Fault Refusal :=
  .next (mainOnly w s (fun k => issueStr k gap 1 (.trel w gap x) (trelPlan x) (trelEff k x) s))

end Sys2Proof.Machine
end

