-- ==== Sys2Proof/Machine/Choose.lean ====
section
/-! DEFINITION. The choices of the Gatehouse (spec/09 R376 to R388; spec/12 R486): effective classes and slack, the streams that
can host a task, slot collisions, the order of ready tasks, and which stream a waiting urgent task may take. -/

namespace Sys2Proof.Machine

open Sys2Proof

/-! ### Classes (R382, R384) -/

/-- The class of work whose effective class is `cls` at an arbitration point: one higher while its queue holds a boost. -/
def pointClass (s : State) (point q cls : Nat) : Nat :=
  if 0 < (amGet (fun _ => (⟨0, 0⟩ : Age)) s.ages (128 * point + q)).boost ∧ cls ≠ 0 then cls - 1 else cls

/-- A grant at an arbitration point: the age falls to 0, and one burst of a boost is used. -/
def pointGrant (s : State) (point q : Nat) : State :=
  let a := amGet (fun _ => (⟨0, 0⟩ : Age)) s.ages (128 * point + q)
  { s with ages := amSet (fun _ => ⟨0, 0⟩) s.ages (128 * point + q) ⟨0, a.boost - 1⟩ }

/-- The first item of a list whose queue comes next in turn: the 128 queues go round from `rr` (R385). -/
def inQueueTurn {α : Type} (queueOf : α → Nat) (rr : Nat) (l : List α) : Option α :=
  (List.range 128).findSome? (fun i => l.find? (fun x => queueOf x == (rr + i) % 128))

def eclass (t : Task) : Nat := if t.dlprom then 0 else t.cls

def taskQ (t : Task) : Nat := 8 * t.ctx + t.q

/-- The deadline slack of a task in ticks; none is infinite. -/
def slack (s : State) (t : Task) : Option Int :=
  t.body.seqs.foldl (fun m sl =>
    let d := getF s (fSEQB_DEADLINE sl)
    if d = 0 then m
    else
      let v := ((d * 100 : Nat) : Int) - ((tick s - t.doorbell : Nat) : Int)
      match m with
      | some x => some (min x v)
      | none => some v) none

/-! ### Readiness (R368) -/

/-- A task is ready: not running, its predecessors ended OK, its readiness word found full where it has one. -/
def taskReady (t : Task) : Bool :=
  (match t.st with
   | .waiting => true
   | .preempted _ _ => true
   | _ => false) && t.preds.isEmpty && (!t.body.rdy || t.word == 1)

def readyTasks (s : State) : List (Nat × Task) := (taskList s).filter (fun p => taskReady p.2)

/-! ### Shapes (R376, R377) -/

def strIdle (s : State) (k : Nat) : Bool := (getStr s k).st == .idle

/-- A stream counts as free: it is, or it is one of those that would be freed. -/
def freeWith (s : State) (also : List Nat) (k : Nat) : Bool := strIdle s k || also.contains k

/-- Pavilion `n` is in half mode. -/
def halfMode (s : State) (also : List Nat) (n : Nat) : Bool :=
  (!(freeWith s also (2 * n)) && (getStr s (2 * n)).half) || !(freeWith s also (2 * n + 1))

/-- Stream `k` is free in the shape that a WIDTH asks for. -/
def shapeFree (s : State) (also : List Nat) (width k : Nat) : Bool :=
  if width ≤ 1 then k % 2 == 0 && freeWith s also k && freeWith s also (k + 1)
  else freeWith s also k && (freeWith s also (k - k % 2) || (getStr s (k - k % 2)).half)

/-- The fewest cores that a WIDTH takes. -/
def leastCores (width : Nat) : Nat :=
  match width with
  | 0 => 8
  | 1 => 7
  | 2 => 4
  | _ => 3

def strAllowed (b : TaskBody) (k : Nat) : Bool := bitOf b.streams k && (decide (2 ≤ b.width) || k % 2 == 0)

/-! ### Slot plans (R266, R267, R486) -/

/-- The link direction of a reservation on pavilion `n`; none where it falls outside the mesh. -/
def planLink (n : Nat) (e : PlanEntry) : Option Nat :=
  let y := n + e.dy
  if 8 ≤ y ∨ 8 ≤ e.x then none
  else match e.dir with
    | 0 => if e.x < 7 then some (7 * y + e.x) else none
    | 1 => if 1 ≤ e.x then some (56 + 7 * y + (e.x - 1)) else none
    | 2 => if y < 7 then some (112 + 7 * e.x + y) else none
    | _ => if 1 ≤ y then some (168 + 7 * e.x + (y - 1)) else none

/-- The reservations of a binary on pavilion `n`; none where one cannot be installed there. -/
def planOn (n : Nat) (plan : List PlanEntry) : Option (List Reservation) :=
  plan.foldr (fun e acc => match acc, planLink n e with
    | some l, some k => some (⟨k, e.slot⟩ :: l)
    | _, _ => none) (some [])

/-- The slots that are reserved on a link direction. -/
def reservedOn (s : State) (l : Nat) : Nat := ((List.range 16).filter (getBit s (fORG_PLANMASK_MASK l))).length

/-- A slot collision: the link direction, the slot, the holder, and whether RESMAX was exceeded. -/
structure Collision where
  link : Nat
  slot : Nat
  owner : Nat
  cap : Bool
deriving DecidableEq, Repr

/-- The first reservation that cannot be made, after those of `done`.  Where several fail, that the first in the plan's order is the
one named, and a held slot before RESMAX, is the model's choice (DESIGN CHOICE; assumption 98). -/
def collides (s : State) : List Reservation → List Reservation → Option Collision
  | _, [] => none
  | done, r :: rs =>
    if getBit s (fORG_PLANMASK_MASK r.link) r.slot then
      some ⟨r.link, r.slot, bitsOf (getF s (fORG_PLANOWN_OWNER r.link)) (4 * r.slot + 3) (4 * r.slot), false⟩
    else if getF s fORG_PROMCTL_RESMAX < reservedOn s r.link + (done.filter (fun x => x.link == r.link)).length + 1 then
      some ⟨r.link, r.slot, 0, true⟩
    else collides s (r :: done) rs

/-- Install a plan for stream `k`. -/
def installPlan (s : State) (k : Nat) (plan : List Reservation) : State :=
  let s := forEach plan (fun s r =>
    setBit (setF s (⟨rORG_PLANOWN r.link, 4 * r.slot + 3, 4 * r.slot⟩ : Fld) k) (fORG_PLANMASK_MASK r.link) r.slot true) s
  modStr s k (fun t => { t with plan := plan })

/-- Count and log a slot collision of a task at stream `k` (R267, R611). -/
def noteCollision (s : State) (t : Task) (k : Nat) (c : Collision) : State :=
  let s := setF (setF (setF s fORG_COLLSTAT_LINK c.link) fORG_COLLSTAT_SLOT c.slot) fORG_COLLSTAT_OWNER c.owner
  let s := setF (setF (setF s fORG_COLLSTAT_REQ k) fORG_COLLSTAT_CAP (if c.cap then 1 else 0)) fORG_COLLSTAT_COLL 1
  let s := bump s fORG_COLLCNT_COUNT 1
  logPut s { LogEntry.blank with
    kind := 0x0A, cause := if c.cap then 2 else 1, ctx := t.ctx, stream := k, task := t.id, data := [(regGet s rORG_COLLSTAT).toNat] }

/-! ### Hosting (R376, R379) -/

def taskBin (s : State) (t : Task) : Bin := getBin s t.ctx (t.body.bin % 256)

/-- Stream `k` can host task `t` once the streams of `also` are free. -/
def canHost (s : State) (also : List Nat) (t : Task) (k : Nat) : Bool :=
  let n := k / 2
  strAllowed t.body k && shapeFree s also t.body.width k &&
  decide (leastCores t.body.width ≤ (hostCores s t.body.width k).length) &&
  (coresOfPav n).all (fun m => getBit s fORG_ORGREADY_READY m || getBit s fORG_ORGHEDGE_HEDGED m) &&
  !(getBit s fHEDGEMISC_PAV n) && !(getBit s fHEDGEMISC_CTX t.ctx) && (planOn n (taskBin s t).body.plan).isSome

/-- The streams that can host a task, in the order of preference: halves of a pavilion in half mode first, then the lowest
number; a pre-empted task only where it was. -/
def hosts (s : State) (also : List Nat) (t : Task) : List Nat :=
  match t.st with
  | .preempted k _ => if canHost s also t k then [k] else []
  | _ =>
    let l := (List.range 16).filter (canHost s also t)
    if t.body.width ≤ 1 then l
    else l.filter (fun k => halfMode s also (k / 2)) ++ l.filter (fun k => !(halfMode s also (k / 2)))

/-- A hedge that is lasting takes core `m` out for good. -/
def coreLost (s : State) (m : Nat) : Bool :=
  s.hedges.any (fun h => h.lasting && ((h.cls == 1 && h.res == m) || (h.cls == 3 && h.res / 16 == m) || (h.cls == 4 && h.res == m) ||
    (h.cls == 2 && h.res == m / 8) || (h.cls == 11 && h.res == m / 8)))

/-- Some stream that a body permits can still come to host its width (R361 code 0x0A). -/
def canEver (s : State) (b : TaskBody) : Bool :=
  (List.range 16).any (fun k => strAllowed b k &&
    decide (leastCores b.width ≤ ((slicesOf b.width k).filter (fun m => !(coreLost s m))).length))

/-! ### The order of dispatch (R379, R385) -/

def dispatchClass (s : State) (t : Task) : Nat := pointClass s 0 (taskQ t) (eclass t)

def isPreempted (t : Task) : Bool :=
  match t.st with
  | .preempted _ _ => true
  | _ => false

/-- A smaller slack; none is infinite. -/
def slackLt (a b : Option Int) : Bool :=
  match a, b with
  | some x, some y => decide (x < y)
  | some _, none => true
  | none, _ => false

/-- Whether `t` is chosen before `u`. -/
def before (s : State) (t u : Task) : Bool :=
  let c := dispatchClass s t
  let d := dispatchClass s u
  if c ≠ d then decide (c < d)
  else if slackLt (slack s t) (slack s u) then true
  else if slackLt (slack s u) (slack s t) then false
  else if isPreempted t ≠ isPreempted u then isPreempted t
  else decide (t.order ≤ u.order)

/-- A task whose plan collided on every stream waits for a plan to be removed (R380). -/
def collWaits (s : State) (t : Task) : Bool := t.collAt == some s.planRemovals

/-- The ready tasks in the order of choice. -/
def ranked (s : State) : List (Nat × Task) := sortBy (fun a b => before s a.2 b.2) (readyTasks s)

/-- The task to dispatch next, with its index and the streams that can host it. -/
def chosen (s : State) : Option (Nat × Task × List Nat) :=
  (ranked s).findSome? (fun p =>
    if collWaits s p.2 then none
    else match hosts s [] p.2 with
      | [] => none
      | l => some (p.1, p.2, l))

/-! ### Save slots, yields and pre-emption requests (R243, R366, R388) -/

/-- A save slot of a context that is free for a task of stream `k`: it holds at most one task for the whole pavilion, or one
for each half. -/
def freeSlot (s : State) (ctx k width : Nat) : Option Nat :=
  let n := k / 2
  let whole := fun (u : SlotUse) => match getTask s u.task with
    | some t => decide (t.body.width ≤ 1)
    | none => false
  (List.range (min (getF s (fSAVEAREA_NSAVE ctx)) 8)).find? (fun sl =>
    s.slots.all (fun u => !(u.ctx == ctx && u.pav == n && u.slot == sl && (decide (width ≤ 1) || whole u || u.stream == k))))

def strTask (s : State) (k : Nat) : Option Task := if strIdle s k then none else getTask s ((getStr s k).task % 4096)

/-- The yield request of stream `k`: a ready task of equal or higher class finds no free stream, would find this one once
freed, and the running task has a free save slot here. -/
def yieldWanted (s : State) (k : Nat) : Bool :=
  match strTask s k with
  | none => false
  | some r =>
    (freeSlot s r.ctx k r.body.width).isSome &&
    (readyTasks s).any (fun p => decide (eclass p.2 ≤ eclass r) && (hosts s [] p.2).isEmpty && (hosts s [k] p.2).contains k)

/-- Stream `k` runs a bulk task, of bulk effective class, that has a free save slot. -/
def victim (s : State) (k : Nat) : Bool :=
  match strTask s k with
  | some r => (match r.st with
      | .running _ => true
      | _ => false) && r.cls == 2 && eclass r == 2 && (freeSlot s r.ctx k r.body.width).isSome
  | none => false

/-- The streams to free so that stream `k` could host a task, where each is idle or a victim. -/
def victimsFor (s : State) (t : Task) (k : Nat) : Option (List Nat) :=
  let l := (if t.body.width ≤ 1 then [k, k + 1] else if !(strIdle s (k - k % 2)) && !((getStr s (k - k % 2)).half) then [k - k % 2] else [k]).filter
    (fun j => !(strIdle s j))
  if !l.isEmpty && l.all (victim s) && canHost s l t k then some l else none

/-- When the latest of some streams' tasks was dispatched. -/
def latestDispatch (s : State) (l : List Nat) : Nat := (l.map (fun k => ((strTask s k).map (fun t => t.dispatched)).getD 0)).foldl max 0

/-- The streams whose pre-emption an urgent task asks for: those dispatched most recently, then the lowest number.  A pre-empted
task asks only for the stream that it was pre-empted from (R379). -/
def requestFor (s : State) (t : Task) : List Nat :=
  let cands := (match t.st with
    | .preempted k _ => [k]
    | _ => List.range 16).filterMap (victimsFor s t)
  let top := (cands.map (latestDispatch s)).foldl max 0
  (cands.find? (fun l => latestDispatch s l == top)).getD []

/-- Whether a pre-emption that task `i` asked for is still under way. -/
def requestOut (s : State) (i : Nat) : Bool :=
  (taskList s).any (fun p => match p.2.st with
    | .preempting _ _ _ b => b == some i
    | _ => false)

end Sys2Proof.Machine
end

