-- ==== Sys2Proof/Machine/Images.lean ====
section
/-! DEFINITION. The save images of a pre-empted task (spec/04 R153; spec/09 R366, R391): what is written into its save slot. -/

namespace Sys2Proof.Machine

open Sys2Proof

/-- The local offset of save slot `sl` of context `c` (R366). -/
def slotOff (s : State) (c sl : Nat) : Nat := getF s (fSAVEAREA_BASE c) * 65536 + 65536 * sl

/-- Write bytes at a local offset of a slice, as R275 states; offsets outside the slice hold nothing. -/
def sliceWrite (s : State) (m off : Nat) (bs : List Byte) : State :=
  if localOff off bs.length then (mergeWrite s (orgAddr m off) bs).1 else s
where
  localOff (off n : Nat) : Bool := decide (off + n ≤ sliceBytes)

/-! ### Core images (R153, R128) -/

/-- The 512 bytes of a register that is not EMPTY. -/
def regImage (w : Width) (d : RegData) : List Byte :=
  let n := w.bits / 8
  let body := (lanesOf d).flatMap (fun v => leBytes n (truncN (8 * n) v))
  if w = .w32 then body
  else body ++ List.replicate (508 - 128 * n) 0#8 ++ (expsOf d).map (fun e => BitVec.ofNat 8 (truncN 8 e))

def stateByte (m : RegMeta) : Byte :=
  BitVec.ofNat 8 (m.width.code + (if m.st = .empty then 0 else 4) + (if m.stale then 8 else 0))

/-- The provenance of a register: two ranges, an unused one empty. -/
def provImage (m : RegMeta) : List Byte :=
  (List.range 2).flatMap (fun i => match m.prov[i]? with
    | some p => leBytes 4 p.1 ++ leBytes 4 p.2
    | none => leBytes 4 0xFFFFFFFF ++ leBytes 4 0)

/-- Write the registers of a core; the contents of an EMPTY one are undefined (R153; assumption 4). -/
def saveRegs (t : Stream) (m off : Nat) (s : State) : State :=
  forEach (List.range 64) (fun s r =>
    let x := restMeta t r
    if x.st = .live then sliceWrite s m (off + 512 * r) (regImage x.width (regData s m r))
    else
      let b := drawBytes 512 s
      sliceWrite b.1 m (off + 512 * r) b.2) s

/-- Write one core's image and its table offsets. -/
def saveCore (t : Stream) (m off : Nat) (s : State) : State :=
  let s := saveRegs t m off s
  let s := sliceWrite s m (off + 32768) ((List.range 64).map (fun r => stateByte (restMeta t r)))
  let s := sliceWrite s m (off + 32832) ((List.range 64).flatMap (fun r => provImage (restMeta t r)))
  sliceWrite s m (off + 0x8440) ((List.range 4).flatMap (fun i =>
    leBytes 8 (getF s (fTBLADDR_OFFSET (m / 8) (m % 8) i) + (if getBit s (fEESTAT_TVALID (m / 8) (m % 8)) i then 2 ^ 63 else 0))))

/-! ### The stream block (R391) -/

/-- The 32 bytes of a commit entry; `off` is where its message bytes stand in the block. -/
def commitEntry (s : State) (off : Nat) : CEntry → List Byte
  | .fill ws v => leBytes 8 1 ++ leBytes 8 (ws.headD 0) ++ leBytes 8 v.toNat ++ leBytes 8 0
  | .count ws n => leBytes 8 1 ++ leBytes 8 (ws.headD 0) ++ leBytes 8 n ++ leBytes 8 0
  | .msg _ _ a _ bs => leBytes 2 2 ++ leBytes 2 bs.length ++ leBytes 4 off ++ leBytes 8 a ++ leBytes 16 0
  | .cpl op rs _ =>
    let w := match rs with
      | r :: _ => r.1
      | [] => ((findOp s op).bind (fun d => d.shares.findSome? (fun x => x.cpl))).getD 0
    leBytes 1 3 ++ leBytes 1 (if rs.isEmpty then 0 else 1) ++ leBytes 6 0 ++ leBytes 8 w ++
      leBytes 8 ((rs.head?.map (fun r => r.2.1.toNat)).getD 0) ++ leBytes 8 0

def msgBytes : CEntry → List Byte
  | .msg _ _ _ _ bs => bs
  | _ => []

/-- The entries of a commit buffer, and the message bytes they captured. -/
def commitImage (s : State) (l : List CEntry) : List Byte × List Byte :=
  l.foldl (fun (a : List Byte × List Byte) e => (a.1 ++ commitEntry s a.2.length e, a.2 ++ msgBytes e)) ([], [])

/-- Write the commit buffer of a stream block. -/
def saveCommit (t : Stream) (m off : Nat) (s : State) : State :=
  let c := commitImage s t.commit
  sliceWrite (sliceWrite (sliceWrite s m (off + 0x8918) (leBytes 2 t.commit.length)) m (off + 0x9000) c.1) m (off + 0xB000) c.2

/-- Write a stream block into the slice of the stream's first core; the layout of the weight records is not published, so their
bytes are free (assumption 4). -/
def saveStream (t : Stream) (m off : Nat) (s : State) : State :=
  let s := sliceWrite s m (off + 0x8800) ((List.range 32).flatMap (fun r => leBytes 4 (sreg t r)))
  let s := sliceWrite s m (off + 0x8880) ((List.range 16).flatMap (fun r => leBytes 8 (areg t r)))
  let lp := t.loops.reverse
  let s := sliceWrite s m (off + 0x8900) ((List.range 4).flatMap (fun i => leBytes 4 ((lp[i]?.map Prod.fst).getD 0)))
  let s := sliceWrite s m (off + 0x8910) (leBytes 1 lp.length)
  let s := sliceWrite s m (off + 0x8914) (leBytes 4 (t.preempt.getD t.nextPc))
  let b := drawBytes 64 s
  saveCommit t m off (sliceWrite b.1 m (off + 0x8920) b.2)

/-- The images of every participating core and the stream block (R391). -/
def saveImages (t : Stream) (off : Nat) (s : State) : State :=
  saveStream t (t.cores.headD 0) off (forEach t.cores (fun s m => saveCore t m off s) s)

/-- What a pre-empted task keeps of core `m`. -/
def keepCore (s : State) (m : Nat) : SavedCore :=
  let c := getCore s m
  { tile := c.tile, array := arrayAt s m,
    offsets := (List.range 4).map (fun i => getF s (fTBLADDR_OFFSET (m / 8) (m % 8) i)),
    valid := getF s (fEESTAT_TVALID (m / 8) (m % 8)) }

end Sys2Proof.Machine
end

