-- ==== Sys2Proof/Machine/Control.lean ====
section
/-! DEFINITION. Control macro-ops (spec/06): scalar and address registers, hardware loops, fences, COMMIT, the end of a
program, YIELD, and the request of a pre-emption (spec/09 R389, R390). -/

namespace Sys2Proof.Machine

open Sys2Proof

/-- A macro-op with no operand checks. -/
def plainPlan : State → Stream → Plan := fun _ _ => ⟨0, [], [], false⟩

def legalPlan (ok : State → Stream → Bool) (data : List Nat) : State → Stream → Plan :=
  fun s t => ⟨need (ok s t) 0x01, data, [], false⟩

def soVal (t : Stream) : SOpnd → Nat
  | .reg r => sreg t r.val
  | .imm v => v.toNat

/-! ### Scalar and address registers (R198) -/

def execSset (w : Who) (gap : Nat) (sd : SReg) (v : BitVec 32) (s : State) : Host.Outcome State Fault Refusal :=
  .next (mainOnly w s (fun k => issueStr k gap 1 (.sset w gap sd v) plainPlan
    (fun s => modStr s k (fun t => setSreg t sd.val v.toNat)) s))

def execSadd (w : Who) (gap : Nat) (sd sa : SReg) (b : SOpnd) (s : State) : Host.Outcome State Fault Refusal :=
  .next (mainOnly w s (fun k => issueStr k gap 1 (.sadd w gap sd sa b) plainPlan
    (fun s => modStr s k (fun t => setSreg t sd.val (sreg t sa.val + soVal t b))) s))

def execAset (w : Who) (gap : Nat) (ad : AReg) (v : BitVec 52) (s : State) : Host.Outcome State Fault Refusal :=
  .next (mainOnly w s (fun k => issueStr k gap 1 (.aset w gap ad v) plainPlan
    (fun s => modStr s k (fun t => setAreg t ad.val v.toNat)) s))

def execAadd (w : Who) (gap : Nat) (ad aa : AReg) (b : SOpnd) (s : State) : Host.Outcome State Fault Refusal :=
  .next (mainOnly w s (fun k => issueStr k gap 1 (.aadd w gap ad aa b) plainPlan
    (fun s => modStr s k (fun t => setAreg t ad.val (truncN 52 ((areg t aa.val : Int) + sext 32 (soVal t b))))) s))

/-! ### Hardware loops (R201 to R205)

An open level is its remaining count and the index of its body's first macro-op, innermost first.  `body` is the number of
macro-ops between LOOP and its ENDLOOP. -/

def loopStr (sc body : Nat) (t : Stream) : Stream :=
  if sreg t sc = 0 then { t with nextPc := t.nextPc + body + 1 }
  else { t with loops := (sreg t sc, t.nextPc) :: t.loops }

def endloopStr (t : Stream) : Stream :=
  match t.loops with
  | [] => t
  | (n, pc) :: rest => if n = 1 then { t with loops := rest } else { t with loops := (n - 1, pc) :: rest, nextPc := pc }

def loopHandler (m sc body : Nat) (s : State) : State :=
  modCore s m (fun c => { c with handler := c.handler.map (fun h =>
    if hsreg c sc = 0 then { h with pc := h.pc + body + 2 }
    else { h with loops := (hsreg c sc, h.pc + 1) :: h.loops, pc := h.pc + 1 }) })

def endloopHandler (m : Nat) (s : State) : State :=
  modCore s m (fun c => { c with handler := c.handler.map (fun h =>
    match h.loops with
    | [] => h
    | (n, pc) :: rest =>
      if n = 1 then { h with loops := rest, pc := h.pc + 1 } else { h with loops := (n - 1, pc) :: rest, pc := pc }) })

/-- The open levels of a running handler. -/
def handlerDepth (s : State) (m : Nat) : Nat := (((getCore s m).handler).map (fun h => h.loops.length)).getD 0

/-- The checks of LOOP, of ENDLOOP and of COMMIT (R203). -/
def loopPlan (sc : Nat) : State → Stream → Plan := legalPlan (fun _ t => decide (t.loops.length < 4)) [sc, 0, 0, 0]

def endloopPlan : State → Stream → Plan := legalPlan (fun _ t => !t.loops.isEmpty) [0, 0, 0, 0]

def commitPlan : State → Stream → Plan := legalPlan (fun _ t => t.loops.isEmpty) [0, 0, 0, 0]

def execLoop (w : Who) (gap : Nat) (sc : SReg) (body : Nat) (s : State) : Host.Outcome State Fault Refusal :=
  .next (match w with
    | .stream k => issueStr k.val gap 1 (.loop w gap sc body) (loopPlan sc.val)
        (fun s => modStr s k.val (loopStr sc.val body)) s
    | .handler m =>
      unlessPaused s (if decide (handlerDepth s m.val < 4) && decide (sc.val < 16) then loopHandler m.val sc.val body s
        else handlerIll s m.val 0x01))

def execEndloop (w : Who) (gap : Nat) (s : State) : Host.Outcome State Fault Refusal :=
  .next (match w with
    | .stream k => issueStr k.val gap 1 (.endloop w gap) endloopPlan (fun s => modStr s k.val endloopStr) s
    | .handler m => unlessPaused s (if handlerDepth s m.val = 0 then handlerIll s m.val 0x01 else endloopHandler m.val s))

/-! ### Fences (R237, R238) -/

/-- Whether a share of an operation goes to a peer, so that FENCE.L waits only until it is sent (R237). -/
def peerShare : ShareOp → Bool
  | .sstore x => spaceOf x.dst == 9
  | .fe a _ => spaceOf a == 9
  | .send _ _ a _ _ => spaceOf a == 9
  | _ => false

/-- Whether every packet of a share has been sent on its link: none waits for wicket credit, and none stands in the port's transmit
queue (R237).  A packet there is known by the TAG of its share's operation (R534). -/
def peerSent (s : State) (op core : Nat) : Bool :=
  s.ports.all (fun p => p.2.txns.all (fun t => t.who != .share op core ||
    (t.todo.isEmpty && !(p.2.txq.any (fun c => c.key == some t.tag)))))

def shareMeets (s : State) (op : Nat) (x : Bool) (p : Share) : Bool :=
  match p.st with
  | .done _ => true
  | .sent => !x && peerShare p.op && peerSent s op p.core
  | _ => false

/-- Whether every operation of stream `k` meets the conditions of FENCE.X (`x`) or of FENCE.L (R237). -/
def fenceMet (s : State) (k : Nat) (x : Bool) : Bool :=
  (opsOf s k).all (fun p => p.2.shares.all (shareMeets s p.1 x))

/-- Begin the waiting part of a fence or of COMMIT step 1: the stream stops, and goes on when its condition holds. -/
def beginWait (k : Nat) (w : Wait) (i : Option Instr) (s : State) : State :=
  modStr s k (fun t => { t with st := .waiting, wait := w, waitSince := tick s, held := i, late := none })

/-- The static part of a fence: the stream runs until the last write of every earlier TSTORE has landed. -/
def staticPart (k : Nat) (s : State) : State :=
  match lastStoreLand (getStr s k) with
  | some c => runTo k c s
  | none => s

def fenceEff (k : Nat) (x : Bool) (i : Instr) (s : State) : State :=
  let s := staticPart k s
  let s := modStr s k (fun t => { t with nextSlot := max t.nextSlot (t.now + (if t.check then 1 else 0)) })
  if fenceMet s k x then s else beginWait k (.fence x (getStr s k).seq) (some i) s

def execFenceL (w : Who) (gap : Nat) (s : State) : Host.Outcome State Fault Refusal :=
  .next (mainOnly w s (fun k => issueStr k gap 1 (.fenceL w gap) plainPlan (fenceEff k false (.fenceL w gap)) s))

def execFenceX (w : Who) (gap : Nat) (s : State) : Host.Outcome State Fault Refusal :=
  .next (mainOnly w s (fun k => issueStr k gap 1 (.fenceX w gap) plainPlan (fenceEff k true (.fenceX w gap)) s))

/-! ### COMMIT (R239 to R242) -/

/-- COMMIT step 3: the task ends once no operation of the stream is in flight (step 4), and the stream waits until then. -/
def commitEnd (k : Nat) (s : State) : State :=
  if (opsOf s k).isEmpty then
    modStr (countWait k s) k (fun t => { t with st := .ending, wait := .none_, ended := some endCommitted })
  else if (getStr s k).wait = .commit3 then s
  else modStr s k (fun t => { t with wait := .commit3, waitSince := tick s })

/-- COMMIT step 1 is over when FENCE.X would be: the commit buffer is then released entry by entry (step 2), and every local
word of it is accessed before step 3 is over. -/
def commitStep (k : Nat) (s : State) : State :=
  let t := getStr s k
  match t.wait with
  | .commit1 =>
    if fenceMet s k true then
      let s := modStr (countWait k s) k (fun t => { t with st := .ending, wait := .commit2, held := none })
      if t.commit.isEmpty then commitEnd k s else s
    else s
  | .commit2 => if t.commit.isEmpty && t.releasing.isEmpty then commitEnd k s else s
  | .commit3 => commitEnd k s
  | .fence x _ => if fenceMet s k x then resumeWait k 0 s else s
  | _ => s

/-- Every waiting fence and COMMIT whose condition now holds goes on, and what has ended is settled; no stream goes on while
the plots stand still (R76). -/
def progress (s : State) : State :=
  settle (if paused s then s else forEach (List.range 16) (fun s k => commitStep k s) s)

def commitEff (k : Nat) (i : Instr) (s : State) : State :=
  progress (beginWait k .commit1 (some i) (staticPart k s))

def execCommit (w : Who) (gap : Nat) (s : State) : Host.Outcome State Fault Refusal :=
  .next (mainOnly w s (fun k => issueStr k gap 1 (.commit w gap) commitPlan (commitEff k (.commit w gap)) s))

/-- A program that reaches its end without COMMIT ends its task with cause 0x0B (R242).  No macro-op is skipped there; the index
that the log, STRSKIP.PC and DETAIL take is that of the macro-op that would be next, which is the model's choice
(assumption 86). -/
def execProgramEnd (k : Fin 16) (s : State) : Host.Outcome State Fault Refusal :=
  .next (if (getStr s k.val).st = .running ∧ paused s = false then settle (skip k.val 0x0B (getStr s k.val).nextPc [] s) else s)

/-! ### Pre-emption requests (R389, R390) -/

def listMeets (a b : List Nat) : Bool := a.any (fun x => b.contains x)

/-- Whether a macro-op may be abandoned and run again from its beginning (R106, R139, R165, R161). -/
def FlightOp.restartable (op : FlightOp) : Bool := !(listMeets op.reads op.writes)

/-- What a macro-op reads and writes, as R389 weighs it: tile registers, and slice ranges. -/
structure Touch where
  reads : List Nat
  writes : List Nat
  extent : List Range
deriving DecidableEq, Repr

def Flight.touch (f : Flight) : Touch := ⟨f.op.reads, f.op.writes, f.extent⟩

/-- Whether abandoning a macro-op is safe beside one that stays: registers and slice bytes do not cross (R389). -/
def apart (f g : Touch) : Bool :=
  !(listMeets f.writes (g.reads ++ g.writes)) && !(listMeets f.reads g.writes) &&
  !(f.extent.any (fun a => g.extent.any (rangeBlocks a)))

/-- The length of the longest run of last macro-ops in flight that may be abandoned (R389): `fs` newest first, after the
waiting or held macro-op, which is the last of the run where there is one, and must be restartable itself. -/
def abandonable (last : Option Touch) (fs : List Flight) : Option Nat :=
  (List.range (fs.length + 1)).reverse.find? (fun n =>
    last.toList.all (fun x => !(listMeets x.reads x.writes)) &&
    (fs.take n).all (fun f => f.op.restartable && !f.spoilt) &&
    (last.toList ++ (fs.take n).map Flight.touch).all (fun f => (fs.drop n).all (fun g => apart f g.touch)))

/-- What a held macro-op would read and write: those that are held name tile registers only as TLOAD, TSTORE and EPROG do. -/
def heldTouch (i : Instr) (ranges : List Range) : Touch :=
  match i with
  | .tload _ _ o => ⟨[], tileRegs o.t, ranges⟩
  | .tstore _ _ o _ => ⟨tileRegs o.t, [], ranges⟩
  | .eprog _ _ o => ⟨tileRegs o.a ++ tileList o.b.toList, tileRegs o.d, ranges⟩
  | _ => ⟨[], [], ranges⟩

/-- Whether a waiting remote macro-op has changed nothing and can be withdrawn: an FWAIT always; a take while it waits in this module
(R224, R230). -/
def replyRestartable (s : State) (op : Nat) : Option Instr → Bool
  | some (.fwait _ _ _) => true
  | some _ => s.bankq.any (fun b => b.dest == .remote op) || s.waiters.any (fun w => w.agent == .remote op)
  | none => false

/-- Whether a stream waits for a take at a peer that has changed nothing as far as its module knows: no reply has come.  It may be
pre-empted, as FWAIT may (R224, R230); its request cannot be withdrawn from the peer, so it stays there, and the task takes its
reply when it goes on (assumption 84). -/
def parks (s : State) (t : Stream) : Bool :=
  match t.st, t.wait with
  | .waiting, .reply op _ _ _ =>
    !(replyRestartable s op t.held) && !(s.tokens.any (fun k => match k.kind with
      | .reply o _ => o == op
      | _ => false)) && (match t.held with
        | some (.ftake _ _ _) => true
        | some (.fcountMinus _ _ _ _ _ wait _) => wait
        | _ => false)
  | _, _ => false

/-- Whether a stream's waiting macro-op has had no effect yet (R223, R224, R230, R232, R238, R239). -/
def waitRestartable (s : State) (t : Stream) : Bool :=
  match t.st, t.wait with
  | .waiting, .commit2 => false
  | .waiting, .commit3 => false
  | .waiting, .reply op _ _ _ => replyRestartable s op t.held
  | .waiting, _ => t.held.isSome
  | .held, _ => true
  | _, _ => true

/-- A stream as it stands before its waiting macro-op, which has had no effect: it issues again at the resume. -/
def unissue (t : Stream) : Stream :=
  if t.st = .waiting then { closeWords t with nextPc := t.pc, seq := t.seq - 1 } else t

/-- A stream whose take goes on waiting at a peer while its task is pre-empted. -/
def park (t : Stream) : Stream := { t with st := .held, held := none, parked := some (t.wait, t.held, none), wait := .none_ }

/-- The arrays as they were before the first of some macro-ops that changed them (R107). -/
def arraysBefore (l : List Flight) : List (Nat × ArrayAt) := (l.findSome? (fun f => if f.before.isEmpty then none else some f.before)).getD []

/-- Take macro-ops in flight out of the pipeline of stream `k`: they stop at once, their later writes do not land, and the
arrays are as they were before them.  They are kept for the resume (R389). -/
def abandon (k : Nat) (gone : List Flight) (s : State) : State :=
  let seqs := gone.map (fun f => f.seq)
  let s := modStr s k (fun t => { t with
    flights := t.flights.filter (fun f => !(seqs.contains f.seq)),
    gone := gone.map (fun f => { f with feeds := [], marked := [], spoilt := false, op := match f.op with
      | .wload w => .wload { w with slots := [] }
      | op => op }),
    lands := t.lands.filter (fun l => !(seqs.contains l.seq)),
    stores := t.stores.filter (fun x => !(seqs.contains x.seq)),
    ranges := t.ranges.filter (fun r => !(r.static && seqs.contains r.owner)) })
  forEach (arraysBefore gone) (fun s p => setArray s p.1 p.2) s

/-- A pre-emption request: the bandstand stops issuing, abandons S, and lets every other macro-op run to its end (R389).  A
waiting or held macro-op is the last of those in flight: where it cannot be abandoned with S empty of it, it still issues and
runs to its end first (`obliged`).  The cycles of a wait or a hold that ends here are counted.  STRSTAT.STATE shows code 3 from then on
until the task is saved: the spec's codes name no such state (assumption 104). -/
def requestPreempt (k : Nat) (s : State) : State :=
  let t := getStr s k
  let parked := parks s t
  let again := waitRestartable s t || parked
  let held := if t.st = .held then t.held.map (fun i => heldTouch i t.heldAs) else none
  let n := if again then abandonable held t.flights.reverse else some 0
  let obliged := n.isNone
  let again := again && !obliged
  let gone := t.flights.drop (t.flights.length - n.getD 0)
  let resume := match gone with
    | f :: _ => f.pc
    | [] => if t.st = .waiting ∧ again = true then t.pc else if obliged then t.nextPc + 1 else t.nextPc
  let s := if t.st = .waiting ∧ again = true then (if parked then countWait k s else withdraw k (countWait k s)) else s
  let s := if obliged then s else countHold k s
  let s := modStr (abandon k gone s) k (fun t => { t with preempt := some resume, obliged := obliged })
  let s := drain k s
  modStr s k (fun t => if parked then park t else if again then { unissue t with st := .held, wait := .none_ } else t)

/-- Whether a stream's task can still be pre-empted: it is not ending, and its COMMIT has not reached step 2 (R390). -/
def preemptible (t : Stream) : Bool :=
  t.ended.isNone && t.preempt.isNone && t.st != .ending && (match t.wait with
    | .commit2 => false
    | .commit3 => false
    | _ => true) && t.st != .idle

/-- Begin the pre-emption of the task on stream `k`, if it has a free save slot (R243, R388). -/
def beginPreempt (k : Nat) (by_ : Option Nat) (s : State) : State :=
  let t := getStr s k
  match getTask s (t.task % 4096) with
  | none => s
  | some tk =>
    match freeSlot s tk.ctx k tk.body.width, preemptible t with
    | some sl, true =>
      let s := setTask s (t.task % 4096) (some { tk with st := .preempting k sl false by_ })
      requestPreempt k { s with slots := s.slots ++ [⟨tk.ctx, k / 2, sl, k, t.task % 4096⟩] }
    | _, _ => s

def execYield (w : Who) (gap : Nat) (s : State) : Host.Outcome State Fault Refusal :=
  .next (mainOnly w s (fun k => issueStr k gap 1 (.yield w gap) plainPlan
    (fun s => if yieldWanted s k then beginPreempt k none s else s) s))

end Sys2Proof.Machine
end

