-- ==== Sys2Proof/Machine/Memory.lean ====
section
/-! DEFINITION. The device address map beyond the local slices (spec/07 R271 to R275; spec/08 R293 to R303, R329 to R334;
spec/11 R441, R457 to R461): DRAM and its blocks in error, translation and its two buffers, and the copying of bytes
between any two spaces. -/

namespace Sys2Proof.Machine

open Sys2Proof

/-! ### Stacks and DPAs (R293) -/

def stackBytes : Nat := 0x900000000
def dpaEnd : Nat := 0x12000000000

def dpaStack (d : Nat) : Nat := bitsOf d 16 12
def stackOffset (d : Nat) : Nat := d / 2 ^ 17 * 4096 + d % 4096
def dpaOf (k off : Nat) : Nat := off / 4096 * 2 ^ 17 + k * 4096 + off % 4096
def pcOf (d : Nat) : Nat := d / 2 ^ 17 % 64
/-- The pseudo-channel offset, bank and row of a DPA. -/
def pcOffset (d : Nat) : Nat := d / 2 ^ 17 / 64 * 4096 + d % 4096
def bankOfDpa (d : Nat) : Nat := bitsOf (pcOffset d) 13 10
def rowOfDpa (d : Nat) : Nat := bitsOf (pcOffset d) 29 14

def stackReady (s : State) (k : Nat) : Bool := getBit s fSLA_READY_MAP k
def stackHedged (s : State) (k : Nat) : Bool := getBit s fSLA_HEDGED_MAP k

/-- Whether a hedge of class `cls` on `res` is in force, and whether it is lasting (R588, R599). -/
def hedgeOf (s : State) (cls res : Nat) : Option Hedge := s.hedges.find? (fun h => h.cls == cls && h.res == res)
def lastingHedge (s : State) (cls res : Nat) : Bool := ((hedgeOf s cls res).map (fun h => h.lasting)).getD false

/-- Accesses to a hedged stack fail, and to a pseudo-channel whose hedge is lasting (R333, R334). -/
def dramFails (s : State) (d : Nat) : Bool :=
  stackHedged s (dpaStack d) || (getBit s (fSTK_PCHEDGE_HEDGED (dpaStack d)) (pcOf d) && lastingHedge s 5 (64 * dpaStack d + pcOf d))

/-- Whether a probe or a repair still makes accesses to a pseudo-channel wait: for 3 ms at most from the hedge on (R332). -/
def pcWaits (s : State) (d : Nat) : Bool :=
  getBit s (fSTK_PCHEDGE_HEDGED (dpaStack d)) (pcOf d) &&
  (((hedgeOf s 5 (64 * dpaStack d + pcOf d)).map (fun h => decide (tick s < h.began + 300000))).getD true)

/-- Accesses wait in a stack that is not ready or whose die link retrains, and in a pseudo-channel that is hedged for a
probe or a repair (R292, R332, R337). -/
def dramWaits (s : State) (d : Nat) : Bool :=
  !(dramFails s d) && (!(stackReady s (dpaStack d)) || s.lodge.linkWait.contains (dpaStack d) || pcWaits s d)

/-! ### Blocks (R329 to R331) -/

def dramBlock (d : Nat) : Nat := d / 64 * 64
def dramErrAt (s : State) (d : Nat) : Nat := amGet (fun _ => 0) s.dramErr (dramBlock d)
def setDramErr (s : State) (d e : Nat) : State := { s with dramErr := amSet (fun _ => 0) s.dramErr (dramBlock d) e }

/-- An uncorrectable block: UELAST, UECNT and a log entry naming reader (0), scrubber (1) or merge write (2) (R330,
R611).  How many symbols are in error is free. -/
def noteDramUe (s : State) (d by_ : Nat) : State :=
  let k := dpaStack d
  let s := bump (setF (setF s (fSTK_UELAST_UE k) 1) (fSTK_UELAST_OFFSET k) (stackOffset d / 64)) (fSTK_UECNT_COUNT k) 1
  let r := reportUe s 5 (64 * k + pcOf d) (getBit s (fSTK_PCHEDGE_HEDGED k) (pcOf d))
  let x := drawBytes 8 r.1
  logPut x.1 { LogEntry.blank with
    kind := 0x03, cause := by_, rclass := 5, res := 64 * k + pcOf d, addr := 2 * 2 ^ 48 + k * 2 ^ 36 + stackOffset d,
    flags := if r.2 then 1 else 0,
    data := [stackOffset d, leVal x.2] }

/-- A corrected block: CECNT, and a write-back to make (R330). -/
def noteDramCe (s : State) (d : Nat) : State :=
  let s := bump s (fSTK_CECNT_COUNT (dpaStack d)) 1
  { s with dramWb := if s.dramWb.contains (dramBlock d) then s.dramWb else s.dramWb ++ [dramBlock d] }

/-- Read `n` bytes of DRAM that lie in one granule: each block is read whole (R330, R331).  Answers whether a block was
uncorrectable. -/
def dramAccess (s : State) (d n : Nat) : State × Bool :=
  let blocks := (List.range ((d % 64 + n + 63) / 64)).map (fun i => dramBlock d + 64 * i)
  let ue := blocks.any (fun b => dramErrAt s b == 2)
  let s := forEach (blocks.filter (fun b => dramErrAt s b != 0))
    (fun s b => if dramErrAt s b = 2 then noteDramUe s b 0 else noteDramCe s b) s
  (bump s (fSTK_RDBYTES_COUNT (dpaStack d)) n, ue)

/-- A block of DRAM is good again, and nothing is left to write back. -/
def mendBlock (s : State) (d : Nat) : State :=
  { s with dramErr := amErase s.dramErr (dramBlock d), dramWb := s.dramWb.filter (fun b => b != dramBlock d) }

/-- Write bytes to DRAM within one granule: a block written whole is good again; a block written in part is read first, so a
correctable one is counted and good again, and the part of a write that meets an uncorrectable block is dropped (R330,
R331).  Answers whether a part was dropped. -/
def dramStore (s : State) (d : Nat) (bs : List Byte) : State × Bool :=
  (cutAt 64 (bs.length / 64 + 2) d bs.length).foldl (fun (acc : State × Bool) c =>
    let part := (bs.drop (c.1 - d)).take c.2
    let s := if c.2 < 64 then bump acc.1 (fSTK_RDBYTES_COUNT (dpaStack c.1)) 64 else acc.1
    if dramErrAt s c.1 = 2 ∧ c.2 < 64 then (noteDramUe s c.1 2, true)
    else
      let s := if dramErrAt s c.1 = 1 ∧ c.2 < 64 then bump s (fSTK_CECNT_COUNT (dpaStack c.1)) 1 else s
      (mendBlock (dramWrite s c.1 part) c.1, acc.2)) (s, false)

/-! ### The Orangery as dynamic accesses see it (R274, R275, R592) -/

/-- Whether a bank of a range is hedged, so that dynamic data accesses fail (R588). -/
def orgHedged (s : State) (a n : Nat) : Bool :=
  getBit s fORG_ORGHEDGE_HEDGED (orgSlice a) ||
  (cutAt 256 (n / 256 + 2) a n).any (fun c => getBit s (fSLC_BANKHEDGE_HEDGED (orgSlice a)) (bankOf c.1))

/-- Read Orangery bytes as a dynamic agent: the bytes, and whether the access fails (R273, R274). -/
def orgAccess (s : State) (a n : Nat) : State × Bool :=
  if orgHedged s a n then (s, true) else (noteRead s a n 0, orgUe s a n)

/-- Write Orangery bytes as a dynamic agent (R275, R588). -/
def orgStore (s : State) (a : Nat) (bs : List Byte) : State × Bool :=
  if orgHedged s a bs.length then (s, true) else mergeWrite s a bs

/-! ### Page tables (R298 to R301) -/

/-- What a walk ends in: a translation of a page, a failure with its status, a malformed entry, or a page that is not
resident; it waits while a table read must wait. -/
inductive Walk where
  | waits
  | page (t : Tlb)
  | fail (status : Nat)
  | bad (entry dpa : Nat)
  | absent (base size : Nat)
deriving DecidableEq, Repr

/-- The index bits of a virtual address at a level (R298). -/
def vaIndex (va : Nat) : Nat → Nat
  | 0 => bitsOf va 47 39
  | 1 => bitsOf va 38 30
  | 2 => bitsOf va 29 21
  | _ => bitsOf va 20 16

/-- Whether an entry read at a level is malformed (R299, R300). -/
def pteBad (lvl e : Nat) : Bool :=
  let leaf := bitOf e 1
  let addr := bitsOf e 40 8 * 256
  let align := if leaf then (if lvl = 2 then 2 ^ 21 else 2 ^ 16) else if lvl = 2 then 256 else 4096
  bitsOf e 63 41 != 0 || bitsOf e 7 5 != 0 || (leaf && decide (lvl ≤ 1)) || (!leaf && lvl == 3) ||
  addr % align != 0 || decide (dpaEnd ≤ addr)

/-- Walk from a table at `tab` (level `lvl`), for a read or a write. -/
def walkFrom (s : State) (ctx va : Nat) (write : Bool) : Nat → Nat → Nat → State × Walk
  | 0, _, _ => (s, .fail 4)
  | fuel + 1, lvl, tab =>
    let d := tab + 8 * vaIndex va lvl
    let r := dramAccess s d 8
    if dramWaits s d then (s, .waits)
    else if dramFails s d then (s, .fail 1)
    else if r.2 then (r.1, .fail 1)
    else
      let e := leVal (dramRead s d 8)
      if !(bitOf e 0) then (r.1, .fail 4)
      else if pteBad lvl e then (r.1, .bad e d)
      else if bitOf e 1 then
        let size := if lvl = 2 then 2 ^ 21 else 2 ^ 16
        if (write && !(bitOf e 3)) || (!write && !(bitOf e 2)) then (r.1, .fail 4)
        else if !(bitOf e 4) then (r.1, .absent (va / size * size) size)
        else (r.1, .page ⟨ctx, va / size * size, size, bitsOf e 40 8 * 256, bitOf e 2, bitOf e 3, none⟩)
      else walkFrom r.1 ctx va write fuel (lvl + 1) (bitsOf e 40 8 * 256)

/-- One page walk (R300, R301): WALKS counts it, and a malformed entry is counted and logged. -/
def walk (s : State) (ctx va : Nat) (write : Bool) : State × Walk :=
  if !(isSet s (fSLA_CTXMEM_EN ctx)) then (s, .fail 4)
  else
    let s' := bump s fSLA_WALKCNT_WALKS 1
    let r := walkFrom s' ctx va write 4 0 (getF s (fSLA_CTXMEM_ROOT ctx) * 4096)
    match r.2 with
    | .waits => (s, .waits)
    | .bad e d =>
      let s := bump (setF r.1 fSLA_WALKCNT_BAD 1) fSLA_WALKCNT_BADCNT 1
      (logPut s { LogEntry.blank with kind := 0x04, cause := 3, ctx := ctx, addr := 2 ^ 48 + va, data := [e, d] }, .fail 4)
    | _ => r

def tlbHit (l : List Tlb) (ctx va : Nat) : Option Tlb :=
  l.find? (fun t => t.ctx == ctx && decide (t.base ≤ va) && decide (va < t.base + t.size))

/-- Keep a translation, the oldest entry making room in a full buffer (assumption 10). -/
def tlbPut (cap : Nat) (l : List Tlb) (t : Tlb) : List Tlb := if l.length < cap then l ++ [t] else l.drop 1 ++ [t]

/-- Translate an address of space 0x1 for context `ctx`, in the DMA path (`sla` false) or the slath path (R294, R301). -/
def translate (s : State) (ctx va : Nat) (write sla : Bool) : State × Walk :=
  match tlbHit (if sla then s.slaTlb else s.dmaTlb) ctx va with
  | some t => if (write && !t.w) || (!write && !t.r) then (s, .fail 4) else (s, .page t)
  | none =>
    let r := walk s ctx va write
    match r.2 with
    | .page t =>
      (if sla then { r.1 with slaTlb := tlbPut 4096 r.1.slaTlb t } else { r.1 with dmaTlb := tlbPut 2048 r.1.dmaTlb t }, r.2)
    | _ => r

/-! ### Any device address -/

/-- Where an access of one piece lands: a memory and its key, or a failure with its status, or a page fault; it waits while
its page walk does. -/
inductive Loc where
  | org (a : Nat)
  | dram (d : Nat)
  | host (a : Nat)
  | peer (a : Nat)
  | bad (status : Nat)
  | fault (base size va : Nat)
  | waits
deriving DecidableEq, Repr

/-- The DMA path holds the translation that the host's translation agent gave for a page of space 0x8 (R458), under the PASID of the
request (R582). -/
def atsHold (s : State) (ctx a : Nat) : State :=
  let page := a / 4096 * 4096
  let tag := pasidOf s (some ctx)
  if s.dmaTlb.any (fun t => t.ctx == ctx && t.base == page && t.pasid == tag) then s
  else { s with dmaTlb := tlbPut 2048 s.dmaTlb ⟨ctx, page, 4096, pcieAddr s page, true, true, tag⟩ }

/-- Locate the piece at device address `a`, which crosses no 4 KiB boundary. -/
def locate (s : State) (ctx a : Nat) (write sla : Bool) : State × Loc :=
  match spaceOf a with
  | 0 => (s, if orgAssigned a then .org a else .bad 4)
  | 1 =>
    let r := translate s ctx (inSpace a) write sla
    match r.2 with
    | .page t => (r.1, .dram (t.dpa + (inSpace a - t.base)))
    | .fail st => (r.1, .bad st)
    | .bad _ _ => (r.1, .bad 4)
    | .absent b z => (r.1, .fault b z (inSpace a))
    | .waits => (s, .waits)
  | 2 => (s, if bitsOf a 47 41 = 0 ∧ bitsOf a 35 0 < stackBytes then .dram (dpaOf (bitsOf a 40 36) (bitsOf a 35 0)) else .bad 4)
  | 8 => (if isSet s fHOST_LINKSTAT_ATSEN then atsHold s ctx a else s, .host a)
  | 9 => (s, .peer a)
  | _ => (s, .bad 4)

/-- Read a piece on behalf of a context: its bytes, and the status of R179 (0 for success).  `hostSt` is how the host's completer answers. -/
def readLoc (s : State) (ctx : Option Nat) (l : Loc) (n hostSt : Nat) : State × List Byte × Nat :=
  match l with
  | .org a => let r := orgAccess s a n; (r.1, orgRead s a n, if r.2 then 1 else 0)
  | .dram d =>
    if dramFails s d then (s, [], 1) else let r := dramAccess s d n; (r.1, dramRead s d n, if r.2 then 1 else 0)
  | .host a => (sendUp s ctx false a n, fromHost s a n, hostSt)
  | .bad st => (s, [], st)
  | _ => (s, [], 4)

def writeLoc (s : State) (ctx : Option Nat) (l : Loc) (bs : List Byte) : State × Nat :=
  match l with
  | .org a => let r := orgStore s a bs; (r.1, if r.2 then 1 else 0)
  | .dram d => if dramFails s d then (s, 1) else let r := dramStore s d bs; (r.1, if r.2 then 1 else 0)
  | .host a => (toHost s ctx a bs, 0)
  | .bad st => (s, st)
  | _ => (s, 4)

/-- How a copy ends: done with its status, the bytes moved and the space that failed; or halted at a page. -/
inductive CopyOut where
  | done (status bytes space : Nat)
  | fault (bytes base size va : Nat) (write : Bool)
deriving DecidableEq, Repr

/-- Copy pieces in order until one fails or faults.  R184 leaves the order of the bytes open; where the rows of a destination
overlap, or a destination overlaps its source, the model's order shows: that it is ascending is the model's choice
(assumption 105). -/
def copyRun (ctx hostSt : Nat) : List (Nat × Nat × Nat) → Nat → State → State × CopyOut
  | [], n, s => (s, .done 0 n 0)
  | (a, b, k) :: rest, n, s =>
    let l := locate s ctx a false false
    match l.2 with
    | .fault pb z va => (l.1, .fault n pb z va false)
    | _ =>
      let m := locate l.1 ctx b true false
      match m.2 with
      | .fault pb z va => (m.1, .fault n pb z va true)
      | _ =>
        let r := readLoc m.1 (some ctx) l.2 k hostSt
        if r.2.2 ≠ 0 then (r.1, .done r.2.2 n (spaceOf a))
        else
          let w := writeLoc r.1 (some ctx) m.2 r.2.1
          if w.2 ≠ 0 then (w.1, .done w.2 n (spaceOf b)) else copyRun ctx hostSt rest (n + k) w.1

/-- Whether some piece of a list lies in a stack that makes it wait (R332, R337). -/
def waitsAt (s : State) (ctx a : Nat) (write : Bool) : Bool :=
  match (locate s ctx a write false).2 with
  | .dram d => dramWaits s d
  | .waits => true
  | _ => false

/-! ### Page faults (R459 to R461) -/

/-- The entries of the fault ring (R480). -/
def faultRing (s : State) : Nat := 2 ^ (min (getF s fDMA_FLTRING_SIZE) 6 + 6)

/-- A free fault identifier: an index not outstanding. -/
def freeFid (s : State) : Option Nat :=
  (List.range 256).find? (fun i => s.faults.all (fun f => f.fid.map (fun x => x % 256) != some i))

/-- Write the record of the first fault that waits, once an identifier and a ring entry are free (R459). -/
def deliverFault (s : State) : State :=
  match s.faults.find? (fun f => f.fid.isNone) with
  | none => s
  | some f =>
    let t := getF s fDMA_FLTPTR_TAIL
    let room := isSet s fDMA_FLTRING_EN && decide ((t + 2 ^ 32 - getF s fDMA_FLTPTR_HEAD) % 2 ^ 32 < faultRing s)
    match freeFid s with
    | none => s
    | some i =>
      if !room then s
      else
        let fid := (amGet (fun _ => 0) s.fidGens i + 1) % 16 * 4096 + i
        let s := { s with fidGens := amSet (fun _ => 0) s.fidGens i ((amGet (fun _ => 0) s.fidGens i + 1) % 16) }
        let at_ := getF s fDMA_FLTRING_ADDR * 32 + t % faultRing s * 32
        let ph := if t / faultRing s % 2 = 0 then 128 else 0
        let s := toHost s (some f.ctx) at_ (leBytes 1 f.source ++ leBytes 1 f.ctx ++ leBytes 1 f.access ++ leBytes 1 ph ++ leBytes 2 fid ++
          leBytes 2 f.agent ++ leBytes 8 f.va ++ leBytes 2 f.task ++ leBytes 6 0 ++ leBytes 8 f.tick)
        let s := setF s fDMA_FLTPTR_TAIL (t + 1)
        let s := { s with faults := s.faults.map (fun g => if g == f then { g with fid := some fid } else g) }
        let s := setF s fDMA_FLTSTAT_OPEN (s.faults.filter (fun g => g.fid.isSome)).length
        let s := logPut s { LogEntry.blank with kind := 0x07, cause := 1, ctx := f.ctx, addr := f.va, data := [fid] }
        irqSource s 1

/-- Raise a device page fault, or join the one outstanding on the same page (R459). -/
def raiseFault (s : State) (f : PageFault) (who : FaultBy) : State :=
  if s.faults.any (fun g => g.ctx == f.ctx && g.base == f.base && g.size == f.size) then
    { s with faults := s.faults.map (fun g =>
        if g.ctx == f.ctx && g.base == f.base && g.size == f.size then { g with by_ := g.by_ ++ [who] } else g) }
  else
    let s := { s with faults := s.faults ++ [{ f with by_ := [who] }] }
    let s1 := deliverFault s
    if (s1.faults.filter (fun g => g.fid.isNone)).length < (s.faults.filter (fun g => g.fid.isNone)).length then s1
    else bump (setF s1 fDMA_FLTSTAT_WAIT 1) fDMA_FLTSTAT_WAITCNT 1

end Sys2Proof.Machine
end

