-- ==== Sys2Proof/Machine/Runs.lean ====
section
/-! DEFINITION. The runs of a DMA descriptor (spec/11 R465, R466, R468, R472, R475): their addresses in traversal order, the
checksums, and how a run ends, at this module or at a peer. -/

namespace Sys2Proof.Machine

open Sys2Proof

/-! ### CRC-32C (R468) -/

def crcCStep : Nat → Nat → Nat
  | 0, c => c
  | n + 1, c => crcCStep n (if c % 2 = 1 then Nat.xor (c / 2) 0x82F63B78 else c / 2)

/-- The register of CRC-32C after some bytes. -/
def crcCReg (c : Nat) : List Byte → Nat
  | [] => c
  | b :: bs => crcCReg (crcCStep 8 (Nat.xor c b.toNat)) bs

def crc32c (seed : Nat) (bs : List Byte) : Nat := Nat.xor (crcCReg (Nat.xor (seed % 2 ^ 32) 0xFFFFFFFF) bs) 0xFFFFFFFF

/-! ### Runs in traversal order (R465) -/

def Desc.runs (d : Desc) : Nat := d.n1 * d.n2 * d.n3

/-- The offset of run `i` from the base, by the three steps of its side. -/
def Desc.offset (d : Desc) (steps : List Int) (i : Nat) : Int :=
  ((i % d.n1 : Nat) : Int) * steps.getD 0 0 + ((i / d.n1 % d.n2 : Nat) : Int) * steps.getD 1 0 +
  ((i / (d.n1 * d.n2) : Nat) : Int) * steps.getD 2 0

def Desc.srcAt (d : Desc) (i : Nat) : Nat := truncN 52 ((d.src : Int) + d.offset d.ss i)
def Desc.dstAt (d : Desc) (i : Nat) : Nat := truncN 52 ((d.dst : Int) + d.offset d.ds i)

/-- The bytes of a FILL run: the pattern, from its first byte. -/
def Desc.pattern (d : Desc) : List Byte := (List.range d.run).map (fun i => (leBytes 8 d.src).getD (i % 8) 0#8)

/-- Whether a copy's source and destination bytes overlap. -/
def Desc.overlaps (d : Desc) : Bool :=
  d.op == 0 && (List.range d.runs).any (fun i => (List.range d.runs).any (fun j => Machine.overlaps (d.srcAt i) d.run (d.dstAt j) d.run))

/-- The bytes that a run writes: those it has read, or free bytes where source and destination overlap (R466; assumption 4). -/
def outBytes (s : State) (d : Desc) (bs : List Byte) : State × List Byte :=
  if d.overlaps then drawBytes bs.length s else (s, bs)

/-! ### Checksums (R468) -/

/-- The kind of a descriptor's checksum: 0 none, 1 CRC-32C, 2 additive. -/
def Desc.csumKind (d : Desc) : Nat := bitsOf d.flags 3 2

def sumWords (l : List (List Byte)) : Nat := (l.map leVal).sum

/-- The checksum takes the bytes that stand in `tail`; an additive one keeps a partial word there. -/
def absorb (d : Desc) (c : Chan) : Chan :=
  match d.csumKind with
  | 1 => { c with csum := crcCReg c.csum c.tail, tail := [] }
  | 2 =>
    let n := c.tail.length / 4
    { c with csum := (c.csum + sumWords (chunk 4 n c.tail)) % 2 ^ 32, tail := c.tail.drop (4 * n) }
  | _ => { c with tail := [] }

/-- The checksum before the first byte. -/
def Desc.csumStart (d : Desc) : Nat := if d.csumKind = 1 then Nat.xor d.seed 0xFFFFFFFF else d.seed

/-- The value that bytes 112 to 115 take after a descriptor that ended OK. -/
def csumValue (d : Desc) (c : Chan) : Nat :=
  match d.csumKind with
  | 1 => Nat.xor c.csum 0xFFFFFFFF
  | 2 => (c.csum + leVal c.tail) % 2 ^ 32
  | _ => 0

/-! ### The end of a run -/

/-- The class of a channel's bursts. -/
def chanCls (s : State) (ch : Nat) : Nat := getF s (fCHCTL_CLASS ch)

/-- The command queue from which a channel's chain was accepted. -/
def chanQueue (s : State) (ch : Nat) : Nat := 8 * (getChan s ch).ctx + (getChan s ch).q

/-- The class of a channel's next burst at the DMA arbitration point (R383, R384). -/
def chanPoint (s : State) (ch : Nat) : Nat := pointClass s 1 (chanQueue s ch) (chanCls s ch)

/-- A run has been performed, its bytes standing in `tail`: the next one follows, or the descriptor ends. -/
def finishRun (s : State) (ch : Nat) (d : Desc) : State :=
  let c := absorb d (getChan s ch)
  let s := setChan s ch { c with
    idx := c.idx + 1, bytes := c.bytes + d.run, token := false, phase := 0,
    st := if d.runs ≤ c.idx + 1 then .ending else .running }
  bump s (fCHBYTES_BYTES ch) d.run

/-- A run ends its descriptor with a status (R472). -/
def failRun (s : State) (ch status space : Nat) : State :=
  modChan s ch (fun c => { c with st := .ending, status := status, space := space, phase := 0, heldAt := none })

/-- Send the bytes of a run that stand last in `tail` to a peer. -/
def runToPeer (s : State) (ch : Nat) (d : Desc) : State :=
  let c := getChan s ch
  let o := outBytes (setChan s ch { c with st := .peer, phase := 2 }) d (c.tail.drop (c.tail.length - d.run))
  peerWrite o.1 (.dma ch (getF s (fCHSTAT_DID ch))) (128 + ch) c.ctx (chanPoint s ch) [(d.dstAt c.idx, o.2)]

/-- An answer to an earlier generation of the channel is dropped and counted (R475). -/
def chanStale (s : State) (ch did : Nat) : State :=
  logEvent (bump s fDMA_STALECNT_COUNT 1) 0x09 4 0 [did, getF s (fCHCTL_GEN ch) * 4096 + (getChan s ch).pos % 4096, 0, 0]

/-- A peer has answered a channel: an answer to an earlier generation is dropped and counted (R475); data that a peer sent
and that go on to a peer are sent now; else the run is done, or ends its descriptor. -/
def chanAnswered (s : State) (ch did status : Nat) : State :=
  let gen := getF s (fCHCTL_GEN ch)
  let c := getChan s ch
  if did / 4096 ≠ gen then chanStale s ch did
  else match c.st, c.desc with
    | .peer, some d =>
      if status ≠ 0 then failRun s ch status 9
      else if c.phase = 1 ∧ d.op = 0 ∧ spaceOf d.dst = 9 then runToPeer s ch d
      else finishRun s ch d
    | _, _ => s

/-- A channel meets a page that is not resident, and halts (R459, R461). -/
def faultChan (s : State) (ch base size va : Nat) (write : Bool) : State :=
  let c := getChan s ch
  raiseFault (setChan s ch { c with st := .faulted, heldAt := none })
    { fid := none, ctx := c.ctx, base := base, size := size, by_ := [], source := 2, access := if write then 2 else 1,
      agent := ch, va := 2 ^ 48 + va, task := 0, tick := tick s } (.dma ch)

/-! ### A channel's next run -/

/-- The pieces that the next run reads and those that it writes, none crossing 4 KiB; a peer's are not pieces of this module. -/
def runSrcs (d : Desc) (idx : Nat) : List (Nat × Nat) :=
  if d.op = 1 ∨ spaceOf (d.srcAt idx) = 9 then [] else cutAt 4096 (d.run / 4096 + 2) (d.srcAt idx) d.run
def runDsts (d : Desc) (idx : Nat) : List (Nat × Nat) :=
  if d.op = 2 ∨ spaceOf (d.dstAt idx) = 9 then [] else cutAt 4096 (d.run / 4096 + 2) (d.dstAt idx) d.run

/-- The peers' ports that a run uses. -/
def runPorts (d : Desc) : List Nat :=
  (if d.op ≠ 1 ∧ spaceOf d.src = 9 then [peerPort d.src] else []) ++ (if d.op ≠ 2 ∧ spaceOf d.dst = 9 then [peerPort d.dst] else [])

/-- Whether a run has, or needs no more than, a request that stands on its line (R470). -/
def requested (s : State) (c : Chan) (d : Desc) : Bool :=
  !(bitOf d.flags 0) || c.token || (getF s (fDMA_REQ_KIND d.line) == 0 && getF s (fDMA_REQ_PEND d.line) != 0)

/-- Whether packets of a share, or of a channel's run (operation 0, 64 + channel), are still on their way (R261, R285). -/
def onTheWay (s : State) (op core : Nat) : Bool := s.packets.any (fun p => p.op == op && p.core == core)

/-- The descriptor of a channel whose next burst could go now: no request, no packet, no port and no stack makes it wait. -/
def chanReady (s : State) (ch : Nat) : Option Desc :=
  let c := getChan s ch
  match c.desc with
  | none => none
  | some d =>
    if (c.st == .running || c.st == .waiting) && requested s c d && !(onTheWay s 0 (64 + ch)) && !((runPorts d).any (fun p => decide (p < 8) && portHolds s p)) &&
      !((runSrcs d c.idx).any (fun p => waitsAt s c.ctx p.1 false)) && !((runDsts d c.idx).any (fun p => waitsAt s c.ctx p.1 true))
    then some d else none

/-- The channel whose burst goes next: the highest class, then the command queues in turn, then the chain first accepted
(R385). -/
def nextChan (s : State) : Option Nat :=
  let l := (List.range 64).filter (fun ch => (chanReady s ch).isSome)
  let best := l.foldl (fun m ch => min m (chanPoint s ch)) 4
  let top := sortBy (fun a b => decide ((getChan s a).cmd ≤ (getChan s b).cmd)) (l.filter (fun ch => chanPoint s ch == best))
  inQueueTurn (chanQueue s) (amGet (fun _ => 0) s.unitRR (128 + best)) top

/-- A burst of a channel is granted: its queue has had its turn. -/
def grantChan (s : State) (ch : Nat) : State :=
  let q := chanQueue s ch
  pointGrant { s with unitRR := amSet (fun _ => 0) s.unitRR (128 + chanPoint s ch) ((q + 1) % 128) } 1 q

end Sys2Proof.Machine
end

