-- ==== Sys2Proof/Machine/Sharing.lean ====
section
/-! DEFINITION. Dynamic operations from issue to completion (spec/05 R176 to R190, spec/06 R217, R231 to R234, spec/10 R410,
R424 to R429, spec/11 R461, R462): who issues them, their shares, how a share is sent or performed, and what its completion
does. -/

namespace Sys2Proof.Machine

open Sys2Proof

/-! ### The issuer of a dynamic macro-op -/

/-- What a dynamic macro-op takes from its issuer, a stream or a handler: context, class, task, the cores it runs on with
their logical indices, the operand registers, and the declared output ranges. -/
structure Issuer where
  who : Who
  ctx : Nat
  cls : Nat
  task : Nat
  seq : Nat
  cores : List (Nat × Nat)
  s : Nat → Nat
  a : Nat → Nat
  outs : List (Nat × Nat)

/-- Stream `k` as an issuer, before its index moves on. -/
def issStr (k : Nat) (t : Stream) : Issuer where
  who := .stream (Fin.ofNat 16 k)
  ctx := t.ctx
  cls := t.cls
  task := t.task
  seq := t.seq
  cores := (List.range t.cores.length).zip t.cores
  s := sreg t
  a := areg t
  outs := t.outs

/-- The handler unit of core `m` as an issuer: it acts for the context of its creel. -/
def issHnd (st : State) (m : Nat) : Issuer :=
  let c := getCore st m
  let t := getStr st (streamOfCore st m)
  { who := .handler (Fin.ofNat 64 m)
    ctx := ((c.handler).map (fun h => getF st (crlCTX h.creel))).getD 0
    cls := t.cls
    task := 0
    seq := c.hndEnds
    cores := [(t.cores.findIdx (fun x => x == m), m)]
    s := hsreg c
    a := hareg c
    outs := [] }

/-- The cores that perform: all of them in EACH mode, logical core 0 in ONE mode (R176). -/
def Issuer.performers (i : Issuer) (each : Bool) : List (Nat × Nat) := if each then i.cores else i.cores.take 1

def Issuer.sI (i : Issuer) (r : Nat) : Int := sext 32 (i.s r)

/-- The source key of R408 of an access that core `m` makes. -/
def keyOf (w : Who) (m : Nat) : Nat :=
  match w with
  | .stream _ => m
  | .handler h => 64 + h.val

/-- Whether a handler's operands name registers that it has (R148). -/
def handlerRegs (w : Who) (ss as : List Nat) : Bool :=
  match w with
  | .stream _ => true
  | .handler _ => ss.all (fun r => decide (r < 16)) && as.all (fun r => decide (r < 8))

/-- Room in the commit buffer for `n` more entries and `b` more message bytes (R240). -/
def commitBytes (t : Stream) : Nat := (t.commit.map (fun e => match e with
  | .msg _ _ _ _ bs => bs.length
  | _ => 0)).sum
def commitRoom (t : Stream) (n b : Nat) : Bool := decide (t.commit.length + n ≤ 256) && decide (commitBytes t + b ≤ 16384)

/-! ### Promenade packets of an operation (R260, R285) -/

/-- The port slice of a stack (R285). -/
def portSlice (k : Nat) : Nat :=
  if k < 8 then k else if k < 16 then 8 * (k - 8) + 7 else if k < 24 then 79 - k else 8 * (31 - k)

/-- The router of an address on the promenade and its port there: 0 the slice, 5 and 6 the stacks of an edge router, 7 the spine
(R261), whose router `piecePackets` takes.  An address that has no translation is at no router. -/
def routerOf (s : State) (ctx a : Nat) : Option (Nat × Nat) :=
  let stack := fun (k : Nat) => (portSlice k, if (List.range k).any (fun j => portSlice j == portSlice k) then 6 else 5)
  match spaceOf a with
  | 0 => some (orgSlice a % 64, 0)
  | 1 => match (walk s ctx (inSpace a) false).2 with
    | .page t => some (stack (dpaStack (t.dpa + (inSpace a - t.base))))
    | _ => none
  | 2 => some (stack (bitsOf a 40 36))
  | _ => some (27, 7)

/-- The router of the spine port nearest to router `r`, of slices 27, 28, 35 and 36 (R261).  That the nearest one is used is the
model's choice (assumption 95). -/
def spineAt (r : Nat) : Nat := 8 * (if r / 8 < 4 then 3 else 4) + (if r % 8 < 4 then 3 else 4)

/-- The packets, of up to 2,048 B, that a piece of a copy sends from one router to another (R260, R285).  `own` says that they may take
the reserved slots of their stream. -/
def piecePackets (s : State) (ctx op core cls stream : Nat) (own : Bool) (p : Nat × Nat × Nat) : List PromPkt :=
  match routerOf s ctx p.1, routerOf s ctx p.2.1 with
  | some x, some y =>
    let a := if x.2 = 7 then (spineAt y.1, 7) else x
    let b := if y.2 = 7 then (spineAt x.1, 7) else y
    if a = b then [] else List.replicate ((p.2.2 + 2047) / 2048) ⟨op, core, cls, stream, own, a.1, a.2, b.1, b.2, s.frame⟩
  | _, _ => []

/-! ### Completion (R178 to R180, R410) -/

/-- The completion value of R178. -/
def cplValue (status space bytes : Nat) : Nat := status * 2 ^ 56 + (if status = 0 then 0 else space) * 2 ^ 52 + bytes % 2 ^ 32

def shareOf (s : State) (op core : Nat) : Option Share := (findOp s op).bind (fun d => d.shares.find? (fun x => x.core == core))

def setShare (s : State) (op core : Nat) (st : ShareState) : State :=
  match findOp s op with
  | some d => setOp s op { d with shares := d.shares.map (fun x => if x.core == core then { x with st := st } else x) }
  | none => s

def ShareState.isDone : ShareState → Bool
  | .done _ => true
  | _ => false

/-- An operation of stream `k` releases ranges: its reads once all of its bytes have left, all of them once it is complete
(R185, R187, R445). -/
def releaseRanges (s : State) (op : Nat) : State :=
  match findOp s op with
  | none => { s with streams := (List.range 16).foldl (fun m k =>
      amSet (fun _ => Stream.reset) m k (let t := amGet (fun _ => Stream.reset) m k
        { t with ranges := t.ranges.filter (fun r => r.static || r.owner != op) })) s.streams }
  | some d =>
    if d.shares.all (fun x => x.st.isDone || x.st == .sent) then
      match d.who with
      | .stream k => modStr s k.val (fun t => { t with ranges := t.ranges.filter (fun r => r.static || r.owner != op || r.write) })
      | .handler _ => s
    else s

/-- The index of the macro-op last issued of a pre-empted task. -/
def savedPc (s : State) (id : Nat) : Option Nat :=
  match getTask s (id % 4096) with
  | some tk => if tk.id = id then tk.saved.map (fun v => v.stream.pc) else none
  | none => none

/-- A fault of cause `c` has come back to a pre-empted task, which ends at its next issue slot, when it goes on (R226,
R410). -/
def lateSaved (s : State) (id c : Nat) : State :=
  match getTask s (id % 4096) with
  | none => s
  | some tk =>
    match tk.saved with
    | none => s
    | some sv =>
      if tk.id ≠ id then s
      else setTask s (id % 4096) (some { tk with saved := some { sv with stream := { sv.stream with late := some (sv.stream.late.getD c) } } })

/-- A completion overflowed its word: it is logged against the stream, whose task ends at its next issue slot (R410). -/
def cplOverflow (s : State) (d : DynOp) (w : Nat) : State :=
  match d.who with
  | .stream k =>
    let t := getStr s k.val
    let s := logPut s { LogEntry.blank with
      kind := 0x0D, cause := 1, ctx := d.ctx, stream := k.val, task := d.task, pc := d.pc, addr := w, data := [w, 0] }
    if t.task = d.task ∧ t.ended = none ∧ t.st ≠ .idle then stopLate k.val 0x07 s else lateSaved s d.task 0x07
  | .handler _ => logPut s { LogEntry.blank with kind := 0x0D, cause := 1, ctx := d.ctx, addr := w, data := [w, 0] }

/-- Drop an operation all of whose shares are done, unless its issuer still waits for the token of its reply (R546). -/
def retireOp (s : State) (op : Nat) : State :=
  match findOp s op with
  | none => s
  | some d =>
    let fe := d.shares.any (fun x => match x.op with
      | .fe _ _ => true
      | _ => false)
    if d.shares.all (fun x => x.st.isDone) && !fe then releaseRanges (dropOp s op) op else releaseRanges s op

/-- Count a completed operation of core `m` (R191). -/
def countSop (s : State) (m status value : Nat) : State :=
  let n := m / 8
  let c := m % 8
  let s := bump s (fSOPCNT_COUNT n c) 1
  if status = 0 then s
  else
    let s := setF s (fSOPERR_FAIL n c) (Nat.lor (getF s (fSOPERR_FAIL n c)) (2 ^ (status - 1)))
    setF (bump s (fSOPECNT_COUNT n c status) 1) (fSOPLAST_VALUE n c) value

/-- Record a held completion with its commit entry. -/
def recordCpl (op w v : Nat) (failed : Bool) (t : Stream) : Stream :=
  { t with commit := t.commit.map (fun e => match e with
      | .cpl o rs c => if o = op then .cpl o (rs ++ [(w, BitVec.ofNat 64 v, failed)]) c else .cpl o rs c
      | e => e) }

/-- Record a completion for COMMIT, in the stream or in the saved block of a pre-empted task (R180, R391); none where the
completion is performed at once. -/
def recordHeld (s : State) (d : DynOp) (op w v : Nat) (failed : Bool) : Option State :=
  match d.who with
  | .handler _ => none
  | .stream k =>
    if !d.held then none
    else if (getStr s k.val).task = d.task then
      if inOuts (getStr s k.val).outs w then
        let s := modStr s k.val (recordCpl op w v failed)
        match getTask s (d.task % 4096) with
        | some tk => match tk.st with
          | .preempting _ sl true _ =>
            some (saveCommit (getStr s k.val) ((getStr s k.val).cores.headD 0) (slotOff s tk.ctx sl) s)
          | _ => some s
        | none => some s
      else none
    else match getTask s (d.task % 4096) with
      | none => none
      | some tk =>
        match tk.saved with
        | none => none
        | some sv =>
          if tk.id = d.task ∧ inOuts sv.stream.outs w = true then
            let t := recordCpl op w v failed sv.stream
            let s := setTask s (d.task % 4096) (some { tk with saved := some { sv with stream := t } })
            match tk.st with
            | .preempted _ sl => some (saveCommit t (t.cores.headD 0) (slotOff s tk.ctx sl) s)
            | _ => some s
          else none

/-- The device address that a share names: of a transfer its end in space `space`, the source where both or neither are. -/
def shareAddr (so : ShareOp) (space : Nat) : Nat :=
  match so with
  | .sload x | .sstore x => if spaceOf x.src ≠ space ∧ spaceOf x.dst = space then x.dst else x.src
  | .slath req _ _ _ _ => req
  | .fe a _ => a
  | .send _ _ a _ _ => a

/-- The error log entry of an operation that has failed: its address and its first four operands.  R191 sends them to the log and
R611 names no kind for them, so that the kind is free (assumption 45). -/
def logFailed (s : State) (d : DynOp) (x : Share) (status space : Nat) : State :=
  if status = 0 then s
  else logPut s { LogEntry.blank with
    kind := (Config.failKind status).val + 1, cause := status, ctx := d.ctx,
    stream := match d.who with
      | .stream k => k.val
      | .handler m => streamOfCore s m.val
    task := d.task, pc := d.pc, addr := shareAddr x.op space, data := d.data }

/-- One share completes: its completion is performed on its word, or recorded for COMMIT where the word lies in the task's
output ranges (R178 to R180). -/
def completeShare (s : State) (op core status bytes space : Nat) : State :=
  match findOp s op, shareOf s op core with
  | some d, some x =>
    if x.st.isDone then s
    else
      let v := cplValue status space bytes
      let s := logFailed (countSop (setShare s op core (.done status)) core status v) d x status space
      let s := match x.cpl with
        | none => s
        | some w =>
          match recordHeld s d op w v (status != 0) with
          | some s => s
          | none =>
            let r := completeWord s w v d.count (status != 0)
            if r.2 then cplOverflow r.1 d w else r.1
      retireOp s op
  | _, _ => s

/-! ### Sending a share -/

/-- Whether a port takes new packets now: active, or in a quick retrain that keeps its session (R533). -/
def portTakes (s : State) (p : Nat) : Bool := decide (p < 8) && (portUp s p || (getPort s p).quick)

/-- The device address by which a share reaches a peer, if it does. -/
def peerAddr : ShareOp → Option Nat
  | .sload x => if spaceOf x.src = 9 then some x.src else none
  | .sstore x => if spaceOf x.dst = 9 then some x.dst else none
  | .fe a _ => if spaceOf a = 9 then some a else none
  | .send _ _ a _ _ => if spaceOf a = 9 then some a else none
  | .slath _ _ _ _ _ => none

/-- Read the rows of a store whose destination is a peer; none if a source word is uncorrectable. -/
def readRows (s : State) (x : Xfer) : State × Option (List (Nat × List Byte)) :=
  (xferRows x).foldl (fun (acc : State × Option (List (Nat × List Byte))) r =>
    match acc.2 with
    | none => acc
    | some rows =>
      let g := orgAccess acc.1 r.1 x.rb
      (g.1, if g.2 then none else some (rows ++ [(r.2, orgRead acc.1 r.1 x.rb)]))) (s, some [])

/-- A message of this module for a creel's input stage (R420). -/
def sentMsg (s : State) (d : DynOp) (core tag flags : Nat) (msg : List Byte) (back : MsgFrom) : StageMsg where
  key := keyOf d.who core
  order := 0
  tick := tick s
  tag := tag
  flags := flags
  src := match d.who with
    | .stream _ => 0
    | .handler _ => 1
  srcid := core
  taskid := d.task
  ctx := d.ctx
  bytes := msg
  back := back

/-- The agent of R257 by which an access of `w` reaches slice `sl`. -/
def agentOf (w : Who) (sl : Nat) : Nat :=
  match w with
  | .stream k => if sl / 8 = k.val / 2 then 3 else 0
  | .handler m => if sl = m.val then 2 else 0

/-- Fail an operation whose port is down (R544): a full/empty operation answers its issuer as a poisoned access. -/
def failShare (s : State) (op core : Nat) (so : ShareOp) (status : Nat) : State :=
  match so with
  | .fe _ _ => answer s (.remote op) (.cause 0x0A)
  | _ => completeShare s op core status 0 9

/-- Send or start one share: to a peer it goes unless the port holds new operations (R545) or is down (R544); a full/empty
access of this module goes to its sub-bank, a message to its creel's input stage.  Every other share waits to be
performed. -/
def startShare (s : State) (op : Nat) (x : Share) : State :=
  match findOp s op with
  | none => s
  | some d =>
    match peerAddr x.op with
    | some a =>
      let p := peerPort a
      let src := srcOf d.who
      if portHolds s p && decide (p < 8) then s
      else if !(portTakes s p) then failShare s op x.core x.op 1
      else match x.op with
        | .sload t =>
          peerRead (setShare s op x.core .sent) (.share op x.core) src d.ctx d.cls ((xferRows t).map (fun r => (r.1, t.rb, r.2)))
        | .sstore t =>
          let r := readRows s t
          match r.2 with
          | none => completeShare r.1 op x.core 1 0 0
          | some rows => releaseRanges (peerWrite (setShare r.1 op x.core .sent) (.share op x.core) src d.ctx d.cls rows) op
        | .fe _ acc => peerFe (setShare s op x.core .sent) (.share op x.core) src d.ctx d.cls a acc
        | .send _ _ _ msg _ => peerMsg (setShare s op x.core .sent) (.share op x.core) src d.ctx d.cls a msg
        | .slath _ _ _ _ _ => s
    | none =>
      match x.op with
      | .fe a acc =>
        let s := setShare s op x.core .sent
        { s with bankq := s.bankq ++ [⟨orgSlice a, bitsOf (orgOff a) 11 5, d.cls, agentOf d.who (orgSlice a), a, acc, .remote op,
            keyOf d.who x.core⟩] }
      | .send c tag _ msg flags =>
        let r := stageMsg (setShare s op x.core .sent) c (sentMsg s d x.core tag flags msg (.op op x.core))
        if r.2 then r.1 else completeShare r.1 op x.core 0 msg.length 0
      | _ => s

/-! ### Issue of an operation -/

/-- The class that an operation carries to the promenade, to the banks and to the request queues: its task's effective class at
issue, one higher while its queue holds a boost at any of the three points (R383; assumption 88). -/
def carriedClass (s : State) (i : Issuer) : Nat :=
  match i.who with
  | .handler _ => i.cls
  | .stream k =>
    match getTask s ((getStr s k.val).task % 4096) with
    | some tk => (List.range 3).foldl (fun m p => min m (pointClass s p (taskQ tk) i.cls)) i.cls
    | none => i.cls

/-- The index and the operand values of the macro-op that an issuer has just issued (R209); of a handler, its routine and its creel
(R611 kind 0x0C). -/
def issuedAt (s : State) (w : Who) : Nat × List Nat :=
  match w with
  | .stream k => ((getStr s k.val).pc, (getStr s k.val).data)
  | .handler m => match (getCore s m.val).handler with
    | some h => (h.pc - 1, [h.routine, h.creel])
    | none => (0, [])

/-- Whether packets of a class may take the reserved slots of stream `k`: urgent ones, by their task's class and not by a boost, of a
stream whose plan stands (R265, R266, R386). -/
def mayOwn (s : State) (k cls : Nat) : Bool := cls == 0 && !((getStr s k).plan.isEmpty)

/-- The packets of a share that wait at their first routers: of its data, or of a request to the request unit at the spine (R304). -/
def sharePackets (s : State) (i : Issuer) (op cls : Nat) (x : Share) : List PromPkt :=
  let stream := match i.who with
    | .stream k => k.val
    | .handler m => streamOfCore s m.val
  let pieces := match xferOf x.op, x.op with
    | some t, _ => xferPieces t
    | none, .slath req qlen _ _ _ => [(req, 8 * 2 ^ 48, qlen)]
    | none, _ => []
  pieces.flatMap (piecePackets s i.ctx op x.core cls stream (mayOwn s stream i.cls))

/-- Issue an operation: it is in flight from now, its ranges are held, its packets wait at their first routers, and each
share is started. -/
def launchOp (s : State) (i : Issuer) (shares : List Share) (count held reply : Bool) (ranges : List Range) : State :=
  let id := s.nextOp
  let cls := carriedClass s i
  let at_ := issuedAt s i.who
  let d : DynOp := ⟨i.who, i.ctx, cls, i.task, i.seq, count, held, reply, tick s, at_.1, at_.2, shares⟩
  let pk := shares.flatMap (sharePackets s i id cls)
  let s := { s with ops := s.ops ++ [(id, d)], nextOp := id + 1, packets := s.packets ++ pk }
  let s := match i.who with
    | .stream k => modStr s k.val (fun t => { t with ranges := t.ranges ++ ranges })
    | .handler _ => s
  forEach shares (fun s x => startShare s id x) s

/-! ### Performing a share of SLOAD or SSTORE (R184, R186, R461, R462) -/

/-- The record of a fault that a stream operation raises (R459). -/
def shareFault (s : State) (d : DynOp) (base size va : Nat) (write : Bool) : PageFault where
  fid := none
  ctx := d.ctx
  base := base
  size := size
  by_ := []
  source := 1
  access := if write then 2 else 1
  agent := match d.who with
    | .stream k => k.val
    | .handler m => streamOfCore s m.val
  va := 2 ^ 48 + va
  task := d.task
  tick := tick s

/-- Whether the task of an operation has released an early send or a part of its commit, running or pre-empted (R208, R462). -/
def taskReleased (s : State) (k id : Nat) : Bool :=
  if (getStr s k).task = id then (getStr s k).released
  else match getTask s (id % 4096) with
    | some tk => tk.id == id && ((tk.saved.map (fun v => v.stream.released)).getD false)
    | none => false

/-- Abort the task of an operation for a page fault in the YK-8 mode (R462): a running one stops, and of a pre-empted one nothing
is kept; it becomes ready again once its faults are resolved. -/
def abortTask (s : State) (k id : Nat) : State :=
  let i := id % 4096
  if (getStr s k).task = id then
    if (getStr s k).ended = none ∧ (getStr s k).st ≠ .idle then stopStream k endYk8 s else s
  else match getTask s i with
    | none => s
    | some tk =>
      match tk.st, tk.saved with
      | .preempted _ _, some v =>
        if tk.id ≠ id then s
        else
          let s := forEach v.stream.commit (fun s e => match e with
            | .msg _ tag _ _ bytes => creditReturn s tag (bytes.length + 32)
            | _ => s) s
          setTask { s with slots := s.slots.filter (fun u => u.task != i) } i
            (some { tk with st := .retrying k, retried := true, saved := none, aborts := tk.aborts + 1 })
      | _, _ => s

/-- A share meets a page fault; `raise` raises it for who is given, the share itself as `by_`.  In the native mode the share halts (R461).
In the YK-8 mode it completes CANCELLED and its task is aborted, or, where the task may not be retried, it fails (R462).  The
share of a handler has no task to abort: that it halts in the YK-8 mode too is the model's choice (assumption 89). -/
def haltShare (s : State) (op core pos space : Nat) (by_ : FaultBy) (raise : State → FaultBy → State) : State :=
  match findOp s op with
  | none => s
  | some d =>
    match d.who with
    | .stream k =>
      if isSet s (fCTXCTL_YK8 d.ctx) then
        if taskReleased s k.val d.task then completeShare s op core 4 pos space
        else
          let s := completeShare s op core 7 pos 0
          let i := d.task % 4096
          let s := raise s (.task i)
          let s := match getTask s i with
            | some tk => setTask s i (some { tk with faults := tk.faults + 1 })
            | none => s
          abortTask s k.val d.task
      else raise (setShare s op core (.faulted pos)) by_
    | .handler _ => raise (setShare s op core (.faulted pos)) by_

/-- A stream operation meets a page of space 0x1 that is not resident (R459). -/
def faultShare (s : State) (op core pos base size va : Nat) (write : Bool) : State :=
  match findOp s op with
  | none => s
  | some d => haltShare s op core pos 1 (.share op core) (fun s who => raiseFault s (shareFault s d base size va write) who)

/-- Raise a page request of PRI for a context, or queue it past the host's allocation (R458). -/
def raisePri (s : State) (ctx : Nat) (who : FaultBy) : State :=
  let n := (s.pri.filter (fun x => x.sent)).length
  let s := { s with pri := s.pri ++ [⟨s.priNext, who, decide (n < s.priMax), pasidOf s (some ctx)⟩], priNext := (s.priNext + 1) % 512 }
  logPut s { LogEntry.blank with kind := 0x07, cause := 2, data := [0] }

/-! ### Turns at banks and stacks (R257, R258, R313) -/

/-- The place at which a block of DRAM is served: the pseudo-channel of a stack, 64 k + p, is 8192 + 64 k + p. -/
def dramPlace (d : Nat) : Nat := 8192 + 64 * dpaStack d + pcOf d

/-- The places of the table entries that a walk reads. -/
def walkPlaces (s : State) (va : Nat) : Nat → Nat → Nat → List Nat
  | 0, _, _ => []
  | fuel + 1, lvl, tab =>
    let d := tab + 8 * vaIndex va lvl
    let e := leVal (dramRead s d 8)
    dramPlace d :: (if bitOf e 0 && !(pteBad lvl e) && !(bitOf e 1) then walkPlaces s va fuel (lvl + 1) (bitsOf e 40 8 * 256) else [])

/-- The places that a piece at device address `a` is served at: sub-bank b of slice m is 128 m + b; of a piece of space 0x1 that no
buffer translates, those of its walk too. -/
def placesOf (s : State) (ctx a n : Nat) (write : Bool) : List Nat :=
  match spaceOf a with
  | 0 => subsOf a n
  | _ =>
    (if spaceOf a = 1 ∧ isSet s (fSLA_CTXMEM_EN ctx) ∧ (tlbHit s.dmaTlb ctx (inSpace a)).isNone = true then
      walkPlaces s (inSpace a) 4 0 (getF s (fSLA_CTXMEM_ROOT ctx) * 4096) else []) ++
    (match (locate s ctx a write false).2 with
     | .dram d => [dramPlace d]
     | _ => [])

/-- How many accesses of sub-bank `sub` of slice `sl` the static macro-ops make in the present cycle of their stream: none while the
stream's pipeline stands still (R194, R256). -/
def staticUse (s : State) (sl sub : Nat) : Nat :=
  let t := getStr s (streamOfCore s sl)
  if (t.st = .running ∨ t.st = .ending) ∧ t.cores.contains sl = true then
    let u := flightPort t sl t.now
    ((u.rsec ++ u.wsec).map (fun x => x % 128)).count sub
  else 0

/-- How many dynamic accesses sub-bank `key` has granted in the present cycle (R252). -/
def grantedNow (s : State) (key : Nat) : Nat :=
  let x := amGet (fun _ => (0, 0, 0)) s.bankAt key
  let sl := key / 128
  if x.1 = (getStr s (streamOfCore s sl)).now ∧ x.2.1 = amGet (fun _ => 0) s.bankClock sl then x.2.2 else 0

/-- Whether sub-bank `key` has an access left in the present cycle, after the static ones (R252, R256). -/
def subFree (s : State) (key : Nat) : Bool := decide (staticUse s (key / 128) (key % 128) + grantedNow s key < 2)

/-- Sub-bank `key` grants a dynamic access. -/
def useSub (s : State) (key : Nat) : State :=
  let at_ := ((getStr s (streamOfCore s (key / 128))).now, amGet (fun _ => 0) s.bankClock (key / 128), grantedNow s key + 1)
  { s with bankAt := amSet (fun _ => (0, 0, 0)) s.bankAt key at_ }

/-- A share that could be performed now: its packets have arrived, and no stack makes it wait; with what it has still to copy. -/
def readyPieces (s : State) (op : Nat) (d : DynOp) (x : Share) : List (Nat × Nat × Nat) :=
  match xferOf x.op, x.st with
  | some t, .waiting pos =>
    let ps := dropPieces pos (xferPieces t)
    if (peerAddr x.op).isSome || onTheWay s op x.core ||
      ps.any (fun p => waitsAt s d.ctx p.1 false || waitsAt s d.ctx p.2.1 true) then [] else ps
  | _, _ => []

def pieceplaces (s : State) (ctx : Nat) (ps : List (Nat × Nat × Nat)) : List Nat :=
  ps.flatMap (fun p => placesOf s ctx p.1 p.2.2 false ++ placesOf s ctx p.2.1 p.2.2 true)

/-- The places at which a channel's next run is served. -/
def runPlaces (s : State) (ch : Nat) (d : Desc) : List Nat :=
  let c := getChan s ch
  (runSrcs d c.idx).flatMap (fun p => placesOf s c.ctx p.1 p.2 false) ++ (runDsts d c.idx).flatMap (fun p => placesOf s c.ctx p.1 p.2 true)

/-- The agent of R257 by which a share's transfer reaches the slices: the stack port where its other end is a stack whose port slice
is the slice, which is how the model reads the table, and else as `agentOf` says (assumption 95). -/
def xferAgent (s : State) (d : DynOp) (x : Share) : Nat :=
  match xferOf x.op with
  | none => agentOf d.who x.core
  | some t =>
    let sl := if spaceOf t.src = 0 then orgSlice t.src else orgSlice t.dst
    let far := if spaceOf t.src = 0 then t.dst else t.src
    match routerOf s d.ctx far with
    | some (r, p) => if r = sl ∧ (p = 5 ∨ p = 6) then 1 else agentOf d.who sl
    | none => agentOf d.who sl

/-- The transfers and DMA runs that could be performed now, with their class, agent, number and places.  The number of an
operation's transfer is even, and that of a channel's run odd. -/
def readyXfers (s : State) : List (Nat × Nat × Nat × List Nat) :=
  s.ops.flatMap (fun o => o.2.shares.filterMap (fun x =>
    let ps := readyPieces s o.1 o.2 x
    if ps.isEmpty then none else some (o.2.cls, xferAgent s o.2 x, 2 * o.1, pieceplaces s o.2.ctx ps))) ++
  (List.range 64).filterMap (fun ch => (chanReady s ch).map (fun d => (chanPoint s ch, 0, 2 * ch + 1, runPlaces s ch d)))

/-- The task of an operation, while the Gatehouse still has it; a handler's operation has none. -/
def opTask (s : State) (op : Nat) : Option Task :=
  match findOp s op with
  | none => none
  | some d => match getTask s (d.task % 4096) with
    | some t => if d.ofTask t.id then some t else none
    | none => none

/-- The effective class of an operation's work, after any promotion of its task (R312, R382). -/
def opEclass (s : State) (op : Nat) : Nat :=
  match opTask s op with
  | some t => eclass t
  | none => ((findOp s op).map (fun d => d.cls)).getD 3

/-- The class of an operation's work units at the slath arbitration point (R312, R383). -/
def workClass (s : State) (op : Nat) : Nat :=
  match opTask s op with
  | some t => pointClass s 2 (taskQ t) (eclass t)
  | none => opEclass s op

/-- Whether the transfer or run of number `id` must let another access go first: one of a higher class at a place they share, a
work unit among them, or, of two transfers of one agent, the one issued earlier (R257, R258, R313). -/
def outranked (s : State) (cls agent id : Nat) (places : List Nat) : Bool :=
  (readyXfers s).any (fun y => y.2.2.1 != id &&
    (decide (y.1 < cls) ||
      (y.1 == cls && y.2.1 == agent && id % 2 == 0 && y.2.2.1 % 2 == 0 && decide (y.2.2.1 < id))) &&
    y.2.2.2.any (fun p => places.contains p)) ||
  s.bankq.any (fun b => decide (b.cls < cls) && places.contains (128 * b.slice + b.sub)) ||
  s.units.any (fun u => u.st == 0 && decide (workClass s u.op < cls) && places.any (fun p => decide (8192 ≤ p) && (p - 8192) / 64 == u.stack))

/-- Copy some pieces of a share from position `pos`: the share completes with its last ones, which `last` says that they are, or at a
failure, and halts at a page fault. -/
def copyShare (s : State) (op core ctx hostSt pos : Nat) (ps : List (Nat × Nat × Nat)) (last : Bool) : State :=
  let r := copyRun ctx hostSt ps 0 s
  match r.2 with
  | .done status n sp => if status = 0 ∧ last = false then setShare r.1 op core (.waiting (pos + n)) else completeShare r.1 op core status (pos + n) sp
  | .fault n b z va w => faultShare r.1 op core (pos + n) b z va w

/-- Perform what is left of a share of SLOAD or SSTORE, its turns in order: its bytes are copied, unless one of its stacks makes it
wait, its packets are still on their way, another access goes first, or the static accesses leave no access of a sub-bank (R256).
`hostSt` is how the host answers: 0 data, 1 poisoned data, 2 an abort, 3 a translation without permission. -/
def performShare (s : State) (op core hostSt : Nat) : State :=
  match findOp s op, shareOf s op core with
  | some d, some x =>
    match xferOf x.op, x.st with
    | some t, .waiting pos =>
      if (peerAddr x.op).isSome then startShare s op x
      else
        let ps := readyPieces s op d x
        let places := pieceplaces s d.ctx ps
        if ps.isEmpty || outranked s d.cls (xferAgent s d x) (2 * op) places || places.any (fun p => decide (p < 8192) && !subFree s p) then s
        else if hostSt = 3 ∧ (spaceOf t.src = 8 ∨ spaceOf t.dst = 8) then
          if isSet s fHOST_LINKSTAT_ATSEN && isSet s fHOST_LINKSTAT_PRIEN then
            haltShare s op core pos 8 (.share op core) (fun s who => raisePri s d.ctx who)
          else completeShare s op core 4 pos 8
        else copyShare s op core d.ctx hostSt pos ps true
    | _, _ => s
  | _, _ => s

/-- What the next turn of a share moves, where it could be moved now within the module: the piece, and the position before it. -/
def turnOf (s : State) (op : Nat) (d : DynOp) (x : Share) : Option ((Nat × Nat × Nat) × Nat) :=
  match x.st, nextTurn (readyPieces s op d x) with
  | .waiting pos, p :: _ => if spaceOf p.1 = 8 ∨ spaceOf p.2.1 = 8 then none else some (p, pos)
  | _, _ => none

/-- One turn of a share of SLOAD or SSTORE, granted by a sub-bank: a sector, or the sectors of one block of DRAM (R258, R331). -/
def performTurn (s : State) (op core : Nat) : State :=
  match findOp s op, shareOf s op core with
  | some d, some x => match turnOf s op d x with
    | some (p, pos) =>
      let last := (dropPieces p.2.2 (readyPieces s op d x)).isEmpty
      copyShare (forEach (subsOf p.1 p.2.2 ++ subsOf p.2.1 p.2.2) useSub s) op core d.ctx 0 pos [p] last
    | none => s
  | _, _ => s

/-! ### Credit and messages (R231 to R233, R424 to R428) -/

/-- The ring that a CSEND names (R419): the creel and the key of its account.  The base of a core creel's ring lies in a RES granule
of the context (R280); a peer's ring is checked by the peer. -/
def ringOf (s : State) (ctx a : Nat) : Option (Nat × Nat) :=
  if spaceOf a = 9 then some (576, 65536 + a)
  else match crlAt s ctx a with
    | some c => if crlHost c || rangeOwned s ctx true a 32 then some (c, crlTag s c) else none
    | none => none

/-- Ask for credit for a send (R426, R427). -/
def askCredit (s : State) (i : Issuer) (a c key short : Nat) : State :=
  if c = 576 then
    if portTakes s (peerPort a) && !(portHolds s (peerPort a)) then peerCredit s i.who key i.ctx i.cls a short else s
  else requestGrant s ⟨.own i.who, key, short, max short (getF s (crlGRANTQ c) / 32 * 32)⟩

/-- The messages that a CSEND reads, one for each performing core (R231). -/
def csendMsgs (s : State) (i : Issuer) (o : CsendOpnds) : List (Nat × List Byte) :=
  (i.performers o.each).map (fun p => (p.2, orgRead s (if o.each then orgAddr p.2 (i.a o.am.val) else i.a o.am.val) o.len))

/-- What the reading of messages notes (R273, R274): an uncorrectable word is sent as it was read, and ends a stream's task as a
hedged one, which is the model's choice (assumption 91). -/
def noteMsgs (s : State) (i : Issuer) (o : CsendOpnds) : State :=
  forEach (i.performers o.each) (fun s p =>
    let a := if o.each then orgAddr p.2 (i.a o.am.val) else i.a o.am.val
    match i.who with
    | .stream k => noteStatic k.val s a o.len
    | .handler _ => noteRead s a o.len 0) s

/-- The send itself, its credit at hand: it is held for COMMIT, or it leaves now (R231, R233).  Its bytes are those of `src`. -/
def sendNow (s src : State) (i : Issuer) (o : CsendOpnds) (c key : Nat) : State :=
  let a := i.a o.ar.val
  let msgs := csendMsgs src i o
  let cost := msgs.length * (o.len + 32)
  let s := noteMsgs s i o
  let s := setAccounts s i.who (subAccount (accountsOf s i.who) key cost)
  match i.who with
  | .stream k =>
    if !o.early then
      modStr s k.val (fun t => { t with commit := t.commit ++ msgs.map (fun m => CEntry.msg c key a m.1 m.2) })
    else
      let s := modStr s k.val (fun t => { t with released := true })
      launchOp s i (msgs.map (fun m => ⟨m.1, .send c key a m.2 1, none, .waiting 0⟩)) false false false []
  | .handler _ =>
    launchOp s i (msgs.map (fun m => ⟨m.1, .send c key a m.2 (if o.early then 1 else 0), none, .waiting 0⟩)) false false false []

/-- Whether the issuer's account covers a send, after it has been used (R231). -/
def covered (s : State) (i : Issuer) (key cost : Nat) : Bool := decide (cost ≤ accountOf (accountsOf s i.who) key)

end Sys2Proof.Machine
end

