-- ==== Sys2Proof/Machine/Sync.lean ====
section
/-! DEFINITION. Full/empty macro-ops (spec/06 R216 to R230): words, waits, held fills, local, remote and handler forms, and the
token that brings a reply back (spec/13 R546). -/

namespace Sys2Proof.Machine

open Sys2Proof

/-! ### Words (R216, R217, R280) -/

/-- The word of core `m` in EACH mode, or the one word of ONE mode. -/
def oneWord (s : State) (ctx a : Nat) (localTo : List Nat) : WordAt :=
  if a % 8 ≠ 0 then .bad
  else if spaceOf a = 9 then .peer a
  else if spaceOf a = 0 ∧ orgOwned s ctx a 8 then
    if localTo.contains (orgSlice a) then .here (orgSlice a) a else .other a
  else .bad

def eachWord (s : State) (ctx off m : Nat) : WordAt :=
  if off % 8 = 0 ∧ localOwned s ctx [m] off 8 then .here m (orgAddr m off) else .bad

/-- The words that a macro-op of stream `k` names. -/
def strWords (s : State) (k : Nat) (t : Stream) (each : Bool) (a : Nat) : List WordAt :=
  if each then t.cores.map (eachWord s t.ctx a) else [oneWord s t.ctx a (localSlices t k)]

def localWords (l : List WordAt) : List (Nat × Nat) := l.filterMap (fun x => match x with
  | .here m w => some (m, w)
  | _ => none)

/-- The device address of a remote word (one at most is named). -/
def remoteWord (l : List WordAt) : Option Nat := l.findSome? (fun x => match x with
  | .other w => some w
  | .peer a => some a
  | _ => none)

/-- A guard range (R223): none, in every slice (EACH), or in one slice (ONE). -/
def guardOf (t : Stream) (o : FwaitOpnds) : Nat × Nat × Nat :=
  let n := sreg t o.sgl.val
  if n = 0 then (0, 0, 0) else (if o.each then 1 else 2, areg t o.ag.val, n)

def guardOk (s : State) (t : Stream) (o : FwaitOpnds) : Bool :=
  let n := sreg t o.sgl.val
  if n = 0 then true
  else if o.each then localOwned s t.ctx t.cores (areg t o.ag.val) n
  else spaceOf (areg t o.ag.val) == 0 && orgOwned s t.ctx (areg t o.ag.val) n

/-- The tracker entry of a macro-op that accesses local words: one for all of its slices, released when the macro-op completes
(R443, R444). -/
def feRanges (t : Stream) (words : List (Nat × Nat)) (write : Bool) : List Range :=
  match words with
  | [] => []
  | (_, w) :: _ => [staticRange t (words.map Prod.fst) (orgOff w) (orgOff w + 7) write 0]

/-- The check of a macro-op's words with its other checks: legality, then the port for a local access at cycle `c`
(R157, R218), with the tracker entry of R444. -/
def wordPlan (s : State) (k : Nat) (t : Stream) (each : Bool) (a c : Nat) (write legal : Bool) (room : Bool) (data : List Nat) : Plan :=
  let ws := strWords s k t each a
  let loc := localWords ws
  let cause := firstCause [need (legal && !(ws.contains .bad)) 0x01, need (fePortFits t c loc write) 0x06, need room 0x0C]
  ⟨cause, data, feRanges t loc write, (remoteWord ws).isSome⟩

/-! ### Accesses at local words (R218, R219) -/

/-- The issuer of the macro-op that has just issued on stream `k`. -/
def issued (k : Nat) (s : State) : Issuer := issStr k (getStr s k)

/-- The core that makes the access of a ONE-mode macro-op: logical core 0. -/
def core0 (i : Issuer) : Nat := ((i.cores.head?).map Prod.snd).getD 0

/-- Whether an access writes its word: every one but FWAIT's does (R218). -/
def FeAcc.writes : FeAcc → Bool
  | .take .fwait _ => false
  | _ => true

/-- Stop stream `k` at its access cycle `c` and make one access at each local word, as each word allows it; the answers let it
go on (R219).  Where an access would fault there, the macro-op is skipped, with none of its effects (R206).  A ONE-mode access has
the source key of logical core 0 (R408). -/
def localAccess (k c : Nat) (i : Instr) (each : Bool) (sd sd2 : Option SReg) (g : Nat × Nat × Nat) (words : List (Nat × Nat))
    (acc : FeAcc) (s : State) : State :=
  let s := runTo k c (modStr s k (fun t => { t with ranges := t.ranges ++ feRanges t words acc.writes }))
  let t := getStr s k
  let cause := firstCause (words.map (fun p => feCause s p.2 acc))
  if t.st ≠ .running then modStr s k closeWords
  else if cause ≠ 0 then skip k cause t.pc t.data s
  else
    let one := core0 (issued k s)
    let s := modStr s k (fun t => { t with
      st := .waiting, wait := .words (words.map Prod.fst) sd sd2 g, waitSince := tick s, held := some i, late := none })
    forEach words (fun s p =>
      match (getStr s k).wait with
      | .words _ _ _ _ => feAccess s p.2 (.local_ k p.1) (if each then p.1 else one) acc
      | _ => s) s

/-- A remote access of stream `k` (R217): a posted one does not stop the stream; a waiting one stops it from the cycle after its
issue until its reply. -/
def remoteAccess (k a : Nat) (acc : FeAcc) (wait : Option (Instr × Option SReg × Option SReg × (Nat × Nat × Nat))) (s : State) : State :=
  let i := issued k s
  let id := s.nextOp
  let s := launchOp s i [⟨core0 i, .fe a acc, none, .waiting 0⟩] false false wait.isSome []
  match wait with
  | none => s
  | some (ins, sd, sd2, g) =>
    let s := runTo k ((getStr s k).now + 1) s
    if (getStr s k).st ≠ .running then s
    else modStr s k (fun t => { t with
      st := .waiting, wait := .reply id sd sd2 g, waitSince := tick s, late := none, held := some ins })

/-- The access cycle of a store: three cycles on, or the cycle after the last earlier TSTORE write lands (R225). -/
def storeCycle (t : Stream) (d : Nat) : Nat := max (t.now + d) ((lastStoreLand t).map (fun c => c + 1) |>.getD 0)

/-! ### FWAIT, FTAKE, FCOUNT− (R223, R224, R229) -/

def takePlan (k : Nat) (each : Bool) (a : Nat) (write legal : Bool) (data : List Nat) (s : State) (t : Stream) : Plan :=
  wordPlan s k t each a (t.now + 3) write legal true data

def takeEff (k : Nat) (i : Instr) (each : Bool) (a : Nat) (kd : TakeKind) (wait : Bool) (sd sd2 : Option SReg)
    (g : Nat × Nat × Nat) (s : State) : State :=
  let t := getStr s k
  let ws := strWords s k t each a
  match remoteWord ws with
  | some r => remoteAccess k r (.take kd wait) (some (i, sd, sd2, g)) s
  | none => localAccess k (t.now + 3) i each sd sd2 g (localWords ws) (.take kd wait) s

def fwaitPlan (k : Nat) (o : FwaitOpnds) (write : Bool) (s : State) (t : Stream) : Plan :=
  let legal := guardOk s t o && (!o.each || (o.sd.isNone && o.sd2.isNone))
  takePlan k o.each (areg t o.aw.val) write legal [areg t o.aw.val, areg t o.ag.val, sreg t o.sgl.val, 0] s t

def fwaitEff (k : Nat) (i : Instr) (o : FwaitOpnds) (kd : TakeKind) (s : State) : State :=
  takeEff k i o.each (areg (getStr s k) o.aw.val) kd true o.sd o.sd2 (guardOf (getStr s k) o) s

def execFwait (w : Who) (gap : Nat) (o : FwaitOpnds) (s : State) : Host.Outcome State Fault Refusal :=
  .next (mainOnly w s (fun k => issueStr k gap 2 (.fwait w gap o) (fwaitPlan k o false)
    (fun s => fwaitEff k (.fwait w gap o) o .fwait (noteData k (fwaitPlan k o false) s)) s))

def execFtake (w : Who) (gap : Nat) (o : FwaitOpnds) (s : State) : Host.Outcome State Fault Refusal :=
  .next (mainOnly w s (fun k => issueStr k gap 2 (.ftake w gap o) (fwaitPlan k o true)
    (fun s => fwaitEff k (.ftake w gap o) o .ftake (noteData k (fwaitPlan k o true) s)) s))

/-! ### Handler forms (R149, R150) -/

/-- The word that a handler's macro-op names: its core's own slice in EACH mode. -/
def hndWord (s : State) (i : Issuer) (m : Nat) (each : Bool) (a : Nat) : Option Nat :=
  match (if each then eachWord s i.ctx a m else oneWord s i.ctx a []) with
  | .here _ w => some w
  | .other w => some w
  | .peer w => some w
  | .bad => none

/-- A handler runs on core `m`, and its plot does not stand still (R76). -/
def hndRuns (s : State) (m : Nat) : Bool := (getCore s m).handler.isSome && !(paused s)

/-- A handler's full/empty macro-op: a dynamic access, issued without waiting. -/
def handlerFe (m : Nat) (each : Bool) (a : Nat) (legal : Bool) (acc : FeAcc) (s : State) : State :=
  if !(hndRuns s m) then s
  else
    let i := issHnd s m
    match (if legal then hndWord s i m each a else none) with
    | none => handlerIll s m 0x01
    | some w => launchOp (handlerStep s m) i [⟨m, .fe w acc, none, .waiting 0⟩] false false false []

def fcountMinusPlan (k : Nat) (each : Bool) (aw : AReg) (sk : SReg) (s : State) (t : Stream) : Plan :=
  takePlan k each (areg t aw.val) true (decide (sreg t sk.val < 65536)) [areg t aw.val, sreg t sk.val, 0, 0] s t

def fcountMinusEff (k : Nat) (i : Instr) (each : Bool) (aw : AReg) (sk : SReg) (wait chk : Bool) (s : State) : State :=
  takeEff k i each (areg (getStr s k) aw.val) (.fcount (sreg (getStr s k) sk.val) chk) wait none none (0, 0, 0) s

def execFcountMinus (w : Who) (gap : Nat) (each : Bool) (aw : AReg) (sk : SReg) (wait chk : Bool) (s : State) :
    Host.Outcome State Fault Refusal :=
  .next (match w with
    | .stream k =>
      issueStr k.val gap 2 (.fcountMinus w gap each aw sk wait chk)
        (fcountMinusPlan k.val each aw sk)
        (fun s => fcountMinusEff k.val (.fcountMinus w gap each aw sk wait chk) each aw sk wait chk
          (noteData k.val (fcountMinusPlan k.val each aw sk) s)) s
    | .handler m =>
      let n := hsreg (getCore s m.val) sk.val
      handlerFe m.val each (hareg (getCore s m.val) aw.val)
        (!wait && decide (n < 65536) && handlerRegs w [sk.val] [aw.val]) (.take (.fcount n chk) false) s)

/-! ### FFILL, FEMPTY, FCOUNT+ (R225 to R228) -/

/-- The value sh:sl of a fill. -/
def fillValue (rd : Nat → Nat) (o : FfillOpnds) : BitVec 64 :=
  let v := fun (x : SOpnd) => match x with
    | .reg r => rd r.val
    | .imm b => b.toNat
  BitVec.ofNat 64 (v o.sl + ((o.sh.map v).getD 0) * 2 ^ 32)

/-- The operand values of a fill for the log: its address, and the two halves of its value. -/
def fillData (t : Stream) (o : FfillOpnds) : List Nat :=
  let v := (fillValue (sreg t) o).toNat
  [areg t o.aw.val, v % 2 ^ 32, v / 2 ^ 32, 0]

/-- The words that are held for COMMIT (R226), and those that are accessed at once. -/
def heldWords (t : Stream) (l : List WordAt) : List Nat := l.filterMap (fun x => match x with
  | .here _ w => if inOuts t.outs w then some w else none
  | .other w => if inOuts t.outs w then some w else none
  | _ => none)

def nowWords (t : Stream) (l : List WordAt) : List WordAt := l.filter (fun x => match x with
  | .here _ w => !(inOuts t.outs w)
  | .other w => !(inOuts t.outs w)
  | _ => true)

/-- The plan of a store to words: `holds` where output words are held; `data` for the log (R209). -/
def fillPlan (k : Nat) (each : Bool) (a : Nat) (holds legal afterStores : Bool) (data : List Nat) (s : State) (t : Stream) : Plan :=
  let ws := strWords s k t each a
  let now := if holds then nowWords t ws else ws
  let c := if afterStores then storeCycle t 3 else t.now + 3
  let loc := localWords now
  let cause := firstCause [need (legal && !(ws.contains .bad)) 0x01, need (fePortFits t c loc true) 0x06,
    need (!holds || (heldWords t ws).isEmpty || commitRoom t 1 0) 0x0C]
  ⟨cause, data, feRanges t loc true, (remoteWord now).isSome⟩

/-- The effect of a store to words: hold what is held, access the rest. -/
def fillEff (k : Nat) (i : Instr) (each : Bool) (a : Nat) (holds afterStores : Bool) (acc : FeAcc) (entry : List Nat → CEntry)
    (s : State) : State :=
  let t := getStr s k
  let ws := strWords s k t each a
  let hw := if holds then heldWords t ws else []
  let now := if holds then nowWords t ws else ws
  let ck := if t.check then 1 else 0
  let s := if hw.isEmpty then s else modStr s k (fun t => { t with commit := t.commit ++ [entry hw] })
  match remoteWord now with
  | some r =>
    let c := if afterStores then storeCycle t 2 else t.now + 2
    let s := runTo k c s
    if (getStr s k).st ≠ .running then s
    else remoteAccess k r acc none (modStr s k (fun t => { t with nextSlot := c + ck }))
  | none =>
    if (localWords now).isEmpty then modStr s k (fun t => { t with nextSlot := t.now + 1 + ck })
    else localAccess k (if afterStores then storeCycle t 3 else t.now + 3) i each none none (0, 0, 0) (localWords now) acc s

/-- The plan and the effect of FFILL (`holds`, `after` earlier stores) and of FEMPTY. -/
def ffillPlan (k : Nat) (o : FfillOpnds) (first : Bool) (s : State) (t : Stream) : Plan :=
  fillPlan k o.each (areg t o.aw.val) first true first (fillData t o) s t

/-- The issue distance of FEMPTY and FCOUNT+, which publish the earlier static writes of their stream (R448) at a distance from their
issue that is fixed (R218, R227): while a TSTORE in flight would land later than their access, or than the end of a remote one's slot,
they issue later (assumption 76). -/
def publishGap (k gap : Nat) (each : Bool) (a : Nat) (holds : Bool) (s : State) : Nat :=
  let t := getStr s k
  let ws := strWords s k t each a
  let now := if holds then nowWords t ws else ws
  match now, lastStoreLand t with
  | _ :: _, some c => max gap (c + 1 - (t.nextSlot + (if (remoteWord now).isSome then 2 else 3)))
  | _, _ => gap

def ffillEff (k : Nat) (i : Instr) (o : FfillOpnds) (first : Bool) (acc : BitVec 64 → FeAcc) (s : State) : State :=
  let v := fillValue (sreg (getStr s k)) o
  fillEff k i o.each (areg (getStr s k) o.aw.val) first first (acc v) (fun ws => .fill ws v) s

def fcountPlusPlan (k : Nat) (each : Bool) (aw : AReg) (n : Nat) (s : State) (t : Stream) : Plan :=
  fillPlan k each (areg t aw.val) true (decide (1 ≤ n) && decide (n < 65536)) false [areg t aw.val, n, 0, 0] s t

def fcountPlusEff (k : Nat) (i : Instr) (each : Bool) (aw : AReg) (n : Nat) (s : State) : State :=
  fillEff k i each (areg (getStr s k) aw.val) true false (.count n) (fun ws => .count ws n) s

def execFfill (w : Who) (gap : Nat) (o : FfillOpnds) (s : State) : Host.Outcome State Fault Refusal :=
  .next (match w with
    | .stream k =>
      issueStr k.val gap 2 (.ffill w gap o) (ffillPlan k.val o true)
        (fun s => ffillEff k.val (.ffill w gap o) o true .fill (noteData k.val (ffillPlan k.val o true) s)) s
    | .handler m =>
      let c := getCore s m.val
      let regs := fun (x : SOpnd) => match x with
        | .reg r => decide (r.val < 16)
        | .imm _ => true
      handlerFe m.val o.each (hareg c o.aw.val) (regs o.sl && (o.sh.map regs).getD true && handlerRegs w [] [o.aw.val])
        (.fill (fillValue (hsreg c) o)) s)

def execFempty (w : Who) (gap : Nat) (o : FfillOpnds) (s : State) : Host.Outcome State Fault Refusal :=
  .next (match w with
    | .stream k =>
      issueStr k.val (publishGap k.val gap o.each (areg (getStr s k.val) o.aw.val) false s) 2 (.fempty w gap o) (ffillPlan k.val o false)
        (fun s => ffillEff k.val (.fempty w gap o) o false .empty (noteData k.val (ffillPlan k.val o false) s)) s
    | .handler m =>
      let c := getCore s m.val
      let regs := fun (x : SOpnd) => match x with
        | .reg r => decide (r.val < 16)
        | .imm _ => true
      handlerFe m.val o.each (hareg c o.aw.val) (regs o.sl && (o.sh.map regs).getD true && handlerRegs w [] [o.aw.val])
        (.empty (fillValue (hsreg c) o)) s)

def execFcountPlus (w : Who) (gap : Nat) (each : Bool) (aw : AReg) (n : Nat) (s : State) : Host.Outcome State Fault Refusal :=
  .next (match w with
    | .stream k =>
      issueStr k.val (publishGap k.val gap each (areg (getStr s k.val) aw.val) true s) 2 (.fcountPlus w gap each aw n)
        (fcountPlusPlan k.val each aw n)
        (fun s => fcountPlusEff k.val (.fcountPlus w gap each aw n) each aw n (noteData k.val (fcountPlusPlan k.val each aw n) s)) s
    | .handler m =>
      handlerFe m.val each (hareg (getCore s m.val) aw.val)
        (decide (1 ≤ n) && decide (n < 65536) && handlerRegs w [] [aw.val]) (.count n) s)

/-! ### Replies (R217, R223, R226, R546) -/

/-- A fault that a posted access met ends the task that posted it, at its next issue slot; a pre-empted one when it goes on
(R226). -/
def lateFault (s : State) (k : Nat) (d : DynOp) (res : FeRes) : State :=
  match res with
  | .ok _ => s
  | .cause c =>
    let t := getStr s k
    if d.reply then s
    else if t.task = d.task then
      if t.ended = none ∧ t.st ≠ .idle then stopLate k c (noteSkip k d.ctx d.task c d.pc d.data s) else s
    else if (savedPc s d.task).isSome then lateSaved (noteSkip k d.ctx d.task c d.pc d.data s) d.task c
    else s

/-- A stream whose task was pre-empted while it waited for the reply of operation `op` keeps the reply until it goes on. -/
def keepReply (op : Nat) (res : FeRes) (t : Stream) : Option Stream :=
  match t.parked with
  | some (.reply o sd sd2 g, i, none) => if o = op then some { t with parked := some (.reply o sd sd2 g, i, some res) } else none
  | _ => none

/-- The reply of operation `op` for a stream of a task that is being pre-empted, or has been. -/
def parkedReply (s : State) (k op task : Nat) (res : FeRes) : Option State :=
  if (getStr s k).task = task then (keepReply op res (getStr s k)).map (setStr s k)
  else match getTask s (task % 4096) with
    | none => none
    | some tk => match tk.saved with
      | none => none
      | some sv =>
        if tk.id ≠ task then none
        else (keepReply op res sv.stream).map (fun t => setTask s (task % 4096) (some { tk with saved := some { sv with stream := t } }))

/-- A fault comes back to a handler that has ended: ILL is set and the cause logged, with the macro-op that met it (R210). -/
def lateHandler (s : State) (m : Nat) (d : DynOp) (c : Nat) : State :=
  let s := bump (setF s (fHNDFLT_ILL (m / 8) (m % 8)) 1) (fHNDFCNT_ILCNT (m / 8) (m % 8)) 1
  logPut s { LogEntry.blank with
    kind := 0x0C, cause := 1, ctx := d.ctx, pc := d.pc, data := [d.data.getD 0 0, d.data.getD 1 0, c, 0] }

/-- What a stream that waits for the reply of a remote access does with it. -/
def takeAnswer (s : State) (k : Nat) (sd sd2 : Option SReg) (g : Nat × Nat × Nat) (res : FeRes) : State :=
  match res with
  | .ok v => resumeWait k 1 (laterAcquire k 1 g (modStr s k (fun t => writeTaken t sd sd2 v.toNat)))
  | .cause c => skip k c (getStr s k).pc (getStr s k).data s

/-- The reply of a remote access reaches its pavilion: a waiting stream goes on in the cycle after it; a fault ends the task
of its stream, or the handler, that asked, if it still runs (R210, R226). -/
def takeReply (s : State) (op : Nat) (res : FeRes) : State :=
  match findOp s op with
  | none => s
  | some d =>
    let core := ((d.shares.head?).map (fun x => x.core)).getD 0
    let s := countSop (dropOp s op) core 0 0
    match d.who with
    | .stream k =>
      let t := getStr s k.val
      match t.wait with
      | .reply o sd sd2 g =>
        if o = op then takeAnswer s k.val sd sd2 g res
        else (parkedReply s k.val op d.task res).getD (lateFault s k.val d res)
      | _ => (parkedReply s k.val op d.task res).getD (lateFault s k.val d res)
    | .handler m =>
      match res with
      | .cause c => if (getCore s m.val).hndEnds = d.seq then handlerIll s m.val c else lateHandler s m.val d c
      | .ok _ => s

end Sys2Proof.Machine
end

