-- ==== Sys2Proof/Machine/Dynamic.lean ====
section
/-! DEFINITION. Dynamic macro-ops and messages (spec/05 R176 to R190, spec/06 R231 to R235), the release of holds and of commit
buffers, tokens, handlers and wait limits (spec/10 R407, R415, R430, R431, spec/04 R149, R151). -/

namespace Sys2Proof.Machine

open Sys2Proof

/-! ### SLOAD and SSTORE (R184 to R187) -/

/-- The bounding range of rows: lowest byte and length; none when it leaves the numbers. -/
def bounding (base rows rb : Nat) (stride : Int) : Option (Nat × Nat) :=
  let last : Int := (base : Int) + ((rows : Int) - 1) * stride
  let lo := min (base : Int) last
  let hi := max (base : Int) last + (rb : Int)
  if lo < 0 then none else some (lo.toNat, (hi - lo).toNat)

/-- The transfer of one performing core: `x` is its logical index, `m` the core (R176, R184, R186). -/
def xferFor (i : Issuer) (o : XferOpnds) (load : Bool) (x m : Nat) : Xfer :=
  let far := fun (r : AReg) => if o.each then truncN 52 ((i.a r.val : Int) + (x : Int) * i.sI o.scs.val) else i.a r.val
  let near := fun (r : AReg) => if o.each then orgAddr m (i.a r.val) else i.a r.val
  { src := if load then far o.asrc else near o.asrc
    dst := if load then near o.adst else far o.adst
    rows := i.s o.srows.val
    rb := i.s o.srb.val
    ss := i.sI o.sss.val
    ds := i.sI o.sds.val }

/-- Whether an Orangery side of a transfer is legal: its bounding range in one slice, in granules of the context (R185,
R280). -/
def orgSideOk (s : State) (ctx base rows rb : Nat) (stride : Int) : Bool :=
  match bounding base rows rb stride with
  | some (lo, n) => orgOwned s ctx lo n && orgSlice lo == orgSlice base
  | none => false

/-- Whether a row at a device address is legal: spaces that are known, 0x2 with privilege (R666), and in the Orangery one slice's
granules of the context (R280). -/
def rowOk (s : State) (ctx a n : Nat) : Bool :=
  let ends := [spaceOf a, spaceOf (truncN 52 ((a + n - 1 : Nat) : Int))]
  ends.all (fun sp => spaceKnown sp && (sp != 2 || hasPriv s ctx)) && (!(ends.contains 0) || orgOwned s ctx a n)

/-- Whether the far side of a transfer is legal: every row is.  `one` is set for the destination of an SSTORE in ONE mode, which
crosses no slice boundary in the Orangery. -/
def farOk (s : State) (ctx a rows rb : Nat) (stride : Int) (one : Bool) : Bool :=
  (List.range rows).all (fun r => rowOk s ctx (truncN 52 ((a : Int) + (r : Int) * stride)) rb) &&
  (!one || spaceOf a != 0 || orgSideOk s ctx a rows rb stride)

/-- The completion word of each performing core (R177). -/
def cplWord (i : Issuer) (acpl : AReg) (m : Nat) : Nat := orgAddr m (i.a acpl.val)

/-- The checks of SLOAD and SSTORE (R184 to R187): the completion word lies outside the destination range, which is the bounding range of the
rows (R177, R185).  That asrc and adst are multiples of 32 is the model's choice: the spec gives
multiples of 32 for rows and strides, calls a misaligned operand illegal, and states no alignment for the two addresses
(assumption 87). -/
def xferLegal (s : State) (i : Issuer) (o : XferOpnds) (load : Bool) : Bool :=
  let x0 := xferFor i o load 0 0
  let m32 := fun (v : Int) => v % 32 == 0
  decide (1 ≤ x0.rows) && decide (x0.rows ≤ 65536) && decide (32 ≤ x0.rb) && decide (x0.rb ≤ 65536) && x0.rb % 32 == 0 &&
  m32 x0.ss && m32 x0.ds && (!o.each || m32 (i.sI o.scs.val)) &&
  i.a o.asrc.val % 32 == 0 && i.a o.adst.val % 32 == 0 && i.a o.acpl.val % 8 == 0 &&
  (!o.each || decide (i.a (if load then o.adst else o.asrc).val < sliceBytes)) &&
  (i.performers o.each).all (fun p =>
    let x := xferFor i o load p.1 p.2
    let nearSide := if load then orgSideOk s i.ctx x.dst x.rows x.rb x.ds else orgSideOk s i.ctx x.src x.rows x.rb x.ss
    let farSide := if load then farOk s i.ctx x.src x.rows x.rb x.ss false else farOk s i.ctx x.dst x.rows x.rb x.ds (!o.each)
    let cplIn := match bounding x.dst x.rows x.rb x.ds with
      | some (lo, n) => overlaps lo n (cplWord i o.acpl p.2) 8
      | none => (xferRows x).any (fun r => overlaps r.2 x.rb (cplWord i o.acpl p.2) 8)
    nearSide && farSide && !cplIn && localOwned s i.ctx [p.2] (i.a o.acpl.val) 8)

/-- The range that rows at device addresses take in each slice of the issuing pavilion: the bounding range of the bytes touched
there (R183, R185). -/
def dynRange (own : List Nat) (op : Nat) (rows : List Nat) (rb : Nat) (write : Bool) : List Range :=
  own.filterMap (fun m =>
    let offs := (rows.filter (fun a => spaceOf a == 0 && orgSlice a == m)).map orgOff
    match offs with
    | [] => none
    | o :: _ => some ⟨false, op, [m], offs.foldl min o, offs.foldl max o + rb - 1, write, 0⟩)

def xferRanges (own : List Nat) (op : Nat) (i : Issuer) (o : XferOpnds) (load : Bool) : List Range :=
  (i.performers o.each).flatMap (fun p =>
    let x := xferFor i o load p.1 p.2
    let rows := xferRows x
    dynRange own op (rows.map Prod.fst) x.rb false ++ dynRange own op (rows.map Prod.snd) x.rb true)

/-- Whether a completion word lies in the task's output ranges, so that the completion is held (R180). -/
def cplHeld (i : Issuer) (each : Bool) (acpl : AReg) : Bool := (i.performers each).any (fun p => inOuts i.outs (cplWord i acpl p.2))

def xferPlan (k : Nat) (o : XferOpnds) (load : Bool) (s : State) (t : Stream) : Plan :=
  let i := issStr k t
  let cause := firstCause [need (xferLegal s i o load) 0x01,
    need (!(cplHeld i o.each o.acpl) || commitRoom t 1 0) 0x0C]
  ⟨cause, [i.a o.adst.val, i.a o.asrc.val, i.s o.srows.val, i.s o.srb.val],
    if cause = 0 then xferRanges (coresOfPav (k / 2)) s.nextOp i o load else [], true⟩

def xferShares (i : Issuer) (o : XferOpnds) (load : Bool) : List Share :=
  (i.performers o.each).map (fun p =>
    let x := xferFor i o load p.1 p.2
    ⟨p.2, if load then .sload x else .sstore x, some (cplWord i o.acpl p.2), .waiting 0⟩)

/-- Issue an operation of stream `k` with a held or a plain completion (R180). -/
def launchHeld (k : Nat) (i : Issuer) (shares : List Share) (count held : Bool) (ranges : List Range) (s : State) : State :=
  let s := if held then modStr s k (fun t => { t with commit := t.commit ++ [.cpl s.nextOp [] count] }) else s
  launchOp s i shares count held false ranges

def xferEff (k : Nat) (o : XferOpnds) (load : Bool) (s : State) : State :=
  let t := getStr s k
  let i := issStr k t
  progress (launchHeld k i (xferShares i o load) o.count (cplHeld i o.each o.acpl) (xferRanges (coresOfPav (k / 2)) s.nextOp i o load) s)

def handlerXfer (m : Nat) (w : Who) (o : XferOpnds) (load : Bool) (s : State) : State :=
  if !(hndRuns s m) then s
  else
    let i := issHnd s m
    if handlerRegs w [o.srows.val, o.srb.val, o.sss.val, o.sds.val, o.scs.val] [o.adst.val, o.asrc.val, o.acpl.val] &&
        xferLegal s i o load then
      progress (launchOp (handlerStep s m) i (xferShares i o load) o.count false false [])
    else handlerIll s m 0x01

def execSload (w : Who) (gap : Nat) (o : XferOpnds) (s : State) : Host.Outcome State Fault Refusal :=
  .next (match w with
    | .stream k => issueStr k.val gap 2 (.sload w gap o) (xferPlan k.val o true)
      (fun s => xferEff k.val o true (noteData k.val (xferPlan k.val o true) s)) s
    | .handler m => handlerXfer m.val w o true s)

def execSstore (w : Who) (gap : Nat) (o : XferOpnds) (s : State) : Host.Outcome State Fault Refusal :=
  .next (match w with
    | .stream k => issueStr k.val gap 2 (.sstore w gap o) (xferPlan k.val o false)
      (fun s => xferEff k.val o false (noteData k.val (xferPlan k.val o false) s)) s
    | .handler m => handlerXfer m.val w o false s)

/-! ### SLATH (R188 to R190) -/

def slathFor (i : Issuer) (o : SlathOpnds) (x m : Nat) : Int × Int :=
  let step := if o.each then (x : Int) * i.sI o.scs.val else 0
  ((i.a o.areq.val : Int) + step, if o.each then ((orgAddr m 0 : Nat) : Int) + (i.a o.ares.val : Int) + step else (i.a o.ares.val : Int))

/-- The checks of SLATH (R188).  That ares is a multiple of 32 is the model's choice: the spec states an alignment for areq only
(assumption 87). -/
def slathLegal (s : State) (i : Issuer) (o : SlathOpnds) : Bool :=
  let srl := i.s o.srl.val
  decide (64 ≤ o.qlen) && decide (o.qlen ≤ 512) && o.qlen % 64 == 0 &&
  decide (32 ≤ srl) && decide (srl ≤ 2 ^ 24) && srl % 32 == 0 &&
  (!o.each || i.sI o.scs.val % 32 == 0) && i.a o.acpl.val % 8 == 0 &&
  (i.performers o.each).all (fun p =>
    let r := slathFor i o p.1 p.2
    decide (0 ≤ r.1) && decide (0 ≤ r.2) && r.1 % 64 == 0 && r.2 % 32 == 0 &&
    localOwned s i.ctx [p.2] r.1.toNat o.qlen && orgOwned s i.ctx r.2.toNat srl &&
    (!o.each || decide (r.2.toNat < orgAddr (p.2 + 1) 0) && decide (orgAddr p.2 0 ≤ r.2.toNat)) &&
    !(overlaps r.2.toNat srl (cplWord i o.acpl p.2) 8) && localOwned s i.ctx [p.2] (i.a o.acpl.val) 8)

/-- The request range of a SLATH is released in the cycle after @+2+qlen/64, its result range at its completion (R189). -/
def slathRanges (own : List Nat) (op now : Nat) (i : Issuer) (o : SlathOpnds) : List Range :=
  (i.performers o.each).flatMap (fun p =>
    let r := slathFor i o p.1 p.2
    (dynRange own op [orgAddr p.2 r.1.toNat] o.qlen false).map (fun x => { x with until_ := now + 2 + o.qlen / 64 }) ++
      dynRange own op [r.2.toNat] (i.s o.srl.val) true)

/-- The shares of a SLATH.  The request is read from the slice within its first cycles, in which nothing may change it: here at
issue (R188, R189; assumption 90). -/
def slathShares (s : State) (i : Issuer) (o : SlathOpnds) : List Share :=
  (i.performers o.each).map (fun p =>
    let r := slathFor i o p.1 p.2
    ⟨p.2, .slath (orgAddr p.2 r.1.toNat) o.qlen r.2.toNat (i.s o.srl.val) (orgRead s (orgAddr p.2 r.1.toNat) o.qlen), some (cplWord i o.acpl p.2), .waiting 0⟩)

def slathPlan (k : Nat) (o : SlathOpnds) (s : State) (t : Stream) : Plan :=
  let i := issStr k t
  let cause := firstCause [need (slathLegal s i o) 0x01, need (!(cplHeld i o.each o.acpl) || commitRoom t 1 0) 0x0C]
  ⟨cause, [i.a o.areq.val, o.qlen, i.a o.ares.val, i.s o.srl.val],
    if cause = 0 then slathRanges (coresOfPav (k / 2)) s.nextOp t.now i o else [], true⟩

def slathEff (k : Nat) (o : SlathOpnds) (s : State) : State :=
  let t := getStr s k
  let i := issStr k t
  launchHeld k i (slathShares s i o) o.count (cplHeld i o.each o.acpl) (slathRanges (coresOfPav (k / 2)) s.nextOp t.now i o) s

def execSlath (w : Who) (gap : Nat) (o : SlathOpnds) (s : State) : Host.Outcome State Fault Refusal :=
  .next (match w with
    | .stream k =>
      issueStr k.val gap 2 (.slath w gap o) (slathPlan k.val o)
        (fun s => slathEff k.val o (noteData k.val (slathPlan k.val o) s)) s
    | .handler m =>
      if !(hndRuns s m.val) then s
      else
        let i := issHnd s m.val
        if handlerRegs w [o.srl.val, o.scs.val] [o.areq.val, o.ares.val, o.acpl.val] && slathLegal s i o then
          launchOp (handlerStep s m.val) i (slathShares s i o) o.count false false []
        else handlerIll s m.val 0x01)

/-! ### CSEND and CSEND.TRY (R231 to R234) -/

def csendLegal (s : State) (i : Issuer) (o : CsendOpnds) : Bool :=
  decide (32 ≤ o.len) && decide (o.len ≤ 256) && o.len % 32 == 0 && i.a o.am.val % 32 == 0 &&
  (ringOf s i.ctx (i.a o.ar.val)).isSome &&
  (i.performers o.each).all (fun p =>
    if o.each then localOwned s i.ctx [p.2] (i.a o.am.val) o.len
    else spaceOf (i.a o.am.val) == 0 && orgOwned s i.ctx (i.a o.am.val) o.len)

/-- The message bytes are read at issue, so their ranges only hold the issue (R183, R444). -/
def csendRanges (own : List Nat) (op : Nat) (i : Issuer) (o : CsendOpnds) : List Range :=
  (i.performers o.each).flatMap (fun p =>
    dynRange own op [if o.each then orgAddr p.2 (i.a o.am.val) else i.a o.am.val] o.len false)

def csendPlan (k : Nat) (o : CsendOpnds) (s : State) (t : Stream) : Plan :=
  let i := issStr k t
  let n := (i.performers o.each).length
  let cause := firstCause [need (csendLegal s i o) 0x01, need (o.early || commitRoom t n (n * o.len)) 0x0C]
  ⟨cause, [i.a o.ar.val, i.a o.am.val, o.len, 0], if cause = 0 then csendRanges (coresOfPav (k / 2)) s.nextOp i o else [], true⟩

def csendCost (i : Issuer) (o : CsendOpnds) : Nat := (i.performers o.each).length * (o.len + 32)

/-- Whether a message goes to a port that takes nothing, so that it is sent without credit and fails (R544). -/
def sendFails (s : State) (i : Issuer) (o : CsendOpnds) (c : Nat) : Bool :=
  c == 576 && !(portTakes s (peerPort (i.a o.ar.val))) && !(portHolds s (peerPort (i.a o.ar.val)))

/-- Send with the credit at hand, or answer that it lacks, having asked for it (R426, R427).  The message bytes are those of
`src`. -/
def csendTryNow (i : Issuer) (o : CsendOpnds) (src s : State) : State × Bool :=
  match ringOf s i.ctx (i.a o.ar.val) with
  | none => (s, false)
  | some (c, key) =>
    let cost := csendCost i o
    let s := useAccount s i.who key
    if covered s i key cost || sendFails s i o c then (sendNow s src i o c key, true)
    else (askCredit s i (i.a o.ar.val) c key (cost - accountOf (accountsOf s i.who) key), false)

/-- CSEND: its slot is two cycles, and its bytes are those that the earlier TSTOREs leave, as they land meanwhile (R231;
assumption 91). -/
def csendEff (k : Nat) (ins : Instr) (o : CsendOpnds) (s : State) : State :=
  let i := issued k s
  let r := csendTryNow i o (staticPart k s) s
  if r.2 then r.1
  else
    let c := ((ringOf s i.ctx (i.a o.ar.val)).map Prod.fst).getD 576
    beginWait k (.credit c (csendCost i o) ins) (some ins) r.1

def csendTryEff (k : Nat) (o : CsendOpnds) (sd : SReg) (s : State) : State :=
  let r := csendTryNow (issued k s) o (staticPart k s) s
  modStr r.1 k (fun t => setSreg t sd.val (if r.2 then 1 else 0))

def handlerSend (m : Nat) (w : Who) (o : CsendOpnds) (sd : Nat) (s : State) : State :=
  if !(hndRuns s m) then s
  else
    let i := issHnd s m
    if handlerRegs w [sd] [o.ar.val, o.am.val] && csendLegal s i o then
      let r := csendTryNow i o s (handlerStep s m)
      modCore r.1 m (fun c => setHs c sd (if r.2 then 1 else 0))
    else handlerIll s m 0x01

def execCsend (w : Who) (gap : Nat) (o : CsendOpnds) (s : State) : Host.Outcome State Fault Refusal :=
  .next (match w with
    | .stream k => issueStr k.val gap 2 (.csend w gap o) (csendPlan k.val o)
      (fun s => csendEff k.val (.csend w gap o) o (noteData k.val (csendPlan k.val o) s)) s
    | .handler m => handlerSend m.val w o 15 s)

def execCsendTry (w : Who) (gap : Nat) (o : CsendOpnds) (sd : SReg) (s : State) : Host.Outcome State Fault Refusal :=
  .next (match w with
    | .stream k => issueStr k.val gap 2 (.csendTry w gap o sd) (csendPlan k.val o)
      (fun s => csendTryEff k.val o sd (noteData k.val (csendPlan k.val o) s)) s
    | .handler m => handlerSend m.val w o sd.val s)

/-- HRET ends a handler; in a main stream, and inside an open loop level, it is illegal (R203, R235). -/
def execHret (w : Who) (gap : Nat) (s : State) : Host.Outcome State Fault Refusal :=
  .next (match w with
    | .stream k => issueStr k.val gap 1 (.hret w gap) (fun _ _ => ⟨0x01, [], [], false⟩) (fun s => s) s
    | .handler m => unlessPaused s (if handlerDepth s m.val = 0 then endHandler s m.val else handlerIll s m.val 0x01))

/-! ### Completion of dynamic operations -/

def execOperationCompletion (op : Nat) (core : Fin 64) (hostSt : Fin 4) (s : State) : Host.Outcome State Fault Refusal :=
  .next (unlessPaused s (progress (performShare s op core.val hostSt.val)))

/-! ### Issuing a held macro-op again (R446, R238, R223) -/

def nextOf (o : Host.Outcome State Fault Refusal) (s : State) : State :=
  match o with
  | .next t => t
  | _ => s

/-- Issue a macro-op again, as it stood. -/
def reissue (i : Instr) (s : State) : State :=
  match i with
  | .wloadR w g a b => nextOf (execWloadR w g a b s) s
  | .wloadS w g a b f => nextOf (execWloadS w g a b f s) s
  | .mpass w g o => nextOf (execMpass w g o s) s
  | .mpasst w g o => nextOf (execMpasst w g o s) s
  | .mdist w g o => nextOf (execMdist w g o s) s
  | .msqd w g o => nextOf (execMsqd w g o s) s
  | .mcmpx w g o => nextOf (execMcmpx w g o s) s
  | .mcmpn w g o => nextOf (execMcmpn w g o s) s
  | .tload w g o => nextOf (execTload w g o s) s
  | .tstore w g o p => nextOf (execTstore w g o p s) s
  | .sload w g o => nextOf (execSload w g o s) s
  | .sstore w g o => nextOf (execSstore w g o s) s
  | .slath w g o => nextOf (execSlath w g o s) s
  | .eprog w g o => nextOf (execEprog w g o s) s
  | .eshufX w g d x m => nextOf (execEshufX w g d x m s) s
  | .eshufB w g d x c => nextOf (execEshufB w g d x c s) s
  | .esum w g d x n => nextOf (execEsum w g d x n s) s
  | .emax w g d x n o => nextOf (execEmax w g d x n o s) s
  | .ebcast w g d x v c o n => nextOf (execEbcast w g d x v c o n s) s
  | .equant w g o => nextOf (execEquant w g o s) s
  | .fwait w g o => nextOf (execFwait w g o s) s
  | .ftake w g o => nextOf (execFtake w g o s) s
  | .ffill w g o => nextOf (execFfill w g o s) s
  | .fempty w g o => nextOf (execFempty w g o s) s
  | .fcountPlus w g e a n => nextOf (execFcountPlus w g e a n s) s
  | .fcountMinus w g e a k x c => nextOf (execFcountMinus w g e a k x c s) s
  | .csend w g o => nextOf (execCsend w g o s) s
  | .csendTry w g o d => nextOf (execCsendTry w g o d s) s
  | .fenceL w g => nextOf (execFenceL w g s) s
  | .fenceX w g => nextOf (execFenceX w g s) s
  | .commit w g => nextOf (execCommit w g s) s
  | _ => s

/-- A held stream tries its macro-op again; while it is still held nothing changes.  Its held cycles are counted (R446).  A
macro-op that must still issue before its task can be pre-empted runs to its end then (R389). -/
def execHoldRelease (k : Fin 16) (s : State) : Host.Outcome State Fault Refusal :=
  .next (let t := getStr s k.val
    match t.st, t.held with
    | .held, some i =>
      if paused s || (t.preempt.isSome && !t.obliged) then s
      else
        let n := cyclesSince s t.heldAt
        let s1 := reissue i (modStr s k.val (fun t => { readOn n t with st := .running, held := none, heldAs := [], preempt := none, obliged := false }))
        if (getStr s1 k.val).st = .held then s
        else
          let s2 := bump s1 (fSTRHOLDCY_CYCLES (k.val / 2) (k.val % 2)) n
          if t.obliged && (getStr s2 k.val).ended.isNone then
            drain k.val (modStr s2 k.val (fun u => { u with preempt := t.preempt }))
          else s2
    | _, _ => s)

/-! ### COMMIT step 2 (R239, R241) -/

/-- The access of a released entry met a fault of cause `c`: it and every later one are discarded, and the task ends
(R241). -/
def commitFault (k c w : Nat) (s : State) : State :=
  let t := getStr s k
  skip k c t.pc [w, 0, 0, 0] (discardCommit s k)

/-- Whether a held access reads the word that it writes. -/
def feReads : FeAcc → Bool
  | .count _ => true
  | _ => false

/-- Make the held access of one entry at its local words; answers the first word that faults, with the cause.  An
uncorrectable counter word ends the task as a hedged one (R274, R275).  Of an entry of several words, those before the faulting one
keep the access and those after it get none: R241 does not say which, and it is the model's choice (assumption 93). -/
def releaseWords (k : Nat) (acc : FeAcc) : List Nat → State → State × Option (Nat × Nat)
  | [], s => (s, none)
  | w :: ws, s =>
    let c := feCause s w acc
    if c ≠ 0 then (s, some (c, w))
    else if feReads acc && orgErrAt s w == 2 then (stopStream k (endHedged 3) (discardCommit (noteWord s w 2) k), none)
    else
      let s := match acc with
        | .fill v => putWord s w v.toNat .full
        | .count n =>
          let s := noteWord s w 2
          let c := cntCount (wordVal s w) + n
          putWord s w (cntPut (wordVal s w) c) (if c = 0 then .empty else .full)
        | _ => s
      releaseWords k acc ws s

/-- Make the held completions of one operation (R180, R241). -/
def releaseCpls (count : Bool) : List (Nat × BitVec 64 × Bool) → State → State × Option (Nat × Nat)
  | [], s => (s, none)
  | (w, v, failed) :: rest, s =>
    let x := wordVal s w
    let full := !failed && seenMeta s w != .poisoned &&
      (if count then decide (cntCap x < cntCount x + 1) else seenMeta s w == .full)
    if full then (s, some (0x07, w)) else releaseCpls count rest (completeWord s w v.toNat count failed).1

/-- The accesses of a released entry at local words, in its access cycle. -/
def accessEntry (k : Nat) (e : CEntry) (s : State) : State × Option (Nat × Nat) :=
  match e with
  | .fill ws v => releaseWords k (.fill v) ws s
  | .count ws n => releaseWords k (.count n) ws s
  | .cpl _ rs c => releaseCpls c rs s
  | .msg _ _ _ _ _ => (s, none)

/-- Whether an entry names local words only, which it accesses three cycles after its release. -/
def entryLocal (t : Stream) (k : Nat) : CEntry → Bool
  | .fill ws _ => ws.all (fun w => (localSlices t k).contains (orgSlice w))
  | .count ws _ => ws.all (fun w => (localSlices t k).contains (orgSlice w))
  | .cpl _ _ _ => true
  | .msg _ _ _ _ _ => false

/-- Release one entry: a local one makes its access three cycles on, any other is sent now (R239). -/
def releaseEntry (k : Nat) (e : CEntry) (s : State) : State :=
  let t := getStr s k
  if entryLocal t k e then modStr s k (fun t => { t with releasing := t.releasing ++ [(t.now + 3, e)] })
  else
    let i := issued k s
    match e with
    | .fill ws v => forEach ws (fun s w => launchOp s i [⟨core0 i, .fe w (.fill v), none, .waiting 0⟩] false false false []) s
    | .count ws n => forEach ws (fun s w => launchOp s i [⟨core0 i, .fe w (.count n), none, .waiting 0⟩] false false false []) s
    | .msg c tag a core bs => launchOp s i [⟨core, .send c tag a bs 2, none, .waiting 0⟩] false false false []
    | .cpl _ _ _ => s

/-- Make the accesses of the released entries that are due by cycle `c`, in order, until one faults. -/
def accessDue (k c : Nat) : Nat → State → State
  | 0, s => s
  | n + 1, s =>
    match (getStr s k).releasing with
    | [] => s
    | (at_, e) :: rest =>
      if c < at_ then s
      else
        let s := modStr (runTo k at_ s) k (fun t => { t with releasing := rest })
        let r := accessEntry k e s
        match r.2 with
        | some f => commitFault k f.1 f.2 r.1
        | none => accessDue k c n r.1

/-- COMMIT releases the next entry of its stream's buffer, one a cycle; after the last one the stream runs on until every access
has been made (R239).  An entry that is sent before an earlier one is found to fault stays sent (assumption 93). -/
def execCommitBufferRelease (k : Fin 16) (s : State) : Host.Outcome State Fault Refusal :=
  .next (let t := getStr s k.val
    match t.wait, t.commit with
    | .commit2, e :: rest =>
      if paused s then s
      else
        let s := accessDue k.val (t.now + 1) 4 s
        if (getStr s k.val).wait ≠ .commit2 then settle s
        else
          let s := modStr (runTo k.val (t.now + 1) s) k.val (fun t => { t with commit := rest, released := true })
          let s := releaseEntry k.val e s
          progress (if rest.isEmpty then accessDue k.val (t.now + 4) 4 s else s)
    | _, _ => s)

/-! ### Tokens (R546) -/

/-- A stream that waits for credit goes on once its account covers the send (R232). -/
def resumeCredit (k : Nat) (s : State) : State :=
  let t := getStr s k
  match t.wait with
  | .credit _ _ (.csend _ _ o) =>
    let i := issStr k t
    match ringOf s i.ctx (i.a o.ar.val) with
    | some (c, key) =>
      if covered s i key (csendCost i o) then
        let s := resumeWait k 2 s
        sendNow s (staticPart k s) i o c key
      else s
    | none => s
  | _ => s

/-- A grant reaches its sender: the account takes it, or, where the account is gone, it returns to its creel (R424). -/
def takeGrant (s : State) (w : Who) (tag n : Nat) : State :=
  let l := accountsOf s w
  if l.any (fun a => a.tag == tag) then
    let s := setAccounts s w (addAccount l tag n)
    match w with
    | .stream k => resumeCredit k.val s
    | .handler _ => s
  else creditReturn s tag n

/-- A token is taken up at its plot; while the plots stand still for a change of the clock step it waits (R546, R625). -/
def execTrellisToken (id : Nat) (s : State) : Host.Outcome State Fault Refusal :=
  .next (match s.tokens.find? (fun x => x.id == id) with
    | none => s
    | some x =>
      if paused s then s
      else
        let s := { s with tokens := s.tokens.filter (fun y => y.id != id) }
        match x.kind with
        | .reply op res => progress (takeReply s op res)
        | .grant w tag n => progress (takeGrant s w tag n))

/-- Nothing is in flight any more. -/
def dropWork (s : State) : State :=
  { s with units := [], slaRuns := [], bankq := [], tokens := [], waiters := [], ops := [], packets := [] }

/-- A module-fatal error (R597): it is recorded and logged, and everything stops. -/
def fatal (s : State) (cause : Nat) : State :=
  if isSet s fERRSTAT_FATAL then s
  else
    let s := setF (setF (setF s fERRSTAT_FATAL 1) fFATALINFO_CAUSE cause) fFATALINFO_TICK (tick s)
    let s := logPut s { LogEntry.blank with kind := 0x16, cause := cause, data := [(regGet s rFATALINFO).toNat] }
    let s := forEach (List.range 16) (fun s k => modStr s k (fun t =>
      { t with st := .idle, wait := .none_, held := none, ended := none })) s
    let s := forEach (List.range 64) (fun s ch => modChan s ch (fun c => { c with st := .idle, desc := none })) s
    let s := forEach (List.range 8) (fun s p => setF (setPort s p Port.reset) (fLNKSTAT_STATE p) 0) s
    dropWork s

/-- A token that is not taken up within 10 µs is a module-fatal error (R597 cause 4). -/
def execTrellisTimeout (id : Nat) (s : State) : Host.Outcome State Fault Refusal :=
  .next (match s.tokens.find? (fun x => x.id == id) with
    | none => s
    | some x => if x.tick + 1000 ≤ tick s then fatal s 4 else s)

/-! ### Handlers (R148, R151, R430, R431) -/

/-- The creel of core `m` whose message is handled next (R430). -/
def nextCreel (s : State) (m : Nat) : Option Nat :=
  let st := getStr s (streamOfCore s m)
  let cs := (rangeFrom (8 * m) 8).filter (fun c =>
    isSet s (crlEN c) && !(getCreel s c).entries.isEmpty && getF s (crlCTX c) == st.ctx)
  let arrive := fun c => (((getCreel s c).entries.head?).map (fun e => e.arrive)).getD 0
  if ordered s then cs.head?
  else cs.foldl (fun o c => match o with
    | none => some c
    | some b => if arrive c < arrive b then some c else some b) none

/-- A core's handler unit dispatches the handler of its next creel (R147, R148, R430).  The routine is the one that the creel's
configuration names: where the binary that stands in the pavilion has none of that number the spec says nothing, and that the handler
is dispatched all the same is the model's choice (assumption 107). -/
def execHandlerDispatch (m : Fin 64) (s : State) : Host.Outcome State Fault Refusal :=
  .next (
    let k := streamOfCore s m.val
    let st := getStr s k
    if paused s || (getCore s m.val).handler.isSome || coreHedged s m.val || getBit s fHEDGEMISC_PAV (m.val / 8) ||
        st.st == .idle || !(st.cores.contains m.val) || st.resident.isNone || isSet s fERRSTAT_FATAL then s
    else match nextCreel s m.val with
      | none => s
      | some c =>
        match (getCreel s c).entries with
        | [] => s
        | e :: _ =>
          let a := crlBase s c + e.off + 32
          let msg := orgRead s a 32
          let n := m.val / 8
          let j := m.val % 8
          let s := noteRead s a 32 0
          let s := modCore s m.val (fun x =>
            let hs := (List.range 8).foldl (fun l i =>
              amSet (fun _ => 0#32) l i (BitVec.ofNat 32 (leVal ((msg.drop (4 * i)).take 4)))) []
            { x with
              handler := some ⟨c, getF s (fCRLCFG_ROUTINE (c / 64) (c / 8 % 8) (c % 8)), tick s, [], 0⟩,
              hs := amSet (fun _ => 0#32) hs 8 (BitVec.ofNat 32 (c % 8)),
              ha := amSet (fun _ => 0#52) [] 0 (BitVec.ofNat 52 a),
              handled := if x.handled.contains st.ctx then x.handled else x.handled ++ [st.ctx] })
          setF (setF (setF s (fHNDSTAT_RUN n j) 1) (fHNDSTAT_CREEL n j) (c % 8)) (fHNDSTAT_ROUTINE n j)
            (getF s (fCRLCFG_ROUTINE (c / 64) (c / 8 % 8) (c % 8))))

/-- The time limit of a handler (R151): the plot cycles that it has run. -/
def execHandlerTimeLimit (m : Fin 64) (s : State) : Host.Outcome State Fault Refusal :=
  .next (
    let n := m.val / 8
    let j := m.val % 8
    let lim := getF s (fHNDLIM_LIMIT n j)
    match (getCore s m.val).handler with
    | none => s
    | some h =>
      if lim = 0 ∨ cyclesSince s h.start < lim ∨ paused s = true then s
      else
        let s := bump (setF s (fHNDFLT_TLIM n j) 1) (fHNDFCNT_TLCNT n j) 1
        let s := logPut s { LogEntry.blank with
          kind := 0x0C, cause := 2, ctx := getF s (crlCTX h.creel), pc := h.pc, data := [h.routine, h.creel, 0, 0] }
        endHandler s m.val)

/-! ### Limits of waits (R407, R415) -/

/-- Whether the wait of a stream is one that the wait timeout limits (R415). -/
def Wait.limited : Wait → Bool
  | .words _ _ _ _ => true
  | .reply _ _ _ _ => true
  | .credit _ _ _ => true
  | _ => false

def execWaitTimeout (k : Fin 16) (s : State) : Host.Outcome State Fault Refusal :=
  .next (
    let t := getStr s k.val
    let lim := getF s (fSTRWTO_STRWTO (k.val / 2) (k.val % 2))
    if lim = 0 ∨ !t.wait.limited ∨ t.st ≠ .waiting ∨ tick s - t.waitSince ≤ 100 * lim then s
    else
      let s := bump s (fSTRWTO_TOCNT (k.val / 2) (k.val % 2)) 1
      progress (skip k.val 0x0D t.pc t.data s))

/-- The settle interval of word `w` ends once it has passed since the word became FULL and its first taker arrived: the
takers are then examined in order of source key (R407, R503).  A word with no record in `fullAt` became FULL before ORDERED
was set. -/
def execSettleIntervalExpiry (w : Nat) (s : State) : Host.Outcome State Fault Refusal :=
  .next (
    let ts := takersOf s w
    let full := amGet (fun _ => 0) s.fullAt w
    let first := ts.foldl (fun m x => min m x.tick) (tick s)
    if !ordered s || ts.isEmpty || metaOf s w != .full then s
    else if !(settledFor s w (tick s - max (full - 1) first)) then s
    else progress (examine w ts s))

end Sys2Proof.Machine
end

