-- ==== Sys2Proof/Machine/Session.lean ====
section
/-! DEFINITION. The life of a port's session (spec/13 R518 to R520, R531 to R533, R544, R545): its training state, its
lanes, the failing of its operations, and the end of a session. -/

namespace Sys2Proof.Machine

open Sys2Proof

/-! ### Training state and lanes -/

/-- Set the training state; a port that enters or leaves ACTIVE or HEDGED is an event of source 5 (R579). -/
def setPortState (s : State) (p st : Nat) : State :=
  let old := portState s p
  let s := setF s (fLNKSTAT_STATE p) st
  if old ≠ st ∧ (old = 6 ∨ old = 7 ∨ st = 6 ∨ st = 7) then irqSource s 5 else s

def setLanes (s : State) (p mask : Nat) : State :=
  let s := setF s (fLANEMAP_ACTIVE p) mask
  setF s (fLNKSTAT_ACTIVE p) (activeLanes s p)

/-- MINLANES as it acts. -/
def minLanes (s : State) (p : Nat) : Nat :=
  let m := getF s (fLNKCTL_MINLANES p)
  if m = 0 then 1 else min m 16

/-- The lanes that stay in the stripe after every change that is under way. -/
def lanesToStay (s : State) (p : Nat) : Nat :=
  ((List.range 16).filter (fun l => laneOn s p l && !((getPort s p).lanes.any (fun c => c.lane == l && !c.on)) &&
    !((getPort s p).ctlq.contains (1, leBytes 1 l)))).length

/-- Send LANEOFF or LANEON for a lane (R531). -/
def sendLane (s : State) (p l : Nat) (on : Bool) : State := sendCtl s p (if on then 2 else 1) (leBytes 1 l)

/-- The laser of a lane, as TXLAS or RXLAS holds it. -/
def laserAt (s : State) (f0 f1 : Nat → Fld) (p l : Nat) : Nat :=
  let f := if l < 8 then f0 p else f1 p
  bitsOf (getF s f) (5 * (l % 8) + 4) (5 * (l % 8))
def setLaser (s : State) (f0 f1 : Nat → Fld) (p l k : Nat) : State :=
  let f := if l < 8 then f0 p else f1 p
  setF s f (putBits (getF s f) (5 * (l % 8) + 4) (5 * (l % 8)) k)

def txLaser (s : State) (p l : Nat) : Nat := laserAt s fTXLAS0_LASER fTXLAS1_LASER p l
def setTxLaser (s : State) (p l k : Nat) : State := setLaser s fTXLAS0_LASER fTXLAS1_LASER p l k
def setRxLaser (s : State) (p l k : Nat) : State := setLaser s fRXLAS0_LASER fRXLAS1_LASER p l k

/-! ### Failure of a port (R544) -/

/-- An operation sent through a port fails: a share as `failShare` states, a DMA run with DATA_UNCORRECTABLE; a request
for credit is forgotten, for its sender fails by itself. -/
def failTxn (s : State) (t : Txn) : State :=
  match t.who with
  | .share op core =>
    match shareOf s op core with
    | some x => failShare s op core x.op 1
    | none => s
  | .dma ch did => chanAnswered s ch did 1
  | _ => s

/-- A message that no credit came for fails as one that was sent and fails: its operation begins, and its shares fail (R544). -/
def failSend (s src : State) (i : Issuer) (o : CsendOpnds) : State :=
  let a := i.a o.ar.val
  let op := s.nextOp
  let shares := (csendMsgs src i o).map (fun m => (⟨m.1, .send 576 (65536 + a) a m.2 1, none, .waiting 0⟩ : Share))
  forEach shares (fun s x => failShare s op x.core x.op 1) (launchOp (noteMsgs s i o) i shares false false false [])

/-- A stream that waits for credit of a creel behind a failed port goes on, and its message fails (R544). -/
def failCredit (p : Nat) (s : State) (k : Nat) : State :=
  match (getStr s k).wait with
  | .credit 576 _ (.csend _ _ o) =>
    let i := issStr k (getStr s k)
    if peerPort (i.a o.ar.val) = p then failSend (resumeWait k 2 s) (staticPart k s) i o else s
  | _ => s

/-- Fail every operation in flight through a port: those of this module with their status, those of the peer without a
reply.  What waits under DRAIN has not been sent, and keeps waiting (R545, R558). -/
def portFail (s : State) (p : Nat) : State :=
  let x := getPort s p
  let s := setPort s p { x with
    buf := [], owes := false, owed := [0, 0, 0], txq := [], rxPart := [], carry := [], rxq := [], txns := [], asked := [], nakd := false,
    nakIn := none, replays := 0, lanes := [], testing := [], quick := false, ctlq := [] }
  let s := forEach x.txns failTxn s
  if portHolds s p then s else forEach (List.range 16) (failCredit p) s

/-- The end of a session (R544): the grants made to the other end are void and their unspent bytes return to their pools,
this end's accounts for the port are empty, and the peer's waiter entries are removed. -/
def endSession (s : State) (p : Nat) : State :=
  let s := forEach (List.range 64) (fun s w =>
    let x := getWk s w
    let n := portGranted x p
    let s := setWk s w { x with requests := x.requests.filter (fun r => match r.dest with
      | .peer q _ => q != p
      | .own _ => true) }
    if n = 0 then s else wicketRelease (setGranted s w p 0) w n) s
  let s := forEach (List.range 576) (fun s c =>
    let x := getCreel s c
    if x.requests.isEmpty && x.peers.isEmpty then s
    else
      let n := amGet (fun _ => 0) x.peers p
      let s := setCreel s c { x with
        out := x.out - n, peers := amSet (fun _ => 0) x.peers p 0,
        requests := x.requests.filter (fun r => match r.dest with
          | .peer q _ => q != p
          | .own _ => true) }
      poolAdd (setF s (crlWAITREQ c) (getCreel s c).requests.length) c n) s
  let drop := fun (l : List Account) => l.filter (fun a => decide (a.tag < 65536) || peerPort (a.tag - 65536) != p)
  let s := forEach (List.range 16) (fun s k => modStr s k (fun t => { t with accounts := drop t.accounts })) s
  let s := forEach (List.range 64) (fun s m => modCore s m (fun c => { c with accounts := drop c.accounts })) s
  let s := modPort s p (fun x => { x with wallets := [], nextTag := 0, nextRef := x.nextRef })
  { s with
    waiters := s.waiters.filter (fun w => match w.agent with
      | .peer q _ _ => q != p
      | _ => true),
    bankq := s.bankq.filter (fun b => match b.dest with
      | .peer q _ _ => q != p
      | _ => true) }

/-- A port is down: nothing of it is in the stripe. -/
def portDown (s : State) (p st : Nat) : State := setLanes (setPortState (portFail s p) p st) p 0

/-! ### Retrains (R533) -/

/-- Count a retrain: RETR, RETRCNT and a log entry of cause 3 (quick) or 4 (full). -/
def noteRetrain (s : State) (p cause : Nat) : State :=
  logLink (bump (setF s (fLNKEVT_RETR p) 1) (fLNKEVT_RETRCNT p) 1) p cause 0 0 0

/-- A quick retrain begins: the session, the replay buffers, SEQ and credit stay. -/
def quickRetrain (s : State) (p : Nat) : State :=
  if portState s p ≠ 6 then s
  else setPortState (modPort (noteRetrain s p 3) p (fun x => { x with quick := true })) p 3

/-- The training state from which a port comes up: LASER where its lantern has still to warm, RINGLOCK where it is ready,
DOWN where it may not come up (R518, R558). -/
def startState (s : State) (p : Nat) : Nat :=
  if !(isSet s (fLNKCTL_EN p)) || !(isSet s (fLANCTL_EN p)) || isSet s (fLANCTL_FORCEOFF p) then 0
  else if getF s (fLANSTAT_STATE p) = 4 then 2
  else if getF s (fLANSTAT_STATE p) = 3 then 1
  else 0

/-- Training begins afresh; the old session is over. -/
def startTraining (s : State) (p : Nat) : State :=
  let s := endSession (portDown s p (startState s p)) p
  modPort s p (fun x => { x with attempts := 0, quickFails := 0, tries := 0, txSeq := 0, rxSeq := 65535, txIdx := 0 })

/-- A full retrain (R533). -/
def fullRetrain (s : State) (p : Nat) : State := startTraining (noteRetrain s p 4) p

/-- A port comes up: a full retrain where it comes back after being down, so that it has had a session before (R533). -/
def train (s : State) (p : Nat) : State :=
  if 0 < getF s (fLNKSESS_SESSIONS p) then fullRetrain s p else startTraining s p

end Sys2Proof.Machine
end

