-- ==== Sys2Proof/Machine/Creels.lean ====
section
/-! DEFINITION. Creels at work (spec/10 R416 to R434, spec/14 R587): enabling, closing and quarantine, deliveries, grants, host
consumption; and the Belvedere (R435 to R438). -/

namespace Sys2Proof.Machine

open Sys2Proof

/-- Bytes that a creel's configuration register holds, whichever block it lies in. -/
def crlCfg (c : Nat) : Nat := (crlEN c).reg

/-- Whether a message is on its way to creel `c`: in a share that has not completed, or at its input stage. -/
def crlTraffic (s : State) (c : Nat) : Bool :=
  !(getCreel s c).stage.isEmpty ||
  s.ops.any (fun p => p.2.shares.any (fun x => !x.st.isDone && (match x.op with
    | .send d _ _ _ _ => d == c
    | _ => false)))

/-- A closed creel is quiet when its grants are spent or returned and nothing is on its way, or after 1 ms (R434). -/
def quietCreel (s : State) (c : Nat) : State :=
  let x := getCreel s c
  if isSet s (crlEN c) || isSet s (crlQUIET c) then s
  else if (x.out == 0 && !crlTraffic s c) || decide (x.cleared + 100000 ≤ tick s) then setF s (crlQUIET c) 1
  else s

/-- Clear EN of a creel: grants stop, and its quarantine starts (R434). -/
def closeCreel (s : State) (c : Nat) : State :=
  if isSet s (crlEN c) then modCreel (setF s (crlEN c) 0) c (fun x => { x with cleared := tick s }) else s

/-- The sender learns that its message is written (R178, R186, R538). -/
def msgDone (s : State) (bytes : Nat) : MsgFrom → State
  | .op id core => completeShare s id core 0 bytes 0
  | .peer p ref => sendReply s p ref 0x08 0 0 0 []
  | .commit _ => s

/-- A request for credit under a tag that is no longer current is dropped and counted; a peer's is refused (R433, R537). -/
def dropRequest (s : State) (r : GrantReq) : State :=
  let s := crlStale s r.tag
  match r.dest with
  | .peer p ref => sendReply s p ref 0x0A 3 2 8 (leBytes 8 0)
  | .own _ => s

/-- An enabled creel begins empty (R418, R421, R425): what still waits there under the old tag is stale, and a message's sender
sees it as sent (R433). -/
def openCreel (s : State) (c : Nat) : State :=
  let x := getCreel s c
  let s := clearCreel s c
  let s := setF s (crlGEN c) (getF s (crlGEN c) + 1)
  let s := setF (setF s (crlQUIET c) 0) (crlPOOL c) (crlS s c)
  let s := forEach x.stage (fun s m => msgDone (crlStale s m.tag) m.bytes.length m.back) s
  forEach x.requests dropRequest s

/-- A host write of a creel's configuration register: setting EN while QUIET is 0 has no effect (R434); the other fields
take the written value. -/
def writeCrlCfg (s : State) (c : Nat) (v : Nat) : State :=
  let en := bitOf v 63
  let was := isSet s (crlEN c)
  if en && !was && !(isSet s (crlQUIET c)) then s
  else
    let put := fun (s : State) => match rowOf (crlCfg c) with
      | some r => regPut s (crlCfg c) (BitVec.ofNat 64 (regWritten r (regGet s (crlCfg c)).toNat v))
      | none => s
    if en && !was then openCreel (put s) c
    else if !en && was then put (closeCreel s c)
    else put s

def execCreelEnable (c : Nat) (v : BitVec 64) (s : State) : Host.Outcome State Fault Refusal :=
  whenServed s (if c < 576 then writeCrlCfg s c (putBits v.toNat 63 63 1) else s)

def execCreelDisable (c : Nat) (v : BitVec 64) (s : State) : Host.Outcome State Fault Refusal :=
  whenServed s (if c < 576 then writeCrlCfg s c (putBits v.toNat 63 63 0) else s)

def execCreelQuarantineEnd (c : Nat) (s : State) : Host.Outcome State Fault Refusal :=
  whenOn s (if c < 576 then quietCreel s c else s)

/-! ### Deliveries (R422, R429) -/

/-- Whether the oldest message at creel `c`'s input stage has waited long enough: the settle interval of the creel's ring
with ORDERED set (R429, R503).  No wicket holds a ring in host memory. -/
def stageReady (s : State) (c : Nat) (l : List StageMsg) : Bool :=
  match l with
  | [] => false
  | m :: _ =>
    let n := tick s - m.tick
    !(ordered s) || if crlHost c then decide (128 ≤ cyclesSince s (tick s - n)) else settledFor s (crlBase s c) n

/-- Whether the bank that a core creel's ring lies in is hedged, so that its grants wait (R593). -/
def crlHedged (s : State) (c : Nat) : Bool := !(crlHost c) && getF s (fSLC_BANKHEDGE_HEDGED (c / 8)) != 0

/-- A creel writes its next message; a host creel raises its vector after the entry (R578). -/
def execCreelDelivery (c : Nat) (s : State) : Host.Outcome State Fault Refusal :=
  whenOn s (
    let x := getCreel s c
    if 576 ≤ c ∨ stageReady s c x.stage = false ∨ crlHedged s c = true then s
    else match stageNext (ordered s) x.stage with
      | none => s
      | some m =>
        let s := modCreel s c (fun x => { x with stage := x.stage.filter (fun y => y.order != m.order) })
        let s := writeEntry s c m
        let s := if crlHost c && isSet s (fHCRLCFG_IRQEN (c - 512)) then raiseVec s (getF s (fHCRLCFG_VEC (c - 512))) else s
        progress (msgDone s m.bytes.length m.back))

/-! ### Grants (R425, R426) -/

/-- Grant `g` bytes of a creel: to a sender of this module by a token, to a peer by a reply (R535, R546). -/
def giveGrant (s : State) (c g : Nat) (r : GrantReq) : State :=
  let s := modCreel (poolSub s c g) c (fun x => { x with out := x.out + g })
  match r.dest with
  | .own w => sendToken s (plotOf w) (.grant w r.tag g)
  | .peer p ref =>
    let s := modCreel s c (fun x => { x with peers := amSet (fun _ => 0) x.peers p (amGet (fun _ => 0) x.peers p + g) })
    sendReply s p ref 0x0A 0 2 8 (leBytes 4 g ++ leBytes 2 r.tag ++ leBytes 2 0)

/-- A creel serves its first waiting request, if its pool covers it. -/
def execCreditGrant (c : Nat) (s : State) : Host.Outcome State Fault Refusal :=
  whenOn s (
    let x := getCreel s c
    if 576 ≤ c ∨ isSet s (crlEN c) = false ∨ crlHedged s c = true then s
    else match x.requests with
      | [] => s
      | r :: rs =>
        match grantFor (getF s (crlPOOL c)) r with
        | none => s
        | some g =>
          let s := setCreel s c { x with requests := rs }
          giveGrant (setF s (crlWAITREQ c) rs.length) c g r)

/-! ### Host consumption (R587) -/

def consumeN (c : Nat) : Nat → State → State
  | 0, s => s
  | n + 1, s => consumeN c n (consumeHead s c)

/-- How many entries a write of HEAD passes, if it names a boundary: a later entry, or TAIL. -/
def headPasses (s : State) (c v : Nat) : Option Nat :=
  let x := getCreel s c
  match (x.entries.drop 1).findIdx? (fun e => e.off == v) with
  | some j => some (j + 1)
  | none => if v = getF s (crlTAIL c) ∧ (x.entries.isEmpty ∨ v ≠ getF s (crlHEAD c)) then some x.entries.length else none

def writeHostHead (s : State) (k v : Nat) : State :=
  match headPasses s (512 + k) v with
  | some n => consumeN (512 + k) n s
  | none =>
    let s := bump (setF s (fHCRLSTAT_HEADERR k) 1) (fHCRLSTAT_HEADCNT k) 1
    logEvent s 0x12 4 0 [rHCRLPTR k, 0, 0, 0]

def execHostCreelHeadWrite (k : Fin 64) (v : BitVec 20) (s : State) : Host.Outcome State Fault Refusal :=
  whenServed s (writeHostHead s k.val v.toNat)

/-! ### A creel of a core whose bank is hedged (R593) -/

/-- Every sender's account of a creel moves to its new tag, empty, for unspent grants are void. -/
def moveAccounts (s : State) (old new : Nat) : State :=
  let f := fun (l : List Account) => l.map (fun a => if a.tag == old then { a with tag := new, bytes := 0 } else a)
  let s := forEach (List.range 16) (fun s k =>
    let t := getStr s k
    if t.accounts.isEmpty then s else setStr s k { t with accounts := f t.accounts }) s
  forEach (List.range 64) (fun s m =>
    let c := getCore s m
    if c.accounts.isEmpty then s else setCore s m { c with accounts := f c.accounts }) s

/-- The reset of one creel: entries discarded, HEAD and TAIL at 0, GEN one higher, unspent grants void; a message at its
input stage is one under the old tag (R433), and requests wait under the new one. -/
def resetCreel (s : State) (c : Nat) : State :=
  let x := getCreel s c
  let old := crlTag s c
  let s := setF s (crlGEN c) (getF s (crlGEN c) + 1)
  let s := forEach x.stage (fun s m => msgDone (crlStale s old) m.bytes.length m.back) s
  let s := setCreel s c { x with
    entries := [], out := 0, stage := [], peers := [], requests := x.requests.map (fun r => { r with tag := crlTag s c }) }
  let s := setF (setF (setF (setF s (crlHEAD c) 0) (crlTAIL c) 0) (crlMSGS c) 0) (crlOCC c) 0
  let s := moveAccounts (setF s (crlPOOL c) (crlS s c)) old (crlTag s c)
  logEvent s 0x0D 3 0 [c, x.entries.length, 0, 0]

def resetCreels (s : State) (m : Nat) : State :=
  forEach (rangeFrom (8 * m) 8) (fun s c => if isSet s (crlEN c) then resetCreel s c else s) s

/-! ### The Belvedere (R435 to R438) -/

def strRuns (t : Stream) : Bool := t.st != .idle

/-- What a stream waits for, as STRSTAT.WAITK codes the waits that block (R435). -/
def blockedOn (t : Stream) : Nat :=
  if t.st ≠ .waiting then 0
  else match t.wait with
    | .words _ _ _ _ => 1
    | .credit _ _ _ => 2
    | .reply _ _ _ _ => 4
    | _ => 0

/-- The macro-op code of a snapshot entry. -/
def snapOp (s : State) (k : Nat) (t : Stream) : Nat :=
  let kindAt := fun (kd : TakeKind) => match kd with
    | .fwait => 1
    | .ftake => 2
    | _ => 3
  match t.wait with
  | .credit _ _ _ => 4
  | .words _ _ _ _ => ((s.waiters.find? (fun w => match w.agent with
      | .local_ j _ => j == k
      | _ => false)).map (fun w => kindAt w.kind)).getD 0
  | .reply op _ _ _ => match (findOp s op).bind (fun d => d.shares.head?) with
    | some x => match x.op with
      | .fe _ (.take kd _) => kindAt kd
      | _ => 0
    | none => 0
  | _ => 0

/-- The word that a stream waits at: for a local wait the first word that has not answered. -/
def snapWord (s : State) (k : Nat) (t : Stream) : Nat :=
  match t.wait with
  | .words _ _ _ _ => ((s.waiters.find? (fun w => match w.agent with
      | .local_ j _ => j == k
      | _ => false)).map (fun w => w.word)).getD 0
  | .reply op _ _ _ => match (findOp s op).bind (fun d => d.shares.head?) with
    | some x => match x.op with
      | .fe a _ => a
      | _ => 0
    | none => 0
  | .credit _ _ (.csend _ _ o) => areg t o.ar.val
  | _ => 0

/-- One 64-byte stream entry of a snapshot (R437). -/
def snapEntry (s : State) (k : Nat) : List Byte :=
  let t := getStr s k
  let w := snapWord s k t
  let b := blockedOn t
  let word := b == 1 || (b == 4 && spaceOf w == 0)
  let m := metaOf s w
  let cr := match t.wait with
    | .credit c cost _ => some (c, cost)
    | _ => none
  let c := (cr.map Prod.fst).getD 576
  let own := cr.isSome && decide (c < 576)
  let data := match cr with
    | some (c, cost) =>
      let tag := if c < 576 then crlTag s c else 0
      tag + (cost - accountOf t.accounts (if c < 576 then tag else 65536 + w)) % 2 ^ 32 * 65536
    | none => if word then wordVal s w else 0
  let head := (getCreel s c).entries.head?
  leBytes 1 k ++ leBytes 1 b ++ leBytes 2 t.task ++ leBytes 4 t.pc ++ leBytes 2 t.bcnt ++ leBytes 1 (snapOp s k t) ++
  leBytes 1 (if !word then 0 else if m = .full then 1 else if m = .poisoned then 3 else 0) ++
  leBytes 4 (if word then (s.waiters.filter (fun x => x.word == w)).length else 0) ++
  leBytes 8 w ++ leBytes 8 data ++
  leBytes 4 (if own then getF s (crlOCC c) else 0) ++ leBytes 4 (if own then getF s (crlPOOL c) else 0) ++
  leBytes 4 (if own then (getCreel s c).requests.length else 0) ++
  leBytes 4 (if own then (head.map (fun e => e.seq)).getD 0xFFFFFFFF else 0) ++
  leBytes 2 (if own then (head.map (fun e => e.srcid)).getD 0 else 0) ++ leBytes 14 0

def streamsOf (s : State) (ctx : Nat) : List Nat :=
  (List.range 16).filter (fun k => strRuns (getStr s k) && (getStr s k).ctx == ctx)

/-- A declaration in context `c`: the snapshot, then the vector (R437).  The snapshot takes 1,088 bytes; what stands after the entries
of the running streams is not given, and free. -/
def declare (s : State) (c : Nat) : State :=
  let n := amGet (fun _ => 0) s.belvCount c + 1
  let s := { s with belvCount := amSet (fun _ => 0) s.belvCount c n, belvArmed := amSet (fun _ => true) s.belvArmed c false }
  let ks := streamsOf s c
  let a := getF s (fBELVCTX_ADDR c) * 64
  let body := leBytes 1 1 ++ leBytes 1 c ++ leBytes 1 ks.length ++ leBytes 1 (if ordered s then 1 else 0) ++
    leBytes 4 n ++ leBytes 8 (tick s) ++ leBytes 48 0 ++ ks.flatMap (snapEntry s)
  let r := drawBytes (1088 - body.length) s
  let s := if a = 0 then s else toHost r.1 (some c) a (body ++ r.2)
  let s := bump s fBELVCNT_DECL 1
  irqSource (logPut s { LogEntry.blank with kind := 0x0E, ctx := c, data := [a, 0, 0, 0] }) 0

/-- The context of the handler that a core runs, which goes on into the next interval (R436). -/
def stillRuns (s : State) (c : Core) : List Nat :=
  match c.handler with
  | some h => [getF s (crlCTX h.creel)]
  | none => []

/-- What one sample does while BELVCTL.EN is 1. -/
def belvedere (s : State) : State :=
  let s := forEach (List.range 16) (fun s k =>
    let t := getStr s k
    if !strRuns t then s
    else setStr s k { t with bcnt := if t.issued || blockedOn t == 0 then 0 else min (t.bcnt + 1) 65535 }) s
  let th := max 1 (getF s fBELVCTL_THRESH)
  let s := forEach (List.range 16) (fun s c =>
    let ks := streamsOf s c
    let idle := !((taskList s).any (fun p => p.2.ctx == c && taskReady p.2)) &&
      !((List.range 64).any (fun m => (getCore s m).handled.contains c))
    let s := if isSet s (fBELVCTX_EN c) && !ks.isEmpty && ks.all (fun k => decide (th ≤ (getStr s k).bcnt)) && idle &&
        amGet (fun _ => true) s.belvArmed c then declare s c else s
    if ks.any (fun k => (getStr s k).issued) || s.belvIssued.contains c then { s with belvArmed := amSet (fun _ => true) s.belvArmed c true } else s) s
  let s := forEach (List.range 16) (fun s k =>
    let t := getStr s k
    if t.issued then setStr s k { t with issued := false } else s) { s with belvIssued := [] }
  forEach (List.range 64) (fun (s : State) m =>
    let c := getCore s m
    if c.handled.isEmpty then s else setCore s m { c with handled := stillRuns s c }) s

/-- One sample, every BELVCTL.SAMPLE µs (R435, R436, R642). -/
def execBelvedereSample (s : State) : Host.Outcome State Fault Refusal :=
  whenOn s (
    if isSet s fERRSTAT_FATAL then s
    else if !(isSet s fBELVCTL_EN) then
      forEach (List.range 16) (fun s k => if (getStr s k).bcnt = 0 then s else modStr s k (fun t => { t with bcnt := 0 })) s
    else every evSample (100 * max 1 (getF s fBELVCTL_SAMPLE)) belvedere s)

end Sys2Proof.Machine
end

