-- ==== Sys2Proof/Machine/Hedge.lean ====
section
/-! DEFINITION. Hedges (spec/15 R588 to R596): the classes and their resources, containment, what a hedge does to tasks and to
the resource, and a return to service. -/

namespace Sys2Proof.Machine

open Sys2Proof

/-! ### Classes and resources (R588) -/

/-- The bits of RES that a class uses, row and lane fields included. -/
def resBits : Nat → Nat
  | 1 => 16
  | 2 => 3
  | 3 => 29
  | 4 => 6
  | 5 => 11
  | 6 => 5
  | 7 => 8
  | 8 => 3
  | 9 => 13
  | 10 => 6
  | 11 => 4
  | 12 => 4
  | 13 => 15
  | _ => 0

/-- The resource of a RES, without the fields that name a row (R600). -/
def hedgeKey (cls res : Nat) : Nat :=
  match cls with
  | 1 => res % 64
  | 3 => res % 1024
  | c => res % 2 ^ resBits c

/-- The RES of a resource, with the fields that name a row at their neutral values (R600). -/
def keyRes (cls key : Nat) : Nat :=
  match cls with
  | 1 => key + 0xFF00
  | 3 => key + 0x1FFF0000
  | _ => key

/-- The row that a RES names, if it names one. -/
def resRow (cls res : Nat) : Option Nat :=
  match cls with
  | 1 => if bitsOf res 15 8 = 0xFF then none else some (bitsOf res 15 8)
  | 3 => if bitsOf res 28 16 = 0x1FFF then none else some (bitsOf res 28 16)
  | _ => none

/-- Whether a RES names a resource that exists. -/
def resExists (cls res : Nat) : Bool :=
  decide (1 ≤ cls) && decide (cls ≤ 13) && decide (res < 2 ^ resBits cls) &&
  (match cls with
   | 1 => bitsOf res 7 6 == 0 && (match resRow 1 res with
     | some r => decide (r < 130)
     | none => true)
   | 3 => bitsOf res 15 10 == 0 && (match resRow 3 res with
     | some r => decide (r < 6144)
     | none => true)
   | 9 => bitsOf res 7 3 == 0 && (decide (bitsOf res 12 8 < 18) || bitsOf res 12 8 == 0x1F)
   | 11 => decide (res < 10)
   | 13 => decide (bitsOf res 13 5 < 264)
   | _ => true)

def hedgedAt (s : State) (cls key : Nat) : Bool := (hedgeOf s cls key).isSome

/-- The lantern of bay `p` as a resource, whatever laser its hedge names. -/
def lanternKeys (p : Nat) : List (Nat × Nat) := (List.range 32).map (fun l => (9, p + 256 * l))

/-- The resources that contain one (R589). -/
def containers (cls key : Nat) : List (Nat × Nat) :=
  match cls with
  | 1 => [(2, key / 8), (11, key / 8)]
  | 2 => [(11, key)]
  | 3 => [(4, key / 16)]
  | 5 => [(6, key / 64)]
  | 7 => (8, key % 8) :: lanternKeys (key % 8)
  | 8 => lanternKeys key
  | _ => []

def inside (cls key : Nat) (h : Hedge) : Bool := (containers h.cls h.res).contains (cls, key)

/-- Whether the lantern of bay `p` is hedged, with whatever laser. -/
def lanternHedged (s : State) (p : Nat) : Bool := s.hedges.any (fun h => h.cls == 9 && h.res % 8 == p)

/-- Whether core `m` is hedged or treated as hedged (R592). -/
def coreTreated (s : State) (m : Nat) : Bool :=
  s.hedges.any (fun h => (h.cls == 1 && h.res == m) || (h.cls == 3 && h.res / 16 == m) || (h.cls == 4 && h.res == m))

/-- The register bits that show the hedges of a class on a resource. -/
def showHedge (s : State) (cls key : Nat) : State :=
  let on := hedgedAt s cls key
  match cls with
  | 1 => setBit s fHEDGECORE_MAP key (coreTreated s key)
  | 2 => setBit s fHEDGEMISC_PAV key (on || hedgedAt s 11 key)
  | 3 | 4 =>
    let sl := if cls = 3 then key / 16 else key
    let whole := hedgedAt s 4 sl
    let s := (List.range 16).foldl (fun s b => setBit s (fSLC_BANKHEDGE_HEDGED sl) b (whole || hedgedAt s 3 (16 * sl + b))) s
    setBit (setBit s fORG_ORGHEDGE_HEDGED sl whole) fHEDGECORE_MAP sl (coreTreated s sl)
  | 5 => setBit s (fSTK_PCHEDGE_HEDGED (key / 64)) (key % 64) on
  | 6 =>
    let s := setF (setBit s fSLA_HEDGED_MAP key on) (fSTK_STAT_HEDGED key) (if on then 1 else 0)
    if on then setF s (fSTK_STAT_TRAIN key) 0 else s
  | 7 =>
    let p := key % 8
    let l := bitsOf key 6 3
    setBit s (fLANEMAP_HEDGED p) l (s.hedges.any (fun h => h.cls == 7 && h.res % 128 == key % 128))
  | 8 => setBit s fHEDGEMISC_PORT key (on || lanternHedged s key)
  | 9 =>
    let p := key % 8
    let lit := lanternHedged s p
    setBit (setBit s fHEDGEMISC_LANTERN p lit) fHEDGEMISC_PORT p (lit || hedgedAt s 8 p)
  | 10 => setBit s fHEDGEDMA_MAP key on
  | 11 =>
    let s := setBit s fHEDGEMISC_PLOT key on
    let s := setF s (fGENMON_HEDGED key) (if on then 1 else 0)
    if key < 8 then setBit s fHEDGEMISC_PAV key (on || hedgedAt s 2 key) else s
  | 12 => setBit s fHEDGEMISC_CTX key on
  | _ => s

/-! ### Tasks that a hedge ends (R591) -/

/-- The task running on stream `k` ends as hedged (R395). -/
def hedgeStream (cls : Nat) (s : State) (k : Nat) : State :=
  let t := getStr s k
  if t.st = .idle ∨ t.ended ≠ none then s else stopStream k (endHedged cls) s

/-- What a saved stream holds is discarded: its messages, whose credit returns, and an access that still waits at a peer (R207, R428). -/
def dropSaved (s : State) (t : Stream) : State :=
  forEach t.commit (fun s e => match e with
    | .msg _ tag _ _ bytes => creditReturn s tag (bytes.length + 32)
    | _ => s) (dropParked s t)

/-- A pre-empted task ends as hedged, and frees its save slot; it is tried again where R396 allows (R393). -/
def hedgePreempted (cls : Nat) (s : State) (i : Nat) : State :=
  match getTask s i with
  | none => s
  | some t =>
    match t.st, t.saved with
    | .preempted k _, some sv =>
      let s := { s with slots := s.slots.filter (fun u => u.task != i) }
      let s := dropSaved s sv.stream
      if mayRetry s t sv.stream.released then
        logPut (setTask s i (some { t with st := .retrying k, retried := true, saved := none })) { LogEntry.blank with
          kind := 0x0B, cause := 5, ctx := t.ctx, stream := k, task := t.id, data := [t.q, 6, cls, 0] }
      else endTask (poisonOuts s t) i 6 (cls + (if sv.stream.released then 2 ^ 63 else 0))
    | _, _ => s

/-- End the running and pre-empted tasks whose stream state meets `on`. -/
def hedgeTasks (cls : Nat) (on : Stream → Nat → Bool) (s : State) : State :=
  let s := forEach ((List.range 16).filter (fun k => on (getStr s k) k)) (hedgeStream cls) s
  forEach ((taskList s).filter (fun p => match p.2.saved, p.2.st with
    | some sv, .preempted k _ => on sv.stream k
    | _, _ => false)) (fun s p => hedgePreempted cls s p.1) s

/-- The handler unit of a hedged core ends the running handler (R152). -/
def hedgeCore (cls m : Nat) (s : State) : State := cutHandler (hedgeTasks cls (fun t _ => t.cores.contains m) s) m

/-- A pavilion or its plot is hedged, so that none of its cores is usable (R589): its tasks end, and with them the running handlers of
its cores, as R152 has it for a core's own hedge (assumption 108). -/
def hedgePavilion (cls n : Nat) (s : State) : State :=
  forEach (coresOfPav n) cutHandler (hedgeTasks cls (fun _ k => k / 2 == n) s)

/-- The words of a bank: waiters wake with a poison fault, and readiness words there are found poisoned (R413). -/
def wakeBank (hit : Nat → Bool) (s : State) : State :=
  let s := forEach (s.waiters.filter (fun w => hit w.word)) (fun s x => answer (dropWaiter s x) x.agent (.cause 0x0A)) s
  forEach ((watchers s).filter (fun p => hit p.2.body.ready && (watchedWords s).contains p.2.body.ready)) (fun s p =>
    setTask s p.1 (some { p.2 with word := 2 })) s

/-- A queue of a hedged context stops in the error state with CAUSE 0x06, and its creels are closed (R596). -/
def hedgeContext (c : Nat) (s : State) : State :=
  let s := forEach ((List.range 16).filter (fun k => (getStr s k).ctx == c && (getStr s k).st != .idle))
    (fun s k => hedgeStream 12 (modStr s k (fun t => { t with released := true })) k) s
  let s := forEach ((taskList s).filter (fun p => p.2.ctx == c)) (fun s p =>
    match p.2.saved with
    | some sv => hedgePreempted 12 (setTask s p.1 (some { p.2 with saved := some { sv with stream := { sv.stream with released := true } } })) p.1
    | none => s) s
  let s := forEach (List.range 8) (fun s q =>
    if qState s c q = qDisabled then s else stopQueue s c q qError 6) s
  let s := forEach (List.range 576) (fun s k => if isSet s (crlEN k) && getF s (crlCTX k) == c then closeCreel s k else s) s
  logPut s { LogEntry.blank with kind := 0x0B, cause := 7, rclass := 12, res := c, ctx := c, flags := 1, data := [0, 6, 0, 0] }

/-- Nothing waits for channel `ch` any longer: at a word, at a sub-bank, at a page, or for credit of a peer. -/
def dropChanWaits (s : State) (ch : Nat) : State :=
  forEach (List.range 8) (fun s p => if (getPort s p).txns.isEmpty then s else modPort s p (fun x => { x with
      txns := x.txns.filterMap (fun t => match t.who with
        | .dma c _ =>
          if c ≠ ch ∨ t.todo.isEmpty = true then some t
          else if t.left ≤ t.todo.length then none
          else some { t with todo := [], left := t.left - t.todo.length }
        | _ => some t) }))
    { s with
      waiters := s.waiters.filter (fun w => w.agent != .dma ch),
      bankq := s.bankq.filter (fun b => b.dest != .dma ch),
      faults := s.faults.map (fun f => { f with by_ := f.by_.filter (fun b => b != .dma ch) }) }

/-- A channel ends its descriptor CANCELLED, and its chain; one that has no descriptor yet ends its chain (R605). -/
def hedgeChan (ch : Nat) (s : State) : State :=
  modChan (dropChanWaits s ch) ch (fun c => match c.st, c.desc with
    | .idle, _ => c
    | .fetching, _ => { c with stop := true }
    | _, none => { c with st := .fetching, stop := true }
    | _, some _ => { c with st := .ending, status := 7, stop := true })

/-- A lane leaves the stripe (R531, R532): LHEDGE, and LANEOFF where the port runs. -/
def hedgeLane (key : Nat) (s : State) : State :=
  let p := key % 8
  let l := bitsOf key 6 3
  let s := bump (setF s (fLNKEVT_LHEDGE p) 1) (fLNKEVT_LHCNT p) 1
  let s := logLink s p 1 7 key 1
  if portUp s p && laneOn s p l then sendLane s p l false else setLane p s l false

/-! ### Lanterns at a hedge (R549, R588) -/

def getLan (s : State) (p : Nat) : Lantern := amGet (fun _ => Lantern.reset) s.lanterns p
def setLan (s : State) (p : Nat) (x : Lantern) : State := { s with lanterns := amSet (fun _ => Lantern.reset) s.lanterns p x }
def modLan (s : State) (p : Nat) (f : Lantern → Lantern) : State := setLan s p (f (getLan s p))

/-- Every laser of bay `p` is off; a lantern that was warming or ready is in the state off. -/
def lasersOff (s : State) (p : Nat) : State :=
  let s := forEach (List.range 18) (fun s k => setF (setF s (fLASER_BIAS p k) 0) (fLASER_POWER p k) 0) s
  if getF s (fLANSTAT_STATE p) = 3 ∨ getF s (fLANSTAT_STATE p) = 4 then setF s (fLANSTAT_STATE p) 5 else s

/-- The conditions of R549 under which an accepted lantern emits. -/
def mayEmit (s : State) (p : Nat) : Bool :=
  isSet s (fLANSTAT_PRESENT p) && isSet s (fLANSTAT_INTLK p) && isSet s (fLANCTL_EN p) && !(isSet s (fLANCTL_FORCEOFF p)) &&
  !(getLan s p).supplyOff

/-! ### Readiness (R615) -/

/-- A bit of READY is set, once; for a port, the first time that it reaches ACTIVE. -/
def readyBits : Fld := ⟨rLODGE_READY, 63, 0⟩
def markReady (s : State) (b : Nat) : State :=
  if getBit s readyBits b then s
  else irqSource { setBit s readyBits b true with console := s.console ++ [.ready b (tick s)] } 6

/-- The Orangery is ready once every unhedged slice is. -/
def orgReadyCheck (s : State) : State :=
  if (List.range 64).all (fun i => getBit s fORG_ORGREADY_READY i || hedgedAt s 4 i) && (List.range 64).any (getBit s fORG_ORGREADY_READY) then
    markReady s 4
  else s

/-- What a hedge does besides its registers (R588, R590 to R596). -/
def hedgeEffect (s : State) (cls key : Nat) : State :=
  match cls with
  | 1 => hedgeCore 1 key s
  | 2 => hedgePavilion 2 key s
  | 3 =>
    let m := key / 16
    let s := hedgeCore 3 m s
    resetCreels (wakeBank (fun w => orgSlice w == m && bankOf w == key % 16) s) m
  | 4 => orgReadyCheck (resetCreels (wakeBank (fun w => orgSlice w == key) (hedgeCore 4 key s)) key)
  | 7 => hedgeLane key s
  | 8 => logLink (portDown s key 7) key 2 8 key 1
  | 9 => portDown (lasersOff s (key % 8)) (key % 8) 7
  | 10 => hedgeChan key s
  | 11 => if key < 8 then hedgePavilion 11 key s else fatal s (if key = 8 then 1 else 2)
  | 12 => hedgeContext key s
  | _ => s

/-- Probes in progress, as ERRSTAT shows them. -/
def showProbing (s : State) : State := setF s fERRSTAT_PROBING (s.hedges.filter (fun h => h.probing)).length

def putHedge (s : State) (h : Hedge) : State :=
  { s with hedges := s.hedges.map (fun g => if g.cls == h.cls && g.res == h.res then h else g) }

/-- The log entry of a probe (R611): result, duration in µs, transients in the window, rows found. -/
def logProbe (s : State) (h : Hedge) (result us n rows flags : Nat) : State :=
  logPut s { LogEntry.blank with
    kind := 0x15, cause := result, rclass := h.cls, res := keyRes h.cls h.res, flags := flags, data := [us, n, rows, 0] }

/-- The probes of resources inside a container that is now hedged are abandoned (R601). -/
def abandonProbes (s : State) (cls key : Nat) : State :=
  let hs := s.hedges.filter (fun h => h.probing && inside cls key h)
  let s := forEach hs (fun s h => logProbe (putHedge s { h with probing := false }) h 4 ((tick s - h.since) / 100) 0 0 0) s
  showProbing s

/-- How a row of a resource is numbered among those of its container: a core's in its pavilion, a bank's in its slice, a
pseudo-channel's in its stack. -/
def partRow (cls key r : Nat) : Nat :=
  match cls with
  | 1 => 256 * (key % 8) + r
  | 3 => 8192 * (key % 16) + r
  | 5 => 2 ^ 20 * (key % 64) + r
  | _ => r

/-- Rows join those of a hedge. -/
def joinRows (s : State) (h : Hedge) (rows : List Nat) : State :=
  putHedge s { h with rows := h.rows ++ rows.filter (fun r => !h.rows.contains r) }

/-- The hedge that an error on a resource joins, and the number there of a row of the resource (R601): its own hedge, or that of
its container. -/
def joined (s : State) (cls key : Nat) : Option (Hedge × (Nat → Nat)) :=
  match hedgeOf s cls key with
  | some h => some (h, id)
  | none => ((containers cls key).findSome? (fun c => hedgeOf s c.1 c.2)).map (fun h => (h, partRow cls key))

/-- The entry of an error that joins a hedge and that the Lodge itself finds, of a lane or a port (R601): the other errors are logged
where they are found. -/
def logJoin (s : State) (cls key : Nat) : State :=
  match cls with
  | 7 => logLink s (key % 8) 1 7 key 0
  | 8 => logLink s key 2 8 key 0
  | _ => s

/-- Begin a hedge of one resource (R590, R601): an error on a resource that is already hedged, or inside a hedged container,
joins its probe. -/
def hedgeOne (s : State) (cls res : Nat) (hold : Bool) (cmd : Nat) : State :=
  let key := hedgeKey cls res
  let rows := (resRow cls res).toList
  let s := { s with lodge := { s.lodge with reported := s.lodge.reported.filter (fun x => x != (cls, key)) } }
  match hedgeOf s cls key with
  | some h => joinRows (if cmd = 0 then logJoin s cls key else s) (if cmd = 0 then h else { h with cmd := cmd }) rows
  | none =>
    match if cmd = 0 then joined s cls key else none with
    | some x => joinRows (logJoin s cls key) x.1 (rows.map x.2)
    | none =>
      let s := { s with hedges := s.hedges ++ [⟨cls, key, false, false, hold, tick s, rows, cmd, tick s⟩] }
      let s := bump (setF s fERRSTAT_HEDGE 1) fERRSTAT_HEDGECNT 1
      let s := bump s (fHEDGECNT_HEDGES cls) 1
      abandonProbes (hedgeEffect (showHedge s cls key) cls key) cls key

/-- A hedge by an error (R595): held without a probe while PROBECFG.AUTO is 0 (R612). -/
def applyOne (s : State) (cls res : Nat) : State := hedgeOne s cls res (!(isSet s fPROBECFG_AUTO)) 0

/-- An active port that is left with fewer than MINLANES lanes is hedged (R532): `few` counts the lanes that remain. -/
def fewLanes (few : State → Nat → Nat) (s : State) (p : Nat) : State :=
  if portState s p = 6 ∧ few s p < minLanes s p then applyOne s 8 p else s

/-- A hedge by an error, and that of a port that it leaves with too few lanes, for a hedged lane does not return by itself (R532). -/
def applyHedge (s : State) (cls res : Nat) : State :=
  let s := applyOne s cls res
  if cls = 7 then fewLanes lanesToStay s (res % 8) else s

/-- The Lodge's watch over the stripe of a port (R532). -/
def watchLanes (s : State) (p : Nat) : State := fewLanes activeLanes s p

/-! ### Returning (R594, R603) -/

/-- Every byte of a bank holds 0 and every word is EMPTY (R277). -/
def zeroBanks (s : State) (hit : Nat → Bool) : State :=
  { s with
    org := s.org.filter (fun c => !hit c.1),
    orgErr := s.orgErr.filter (fun c => !hit c.1),
    orgWb := s.orgWb.filter (fun a => !hit a),
    wordMeta := s.wordMeta.filter (fun c => !hit c.1),
    fullAt := s.fullAt.filter (fun c => !hit c.1) }

/-- A core in the state of R84 and R114. -/
def blankCore (s : State) (m : Nat) : State :=
  let s := setWmode (setPend (blankTables s m) m 0) m 0
  modCore s m (fun c => { c with tile := [], left := [], weights := Weights.zero })

/-- A core that is no longer treated as hedged is in the state of R84 and R114. -/
def coreReturns (s : State) (m : Nat) : State := if coreTreated s m then s else blankCore s m

/-- What the probe leaves behind (R598): a bank EMPTY and 0, and every core that returns in the state of R84 and R114: with its own
hedge, its bank's or its slice's (R592), its pavilion's or its plot's. -/
def cleanUp (s : State) (cls key : Nat) : State :=
  match cls with
  | 1 => coreReturns s key
  | 2 => forEach (coresOfPav key) coreReturns s
  | 3 => coreReturns (zeroBanks s (fun a => orgSlice a == key / 16 && bankOf a == key % 16)) (key / 16)
  | 4 => coreReturns (zeroBanks s (fun a => orgSlice a == key)) key
  | 11 => if key < 8 then forEach (coresOfPav key) coreReturns s else s
  | _ => s

/-- The resource returns to service. -/
def unhedge (s : State) (h : Hedge) : State :=
  let s := { s with hedges := s.hedges.filter (fun g => !(g.cls == h.cls && g.res == h.res)) }
  let s := showProbing (showHedge (cleanUp s h.cls h.res) h.cls h.res)
  match h.cls with
  | 7 =>
    let p := h.res % 8
    let l := bitsOf h.res 6 3
    if portUp s p && !(laneHedged s p l) then sendLane s p l true else s
  | 8 => if 1 ≤ portState s h.res ∧ portState s h.res ≤ 6 then s else train s h.res
  | 9 =>
    let p := h.res % 8
    if lanternHedged s p then s
    else
      let s := if getF s (fLANSTAT_STATE p) = 5 && mayEmit s p then setF s (fLANSTAT_STATE p) 3 else s
      if portState s p = 7 && !(hedgedAt s 8 p) then train s p else s
  | 11 => setF s (fGENMON_LOCK h.res) 1
  | _ => s

end Sys2Proof.Machine
end

