-- ==== Sys2Proof/Machine/Errors.lean ====
section
/-! DEFINITION. Errors at work (spec/15 R590 to R612): hedges, repairs of rows, the start of a probe, the host's hedge commands, and the error log
ring. -/

namespace Sys2Proof.Machine

open Sys2Proof

/-! ### The transient rule (R599, R600) -/

/-- Powered time in ticks (R600). -/
def powered (s : State) : Nat := s.lodge.powTicks + tick s

def probeWindow (s : State) : Nat := max 1 (getF s fPROBECFG_WINDOW) * 360000000000
def probeCount (s : State) : Nat :=
  let c := getF s fPROBECFG_COUNT
  if 2 ≤ c ∧ c ≤ 15 then c else 3

/-- Transients recorded for a resource within the window. -/
def transientsOf (s : State) (cls key : Nat) : Nat :=
  (s.transients.filter (fun t => t.cls == cls && t.res == key && decide (powered s - t.at_ < probeWindow s))).length

/-- The rows that the logged errors of those transients named (R599). -/
def transientRows (s : State) (cls key : Nat) : List Nat :=
  (s.transients.filter (fun t => t.cls == cls && t.res == key && decide (powered s - t.at_ < probeWindow s))).flatMap (fun t => t.rows)

/-! ### Repairs (R602) -/

/-- The repair map of a core: the physical rows named faulty. -/
def repairMap (s : State) (m : Nat) : List Nat :=
  (if isSet s (fARRREPAIR_V0 (m / 8) (m % 8)) then [getF s (fARRREPAIR_F0 (m / 8) (m % 8))] else []) ++
  (if isSet s (fARRREPAIR_V1 (m / 8) (m % 8)) then [getF s (fARRREPAIR_F1 (m / 8) (m % 8))] else [])

def setRepairMap (s : State) (m : Nat) (rows : List Nat) : State :=
  let n := m / 8
  let j := m % 8
  let sorted := sortBy (fun a b => decide (a ≤ b)) rows
  let s := setF (setF s (fARRREPAIR_V0 n j) (if rows.isEmpty then 0 else 1)) (fARRREPAIR_F0 n j) (sorted.getD 0 0)
  setF (setF s (fARRREPAIR_V1 n j) (if 2 ≤ rows.length then 1 else 0)) (fARRREPAIR_F1 n j) (sorted.getD 1 0)

/-- A spare goes into use: log kind 0x11. -/
def logSpare (s : State) (cause cls res what left : Nat) : State :=
  logPut s { LogEntry.blank with kind := 0x11, cause := cause, rclass := cls, res := res, data := [what, left, 0, 0] }

/-- Map out failing physical rows of core `m`: at most two in all (R90, R94). -/
def repairCore (s : State) (m : Nat) (rows : List Nat) : Option State :=
  let old := repairMap s m
  let new := rows.eraseDups.filter (fun r => !old.contains r)
  if rows.isEmpty ∨ 2 < (old ++ new).length then none
  else some (forEach new (fun s r => logSpare s 1 1 (m + 256 * r) r (2 - (old ++ new).length)) (setRepairMap s m (old ++ new)))

/-- Replace failing rows of bank `key` from its 16 spare rows. -/
def repairBank (s : State) (key : Nat) (rows : List Nat) : Option State :=
  let used := (s.lodge.bankSpares.filter (fun x => x.1 == key)).map Prod.snd
  let new := rows.eraseDups.filter (fun r => !used.contains r)
  let left := 16 - (used.length + new.length)
  if rows.isEmpty ∨ 16 < used.length + new.length then none
  else some (forEach new (fun s r => logSpare s 2 3 (key + 65536 * r) r left)
    { s with lodge := { s.lodge with bankSpares := s.lodge.bankSpares ++ new.map (fun r => (key, r)) } })

/-- Spare rows in use in one bank of a stack, and the registers that show them (R332). -/
def dramSpareUse (s : State) (pc bank : Nat) : Nat :=
  (s.lodge.dramSpares.filter (fun x => x.1 == pc && x.2 / 65536 == bank)).length

def showSpared (s : State) (k : Nat) : State :=
  let mine := s.lodge.dramSpares.filter (fun x => x.1 / 64 == k)
  let most := mine.foldl (fun m x => max m (dramSpareUse s x.1 (x.2 / 65536))) 0
  setF (setF s (fSTK_SPARED_ROWS k) mine.length) (fSTK_SPARED_LEFT k) (32 - most)

/-- Blocks that have been copied corrected are good. -/
def dropDramErr (s : State) (copied : Nat × Nat → Bool) : State := { s with dramErr := s.dramErr.filter (fun e => !copied e) }

/-- What the copying of rows of stack `k` to their spares counts: their 16 blocks of 64 B are read, and each block in error is found
(R330, R332, R338). -/
def countCopy (s : State) (k rows : Nat) (errs : List (Nat × Nat)) : State :=
  forEach errs (fun s e => if e.2 = 2 then noteDramUe s e.1 0 else bump s (fSTK_CECNT_COUNT k) 1) (bump s (fSTK_RDBYTES_COUNT k) (1024 * rows))

/-- Map spares in place of DRAM rows of pseudo-channel `pc` (64 × stack + number), their correctable blocks copied corrected;
a row is bank × 65,536 + row (R332).  A row that has a spare and is faulty again takes another. -/
def repairRows (s : State) (pc : Nat) (rows : List Nat) : Option State :=
  let new := rows.eraseDups
  if rows.isEmpty then none
  else
    let s' := { s with lodge := { s.lodge with dramSpares := s.lodge.dramSpares ++ new.map (fun r => (pc, r)) } }
    if new.any (fun r => decide (32 < dramSpareUse s' pc (r / 65536))) then none
    else
      let there := fun (e : Nat × Nat) => 64 * dpaStack e.1 + pcOf e.1 == pc && new.contains (bankOfDpa e.1 * 65536 + rowOfDpa e.1)
      let s' := countCopy s' (pc / 64) new.length (s'.dramErr.filter there)
      some (forEach new (fun s r => logSpare s 3 5 pc r (32 - dramSpareUse s pc (r / 65536)))
        (showSpared (dropDramErr s' (fun e => e.2 == 1 && there e)) (pc / 64)))

/-- Repair each of a container's parts: a row of part `i` is i × `size` + row. -/
def repairParts (size : Nat) (f : State → Nat → List Nat → Option State) (s : State) (rows : List Nat) : Option State :=
  if rows.isEmpty then none
  else (rows.map (fun r => r / size)).eraseDups.foldl
    (fun o i => o.bind (fun s => f s i ((rows.filter (fun r => r / size == i)).map (fun r => r % size)))) (some s)

/-- A lane of stack `k`'s die link, in the direction toward the store die where `up` is set, gives way to one of its eight spares,
and the link retrains (R292). -/
def spareLane (s : State) (k : Nat) (up : Bool) (lane : Nat) : Option State :=
  let f := if up then fSTK_LINKSTAT_SPUP k else fSTK_LINKSTAT_SPDN k
  let n := getF s f
  if 8 ≤ n then none
  else
    let s := setF (setF s f (n + 1)) (fSTK_STAT_LINKDEG k) 1
    let s := { s with lodge := { s.lodge with
      laneSpares := s.lodge.laneSpares ++ [(2 * k + (if up then 0 else 1), lane)],
      linkWait := if s.lodge.linkWait.contains k then s.lodge.linkWait else s.lodge.linkWait ++ [k] } }
    some (logSpare s 4 13 (k + 32 * lane + (if up then 0 else 16384)) lane (8 - (n + 1)))

/-- Repair of a stack (R602): the rows that a probe found are those of its pseudo-channels, row r of pseudo-channel i being
2^20 i + r, and from 2^26 on the lanes of its die link: lane l is 2^26 + l, and 2^26 + 512 + l toward the stack. -/
def repairStack (s : State) (k : Nat) (rows : List Nat) : Option State :=
  let lanes := rows.filter (fun r => decide (2 ^ 26 ≤ r))
  let s' := lanes.foldl (fun (o : Option State) r => o.bind (fun s => spareLane s k (!(bitOf r 9)) (r % 512))) (some s)
  let parts := rows.filter (fun r => decide (r < 2 ^ 26))
  if parts.isEmpty then s' else s'.bind (fun s => repairParts (2 ^ 20) (fun s i r => repairRows s (64 * k + i) r) s parts)

/-! ### Probes (R598, R599) -/

/-- Whether nothing that the hedge ends still uses the resource. -/
def quiescent (s : State) (cls key : Nat) : Bool :=
  let noStream := fun (f : Stream → Nat → Bool) => (List.range 16).all (fun k => (getStr s k).st == .idle || !(f (getStr s k) k))
  match cls with
  | 1 => noStream (fun t _ => t.cores.contains key)
  | 2 => noStream (fun _ k => k / 2 == key)
  | 3 => noStream (fun t _ => t.cores.contains (key / 16)) && s.bankq.all (fun b => !(b.slice == key / 16 && bankOf b.addr == key % 16))
  | 4 => noStream (fun t _ => t.cores.contains key) && s.bankq.all (fun b => !(b.slice == key))
  | 10 => (getChan s key).st == .idle
  | 5 => s.units.all (fun u => !(u.st == 1 && u.stack == key / 64))
  | 6 => s.units.all (fun u => !(u.st == 1 && u.stack == key))
  | 7 => !(laneOn s (key % 8) (bitsOf key 6 3))
  | 8 => (getPort s key).txns.isEmpty
  | 9 => (getPort s (key % 8)).txns.isEmpty
  | 11 => noStream (fun _ k => k / 2 == key)
  | _ => true

/-- The Lodge starts the probe of a hedged resource. -/
def startProbe (s : State) (h : Hedge) : State :=
  let s := showProbing (putHedge s { h with probing := true, held := false, since := tick s })
  if h.cls = 8 then fullRetrain s h.res else s

def canProbe (s : State) (h : Hedge) : Bool :=
  !h.probing && h.cls != 12 && quiescent s h.cls h.res && (containers h.cls h.res).all (fun c => !(hedgedAt s c.1 c.2))

def execProbe (cls res : Nat) (s : State) : Host.Outcome State Fault Refusal :=
  whenAwake s (match hedgeOf s cls (hedgeKey cls res) with
    | none => s
    | some h => if canProbe s h && !h.held && (!h.lasting || h.cmd != 0) then startProbe s h else s)

/-- A command of R612 that waited for a probe ends. -/
def endHedgeCmd (s : State) (action result cls res : Nat) : State :=
  if action = 0 then s
  else
    let s := setF (setF s fHEDGECMDST_BUSY 0) fHEDGECMDST_RESULT result
    logPut s { LogEntry.blank with kind := 0x17, cause := action, rclass := cls, res := res, data := [result, 0, 0, 0] }

/-- A resource returns to service without its probe: a command that waited for it has ended with it (R612). -/
def returnHedge (s : State) (h : Hedge) : State := endHedgeCmd (unhedge s h) h.cmd 1 h.cls (keyRes h.cls h.res)

/-! ### Hedges -/

/-- The cause that a PARITY entry gives for an error of a class, 0 for a class whose errors are logged where they are found
(R595, R611). -/
def parityCause : Nat → Nat
  | 1 => 1
  | 2 => 2
  | 6 => 3
  | 10 => 4
  | _ => 0

/-- The log entry of a parity error; the location in the unit is free (R611 kind 0x14). -/
def logParity (s : State) (cls res : Nat) (hedges : Bool) : State :=
  if parityCause cls = 0 then s
  else
    let r := drawBytes 8 s
    logPut r.1 { LogEntry.blank with
      kind := 0x14, cause := parityCause cls, rclass := cls, res := res, flags := if hedges then 1 else 0,
      data := [leVal r.2, 0, 0, 0] }

/-- An error of R595 hedges its resource; `rows` are the rows that the error names.  Class 0 stands for an uncorrectable error in the
Gatehouse's own tables, which hedges nothing and is module-fatal (R597 cause 3; assumption 109). -/
def execHedge (cls res : Nat) (rows : List Nat) (s : State) : Host.Outcome State Fault Refusal :=
  whenAwake s (if cls = 0 then fatal s 3 else if !(resExists cls res) || cls == 13 || isSet s fERRSTAT_FATAL then s
    else
      let was := hedgedAt s cls (hedgeKey cls res)
      let s := applyHedge s cls res
      let s := logParity s cls res (!was && hedgedAt s cls (hedgeKey cls res))
      progress (match joined s cls (hedgeKey cls res) with
        | some x => joinRows s x.1 (rows.map x.2)
        | none => s))

/-- Whether HEDGECMD accepts a class and a RES (R612). -/
def cmdNames (cls res : Nat) : Bool := resExists cls res && cls != 12 && cls != 13 && !(cls == 11 && decide (8 ≤ res))

/-- A command of R612: one written while BUSY is 1, or one that names nothing, is refused with RESULT 3. -/
def hedgeCmd (s : State) (action cls res : Nat) : State :=
  if action = 0 ∨ 3 < action then s
  else if isSet s fHEDGECMDST_BUSY then setF s fHEDGECMDST_RESULT 3
  else if !(cmdNames cls res) || (action == 3 && !(hedgedAt s cls (hedgeKey cls res))) then endHedgeCmd s action 3 cls res
  else
    let s := setF (setF s fHEDGECMDST_BUSY 1) fHEDGECMDST_RESULT 0
    let key := hedgeKey cls res
    match action with
    | 1 =>
      let s := hedgeOne s cls res false 1
      let s := match hedgeOf s cls key with
        | some h => putHedge s { h with held := false }
        | none => s
      if cls = 7 then fewLanes lanesToStay s (key % 8) else s
    | 2 =>
      let s := hedgeOne s cls res true 2
      let s := match hedgeOf s cls key with
        | some h =>
          let s := if h.probing then logProbe s h 4 ((tick s - h.since) / 100) 0 0 0 else s
          showProbing (putHedge s { h with held := true, probing := false, cmd := 0 })
        | none => s
      endHedgeCmd (if cls = 7 then fewLanes lanesToStay s (key % 8) else s) 2 2 cls res
    | _ =>
      match hedgeOf s cls key with
      | some h => putHedge s { h with held := false, cmd := 3 }
      | none => s

def execHedgeAndProbe (cls : Fin 16) (res : BitVec 32) (s : State) : Host.Outcome State Fault Refusal :=
  whenServed s (progress (hedgeCmd s 1 cls.val res.toNat))

def execHedgeAndHold (cls : Fin 16) (res : BitVec 32) (s : State) : Host.Outcome State Fault Refusal :=
  whenServed s (progress (hedgeCmd s 2 cls.val res.toNat))

def execProbeHedged (cls : Fin 16) (res : BitVec 32) (s : State) : Host.Outcome State Fault Refusal :=
  whenServed s (progress (hedgeCmd s 3 cls.val res.toNat))

/-! ### The error log ring (R608 to R610) -/

def ringBytes (e : LogEntry) (phase : Nat) : List Byte :=
  leBytes 1 e.kind ++ leBytes 1 e.cause ++ leBytes 1 e.rclass ++ leBytes 1 (e.flags % 16 + 128 * phase) ++ leBytes 4 e.res ++
  leBytes 8 e.tick ++ leBytes 1 e.ctx ++ leBytes 1 e.stream ++ leBytes 2 e.task ++ leBytes 4 e.pc ++ leBytes 8 e.addr ++
  (List.range 4).flatMap (fun i => leBytes 8 (e.data.getD i 0))

def logSize (s : State) : Nat := 2 ^ (min (getF s fLOGRING_SIZE) 10 + 6)

def execErrorLogEntryWrite (s : State) : Host.Outcome State Fault Refusal :=
  whenOn s (
    let t := getF s fLOGPTR_TAIL
    match s.logQ with
    | [] => s
    | e :: es =>
      if !(isSet s fLOGRING_EN) || decide (logSize s ≤ (t + 2 ^ 32 - getF s fLOGPTR_HEAD) % 2 ^ 32) then s
      else
        let a := getF s fLOGRING_ADDR * 64 + t % logSize s * 64
        let s := toHostEntry { s with logQ := es } none a (ringBytes e (1 - t / logSize s % 2))
        irqSource (setF s fLOGPTR_TAIL (t + 1)) 2)

/-- A write of LOGRING: setting EN puts both counts at 0. -/
def writeLogRing (s : State) (v : Nat) : State :=
  let was := isSet s fLOGRING_EN
  let s := match rowOf rLOGRING with
    | some r => regPut s rLOGRING (BitVec.ofNat 64 (regWritten r (regGet s rLOGRING).toNat v))
    | none => s
  if !was && isSet s fLOGRING_EN then setF (setF s fLOGPTR_TAIL 0) fLOGPTR_HEAD 0 else s

def execLogringEnable (v : BitVec 64) (s : State) : Host.Outcome State Fault Refusal :=
  whenServed s (writeLogRing s (putBits v.toNat 59 59 1))

end Sys2Proof.Machine
end

