-- ==== Sys2Proof/Machine/Packets.lean ====
section
/-! DEFINITION. Transactions that arrive at a port (spec/13 R534 to R544, spec/11 R477 to R479, spec/10 R408): the checks on
a request, its performance and its reply, reduce windows, and the replies to this module's own requests.  Each row takes
the packet at the head of its virtual channel, if it is of the row's type. -/

namespace Sys2Proof.Machine

open Sys2Proof

/-! ### The head of a virtual channel -/

def vcHead (s : State) (p vc : Nat) : Option RxPkt := (getPort s p).rxq.find? (fun r => vcOf r.pkt.hdr.ty == vc)

def dropFirst (vc : Nat) : List RxPkt → List RxPkt
  | [] => []
  | r :: rs => if vcOf r.pkt.hdr.ty = vc then rs else r :: dropFirst vc rs

/-- Hand a packet on: its receive buffer is free, and its credit is owed (R529). -/
def popVc (s : State) (p vc : Nat) (r : RxPkt) : State :=
  modPort s p (fun x => { x with rxq := dropFirst vc x.rxq, owed := listModify x.owed vc (fun n => n + r.flits) })

/-- Act on the packet at the head of the virtual channel of type `ty`; `f` answers none where it must wait. -/
def onPacket (p : Fin 8) (ty : Nat) (f : State → Pkt → Option State) (s : State) : State :=
  match vcHead s p.val (vcOf ty) with
  | none => s
  | some r =>
    if r.pkt.hdr.ty ≠ ty ∨ isSet s fERRSTAT_FATAL = true then s
    else match f (popVc s p.val (vcOf ty) r) r.pkt with
      | none => s
      | some s' => progress s'

/-! ### Checks (R477) -/

/-- The source key of an agent of the peer on port `p` (R408). -/
def peerKey (p src : Nat) : Nat :=
  match src / 64 with
  | 0 => 128 + 16 * p + src % 16
  | 1 => 512 + 64 * p + src % 64
  | _ => 1024 + 64 * p + src % 64

/-- A refused access: VIOL with its cause, counted and logged; a stale generation counts in STALE too (R477, R433). -/
def violate (s : State) (p : Nat) (h : Hdr) (cause : Nat) : State :=
  let w := h.wk
  let s := setF (bump (setF s (fWKSTAT_VIOL w) 1) (fWKSTAT_VIOLCNT w) 1) (fWKSTAT_CAUSE w) cause
  let s := logPut s { LogEntry.blank with
    kind := 0x08, cause := cause, ctx := getF s (fWKCTL_CTX w), data := [p, h.ctx, h.handle, 0] }
  if cause = 2 then
    logEvent (bump (setF s (fWKSTAT_STALE w) 1) (fWKSTAT_STALECNT w) 1) 0x09 3 0
      [h.handle, getF s (fWKCTL_GEN w) * 4096 + w, 0, 0]
  else s

/-- Checks 1 to 3. -/
def wicketOpenTo (s : State) (p : Nat) (h : Hdr) : Nat :=
  let w := h.wk
  if !(isSet s (fWKCTL_EN w)) then 1
  else if h.gen ≠ getF s (fWKCTL_GEN w) then 2
  else if !(getBit s (fWKPEER_PORTS w) p && getBit s (fWKPEER_PCTX w) h.ctx) then 3
  else 0

/-- The window's base as a device address, and an address in it. -/
def wkBase (s : State) (w : Nat) : Nat := getF s (fWKBASE_BASE w) * 4096
def wkSize (s : State) (w : Nat) : Nat := getF s (fWKSIZE_PAGES w) * 4096
def inWicket (s : State) (h : Hdr) (n : Nat) : Bool := decide (h.off + n ≤ wkSize s h.wk)

/-- Checks 1 to 5 for an access of `n` bytes that needs bit `perm` of PERM, and for which `ok` holds (cause 4). -/
def wicketCheck (s : State) (p : Nat) (h : Hdr) (perm n : Nat) (ok : Bool) : Nat :=
  let c := wicketOpenTo s p h
  if c ≠ 0 then c
  else if !(getBit s (fWKCTL_PERM h.wk) perm && ok) then 4
  else if !(inWicket s h n) then 5
  else 0

/-- Answer a request packet at once. -/
def reply (s : State) (p : Nat) (h : Hdr) (ty status sub len : Nat) (body : List Byte) : State :=
  sendPkt s p ⟨{ h with ty := ty, status := status, sub := sub, len := len }, body⟩

/-! ### Reduce windows (R540 to R543) -/

/-- Where a write lies: outside every enabled window of the port, wholly in one and aligned, or partly or misaligned. -/
inductive InWin where
  | out
  | win (j : Nat)
  | bad
deriving DecidableEq, Repr

def winBase (s : State) (p j : Nat) : Nat := getF s (fRWBASE_VALUE p j) * 8
def winLen (s : State) (p j : Nat) : Nat := getF s (fRWLEN_VALUE p j) * 8
def winCnt (s : State) (p j : Nat) : Nat := getF s (fRWCNT_VALUE p j) * 8

/-- The conditions under which a window may be enabled (R540). -/
def winOk (s : State) (p j : Nat) : Bool :=
  let w := getF s (fRWCTL_WKT p j)
  let b := winBase s p j
  let n := winLen s p j
  let c := winCnt s p j
  spaceOf (wkBase s w) == 0 && getBit s (fWKCTL_PERM w) 1 && getBit s (fWKCTL_PERM w) 2 &&
  decide (b + n ≤ wkSize s w) && decide (c + 8 ≤ wkSize s w) && decide (n ≤ 0x1800000) && !(overlaps b n c 8)

/-- Whether a window adds: EN is 1 and the conditions of R540 hold still. -/
def winOn (s : State) (p j : Nat) : Bool := isSet s (fRWCTL_EN p j) && winOk s p j

def inWindow (s : State) (p : Nat) (h : Hdr) : InWin :=
  match (List.range 4).find? (fun j => winOn s p j && getF s (fRWCTL_WKT p j) == h.wk &&
      overlaps (winBase s p j) (winLen s p j) h.off h.len) with
  | none => .out
  | some j =>
    if winBase s p j ≤ h.off ∧ h.off + h.len ≤ winBase s p j + winLen s p j ∧ h.off % 8 = 0 ∧ h.len % 8 = 0 then .win j
    else .bad

/-- Add one partial to the word at `a`: modulo 2^48, sign-extended (R541); the add to an uncorrectable word is dropped
(R275). -/
def addPartial (s : State) (a v : Nat) : State :=
  let s := noteWord s a 2
  if orgErrAt s a = 2 then s else setWord s a (truncN 64 (sext 48 ((wordVal s a % 2 ^ 48 + v % 2 ^ 48) % 2 ^ 48)))

/-- A collective step: every word is added, then the counter word takes the number of words (R541, R542).  Answers the
status of its acknowledgement: a hedged bank or an uncorrectable word fails the step, and the counter stays
(assumption 79). -/
def collect (s : State) (p j a : Nat) (body : List Byte) : State × Nat :=
  let n := body.length / 8
  let good := ((List.range n).filter (fun i => orgErrAt s (a + 8 * i) != 2)).length
  if orgHedged s a body.length then (s, 1) else
  let s := forEach (List.range n) (fun s i => addPartial s (a + 8 * i) (leVal ((body.drop (8 * i)).take 8))) s
  let s := bump s (fRWCTL_WORDS p j) good
  let c := wkBase s (getF s (fRWCTL_WKT p j)) + winCnt s p j
  let v := wordVal s c
  if good < n then (s, 1)
  else if seenMeta s c ≠ .poisoned ∧ orgErrAt s c = 2 then (noteWord s c 2, 1)
  else if seenMeta s c ≠ .poisoned ∧ cntCount v + n ≤ cntCap v then
    let s := noteWord s c 2
    (putWord s c (cntPut v (cntCount v + n)) (if cntCount v + n = 0 then .empty else .full), 0)
  else
    let s := setF (poisonWord s c) (fRWCTL_CFLT p j) 1
    (logPut s { LogEntry.blank with kind := 0x0D, cause := 2, addr := c, data := [c, 0, 0, 0] }, 3)

/-! ### Requests -/

/-- Whether the write can be made now, and where (R332, R337): none while it waits. -/
def wkLocate (s : State) (h : Hdr) (off : Nat) (write : Bool) : Option (State × Loc) :=
  let r := locate s (getF s (fWKCTL_CTX h.wk)) (wkBase s h.wk + off) write false
  match r.2 with
  | .dram d => if dramWaits s d then none else some r
  | .waits => none
  | .host _ => some (s, .bad 4)
  | .peer _ => some (s, .bad 4)
  | _ => some r

/-- Serve an access of a packet at its places, or let it wait for another access that goes first, or for a sub-bank (R256, R257, R313).
Accesses that arrive at a port come over the promenade. -/
def serveAt (s : State) (cls id : Nat) (places : List Nat) : Option State :=
  if outranked s cls 0 id places || places.any (fun p => decide (p < 8192) && !subFree s p) then none
  else some (forEach (places.filter (fun p => decide (p < 8192))) useSub s)

/-- The number of an access that no transfer of this module makes. -/
def peerId (p : Nat) : Nat := 2 ^ 40 + 2 * p + 1

/-- Serve `n` bytes at an offset of a wicket. -/
def serveWk (s : State) (p : Nat) (h : Hdr) (off n : Nat) (write : Bool) : Option State :=
  serveAt s h.cls (peerId p) (placesOf s (getF s (fWKCTL_CTX h.wk)) (wkBase s h.wk + off) n write)

/-- A wicket write (R477, R541 to R543): checked, performed, acknowledged. -/
def doWr (p : Nat) (s : State) (k : Pkt) : Option State :=
  let h := k.hdr
  let win := inWindow s p h
  let c := wicketCheck s p h 1 h.len (win != .bad)
  let cost := wrCost k
  let c := if c = 0 ∧ portGranted (getWk s h.wk) p < cost then 6 else c
  if c ≠ 0 then some (reply (violate s p h c) p h 0x04 3 0 1 [])
  else match serveWk s p h h.off h.len true with
  | none => none
  | some s =>
    let spend := fun (s : State) => setGranted s h.wk p (portGranted (getWk s h.wk) p - cost)
    match win with
    | .win j =>
      let r := collect (spend s) p j (wkBase s h.wk + h.off) k.body
      some (reply r.1 p h 0x04 r.2 0 1 [])
    | _ =>
      match wkLocate s h h.off true with
      | none => none
      | some (s', l) =>
        let r := match l with
          | .fault _ _ _ => (s', 4)
          | l => writeLoc s' (some (getF s (fWKCTL_CTX h.wk))) l k.body
        some (reply (spend r.1) p h 0x04 r.2 0 1 [])

def execWr (p : Fin 8) (s : State) : Host.Outcome State Fault Refusal := whenOn s (onPacket p 0x01 (doWr p.val) s)

/-- Read the cuts of a request in order; the first that fails ends the answer (R538).  LAST stands on the last packet of a read, and so
only in the answer to the last of its requests (R534, R536). -/
def readCuts (p : Nat) (h : Hdr) (stop : Nat) : List (Nat × Nat) → State → Option State
  | [], s => some s
  | (off, n) :: rest, s =>
    match (serveWk s p h off n false).bind (fun s => wkLocate s h off false) with
    | none => none
    | some (s', l) =>
      let r := match l with
        | .fault _ _ _ => (s', ([] : List Byte), 4)
        | l => readLoc s' (some (getF s (fWKCTL_CTX h.wk))) l n 0
      let bad := r.2.2 ≠ 0
      let last := (decide (off + n = stop) || decide bad) && bitOf h.attr 6
      let k : Pkt := ⟨{ h with
        ty := 0x03, status := r.2.2, sub := 0, len := n, off := off, attr := h.attr % 64 + (if last then 64 else 0) },
        if bad then List.replicate n 0#8 else r.2.1⟩
      let s := sendPkt r.1 p k
      if bad then some s else readCuts p h stop rest s

def doRdreq (p : Nat) (s : State) (k : Pkt) : Option State :=
  let h := k.hdr
  let c := wicketCheck s p h 0 h.len true
  let n := min h.len (256 - h.off % 256)
  if c ≠ 0 then some (reply (violate s p h c) p h 0x03 3 0 n (List.replicate n 0#8))
  else readCuts p h (h.off + h.len) (cutAt 256 18 h.off h.len) s

def execRdreq (p : Fin 8) (s : State) : Host.Outcome State Fault Refusal := whenOn s (onPacket p 0x02 (doRdreq p.val) s)

/-- The access of a full/empty request (R535). -/
def reqAcc (sub : Nat) (body : List Byte) : FeAcc :=
  let v := BitVec.ofNat 64 (leVal (body.take 8))
  let k := leVal ((body.drop 8).take 2)
  let fl := leVal ((body.drop 10).take 1)
  match sub with
  | 1 => .take .fwait (bitOf fl 0)
  | 2 => .take .ftake (bitOf fl 0)
  | 3 => .fill v
  | 4 => .empty v
  | 5 => .count k
  | _ => .take (.fcount k (bitOf fl 1)) (bitOf fl 0)

def doFereq (p : Nat) (s : State) (k : Pkt) : Option State :=
  let h := k.hdr
  let a := wkBase s h.wk + h.off
  let c := wicketCheck s p h 2 8 (spaceOf a == 0 && a % 8 == 0)
  if c ≠ 0 then some (reply (violate s p h c) p h 0x06 3 0 8 (leBytes 8 0))
  else
    let r := askRef s p h
    let key := peerKey p h.src
    some { r.1 with bankq := r.1.bankq ++ [⟨orgSlice a, bitsOf (orgOff a) 11 5, h.cls, 0, a, reqAcc h.sub k.body, .peer p key r.2, key⟩] }

def execFereq (p : Fin 8) (s : State) : Host.Outcome State Fault Refusal := whenOn s (onPacket p 0x05 (doFereq p.val) s)

/-- The core creel whose ring base lies at a wicket offset, if it lies there for the wicket's context (R419). -/
def creelAtWicket (s : State) (h : Hdr) : Option Nat :=
  crlAt s (getF s (fWKCTL_CTX h.wk)) (wkBase s h.wk + h.off)

/-- A creel message: into the input stage of the creel; without unspent credit of the port it is one under an old tag, which
is dropped and acknowledged (R433, R538). -/
def doCmsg (p : Nat) (s : State) (k : Pkt) : Option State :=
  let h := k.hdr
  let cr := creelAtWicket s h
  let c := wicketCheck s p h 3 h.len cr.isSome
  if c ≠ 0 then some (reply (violate s p h c) p h 0x08 3 0 0 [])
  else
    let c := cr.getD 0
    let cost := h.len + 32
    let have_ := amGet (fun _ => 0) (getCreel s c).peers p
    if have_ < cost then some (reply (crlStale s (crlTag s c)) p h 0x08 0 0 0 [])
    else
      let s := modCreel s c (fun x => { x with peers := amSet (fun _ => 0) x.peers p (have_ - cost) })
      let r := askRef s p h
      let m : StageMsg := ⟨peerKey p h.src, 0, 0, crlTag s c, 0, 2, p, 0, getF s (fWKCTL_CTX h.wk), k.body, .peer p r.2⟩
      some (stageMsg r.1 c m).1

def execCmsg (p : Fin 8) (s : State) : Host.Outcome State Fault Refusal := whenOn s (onPacket p 0x07 (doCmsg p.val) s)

/-- A grant request: it is queued at its wicket or creel (R426, R478). -/
def doGrantreq (p : Nat) (s : State) (k : Pkt) : Option State :=
  let h := k.hdr
  let n := leVal (k.body.take 4)
  if h.sub = 2 then
    let cr := creelAtWicket s h
    let c := wicketCheck s p h 3 1 cr.isSome
    if c ≠ 0 then some (reply (violate s p h c) p h 0x0A 3 2 8 (leBytes 8 0))
    else
      let c := cr.getD 0
      let r := askRef s p h
      some (requestGrant r.1 ⟨.peer p r.2, crlTag s c, n, max n (getF s (crlGRANTQ c) / 32 * 32)⟩)
  else
    let c := wicketOpenTo s p h
    if c ≠ 0 then some (reply (violate s p h c) p h 0x0A 3 1 8 (leBytes 8 0))
    else
      let r := askRef s p h
      let s := modWk r.1 h.wk (fun x => { x with requests := x.requests ++ [⟨.peer p r.2, 0, if 4096 < n then n else 256, n⟩] })
      some (serveWicket h.wk ((getWk s h.wk).requests.length + 1) s)

def execGrantreq (p : Fin 8) (s : State) : Host.Outcome State Fault Refusal := whenOn s (onPacket p 0x09 (doGrantreq p.val) s)

/-! ### Replies -/

/-- The bytes that a share delivers in all. -/
def shareBytes (s : State) (op core : Nat) : Nat :=
  match shareOf s op core with
  | some x => match x.op with
    | .sload t => t.rows * t.rb
    | .sstore t => t.rows * t.rb
    | .send _ _ _ m _ => m.length
    | _ => 8
  | none => 0

/-- A completion or an acknowledgement that arrives for a task whose ID's generation is not the current one is counted; its
operation is gone, so that it has no other effect (R372). -/
def noteLate (s : State) (t : Txn) : State :=
  match t.task with
  | some id => if amGet (fun _ => 0) s.gens (id % 4096) = id / 4096 then s else staleTask s id
  | none => s

/-- A transaction ends with a status. -/
def endTxn (s : State) (p : Nat) (t : Txn) (status : Nat) : State :=
  let s := noteLate (dropTxn s p t.tag) t
  match t.who with
  | .share op core => completeShare s op core status (if status = 0 then shareBytes s op core else t.bytes) 9
  | .dma ch did => chanAnswered s ch did status
  | _ => s

/-- The place that read data at offset `off` goes to. -/
def placeOf (t : Txn) (off : Nat) : Option Nat :=
  (t.pieces.find? (fun x => decide (x.off ≤ off) && decide (off < x.off + x.len))).map (fun x => x.dst + (off - x.off))

/-- The context under which a transaction writes its data. -/
def txnCtx (s : State) (t : Txn) : Nat :=
  match t.who with
  | .share op _ => ((findOp s op).map (fun d => d.ctx)).getD 0
  | .dma ch _ => getF s (fCHCTL_CTX ch)
  | _ => 0

/-- Where the source bytes of a channel's run stand for its checksum: read data of a peer is kept in traversal order. -/
def keepTail (s : State) (t : Txn) (bs : List Byte) : State :=
  match t.who with
  | .dma ch _ => modChan s ch (fun c => { c with tail := c.tail ++ bs })
  | _ => s

/-- What a packet of read data leaves of its transaction once its bytes are written: the next packet's turn, or the end. -/
def tookData (s : State) (p : Nat) (t : Txn) (body : List Byte) (n : Nat) : State :=
  let t' := { t with left := t.left - n, bytes := t.bytes + n }
  let s := keepTail (setTxn s p t') t body
  if t'.left = 0 then endTxn s p t' 0 else noteLate s t

/-- The class, the number and the checked state of the sender of a transaction, at this module's banks and stacks. -/
def txnCls (s : State) (t : Txn) (h : Hdr) : Nat × Nat :=
  match t.who with
  | .dma ch _ => (chanPoint s ch, 2 * ch + 1)
  | .share op _ => (h.cls, 2 * op)
  | _ => (h.cls, 2 ^ 40)

/-- Read data for an earlier generation of its channel are dropped, and counted (R475). -/
def staleData (s : State) (p : Nat) (t : Txn) (n : Nat) : Option State :=
  match t.who with
  | .dma ch did =>
    if did / 4096 = getF s (fCHCTL_GEN ch) then none
    else
      let t' := { t with left := t.left - n }
      some (if t'.left = 0 then endTxn s p t' 0 else chanStale (setTxn s p t') ch did)
  | _ => none

/-- The page that a channel's data go to is not resident: the channel halts, and makes its run again from its start (R461). -/
def haltRun (s : State) (p : Nat) (t : Txn) (base size va : Nat) : State :=
  match t.who with
  | .dma ch _ =>
    let s := modChan (dropTxn s p t.tag) ch (fun c => { c with phase := 0, tail := c.tail.take (c.tail.length - t.bytes) })
    faultChan s ch base size va true
  | _ => endTxn s p t 4

/-- Read data of a peer go to their place, in their turn there (R257, R313, R441). -/
def doRddata (p : Nat) (s : State) (k : Pkt) : Option State :=
  let h := k.hdr
  match findTxn s p (replyKey h) with
  | none => some s
  | some t =>
    if h.status ≠ 0 then some (endTxn s p t h.status)
    else match staleData s p t h.len, placeOf t h.off with
      | some s, _ => some s
      | none, none => some s
      | none, some dst =>
        let passes : Bool := match t.who with
          | .dma ch _ => ((getChan s ch).desc.map (fun d => d.op == 2 || spaceOf dst == 9)).getD false
          | _ => false
        if passes then some (tookData s p t k.body h.len)
        else
          let ctx := txnCtx s t
          let r := locate s ctx dst true false
          match r.2 with
          | .fault b z va => some (haltRun r.1 p t b z va)
          | .waits => none
          | l =>
            let who := txnCls s t h
            if waitsAt s ctx dst true then none
            else match serveAt s who.1 who.2 (placesOf s ctx dst h.len true) with
              | none => none
              | some s =>
                let w := writeLoc (locate s ctx dst true false).1 (some ctx) l k.body
                if w.2 ≠ 0 then some (endTxn w.1 p t w.2) else some (tookData w.1 p t k.body h.len)

def execRddata (p : Fin 8) (s : State) : Host.Outcome State Fault Refusal := whenOn s (onPacket p 0x03 (doRddata p.val) s)

def doWrack (p : Nat) (s : State) (k : Pkt) : Option State :=
  let h := k.hdr
  match findTxn s p (replyKey h) with
  | none => some s
  | some t =>
    if h.status ≠ 0 then some (endTxn s p t h.status)
    else
      let n := ((t.pieces.take h.len).map (fun x => x.len)).sum
      let t' := { t with left := t.left - h.len, bytes := t.bytes + n, pieces := t.pieces.drop h.len }
      let s := setTxn s p t'
      if t'.left = 0 then some (endTxn s p t' 0) else some (noteLate s t)

def execWrack (p : Fin 8) (s : State) : Host.Outcome State Fault Refusal := whenOn s (onPacket p 0x04 (doWrack p.val) s)

/-- The reply of a remote full/empty access; a refused one fails as a poisoned access does (assumption 11). -/
def doFereply (p : Nat) (s : State) (k : Pkt) : Option State :=
  let h := k.hdr
  match findTxn s p (replyKey h) with
  | none => some s
  | some t =>
    let s := noteLate (dropTxn s p (replyKey h)) t
    match t.who with
    | .share op _ =>
      some (answer s (.remote op)
        (if h.status ≠ 0 then .cause 0x0A else if h.sub ≠ 0 then .cause h.sub else .ok (BitVec.ofNat 64 (leVal (k.body.take 8)))))
    | _ => some s

def execFereply (p : Fin 8) (s : State) : Host.Outcome State Fault Refusal := whenOn s (onPacket p 0x06 (doFereply p.val) s)

def doCmsgack (p : Nat) (s : State) (k : Pkt) : Option State :=
  match findTxn s p (replyKey k.hdr) with
  | none => some s
  | some t => some (endTxn s p t k.hdr.status)

def execCmsgack (p : Fin 8) (s : State) : Host.Outcome State Fault Refusal := whenOn s (onPacket p 0x08 (doCmsgack p.val) s)

/-- Send again what waited for credit of the peer's wicket `w`. -/
def resumeTxns (s : State) (p w : Nat) : State :=
  forEach ((getPort s p).txns.filter (fun t => t.wk == w && !t.todo.isEmpty)) (fun s t =>
    pumpTxn p t.tag (t.todo.length + 1) (setTxn s p { t with asked := false })) s

/-- The stream of `who` goes on, and its message fails, for its request for credit was refused. -/
def refuseCredit (s : State) (p : Nat) (who : Who) : State :=
  match who with
  | .stream k => failCredit p s k.val
  | .handler _ => s

/-- A grant adds to the account, if it is of the generation that the account holds (R478, R539); a refused request fails what waited
for it (R537). -/
def doGrant (p : Nat) (s : State) (k : Pkt) : Option State :=
  let h := k.hdr
  let n := leVal (k.body.take 4)
  match findTxn s p (replyKey h) with
  | none => some s
  | some t =>
    let s := dropTxn s p (replyKey h)
    match t.who with
    | .wicketCredit w =>
      if h.status = 0 then
        some (resumeTxns (if h.gen = peerGen s p w then setWallet s p w (wallet s p w + n) else s) p w)
      else some (forEach ((getPort s p).txns.filter (fun u => u.wk == w && !u.todo.isEmpty)) (fun s u => endTxn s p u h.status) s)
    | .creelCredit who key =>
      if h.status = 0 then some (sendToken s (plotOf who) (.grant who key n)) else some (refuseCredit s p who)
    | _ => some s

def execGrant (p : Fin 8) (s : State) : Host.Outcome State Fault Refusal := whenOn s (onPacket p 0x0A (doGrant p.val) s)

end Sys2Proof.Machine
end

