-- ==== Sys2Proof/Machine/Link.lean ====
section
/-! DEFINITION. The flits, the training and the lanes of a port (spec/13 R513 to R533, R545, R602): what a received flit does, its
timers, the control messages of a peer, the training states, retrains, draining, and the lanes' measurements. -/

namespace Sys2Proof.Machine

open Sys2Proof

/-- Whether a port moves flits: active, and the module is not stopped by a fatal error (R597). -/
def portRuns (s : State) (p : Nat) : Bool := portUp s p && !(isSet s fERRSTAT_FATAL)

/-! ### A received flit (R521, R522, R524, R525, R529, R530, R535) -/

/-- The fields of 256 received bytes. -/
structure Flit where
  seq : Nat
  ack : Nat
  vc : Nat
  nak : Bool
  ctrl : Bool
  idle : Bool
  crvc : Nat
  credit : Nat
  sop : Nat
  linkid : Nat
  payload : List Byte
  crcOk : Bool
deriving DecidableEq, Repr

def readFlit (bytes : List Byte) : Flit :=
  let b := (padTo 256 bytes).take 256
  let at_ := fun (o n : Nat) => leVal ((b.drop o).take n)
  let fl := at_ 4 1
  { seq := at_ 0 2, ack := at_ 2 2, vc := fl % 4, nak := bitOf fl 2, ctrl := bitOf fl 3, idle := bitOf fl 4,
    crvc := at_ 5 1 % 4, credit := at_ 6 2, sop := at_ 8 1, linkid := at_ 10 2,
    payload := (b.drop 12).take 240, crcOk := crc32 (b.take 252) == at_ 252 4 }

/-- One NAK, unless the receiver has sent it already (R525). -/
def sendNak (s : State) (p : Nat) : State :=
  if (getPort s p).nakd then s
  else sendIdle (modPort s p (fun x => { x with nakd := true, nakTick := tick s })) p true

/-- The sender learns what has arrived (R524): the flits that ACK covers leave the replay buffer. -/
def takeAck (s : State) (p ack : Nat) : State :=
  let x := getPort s p
  let keep := x.buf.filter (fun f => decide (0 < (f.seq + 65536 - ack) % 65536) && decide ((f.seq + 65536 - ack) % 65536 < 32768))
  if keep.length = x.buf.length then s
  else
    let s := match x.buf.find? (fun f => f.seq == ack) with
      | none => s
      | some f =>
        let ns := (tick s - f.sent) * 10
        let old := getF s (fLNKRTT_NS p)
        if old = 0 ∨ ns < old then setF s (fLNKRTT_NS p) (min ns 0xFFFFF) else s
    modPort s p (fun x => { x with buf := keep, replays := 0, progress := tick s })

/-- Credit that the peer returns (R529). -/
def takeCredit (s : State) (p : Nat) (f : Flit) : State :=
  if f.crvc < 3 ∧ f.credit ≠ 0 then setVcCredit s p f.crvc (min (vcCredit s p f.crvc + f.credit) 1024) else s

/-- Whether a header is one of R535. -/
def hdrOk (vc : Nat) (h : Hdr) : Bool :=
  vcOf h.ty == vc &&
  (match h.ty with
   | 0x01 => decide (1 ≤ h.len) && decide (h.len ≤ 256)
   | 0x02 => decide (1 ≤ h.len) && decide (h.len ≤ 4096)
   | 0x03 => decide (1 ≤ h.len) && decide (h.len ≤ 256)
   | 0x04 => decide (1 ≤ h.len) && decide (h.len ≤ 64)
   | 0x05 => h.len == 16
   | 0x06 => h.len == 8
   | 0x07 => decide (32 ≤ h.len) && decide (h.len ≤ 256)
   | 0x08 => h.len == 0
   | 0x09 => h.len == 4
   | 0x0A => h.len == 8
   | _ => false)

def readHdr (b : List Byte) : Hdr :=
  let at_ := fun (o n : Nat) => leVal ((b.drop o).take n)
  { ty := at_ 0 1, attr := at_ 1 1, src := at_ 2 1, status := at_ 3 1, handle := at_ 4 2, tag := at_ 6 2,
    off := at_ 8 5 % 2 ^ 38, sub := at_ 13 1, len := at_ 14 2 }

/-- The whole packets at the front of a virtual channel's bytes, what is left, and whether a malformed one ends them.  A
zero byte where a header would start is fill. -/
def parsePkts (vc : Nat) : Nat → List Byte → List Pkt × List Byte × Bool
  | 0, b => ([], b, true)
  | n + 1, b =>
    match b with
    | [] => ([], [], true)
    | t :: _ =>
      if t = 0#8 then ([], [], true)
      else
        let h := readHdr b
        if !(hdrOk vc h) then ([], [], false)
        else
          let k := bodyLen h.ty h.len
          let size := 16 + roundUp k 16
          if b.length < size then ([], b, true)
          else
            let r := parsePkts vc n (b.drop size)
            (⟨h, (b.drop 16).take k⟩ :: r.1, r.2.1, r.2.2)

/-- A malformed packet (R535). -/
def malformed (s : State) (p : Nat) : State :=
  let s := bump (setF s (fLNKEVT_MAL p) 1) (fLNKEVT_MALCNT p) 1
  quickRetrain (logLink s p 5 0 0 0) p

/-- Packet bytes of a virtual channel (R528): whole packets are handed on, and each flit's buffer is freed with the last
packet that ends in it. -/
def takePayload (s : State) (p : Nat) (f : Flit) : State :=
  let x := getPort s p
  let part := amGet (fun _ => []) x.rxPart f.vc
  let start := if f.sop < 15 then f.payload.drop (16 * f.sop) else []
  let bytes := if part.isEmpty then start else part ++ f.payload
  let r := parsePkts f.vc (bytes.length / 16 + 1) bytes
  let held := amGet (fun _ => 0) x.carry f.vc + 1
  let rest := if r.2.1.isEmpty then 0 else 1
  let n := r.1.length
  let pkts := ((List.range n).zip r.1).map (fun q => (⟨q.2, if q.1 + 1 = n then held - rest else 0⟩ : RxPkt))
  let free := if n = 0 ∧ rest = 0 then held else 0
  let keep := if n = 0 ∧ rest = 1 then held else rest
  let s := modPort s p (fun x => { x with
    rxPart := amSet (fun _ => []) x.rxPart f.vc r.2.1,
    carry := amSet (fun _ => 0) x.carry f.vc keep,
    rxq := x.rxq ++ pkts,
    owed := listModify x.owed f.vc (fun m => m + free) })
  if r.2.2 then s else malformed s p

/-! ### Draining, and what the peer's control messages do (R530, R531, R545) -/

/-- What waited for a port goes out in its order. -/
def releaseHeld (s : State) (p : Nat) : State :=
  if portHolds s p then s
  else
    let s := forEach s.ops (fun s o => forEach o.2.shares (fun s x =>
      match x.st, (peerAddr x.op).map peerPort with
      | .waiting _, some q => if q = p then startShare s o.1 x else s
      | _, _ => s) s) s
    forEach (List.range 16) (fun s k =>
      match (getStr s k).wait with
      | .credit 576 cost (.csend _ _ o) =>
        let i := issStr k (getStr s k)
        let a := i.a o.ar.val
        let key := 65536 + a
        let asked := (getPort s p).txns.any (fun t => t.who == .creelCredit (.stream (Fin.ofNat 16 k)) key)
        if peerPort a = p ∧ !asked then askCredit s i a 576 key (cost - accountOf (accountsOf s i.who) key) else s
      | _ => s) s

/-- The peer takes a lane out of the stripe or back into it, from the flit `seq` on (R531). -/
def peerLane (p lane : Nat) (on : Bool) (seq : Nat) (s : State) : State :=
  modPort s p (fun x => { x with lanes := x.lanes ++ [⟨lane, on, true, seq⟩] })

/-- The peer's lane has moved to another laser, to which this end tunes its receive ring (R531). -/
def peerMoved (p lane laser : Nat) (s : State) : State := logLink (setRxLaser s p lane laser) p 6 0 0 0

def peerDrains (p : Nat) (s : State) : State := modPort s p (fun x => { x with peerDrain := true })
def peerUndrains (p : Nat) (s : State) : State := releaseHeld (modPort s p (fun x => { x with peerDrain := false })) p

/-- A received control message, by the code of its type and its arguments (R530).  IDENT comes before the port is active, and one that
comes later says nothing new. -/
def takeCtl (s : State) (p : Nat) (payload : List Byte) : State :=
  let arg := fun (o n : Nat) => leVal ((payload.drop o).take n)
  match (List.range 6).find? (fun k => payload.head? == some (Config.ctlCode k)) with
  | some 1 => peerLane p (arg 1 1 % 16) false (arg 2 2) s
  | some 2 => peerLane p (arg 1 1 % 16) true (arg 2 2) s
  | some 3 => peerMoved p (arg 1 1 % 16) (arg 2 1) s
  | some 4 => peerDrains p s
  | some 5 => peerUndrains p s
  | _ => s

/-- A flit is accepted in sequence (R525). -/
def acceptFlit (s : State) (p : Nat) (f : Flit) : State :=
  let s := modPort s p (fun x => { x with rxSeq := f.seq, nakd := false, owes := true })
  let s := bump s (⟨rFLITRX p, 63, 0⟩ : Fld) 1
  let s := applyLanes (takeCredit s p f) p true
  if f.ctrl then takeCtl s p f.payload else if f.vc = 3 then malformed s p else takePayload s p f

def receiveFlit (s : State) (p : Nat) (bytes : List Byte) : State :=
  let f := readFlit bytes
  if !f.crcOk || f.linkid != getF s (fLNKSESS_LINKID p) then
    sendNak (bump s (fREPLAYCNT_BADFLITS p) 1) p
  else
    let s := takeAck s p f.ack
    let s := if f.nak then modPort s p (fun x => { x with nakIn := some f.ack }) else s
    let next := ((getPort s p).rxSeq + 1) % 65536
    let s :=
      if f.idle then
        let s := takeCredit s p f
        if f.seq = next then s else sendNak s p
      else if f.seq = next then acceptFlit s p f
      else sendNak s p
    pump s p

/-- A flit arrives; after it the Lodge finds the lanes that are left (R532). -/
def execFlitReceive (p : Fin 8) (bytes : List Byte) (s : State) : Host.Outcome State Fault Refusal :=
  whenAwake s (if portRuns s p.val then progress (watchLanes (receiveFlit s p.val bytes) p.val) else s)

/-- One replay; after eight in a row that brought no progress of ACK a quick retrain instead (R526). -/
def replay (s : State) (p : Nat) : State :=
  if 8 ≤ (getPort s p).replays then quickRetrain (modPort s p (fun x => { x with replays := 0 })) p
  else pump (modPort (replayAll s p) p (fun x => { x with replays := x.replays + 1 })) p

/-- A NAK makes the sender send again every flit after its ACK, before any new one (R526). -/
def execNak (p : Fin 8) (s : State) : Host.Outcome State Fault Refusal :=
  whenAwake s (if !(portRuns s p.val) || (getPort s p.val).nakIn.isNone then s
    else
      let s := modPort s p.val (fun x => { x with nakIn := none })
      if (getPort s p.val).buf.isEmpty then pump s p.val else replay s p.val)

/-- 4 µs without the expected flit: NAK again (R525). -/
def execNakRepeatTimer (p : Fin 8) (s : State) : Host.Outcome State Fault Refusal :=
  whenAwake s (let x := getPort s p.val
    if portRuns s p.val && x.nakd && decide (x.nakTick + 400 ≤ tick s) then
      sendIdle (modPort s p.val (fun x => { x with nakTick := tick s })) p.val true
    else s)

/-- 16 µs without progress of ACK: a replay, or after eight of them a quick retrain (R526). -/
def execReplayTimeout (p : Fin 8) (s : State) : Host.Outcome State Fault Refusal :=
  whenAwake s (let x := getPort s p.val
    if !(portRuns s p.val) || x.buf.isEmpty || decide (tick s < x.progress + 1600) then s
    else replay (modPort s p.val (fun x => { x with progress := tick s })) p.val)

/-- 200 ns with something to acknowledge, or with credit to return: a flit (R524, R529). -/
def execAckFlitTimer (p : Fin 8) (s : State) : Host.Outcome State Fault Refusal :=
  whenAwake s (let x := getPort s p.val
    if portRuns s p.val && (x.owes || x.owed.any (fun n => decide (0 < n))) && decide (x.sentAt + 20 ≤ tick s) then
      watchLanes (sendIdle s p.val false) p.val
    else s)

/-! ### Draining (R545) -/

/-- Send UNDRAIN once the port is active, and let what waits go (R545). -/
def tryUndrain (s : State) (p : Nat) : State :=
  if (getPort s p).undrain && portUp s p then
    releaseHeld (sendCtl (modPort s p (fun x => { x with undrain := false })) p 5 []) p
  else s

def setDrain (s : State) (p : Nat) : State :=
  if isSet s (fLNKCTL_DRAIN p) then s
  else
    let s := modPort (setF s (fLNKCTL_DRAIN p) 1) p (fun x => { x with undrain := false })
    if portUp s p || (getPort s p).quick then sendCtl s p 4 [] else s

def clearDrain (s : State) (p : Nat) : State :=
  if isSet s (fLNKCTL_DRAIN p) then
    tryUndrain (modPort (setF s (fLNKCTL_DRAIN p) 0) p (fun x => { x with undrain := true })) p
  else s

def execLnkctlDrainSet (p : Fin 8) (s : State) : Host.Outcome State Fault Refusal := whenServed s (setDrain s p.val)
def execLnkctlDrainClear (p : Fin 8) (s : State) : Host.Outcome State Fault Refusal := whenServed s (clearDrain s p.val)

/-- DRAIN and UNDRAIN of the peer, as messages apart from their flits. -/
def execDrain (p : Fin 8) (s : State) : Host.Outcome State Fault Refusal :=
  whenAwake s (if portRuns s p.val then peerDrains p.val s else s)

def execUndrain (p : Fin 8) (s : State) : Host.Outcome State Fault Refusal :=
  whenAwake s (if portRuns s p.val then peerUndrains p.val s else s)

/-- Ticks of HOLDTO; none while it sets no limit. -/
def holdLimit (s : State) (p : Nat) : Option Nat :=
  let n := getF s (fLNKCTL_HOLDTO p)
  if n = 0 then none else some (n * 100000)

/-- An operation that has waited under DRAIN for longer than HOLDTO fails (R545): shares of this module's operations, a
stream that waits for credit, and a DMA run. -/
def failHeld (s : State) (p lim : Nat) : State :=
  let now := tick s
  let s := forEach s.ops (fun s o =>
    if now ≤ o.2.tick + lim then s
    else forEach o.2.shares (fun s x =>
      match x.st, (peerAddr x.op).map peerPort with
      | .waiting _, some q => if q = p then failShare s o.1 x.core x.op 1 else s
      | _, _ => s) s) s
  let s := forEach (List.range 16) (fun s k => if now ≤ (getStr s k).waitSince + lim then s else failCredit p s k) s
  forEach (List.range 64) (fun s ch =>
    match (getChan s ch).heldAt, (getChan s ch).desc with
    | some t, some d =>
      if t + lim < now ∧ ((spaceOf d.src = 9 ∧ peerPort d.src = p) ∨ (spaceOf d.dst = 9 ∧ peerPort d.dst = p)) then
        modChan s ch (fun c => { c with st := .ending, status := 1, heldAt := none })
      else s
    | _, _ => s) s

def execHoldLimitExpiry (p : Fin 8) (s : State) : Host.Outcome State Fault Refusal :=
  whenOn s (match holdLimit s p.val with
    | none => s
    | some lim => if portHolds s p.val then progress (failHeld s p.val lim) else s)

/-! ### Lane changes that the peer starts (R531), as messages apart from their flits -/

def execLaneoff (p : Fin 8) (lane : Fin 16) (seq : Fin 65536) (s : State) : Host.Outcome State Fault Refusal :=
  whenAwake s (if portRuns s p.val then peerLane p.val lane.val false seq.val s else s)

def execLaneon (p : Fin 8) (lane : Fin 16) (seq : Fin 65536) (s : State) : Host.Outcome State Fault Refusal :=
  whenAwake s (if portRuns s p.val then peerLane p.val lane.val true seq.val s else s)

def execLanemove (p : Fin 8) (lane : Fin 16) (laser : Fin 18) (s : State) : Host.Outcome State Fault Refusal :=
  whenAwake s (if portRuns s p.val then peerMoved p.val lane.val laser.val s else s)

/-! ### Training (R518 to R520) -/

/-- The locks that the sweep has found (R514). -/
def setLock (p : Nat) (s : State) (l : Nat) (k : RingLock) : State :=
  let s := setF (setF s (fLANEHTR_TX p l) (min k.htx 20000)) (fLANEHTR_RX p l) (min k.hrx 20000)
  modPort s p (fun x => { x with rings := amSet (fun _ => ⟨0, 0, 1, 0, false, 0⟩) x.rings l ⟨k.rset, k.ksign, 1, 0, false, 0⟩ })

def execRinglock (p : Fin 8) (locks : List RingLock) (s : State) : Host.Outcome State Fault Refusal :=
  whenAwake s (if portState s p.val ≠ 2 ∨ isSet s fERRSTAT_FATAL = true then s
    else
      let s := forEach ((List.range 16).zip locks) (fun s x => setLock p.val s x.1 x.2) s
      setPortState s p.val 3)

/-- A failed attempt: back to RINGLOCK, and after three of them the port is hedged (R519); a quick retrain that fails three
times becomes a full one (R533). -/
def trainFails (s : State) (p : Nat) : State :=
  let x := getPort s p
  if x.quick then
    if 3 ≤ x.quickFails + 1 then fullRetrain s p
    else setPortState (modPort s p (fun x => { x with quickFails := x.quickFails + 1 })) p 3
  else if 3 ≤ x.attempts + 1 then applyHedge (portDown s p 7) 8 p
  else setPortState (modPort s p (fun x => { x with attempts := x.attempts + 1 })) p 2

/-- Whether a lane with so many bit errors in 10^9 bits is accepted: an error rate of at most 10^-5 (R519). -/
def laneAccepted (errs : List Nat) (l : Nat) : Bool := (errs[l]?).any (fun n => decide (n ≤ 10000))

/-- The measurement of the lanes ends: `errs` are the bit errors of each lane in 10^9 bits, and `peer` the lanes that the other end
accepted (R519). -/
def execLanetrain (p : Fin 8) (errs : List Nat) (peer : BitVec 16) (s : State) : Host.Outcome State Fault Refusal :=
  whenAwake s (
    let p := p.val
    if portState s p ≠ 3 ∨ isSet s fERRSTAT_FATAL = true then s
    else
      let ok := fun (l : Nat) => laneAccepted errs l && bitOf peer.toNat l && !(laneHedged s p l)
      let good := (List.range 16).filter ok
      if good.length < minLanes s p then trainFails s p
      else
        let s := forEach ((List.range 16).filter (fun l => !ok l && !(laneHedged s p l)))
          (fun s l => applyHedge s 7 (p + 8 * l)) s
        setPortState (setLanes s p ((good.map (fun l => 2 ^ l)).sum)) p 4)

/-- The arguments of this end's IDENT (R520). -/
def identArgs (s : State) (p : Nat) : List Byte :=
  leBytes 6 (getF s fHOST_SERIAL_SERIAL) ++ leBytes 1 p ++ (List.range 16).flatMap (fun l => leBytes 1 (txLaser s p l)) ++
  [(getPort s p).ownByte]

/-- Codeword lock and deskew end; `byte` is the random byte of this end's IDENT. -/
def execAlign (p : Fin 8) (ok : Bool) (byte : Byte) (s : State) : Host.Outcome State Fault Refusal :=
  whenAwake s (
    let p := p.val
    if portState s p ≠ 4 ∨ isSet s fERRSTAT_FATAL = true then s
    else if !ok then trainFails s p
    else if (getPort s p).quick then
      let s := setPortState (modPort s p (fun x => { x with quick := false, quickFails := 0, progress := tick s, nakIn := none })) p 6
      pump (tryUndrain (if (getPort s p).buf.isEmpty then s else replayAll s p) p) p
    else
      let s := setPortState (modPort s p (fun x => { x with ownByte := byte })) p 5
      sendCtl s p 0 (identArgs s p))

/-- The peer's IDENT: identities, LINKID, credit, and the session begins (R520, R529). -/
def beginSession (s : State) (p serial peerPort : Nat) (lasers : List Nat) (byte : Byte) : State :=
  let own := getF s fHOST_SERIAL_SERIAL
  let first := 0 < getF s (fLNKSESS_SESSIONS p)
  let changed := first && (getF s (fLNKPEER_SERIAL p) != serial || getF s (fLNKPEER_PORT p) != peerPort)
  let s := setF (setF s (fLNKPEER_SERIAL p) serial) (fLNKPEER_PORT p) peerPort
  let s := if changed then logLink (bump (setF s (fLNKEVT_PEERCHG p) 1) (fLNKEVT_PEERCNT p) 1) p 7 0 0 0 else s
  let s := forEach ((List.range 16).zip lasers) (fun s x => setRxLaser s p x.1 x.2) s
  let mine := (getPort s p).ownByte.toNat
  let id := if own ≤ serial then mine * 256 + byte.toNat else byte.toNat * 256 + mine
  let s := bump (setF s (fLNKSESS_LINKID p) id) (fLNKSESS_SESSIONS p) 1
  let s := setVcCredit (setVcCredit (setVcCredit s p 0 1024) p 1 1024) p 2 1024
  let s := modPort (setF s (fLNKRTT_NS p) 0) p (fun x => { x with
    rxSeq := (x.rxSeq + 1) % 65536, owes := true, attempts := 0, quickFails := 0, progress := tick s })
  let s := markReady (setPortState s p 6) (48 + p)
  let s := match hedgeOf s 8 p with
    | some h => if h.lasting && !h.probing then returnHedge s h else s
    | none => s
  let s := if isSet s (fLNKCTL_DRAIN p) then sendCtl s p 4 [] else s
  pump (tryUndrain s p) p

def execIdent (p : Fin 8) (serial : BitVec 48) (peerPort : Fin 8) (lasers : List (Fin 18)) (byte : Byte) (s : State) :
    Host.Outcome State Fault Refusal :=
  whenAwake s (if portState s p.val ≠ 5 ∨ isSet s fERRSTAT_FATAL = true then s
    else beginSession s p.val serial.toNat peerPort.val (lasers.map (fun l => l.val)) byte)

/-! ### Retrains (R533, R602) -/

def portHedged (s : State) (p : Nat) : Bool := hedgedAt s 8 p || lanternHedged s p

def execQuickRetrain (p : Fin 8) (s : State) : Host.Outcome State Fault Refusal :=
  whenAwake s (if isSet s fERRSTAT_FATAL then s else quickRetrain s p.val)

def execFullRetrain (p : Fin 8) (s : State) : Host.Outcome State Fault Refusal :=
  whenAwake s (if isSet s fERRSTAT_FATAL || portHedged s p.val || !(isSet s (fLNKCTL_EN p.val)) then s
    else progress (fullRetrain s p.val))

/-- A write of 1 to LNKCTL.RETRAIN. -/
def execRetrain (p : Fin 8) (s : State) : Host.Outcome State Fault Refusal :=
  whenServed s (if isSet s fERRSTAT_FATAL then s else quickRetrain s p.val)

/-- Every 60 s, a full retrain of a port that stays hedged (R602). -/
def execPortRetryTimer (p : Fin 8) (s : State) : Host.Outcome State Fault Refusal :=
  whenAwake s (
    let p := p.val
    let lasting := ((hedgeOf s 8 p).map (fun h => h.lasting && !h.probing)).getD false
    if lasting && isSet s (fLNKCTL_EN p) && getF s (fLANSTAT_STATE p) == 4 && portState s p == 7 && !(lanternHedged s p) &&
        decide ((getPort s p).tries + 6000000000 ≤ tick s) && !(isSet s fERRSTAT_FATAL) then
      modPort (fullRetrain s p) p (fun x => { x with tries := tick s })
    else s)

/-! ### Rings and lanes (R514, R531, R532) -/

def clampI (v lo hi : Int) : Nat := (max lo (min v hi)).toNat

/-- One period of the loops of a lane's two rings (R514); the shift applies to the product (assumption 12). -/
def ringLoop (s : State) (p l pin pdr rxdrop : Nat) : State :=
  let g := amGet (fun _ => (⟨0, 0, 1, 0, false, 0⟩ : Ring)) (getPort s p).rings l
  let r : Int := sext 32 (pdr * 4096 / max pin 1 % 2 ^ 32)
  let h : Int := (getF s (fLANEHTR_TX p l) : Int) + (r - g.rset) * g.ksign * 3 / 16
  let s := setF s (fLANEHTR_TX p l) (clampI h 0 20000)
  let far := decide (512 < (r - g.rset).natAbs)
  let pw := sext 32 (rxdrop % 2 ^ 32)
  let step := if g.odd then g.step else if g.plast ≤ pw then g.step else -g.step
  let s := setF s (fLANEHTR_RX p l) (clampI ((getF s (fLANEHTR_RX p l) : Int) + step) 0 20000)
  let off := if far then g.off + 1 else 0
  let g' : Ring := { g with step := step, plast := pw, odd := !g.odd, off := if 10 ≤ off then 0 else off }
  let s := modPort s p (fun x => { x with rings := amSet (fun _ => ⟨0, 0, 1, 0, false, 0⟩) x.rings l g' })
  if 10 ≤ off ∧ portUp s p = true ∧ laneOn s p l = true ∧ (getPort s p).testing.contains l = false then
    watchLanes (modPort (sendLane s p l false) p (fun x => { x with testing := x.testing ++ [l] })) p
  else s

/-- Every 10 µs (R514). -/
def execRingLockLoop (p : Fin 8) (lane : Fin 16) (pin pdr rxdrop : BitVec 32) (s : State) : Host.Outcome State Fault Refusal :=
  whenAwake s (if (2 ≤ portState s p.val ∧ portState s p.val ≤ 6) ∧ isSet s fERRSTAT_FATAL = false then
      every (evRing p.val lane.val) 1000 (fun s => ringLoop s p.val lane.val pin.toNat pdr.toNat rxdrop.toNat) s
    else s)

/-- One second of one lane (R516, R517, R532): counters, error rate, and whether the lane fails. -/
def measureLane (p : Nat) (s : State) (x : Nat × LaneMeas) : State :=
  let l := x.1
  let m := x.2
  if !(laneOn s p l) then s
  else
    let s := bump (bump s (fFECSYM_COUNT p l) m.sym) (fFECUNC_COUNT p l) m.unc
    let s := setF s (fLANEBER_PPT p l) (min m.ber 0xFFFFFFFF)
    let n := if 200000000 < m.ber then amGet (fun _ => 0) (getPort s p).bad l + 1 else 0
    let s := modPort s p (fun x => { x with bad := amSet (fun _ => 0) x.bad l n })
    if 3 ≤ n ∨ 10 < m.unc then
      applyHedge (modPort s p (fun x => { x with bad := amSet (fun _ => 0) x.bad l 0 })) 7 (p + 8 * l + 128)
    else s

def execLaneErrorMeasurement (p : Fin 8) (meas : List LaneMeas) (s : State) : Host.Outcome State Fault Refusal :=
  whenAwake s (if portRuns s p.val then
      every (evLanes p.val) 100000000 (fun s => progress (watchLanes (forEach ((List.range 16).zip meas) (measureLane p.val) s) p.val)) s
    else s)

/-! ### Writes of LNKCTL (R518, R545) -/

/-- A host write of LNKCTL: EN, DRAIN and RETRAIN act, the other bits are kept. -/
def writeLnkctl (s : State) (p v : Nat) : State :=
  let was := isSet s (fLNKCTL_EN p)
  let s := setF (setF (setF s (fLNKCTL_EN p) (bitsOf v 63 63)) (fLNKCTL_MINLANES p) (bitsOf v 56 52)) (fLNKCTL_HOLDTO p) (bitsOf v 31 0)
  let s := if bitOf v 62 then setDrain s p else clearDrain s p
  let s := if was && !(bitOf v 63) then portDown s p (if portHedged s p then 7 else 0)
    else if !was && bitOf v 63 && !(portHedged s p) && !(isSet s fERRSTAT_FATAL) then train s p
    else s
  if bitOf v 61 && !(isSet s fERRSTAT_FATAL) then quickRetrain s p else s

end Sys2Proof.Machine
end

