-- ==== Sys2Proof/Machine/Wickets.lean ====
section
/-! DEFINITION. Wickets as their owner handles them (spec/11 R476, R478, R479): opening, closing, quarantine, and the return of
spent credit. -/

namespace Sys2Proof.Machine

open Sys2Proof

/-- Whether R476 lets a wicket open: an Orangery window lies in granules that CTX owns, those of a creel's ring too (R418); no byte of its window lies in space 0x2 without PRIV (R295, R666). -/
def wicketMayOpen (s : State) (w : Nat) : Bool :=
  let ctx := getF s (fWKCTL_CTX w)
  let b := wkBase s w
  isSet s (fWKCTL_QUIET w) &&
  (spaceOf b != 0 || dmaOwned s ctx b (wkSize s w)) &&
  ((spaceOf b != 2 && spaceOf (b + wkSize s w - 1) != 2) || hasPriv s ctx)

/-- A refused opening: VIOL with cause 7, logged. -/
def refuseOpen (s : State) (w : Nat) : State :=
  let s := setF (bump (setF s (fWKSTAT_VIOL w) 1) (fWKSTAT_VIOLCNT w) 1) (fWKSTAT_CAUSE w) 7
  logPut s { LogEntry.blank with kind := 0x08, cause := 7, ctx := getF s (fWKCTL_CTX w), data := [0, 0, w, 0] }

/-- An open wicket begins with a new generation and a full pool. -/
def openWicket (s : State) (w : Nat) : State :=
  let s := setWk s w Wicket.reset
  let s := setF (setF s (fWKCTL_EN w) 1) (fWKCTL_QUIET w) 0
  let s := setF s (fWKCTL_GEN w) (getF s (fWKCTL_GEN w) + 1)
  setF (setF s (fWKPOOL_OUT w) 0) (fWKPOOL_POOL w) (getF s (fWKCTL_INIT w) * 256)

/-- Clearing EN voids every unspent grant; requests that wait are refused, and the quarantine starts. -/
def closeWicket (s : State) (w : Nat) : State :=
  let x := getWk s w
  let s := setF (setF s (fWKCTL_EN w) 0) (fWKPOOL_OUT w) 0
  let s := setWk s w { x with requests := [], closed := tick s }
  forEach x.requests (fun s r => match r.dest with
    | .peer p ref => sendReply s p ref 0x0A 3 1 8 (leBytes 8 0)
    | .own _ => s) s

/-- A host write of WKCTL: EN opens or closes the wicket, the other fields take the written value. -/
def writeWkctl (s : State) (w v : Nat) : State :=
  let was := isSet s (fWKCTL_EN w)
  let en := bitOf v 63
  let s := setF (setF (setF s (fWKCTL_CTX w) (bitsOf v 58 55)) (fWKCTL_PERM w) (bitsOf v 51 48)) (fWKCTL_INIT w) (bitsOf v 23 0)
  if en && !was then (if wicketMayOpen s w then openWicket s w else refuseOpen s w)
  else if !en && was then closeWicket s w
  else s

def execWicketOpen (w : Fin 64) (v : BitVec 64) (s : State) : Host.Outcome State Fault Refusal :=
  whenServed s (writeWkctl s w.val (putBits v.toNat 63 63 1))

def execWicketClose (w : Fin 64) (v : BitVec 64) (s : State) : Host.Outcome State Fault Refusal :=
  whenServed s (writeWkctl s w.val (putBits v.toNat 63 63 0))

/-- A closed wicket whose grants were all spent is quiet at once, any other one 1 ms after its closing. -/
def execWicketQuarantineEnd (w : Fin 64) (s : State) : Host.Outcome State Fault Refusal :=
  whenOn s (
    let x := getWk s w.val
    if isSet s (fWKCTL_EN w.val) || isSet s (fWKCTL_QUIET w.val) then s
    else if (x.granted.map Prod.snd).sum = 0 ∨ x.closed + 100000 ≤ tick s then
      setWk (setF s (fWKCTL_QUIET w.val) 1) w.val Wicket.reset
    else s)

/-- A host write of WKRET returns bytes, in units of 256, to the pool (R479). -/
def execWkret (w : Fin 64) (v : BitVec 64) (s : State) : Host.Outcome State Fault Refusal :=
  whenServed s (wicketRelease s w.val (bitsOf v.toNat 31 8 * 256))

/-- A host write of WKRELW: while EN is 1 the wicket waits at the word as a taker of its whole count (R479). -/
def writeWkrelw (s : State) (w v : Nat) : State :=
  let s := setF (setF s (fWKRELW_EN w) (bitsOf v 63 63)) (fWKRELW_ADDR w) (bitsOf v 30 3)
  let s := { s with waiters := s.waiters.filter (fun x => match x.agent with
    | .drain u => u != w
    | _ => true) }
  if bitOf v 63 then feAccess s (getF s (fWKRELW_ADDR w) * 8) (.drain w) (320 + w) (.take .drain true) else s

/-- A host write of RWCTL: EN stays 0 where R540 does not allow the window. -/
def writeRwctl (s : State) (p j v : Nat) : State :=
  let s := setF s (fRWCTL_WKT p j) (bitsOf v 53 48)
  let s := if bitOf v 32 then setF s (fRWCTL_CFLT p j) 0 else s
  setF s (fRWCTL_EN p j) (if bitOf v 63 && winOk s p j then 1 else 0)

/-- A host write of PWGEN: each wicket whose generation changes has its account emptied (R539). -/
def writePwgen (s : State) (p j v : Nat) : State :=
  let changed := (List.range 16).filter (fun i => peerGen s p (16 * j + i) != bitsOf v (4 * i + 3) (4 * i))
  let s := setF s (fPWGEN_GEN p j) v
  forEach changed (fun s i => setWallet s p (16 * j + i) 0) s

end Sys2Proof.Machine
end

