-- ==== Sys2Proof/Machine/Lantern.lean ====
section
/-! DEFINITION. Lanterns (spec/13 R511, R512, R549, R551 to R559; spec/17 R649): identity memory and usage record, the check at
insertion, power loops, wear, spares, and replacement; and the end of a probe, which may replace a laser (spec/15 R599, R602). -/

namespace Sys2Proof.Machine

open Sys2Proof

/-! ### Identity memory (R551, R552) -/

def fieldAt (m : List Byte) (o n : Nat) : Nat := leVal ((m.drop o).take n)
def putAt (m : List Byte) (o : Nat) (bs : List Byte) : List Byte := m.take o ++ bs ++ m.drop (o + bs.length)

def copyOk (m : List Byte) (base : Nat) : Bool := crc32c 0 ((m.drop base).take 0x7C) == fieldAt m (base + 0x7C) 4

/-- The place of the valid copy of the usage record. -/
def validCopy (m : List Byte) : Option Nat :=
  match copyOk m 0x100, copyOk m 0x180 with
  | true, true => some (if fieldAt m 0x100 4 < fieldAt m 0x180 4 then 0x180 else 0x100)
  | true, false => some 0x100
  | false, true => some 0x180
  | false, false => none

def laserState (m : List Byte) (base k : Nat) : Nat := fieldAt m (base + 0x58 + k) 1 % 4

def binit (m : List Byte) (k : Nat) : Nat := fieldAt m (0x0AC + 2 * k) 2

/-- The IDMEM registers show the memory. -/
def showIdmem (s : State) (p : Nat) : State :=
  let m := (getLan s p).mem
  forEach (List.range 64) (fun s q => regPut s (rIDMEM p q) (BitVec.ofNat 64 (fieldAt m (8 * q) 8))) s

/-- LANLIFE and the SPARES field show the valid record and the laser states; without a valid record LANLIFE shows 0. -/
def showLantern (s : State) (p : Nat) : State :=
  let m := (getLan s p).mem
  let life := match validCopy m with
    | some b => (fieldAt m (b + 4) 4, fieldAt m (b + 8) 4)
    | none => (0, 0)
  let s := setF (setF s (fLANLIFE_HOURS p) life.1) (fLANLIFE_ENERGY p) life.2
  setF (showIdmem s p) (fLANSTAT_SPARES p) ((List.range 18).filter (fun k => getF s (fLASER_STATE p k) == 0)).length

/-- The frequency of laser `k` in MHz (R511). -/
def laserMHz (k : Nat) : Nat := 228600000 + 200000 * k

/-- The cause of R553 that rejects a lantern, 0 for none. -/
def rejectCause (m : List Byte) (minL : Nat) : Nat :=
  let freqOk := (List.range 18).all (fun k =>
    let f := fieldAt m (0x040 + 4 * k) 4
    decide (f ≤ laserMHz k + 2000) && decide (laserMHz k ≤ f + 2000))
  if !(m.take 4 == [0x4C#8, 0x4E#8, 0x54#8, 0x4E#8] && fieldAt m 4 1 == 1 && crc32c 0 (m.take 0xFC) == fieldAt m 0xFC 4) then 1
  else if !freqOk then 2
  else if fieldAt m 5 1 ≠ 18 ∨ fieldAt m 0x31 1 ≠ 2 then 3
  else match validCopy m with
    | none => 4
    | some b => if ((List.range 18).filter (fun k => laserState m b k != 3)).length < minL then 5 else 0

/-- Whether BAYID of the valid record names this module and bay (R554). -/
def bayKnown (s : State) (p : Nat) (m : List Byte) : Bool :=
  match validCopy m with
  | none => false
  | some b => fieldAt m (b + 0x6C) 6 == getF s fHOST_SERIAL_SERIAL && fieldAt m (b + 0x72) 1 == p

/-- A log entry of a lantern (R611 kind 0x10); `hedges` says that its error starts a hedge. -/
def logLan (s : State) (p cause a b : Nat) (hedges : Bool) : State :=
  logPut s { LogEntry.blank with kind := 0x10, cause := cause, rclass := 9, res := p + 0x1F00, flags := if hedges then 1 else 0, data := [a, b, 0, 0] }

/-- An hour in ticks. -/
def hourTicks : Nat := 360000000000

/-- Write the usage record to the copy that is not valid, with SEQ one higher (R552): `h` more powered hours, and `bay`
when BAYID is written.  The hour under way goes on. -/
def recordUsage (s : State) (p h : Nat) (bay : Bool) : State :=
  let x := getLan s p
  match validCopy x.mem with
  | none => s
  | some b =>
    let m := x.mem
    let wh := x.energy / 3600000000
    let lash := (List.range 18).flatMap (fun k =>
      let st := getF s (fLASER_STATE p k)
      leBytes 4 (fieldAt m (b + 0x10 + 4 * k) 4 + (if st = 1 ∨ st = 2 then h else 0)))
    let rec_ :=
      leBytes 4 (fieldAt m b 4 + 1) ++ leBytes 4 (fieldAt m (b + 4) 4 + h) ++ leBytes 4 (fieldAt m (b + 8) 4 + wh) ++
      leBytes 1 (max (fieldAt m (b + 0xC) 1) x.tmax) ++ leBytes 3 0 ++ lash ++
      (List.range 18).flatMap (fun k => leBytes 1 (getF s (fLASER_STATE p k) % 4)) ++ leBytes 2 0 ++
      (if bay then leBytes 6 (getF s fHOST_SERIAL_SERIAL) ++ leBytes 1 p ++ leBytes 1 0 else (m.drop (b + 0x6C)).take 8) ++
      leBytes 8 0
    let other := if b = 0x100 then 0x180 else 0x100
    let s := setLan s p { x with
      mem := putAt m other (rec_ ++ leBytes 4 (crc32c 0 rec_)), energy := x.energy % 3600000000, hourAt := x.hourAt + h * hourTicks }
    showLantern s p

/-! ### Lanes and lasers (R512) -/

def laserInService (s : State) (p k : Nat) : Bool := getF s (fLASER_STATE p k) == 1 || getF s (fLASER_STATE p k) == 2

/-- The laser that lane `l` takes: the in-service lasers in ascending order; with fewer of them than lanes the highest lanes have none. -/
def laserOfLane (s : State) (p l : Nat) : Option Nat := ((List.range 18).filter (laserInService s p))[l]?

def setLaneLaser (p : Nat) (s : State) (l k : Nat) : State := setF (setTxLaser s p l k) (fLASER_LANE p k) l

/-! ### Check and warm-up (R553, R554) -/

/-- Every laser of an unknown lantern is driven at its BINIT while it is characterised (R554). -/
def driveAll (s : State) (p : Nat) : State :=
  forEach (List.range 18) (fun s k => setF s (fLASER_BIAS p k) (binit (getLan s p).mem k)) s

/-- A lantern that is accepted and may emit warms; its hedge ends, and its port trains (R558).  At a module reset, `boot`, a lasting
hedge stays (R603). -/
def startWarm (s : State) (p : Nat) (boot : Bool) : State :=
  if !(mayEmit s p) then setF s (fLANSTAT_STATE p) 5
  else
    let s := setF s (fLANSTAT_STATE p) 3
    let s := forEach (s.hedges.filter (fun h => h.cls == 9 && h.res % 8 == p && !h.held && !(boot && h.lasting))) returnHedge s
    if lanternHedged s p then setF s (fLANSTAT_STATE p) 5
    else
      let s := if isSet s (fLANSTAT_KNOWN p) then s else driveAll s p
      if portState s p = 0 ∧ portHedged s p = false then train s p else s

/-- The lantern is rejected: its lasers stay off (R553). -/
def rejectLantern (s : State) (p cause : Nat) : State :=
  let s := setF (setF s (fLANSTAT_STATE p) 2) (fLANSTAT_REJCAUSE p) cause
  applyHedge (logLan s p 1 cause 0 (!(lanternHedged s p))) 9 (p + 0x1F00)

/-- The registers of a seated lantern take what its memory holds; of one without a valid record they show no laser that can serve. -/
def loadLantern (s : State) (p : Nat) : State :=
  let m := (getLan s p).mem
  let st := fun (k : Nat) => match validCopy m with
    | some b => laserState m b k
    | none => 3
  let s := forEach (List.range 18) (fun s k => setF s (fLASER_STATE p k) (st k)) s
  showLantern (setF s (fLANSTAT_KNOWN p) (if bayKnown s p m then 1 else 0)) p

/-- The Lodge checks a seated lantern. -/
def checkLantern (s : State) (p : Nat) (boot : Bool) : State :=
  let s := loadLantern (setF s (fLANSTAT_STATE p) 1) p
  let cause := rejectCause (getLan s p).mem (minLanes s p)
  if cause ≠ 0 then rejectLantern s p cause else startWarm s p boot

/-- A lantern is in its bay. -/
def seat (s : State) (p : Nat) (m : List Byte) (latched : Bool) : State :=
  let s := setLan s p { Lantern.reset with mem := m, hourAt := tick s }
  setF (setF s (fLANSTAT_PRESENT p) 1) (fLANSTAT_INTLK p) (if latched then 1 else 0)

/-- The Lodge reads the memory of a seated lantern, and checks it. -/
def readLantern (s : State) (p : Nat) (boot : Bool) : State :=
  let m := (getLan s p).mem
  let s := setF (setF s (fLANSER0_ASCII p) (fieldAt m 0x18 8)) (fLANSER1_ASCII p) (fieldAt m 0x20 8)
  checkLantern (showIdmem s p) p boot

/-- A lantern is seated: its memory is read and checked, once the Lodge runs.  After an undrained removal the record is
written (R559). -/
def execLanternInsertion (p : Fin 8) (mem : List Byte) (latched : Bool) (s : State) : Host.Outcome State Fault Refusal :=
  .next (
    let p := p.val
    if isSet s (fLANSTAT_PRESENT p) then s
    else
      let lostLight := lanternHedged s p && !(isSet s (fLANCTL_FORCEOFF p))
      let s := seat s p ((padTo 512 mem).take 512) latched
      if !(on s) then s
      else
        let s := readLantern s p false
        progress (if lostLight && getF s (fLANSTAT_STATE p) != 2 then recordUsage s p 0 false else s))

/-- The calibration that the Lodge keeps for a lantern that it knows, by the lantern's serial number and the bay. -/
def storedCal (s : State) (p : Nat) : Option (List (Nat × Nat) × Int) :=
  (s.lodge.calib.find? (fun c => c.1 == p && c.2.1 == ((getLan s p).mem.drop 0x18).take 16)).map (fun c => c.2.2)

/-- The lasers are warmed with the stored calibration, or characterised afresh: `tgts` are the monitor readings at BINIT,
`kp` the loop gain.  The port goes on to RINGLOCK (R518, R554). -/
def execLaserWarmupDone (p : Fin 8) (tgts : List Nat) (kp : Int) (s : State) : Host.Outcome State Fault Refusal :=
  whenAwake s (
    let p := p.val
    if getF s (fLANSTAT_STATE p) ≠ 3 ∨ isSet s fERRSTAT_FATAL = true then s
    else
      let known := if isSet s (fLANSTAT_KNOWN p) then storedCal s p else none
      let cal := known.getD ((List.range 18).zip (tgts.map (fun t => t % 65536)), kp)
      let s := modLan s p (fun x => { x with tgt := cal.1, kp := cal.2 })
      let ser := ((getLan s p).mem.drop 0x18).take 16
      let s := if known.isSome then s
        else
          let s := { s with lodge := { s.lodge with
            calib := s.lodge.calib.filter (fun c => !(c.1 == p && c.2.1 == ser)) ++ [(p, ser, cal.1, cal.2)] } }
          setF (recordUsage s p 0 true) (fLANSTAT_KNOWN p) 1
      let s := setF s (fLANSTAT_STATE p) 4
      let s := forEach (List.range 18) (fun s k =>
        setF s (fLASER_BIAS p k) (if laserInService s p k then binit (getLan s p).mem k else 0)) s
      let s := forEach (List.range 16) (fun s l => match laserOfLane s p l with
        | some k => setLaneLaser p s l k
        | none => s) s
      if portState s p = 1 then setPortState s p 2
      else if portState s p = 0 ∧ portHedged s p = false then train s p
      else s)

/-! ### Removal and the interlock (R549, R559, R649) -/

/-- The port loses its light without a drain (R559). -/
def loseLight (s : State) (p : Nat) : State :=
  let s := lasersOff s p
  if isSet s (fLANCTL_FORCEOFF p) || !(isSet s (fLANCTL_EN p)) then s else applyHedge s 9 (p + 0x1F00)

def execLanternRemoval (p : Fin 8) (s : State) : Host.Outcome State Fault Refusal :=
  .next (
    let p := p.val
    if !(isSet s (fLANSTAT_PRESENT p)) then s
    else
      let gone := fun (s : State) =>
        let s := setF (setF (setF s (fLANSTAT_PRESENT p) 0) (fLANSTAT_INTLK p) 0) (fLANSTAT_STATE p) 0
        setLan (setF (setF s (fLANPWR_MW p) 0) (fLANSTAT_CASET p) 0) p Lantern.reset
      if !(on s) then gone s
      else
        let drained := isSet s (fLANCTL_FORCEOFF p)
        let was := lanternHedged s p
        let s := loseLight s p
        progress (gone (if drained then s else logLan s p 5 0 0 (!was && lanternHedged s p))))

def execInterlockOpen (p : Fin 8) (s : State) : Host.Outcome State Fault Refusal :=
  .next (
    let p := p.val
    if !(isSet s (fLANSTAT_INTLK p)) then s
    else
      let lit := getF s (fLANSTAT_STATE p) = 3 ∨ getF s (fLANSTAT_STATE p) = 4
      let s := setF s (fLANSTAT_INTLK p) 0
      if on s then progress (if lit then loseLight s p else s) else s)

/-- The latch of a seated lantern closes the loop again; a lantern that was off by it is checked and warms. -/
def execInterlockClose (p : Fin 8) (s : State) : Host.Outcome State Fault Refusal :=
  .next (
    let p := p.val
    if !(isSet s (fLANSTAT_PRESENT p)) || isSet s (fLANSTAT_INTLK p) then s
    else
      let s := setF s (fLANSTAT_INTLK p) 1
      if on s then progress (if getF s (fLANSTAT_STATE p) = 5 then checkLantern s p false else s) else s)

/-- A bay at its current limit: its supply is off until its lantern is withdrawn and one is seated again. -/
def execBayOvercurrent (p : Fin 8) (s : State) : Host.Outcome State Fault Refusal :=
  whenAwake s (
    let p := p.val
    if !(isSet s (fLANSTAT_PRESENT p)) then s
    else
      let was := lanternHedged s p
      let s := loseLight (modLan s p (fun x => { x with supplyOff := true })) p
      progress (logLan s p 5 0 0 (!was && lanternHedged s p)))

/-! ### FORCEOFF and EN (R549, R558) -/

/-- The whole powered hours of a lantern that its record does not hold yet. -/
def hoursDue (s : State) (p : Nat) : Nat := (tick s - (getLan s p).hourAt) / hourTicks

/-- The entry of R595 for FORCEOFF: R611 gives it no cause, so that is free. -/
def logForceOff (s : State) (p : Nat) : State :=
  let r := drawByte s
  logLan r.1 p r.2.toNat 0 0 (!(lanternHedged s p))

/-- The lasers ramp off, the record is written and the port is hedged. -/
def forceOff (s : State) (p : Nat) : State :=
  let s := lasersOff s p
  let s := if isSet s (fLANSTAT_PRESENT p) then recordUsage s p (hoursDue s p) false else s
  applyHedge (logForceOff s p) 9 (p + 0x1F00)

/-- A host write of LANCTL. -/
def writeLanctl (s : State) (p v : Nat) : State :=
  let wasOff := isSet s (fLANCTL_FORCEOFF p)
  let wasEn := isSet s (fLANCTL_EN p)
  let off := bitOf v 1
  let en := bitOf v 0
  let s := setF (setF s (fLANCTL_FORCEOFF p) (if off then 1 else 0)) (fLANCTL_EN p) (if en then 1 else 0)
  let s := if off && !wasOff then forceOff s p else s
  let s := if wasEn && !en then
      let s := lasersOff s p
      if portHedged s p then s else portDown s p 0
    else s
  if ((wasOff && !off) || (en && !wasEn)) && isSet s (fLANSTAT_PRESENT p) then checkLantern s p false else s

def execForceoffSet (p : Fin 8) (s : State) : Host.Outcome State Fault Refusal :=
  whenServed s (progress (writeLanctl s p.val (2 + getF s (fLANCTL_EN p.val))))

def execForceoffClear (p : Fin 8) (s : State) : Host.Outcome State Fault Refusal :=
  whenServed s (progress (writeLanctl s p.val (getF s (fLANCTL_EN p.val))))

/-! ### Power loops and wear (R555 to R557) -/

/-- A WEAR, REPL or SWITCH event: its flag, its counter, and an event of source 4 (R579). -/
def lanEvent (s : State) (flag count : Fld) : State := irqSource (bump (setF s flag 1) count 1) 4

/-- One millisecond of laser `k`, whose monitor reads `m`. -/
def powerLoop (p : Nat) (s : State) (k m : Nat) : State :=
  let x := getLan s p
  let tgt := amGet (fun _ => 0) x.tgt k
  let cap := binit x.mem k * 150 / 100 % 65536
  let err : Int := (tgt : Int) - (m : Int)
  let b : Int := (getF s (fLASER_BIAS p k) : Int) + err * x.kp / 1024
  let bias := (max 0 (min b (cap : Int))).toNat
  let s := setF (setF s (fLASER_BIAS p k) bias) (fLASER_POWER p k) m
  let low := bias == cap && decide (m * 100 < tgt * 89)
  modLan s p (fun x => { x with
    sums := amSet (fun _ => 0) (amSet (fun _ => 0) x.sums k (amGet (fun _ => 0) x.sums k + bias)) (32 + k)
      (amGet (fun _ => 0) x.sums (32 + k) + 1),
    capped := amSet (fun _ => 0) x.capped k (if low then amGet (fun _ => 0) x.capped k + 1 else 0) })

/-- Every 1 ms: the lantern in the bay draws `mw` and its case is at `caset` °C; the monitors of its lasers read `mpd`, and the power loops
run while it is ready. -/
def execLaserPowerLoop (p : Fin 8) (mpd : List Nat) (mw : Nat) (caset : BitVec 8) (s : State) : Host.Outcome State Fault Refusal :=
  whenAwake s (
    let p := p.val
    if !(isSet s (fLANSTAT_PRESENT p)) then s
    else every (evPower p) 100000 (fun s =>
      let s := setF (setF s (fLANPWR_MW p) (min mw 65535)) (fLANSTAT_CASET p) caset.toNat
      let s := modLan s p (fun x => { x with energy := x.energy + mw, tmax := max x.tmax caset.toNat })
      if getF s (fLANSTAT_STATE p) ≠ 4 then s
      else forEach ((List.range 18).zip mpd) (fun s r => if laserInService s p r.1 then powerLoop p s r.1 (r.2 % 65536) else s) s) s)

/-- The lane that laser `k` carries is hedged, for no spare remains (R532, R557). -/
def hedgeLaserLane (s : State) (p k : Nat) : State :=
  match (List.range 16).find? (fun l => txLaser s p l == k) with
  | some l => applyHedge s 7 (p + 8 * l)
  | none => s

/-- Spare `j` takes the place of laser `k`: it is lit, and settles (R557). -/
def startSpare (s : State) (p k j : Nat) : State :=
  let s := setF (setF s (fLASER_STATE p j) 1) (fLASER_BIAS p j) (binit (getLan s p).mem j)
  let s := modLan s p (fun x => { x with settling := some j, retiring := some k })
  let s := recordUsage s p 0 false
  logPut s { LogEntry.blank with kind := 0x11, cause := 5, rclass := 9, res := p + 256 * k, data := [k, getF s (fLANSTAT_SPARES p), 0, 0] }

/-- No spare is left: the lane of laser `k` is hedged and the laser goes dark (R557). -/
def loseLaser (s : State) (p k : Nat) : State :=
  let s := lanEvent s (fLANEVT_REPL p) (fLANEVT_REPLCNT p)
  let s := hedgeLaserLane (recordUsage s p 0 false) p k
  setF (setF s (fLASER_BIAS p k) 0) (fLASER_POWER p k) 0

/-- The first unused spare of a lantern (R557). -/
def nextSpare (s : State) (p : Nat) : Option Nat := (List.range 18).find? (fun j => getF s (fLASER_STATE p j) == 0)

/-- What takes the place of laser `k`: the spare given, if there is one. -/
def replaceLaser (s : State) (p k : Nat) : Option Nat → State
  | some j => startSpare s p k j
  | none => loseLaser s p k

/-- A laser is retired: a spare is enabled, or its lane is hedged (R557). -/
def retire (s : State) (p k : Nat) : State :=
  let s := logLan (setF s (fLASER_STATE p k) 3) p 3 k (getF s (fLASER_BIAS p k)) false
  replaceLaser s p k (nextSpare s p)

/-- One second of laser `k`: its 60-second mean as a percentage of BINIT warns or retires it.  A lantern with BINIT 0 has
a ratio that the spec leaves open, so it is free. -/
def wearCheck (p : Nat) (s : State) (k : Nat) : State :=
  let x := getLan s p
  let push := fun (i : Nat) => ((amGet (fun _ => 0) x.sums i) :: amGet (fun _ => ([] : List Nat)) x.means i).take 60
  let sums := push k
  let cnts := push (32 + k)
  let s := modLan s p (fun x => { x with
    means := amSet (fun _ => []) (amSet (fun _ => []) x.means k sums) (32 + k) cnts,
    sums := amSet (fun _ => 0) (amSet (fun _ => 0) x.sums k 0) (32 + k) 0 })
  let n := cnts.sum
  if n = 0 then s
  else
    let avg := sums.sum / n % 65536
    let r := if binit x.mem k = 0 then (let q := drawBytes 2 s; (q.1, leVal q.2)) else (s, avg * 100 / binit x.mem k % 65536)
    let s := setF r.1 (fLASER_RATIO p k) (min r.2 255)
    let s := if 130 ≤ r.2 ∧ getF s (fLASER_STATE p k) = 1 then
        let s := lanEvent (setF s (fLASER_STATE p k) 2) (fLANEVT_WEAR p) (fLANEVT_WEARCNT p)
        recordUsage (logLan s p 2 k (getF s (fLASER_BIAS p k)) false) p 0 false
      else s
    if (150 ≤ r.2 ∨ 1000 ≤ amGet (fun _ => 0) x.capped k) ∧ x.retiring = none then retire s p k else s

/-- Every 1 s (R555, R556). -/
def execLaserWearCheck (p : Fin 8) (s : State) : Host.Outcome State Fault Refusal :=
  whenAwake s (if getF s (fLANSTAT_STATE p.val) ≠ 4 then s
    else every (evWear p.val) 100000000 (fun s => progress (forEach (List.range 18) (fun s k =>
      if laserInService s p.val k then wearCheck p.val s k else s) s)) s)

/-- The spare has settled: the lanes that change their laser move, the highest first. -/
def execSpareSettled (p : Fin 8) (s : State) : Host.Outcome State Fault Refusal :=
  whenAwake s (match (getLan s p.val).settling with
    | none => s
    | some _ => modLan s p.val (fun x => { x with
        settling := none,
        moves := ((List.range 16).filter (fun l => (laserOfLane s p.val l).any (fun k => txLaser s p.val l != k))).reverse }))

/-- Once the last lane has moved and is back, the retired laser goes dark (R557). -/
def endMoves (s : State) (p : Nat) : State :=
  let x := getLan s p
  match x.retiring, x.settling, x.moves, (getPort s p).testing with
  | some k, none, [], [] =>
    let s := setF (setF (modLan s p (fun x => { x with retiring := none })) (fLASER_BIAS p k) 0) (fLASER_POWER p k) 0
    let s := lanEvent s (fLANEVT_SWITCH p) (fLANEVT_SWCNT p)
    let s := lanEvent s (fLANEVT_REPL p) (fLANEVT_REPLCNT p)
    logLan s p 4 k 0 false
  | _, _, _, _ => s

/-- Lane `l` leaves the stripe, if it is in it, and takes laser `k`; the peer is told, and the change logged (R531). -/
def moveLane (s : State) (p l k : Nat) : State :=
  let up := portUp s p
  let s := if up && laneOn s p l then
      modPort (sendLane s p l false) p (fun x => { x with testing := x.testing ++ [l] })
    else s
  let s := if up || (getPort s p).quick then logLink (sendCtl s p 3 (leBytes 1 l ++ leBytes 1 k)) p 6 0 0 0 else s
  watchLanes (setLaneLaser p s l k) p

/-- One lane moves to its new laser, once the lane before it is back (R531, R557). -/
def execLaneMove (p : Fin 8) (s : State) : Host.Outcome State Fault Refusal :=
  whenAwake s (
    let p := p.val
    match (getLan s p).moves with
    | [] => endMoves s p
    | l :: rest =>
      if !((getPort s p).testing.isEmpty) then s
      else
        let s := modLan s p (fun x => { x with moves := rest })
        endMoves (match laserOfLane s p l with
          | some k => moveLane s p l k
          | none => s) p)

/-- The retuning and the test of a lane out of the stripe end (R514, R531, R532): `errs` are its bit errors in 4 × 10^8 bits, and `lock`
is how its rings lock again, none where one of them does not within 10 ms.  A lane that does not pass is hedged. -/
def execLaneTestDone (p : Fin 8) (lane : Fin 16) (errs : Nat) (lock : Option RingLock) (s : State) : Host.Outcome State Fault Refusal :=
  whenAwake s (
    let p := p.val
    let l := lane.val
    if !((getPort s p).testing.contains l) then s
    else
      let s := modPort s p (fun x => { x with testing := x.testing.filter (fun y => y != l) })
      let s := match lock with
        | some k =>
          if errs ≤ 4000 then
            let s := setLock p s l k
            if portUp s p && !(laneHedged s p l) then sendLane s p l true else s
          else applyHedge s 7 (p + 8 * l)
        | none => applyHedge s 7 (p + 8 * l)
      endMoves (watchLanes s p) p)

/-- Once per powered hour the record is written (R552). -/
def execUsageRecordWrite (p : Fin 8) (s : State) : Host.Outcome State Fault Refusal :=
  whenAwake s (if isSet s (fLANSTAT_PRESENT p.val) && getF s (fLANSTAT_STATE p.val) != 2 && decide (0 < hoursDue s p.val) then
      recordUsage s p.val (hoursDue s p.val) false
    else s)

/-! ### The end of a probe, and repairs (R599, R602) -/

/-- Spare `j` of a lantern that is off serves in the place of laser `k`. -/
def serveSpare (s : State) (p k j : Nat) : State :=
  let s := recordUsage (setF s (fLASER_STATE p j) 1) p 0 false
  let s := lanEvent s (fLANEVT_SWITCH p) (fLANEVT_SWCNT p)
  logLan (logSpare s 5 9 (p + 256 * k) k (getF s (fLANSTAT_SPARES p))) p 4 k 0 false

/-- What serves in the place of laser `k`: the spare given, if there is one. -/
def serveFor (s : State) (p k : Nat) (j : Option Nat) : State :=
  match j with
  | some j => serveSpare s p k j
  | none => s

/-- A laser of a lantern that is off is retired, and a spare serves in its place from the next warm-up on (R557). -/
def swapLaser (p : Nat) (s : State) (k : Nat) : State :=
  let s := logLan (setF s (fLASER_STATE p k) 3) p 3 k (getF s (fLASER_BIAS p k)) false
  let s := lanEvent s (fLANEVT_REPL p) (fLANEVT_REPLCNT p)
  serveFor s p k (nextSpare s p)

/-- The rings of a lane lock again (R514, R602): the heater powers and the set point that the Lodge finds are free. -/
def relock (s : State) (p l : Nat) : State :=
  let r := drawBytes 8 s
  let v := fun (i : Nat) => leVal ((r.2.drop (2 * i)).take 2)
  setLock p r.1 l ⟨(v 0 : Int), if v 1 % 2 = 0 then 1 else -1, v 2 % 20001, v 3 % 20001⟩

/-- Repair of a link lane: where the probe found its laser failing, the laser is retired and a spare takes its place, if one is left
and no other retirement runs (assumption 49): at once where the lantern is lit, else from its next warm-up on; otherwise the lane's
rings lock again, or not. -/
def repairLane (s : State) (key : Nat) (lasers : List Nat) (cures : Bool) : Option State :=
  let p := key % 8
  let l := bitsOf key 6 3
  if lasers.isEmpty || decide (128 ≤ key) then (if cures then some (relock s p l) else none)
  else if (nextSpare s p).isSome && (getLan s p).retiring.isNone then
    some (if mayEmit s p && getF s (fLANSTAT_STATE p) == 4 then retire s p (txLaser s p l) else swapLaser p s (txLaser s p l))
  else none

/-- Repair of a port (R602): its hedged lanes, or those that the probe found, are repaired and return; the full retrain follows. -/
def repairPort (s : State) (p : Nat) (lanes : List Nat) (cures : Bool) : Option State :=
  if !cures then none
  else
    let s := forEach (s.hedges.filter (fun h => h.cls == 7 && h.res % 8 == p && (lanes.isEmpty || lanes.contains (bitsOf h.res 6 3)))) (fun s h =>
      unhedge (relock s p (bitsOf h.res 6 3)) h) s
    some (if portState s p = 6 then fullRetrain s p else s)

/-- Repair of a lantern: spare wavelengths in place of the lasers that fail, if there are as many. -/
def repairLantern (s : State) (p : Nat) (lasers : List Nat) : Option State :=
  let ks := lasers.eraseDups.filter (laserInService s p)
  if ks.isEmpty || decide (((List.range 18).filter (fun j => getF s (fLASER_STATE p j) == 0)).length < ks.length) then none
  else some (forEach ks (swapLaser p) s)

/-- The laser that the hedge of a lantern names, if it names one (R588). -/
def laserNamed (h : Hedge) : List Nat := if bitsOf h.res 12 8 < 18 then [bitsOf h.res 12 8] else []

/-- Whether and how a lasting fault is repaired (R602); `rows` are the rows, the lanes or the lasers that fail, and `cures` says whether a
repair that the module cannot see through, of a port, a ring or a die link, succeeds. -/
def repair (s : State) (h : Hedge) (rows : List Nat) (cures : Bool) : Option State :=
  match h.cls with
  | 1 => repairCore s h.res rows
  | 2 => repairParts 256 (fun s i r => repairCore s (8 * h.res + i) r) s rows
  | 3 => repairBank s h.res rows
  | 4 => repairParts 8192 (fun s i r => repairBank s (16 * h.res + i) r) s rows
  | 5 => repairRows s h.res rows
  | 6 => if rows.isEmpty then (if cures then some s else none) else repairStack s h.res rows
  | 7 => repairLane s h.res rows cures
  | 8 => repairPort s h.res rows cures
  | 9 => repairLantern s (h.res % 8) (if rows.isEmpty then laserNamed h else rows)
  | 10 => none
  | 11 => none
  | _ => if cures then some s else none

/-- Whether a probe has passed: a port's has where the port has reached ACTIVE too (R598). -/
def probePasses (s : State) (h : Hedge) (pass : Bool) : Bool := pass && (h.cls != 8 || portState s h.res == 6)

/-- A probe ends (R599): `found` are the rows or lasers that it found failing. -/
def probeDone (s : State) (h : Hedge) (passed : Bool) (found : List Nat) (cures : Bool) : State :=
  let pass := probePasses s h passed
  let endHedgeCmd := fun (s : State) (action result : Nat) => endHedgeCmd s action result h.cls (keyRes h.cls h.res)
  let us := (tick s - h.since) / 100
  let n := transientsOf s h.cls h.res
  let s := bump (putHedge s { h with probing := false }) fPROBECNT_RUN 1
  let lasts := fun (s : State) => bump (bump s fPROBECNT_LASTING 1) (fHEDGECNT_LASTING h.cls) 1
  if h.cmd = 3 then
    if pass then endHedgeCmd (logProbe (unhedge s h) h 1 us n found.length 8) 3 1
    else endHedgeCmd (logProbe (showProbing (putHedge (lasts s) { h with probing := false, lasting := true, cmd := 0 })) h 3 us n found.length 2) 3 2
  else if pass && decide (n + 1 < probeCount s) then
    let s := { s with transients := s.transients ++ [⟨h.cls, h.res, powered s, h.rows⟩] }
    endHedgeCmd (logProbe (unhedge s h) h 1 us n 0 8) h.cmd 1
  else
    let rows := if pass then (transientRows s h.cls h.res ++ h.rows).eraseDups else found
    match repair s h rows cures with
    | some s' =>
      let s' := { s' with transients := s'.transients.filter (fun t => !(t.cls == h.cls && t.res == h.res)) }
      let s' := bump (lasts s') (fHEDGECNT_REPAIRS h.cls) 1
      endHedgeCmd (logProbe (unhedge s' h) h 2 us n rows.length 14) h.cmd 1
    | none =>
      let s' := showProbing (putHedge (lasts s) { h with probing := false, lasting := true, cmd := 0 })
      let s' := logProbe s' h 3 us n rows.length 2
      let s' := if h.cls = 3 then hedgeOne s' 4 (h.res / 16) false 0 else if h.cls = 8 then portDown s' h.res 7 else s'
      endHedgeCmd s' h.cmd 2

def execProbeDone (cls res : Nat) (pass : Bool) (found : List Nat) (cures : Bool) (s : State) : Host.Outcome State Fault Refusal :=
  whenAwake s (progress (match hedgeOf s cls (hedgeKey cls res) with
    | none => s
    | some h => if h.probing then probeDone s h pass found cures else s))

end Sys2Proof.Machine
end

