-- ==== Sys2Proof/Machine/Orangery.lean ====
section
/-! DEFINITION. The Orangery's own events (spec/07 R256 to R269, R273 to R278, R287): sub-bank grants, promenade hops, scrubbing
and write-backs, metadata writes of the host, and readiness. -/

namespace Sys2Proof.Machine

open Sys2Proof

/-! ### Sub-bank grants (R256 to R259) -/

/-- The requests at a sub-bank that no earlier request of the same agent to the same sector holds back (R258), oldest
first. -/
def eligible (sl sub : Nat) : List BankReq → List BankReq → List BankReq
  | _, [] => []
  | seen, b :: bs =>
    if b.slice = sl ∧ b.sub = sub ∧ seen.all (fun a => !(a.agent == b.agent && a.addr / 32 == b.addr / 32 && a.slice == sl && a.sub == sub)) = true
    then b :: eligible sl sub (b :: seen) bs
    else eligible sl sub (b :: seen) bs

/-- What waits for an access of a sub-bank: a full/empty access, or the next turn of a share's transfer. -/
inductive BankWant where
  | fe (b : BankReq)
  | xfer (cls agent op core : Nat)
deriving DecidableEq, Repr

def BankWant.cls : BankWant → Nat
  | .fe b => b.cls
  | .xfer c _ _ _ => c
def BankWant.agent : BankWant → Nat
  | .fe b => b.agent
  | .xfer _ a _ _ => a

/-- The turns of transfers that want sub-bank `key` and that every sub-bank they need could serve now, in the order of their issue. -/
def turnsAt (s : State) (key : Nat) : List BankWant :=
  s.ops.flatMap (fun o => o.2.shares.filterMap (fun x =>
    match turnOf s o.1 o.2 x with
    | none => none
    | some (p, _) =>
      let subs := subsOf p.1 p.2.2 ++ subsOf p.2.1 p.2.2
      let a := xferAgent s o.2 x
      if subs.contains key && subs.all (subFree s) && !(outranked s o.2.cls a (2 * o.1) subs) then some (.xfer o.2.cls a o.1 x.core)
      else none))

/-- The grant: the highest class, then the agents in turn from `rr`, then the oldest (R257).  The agents take turns in the order
promenade, stack, handler unit, own pavilion: R257 names no order (assumption 95). -/
def grantBank (rr : Nat) (l : List BankWant) : Option BankWant :=
  let best := l.foldl (fun m b => min m b.cls) 4
  let top := l.filter (fun b => b.cls == best)
  (List.range 4).findSome? (fun i => top.find? (fun b => b.agent == (rr + i) % 4))

def removeFirst (b : BankReq) : List BankReq → List BankReq
  | [] => []
  | x :: xs => if x = b then xs else x :: removeFirst b xs

/-- Whether a dynamic access waits for sub-bank `sub` of slice `sl`: of a full/empty macro-op, or of a transfer. -/
def bankWanted (s : State) (sl sub : Nat) : Bool :=
  s.bankq.any (fun b => b.slice == sl && b.sub == sub) || (readyXfers s).any (fun x => x.2.2.2.contains (128 * sl + sub))

/-- `d` cycles pass at slice `sl`: the static macro-ops of its stream do what they do in them, as far as no macro-op is to issue. -/
def passCycles (s : State) (sl d : Nat) : State :=
  let k := streamOfCore s sl
  let t := getStr s k
  let s := { s with bankClock := amSet (fun _ => 0) s.bankClock sl (amGet (fun _ => 0) s.bankClock sl + d) }
  match t.st with
  | .running => runTo k (min (t.now + d) (t.nextSlot - 1)) s
  | .ending => runTo k (t.now + d) s
  | _ => s

/-- One dynamic access of a sub-bank, `d` cycles after the last one that the command named at this slice.  The static accesses of the
cycle come first, and together they are at most two (R252, R256); what waits is granted by class, then by agent in turn (R257), a
transfer sector by sector (R258). -/
def execDynamicSubBankGrant (sl : Fin 64) (sub : Fin 128) (d : Nat) (s : State) : Host.Outcome State Fault Refusal :=
  whenOn s (
    let key := 128 * sl.val + sub.val
    let s := passCycles s sl.val d
    if !(subFree s key) then s
    else match grantBank (amGet (fun _ => 0) s.bankRR key) ((eligible sl.val sub.val [] s.bankq).map .fe ++ turnsAt s key) with
      | none => s
      | some w =>
        let s := { s with bankRR := amSet (fun _ => 0) s.bankRR key ((w.agent + 1) % 4) }
        match w with
        | .fe b => progress (feAccess (useSub { s with bankq := removeFirst b s.bankq } key) b.addr b.dest b.key b.acc)
        | .xfer _ _ op core => progress (performTurn s op core))

/-! ### The promenade (R260 to R269, R287) -/

/-- The router that a link direction leaves and the one that it reaches. -/
def linkEnds (l : Nat) : Nat × Nat :=
  if l < 56 then (8 * (l / 7) + l % 7, 8 * (l / 7) + l % 7 + 1)
  else if l < 112 then (8 * ((l - 56) / 7) + (l - 56) % 7 + 1, 8 * ((l - 56) / 7) + (l - 56) % 7)
  else if l < 168 then (8 * ((l - 112) % 7) + (l - 112) / 7, 8 * ((l - 112) % 7 + 1) + (l - 112) / 7)
  else (8 * ((l - 168) % 7 + 1) + (l - 168) / 7, 8 * ((l - 168) % 7) + (l - 168) / 7)

/-- The link direction by which a packet at router `r` goes on to router `d`: its row first (R262). -/
def nextLink (r d : Nat) : Nat :=
  let x := r % 8
  let y := r / 8
  if x < d % 8 then 7 * y + x
  else if d % 8 < x then 56 + 7 * y + (x - 1)
  else if y < d / 8 then 112 + 7 * x + y
  else 168 + 7 * x + (y - 1)

/-- The input of the next router: 1 east, 2 west, 3 south, 4 north. -/
def inputOf (l : Nat) : Nat := if l < 56 then 2 else if l < 112 then 1 else if l < 168 then 4 else 3

/-- The output that a packet takes next: a link direction, or at its destination one of that router's own ports: 224 + 4 r
for the slice of router r, and 1, 2 and 3 more for its stacks and the spine (R261). -/
def nextOut (p : PromPkt) : Nat :=
  if p.at_ = p.dst then 224 + 4 * p.dst + (if p.out = 0 then 0 else p.out - 4) else nextLink p.at_ p.dst

/-- The packets at the heads of their virtual channels: the oldest of each router, input and class.  That one behind a head which
cannot advance waits too, wherever it goes, is the model's reading of a virtual channel (R263, R268; assumption 95). -/
def vcHeads : List PromPkt → List PromPkt → List PromPkt
  | _, [] => []
  | seen, p :: ps =>
    if seen.all (fun q => !(q.at_ == p.at_ && q.inp == p.inp && q.cls == p.cls)) then p :: vcHeads (p :: seen) ps
    else vcHeads seen ps

/-- Whether the input of a packet may still send in cycle `c`: one of a router's own ports sends one packet a cycle (R261). -/
def inputFree (s : State) (c : Nat) (p : PromPkt) : Bool :=
  !(p.inp == 0 || decide (5 ≤ p.inp)) || amGet (fun _ => 0) s.inAt (8 * p.at_ + p.inp) != c + 1

/-- The heads that wait for output `o`, once they can leave in cycle `c` (R263). -/
def headsFor (s : State) (o c : Nat) : List PromPkt :=
  (vcHeads [] s.packets).filter (fun p => nextOut p == o && decide (p.ready ≤ c))

/-- Whether a packet can go to output `o`: a link direction has credit while the virtual channel of its class at the next router
has room (R263). -/
def hasCredit (s : State) (o : Nat) (p : PromPkt) : Bool :=
  decide (224 ≤ o) ||
  decide ((s.packets.filter (fun q => q.at_ == (linkEnds o).2 && q.inp == inputOf o && q.cls == p.cls)).length < Config.promDepth + 1)

/-- The packet that an input takes next in turn from `rr`.  The inputs take turns in the order slice, east, west, south, north,
stacks, spine: R268 names no order (assumption 95). -/
def inTurn (rr : Nat) (l : List PromPkt) : Option PromPkt := (List.range 8).findSome? (fun i => l.find? (fun p => p.inp == (rr + i) % 8))

/-- Move the first packet equal to `p` to output `o` in cycle `c`; at its destination's own port it is delivered. -/
def movePkt (o c : Nat) (p : PromPkt) : List PromPkt → List PromPkt
  | [] => []
  | q :: qs =>
    if q = p then (if 224 ≤ o then qs else qs ++ [{ q with at_ := (linkEnds o).2, inp := inputOf o, ready := c + 2 }])
    else q :: movePkt o c p qs

/-- Count the cycles of a link direction, up to cycle `c`, in which a packet that could leave lost or waited (R287): those since the
last one seen in which nothing left, while `n` packets wait, and the present one if `lost` of them stay. -/
def countStalls (s : State) (o c n lost : Nat) : State :=
  let last := amGet (fun _ => 0) s.stallAt o
  let skipped := if last = 0 ∨ n = 0 then 0 else c - last
  let now := if last = c + 1 ∨ lost = 0 then 0 else 1
  let s := if 224 ≤ o then s else bump s (fORG_LSTALL_CYCLES o) (skipped + now)
  { s with stallAt := amSet (fun _ => 0) s.stallAt o (if lost = 0 then 0 else c + 1) }

/-- An output of a router in the store-die cycle that comes `cycles` after the last one: a reserved slot of a link direction
carries only packets that its owner sent under its plan, any other takes the highest class (R264, R265, R266, R268, R269).  An output
carries one packet a cycle (R260). -/
def packetHop (o cycles : Nat) (s : State) : State :=
  let s := { s with frame := s.frame + cycles }
  let slot := s.frame % 16
  let hs := headsFor s o s.frame
  let rr := amGet (fun _ => 0) s.hopRR o
  let reserved := decide (o < 224) && getBit s (fORG_PLANMASK_MASK o) slot
  let owner := bitsOf (getF s (fORG_PLANOWN_OWNER o)) (4 * slot + 3) (4 * slot)
  let able := hs.filter (fun p => hasCredit s o p && inputFree s s.frame p)
  let cands :=
    if reserved then able.filter (fun p => p.own && p.stream == owner)
    else
      let best := able.foldl (fun m p => min m p.cls) 4
      able.filter (fun p => p.cls == best)
  if amGet (fun _ => 0) s.outAt o = s.frame + 1 then s
  else
    let s := if reserved && decide (2 ≤ cands.length) then bump s fORG_OVRCNT_COUNT 1 else s
    let s := countStalls s o s.frame hs.length (hs.length - (if cands.isEmpty then 0 else 1))
    match inTurn rr cands with
    | none => s
    | some p => { s with
        packets := movePkt o s.frame p s.packets,
        hopRR := amSet (fun _ => 0) s.hopRR o ((p.inp + 1) % 8),
        inAt := amSet (fun _ => 0) s.inAt (8 * p.at_ + p.inp) (s.frame + 1),
        outAt := amSet (fun _ => 0) s.outAt o (s.frame + 1) }

/-- The store-die cycle count starts anew, and the packets that wait keep the cycles that they still have to wait (R264). -/
def restartFrame (s : State) : State :=
  { s with frame := 0, outAt := [], inAt := [], stallAt := [], packets := s.packets.map (fun p => { p with ready := p.ready - s.frame }) }

/-! ### Scrubbing (R273, R274, R276) -/

/-- The sectors of a slice. -/
def sliceSectors : Nat := 786432

/-- Bits of a word are upset, uncorrectably where `bad` is set: what is then read of it is free (R274; assumption 4), while one wrong
bit is corrected at every read (R273). -/
def upsetWord (s : State) (w : Nat) (bad : Bool) : State :=
  let t := if bad then (let r := drawBytes 8 s; orgWrite r.1 w r.2) else s
  { t with orgErr := amSet (fun _ => 0) t.orgErr w (if bad then 2 else max 1 (amGet (fun _ => 0) t.orgErr w)) }

/-- Bits of words of slice `sl` are upset: word i of it lies at offset 8 i. -/
def upsetWords (s : State) (sl : Nat) (errs : List (Nat × Bool)) : State :=
  errs.foldl (fun s e => upsetWord s (orgAddr sl (8 * (e.1 % (sliceBytes / 8)))) e.2) s

/-- Whether a scrub interval of `n` ticks has passed since the last scrub read of a unit. -/
def scrubDue (s : State) (unit : Nat) (passed : Nat → Bool) : Bool :=
  let last := lastOf s (evScrub unit)
  last == 0 || passed (tick s + 1 - last)

/-- Bits of words of a slice, the numbers of `errs`, have been upset, uncorrectably where the mark is set; then the scrubber of the
slice reads its next sector, once its interval has passed, and where no other request and no static access wants the access
(R257, R276). -/
def execScrubRead (sl : Fin 64) (errs : List (Nat × Bool)) (s : State) : Host.Outcome State Fault Refusal :=
  whenOn s (
    let s := upsetWords s sl.val errs
    let sec := amGet (fun _ => 0) s.scrubAt sl.val
    let iv := max 1 (getF s fORG_SCRUBCTL_INTERVAL)
    let key := 128 * sl.val + sec % 128
    if !(isSet s fORG_SCRUBCTL_EN) || !(scrubDue s sl.val (fun n => decide (iv ≤ cyclesSince s (tick s - n)))) ||
      bankWanted s sl.val (sec % 128) || !(subFree s key) then s
    else
      let s := noteAt { s with scrubAt := amSet (fun _ => 0) s.scrubAt sl.val ((sec + 1) % sliceSectors) } (evScrub sl.val)
      noteRead (useSub s key) (orgAddr sl.val (32 * sec)) 32 1)

/-- A slice writes back a corrected word in an access that nothing else wants (R273). -/
def execCorrectedWriteback (sl : Fin 64) (s : State) : Host.Outcome State Fault Refusal :=
  whenOn s (match s.orgWb.find? (fun a => orgSlice a == sl.val) with
    | none => s
    | some a =>
      let sub := orgOff a / 32 % 128
      let key := 128 * sl.val + sub
      if bankWanted s sl.val sub || !(subFree s key) then s
      else
        let s := { useSub s key with orgWb := s.orgWb.filter (fun b => b != a) }
        if orgErrAt s a = 1 then mendWord s a else s)

/-! ### Metadata writes (R278) -/

/-- A host access that reached an unassigned address, or a slice that is not ready (R277). -/
def noteHole (s : State) : State := bump (setF s fORG_HOLESTAT_HOLE 1) fORG_HOLESTAT_HOLECNT 1
def noteNotReady (s : State) : State := bump (setF s fORG_HOLESTAT_NRDY 1) fORG_HOLESTAT_NRDYCNT 1

/-- A write of MDVAL sets the metadata of the word that MDADDR names. -/
def writeMdval (s : State) (v : Nat) : State :=
  let a := getF s fORG_MDADDR_ADDR * 8
  if !(orgAssigned a) then noteHole s
  else if bankHedged s a then s
  else progress (if bitOf v 1 then poisonWord s a else markWord s a (if bitOf v 0 then .full else .empty))

def execMdvalWrite (v : BitVec 64) (s : State) : Host.Outcome State Fault Refusal := whenServed s (writeMdval s v.toNat)

/-! ### Readiness (R277, R615) -/

/-- A slice has tested and zeroed its banks. -/
def execSliceReady (sl : Fin 64) (s : State) : Host.Outcome State Fault Refusal :=
  whenOn s (
    if getBit s fORG_ORGREADY_READY sl.val || hedgedAt s 4 sl.val then s
    else
      orgReadyCheck (setBit (zeroBanks s (fun a => orgSlice a == sl.val)) fORG_ORGREADY_READY sl.val true))

end Sys2Proof.Machine
end

