-- ==== Sys2Proof/Machine/Slath.lean ====
section
/-! DEFINITION. Slath operations (spec/08 R297, R304 to R328, R334; spec/05 R188 to R190): requests and their checks, operands and
cache page tables, work units, and results. -/

namespace Sys2Proof.Machine

open Sys2Proof

/-! ### Sub-requests (R305, R306, R314) -/

def readSub (b : List Byte) : SubReq :=
  let at_ := fun (o n : Nat) => leVal ((b.drop o).take n)
  { op := at_ 0 1, fmt := at_ 1 1, nv := at_ 2 1, ctl := at_ 3 1, eref := sext 16 (at_ 4 2), seq := at_ 6 2,
    daddr := at_ 8 8, vm := at_ 16 8, ve := at_ 24 8, cnt0 := at_ 32 4, cnt1 := at_ 36 4, pitch := at_ 40 4,
    epitch := at_ 44 4, layer := at_ 48 2, kvh := at_ 50 2, ksel := at_ 52 4, t0 := at_ 56 4, t1 := at_ 60 4 }

def ceilDiv (n m : Nat) : Nat := (n + m - 1) / m

def SubReq.matrix (r : SubReq) : Bool := r.op == 1 || r.op == 4 || r.op == 5
def SubReq.attn (r : SubReq) : Bool := r.op == 2 || r.op == 3
def SubReq.rowsOp (r : SubReq) : Bool := r.op == 7 || r.op == 8
def SubReq.planes (r : SubReq) : Nat := planesOf r.fmt
def SubReq.kt (r : SubReq) : Nat := ceilDiv r.cnt0 128
def SubReq.nt (r : SubReq) : Nat := ceilDiv r.cnt1 (128 * r.planes)
def SubReq.imageSize (r : SubReq) : Nat := 16384 + 512 * r.planes
def SubReq.np (r : SubReq) : Nat := roundUp r.cnt1 8
def SubReq.tp (r : SubReq) : Nat := roundUp r.t1 8
def SubReq.topk (r : SubReq) : Bool := (r.op == 4 || r.op == 5) && bitOf r.ctl 0

/-- The fields that an operation does not name are 0 (R314). -/
def unusedZero (r : SubReq) : Bool :=
  let z := fun (c : Bool) (v : Nat) => c || v == 0
  let uNv := r.matrix || r.attn
  z uNv r.nv && (uNv || r.eref == 0) && z (r.op == 1) r.fmt && z r.attn r.seq && z r.attn r.layer && z r.attn r.kvh &&
  z r.attn r.t1 && z (r.attn || r.op == 4 || r.op == 5 || r.op == 6) r.t0 && z (r.op == 4 || r.op == 5 || r.op == 6) r.ksel &&
  z (r.op == 4 || r.op == 5 || r.op == 6) r.ctl && z (!r.attn) r.daddr && z (!r.attn) r.cnt0 && z (r.matrix || r.rowsOp) r.cnt1 &&
  z (uNv || r.rowsOp) r.vm && z (uNv || r.op == 8) r.ve && z (uNv || r.rowsOp) r.pitch && z uNv r.epitch

/-- Whether every field lies within its range. -/
def rangesOk (r : SubReq) : Bool :=
  let btw := fun (a v b : Nat) => decide (a ≤ v) && decide (v ≤ b)
  unusedZero r && decide (r.fmt ≤ 2) && decide (r.ctl < 4) && decide (r.seq < 1024) &&
  decide (r.daddr < 2 ^ 52) && decide (r.vm < 2 ^ 52) && decide (r.ve < 2 ^ 52) &&
  (!(r.matrix || r.attn) || btw 1 r.nv 8) &&
  (!r.matrix || btw 1 r.cnt0 65536 && btw 1 r.cnt1 65536) &&
  (!(r.op == 4 || r.op == 5) || (if bitOf r.ctl 0 then btw 1 r.ksel 1024 else r.ksel == 0 && !(bitOf r.ctl 1))) &&
  (!r.attn || btw 1 r.t1 65536) &&
  (!(r.op == 6 || r.op == 9) || btw 1 r.cnt0 16777216) &&
  (!(r.op == 6) || btw 1 r.ksel 1024) &&
  (!r.rowsOp || btw 1 r.cnt0 65536 && btw 32 r.cnt1 65536 && r.cnt1 % 32 == 0)

/-- The alignments of R307, R314 and R315. -/
def alignOk (r : SubReq) : Bool :=
  r.vm % 32 == 0 && r.pitch % 32 == 0 && r.ve % 4 == 0 && r.epitch % 4 == 0 && r.daddr % (if r.matrix then 4096 else 32) == 0

/-- The Orangery ranges of a sub-request's operands; `dk` is the key width, and where it is 0, not known yet, the ranges are the
least that a key width gives. -/
def operandRanges (r : SubReq) (dk : Nat) : List (Nat × Nat) :=
  let vecs := fun (m e : Nat) => (List.range r.nv).flatMap (fun v => [(r.vm + v * r.pitch, m), (r.ve + v * r.epitch, e)])
  if r.matrix then vecs (128 * r.kt) (4 * r.kt)
  else match r.op with
    | 2 => if dk = 0 then vecs 128 4 else vecs dk (dk / 32)
    | 3 => vecs (ceilDiv r.t1 128 * 128) (ceilDiv r.t1 32)
    | 7 => [(r.vm, 4 * r.cnt0)]
    | 8 => [(r.vm, 4 * r.cnt0), (r.ve, r.cnt0 * r.cnt1)]
    | _ => []

def operandsOwned (s : State) (ctx : Nat) (r : SubReq) (dk : Nat) : Bool :=
  (operandRanges r dk).all (fun p => spaceOf p.1 == 0 && orgOwned s ctx p.1 p.2)

/-- The cause of R310 that needs no page table: 0 for none. -/
def firstCheck (s : State) (ctx : Nat) (r : SubReq) : Nat :=
  if r.op < 1 ∨ 9 < r.op then 1
  else if !(rangesOk r) then 2
  else if !(alignOk r) then 3
  else if (!r.attn && !(spaceOf r.daddr == 1 || (spaceOf r.daddr == 2 && hasPriv s ctx))) || !(operandsOwned s ctx r 0) then 8
  else if r.attn && !(isSet s (fSEQA_OPEN r.seq) && getF s (fSEQA_CTX r.seq) == ctx) then 5
  else 0

/-! ### Ranges (R297, R312, R315, R319) -/

/-- The pieces of bytes `x0` to `x0 + n − 1` of a stack-strided range, none crossing a granule. -/
def stridedPieces (base x0 n : Nat) : List (Nat × Nat) :=
  (cutAt 4096 (n / 4096 + 2) x0 n).map (fun c =>
    (if spaceOf base = 1 then base + c.1 / 4096 * 131072 + c.1 % 4096 else base + c.1, c.2))

/-- The start of column tile `j` of a slath matrix. -/
def tileBase (d j : Nat) : Nat :=
  if spaceOf d = 2 then putBits d 40 36 ((bitsOf d 40 36 + j) % 32) else putBits d 16 12 ((bitsOf d 16 12 + j) % 32)

/-- The rows of GATHER and SCATTER: the address of each, from its index list. -/
def rowAddr (r : SubReq) (list : List Byte) (i : Nat) : Nat := r.daddr + leVal ((list.drop (4 * i)).take 4) * r.pitch

/-- The blocks that a token range needs. -/
def blockRange (r : SubReq) : List Nat := rangeFrom (r.t0 / 128) ((r.t0 + r.t1 - 1) / 128 + 1 - r.t0 / 128)

/-- The work units of a sub-request, each as the pieces that it translates (R312). -/
def unitPieces (x : SubRun) : List (List (Nat × Nat)) :=
  let r := x.r
  if r.matrix then
    (List.range r.nt).flatMap (fun j => (List.range r.kt).map (fun i =>
      stridedPieces (tileBase r.daddr j) ((j / 32 * r.kt + i) * r.imageSize) r.imageSize))
  else if r.attn then x.blocks.map (fun va => stridedPieces (2 ^ 48 + va) 0 (132 * (x.dk + x.dv)))
  else if r.rowsOp then
    (List.range r.cnt0).flatMap (fun i => (cutAt 4096 (r.cnt1 / 4096 + 2) (rowAddr r x.list i) r.cnt1).map (fun c => [c]))
  else (cutAt 4096 (4 * r.cnt0 / 4096 + 2) r.daddr (4 * r.cnt0)).map (fun c => [c])

/-- The groups of units whose pieces must lie in one stack: each column tile, each block. -/
def stackGroups (x : SubRun) : List (List (Nat × Nat)) :=
  if x.r.matrix then (chunk x.r.kt x.r.nt (unitPieces x)).map List.flatten
  else if x.r.attn then unitPieces x
  else []

/-- The space that a failure of unit pieces names. -/
def operandSpace (x : SubRun) : Nat := if x.r.attn then 1 else spaceOf x.r.daddr

/-! ### Reading with a page table (R323) -/

/-- What a read or a translation of the request unit meets. -/
inductive Got where
  | bytes (b : List Byte)
  | fail (status : Nat)
  | waits
  | fault (base size va : Nat)
deriving DecidableEq, Repr

/-- An address past its space does not translate (R325), nor one of a page that the host has refused (R460). -/
def slaLocate (s : State) (ctx space a : Nat) (write : Bool) : State × Loc :=
  if spaceOf a ≠ space ∨ 2 ^ 52 ≤ a ∨ (space = 1 ∧ (tlbHit s.slaRefused ctx (inSpace a)).isSome = true) then (s, .bad 4)
  else locate s ctx a write true

/-- Read `n` bytes of a device address that lie in one granule. -/
def slaRead (s : State) (ctx space a n : Nat) : State × Got :=
  let l := slaLocate s ctx space a false
  match l.2 with
  | .fault b z va => (l.1, .fault b z va)
  | .dram d =>
    if dramWaits s d then (s, .waits)
    else
      let r := readLoc l.1 (some ctx) l.2 n 0
      (r.1, if r.2.2 = 0 then .bytes r.2.1 else .fail r.2.2)
  | .bad st => (l.1, .fail st)
  | .waits => (s, .waits)
  | _ => (l.1, .fail 4)

/-- Read Orangery operands; none where a word is uncorrectable. -/
def readOperands (s : State) (l : List (Nat × Nat)) : State × Option (List (List Byte)) :=
  l.foldl (fun (acc : State × Option (List (List Byte))) p =>
    let g := orgAccess acc.1 p.1 p.2
    (g.1, match acc.2 with
      | none => none
      | some out => if g.2 then none else some (out ++ [orgRead acc.1 p.1 p.2]))) (s, some [])

/-- Split operand bytes into the fields that hold them. -/
def withOperands (x : SubRun) (bs : List (List Byte)) : SubRun :=
  if x.r.rowsOp then { x with list := bs.getD 0 [], rows := bs.getD 1 [] }
  else { x with
    vms := (List.range x.r.nv).map (fun v => bs.getD (2 * v) []),
    ves := (List.range x.r.nv).map (fun v => bs.getD (2 * v + 1) []) }

/-! ### Steps 1 to 3 of R304 for one sub-request -/

/-- A sub-request that is checked, that must wait, or that meets a page that is not resident. -/
inductive SubOut where
  | done (x : SubRun)
  | waits (x : SubRun)
  | fault (x : SubRun) (base size va : Nat)
deriving DecidableEq, Repr

def SubRun.fresh (r : SubReq) : SubRun := ⟨r, 0, false, 0, 0, 0, [], [], [], [], [], 0, []⟩

/-- A reject is recorded and logged (R310). -/
def noteReject (s : State) (ctx cause : Nat) (body : List Byte) : State :=
  let s := setF (setF (bump (setF s fSLA_REJ_REJFLAG 1) fSLA_REJ_REJCNT 1) fSLA_REJ_CAUSE cause) fSLA_REJ_CTX ctx
  logPut s { LogEntry.blank with
    kind := 0x05, cause := cause, ctx := ctx, data := (List.range 4).map (fun i => leVal ((body.drop (8 * i)).take 8)) }

def rejected (s : State) (ctx cause : Nat) (body : List Byte) (x : SubRun) : State × SubOut :=
  (noteReject s ctx cause body, .done { x with rejected := true, status := 6 })

/-- Read the operands of a checked sub-request. -/
def takeOperands (s : State) (x : SubRun) : State × SubOut :=
  let g := readOperands s (operandRanges x.r x.dk)
  match g.2 with
  | some bs => (g.1, .done (withOperands x bs))
  | none => (g.1, .done { x with status := 1, space := 0 })

/-- The header of a cache page table as read: DK, DV, NB, layers, heads, tokens; none if it is malformed (R318). -/
def readHeader (b : List Byte) : Option (Nat × Nat × Nat × Nat × Nat × Nat) :=
  let at_ := fun (o n : Nat) => leVal ((b.drop o).take n)
  let tt := at_ 0 4
  let nl := at_ 4 2
  let nkv := at_ 6 1
  let dk := at_ 8 2
  let dv := at_ 10 2
  let nb := at_ 12 2
  let ok := fun (d : Nat) => decide (128 ≤ d) && decide (d ≤ 1024) && d % 128 == 0
  if tt ≤ 65536 ∧ 1 ≤ nl ∧ nl ≤ 256 ∧ 1 ≤ nkv ∧ nkv ≤ 16 ∧ at_ 7 1 = 0 ∧ ok dk = true ∧ ok dv = true ∧ 1 ≤ nb ∧ nb ≤ 512 ∧
      (b.drop 14).all (fun y => y == 0#8) = true then some (dk, dv, nb, nl, nkv, tt)
  else none

/-- Read the block entries of a token range: the block addresses, a cause of R310, or what the read met, with the addresses so
far.  R310 names no cause for an entry whose bits 11:0 are not 0: that it is 0x06 is the model's choice (assumption 110). -/
def readBlocks (ctx : Nat) (at_ : Nat → Nat) : List Nat → List Nat → State → State × (Except (Got × List Nat) (List Nat × Bool))
  | [], acc, s => (s, .ok (acc, true))
  | j :: js, acc, s =>
    let g := slaRead s ctx 1 (at_ j) 8
    match g.2 with
    | .bytes b =>
      let e := leVal b
      if bitOf e 63 && bitsOf e 62 48 == 0 && e % 4096 == 0 then readBlocks ctx at_ js (acc ++ [bitsOf e 47 0]) g.1
      else (g.1, .ok (acc, false))
    | o => (g.1, .error (o, acc))

/-- A page-table read that fails leaves the sub-request with its status and no value (R323); where the header cannot be
read, the width of a value sum is open. -/
def tableFails (s : State) (x : SubRun) (st : Nat) : State × SubOut :=
  let r := if x.dv = 0 then (let d := drawByte s; (d.1, 128 * (1 + d.2.toNat % 8))) else (s, x.dv)
  (r.1, .done { x with status := st, space := 1, dv := r.2, blocks := [] })

/-- The header and entries of an attention sub-request, and its checks in the order of R310.  What has been read is not read
again after a page fault (R323).  R310 names no cause for a token range that needs a block at or beyond NB: that it is rejected with 0x06
after the tests of 0x07 is the model's choice (assumption 110). -/
def attention (s : State) (ctx : Nat) (body : List Byte) (x : SubRun) : State × SubOut :=
  let r := x.r
  let first := x.pt == 0
  if first && getF s (fSEQA_PTADDR r.seq) == 0 then rejected s ctx 6 body x
  else
    let pt := if first then 2 ^ 48 + getF s (fSEQA_PTADDR r.seq) * 64 else x.pt
    let x := { x with pt := pt }
    let g := if x.head.isEmpty then slaRead s ctx 1 pt 64 else (s, .bytes x.head)
    match g.2 with
    | .waits => (s, .waits x)
    | .fault b z va => (g.1, .fault x b z va)
    | .fail st => tableFails g.1 x st
    | .bytes hb =>
      match readHeader hb with
      | none => rejected g.1 ctx 6 body x
      | some (dk, dv, nb, nl, nkv, tt) =>
        let x := { x with dk := dk, dv := dv, head := hb }
        if nl ≤ r.layer ∨ nkv ≤ r.kvh then rejected g.1 ctx 2 body x
        else if !(operandsOwned g.1 ctx r dk) then rejected g.1 ctx 8 body x
        else
          let need := blockRange r
          let e := readBlocks ctx (fun j => pt + 64 + 8 * ((r.layer * nkv + r.kvh) * nb + j))
            ((need.filter (fun j => decide (j < nb))).drop x.blocks.length) x.blocks g.1
          let late := r.t0 % 128 ≠ 0 ∨ tt < r.t0 + r.t1
          match e.2 with
          | .error (.waits, bs) => (e.1, .waits { x with blocks := bs })
          | .error (.fault b z va, bs) => (e.1, .fault { x with blocks := bs } b z va)
          | .error (.fail st, _) => if late then rejected e.1 ctx 7 body x else tableFails e.1 x st
          | .error (.bytes _, _) => rejected e.1 ctx 6 body x
          | .ok (blocks, ok) =>
            if !ok then rejected e.1 ctx 6 body x
            else if late then rejected e.1 ctx 7 body x
            else if need.any (fun j => decide (nb ≤ j)) then rejected e.1 ctx 6 body x
            else takeOperands e.1 { x with blocks := blocks }

/-- Steps 1 to 3 for a sub-request, from its start or from where a page fault has left it. -/
def checkSub (s : State) (ctx : Nat) (body : List Byte) (part : Option SubRun) : State × SubOut :=
  match part with
  | some x => attention s ctx body x
  | none =>
    let x := SubRun.fresh (readSub body)
    let c := firstCheck s ctx x.r
    if c ≠ 0 then rejected s ctx c body x
    else if x.r.attn then attention s ctx body x
    else takeOperands s x

/-! ### Steps 4 and 5 -/

/-- The translations of a unit's pieces: the stack of its data, or the failure; or a page that is not resident, one of
size 0 standing for a walk that waits. -/
def unitPlace (s : State) (ctx space : Nat) (write : Bool) (ps : List (Nat × Nat)) : State × (Except (Nat × Nat × Nat × Bool) (List Nat × Nat)) :=
  ps.foldl (fun (acc : State × (Except (Nat × Nat × Nat × Bool) (List Nat × Nat))) p =>
    match acc.2 with
    | .error _ => acc
    | .ok (ds, st) =>
      let l := slaLocate acc.1 ctx space p.1 write
      match l.2 with
      | .dram d => (l.1, .ok (ds ++ [d], st))
      | .fault b z va => (l.1, .error (b, z, va, write))
      | .waits => (acc.1, .error (0, 0, 0, write))
      | .bad c => (l.1, .ok (ds, if st = 0 then c else st))
      | _ => (l.1, .ok (ds, if st = 0 then 4 else st))) (s, .ok ([], 0))

/-- The class that a unit competes with (R312, R384). -/
def unitsFor (s : State) (d : DynOp) (op core sub : Nat) (x : SubRun) (places : List (List Nat × Nat)) : List WUnit :=
  (places.zipIdx).map (fun p =>
    { op := op, core := core, sub := sub, idx := p.2, stack := dpaStack (p.1.1.getD 0 0), cls := d.cls,
      stream := match d.who with
        | .stream k => k.val
        | .handler m => streamOfCore s m.val
      st := if p.1.2 = 0 then 0 else 2, status := p.1.2, space := operandSpace x, vals := [], data := [] })

/-- Place every unit of a sub-request: a page that is not resident stops it; a range that leaves its stack rejects it
(cause 0x04). -/
def placeSub (s : State) (ctx : Nat) (x : SubRun) : State × (Except (Nat × Nat × Nat × Bool) (List (List Nat × Nat) × Bool)) :=
  let sp := operandSpace x
  let r := (unitPieces x).foldl (fun (acc : State × (Except (Nat × Nat × Nat × Bool) (List (List Nat × Nat)))) ps =>
    match acc.2 with
    | .error _ => acc
    | .ok l =>
      let u := unitPlace acc.1 ctx sp (x.r.op == 8) ps
      (u.1, match u.2 with
        | .error f => .error f
        | .ok p => .ok (l ++ [p]))) (s, .ok [])
  match r.2 with
  | .error f => (r.1, .error f)
  | .ok l =>
    let groups := if x.r.matrix then (chunk x.r.kt x.r.nt l).map (fun g => g.flatMap Prod.fst) else if x.r.attn then l.map Prod.fst else []
    let one := groups.all (fun ds => ((ds.map dpaStack).eraseDups.length ≤ 1 : Bool))
    (r.1, .ok (l, one))

/-! ### Faults of the request unit (R311, R462) -/

def slathFault (s : State) (op core base size va : Nat) (write : Bool) : State :=
  match findOp s op with
  | none => s
  | some d =>
    let f : PageFault := { shareFault s d base size va write with source := 3, agent := 0xFFFF }
    haltShare s op core 0 1 (.slath op core) (fun s who => raiseFault s f who)

/-! ### Results (R305, R309, R314 to R326, R328) -/

def subUnits (s : State) (op core sub : Nat) : List WUnit :=
  s.units.filter (fun u => u.op == op && u.core == core && u.sub == sub)

/-- The totals that the units of one column or value give, in order, accumulated as R44 states; none if one failed. -/
def accumulate (l : List (Option (Int × Bool))) : Option (Int × Bool) :=
  l.zipIdx.foldl (fun (acc : Option (Int × Bool)) x =>
    match acc, x.1 with
    | some a, some t =>
      let r := accWrite (x.2 != 0) a.1 t
      some (r.1, a.2 || r.2)
    | _, _ => none) (some (0, false))

def unitVal (us : List WUnit) (i j : Nat) : Option (Int × Bool) :=
  match us[i]? with
  | some u => if u.status = 0 then some (u.vals.getD j (0, false)) else none
  | none => none

/-- The result values of a sub-request in payload order, before padding lanes: none where a value depends on a failed
unit. -/
def matrixVals (x : SubRun) (us : List WUnit) : List (List (Option (Int × Bool))) :=
  let r := x.r
  let cols := 128 * r.planes
  (List.range r.nv).map (fun v => (List.range r.cnt1).map (fun c =>
    accumulate ((List.range r.kt).map (fun i => unitVal us (c / cols * r.kt + i) (v * cols + c % cols)))))

def scoreVals (x : SubRun) (us : List WUnit) : List (List (Option (Int × Bool))) :=
  (List.range x.r.nv).map (fun v => (List.range x.r.t1).map (fun t => unitVal us (t / 128) (v * 128 + t % 128)))

def vsumVals (x : SubRun) (us : List WUnit) : List (List (Option (Int × Bool))) :=
  (List.range x.r.nv).map (fun v => (List.range x.dv).map (fun c =>
    accumulate ((List.range x.blocks.length).map (fun j => unitVal us j (v * x.dv + c)))))

/-- One candidate is better than another (R324). -/
def candBefore (largest : Bool) (a b : Int × Nat) : Bool :=
  if a.1 = b.1 then decide (a.2 ≤ b.2) else if largest then decide (b.1 < a.1) else decide (a.1 < b.1)

/-- The selection of R324. -/
def select (largest : Bool) (k : Nat) (cands : List (Int × Nat)) : List (Int × Nat) :=
  let top := (sortBy (candBefore largest) cands).take k
  top ++ List.replicate (k - top.length) ((if largest then intMin 32 else intMax 32), 0xFFFFFFFF)

def entryBytes (e : Int × Nat) : List Byte := leBytes 4 (truncN 32 e.1) ++ leBytes 4 e.2

/-- Bytes with holes: a hole is a value that the spec leaves open, and takes free bytes. -/
def fillFree : List (Option Byte) → State → State × List Byte
  | [], s => (s, [])
  | some b :: bs, s => let r := fillFree bs s; (r.1, b :: r.2)
  | none :: bs, s => let d := drawByte s; let r := fillFree bs d.1; (r.1, d.2 :: r.2)

def valBytes (o : Option (Int × Bool)) : List (Option Byte) :=
  match o with
  | some v => (leBytes 4 (truncN 32 v.1)).map some
  | none => List.replicate 4 none

/-- Rows of values, each padded with zero lanes to `n`. -/
def rowBytesTo (n : Nat) (rows : List (List (Option (Int × Bool)))) : List (Option Byte) :=
  rows.flatMap (fun l => l.flatMap valBytes ++ List.replicate (4 * (n - l.length)) (some 0#8))

/-- The I32 elements that the units of an array read. -/
def arrayVals (us : List WUnit) : List Int := us.flatMap (fun u => u.vals.map Prod.fst)

def clipsOf (rows : List (List (Option (Int × Bool)))) : Nat :=
  (rows.flatMap (fun l => l.filterMap id)).countP (fun v => v.2)

/-- The payload of a sub-request, its CLIPS, COUNT and OVF; `bad` says that a unit failed.  R309 counts clipped result values: that with
CTL.TOPK the candidates of every column count, delivered or not, is the model's choice (assumption 110). -/
def payloadOf (x : SubRun) (us : List WUnit) (bad : Bool) : List (Option Byte) × Nat × Nat × Nat :=
  let r := x.r
  let hole := fun (n : Nat) => (List.replicate n none : List (Option Byte))
  let ents := fun (l : List (Int × Nat)) => (l.flatMap entryBytes).map some
  if r.matrix then
    let vals := matrixVals x us
    if r.topk then
      (if bad then hole (8 * r.nv * r.ksel)
       else vals.flatMap (fun l => ents (select (bitOf r.ctl 1) r.ksel
         (l.zipIdx.map (fun v => ((v.1.map Prod.fst).getD 0, (v.2 + r.t0) % 2 ^ 32))))),
       clipsOf vals, r.nv * r.ksel, 0)
    else (rowBytesTo r.np vals, clipsOf vals, r.nv * r.cnt1, 0)
  else match r.op with
    | 2 => let vals := scoreVals x us; (rowBytesTo r.tp vals, clipsOf vals, r.nv * r.t1, 0)
    | 3 => let vals := vsumVals x us; (rowBytesTo x.dv vals, clipsOf vals, r.nv * x.dv, 0)
    | 6 =>
      (if bad then hole (8 * r.ksel)
       else ents (select (bitOf r.ctl 1) r.ksel ((arrayVals us).zipIdx.map (fun v => (v.1, (v.2 + r.t0) % 2 ^ 32)))), 0, r.ksel, 0)
    | 7 => (us.flatMap (fun u => if u.status = 0 then u.data.map some
        else List.replicate (((unitPieces x).getD u.idx []).map Prod.snd).sum none), 0, r.cnt0, 0)
    | 8 => ([], 0, r.cnt0, 0)
    | _ =>
      let d := deliver (partial48 (arrayVals us))
      ((if bad then hole 4 else (leBytes 4 (truncN 32 d.1)).map some) ++ List.replicate 4 (some 0#8), 0, 1, if d.2 then 1 else 0)

/-- The payload length that success would give (R323). -/
def payloadLen (x : SubRun) : Nat :=
  let r := x.r
  if r.matrix then (if r.topk then 8 * r.nv * r.ksel else 4 * r.nv * r.np)
  else match r.op with
    | 2 => 4 * r.nv * r.tp
    | 3 => 4 * r.nv * x.dv
    | 6 => 8 * r.ksel
    | 7 => r.cnt0 * r.cnt1
    | 8 => 0
    | _ => 8

/-- The result of one sub-request: its header and its padded payload (R309), with its status and the space of a failure. -/
def subResult (s : State) (op core : Nat) (x : SubRun) (i : Nat) : State × List Byte × Nat × Nat :=
  if x.rejected then (s, [], 6, 0)
  else
    let us := subUnits s op core i
    let unitSt := ((us.find? (fun u => u.status != 0)).map (fun u => u.status)).getD 0
    let st := if x.status ≠ 0 then x.status else unitSt
    let sp := if x.status ≠ 0 then x.space else if unitSt ≠ 0 then operandSpace x else 0
    let w := fun (n v : Nat) => (leBytes n v).map some
    let p := if x.status ≠ 0 then (List.replicate (payloadLen x) none, 0, 0, 0) else payloadOf x us (unitSt != 0)
    let open4 := fun (v : Nat) => if unitSt ≠ 0 ∧ x.status = 0 then List.replicate 4 none else w 4 v
    let ovf := if x.r.op = 9 ∧ st ≠ 0 then none else some (BitVec.ofNat 8 p.2.2.2)
    let head := w 1 st ++ w 1 x.r.op ++ w 1 i ++ w 1 0 ++ w 4 p.1.length ++ open4 (min p.2.1 0xFFFFFFFF) ++ open4 p.2.2.1
    let f := fillFree (head ++ [ovf] ++ w 15 0 ++ p.1) s
    -- an open overflow bit is one bit
    let bs := if ovf.isNone then f.2.zipIdx.map (fun b => if b.2 = 16 then b.1 &&& 1#8 else b.1) else f.2
    (f.1, padTo (roundUp bs.length 32) bs, st, sp)

/-- The whole result of an operation in sub-request order. -/
def runResult (s : State) (op core : Nat) (subs : List SubRun) : State × List Byte × Nat × Nat :=
  subs.zipIdx.foldl (fun (acc : State × List Byte × Nat × Nat) x =>
    let r := subResult acc.1 op core x.1 x.2
    (r.1, acc.2.1 ++ r.2.1, if acc.2.2.1 = 0 then r.2.2.1 else acc.2.2.1, if acc.2.2.1 = 0 then r.2.2.2 else acc.2.2.2)) (s, [], 0, 0)

def slaRunOf (s : State) (op core : Nat) : Option SlaRun := s.slaRuns.find? (fun r => r.op == op && r.core == core)

def putRun (s : State) (r : SlaRun) : State :=
  { s with slaRuns := s.slaRuns.filter (fun x => !(x.op == r.op && x.core == r.core)) ++ [r] }

/-- Forget a finished operation. -/
def dropRun (s : State) (op core : Nat) : State :=
  { s with slaRuns := s.slaRuns.filter (fun x => !(x.op == op && x.core == core)),
           units := s.units.filter (fun u => !(u.op == op && u.core == core)) }

/-- The promenade packets of an operation between some addresses (R261, R285). -/
def slathPackets (s : State) (op core : Nat) (pieces : List (Nat × Nat × Nat)) : List PromPkt :=
  match findOp s op with
  | none => []
  | some d =>
    let stream := match d.who with
      | .stream k => k.val
      | .handler m => streamOfCore s m.val
    pieces.flatMap (piecePackets s d.ctx op core d.cls stream (mayOwn s stream d.cls))

/-- The request unit at the spine, and stack `k`, as ends of a packet. -/
def atSpine : Nat := 8 * 2 ^ 48
def atStack (k : Nat) : Nat := 2 * 2 ^ 48 + k * 2 ^ 36

/-- What the operands of a sub-request and its work units' requests send: the operands to the request unit at the spine, and from there
to each stack that works on them (R257, R285, R304). -/
def operandPieces (x : SubRun) (us : List WUnit) : List (Nat × Nat × Nat) :=
  let rs := operandRanges x.r x.dk
  rs.map (fun r => (r.1, atSpine, r.2)) ++
    (us.map (fun u => u.stack)).eraseDups.map (fun k => (atSpine, atStack k, max 64 (rs.map Prod.snd).sum))

/-- The bytes that a sub-request writes, header and padding among them (R305). -/
def resultLen (x : SubRun) : Nat := if x.rejected then 0 else roundUp (32 + payloadLen x) 32

/-- Whether the results of a sub-request's units are combined: a column's or a value's over several units, or a selection over them
(R304). -/
def combines (x : SubRun) (n : Nat) : Bool :=
  if x.r.matrix then x.r.topk || decide (1 < x.r.kt)
  else match x.r.op with
    | 2 => false
    | 7 => false
    | _ => decide (1 < n)

/-- What the results of a sub-request send: straight from the port slices of the stacks to their slice, or, where they are combined, to
the combiner at the spine and from there (R285, R304).  A sub-request without units is answered from the spine. -/
def resultPieces (x : SubRun) (us : List WUnit) (ares : Nat) : List (Nat × Nat × Nat) :=
  let ks := (us.map (fun u => u.stack)).eraseDups
  let n := resultLen x
  let part := fun (k : Nat) => n * (us.filter (fun u => u.stack == k)).length / max 1 us.length
  if n = 0 then []
  else if ks.isEmpty then [(atSpine, ares, n)]
  else if combines x us.length then ks.map (fun k => (atStack k, atSpine, max 1 (part k))) ++ [(atSpine, ares, n)]
  else ks.map (fun k => (atStack k, ares, max 1 (part k)))

/-- The results are at their slice: they are written, and the operation completes (R190, R305). -/
def landSlath (s : State) (op core ares srl : Nat) (run : SlaRun) : State :=
  let r := runResult s op core run.subs
  let out := r.2.1.take srl
  let w := orgStore (dropRun r.1 op core) ares out
  let st := if r.2.2.1 ≠ 0 then r.2.2.1 else if srl < r.2.1.length then 5 else if w.2 then 1 else 0
  let sp := if r.2.2.1 = 6 then 0 else r.2.2.2
  completeShare w.1 op core st out.length sp

/-- Once every unit has ended, the results go to their slice, and the operation completes when they are there; a cancelled operation
writes nothing more (R328). -/
def finishSlath (s : State) (op core : Nat) : State :=
  match slaRunOf s op core, shareOf s op core with
  | some run, some x =>
    match x.op with
    | .slath _ _ ares srl _ =>
      if s.units.any (fun u => u.op == op && u.core == core && u.st != 2) then s
      else if run.subs.any (fun y => y.status == 7) then completeShare (dropRun s op core) op core 7 0 0
      else
        let s := if run.sent then s
          else
            let pieces := run.subs.zipIdx.flatMap (fun y => resultPieces y.1 (subUnits s op core y.2) ares)
            { putRun s { run with sent := true } with packets := s.packets ++ slathPackets s op core pieces }
        if onTheWay s op core then s else landSlath s op core ares srl run
    | _ => s
  | _, _ => s

/-! ### The request unit -/

/-- Steps 1 to 3 for the sub-requests that are left, `part` being what a page fault has left of the first of them; the outcome of
the first that cannot be finished. -/
def checkSubs (ctx : Nat) (part : Option SubRun) : List (List Byte) → List SubRun → State → State × List SubRun × SubOut
  | [], done, s => (s, done, .done (SubRun.fresh (readSub [])))
  | b :: bs, done, s =>
    let r := checkSub s ctx b part
    match r.2 with
    | .done x => checkSubs ctx none bs (done ++ [x]) r.1
    | o => (r.1, done, o)

/-- Steps 4 and 5: every unit is placed, or a page that is not resident is named, with the sub-requests as they are by then. -/
def placeSubs (d : DynOp) (op core : Nat) (body : List Byte) :
    List (SubRun × Nat) → List SubRun → List WUnit → State →
      State × (Except ((Nat × Nat × Nat × Bool) × List SubRun) (List SubRun × List WUnit))
  | [], subs, us, s => (s, .ok (subs, us))
  | (x, i) :: xs, subs, us, s =>
    if x.status ≠ 0 then placeSubs d op core body xs (subs ++ [x]) us s
    else
      let r := placeSub s d.ctx x
      match r.2 with
      | .error f => (r.1, .error (f, subs ++ [x] ++ xs.map Prod.fst))
      | .ok (places, one) =>
        if one then placeSubs d op core body xs (subs ++ [x]) (us ++ unitsFor s d op core i x places) r.1
        else placeSubs d op core body xs (subs ++ [{ x with rejected := true, status := 6 }]) us
          (noteReject r.1 d.ctx 4 ((body.drop (64 * i)).take 64))

/-- The request unit deals with the request of one core's share (R304): from its start, or from where it has come to. -/
def requestRun (s : State) (op core : Nat) (d : DynOp) (run : SlaRun) (req qlen : Nat) (body : List Byte) : State :=
  let s := match d.who with
    | .stream k => modStr s k.val (fun t => { t with ranges := t.ranges.filter (fun r =>
        r.static || r.owner != op || r.write || !(r.slices.contains (orgSlice req))) })
    | .handler _ => s
  let c := checkSubs d.ctx run.part ((chunk 64 (qlen / 64) body).drop run.subs.length) run.subs s
  match c.2.2 with
  | .waits x => putRun c.1 { run with subs := c.2.1, part := some x }
  | .fault x b z va => slathFault (putRun c.1 { run with subs := c.2.1, part := some x }) op core b z va false
  | .done _ =>
    let s := putRun c.1 { run with subs := c.2.1, part := none }
    let p := placeSubs d op core body c.2.1.zipIdx [] [] s
    match p.2 with
    | .error ((b, z, va, wr), subs) =>
      let s := putRun p.1 { run with subs := subs, part := none }
      if z = 0 then s else slathFault s op core b z va wr
    | .ok (subs, us) =>
      let ask := subs.zipIdx.flatMap (fun y => if y.1.status = 0 then operandPieces y.1 (us.filter (fun u => u.sub == y.2)) else [])
      let s := putRun { p.1 with units := p.1.units ++ us, packets := p.1.packets ++ slathPackets p.1 op core ask }
        { run with subs := subs, part := none }
      finishSlath (setShare s op core .sent) op core

def requestCheck (s : State) (op core : Nat) : State :=
  match findOp s op, shareOf s op core with
  | some d, some x =>
    match x.op, x.st with
    | .slath req qlen _ _ body, .waiting _ =>
      if onTheWay s op core then s else match slaRunOf s op core with
      | some run => { requestRun { s with slaRefused := run.refused } op core d run req qlen body with slaRefused := [] }
      | none =>
        let rd := orgAccess s req qlen
        if rd.2 then completeShare rd.1 op core 1 0 0
        else requestRun rd.1 op core d ⟨op, core, [], none, [], false⟩ req qlen body
    | _, _ => s
  | _, _ => s

def execSlathRequestCheck (op : Nat) (core : Fin 64) (s : State) : Host.Outcome State Fault Refusal :=
  whenOn s (if isSet s fERRSTAT_FATAL then s else progress (requestCheck s op core.val))

/-! ### Work units (R312, R316, R317, R320 to R322, R328) -/

/-- Split the bytes of a weight image. -/
def imageOf (fmt : Nat) (b : List Byte) : WSet := ⟨fmt, chunk 128 128 b, b.drop 16384⟩

def signed (b : Byte) : Int := sext 8 b.toNat

/-- The weight of plane `j`, row `r` and column `c` of an image, and its exponent byte for band `b` (R66, R67). -/
def weightAt (ws : WSet) (j r c : Nat) : Int := planeWeight ws.fmt j (imageBits ws (upperPlane ws.fmt j) r c)
def weightExp (ws : WSet) (j b c : Nat) : Int := imageExp ws (upperPlane ws.fmt j) (ws.fmt == 2 && j % 2 == 1) b c

/-- The totals of a weight image against every vector: column by column, plane by plane. -/
def imageTotals (x : SubRun) (i : Nat) (b : List Byte) : List (Int × Bool) :=
  let r := x.r
  let ws := imageOf r.fmt b
  let mode : PassMode := if r.op = 4 then .mdist else if r.op = 5 then .msqd else .mpass
  (List.range r.nv).flatMap (fun v =>
    let m := (x.vms.getD v []).drop (128 * i)
    let e := (x.ves.getD v []).drop (4 * i)
    (List.range (128 * r.planes)).map (fun c =>
      columnTotal mode r.eref ((List.range 4).map (fun q =>
        ⟨weightExp ws (c / 128) q (c % 128), signed (e.getD q 0#8),
         (List.range 32).map (fun f => (decide (128 * i + 32 * q + f < r.cnt0), weightAt ws (c / 128) (32 * q + f) (c % 128),
           signed (m.getD (32 * q + f) 0#8)))⟩))))

/-- The scores of one token of a block: the passes of 128 key elements accumulated (R320). -/
def scoreOf (x : SubRun) (v : Nat) (keys kexp : List Byte) : Int × Bool :=
  let q := x.vms.getD v []
  let qe := x.ves.getD v []
  ((accumulate ((List.range (x.dk / 128)).map (fun p =>
    some (columnTotal .mpass x.r.eref ((List.range 4).map (fun b =>
      ⟨signed (kexp.getD (4 * p + b) 0#8), signed (qe.getD (4 * p + b) 0#8),
       (List.range 32).map (fun f => (true, signed (keys.getD (128 * p + 32 * b + f) 0#8), signed (q.getD (128 * p + 32 * b + f) 0#8)))⟩))))))).getD
    (0, false)

/-- The scores of block `j` (the `n`th of the range) for every head. -/
def blockScores (x : SubRun) (n : Nat) (b : List Byte) : List (Int × Bool) :=
  let dk := x.dk
  (List.range x.r.nv).flatMap (fun v => (List.range 128).map (fun i =>
    if 128 * n + i < x.r.t1 then scoreOf x v ((b.drop (i * dk)).take dk) ((b.drop (128 * dk + i * (dk / 32))).take (dk / 32))
    else (0, false)))

/-- The totals of the value elements of the `n`th block for every head (R321). -/
def blockSums (x : SubRun) (n : Nat) (b : List Byte) : List (Int × Bool) :=
  let dv := x.dv
  (List.range x.r.nv).flatMap (fun v =>
    let m := (x.vms.getD v []).drop (128 * n)
    let e := (x.ves.getD v []).drop (4 * n)
    (List.range dv).map (fun c =>
      columnTotal .mpass x.r.eref ((List.range 4).map (fun g =>
        ⟨signed (b.getD (128 * dv + g * dv + c) 0#8), signed (e.getD g 0#8),
         (List.range 32).map (fun i => (decide (128 * n + 32 * g + i < x.r.t1), signed (b.getD ((32 * g + i) * dv + c) 0#8),
           signed (m.getD (32 * g + i) 0#8)))⟩))))

/-- The part of a unit that it reads: keys for SCORE, values for VSUM, else all of it. -/
def readPieces (x : SubRun) (i : Nat) : List (Nat × Nat) :=
  match x.r.op with
  | 2 => stridedPieces (2 ^ 48 + x.blocks.getD i 0) 0 (132 * x.dk)
  | 3 => stridedPieces (2 ^ 48 + x.blocks.getD i 0) (132 * x.dk) (132 * x.dv)
  | _ => (unitPieces x).getD i []

/-- Read the pieces of a unit: its bytes, and a status. -/
def readUnit (ctx space : Nat) (ps : List (Nat × Nat)) (s : State) : State × List Byte × Nat :=
  ps.foldl (fun (acc : State × List Byte × Nat) p =>
    let g := slaRead acc.1 ctx space p.1 p.2
    match g.2 with
    | .bytes b => (g.1, acc.2.1 ++ b, acc.2.2)
    | .fail st => (g.1, acc.2.1 ++ List.replicate p.2 0#8, if acc.2.2 = 0 then st else acc.2.2)
    | _ => (g.1, acc.2.1 ++ List.replicate p.2 0#8, if acc.2.2 = 0 then 4 else acc.2.2)) (s, [], 0)

/-- The source bytes of a scatter unit: how many bytes of the rows lie before it. -/
def scatterData (x : SubRun) (i : Nat) : List Byte :=
  let before := ((unitPieces x).take i).flatMap (fun ps => ps.map Prod.snd)
  let n := ((unitPieces x).getD i []).map Prod.snd
  (x.rows.drop before.sum).take n.sum

/-- Run a unit: its DRAM is read, or written for SCATTER, and its totals are formed. -/
def runUnit (s : State) (ctx : Nat) (x : SubRun) (u : WUnit) : State × WUnit :=
  let ps := readPieces x u.idx
  if x.r.op = 8 then
    match ps with
    | [(a, _)] =>
      let l := slaLocate s ctx (operandSpace x) a true
      let l2 := match l.2 with
        | .dram d => Loc.dram d
        | .bad st => Loc.bad st
        | _ => Loc.bad 4
      let w := writeLoc l.1 (some ctx) l2 (scatterData x u.idx)
      (w.1, { u with st := 1, status := w.2 })
    | _ => (s, { u with st := 1, status := 4 })
  else
    let r := readUnit ctx (operandSpace x) ps s
    let b := r.2.1
    let vals := if r.2.2 ≠ 0 then []
      else if x.r.matrix then imageTotals x (u.idx % x.r.kt) b
      else match x.r.op with
        | 2 => blockScores x u.idx b
        | 3 => blockSums x u.idx b
        | 7 => []
        | _ => (chunk 4 (b.length / 4) b).map (fun w => (sext 32 (leVal w), false))
    (r.1, { u with st := 1, status := r.2.2, vals := vals,
                   data := if x.r.op = 7 then b else [] })

def sameUnit (a b : WUnit) : Bool := a.op == b.op && a.core == b.core && a.sub == b.sub && a.idx == b.idx

def putUnit (s : State) (u : WUnit) : State := { s with units := s.units.map (fun v => if sameUnit v u then u else v) }

def unitSub (s : State) (u : WUnit) : Option SubRun := (slaRunOf s u.op u.core).bind (fun r => r.subs[u.sub]?)

/-- Whether a unit could run now: its request and operands have reached its stack, and none of its DRAM makes it wait (R292, R332,
R337). -/
def unitReady (s : State) (u : WUnit) : Bool :=
  match unitSub s u, findOp s u.op with
  | some x, some d =>
    !(onTheWay s u.op u.core) &&
    (readPieces x u.idx).all (fun p => match (slaLocate s d.ctx (operandSpace x) p.1 (x.r.op == 8)).2 with
      | .dram a => !(dramWaits s a)
      | .waits => false
      | _ => true)
  | _, _ => false

/-- The command queue of an operation's task, 8 × context + queue; an operation without a task counts to its context's queue 0
(assumption 96). -/
def opQueue (s : State) (op : Nat) : Nat :=
  match opTask s op with
  | some t => taskQ t
  | none => 8 * ((findOp s op).map (fun d => d.ctx)).getD 0

/-- The place of an operation's task in the order of acceptance. -/
def opOrder (s : State) (op : Nat) : Nat :=
  ((opTask s op).map (fun t => t.order)).getD 0

/-- The next unit of a stack: the highest class waiting, then the command queues in turn within that class, then the task first
accepted, then the oldest (R312, R385; R312 says that streams take turns, R385 queues: assumption 96). -/
def nextUnit (s : State) (k : Nat) : Option WUnit :=
  let l := s.units.filter (fun u => u.stack == k && u.st == 0 && unitReady s u)
  let best := l.foldl (fun m u => min m (workClass s u.op)) 4
  let top := sortBy (fun a b => decide (opOrder s a.op ≤ opOrder s b.op)) (l.filter (fun u => workClass s u.op == best))
  let rr := amGet (fun _ => 0) s.unitRR (4 * k + best)
  inQueueTurn (fun u => opQueue s u.op) rr top

/-- Whether a transfer of a higher class waits for the DRAM of stack `k` (R313). -/
def dramWanted (s : State) (k cls : Nat) : Bool :=
  (readyXfers s).any (fun x => decide (x.1 < cls) && x.2.2.2.any (fun p => decide (8192 ≤ p) && (p - 8192) / 64 == k))

def execWorkUnitStart (k : Fin 32) (s : State) : Host.Outcome State Fault Refusal :=
  whenOn s (
    if isSet s fERRSTAT_FATAL || s.units.any (fun u => u.stack == k.val && u.st == 1) then s
    else match nextUnit s k.val with
      | none => s
      | some u =>
        match unitSub s u, findOp s u.op with
        | some x, some d =>
          let cls := workClass s u.op
          if dramWanted s k.val cls then s
          else
            let q := opQueue s u.op
            let s := pointGrant { s with unitRR := amSet (fun _ => 0) s.unitRR (4 * k.val + cls) ((q + 1) % 128) } 2 q
            let r := runUnit s d.ctx x u
            putUnit r.1 r.2
        | _, _ => s)

/-- A running unit ends after `ns` ns, not while its stack's link retrains (R292); the last one of its operation ends the
operation. -/
def execWorkUnitDone (k : Fin 32) (ns : Nat) (s : State) : Host.Outcome State Fault Refusal :=
  whenOn s (match s.units.find? (fun u => u.stack == k.val && u.st == 1) with
    | none => s
    | some u =>
      if s.lodge.linkWait.contains k.val then s else
      let s := bump (bump s (fSTK_UNITCNT_COUNT k.val) 1) (fSTK_BUSYNS_COUNT k.val) ns
      progress (finishSlath (putUnit s { u with st := 2 }) u.op u.core))

/-! ### Packets on the promenade -/

/-- An output of a router in a store-die cycle; the results of slath operations that have come to their slice are written. -/
def execPacketHop (out : Fin 480) (cycles : Nat) (s : State) : Host.Outcome State Fault Refusal :=
  whenOn s (
    let s := packetHop out.val cycles s
    let there := s.slaRuns.filter (fun r => r.sent && !(onTheWay s r.op r.core))
    if isSet s fERRSTAT_FATAL || there.isEmpty then s else progress (forEach there (fun s r => finishSlath s r.op r.core) s))

/-- A kill stops the units of an operation that have not started; it completes CANCELLED once its started units have ended
(R328, R398). -/
def cancelSlath (s : State) (op core : Nat) : State :=
  match slaRunOf s op core with
  | none => completeShare s op core 7 0 0
  | some run =>
    let s := putRun s { run with subs := run.subs.map (fun x => { x with status := 7, rejected := false }) }
    let s := { s with units := s.units.filter (fun u => !(u.op == op && u.core == core && u.st == 0)) }
    if s.units.any (fun u => u.op == op && u.core == core && u.st == 1) then setShare s op core .sent
    else completeShare (dropRun s op core) op core 7 0 0

end Sys2Proof.Machine
end

