-- ==== Sys2Proof/Machine/Dram.lean ====
section
/-! DEFINITION. The memory stacks' own events (spec/08 R289 to R303, R329 to R337): page walks and invalidations, refresh,
temperature, scrubbing, row sparing, the die-to-die links, and readiness. -/

namespace Sys2Proof.Machine

open Sys2Proof

/-! ### Translation (R300 to R302) -/

/-- A page walk for a context's virtual address, in the slath path or the DMA path; a translation is kept in the buffer of
its path. -/
def execPageWalk (c : Fin 16) (va : BitVec 48) (write sla : Bool) (s : State) : Host.Outcome State Fault Refusal :=
  whenAwake s (translate s c.val va.toNat write sla).1

/-- Whether an invalidation of a scope names a buffer entry: every context, a context, or the page of a context that holds an
address, of either size. -/
def invalHits (scope c va : Nat) (t : Tlb) : Bool :=
  match scope with
  | 0 => true
  | 1 => t.ctx == c
  | _ => t.ctx == c && decide (t.base ≤ va) && decide (va < t.base + t.size)

/-- A write to SLA.INVAL: the entries named leave both buffers, and BUSY stays 1 until the walks that began before it have
ended.  One written while BUSY is 1 is dropped. -/
def writeInval (s : State) (v : Nat) : State :=
  let scope := bitsOf v 1 0
  let c := bitsOf v 51 48
  let va := bitsOf v 47 16 * 65536
  if scope = 3 then s
  else if isSet s fSLA_INVALSTAT_BUSY then bump (setF s fSLA_INVALSTAT_DROP 1) fSLA_INVALSTAT_DROPCNT 1
  else
    let keep := fun (t : Tlb) => !(invalHits scope c va t)
    setF { s with dmaTlb := s.dmaTlb.filter keep, slaTlb := s.slaTlb.filter keep, inval := some (scope, c, va) } fSLA_INVALSTAT_BUSY 1

def execInval (v : BitVec 64) (s : State) : Host.Outcome State Fault Refusal := whenServed s (writeInval s v.toNat)

def execInvalidationComplete (s : State) : Host.Outcome State Fault Refusal :=
  whenAwake s (setF { s with inval := none } fSLA_INVALSTAT_BUSY 0)

/-! ### Refresh and temperature (R336) -/

/-- A refresh of a bank: the accesses that need the bank wait for its end, which no command is long enough to see; the
bank's last refresh is recorded. -/
def execDramRefresh (k : Fin 32) (pc : Fin 64) (bank : Fin 16) (s : State) : Host.Outcome State Fault Refusal :=
  whenAwake s { s with refreshed := amSet (fun _ => 0) s.refreshed (1024 * k.val + 16 * pc.val + bank.val) (tick s) }

/-- Every 1 ms (R336). -/
def execDramTemperatureSample (k : Fin 32) (degc : Fin 256) (s : State) : Host.Outcome State Fault Refusal :=
  whenAwake s (every (evTemp k.val) 100000 (fun s =>
    let s := setF s (fSTK_TEMP_DEGC k.val) degc.val
    let s := setF s (fSTK_STAT_REFX2 k.val) (if 85 < degc.val then 1 else 0)
    setF s (fSTK_STAT_THROT k.val) (if 95 < degc.val then 1 else 0)) s)

/-! ### Scrubbing (R330, R335) -/

/-- The blocks of a pseudo-channel. -/
def pcBlocks : Nat := 9437184

/-- The DPA of block `i` of pseudo-channel `pc` of stack `k` (R293). -/
def blockDpa (k pc i : Nat) : Nat := dpaOf k (64 * i / 4096 * 262144 + pc * 4096 + 64 * i % 4096)

/-- One scrub read of a block: corrected, or reported; a block that cannot be had is not read. -/
def scrubBlock (s : State) (d : Nat) : State :=
  if dramFails s d then s
  else
    let s := bump s (fSTK_RDBYTES_COUNT (dpaStack d)) 64
    match dramErrAt s d with
    | 0 => s
    | 2 => noteDramUe s d 1
    | _ => noteDramCe s d

/-- Bits of block `i` of stack `k` have been upset; an error that the code takes for other data is never reported (R329). -/
def upsetBlock (s : State) (k i : Nat) (u : Upset) : State :=
  let d := dpaOf k (64 * (i % (stackBytes / 64)))
  match u with
  | .correctable => setDramErr s d (max (dramErrAt s d) 1)
  | .uncorrectable => setDramErr s d 2
  | .silent bs => dramWrite s d (padTo 64 (bs.take 64))

/-- Bits of blocks of stack `k` have been upset, the numbers of `errs`; then each pseudo-channel of it reads its next block, once the
interval has passed and none of the blocks waits (R335). -/
def execDramScrubRead (k : Fin 32) (errs : List (Nat × Upset)) (s : State) : Host.Outcome State Fault Refusal :=
  whenAwake s (
    let s := errs.foldl (fun s e => upsetBlock s k.val e.1 e.2) s
    let iv := max 1 (getF s fSLA_SCRUBCTL_INTERVAL)
    if !(isSet s fSLA_SCRUBCTL_EN) || !(scrubDue s (64 + k.val) (fun n => decide (iv ≤ 10 * n))) then s
    else
      let i := getF s (fSTK_SCRUBPOS_NEXT k.val)
      if (List.range 64).any (fun pc => dramWaits s (blockDpa k.val pc i)) then s
      else
        let s := noteAt s (evScrub (64 + k.val))
        let s := forEach (List.range 64) (fun s pc => scrubBlock s (blockDpa k.val pc i)) s
        if i + 1 = pcBlocks then bump (setF s (fSTK_SCRUBPOS_NEXT k.val) 0) (fSTK_SCRUBPOS_PASSES k.val) 1
        else setF s (fSTK_SCRUBPOS_NEXT k.val) (i + 1))

/-- A slath die writes back a corrected block that no write has reached since (R330). -/
def execDramCorrectedWriteback (k : Fin 32) (s : State) : Host.Outcome State Fault Refusal :=
  whenAwake s (match s.dramWb.find? (fun d => dpaStack d == k.val) with
    | none => s
    | some d =>
      let s := { s with dramWb := s.dramWb.filter (fun e => e != d) }
      if dramErrAt s d = 1 then setDramErr s d 0 else s)

/-! ### Spares (R291, R292, R332) -/

/-- The Lodge copies a row of a hedged pseudo-channel to a spare row, where its bank has one left. -/
def execRowSparing (k : Fin 32) (pc : Fin 64) (bank : Fin 16) (row : Fin 36864) (s : State) : Host.Outcome State Fault Refusal :=
  whenAwake s (
    let key := 64 * k.val + pc.val
    if hedgedAt s 5 key then (repairRows s key [bank.val * 65536 + row.val]).getD s else s)

/-- A die-link transfer whose CRC failed is replayed: data and order stay. -/
def execDieLinkReplay (k : Fin 32) (s : State) : Host.Outcome State Fault Refusal :=
  whenAwake s (bump (bump s (fSTK_LINKCNT_CRC k.val) 1) (fSTK_LINKCNT_REPLAY k.val) 1)

/-- The log entry of a lane that has no spare left (R595, R611 kind 0x0F): R611 gives the stack no cause, LNKSTAT or LANEMAP,
so they are free. -/
def logNoLane (s : State) (k : Nat) : State :=
  let r := drawBytes 17 s
  logPut r.1 { LogEntry.blank with
    kind := 0x0F, cause := leVal (r.2.take 1), rclass := 6, res := k, flags := if hedgedAt s 6 k then 0 else 1,
    data := [leVal ((r.2.drop 1).take 8), leVal (r.2.drop 9)] }

/-- A die-link lane gives way to a spare, and the link retrains; with no spare left in its direction the stack is hedged.
`up` is the direction toward the store die. -/
def execDieLinkLaneSpare (k : Fin 32) (up : Bool) (lane : Fin 264) (s : State) : Host.Outcome State Fault Refusal :=
  whenAwake s (
    match spareLane s k.val up lane.val with
    | some s => s
    | none => progress (applyHedge (logNoLane s k.val) 6 k.val))

def execDieLinkRetrainDone (k : Fin 32) (s : State) : Host.Outcome State Fault Refusal :=
  whenAwake s { s with lodge := { s.lodge with linkWait := s.lodge.linkWait.filter (fun i => i != k.val) } }

/-! ### Readiness (R337) -/

/-- Every block of stack `k` is zero, with valid check symbols. -/
def zeroStack (s : State) (k : Nat) : State :=
  { s with
    dram := s.dram.filter (fun c => dpaStack c.1 != k),
    dramErr := s.dramErr.filter (fun c => dpaStack c.1 != k),
    dramWb := s.dramWb.filter (fun d => dpaStack d != k) }

def execStackReady (k : Fin 32) (s : State) : Host.Outcome State Fault Refusal :=
  whenAwake s (
    if stackReady s k.val || stackHedged s k.val then s
    else
      let s := setBit (zeroStack s k.val) fSLA_READY_MAP k.val true
      let s := setF (setF s (fSTK_STAT_READY k.val) 1) (fSTK_STAT_TRAIN k.val) 0
      markReady s (16 + k.val))

end Sys2Proof.Machine
end

