-- ==== Sys2Proof/Machine/Dma.lean ====
section
/-! DEFINITION. The DMA engine and page faults (spec/11 R457 to R475, R480): descriptors and their checks, runs, ends of
descriptors and chains, stops and kills, fault responses, and the translation services of PCIe. -/

namespace Sys2Proof.Machine

open Sys2Proof

/-! ### Descriptors (R464, R467) -/

def readDesc (b : List Byte) : Desc :=
  let at_ := fun (o n : Nat) => leVal ((b.drop o).take n)
  let step := fun (o : Nat) => sext 64 (at_ o 8)
  { next := at_ 0 8, op := at_ 8 1, flags := at_ 9 1, line := at_ 10 1, src := at_ 16 8, dst := at_ 24 8, run := at_ 32 4,
    n1 := at_ 36 2, n2 := at_ 38 2, n3 := at_ 40 2, ss := [step 48, step 64, step 80], ds := [step 56, step 72, step 88],
    cplw := at_ 96 8, seed := at_ 104 4 }

/-- Every reserved field is 0. -/
def descReserved (b : List Byte) : Bool :=
  leVal ((b.drop 11).take 5) == 0 && leVal ((b.drop 42).take 6) == 0 && leVal ((b.drop 108).take 4) == 0

def stepOk (i : Int) : Bool := decide (-(2 ^ 51 : Int) ≤ i) && decide (i ≤ 2 ^ 51 - 1)

/-- Every field lies within its range (R464). -/
def descRanges (d : Desc) : Bool :=
  decide (d.op ≤ 2) && decide (d.flags < 32) && d.csumKind != 3 && decide (1 ≤ d.run) && decide (d.run ≤ 16777216) &&
  decide (1 ≤ d.n1) && decide (1 ≤ d.n2) && decide (1 ≤ d.n3) && d.ss.all stepOk && d.ds.all stepOk &&
  (d.op != 2 || d.dst == 0)

/-- The lowest and the highest offset of the runs' first bytes. -/
def lowStep (d : Desc) (steps : List Int) : Int :=
  ([d.n1, d.n2, d.n3].zip steps).foldl (fun t p => t + min 0 (((p.1 - 1 : Nat) : Int) * p.2)) 0
def highStep (d : Desc) (steps : List Int) : Int :=
  ([d.n1, d.n2, d.n3].zip steps).foldl (fun t p => t + max 0 (((p.1 - 1 : Nat) : Int) * p.2)) 0

/-- Whether every run of one side stays within the space of its base. -/
def sideInSpace (d : Desc) (base : Nat) (steps : List Int) : Bool :=
  let sp : Int := ((spaceOf base * 2 ^ 48 : Nat) : Int)
  decide (sp ≤ (base : Int) + lowStep d steps) && decide ((base : Int) + highStep d steps + (d.run : Int) ≤ sp + 2 ^ 48)

/-- The Orangery ranges of one side: the bounding range of its runs in each slice. -/
def boundsOf (runs : List Nat) (n : Nat) : List (Nat × Nat) :=
  ((runs.map orgSlice).eraseDups).map (fun m =>
    let offs := (runs.filter (fun a => orgSlice a == m)).map orgOff
    let lo := offs.foldl min (2 ^ 25)
    let hi := offs.foldl max 0
    (orgAddr m lo, hi + n - lo))

/-- The checks of one side that is used. -/
def sideOk (s : State) (ctx : Nat) (d : Desc) (base : Nat) (steps : List Int) (at_ : Nat → Nat) : Bool :=
  decide (base < 2 ^ 52) && spaceKnown (spaceOf base) && (spaceOf base != 2 || hasPriv s ctx) && sideInSpace d base steps &&
  (spaceOf base != 0 || (boundsOf ((List.range d.runs).map at_) d.run).all (fun r => dmaOwned s ctx r.1 r.2))

def cplwOk (s : State) (ctx w : Nat) : Bool := w == 0 || (decide (w < 2 ^ 48) && w % 8 == 0 && dmaOwned s ctx w 8)

/-- The checks of R467. -/
def descOk (s : State) (ctx : Nat) (b : List Byte) (d : Desc) : Bool :=
  descReserved b && descRanges d && (d.op == 1 || sideOk s ctx d d.src d.ss d.srcAt) &&
  (d.op == 2 || sideOk s ctx d d.dst d.ds d.dstAt) && cplwOk s ctx d.cplw

/-- Whether the address of a descriptor meets its alignment and names a space that may hold one. -/
def descAddrOk (a : Nat) : Bool :=
  decide (a < 2 ^ 52) && a % 128 == 0 && (spaceOf a == 0 || spaceOf a == 1 || spaceOf a == 8)

/-! ### Ends of chains (R472 to R474) -/

def chanDid (s : State) (ch : Nat) : Nat := getF s (fCHSTAT_DID ch)

/-- The chain ends: the channel is idle, and the record of its DMA_START waits to be written. -/
def endChain (s : State) (ch : Nat) (stopped fetchFail : Bool) : State :=
  let c := getChan s ch
  let detail := c.done % 65536 + c.bad % 65536 * 2 ^ 16 + c.firstBad % 256 * 2 ^ 32 + (if stopped then 2 ^ 40 else 0) +
    (if fetchFail then 2 ^ 41 else 0) + chanDid s ch * 2 ^ 48
  let x := getQ s c.ctx c.q
  let own := x.cmds.find? (fun cm => cm.opcode == 9 && cm.key == c.cmd)
  let s := setQ s c.ctx c.q { x with cmds := x.cmds.filter (fun cm => !(cm.opcode == 9 && cm.key == c.cmd)) }
  let s := setChan s ch { Chan.reset with endTick := tick s }
  match own with
  | some cm => pushRec s c.ctx c.q (recOf cm (if c.killed then 7 else 0) detail)
  | none => s

/-- After step 3 of R469: the chain stops or ends, or the next descriptor is fetched. -/
def nextDesc (s : State) (ch : Nat) (d : Desc) : State :=
  let c := getChan s ch
  let stop := c.stop || bitOf d.flags 4
  if c.killed then endChain s ch false false
  else if stop then endChain s ch true false
  else if d.next = 0 then endChain s ch false false
  else if !(descAddrOk d.next) then endChain s ch false true
  else setChan s ch { c with st := .fetching, addr := d.next, pos := c.pos + 1, desc := none }

/-- Count a descriptor that has ended, and log one that ended bad (R472, R611). -/
def countDesc (s : State) (ch status bytes : Nat) : State :=
  let c := getChan s ch
  let bad := status != 0
  let s := setChan s ch { c with
    done := c.done + 1, bad := c.bad + (if bad then 1 else 0), firstBad := if bad && c.firstBad == 0 then status else c.firstBad }
  let s := bump s (fCHSTAT_DONEN ch) 1
  if !bad then s
  else
    let s := bump s (fCHSTAT_BADN ch) 1
    let s := setF (bump (setF s (fCHERR_BAD ch) 1) (fCHERR_BADCNT ch) 1) (fCHERR_LAST ch) status
    logPut s { LogEntry.blank with kind := 0x06, cause := status, ctx := c.ctx, addr := c.addr, data := [chanDid s ch, bytes, 0, 0] }

/-- The three steps of R469; where `write` is false the page of the descriptor is gone, and step 3 is left out.  The steps
wait while step 3 could not be made. -/
def endDesc (s : State) (ch : Nat) (write : Bool) : State :=
  let c := getChan s ch
  match c.st, c.desc with
  | .ending, some d =>
    let l := locate s c.ctx (c.addr + 112) true false
    let waits := match l.2 with
      | .dram x => dramWaits s x
      | .waits => true
      | _ => false
    match write, l.2 with
    | true, .fault b z va => faultChan l.1 ch b z va true
    | _, _ =>
      if write && waits then s
      else
        let s := l.1
        let cpl := d.cplw != 0 && cplwOk s c.ctx d.cplw
        let r := if cpl then completeWord s d.cplw (cplValue c.status c.space c.bytes) (bitOf d.flags 1) (c.status != 0) else (s, false)
        let s := if r.2 then logPut r.1 { LogEntry.blank with
            kind := 0x0D, cause := 1, ctx := c.ctx, addr := d.cplw, data := [d.cplw, 0] } else r.1
        let status := if r.2 && c.status == 0 then 9 else c.status
        let bs := leBytes 4 (if status = 0 then csumValue d c else 0) ++ leBytes 1 status ++ leBytes 1 1 ++
          leBytes 2 (chanDid s ch) ++ leBytes 8 c.bytes
        let s := if write then (writeLoc s (some c.ctx) l.2 bs).1 else s
        nextDesc (countDesc s ch status c.bytes) ch d
  | _, _ => s

def execDescriptorEnd (ch : Fin 64) (s : State) : Host.Outcome State Fault Refusal := whenOn s (progress (endDesc s ch.val true))

/-! ### Fetching (R467, R472) -/

/-- A channel fetches and checks its next descriptor.  `hostSt` is how the host answers: 0 data, 1 poisoned data, 2 an
abort, 3 a translation without permission. -/
def fetchDesc (s : State) (ch hostSt : Nat) : State :=
  let c := getChan s ch
  if c.st ≠ .fetching then s
  else if c.stop then endChain s ch true false
  else if !(descAddrOk c.addr) then endChain s ch false true
  else if waitsAt s c.ctx c.addr false then s
  else if hostSt = 3 ∧ spaceOf c.addr = 8 then
    if isSet s fHOST_LINKSTAT_ATSEN && isSet s fHOST_LINKSTAT_PRIEN then raisePri (setChan s ch { c with st := .faulted }) c.ctx (.dma ch)
    else endChain s ch false true
  else
    let l := locate s c.ctx c.addr false false
    match l.2 with
    | .fault b z va => faultChan l.1 ch b z va false
    | _ =>
      let r := readLoc l.1 (some c.ctx) l.2 128 hostSt
      if r.2.2 ≠ 0 then endChain r.1 ch false true
      else
        let d := readDesc r.2.1
        let s := setF (setF r.1 (fCHSTAT_DID ch) (getF r.1 (fCHCTL_GEN ch) * 4096 + c.pos % 4096)) (fCHDESC_ADDR ch) c.addr
        let ok := descOk s c.ctx r.2.1 d
        setChan s ch { c with
          st := if ok then .running else .ending, desc := some d, idx := 0, token := false, csum := d.csumStart, tail := [],
          bytes := 0, status := if ok then 0 else 8, phase := 0, space := 0 }

def execDescriptorFetch (ch : Fin 64) (hostSt : Fin 4) (s : State) : Host.Outcome State Fault Refusal :=
  whenOn s (progress (fetchDesc s ch.val hostSt.val))

/-! ### Runs (R465, R470) -/

/-- Locate pieces without moving anything: the first that meets a page that is not resident. -/
def locateAll (ctx : Nat) (write : Bool) : List (Nat × Nat) → State → State × Option (Nat × Nat × Nat)
  | [], s => (s, none)
  | (a, _) :: r, s =>
    let l := locate s ctx a write false
    match l.2 with
    | .fault b z va => (l.1, some (b, z, va))
    | _ => locateAll ctx write r l.1

/-- Read pieces in order: their bytes, and the status and space of a failure. -/
def readAll (ctx hostSt : Nat) : List (Nat × Nat) → List Byte → State → State × List Byte × Nat × Nat
  | [], bs, s => (s, bs, 0, 0)
  | (a, n) :: r, bs, s =>
    let l := locate s ctx a false false
    let g := readLoc l.1 (some ctx) l.2 n hostSt
    if g.2.2 ≠ 0 then (g.1, bs, g.2.2, spaceOf a) else readAll ctx hostSt r (bs ++ g.2.1) g.1

/-- Write bytes to pieces in order: the status and space of a failure. -/
def writeAll (ctx : Nat) : List (Nat × Nat) → List Byte → State → State × Nat × Nat
  | [], _, s => (s, 0, 0)
  | (a, n) :: r, bs, s =>
    let l := locate s ctx a true false
    let w := writeLoc l.1 (some ctx) l.2 (bs.take n)
    if w.2 ≠ 0 then (w.1, w.2, spaceOf a) else writeAll ctx r (bs.drop n) w.1

/-- Take one request from the channel's line where PACE is set (R470). -/
def takeRequest (s : State) (ch : Nat) (d : Desc) : State :=
  let c := getChan s ch
  if !(bitOf d.flags 0) || c.token then setChan s ch { c with st := .running }
  else if s.waiters.any (fun w => w.agent == .dma ch) || s.bankq.any (fun b => b.dest == .dma ch) then s
  else if getF s (fDMA_REQ_KIND d.line) = 0 then
    let n := getF s (fDMA_REQ_PEND d.line)
    if n = 0 then setChan s ch { c with st := .waiting }
    else setF (setChan s ch { c with st := .running, token := true }) (fDMA_REQ_PEND d.line) (n - 1)
  else
    let a := getF s (fDMA_REQ_ADDR d.line) * 8
    if !(orgAssigned a) then failRun s ch 4 0
    else
      let s := setChan s ch { c with st := .waiting }
      { s with bankq := s.bankq ++ [⟨orgSlice a, bitsOf (orgOff a) 11 5, chanPoint s ch, 0, a, .take (.fcount 1 false) true, .dma ch, 256 + ch⟩] }

/-- The packets of a run: its data cross the promenade from the router of their source to that of their destination; a FILL's
come from the spine, and a CHECK's go there (R261, R285; assumption 97). -/
def runPackets (s : State) (ch : Nat) (d : Desc) : List PromPkt :=
  let c := getChan s ch
  let src := if d.op = 1 then 8 * 2 ^ 48 else d.srcAt c.idx
  let dst := if d.op = 2 then 8 * 2 ^ 48 else d.dstAt c.idx
  (copyPieces src dst d.run).flatMap (piecePackets s c.ctx 0 (64 + ch) (chanPoint s ch) 16 false)

/-- Whether a channel's run may move its bytes: the packets of the run are not on their way.  Where it has none yet, they set out, and
phase 3 says so (R285). -/
def sendRun (s : State) (ch : Nat) (d : Desc) : State × Bool :=
  let c := getChan s ch
  let ps := runPackets s ch d
  if onTheWay s 0 (64 + ch) then (s, false)
  else if c.phase = 3 ∨ ps.isEmpty = true then (modChan s ch (fun c => { c with phase := 0 }), true)
  else (modChan { s with packets := s.packets ++ ps } ch (fun c => { c with phase := 3, heldAt := none }), false)

/-- One run, its request taken.  Its packets cross the promenade first; then its bytes move, where no other access goes before it at one
of its banks or stacks, and the static accesses leave its sub-banks free (R256, R257, R313). -/
def performRun (s : State) (ch : Nat) (d : Desc) (hostSt : Nat) : State :=
  let c := getChan s ch
  let src := d.srcAt c.idx
  let dst := d.dstAt c.idx
  let n := d.run
  let srcs := runSrcs d c.idx
  let dsts := runDsts d c.idx
  let host := srcs.any (fun p => spaceOf p.1 == 8) || dsts.any (fun p => spaceOf p.1 == 8)
  if (runPorts d).any (fun p => decide (p < 8) && portHolds s p) then setChan s ch { c with heldAt := some (c.heldAt.getD (tick s)) }
  else if (runPorts d).any (fun p => !(portTakes s p)) then failRun s ch 1 9
  else if srcs.any (fun p => waitsAt s c.ctx p.1 false) || dsts.any (fun p => waitsAt s c.ctx p.1 true) then
    setChan s ch { c with heldAt := none }
  else if outranked s (chanPoint s ch) 0 (2 * ch + 1) (runPlaces s ch d) || (runPlaces s ch d).any (fun p => decide (p < 8192) && !subFree s p) then s
  else if !((sendRun s ch d).2) then (sendRun s ch d).1
  else if hostSt = 3 ∧ host = true then
    if isSet s fHOST_LINKSTAT_ATSEN && isSet s fHOST_LINKSTAT_PRIEN then
      raisePri (setChan s ch { c with st := .faulted, heldAt := none }) c.ctx (.dma ch)
    else failRun s ch 4 8
  else
    let l := locateAll c.ctx false srcs s
    let m := locateAll c.ctx true dsts l.1
    match l.2, m.2 with
    | some (b, z, va), _ => faultChan l.1 ch b z va false
    | none, some (b, z, va) => faultChan m.1 ch b z va true
    | none, none =>
      let cls := chanPoint m.1 ch
      let c := { c with phase := 0 }
      let used := (runPlaces s ch d).filter (fun p => decide (p < 8192))
      let s := grantChan (setChan (forEach used useSub m.1) ch { c with heldAt := none }) ch
      if d.op ≠ 1 ∧ spaceOf src = 9 then
        peerRead (setChan s ch { c with st := .peer, phase := 1, heldAt := none }) (.dma ch (chanDid s ch)) (128 + ch) c.ctx
          cls [(src, n, dst)]
      else
        let r := if d.op = 1 then (s, d.pattern, 0, 0) else readAll c.ctx hostSt srcs [] s
        if r.2.2.1 ≠ 0 then failRun r.1 ch r.2.2.1 r.2.2.2
        else
          let s := modChan r.1 ch (fun c => { c with tail := c.tail ++ r.2.1 })
          if d.op ≠ 2 ∧ spaceOf dst = 9 then runToPeer s ch d
          else
            let o := outBytes s d r.2.1
            let w := writeAll c.ctx dsts o.2 o.1
            if w.2.1 ≠ 0 then failRun w.1 ch w.2.1 w.2.2 else finishRun w.1 ch d

/-- A channel performs its next run, first taking a request where PACE is set, unless another channel's burst goes before it
(R385). -/
def dmaRun (s : State) (ch hostSt : Nat) : State :=
  let c := getChan s ch
  match c.desc with
  | none => s
  | some d =>
    if (c.st ≠ .running ∧ c.st ≠ .waiting) ∨ ((chanReady s ch).isSome ∧ nextChan s ≠ some ch) then s
    else
      let s := takeRequest s ch d
      if (getChan s ch).st = .running then performRun s ch d hostSt else s

def execDmaRun (ch : Fin 64) (hostSt : Fin 4) (s : State) : Host.Outcome State Fault Refusal :=
  whenOn s (progress (dmaRun s ch.val hostSt.val))

/-- A host write to a request line: bits [15:0] are added to a line of kind 0, up to 65,535 (R470). -/
def addRequests (s : State) (l n : Nat) : State :=
  if getF s (fDMA_REQ_KIND l) = 0 then setF s (fDMA_REQ_PEND l) (min 65535 (getF s (fDMA_REQ_PEND l) + n)) else s

def execRequestLineWrite (l : Fin 256) (v : BitVec 64) (s : State) : Host.Outcome State Fault Refusal :=
  whenServed s (addRequests s l.val (v.toNat % 65536))

/-! ### Stops and kills (R473, R475) -/

def stopChan (s : State) (ch : Nat) : State := modChan s ch (fun c => if c.st = .idle then c else { c with stop := true })

/-- The channel aborts at once: what it has not sent is not sent; what still answers its old generation is stale. -/
def killChan (s : State) (ch : Nat) : State :=
  let c := getChan s ch
  let did := getF s (fCHCTL_GEN ch) * 4096 + c.pos % 4096
  let s := dropChanWaits (setF s (fCHCTL_GEN ch) (getF s (fCHCTL_GEN ch) + 1)) ch
  let s := { s with
    packets := s.packets.filter (fun p => !(p.op == 0 && p.core == 64 + ch)),
    pri := (s.pri.filter (fun p => p.sent || p.by_ != .dma ch)).map (fun p => if p.by_ == .dma ch then { p with by_ := .oldDma ch did } else p) }
  match c.st, c.desc with
  | .idle, _ => s
  | _, none => endChain (setChan s ch { c with killed := true }) ch false false
  | _, some _ => endDesc (setChan s ch { c with st := .ending, status := 7, space := 0, phase := 0, killed := true, heldAt := none }) ch true

/-- A write of CHCTL: the assignment, then STOP and KILL. -/
def writeChctl (s : State) (ch v : Nat) : State :=
  let s := match rowOf (rCHCTL ch) with
    | some r => regPut s (rCHCTL ch) (BitVec.ofNat 64 (regWritten r (regGet s (rCHCTL ch)).toNat v))
    | none => s
  let s := if bitOf v 1 then stopChan s ch else s
  if bitOf v 2 then progress (killChan s ch) else s

def execChannelKill (ch : Fin 64) (v : BitVec 64) (s : State) : Host.Outcome State Fault Refusal :=
  whenServed s (writeChctl s ch.val (putBits v.toNat 2 2 1))

def execChannelStop (ch : Fin 64) (v : BitVec 64) (s : State) : Host.Outcome State Fault Refusal :=
  whenServed s (writeChctl s ch.val (putBits v.toNat 1 1 1))

/-- Whether a request of the channel still waits for an answer. -/
def chanAwaits (s : State) (ch : Nat) : Bool :=
  (List.range 8).any (fun p => (getPort s p).txns.any (fun t => match t.who with
    | .dma c _ => c == ch
    | _ => false)) || s.pri.any (fun x => match x.by_ with
    | .dma c => c == ch
    | .oldDma c _ => c == ch
    | _ => false)

def quietChan (s : State) (ch : Nat) : State :=
  let c := getChan s ch
  if c.st = .idle ∧ (chanAwaits s ch = false ∨ c.endTick + 100000 ≤ tick s) then setF s (fCHCTL_QUIET ch) 1 else s

def execChannelQuiet (ch : Fin 64) (s : State) : Host.Outcome State Fault Refusal := whenOn s (quietChan s ch.val)

/-- A chain starts (R356, R463). -/
def startChain (s : State) (ch ctx q cmd a : Nat) : State :=
  let s := setF (setF s (fCHCTL_GEN ch) (getF s (fCHCTL_GEN ch) + 1)) (fCHCTL_QUIET ch) 0
  let s := setF (setF s (fCHSTAT_DONEN ch) 0) (fCHSTAT_BADN ch) 0
  setChan s ch { Chan.reset with st := .fetching, ctx := ctx, q := q, cmd := cmd, addr := a }

/-! ### Fault responses (R459 to R462) -/

def execDevicePageFault (s : State) : Host.Outcome State Fault Refusal := whenOn s (deliverFault s)

/-- A halted channel goes on: with its fetch, the run it halted at, or the end of its descriptor; in the YK-8 mode a
descriptor starts again from its first run (R461, R462). -/
def resumeChan (s : State) (ch : Nat) : State :=
  let c := getChan s ch
  if c.st ≠ .faulted then s
  else match c.desc with
    | none => setChan s ch { c with st := .fetching }
    | some d =>
      if c.status ≠ 0 ∨ d.runs ≤ c.idx then setChan s ch { c with st := .ending }
      else if isSet s (fCTXCTL_YK8 c.ctx) then
        setChan s ch { c with st := .running, idx := 0, csum := d.csumStart, tail := [], bytes := 0 }
      else setChan s ch { c with st := .running }

/-- The page of a halted channel cannot be had: its access fails with NO_TRANSLATION. -/
def refuseChan (s : State) (ch space : Nat) : State :=
  let c := getChan s ch
  if c.st ≠ .faulted then s
  else match c.desc with
    | none => endChain s ch false true
    | some d =>
      if c.status ≠ 0 ∨ d.runs ≤ c.idx then endDesc (setChan s ch { c with st := .ending }) ch false
      else failRun s ch 4 space

/-- A slath operation goes on from its translations; a page that cannot be had fails to translate (R311, R460). -/
def resumeSlath (s : State) (op core : Nat) (f : PageFault) (ok : Bool) : State :=
  match shareOf s op core with
  | some x =>
    match x.st with
    | .faulted _ =>
      let s := setShare s op core (.waiting 0)
      if ok then s
      else
        let t : Tlb := ⟨f.ctx, f.base, f.size, 0, false, false, none⟩
        match slaRunOf s op core with
        | some run => requestCheck (putRun s { run with refused := run.refused ++ [t] }) op core
        | none => s
    | _ => s
  | none => s

def resumeShare (s : State) (op core space : Nat) (ok : Bool) : State :=
  match shareOf s op core with
  | some x =>
    match x.st with
    | .faulted pos => if ok then setShare s op core (.waiting pos) else completeShare s op core 4 pos space
    | _ => s
  | none => s

/-- One agent that a page of a space has halted goes on or fails; a task aborted in the YK-8 mode has one fault fewer to wait for
(R458, R460 to R462). -/
def settleAgent (space : Nat) (ok : Bool) (s : State) (b : FaultBy) : State :=
  match b with
  | .task i => match getTask s i with
    | some t => setTask s i (some { t with faults := t.faults - 1 })
    | none => s
  | .share op core => resumeShare s op core space ok
  | .dma ch => if ok then resumeChan s ch else refuseChan s ch space
  | .oldDma ch did => chanStale s ch did
  | .slath _ _ => s

/-- One agent joined to a device page fault goes on or fails. -/
def settleFault (f : PageFault) (ok : Bool) (s : State) (b : FaultBy) : State :=
  match b with
  | .slath op core => resumeSlath s op core f ok
  | b => settleAgent 1 ok s b

/-- A write of FLTRESP: result 0 resumes every access joined to the fault, result 1 fails them; a stale identifier is dropped
and counted. -/
def writeFltresp (s : State) (v : Nat) : State :=
  let fid := bitsOf v 15 0
  let res := bitsOf v 17 16
  if 2 ≤ res then s
  else match s.faults.find? (fun f => f.fid == some fid) with
    | none => logEvent (bump s fDMA_FLTSTAT_STALECNT 1) 0x09 5 0 [fid, ((s.faults.findSome? (fun f =>
        if f.fid.map (fun x => x % 256) == some (fid % 256) then f.fid else none))).getD 0, 0, 0]
    | some f =>
      let s := { s with faults := s.faults.filter (fun g => g.fid != some fid) }
      let s := setF s fDMA_FLTSTAT_OPEN (s.faults.filter (fun g => g.fid.isSome)).length
      progress (forEach f.by_ (settleFault f (res == 0)) s)

def execFltresp (v : BitVec 64) (s : State) : Host.Outcome State Fault Refusal := whenServed s (writeFltresp s v.toNat)

/-! ### Translation services of PCIe (R458) -/

/-- An invalidation request of the host: the translations of PCIe addresses in a range leave the buffer, those of one
PASID only where the request carries that of a context (R582).  Every access that used them has been performed, so it completes. -/
def execAtsInvalidationRequest (c : Option (Fin 16)) (a n : Nat) (s : State) : Host.Outcome State Fault Refusal :=
  whenOn s { s with dmaTlb := s.dmaTlb.filter (fun t =>
    !(decide (8 * 2 ^ 48 ≤ t.base) && overlaps t.dpa t.size a n && (match c with
      | some c => t.pasid == pasidOf s (some c.val)
      | none => true))) }

/-- Send the page requests that the host's allocation has room for. -/
def sendPri (room : Nat) : List Pri → List Pri
  | [] => []
  | x :: xs => if x.sent then x :: sendPri room xs else match room with
    | 0 => x :: xs
    | n + 1 => { x with sent := true } :: sendPri n xs

/-- A page request group response: Success translates again, any other fails the access with NO_TRANSLATION. -/
def execPrgResponse (idx : Fin 512) (ok : Bool) (s : State) : Host.Outcome State Fault Refusal :=
  whenOn s (match s.pri.find? (fun x => x.sent && x.idx == idx.val) with
    | none => s
    | some x =>
      let l := s.pri.filter (fun y => !(y.sent && y.idx == idx.val))
      let s := { s with pri := sendPri (s.priMax - (l.filter (fun y => y.sent)).length) l }
      progress (settleAgent 8 ok s x.by_))

end Sys2Proof.Machine
end

