-- ==== Sys2Proof/Machine/Commands.lean ====
section
/-! DEFINITION. Queues and commands of the Gatehouse (spec/09 R339 to R375; spec/12 R482 to R487): doorbells, fetches, the checks
of form and of state, the acceptance of tasks and graphs, sequences, binaries and DMA chains. -/

namespace Sys2Proof.Machine

open Sys2Proof

/-! ### Rings, doorbells and fetches (R339 to R342, R359) -/

/-- The entries of a command or completion ring. -/
def ringEntries (size : Nat) : Nat := 2 ^ (min size 12 + 4)

def cmdEntries (s : State) (c q : Nat) : Nat := ringEntries (getF s (fCMDRING_SIZE c q))
def cplEntries (s : State) (c q : Nat) : Nat := ringEntries (getF s (fCPLRING_SIZE c q))

/-- `a − b` of 32-bit counts. -/
def sub32 (a b : Nat) : Nat := (a + 2 ^ 32 - b % 2 ^ 32) % 2 ^ 32

/-- A ring entry of the Gatehouse log: queue, status, DETAIL. -/
def gateLog (s : State) (c q cause status detail : Nat) : State :=
  logPut s { LogEntry.blank with kind := 0x0B, cause := cause, ctx := c, data := [q, status, detail, 0] }

/-- A doorbell (R340 to R342): dropped after a module-fatal error (R597), counted as dropped on a disabled queue, an error when its
TAIL passes the ring. -/
def doorbell (s : State) (c q tail : Nat) : State :=
  if isSet s fERRSTAT_FATAL then s
  else if !(isSet s (fQCTL_EN c q)) then bump s (fQSTAT_DBDROP c q) 1
  else if tail = getF s (fQPTR_TAIL c q) then s
  else
    let s := setF s (fQPTR_TAIL c q) tail
    if cmdEntries s c q < sub32 tail (getF s (fQPTR_HEAD c q)) then gateLog (stopQueue s c q qError 0xFF) c q 6 0 tail
    else modQ s c q (fun x => { x with bells := x.bells ++ [(tail, tick s)] })

def execDoorbell (c : Fin 16) (q : Fin 8) (v : BitVec 64) (s : State) : Host.Outcome State Fault Refusal :=
  whenServed s (doorbell s c.val q.val (v.toNat % 2 ^ 32))

/-- The doorbell time of the command at position `p`: that of the first doorbell that brings it within TAIL. -/
def bellTime (s : State) (c q p : Nat) (l : List (Nat × Nat)) : Nat :=
  match l.find? (fun b => decide (1 ≤ sub32 b.1 p) && decide (sub32 b.1 p ≤ cmdEntries s c q)) with
  | some b => b.2
  | none => tick s

/-- The queue takes commands: it is running, or paused for task capacity. -/
def queueOpen (s : State) (c q : Nat) : Bool :=
  isSet s (fQCTL_EN c q) && !(isSet s fERRSTAT_FATAL) && (qState s c q == qRunning || qState s c q == qCapacity)

/-- Read `n` commands from position `p`. -/
def fetchFrom (s : State) (c q : Nat) : Nat → Nat → List Fetched
  | _, 0 => []
  | p, n + 1 =>
    let a := getF s (fCMDRING_ADDR c q) * 32 / 64 * 64 + 64 * (p % cmdEntries s c q)
    ⟨fromHost s a 64, p, bellTime s c q p (getQ s c q).bells, none⟩ :: fetchFrom s c q ((p + 1) % 2 ^ 32) n

/-- The reads of `n` commands from position `p` go to the host, on behalf of the queue's context (R582). -/
def askCmds (s : State) (c q p n : Nat) : State :=
  forEach (List.range n) (fun s i =>
    sendUp s (some c) false (getF s (fCMDRING_ADDR c q) * 32 / 64 * 64 + 64 * ((p + i) % 2 ^ 32 % cmdEntries s c q)) 64) s

/-- Fetch the commands from HEAD up to TAIL; a read that the host does not answer with data is the last of them. -/
def fetchCmds (s : State) (c q hostSt : Nat) : State :=
  let h := getF s (fQPTR_HEAD c q)
  let n := sub32 (getF s (fQPTR_TAIL c q)) h
  if !(queueOpen s c q) || n == 0 then s
  else if hostSt = 0 then
    let s := askCmds s c q h n
    let s := modQ s c q (fun x => { x with fetched := x.fetched ++ fetchFrom s c q h n, bells := [] })
    setF s (fQPTR_HEAD c q) (getF s (fQPTR_TAIL c q))
  else
    let s := askCmds s c q h 1
    let s := modQ s c q (fun x => { x with
      fetched := x.fetched ++ [⟨[], h, bellTime s c q h x.bells, some (if hostSt = 3 then 4 else hostSt)⟩] })
    bump s (fQPTR_HEAD c q) 1

/-! ### Ends of acceptance (R348, R358, R361, R362) -/

def fld (b : List Byte) (o n : Nat) : Nat := leVal ((b.drop o).take n)

/-- The command at the front of a queue, under a key of its own. -/
def cmdOf (s : State) (f : Fetched) : Cmd where
  key := s.accepted
  pos := f.pos
  opcode := fld f.bytes 0 1
  tag := fld f.bytes 2 2
  flags := fld f.bytes 1 1
  doorbell := f.doorbell
  tasks := []
  chan := none
  bad := none
  detail := 0

/-- The oldest fetched command leaves the queue; a queue that was paused for capacity runs again. -/
def popCmd (s : State) (c q : Nat) : State :=
  let s := { s with accepted := s.accepted + 1 }
  let s := modQ s c q (fun x => { x with fetched := x.fetched.drop 1, parsed := none })
  if qState s c q = qCapacity then setF s (fQSTAT_STATE c q) qRunning else s

/-- A command completes at its acceptance. -/
def completeFront (s : State) (c q : Nat) (cm : Cmd) (status detail : Nat) : State :=
  pushRec (popCmd s c q) c q (recOf cm status detail)

def badFront (s : State) (c q : Nat) (cm : Cmd) (detail : Nat) : State :=
  stopAtRec (completeFront (gateLog s c q 2 2 detail) c q cm 2 detail) c q qError 2

def rejectFront (s : State) (c q : Nat) (cm : Cmd) (code node : Nat) : State :=
  let detail := code + 256 * node
  let s := setF (setF (setF s fGATE_REJSTAT_CODE code) fGATE_REJSTAT_CTX c) fGATE_REJSTAT_QUEUE q
  let s := bump (setF s fGATE_REJSTAT_REJ 1) fGATE_REJSTAT_REJCNT 1
  let s := completeFront (gateLog s c q 1 1 detail) c q cm 1 detail
  if bitOf cm.flags 0 then stopAtRec s c q qStopped 1 else s

/-- A read that acceptance makes has failed. -/
def fetchFailed (s : State) (c q : Nat) (cm : Cmd) (st : Nat) : State := completeFront (gateLog s c q 3 3 st) c q cm 3 st

/-- A command whose own fetch failed (R359). -/
def fetchError (s : State) (c q : Nat) (cm : Cmd) (st : Nat) : State :=
  stopAtRec (completeFront (gateLog s c q 3 3 st) c q { cm with opcode := 0, tag := 0, flags := 0 } 3 st) c q qError 3

def ringFull (s : State) (c q : Nat) : Bool :=
  decide (cplEntries s c q ≤ sub32 (getF s (fCPLPTR_CPLTAIL c q)) (getF s (fCPLPTR_CPLHEAD c q)))

def taskOp (op : Nat) : Bool := op == 1 || op == 2 || op == 9

/-- Whether the queue may accept its oldest fetched command now (R343 to R345). -/
def mayAccept (s : State) (c q : Nat) (f : Fetched) : Bool :=
  let x := getQ s c q
  queueOpen s c q && !(x.recs.any (fun r => !(taskOp r.opcode))) && !(!x.recs.isEmpty && ringFull s c q) &&
  !(x.cmds.any (fun cm => cm.opcode == 8)) && (!(bitOf (fld f.bytes 1 1) 1) || (x.cmds.isEmpty && x.recs.isEmpty))

/-- Front commands that have no meaning of their own: a fetch that failed, an opcode that the table does not name. -/
def settleFront (c q : Nat) (s : State) : State :=
  match (getQ s c q).fetched with
  | [] => s
  | f :: _ =>
    if !(mayAccept s c q f) then s
    else match f.bad with
      | some st => fetchError s c q (cmdOf s f) st
      | none => if 10 ≤ fld f.bytes 0 1 then badFront s c q (cmdOf s f) 0 else s

def execCommandFetch (c : Fin 16) (q : Fin 8) (hostSt : Fin 4) (s : State) : Host.Outcome State Fault Refusal :=
  whenOn s (settleFront c.val q.val (fetchCmds s c.val q.val hostSt.val))

/-! ### Form (R347, R348) -/

/-- A check of one field: whether it fails, and its offset. -/
abbrev Check := Bool × Nat

/-- The lowest offset of a check that fails. -/
def firstBad (l : List Check) : Option Nat :=
  l.foldl (fun m c => if !c.1 then m else match m with
    | some o => some (min o c.2)
    | none => some c.2) none

/-- Every nonzero byte outside the fields used, from offset `lo` up to `hi`. -/
def unusedBytes (b : List Byte) (lo hi : Nat) (used : List (Nat × Nat)) : List Check :=
  ((rangeFrom lo (hi - lo)).filter (fun i => !(used.any (fun u => decide (u.1 ≤ i) && decide (i < u.1 + u.2))))).map
    (fun i => (b.getD i 0#8 != 0#8, i))

def headerChecks (b : List Byte) : List Check := (fld b 1 1 / 16 != 0, 1) :: unusedBytes b 4 8 []

/-- A device address that a list or a block may have (R349). -/
def listSpace (s : State) (c a : Nat) : Bool :=
  decide (a < 2 ^ 52) && (spaceOf a == 0 || spaceOf a == 1 || spaceOf a == 8 || (spaceOf a == 2 && hasPriv s c))

/-- The checks of a task body (R349), by offset within it. -/
def bodyChecks (s : State) (c : Nat) (b : List Byte) : List Check :=
  let f := fld b
  let cls := f 2 1
  let nseq := f 10 2
  let rdy := bitOf (f 7 1) 3
  [(f 1 1 / 16 != 0, 1), (decide (4 < cls) || (cls == 4 && nseq == 0), 2), (decide (3 < f 3 1), 3),
   (decide (31 < f 6 1) && f 6 1 != 0xFF, 6), (f 7 1 / 16 != 0, 7), (decide (1024 < nseq), 10), (nseq == 1 && decide (1023 < f 12 2), 12),
   (decide (32 < f 14 1), 14), (decide (16 < f 15 1), 15), (decide (2 ≤ nseq) && !(f 16 8 % 2 == 0 && listSpace s c (f 16 8)), 16),
   (f 14 1 != 0 && !(f 24 8 % 8 == 0 && listSpace s c (f 24 8)), 24),
   (f 15 1 != 0 && !(f 32 8 % 16 == 0 && listSpace s c (f 32 8)), 32), (rdy && !(f 40 8 % 8 == 0 && decide (f 40 8 < 2 ^ 48)), 40)] ++
  unusedBytes b 48 56 []

/-- The checks of every command but TASK (R352 to R356), with the bytes that it uses. -/
def formChecks (s : State) (c op : Nat) (b : List Byte) : List Check :=
  let f := fld b
  let seq : List Check := [(decide (3 < f 10 1), 10), (f 11 1 != 0, 11), (f 15 1 != 0, 15),
    (f 16 8 != 0 && !(decide (f 16 8 < 2 ^ 52) && spaceOf (f 16 8) == 1 && f 16 8 % 64 == 0), 16)]
  headerChecks b ++
  match op with
  | 2 => [(!(f 8 8 % 64 == 0 && listSpace s c (f 8 8)), 8), (f 16 2 == 0 || decide (256 < f 16 2), 16)] ++ unusedBytes b 8 64 [(8, 10)]
  | 3 => [(decide (1023 < f 8 2) && f 8 2 != 0xFFFF, 8)] ++ seq ++ unusedBytes b 8 64 [(8, 16)]
  | 4 => [(decide (1023 < f 8 2), 8), (f 24 1 / 16 != 0, 24)] ++ seq ++ unusedBytes b 8 64 [(8, 17)]
  | 5 => [(decide (1023 < f 8 2), 8)] ++ unusedBytes b 8 64 [(8, 2)]
  | 6 => [(!(listSpace s c (f 8 8)), 8), (decide (f 16 4 < 64) || decide (16777216 < f 16 4), 16)] ++ unusedBytes b 8 64 [(8, 13)]
  | 7 => [(f 9 1 / 16 != 0, 9)] ++ unusedBytes b 8 64 [(8, 2)]
  | 8 => unusedBytes b 8 64 [(8, 2)]
  | 9 => [(decide (63 < f 8 2), 8), (!(descAddrOk (f 16 8)), 16)] ++ unusedBytes b 8 64 [(8, 2), (16, 8)]
  | _ => unusedBytes b 8 64 []

/-! ### Lists (R349 to R353) -/

/-- Read device memory for a context: its bytes and the status of R179.  A list that runs past the end of its space cannot be read
(R295, R666).  `hostSt` is how the host answers. -/
def readDev (s : State) (c a n hostSt : Nat) : State × List Byte × Nat :=
  if spaceOf (a + n - 1) ≠ spaceOf a then (s, [], 4)
  else
    let r := readAll c (if hostSt = 3 then 4 else hostSt) (cutAt 4096 (n / 4096 + 2) a n) [] s
    (r.1, r.2.1, r.2.2.1)

/-- Whether a read of device memory has to wait for a stack. -/
def readWaits (s : State) (c a n : Nat) : Bool := (cutAt 4096 (n / 4096 + 2) a n).any (fun p => waitsAt s c p.1 false)

/-- How the reading of lists ends: what was read, a read that waits, a failed read with its status, or a malformed part with
DETAIL. -/
inductive Read (α : Type) where
  | ok (s : State) (v : α)
  | waits
  | failed (s : State) (st : Nat)
  | bad (s : State) (detail : Nat)

/-- The first entry of a slot list that is out of range or named before. -/
def badSlot : List Nat → Nat → List Nat → Option (Nat × Nat)
  | _, _, [] => none
  | seen, i, x :: xs =>
    if 1023 < x then some (i, 1) else if seen.contains x then some (i, 0) else badSlot (x :: seen) (i + 1) xs

/-- The offset of the first malformed byte of an output range entry (R351). -/
def badOut (e : List Byte) : Option Nat :=
  let n := fld e 8 4
  firstBad ([(decide (n < 8) || decide (25165824 < n) || n % 8 != 0, 8), (fld e 12 1 / 2 != 0, 12)] ++ unusedBytes e 13 16 [])

def badOutAt : Nat → List (List Byte) → Option (Nat × Nat)
  | _, [] => none
  | i, e :: es => match badOut e with
    | some o => some (i, o)
    | none => badOutAt (i + 1) es

def outEntry (e : List Byte) : Bool × Nat × Nat := (bitOf (fld e 12 1) 0, fld e 0 8, fld e 8 4)

/-- The DETAIL of a malformed list entry. -/
def entryDetail (field node : Nat) (e : Nat × Nat) : Nat := field + 256 * node + 65536 * e.1 + 2 ^ 32 * e.2

/-- Read the lists that a body names; `base` is the body's offset in its command or node. -/
def readBody (s : State) (c node hostSt : Nat) (b : List Byte) : Read TaskBody :=
  let f := fld b
  let nseq := f 10 2
  let nout := f 15 1
  if (decide (2 ≤ nseq) && readWaits s c (f 16 8) (2 * nseq)) || (nout != 0 && readWaits s c (f 32 8) (16 * nout)) then .waits
  else
    let r := if nseq ≤ 1 then (s, [], 0) else readDev s c (f 16 8) (2 * nseq) hostSt
    if r.2.2 ≠ 0 then .failed r.1 r.2.2
    else
      let seqs := if nseq = 0 then [] else if nseq = 1 then [f 12 2] else (chunk 2 nseq r.2.1).map leVal
      match badSlot [] 0 seqs with
      | some e => .bad r.1 (entryDetail 24 node e)
      | none =>
        let o := if nout = 0 then (r.1, [], 0) else readDev r.1 c (f 32 8) (16 * nout) hostSt
        if o.2.2 ≠ 0 then .failed o.1 o.2.2
        else
          let es := chunk 16 nout o.2.1
          match badOutAt 0 es with
          | some e => .bad o.1 (entryDetail 40 node e)
          | none => .ok o.1 {
              bin := f 0 2, cls := f 2 1, width := f 3 1, streams := f 4 2, wreg := f 6 1, retry := bitOf (f 7 1) 0,
              maxtry := bitsOf (f 7 1) 2 1, rdy := bitOf (f 7 1) 3, urgth := f 8 2, seqs := seqs, plen := f 14 1,
              outs := es.map outEntry, param := f 24 8, ready := f 40 8 }

/-- The checks of a node before its body (R352, R353). -/
def nodeChecks (i : Nat) (b : List Byte) : List Check :=
  (List.range 6).map (fun j => (fld b j 1 != 0xFF && decide (i ≤ fld b j 1), j)) ++
  [(fld b 6 1 / 2 != 0 || (fld b 18 2 != 0 && fld b 6 1 % 2 == 0), 6), (fld b 7 1 != 0, 7)]

/-- Check and read the nodes of a graph in ascending order. -/
def readNodes (c hostSt : Nat) : Nat → List (List Byte) → List Node → State → Read (List Node)
  | _, [], l, s => .ok s l
  | i, b :: bs, l, s =>
    match firstBad (nodeChecks i b ++ (bodyChecks s c (b.drop 8)).map (fun x => (x.1, x.2 + 8))) with
    | some o => .bad s (o + 256 * i)
    | none =>
      match readBody s c i hostSt (b.drop 8) with
      | .waits => .waits
      | .failed s st => .failed s st
      | .bad s d => .bad s d
      | .ok s body =>
        let preds := (((List.range 6).map (fun j => fld b j 1)).filter (fun p => p != 0xFF)).eraseDups
        readNodes c hostSt (i + 1) bs (l ++ [⟨some i, preds, bitOf (fld b 6 1) 0, body⟩]) s

/-- The form of a TASK or GRAPH, and every list that it reads (R361 step 1). -/
def readTasks (s : State) (c hostSt : Nat) (b : List Byte) : Read (List Node) :=
  if fld b 0 1 = 1 then
    match firstBad (headerChecks b ++ (bodyChecks s c (b.drop 8)).map (fun x => (x.1, x.2 + 8))) with
    | some o => .bad s o
    | none =>
      match readBody s c 0 hostSt (b.drop 8) with
      | .ok s body => .ok s [⟨none, [], true, body⟩]
      | .waits => .waits
      | .failed s st => .failed s st
      | .bad s d => .bad s d
  else
    match firstBad (formChecks s c 2 b) with
    | some o => .bad s o
    | none =>
      let n := fld b 16 2
      if readWaits s c (fld b 8 8) (64 * n) then .waits
      else
        let r := readDev s c (fld b 8 8) (64 * n) hostSt
        if r.2.2 ≠ 0 then .failed r.1 r.2.2 else readNodes c hostSt 0 (chunk 64 n r.2.1) [] r.1

/-! ### Preconditions of tasks (R361) -/

def slotOpen (s : State) (sl : Nat) : Bool := isSet s (fSEQA_OPEN sl)
def slotCtx (s : State) (sl : Nat) : Nat := getF s (fSEQA_CTX sl)

/-- A handle is loaded with the generation that it carries. -/
def handleOk (s : State) (c h : Nat) : Bool :=
  let b := getBin s c (h % 256)
  b.loaded && b.gen == h / 256 % 16

/-- The places of one output range that precondition 0x0B checks (R351). -/
def outPlaces (b : TaskBody) (o : Bool × Nat × Nat) : List Nat :=
  if o.1 then ((List.range 16).filter (strAllowed b)).flatMap (fun k => (slicesOf b.width k).map (fun m => orgAddr m (o.2.1 % 2 ^ 25)))
  else [o.2.1]

/-- The first precondition that a body fails; 0 for none. -/
def bodyReject (s : State) (c : Nat) (b : TaskBody) : Nat :=
  if b.seqs.any (fun sl => !(slotOpen s sl)) then 0x03
  else if b.seqs.any (fun sl => slotCtx s sl != c) then 0x04
  else if !(handleOk s c b.bin) then 0x06
  else if !(canEver s b) then 0x0A
  else if b.outs.any (fun o => (outPlaces b o).any (fun a => !(rangeOwned s c false a o.2.2))) || (b.rdy && !(rangeOwned s c false b.ready 8)) then 0x0B
  else 0

def firstReject (s : State) (c : Nat) : List Node → Option (Nat × Nat)
  | [] => none
  | n :: ns => match bodyReject s c n.body with
    | 0 => firstReject s c ns
    | code => some (code, n.idx.getD 0)

/-- Room for `n` more tasks of a context (R367, R371). -/
def taskRoom (s : State) (c n : Nat) : Bool :=
  let m := getF s (fCTXCTL_MAXTASK c)
  let l := unended s
  decide (l.length + n ≤ 4096) && decide ((l.filter (fun p => p.2.ctx == c)).length + n ≤ (if m = 0 then 4096 else m)) &&
  decide ((taskList s).length + n ≤ 4096)

/-! ### Accepting tasks (R367 to R372) -/

/-- The next free index after the last one assigned. -/
def nextIndex (s : State) : Nat :=
  (((List.range 4096).map (fun i => (s.lastId + 1 + i) % 4096)).find? (fun i => (getTask s i).isNone)).getD 0

/-- What the Gatehouse sees in a readiness word at acceptance: 1 full, 2 poisoned. -/
def readyNow (s : State) (b : TaskBody) : Nat :=
  if !b.rdy then 0
  else match seenMeta s b.ready with
    | .empty => 0
    | .full => 1
    | .poisoned => 2

/-- Accept one node: its task under the next free ID. -/
def addTask (s : State) (c q : Nat) (cm : Cmd) (n : Node) : State × Nat :=
  let i := nextIndex s
  let g := (amGet (fun _ => 0) s.gens i + 1) % 16
  let cls := if n.body.cls = 4 then getF s (fSEQA_CLASS (n.body.seqs.headD 0)) else n.body.cls
  let t : Task := {
    id := 4096 * g + i, ctx := c, q := q, cmd := cm.key, node := n.idx, cpl := n.cpl, preds := n.preds, body := n.body, cls := cls,
    doorbell := cm.doorbell, order := s.accepted, dlprom := false, attempts := 0, aborts := 0, preempted := false, retried := false, coll := false,
    collAt := none, word := readyNow s n.body, st := .waiting, last := none, saved := none, dispatched := 0, endTick := 0, faults := 0 }
  (setTask { s with gens := amSet (fun _ => 0) s.gens i g, lastId := i, accepted := s.accepted + 1 } i (some t), t.id)

def addTasks (c q : Nat) (cm : Cmd) : List Node → State → State × List Nat
  | [], s => (s, [])
  | n :: ns, s =>
    let r := addTask s c q cm n
    let l := addTasks c q cm ns r.1
    (l.1, r.2 :: l.2)

/-- The nodes of a TASK or GRAPH are checked and read: code 0x0D has been checked; capacity, the other preconditions, and the
acceptance follow (R361 steps 3 and 4). -/
def acceptNodes (s : State) (c q : Nat) (cm : Cmd) (l : List Node) : State :=
  if !(taskRoom s c l.length) then setF (modQ s c q (fun x => { x with parsed := some l })) (fQSTAT_STATE c q) qCapacity
  else match firstReject s c l with
    | some r => rejectFront s c q cm r.1 r.2
    | none =>
      let r := addTasks c q cm l (popCmd s c q)
      modQ r.1 c q (fun x => { x with cmds := x.cmds ++ [{ cm with tasks := r.2 }] })

/-- Accept a TASK or GRAPH. -/
def acceptTasks (hostSt c q : Nat) (cm : Cmd) (b : List Byte) (s : State) : State :=
  match (getQ s c q).parsed with
  | some l => acceptNodes s c q cm l
  | none =>
    match readTasks s c hostSt b with
    | .waits => s
    | .failed s st => fetchFailed s c q cm st
    | .bad s d => badFront s c q cm d
    | .ok s l => if isSet s (fCTXCTL_EN c) then acceptNodes s c q cm l else rejectFront s c q cm 0x0D 0

/-- Accept the oldest fetched command of a queue where its opcode is `op`. -/
def acceptFront (c q op : Nat) (eff : Cmd → List Byte → State → State) (s : State) : State :=
  match (getQ s c q).fetched with
  | [] => s
  | f :: _ =>
    if f.bad.isSome || fld f.bytes 0 1 != op || !(mayAccept s c q f) then settleFront c q s
    else progress (settleFront c q (eff (cmdOf s f) f.bytes s))

def execTask (c : Fin 16) (q : Fin 8) (hostSt : Fin 4) (s : State) : Host.Outcome State Fault Refusal :=
  whenOn s (acceptFront c.val q.val 1 (acceptTasks hostSt.val c.val q.val) s)

def execGraph (c : Fin 16) (q : Fin 8) (hostSt : Fin 4) (s : State) : Host.Outcome State Fault Refusal :=
  whenOn s (acceptFront c.val q.val 2 (acceptTasks hostSt.val c.val q.val) s)

/-! ### Commands that complete at acceptance -/

/-- Check the form of a command and code 0x0D, then give it its effect. -/
def plainCmd (c q op : Nat) (eff : Cmd → List Byte → State → State) (cm : Cmd) (b : List Byte) (s : State) : State :=
  match firstBad (formChecks s c op b) with
  | some o => badFront s c q cm o
  | none => if isSet s (fCTXCTL_EN c) then eff cm b s else rejectFront s c q cm 0x0D 0

def execNop (c : Fin 16) (q : Fin 8) (s : State) : Host.Outcome State Fault Refusal :=
  whenOn s (acceptFront c.val q.val 0 (plainCmd c.val q.val 0 (fun cm _ s => completeFront s c.val q.val cm 0 0)) s)

/-! ### Sequences (R354, R373, R375, R637) -/

def putSlotField (s : State) (sl cls deadline pt : Nat) (mask : Nat) : State :=
  let s := if bitOf mask 0 then setF s (fSEQA_CLASS sl) cls else s
  let s := if bitOf mask 1 then setF s (fSEQB_DEADLINE sl) deadline else s
  if bitOf mask 2 then setF s (fSEQA_PTADDR sl) (pt / 64) else s

/-- Open a slot: its fields, no late steps, its meter at 0. -/
def openSlot (s : State) (c sl : Nat) (b : List Byte) : State :=
  let s := setF (setF s (fSEQA_OPEN sl) 1) (fSEQA_CTX sl) c
  let s := putSlotField s sl (fld b 10 1) (fld b 12 3) (fld b 16 8) 7
  let s := setF (setF s (fSEQB_LATECNT sl) 0) (fMTRNOW_ELAPSED sl) 0
  setF (setF s (fMTRHIST_LAST sl) 0) (fMTRHIST_WORST sl) 0

def openSeq (c q : Nat) (cm : Cmd) (b : List Byte) (s : State) : State :=
  let n := fld b 8 2
  if n = 0xFFFF then
    match (List.range 1024).find? (fun sl => !(slotOpen s sl)) with
    | none => rejectFront s c q cm 0x02 0
    | some sl => completeFront (openSlot s c sl b) c q cm 0 sl
  else if slotOpen s n then rejectFront s c q cm 0x01 0
  else completeFront (openSlot s c n b) c q cm 0 n

def execOpenSeq (c : Fin 16) (q : Fin 8) (s : State) : Host.Outcome State Fault Refusal :=
  whenOn s (acceptFront c.val q.val 3 (plainCmd c.val q.val 3 (openSeq c.val q.val)) s)

def setSeq (c q : Nat) (cm : Cmd) (b : List Byte) (s : State) : State :=
  let sl := fld b 8 2
  if !(slotOpen s sl) then rejectFront s c q cm 0x03 0
  else if slotCtx s sl ≠ c then rejectFront s c q cm 0x04 0
  else
    let mask := fld b 24 1
    let s := putSlotField s sl (fld b 10 1) (fld b 12 3) (fld b 16 8) mask
    let s := if bitOf mask 3 then setF (setF s (fSEQB_LATECNT sl) 0) (fMTRHIST_WORST sl) 0 else s
    completeFront s c q cm 0 0

def execSetSeq (c : Fin 16) (q : Fin 8) (s : State) : Host.Outcome State Fault Refusal :=
  whenOn s (acceptFront c.val q.val 4 (plainCmd c.val q.val 4 (setSeq c.val q.val)) s)

def closeSeq (c q : Nat) (cm : Cmd) (b : List Byte) (s : State) : State :=
  let sl := fld b 8 2
  if !(slotOpen s sl) then rejectFront s c q cm 0x03 0
  else if slotCtx s sl ≠ c then rejectFront s c q cm 0x04 0
  else if (unended s).any (fun p => p.2.body.seqs.contains sl) then rejectFront s c q cm 0x05 0
  else completeFront (setF s (fSEQA_OPEN sl) 0) c q cm 0 (getF s (fSEQB_LATECNT sl))

def execCloseSeq (c : Fin 16) (q : Fin 8) (s : State) : Host.Outcome State Fault Refusal :=
  whenOn s (acceptFront c.val q.val 5 (plainCmd c.val q.val 5 (closeSeq c.val q.val)) s)

/-! ### Binaries (R363, R364, R482 to R487) -/

def areaBase (s : State) (c : Nat) : Nat := getF s (fBINAREA_BASE c) * 65536
def areaCount (s : State) (c : Nat) : Nat := getF s (fBINAREA_COUNT c)

/-- The Gatehouse area is there: in one slice, every granule RES and owned. -/
def areaOk (s : State) (c : Nat) : Bool := areaCount s c != 0 && rangeOwned s c true (areaBase s c) (65536 * areaCount s c)

/-- The 4 KiB units of the area that no loaded binary of the context holds. -/
def freeUnits (s : State) (c : Nat) : List Nat :=
  let used := (List.range 256).flatMap (fun i => (getBin s c i).units)
  (List.range (16 * areaCount s c)).filter (fun u => !(used.contains u))

/-- A plan is malformed (R487). -/
def planBad (plan : List PlanEntry) : Bool :=
  plan.any (fun e => decide (4 ≤ e.dir) || decide (8 ≤ e.x) || decide (8 ≤ e.dy) || decide (16 ≤ e.slot)) ||
  plan.eraseDups.length != plan.length ||
  plan.any (fun e => decide (15 < (plan.filter (fun d => d.dir == e.dir && d.x == e.x && d.dy == e.dy)).length))

/-- The refusal cause of a binary, 0 for none, with its decoded body (R483). -/
def checkBin (s : State) (b : List Byte) (len : Nat) : Nat × Option BinBody :=
  let ltid := fld b 6 1
  let flags := fld b 7 1
  if fld b 0 4 ≠ 0x4654564E ∨ fld b 8 4 ≠ len then (0x01, none)
  else if fld b 4 2 ≠ 1 then (0x02, none)
  else if fld b 12 4 ≠ crc32c 0 (b.drop 16) then (0x03, none)
  else if 2 ≤ ltid ∨ flags / 4 ≠ 0 then (0x04, none)
  else match Config.decodeBody (b.drop 16) with
    | none => (0x09, none)
    | some d =>
      if s.part = .a1 ∧ ltid = 1 then (0x05, none)
      else if 64 < d.programs.length ∨ d.programs.any (fun p => decide (32 < p.length)) = true ∨ 64 < d.routines.length ∨
          d.routines.any (fun n => decide (256 < n)) = true then (0x06, none)
      else if planBad d.plan then (0x07, none)
      else if bitOf flags 1 ∧ isSet s fGATE_MODECFG_ORDSTRICT = true ∧ isSet s fGATE_MODECFG_ORDERED = false then (0x08, none)
      else (0, some d)

/-- The bytes that a loaded binary leaves in its units: a layout that is not published (R364; assumption 4). -/
def writeUnits (s : State) (c : Nat) (units : List Nat) : State :=
  forEach units (fun s u =>
    let r := drawBytes 4096 s
    orgWrite r.1 (areaBase s c + 4096 * u) r.2) s

def loadBin (hostSt c q : Nat) (cm : Cmd) (b : List Byte) (s : State) : State :=
  let a := fld b 8 8
  let n := fld b 16 4
  let i := fld b 20 1
  let units := (freeUnits s c).take ((n + 4095) / 4096)
  if (getBin s c i).loaded then rejectFront s c q cm 0x07 0
  else if !(areaOk s c) || decide (units.length < (n + 4095) / 4096) then rejectFront s c q cm 0x08 0
  else if readWaits s c a n then s
  else
    let r := readDev s c a n hostSt
    if r.2.2 ≠ 0 then fetchFailed r.1 c q cm r.2.2
    else match checkBin r.1 r.2.1 n with
      | (_, some d) =>
        let g := ((getBin s c i).gen + 1) % 16
        let s := setBin (writeUnits r.1 c units) c i {
          gen := g, loaded := true, units := units, bytes := n, lt := if fld r.2.1 6 1 = 0 then .a1 else .b0,
          check := bitOf (fld r.2.1 7 1) 0, needord := bitOf (fld r.2.1 7 1) 1, body := d }
        completeFront s c q cm 0 (i + 256 * g)
      | (cause, none) => completeFront r.1 c q cm 9 cause

def execLoadBin (c : Fin 16) (q : Fin 8) (hostSt : Fin 4) (s : State) : Host.Outcome State Fault Refusal :=
  whenOn s (acceptFront c.val q.val 6 (plainCmd c.val q.val 6 (loadBin hostSt.val c.val q.val)) s)

def unloadBin (c q : Nat) (cm : Cmd) (b : List Byte) (s : State) : State :=
  let h := fld b 8 2
  if !(handleOk s c h) then rejectFront s c q cm 0x06 0
  else if (unended s).any (fun p => p.2.ctx == c && p.2.body.bin == h) then rejectFront s c q cm 0x07 0
  else completeFront (setBin s c (h % 256) { Bin.reset with gen := (getBin s c (h % 256)).gen }) c q cm 0 0

def execUnloadBin (c : Fin 16) (q : Fin 8) (s : State) : Host.Outcome State Fault Refusal :=
  whenOn s (acceptFront c.val q.val 7 (plainCmd c.val q.val 7 (unloadBin c.val q.val)) s)

/-! ### DMA chains (R356, R463) -/

/-- A channel takes a chain: enabled, of this context, idle, QUIET, and not hedged. -/
def chanTakes (s : State) (c ch : Nat) : Bool :=
  isSet s (fCHCTL_EN ch) && getF s (fCHCTL_CTX ch) == c && (getChan s ch).st == .idle && isSet s (fCHCTL_QUIET ch) &&
  !(getBit s fHEDGEDMA_MAP ch)

def dmaStart (c q : Nat) (cm : Cmd) (b : List Byte) (s : State) : State :=
  let ch := fld b 8 2
  if !(chanTakes s c ch) then rejectFront s c q cm 0x0C 0
  else
    let s := modQ (popCmd s c q) c q (fun x => { x with cmds := x.cmds ++ [{ cm with chan := some ch }] })
    startChain s ch c q cm.key (fld b 16 8)

def execDmaStart (c : Fin 16) (q : Fin 8) (s : State) : Host.Outcome State Fault Refusal :=
  whenOn s (acceptFront c.val q.val 9 (plainCmd c.val q.val 9 (dmaStart c.val q.val)) s)

/-! ### Readiness words beyond the watched ones (R370) -/

/-- Every 2 µs (R370). -/
def execReadinessPoll (s : State) : Host.Outcome State Fault Refusal :=
  whenOn s (every evReadiness 200 (fun s =>
    progress (forEach (watchers s) (fun s p =>
      match getTask s p.1 with
      | some t => setTask s p.1 (some { t with word := readyNow s t.body })
      | none => s) s)) s)

end Sys2Proof.Machine
end

