-- ==== Sys2Proof/Machine/Kills.lean ====
section
/-! DEFINITION. Kills (spec/09 R398 to R400), completion records (R345, R346, R357 to R360, R374; spec/16 R636), task IDs (R371),
and the switches of queues and contexts (R339, R341, R362, R401, R596). -/

namespace Sys2Proof.Machine

open Sys2Proof

/-! ### Kills (R398 to R400) -/

/-- COMMIT has reached step 2 (R399). -/
def committing (t : Stream) : Bool :=
  t.ended == some endCommitted || (match t.wait with
    | .commit2 => true
    | .commit3 => true
    | _ => false)

/-- A full/empty operation completes CANCELLED: it is counted, and nothing is left of it (R191, R398). -/
def cancelFe (s : State) (op core : Nat) : State :=
  countSop (dropOp { s with bankq := s.bankq.filter (fun b => b.dest != .remote op),
                            waiters := s.waiters.filter (fun w => w.agent != .remote op) } op) core 7 (cplValue 7 0 0)

/-- Stop one share of a killed task's operation: what has not started, or waits, completes CANCELLED; what a peer or a creel
has been sent is left to end (R179, R328). -/
def cancelShare (op : Nat) (s : State) (x : Share) : State :=
  match x.st, x.op with
  | .done _, _ => s
  | _, .slath _ _ _ _ _ => cancelSlath s op x.core
  | .waiting _, .fe _ _ => cancelFe s op x.core
  | .sent, .fe a _ =>
    if spaceOf a = 9 then s
    else if s.bankq.any (fun b => b.dest == .remote op) || s.waiters.any (fun w => w.agent == .remote op) then
      cancelFe s op x.core
    else s
  | .sent, _ => s
  | .faulted pos, _ => completeShare s op x.core 7 pos 0
  | .waiting pos, _ => completeShare s op x.core 7 pos 0

/-- Stop the operations of a task. -/
def cancelOps (s : State) (id : Nat) : State :=
  forEach (s.ops.filter (fun p => p.2.ofTask id)) (fun s p => forEach p.2.shares (cancelShare p.1) s) s

/-- What a pre-empted task holds is discarded. -/
def discardSaved (s : State) (t : Task) : State :=
  match t.saved with
  | none => s
  | some sv => dropSaved s sv.stream

/-- A running task is killed: its stream stops, its handlers end, its operations stop. -/
def killRunning (s : State) (k : Nat) (t : Task) : State :=
  if committing (getStr s k) then s
  else
    let cores := (getStr s k).cores
    let s := stopStream k endKilled s
    let s := forEach cores (fun s m => match (getCore s m).handler with
      | some h => if getF s (crlCTX h.creel) = t.ctx then cutHandler s m else s
      | none => s) s
    cancelOps s t.id

/-- Kill one task; one whose COMMIT has reached step 2 is left alone. -/
def killTask (s : State) (i : Nat) : State :=
  match getTask s i with
  | none => s
  | some t =>
    match t.st with
    | .ended _ _ => s
    | .running k => killRunning s k t
    | .preempting k _ _ _ => killRunning s k t
    | _ => endTask (poisonOuts (cancelOps (discardSaved s t) t.id) t) i 7 0

/-- Kill tasks; those that the kill names end KILLED, even where one is another's predecessor. -/
def killTasks (s : State) (l : List Nat) : State :=
  let waiting := l.filter (fun i => match getTask s i with
    | some t => (match t.st with
        | .running _ => false
        | .preempting _ _ _ _ => false
        | .ended _ _ => false
        | _ => true)
    | none => false)
  let s := forEach waiting (fun s i => match getTask s i with
    | some t => poisonOuts (cancelOps (discardSaved s t) t.id) t
    | none => s) s
  let s := endTasks 4400 (waiting.map (fun i => (i, 7, 0))) s
  forEach l killTask s

/-- Whether the kill finds a task that has begun to commit. -/
def killsCommitting (s : State) (l : List (Nat × Task)) : Bool :=
  l.any (fun p => match p.2.st with
    | .running k => committing (getStr s k)
    | _ => false)

def kill (c q : Nat) (cm : Cmd) (b : List Byte) (s : State) : State :=
  let id := fld b 8 2
  let own := (unended s).filter (fun p => p.2.ctx == c && p.2.q == q)
  let l := if id = 0xFFFF then own else own.filter (fun p => p.2.id == id)
  if id ≠ 0xFFFF ∧ amGet (fun _ => 0) s.gens (id % 4096) ≠ id / 4096 then rejectFront (staleTask s id) c q cm 0x09 0
  else if id ≠ 0xFFFF ∧ l.isEmpty = true then rejectFront s c q cm 0x09 0
  else
    let s := gateLog (popCmd s c q) c q 4 0 id
    let s := modQ s c q (fun x => { x with cmds := x.cmds ++
      [{ cm with tasks := l.map (fun p => p.2.id), detail := if killsCommitting s l then 1 else 0 }] })
    completeCmds (killTasks s (l.map Prod.fst)) c q

def execKill (c : Fin 16) (q : Fin 8) (s : State) : Host.Outcome State Fault Refusal :=
  whenOn s (acceptFront c.val q.val 8 (plainCmd c.val q.val 8 (kill c.val q.val)) s)

/-- The slath operations that a context still has beside those of its unended tasks: its handlers' and its ended tasks' (R328). -/
def restSlath (s : State) (c : Nat) : List (Nat × DynOp) :=
  s.ops.filter (fun p => p.2.ctx == c && !((unended s).any (fun t => p.2.ofTask t.2.id)))

/-- A queue of a killed context accepts nothing more (R400); one that was enabled raises its vector (R578). -/
def killQueue (s : State) (c q : Nat) : State :=
  let s' := setF s (fQSTAT_STATE c q) qKilled
  if isSet s (fQCTL_EN c q) then raiseVec s' (getF s (fQCTL_VEC c q)) else s'

/-- Kill every task of a context, and end its handlers (R152, R328, R400). -/
def killContext (s : State) (c : Nat) : State :=
  let l := ((unended s).filter (fun p => p.2.ctx == c)).map Prod.fst
  let s := forEach (List.range 8) (fun s q => killQueue s c q) s
  let s := forEach (List.range 64) (fun s m => match (getCore s m).handler with
    | some h => if getF s (crlCTX h.creel) = c then cutHandler s m else s
    | none => s) s
  let s := forEach ((List.range 64).filter (fun ch => (getChan s ch).st != .idle && (getChan s ch).ctx == c)) killChan s
  let s := killTasks s l
  let s := forEach (restSlath s c) (fun s p => forEach p.2.shares (fun s x => match x.op with
    | .slath _ _ _ _ _ => cancelShare p.1 s x
    | _ => s) s) s
  progress (gateLog s c 0 4 0 0xFFFF)

/-- A write of CTXKILL. -/
def writeCtxkill (s : State) (c v : Nat) : State := if bitOf v 0 then killContext s c else s

def execCtxkill (c : Fin 16) (v : BitVec 64) (s : State) : Host.Outcome State Fault Refusal := whenServed s (writeCtxkill s c.val v.toNat)

/-! ### Meters (R24, R374, R636) -/

/-- The tasks that name a slot and whose record, or the instant of it, is still to come; the oldest doorbell first. -/
def meterTasks (s : State) (sl : Nat) : List (Nat × Task) :=
  sortBy (fun a b => decide (a.2.doorbell ≤ b.2.doorbell)) ((taskList s).filter (fun p => p.2.body.seqs.contains sl))

def elapsed (s : State) (bell : Nat) : Nat := min (tick s - bell) 0xFFFFFFFF

def lateAt (s : State) (el sl : Nat) : Bool :=
  let d := getF s (fSEQB_DEADLINE sl)
  d != 0 && decide (100 * d < el)

/-- The meter of a slot takes the ELAPSED of a task that ends. -/
def stopMeter (el : Nat) (s : State) (sl : Nat) : State :=
  let s := if lateAt s el sl then bump s (fSEQB_LATECNT sl) 1 else s
  let s := setF (setF s (fMTRNOW_ELAPSED sl) el) (fMTRHIST_LAST sl) el
  setF s (fMTRHIST_WORST sl) (max (getF s (fMTRHIST_WORST sl)) el)

/-! ### Records (R345, R346, R357 to R360) -/

/-- Every operation of a record's task has completed (R360). -/
def recReady (s : State) (r : Rec) : Bool := r.free.isNone || !(s.ops.any (fun p => p.2.ofTask r.taskid))

def recSilent (r : Rec) : Bool := r.quiet && r.status == 0

/-- The 32 bytes of a record, written at tick `tick s`. -/
def recBytes (s : State) (r : Rec) (laten : Nat) (phase : Bool) : List Byte :=
  leBytes 1 r.status ++ leBytes 1 r.opcode ++ leBytes 2 r.tag ++ leBytes 2 r.taskid ++
  leBytes 1 (r.flags + (if laten = 0 then 0 else 1) + (if phase then 128 else 0)) ++ leBytes 1 r.node ++
  leBytes 4 (elapsed s r.doorbell) ++ leBytes 2 laten ++ leBytes 2 (r.pos % 65536) ++ leBytes 8 r.detail ++
  leBytes 1 r.stream ++ leBytes 1 r.attempts ++ leBytes 6 0

/-- The task of a record gives up its entry (R371), at once or, without a record, 1 ms after its end. -/
def closeTask (s : State) (r : Rec) (written : Bool) : State :=
  match r.free with
  | none => s
  | some i =>
    match getTask s i with
    | none => s
    | some t => if written then setTask s i none else setTask s i (some { t with body := { t.body with seqs := [] } })

/-- Judge a record's task and stop its meters: how many of its sequences are late (R374, R636); the telemetry window counts
late tasks (R639). -/
def judge (s : State) (r : Rec) : State × Nat :=
  let el := elapsed s r.doorbell
  let n := (r.seqs.filter (lateAt s el)).length
  let s := if n = 0 then s else { s with lodge := { s.lodge with late := s.lodge.late + 1 } }
  (forEach r.seqs (stopMeter el) s, n)

/-- A DMA_START record waits, under ORDERED, for those of earlier accepted DMA_START commands (R469). -/
def dmaBlocked (s : State) (x : Queue) (r : Rec) : Bool :=
  ordered s && r.opcode == 9 &&
  (x.cmds.any (fun cm => cm.opcode == 9 && decide (cm.key < r.key)) || x.recs.any (fun o => o.opcode == 9 && decide (o.key < r.key)))

/-- The next record of a queue: the oldest one whose task's operations have completed; a record that names no task, a chain's
apart, follows every task record before it (R359, R398). -/
def nextRec (s : State) (x : Queue) : List Rec → Bool → Option Rec
  | [], _ => none
  | r :: rs, tasks =>
    if recReady s r && !(dmaBlocked s x r) && (!tasks || r.free.isSome || r.opcode == 9) then some r
    else nextRec s x rs (tasks || r.free.isSome)

/-- Take a record out of a list. -/
def dropRec (r : Rec) : List Rec → List Rec
  | [] => []
  | x :: xs => if x = r then xs else x :: dropRec r xs

/-- Write the next record of a queue, or pass the instant of one that QUIET leaves out. -/
def writeRec (s : State) (c q : Nat) : State :=
  match nextRec s (getQ s c q) (getQ s c q).recs false with
  | none => s
  | some r =>
    if isSet s fERRSTAT_FATAL || (!(recSilent r) && ringFull s c q) then s
    else
      let s := modQ s c q (fun x => { x with recs := dropRec r x.recs })
      let j := judge s r
      if recSilent r then closeTask j.1 r false
      else
        let n := cplEntries s c q
        let t := getF s (fCPLPTR_CPLTAIL c q)
        let s := toHost j.1 (some c) (getF s (fCPLRING_ADDR c q) * 32 + 32 * (t % n)) (recBytes j.1 r j.2 (t / n % 2 == 0))
        let s := closeTask (setF s (fCPLPTR_CPLTAIL c q) (t + 1)) r true
        let s := if r.irq then raiseVec s (getF s (fQCTL_VEC c q)) else s
        if r.stops then raiseVec s (getF s (fQCTL_VEC c q)) else s

def execCompletionRecordWrite (c : Fin 16) (q : Fin 8) (s : State) : Host.Outcome State Fault Refusal :=
  whenOn s (settleFront c.val q.val (writeRec s c.val q.val))

/-- A host write of CPLHEAD. -/
def writeCplHead (s : State) (c q v : Nat) : State := setF s (fCPLPTR_CPLHEAD c q) v

def execCompletionConsumerCount (c : Fin 16) (q : Fin 8) (v : BitVec 64) (s : State) : Host.Outcome State Fault Refusal :=
  whenServed s (settleFront c.val q.val (writeCplHead s c.val q.val v.toNat))

/-- Whether a record of task entry `i` still waits to be written. -/
def recWaits (s : State) (i : Nat) : Bool := (List.range 128).any (fun k => (getQ s (k / 8) (k % 8)).recs.any (fun r => r.free == some i))

/-- The index of a task that ended without a record is free 1 ms after its end. -/
def execTaskIdQuarantineExpiry (i : Fin 4096) (s : State) : Host.Outcome State Fault Refusal :=
  whenOn s (match getTask s i.val with
    | some t =>
      if t.st.isEnded && decide (t.endTick + 100000 ≤ tick s) && !(recWaits s i.val) && !(s.ops.any (fun p => p.2.ofTask t.id)) then
        setTask s i.val none
      else s
    | none => s)

/-! ### Switches of a queue (R339, R341, R346, R362, R400) -/

/-- Setting EN starts the queue anew: every count 0, PHASE 1. -/
def enableQueue (s : State) (c q : Nat) : State :=
  let s := setF (setF s (fQPTR_HEAD c q) 0) (fQPTR_TAIL c q) 0
  let s := setF (setF s (fCPLPTR_CPLTAIL c q) 0) (fCPLPTR_CPLHEAD c q) 0
  let s := modQ s c q (fun x => { x with bells := [], fetched := [], parsed := none })
  setF s (fQSTAT_STATE c q) qRunning

def disableQueue (s : State) (c q : Nat) : State :=
  setF (modQ s c q (fun x => { x with bells := [], fetched := [], parsed := none })) (fQSTAT_STATE c q) qDisabled

/-- STOP halts acceptance, and the queue raises its vector (R578); RESUME restarts a queue that BOR or STOP stopped. -/
def stopAcceptance (s : State) (c q : Nat) : State :=
  if qState s c q = qRunning ∨ qState s c q = qCapacity then
    raiseVec (setF s (fQSTAT_STATE c q) qStopped) (getF s (fQCTL_VEC c q))
  else s

def resumeAcceptance (s : State) (c q : Nat) : State :=
  if qState s c q = qStopped then setF s (fQSTAT_STATE c q) qRunning else s

/-- A write of QCTL: VEC and EN as written, then STOP, then RESUME. -/
def writeQctl (s : State) (c q v : Nat) : State :=
  let was := isSet s (fQCTL_EN c q)
  let s := setF (setF s (fQCTL_VEC c q) (bitsOf v 23 16)) (fQCTL_EN c q) (if bitOf v 0 then 1 else 0)
  let s := if bitOf v 0 && !was then enableQueue s c q else if !(bitOf v 0) && was then disableQueue s c q else s
  let s := if bitOf v 2 then stopAcceptance s c q else s
  settleFront c q (if bitOf v 1 then resumeAcceptance s c q else s)

def execQueueEnable (c : Fin 16) (q : Fin 8) (vec : BitVec 8) (s : State) : Host.Outcome State Fault Refusal :=
  whenServed s (writeQctl s c.val q.val (vec.toNat * 65536 + 1))

def execQueueDisable (c : Fin 16) (q : Fin 8) (vec : BitVec 8) (s : State) : Host.Outcome State Fault Refusal :=
  whenServed s (writeQctl s c.val q.val (vec.toNat * 65536))

/-- The value that keeps VEC and EN. -/
def qctlKept (s : State) (c q : Nat) : Nat := getF s (fQCTL_VEC c q) * 65536 + getF s (fQCTL_EN c q)

def execQueueStop (c : Fin 16) (q : Fin 8) (s : State) : Host.Outcome State Fault Refusal :=
  whenServed s (writeQctl s c.val q.val (qctlKept s c.val q.val + 4))

def execQueueResume (c : Fin 16) (q : Fin 8) (s : State) : Host.Outcome State Fault Refusal :=
  whenServed s (writeQctl s c.val q.val (qctlKept s c.val q.val + 2))

/-! ### Contexts and modes (R401, R507, R585, R596) -/

/-- A write of CTXCTL; EN ends a context hedge when it is set after it was clear (R596). -/
def writeCtxctl (s : State) (c v : Nat) : State :=
  let was := isSet s (fCTXCTL_EN c)
  let s := setF (setF (setF s (fCTXCTL_EN c) (bitsOf v 63 63)) (fCTXCTL_YK8 c) (bitsOf v 62 62)) (fCTXCTL_MAXTASK c) (bitsOf v 44 32)
  if bitOf v 63 && !was && getBit s fHEDGEMISC_CTX c then
    setBit { s with hedges := s.hedges.filter (fun h => !(h.cls == 12 && h.res == c)) } fHEDGEMISC_CTX c false
  else s

def execContextEnable (c : Fin 16) (v : BitVec 64) (s : State) : Host.Outcome State Fault Refusal :=
  whenServed s (writeCtxctl s c.val (v.toNat % 2 ^ 63 + 2 ^ 63))

/-- A write of MODECFG: ORDSTRICT as written; ORDERED changes only with no task and no chain in flight, and is not cleared
under ORDSTRICT while a loaded binary has NEEDORD (R507). -/
def writeModecfg (s : State) (v : Nat) : State :=
  let s := if bitOf v 2 then setF s fGATE_MODECFG_REJ 0 else s
  let s := setF s fGATE_MODECFG_ORDSTRICT (if bitOf v 1 then 1 else 0)
  let was := isSet s fGATE_MODECFG_ORDERED
  let new := bitOf v 0
  let needs := (List.range 16).any (fun c => (List.range 256).any (fun i => (getBin s c i).loaded && (getBin s c i).needord))
  if was == new then s
  else if !(unended s).isEmpty || (List.range 64).any (fun ch => (getChan s ch).st != .idle) ||
      (bitOf v 1 && was && !new && needs) then
    bump (setF s fGATE_MODECFG_REJ 1) fGATE_MODECFG_REJCNT 1
  else setF s fGATE_MODECFG_ORDERED (if new then 1 else 0)

def execModecfgWrite (v : BitVec 64) (s : State) : Host.Outcome State Fault Refusal := whenServed s (writeModecfg s v.toNat)

end Sys2Proof.Machine
end

