-- ==== Sys2Proof/Machine/Placing.lean ====
section
/-! DEFINITION. Dispatch, pre-emption and resume (spec/09 R379 to R381, R388 to R392, R396), and the evaluations of every
microsecond (R384). -/

namespace Sys2Proof.Machine

open Sys2Proof

/-! ### Dispatch (R350, R365, R378, R380, R381) -/

/-- The resident binary of a stream: context and handle. -/
def binKey (t : Task) : Nat := 65536 * t.ctx + t.body.bin

/-- Scalar and address registers from a parameter block, and the granted width (R350). -/
def paramRegs (b : TaskBody) (p : List Byte) (width : Nat) (t : Stream) : Stream :=
  let t := (List.range 32).foldl (fun t r => if 4 * r + 4 ≤ p.length then setSreg t r (fld p (4 * r) 4) else t) t
  let t := (List.range 16).foldl (fun t r => if 136 + 8 * r ≤ p.length then setAreg t r (fld p (128 + 8 * r) 8) else t) t
  if b.wreg = 0xFF then t else setSreg t b.wreg width

/-- A core at dispatch: its registers EMPTY, its tables 0 (R114, R127). -/
def freshCore (s : State) (m : Nat) : State := modCore (blankTables s m) m (fun c => { c with tile := [], left := [] })

/-- The binary of a task stands in the stream: the one that the stream keeps of its last task where it has the same handle, else
the one loaded now (R365). -/
def withBinary (s : State) (t : Task) (old new : Stream) : Stream :=
  if old.resident = some (binKey t) then
    { new with programs := old.programs, routines := old.routines, lt := old.lt, check := old.check, resident := old.resident }
  else
    let b := taskBin s t
    { new with programs := b.body.programs, routines := b.body.routines.length, lt := b.lt, check := b.check, resident := some (binKey t) }

/-- Start a task on stream `k`: its binary, registers, tables and latency table are set, and it issues from the next cycle. -/
def startTask (s : State) (i : Nat) (t : Task) (k : Nat) (p : List Byte) (plan : List Reservation) : State :=
  let cores := hostCores s t.body.width k
  let old := getStr s k
  let s := forEach cores freshCore s
  let s := setStr s k (withBinary s t old (paramRegs t.body p cores.length { Stream.reset with
    st := .running, task := t.id, ctx := t.ctx, cls := eclass t, half := decide (2 ≤ t.body.width), cores := cores,
    now := old.now, nextSlot := old.now + 1, outs := outRanges t.body (some k), ranges := old.ranges.filter (fun r => !r.static),
    startTick := tick s }))
  let s := installPlan s k plan
  let s := setTask s i (some { t with
    st := .running k, last := some k, attempts := t.attempts + 1, dispatched := tick s, collAt := none })
  pointGrant s 0 (taskQ t)

/-- Read the parameter block of a chosen task, then start it; a read that fails ends it with FETCH_ERROR. -/
def placeTask (s : State) (i : Nat) (t : Task) (k hostSt : Nat) (plan : List Reservation) : State :=
  let n := 8 * t.body.plen
  if t.body.plen ≠ 0 ∧ readWaits s t.ctx t.body.param n = true then s
  else
    let r := if t.body.plen = 0 then (s, [], 0) else readDev s t.ctx t.body.param n hostSt
    if r.2.2 ≠ 0 then
      let s := setTask r.1 i (some { t with last := some k, attempts := t.attempts + 1 })
      endTask (gateLog s t.ctx t.q 3 3 r.2.2) i 3 r.2.2
    else startTask r.1 i t k r.2.1 plan

/-- A dispatch in urgent class installs the task's plan, unless PLANEN is 0 (R266). -/
def plansIn (s : State) (t : Task) : Bool := eclass t == 0 && isSet s fORG_PROMCTL_PLANEN

/-- Try the streams that can host a task in order; a collision on every one leaves it waiting (R380). -/
def tryHosts (i : Nat) (t : Task) (hostSt : Nat) : List Nat → State → State
  | [], s => setTask s i (some { t with coll := true, collAt := some s.planRemovals })
  | k :: ks, s =>
    let plan := if plansIn s t then (planOn (k / 2) (taskBin s t).body.plan).getD [] else []
    match collides s [] plan with
    | none => placeTask s i t k hostSt plan
    | some c => tryHosts i t hostSt ks (noteCollision s t k c)

/-- Ask for the pre-emption of bulk tasks for each ready urgent task that no stream can host (R388). -/
def requestAll (s : State) : State :=
  if !(isSet s fGATE_DISPCFG_PREEN) then s
  else forEach ((ranked s).filter (fun p => eclass p.2 == 0)) (fun s p =>
    if !(hosts s [] p.2).isEmpty || requestOut s p.1 then s
    else forEach (requestFor s p.2) (fun s k => beginPreempt k (some p.1) s) s) s

def execTaskDispatch (hostSt : Fin 4) (s : State) : Host.Outcome State Fault Refusal :=
  whenOn s (if isSet s fERRSTAT_FATAL then s
    else
      let s := match chosen s with
        | none => s
        | some (i, t, l) => if isPreempted t then s else tryHosts i t hostSt.val l s
      progress (requestAll s))

/-! ### Saving a pre-empted task (R389 to R391) -/

/-- The task that is being pre-empted on stream `k`, once nothing of it that cannot be abandoned is left. -/
def leaving (s : State) (k : Nat) : Option (Nat × Task × Nat × Bool) :=
  let t := getStr s k
  let i := t.task % 4096
  match getTask s i, t.wait, t.ended with
  | some tk, .none_, none => match tk.st with
    | .preempting j sl w _ => if j = k ∧ t.st ≠ .idle ∧ t.obliged = false then some (i, tk, sl, w) else none
    | _ => none
  | _, _, _ => none

def execPreemptionSave (k : Fin 16) (s : State) : Host.Outcome State Fault Refusal :=
  whenOn s (match leaving s k.val with
    | some (i, tk, sl, false) =>
      let s := saveImages (getStr s k.val) (slotOff s tk.ctx sl) s
      match tk.st with
      | .preempting j sl _ b => setTask s i (some { tk with st := .preempting j sl true b })
      | _ => s
    | _ => s)

def execPreemptionComplete (k : Fin 16) (s : State) : Host.Outcome State Fault Refusal :=
  whenOn s (match leaving s k.val with
    | some (i, tk, sl, true) =>
      let t := getStr s k.val
      let sv : Saved := ⟨{ t with accounts := [], tile := restTile t }, t.cores.map (fun m => (m, keepCore s m))⟩
      let s := setTask s i (some { tk with st := .preempted k.val sl, preempted := true, saved := some sv })
      freeStream (bump s fGATE_PREEMPTCNT_PREEMPTS 1) k.val
    | _ => s)

/-! ### Resuming (R107, R128, R392) -/

/-- A weight image as it stands in the Orangery. -/
def readImage (s : State) (g : Image) : WSet :=
  ⟨g.fmt, (List.range 128).map (fun (i : Nat) => orgRead s (g.am + 128 * i) 128), orgRead s g.ae (512 * planesOf g.fmt)⟩

/-- Reload an image into a number of its own, as static reads of the stream (R274); the old number where there is none to
reload. -/
def reloadOne (k : Nat) (s : State) (id : Nat) (g : Option Image) : State × Nat :=
  match g with
  | none => (s, id)
  | some g =>
    let n := s.nextW
    let s := modWSet { s with nextW := n + 1 } n (fun _ => readImage s g)
    (noteStatic k (noteStatic k s g.am 16384) g.ae (512 * planesOf g.fmt), n)

/-- The weight registers of a core after the reload: the active image in the active registers, both of them where its format
uses both, and the pending image in the shadow registers (R107). -/
def reloadWeights (k : Nat) (s : State) (w : Weights) : State × Weights :=
  let a := reloadOne k s w.main w.act
  let under := if w.shadow = w.main ∨ w.behind = w.main then a.2 else w.behind
  let b := match w.pend with
    | some g => reloadOne k a.1 w.shadow (some g)
    | none => (a.1, if w.shadow = w.main then a.2 else w.shadow)
  (b.1, { w with main := a.2, shadow := b.2, behind := under })

/-- The weight registers of each distinct content among some cores are reloaded once, as one image serves all cores of a
pavilion (R85). -/
def reloadAll (k : Nat) (ws : List Weights) (s : State) : State × List (Weights × Weights) :=
  ws.eraseDups.foldl (fun (acc : State × List (Weights × Weights)) w =>
    let r := reloadWeights k acc.1 w
    (r.1, acc.2 ++ [(w, r.2)])) (s, [])

/-- Restore one core: registers, the reloaded weights, tables reloaded from their images. -/
def restoreCore (k : Nat) (ws : List (Weights × Weights)) (s : State) (p : Nat × SavedCore) : State :=
  let m := p.1
  let sv := p.2
  let w := ((ws.find? (fun x => x.1 == sv.array.weights)).map Prod.snd).getD sv.array.weights
  let s := setArray (modCore s m (fun c => { c with tile := sv.tile, tables := [] })) m { sv.array with weights := w }
  let s := setF s (fEESTAT_TVALID (m / 8) (m % 8)) sv.valid
  forEach (List.range 4) (fun s i =>
    let o := sv.offsets.getD i 0
    let s := setF s (fTBLADDR_OFFSET (m / 8) (m % 8) i) o
    if bitOf sv.valid i then
      noteStatic k (setTable s m i ((chunk 2 256 (orgRead s (orgAddr m o) 512)).map laneVal)) (orgAddr m o) 512
    else s) s

/-- A macro-op to be run again, issued `delta` cycles later than it was; a pass keeps its distance from the ripple load before
it. -/
def shiftFlight (delta : Nat) (f : Flight) : Flight :=
  { f with
    issue := f.issue + delta,
    extent := f.extent.map (fun r => { r with until_ := r.until_ + delta }),
    again := true,
    op := match f.op with
      | .pass p => .pass { p with ripple := p.ripple + delta }
      | op => op }

def hasOp (l : List Flight) (is : FlightOp → Bool) : Bool := l.any (fun f => is f.op)

def isElem : FlightOp → Bool
  | .wload _ => false
  | .pass _ => false
  | .tload _ => false
  | .tstore _ => false
  | _ => true

/-- The issue distances after a resume: those of the macro-ops run again, measured from their new issue. -/
def shiftArr (delta : Nat) (l : List Flight) (a : ArrTiming) : ArrTiming :=
  let pass := hasOp l (fun o => match o with
    | .pass _ => true
    | _ => false)
  let wl := fun (st : Bool) => hasOp l (fun o => match o with
    | .wload w => (w.fmt != 0) == st
    | _ => false)
  let two := fun (x : Nat × Nat) => (x.1 + delta, x.2)
  { pass := if pass then a.pass.map two else none,
    subPass := if pass then a.subPass.map two else none,
    wload := if wl true || wl false then a.wload.map (fun x => x + delta) else none,
    ripple := if wl false then a.ripple.map (fun x => x + delta) else none,
    stall := if wl true then a.stall.map (fun x => x + delta) else none }

/-- The cycles that the reload of a resumed task takes: fewer than 300, and the spec does not say how many (R107; assumption
83). -/
def reloadCycles (now : Nat) : Nat := Config.reloadTime now % 300

/-- The saved stream, going on at cycle `now`: once its weights and tables are reloaded, the abandoned macro-ops issue again with
the distances that they had. -/
def resumedStream (sv old : Stream) (cls at_ : Nat) : Stream :=
  let base := old.now + 1 + reloadCycles old.now
  let first := (sv.gone.head?.map (fun f => f.issue)).getD sv.nextSlot
  let delta := base - first
  let after := fun (b : Bool) (x : Nat) => if b then x + delta else 0
  { sv with
    st := if sv.held.isSome then .held else .running, wait := .none_, preempt := none, now := old.now, cls := cls,
    nextSlot := max base (sv.nextSlot + delta), heldAt := at_, reload := base, gone := [], accounts := [], plan := [],
    flights := sv.gone.map (shiftFlight delta), lands := [], stores := [],
    ranges := old.ranges.filter (fun r => !r.static) ++
      sv.gone.flatMap (fun f => f.extent.map (fun r => { r with until_ := r.until_ + delta })),
    arr := shiftArr delta sv.gone sv.arr, eeFree := after (hasOp sv.gone isElem) sv.eeFree,
    tldFree := after (hasOp sv.gone (fun o => match o with
      | .tload _ => true
      | _ => false)) sv.tldFree,
    tstFree := after (hasOp sv.gone (fun o => match o with
      | .tstore _ => true
      | _ => false)) sv.tstFree }

/-- A take that waited at a peer as its task was pre-empted goes on: with its reply, if that has come, or waiting (R224, R230). -/
def unpark (s : State) (k : Nat) : State :=
  let t := getStr s k
  match t.parked with
  | none => s
  | some (w, i, r) =>
    let s := setStr s k { t with st := .waiting, wait := w, held := i, parked := none, waitSince := tick s }
    match w, r with
    | .reply _ sd sd2 g, some res => takeAnswer s k sd sd2 g res
    | _, _ => s

/-- A pre-empted task goes on where it was. -/
def resumeTask (s : State) (i : Nat) (t : Task) (sv : Saved) (k : Nat) : State :=
  let plan := if sv.stream.plan.isEmpty || !(isSet s fORG_PROMCTL_PLANEN) then [] else sv.stream.plan
  match collides s [] plan with
  | some c => setTask (noteCollision s t k c) i (some { t with coll := true, collAt := some s.planRemovals })
  | none =>
    let s := forEach sv.stream.gone (fun s f => match f.op with
      | .wload w => modWSet s w.id (fun _ => ⟨w.fmt, [], []⟩)
      | _ => s) s
    let old := getStr s k
    let r := reloadAll k (sv.cores.map (fun c => c.2.array.weights)) (setStr s k { sv.stream with ended := none })
    let s := forEach sv.cores (restoreCore k r.2) r.1
    let ended := match sv.stream.late with
      | some c => some c
      | none => (getStr s k).ended
    let s := setStr s k (withBinary s t old { resumedStream sv.stream old (eclass t) (tick s) with ended := ended })
    let s := if ended.isSome then modStr (dropParked s (getStr s k)) k (fun t => { t with st := .ending, held := none, parked := none })
      else unpark s k
    let s := installPlan s k plan
    let s := { s with slots := s.slots.filter (fun u => u.task != i) }
    let s := setTask s i (some { t with st := .running k, saved := none, dispatched := tick s, collAt := none })
    progress (pointGrant (bump s fGATE_PREEMPTCNT_RESUMES 1) 0 (taskQ t))

def execTaskResume (s : State) : Host.Outcome State Fault Refusal :=
  whenOn s (if isSet s fERRSTAT_FATAL then s
    else match chosen s with
      | some (i, t, k :: _) => match t.saved with
        | some sv => resumeTask s i t sv k
        | none => s
      | _ => s)

/-! ### Retries (R396, R462) -/

def execTaskRetry (i : Fin 4096) (s : State) : Host.Outcome State Fault Refusal :=
  whenOn s (match getTask s i.val with
    | some t => match t.st with
      | .retrying _ => if s.ops.any (fun p => p.2.ofTask t.id) || t.faults != 0 then s else setTask s i.val (some { t with st := .waiting })
      | _ => s
    | none => s)

/-! ### Every microsecond (R384) -/

/-- The slack of a task has fallen below its threshold. -/
def promotes (s : State) (t : Task) : Bool :=
  isSet s fGATE_DISPCFG_DLPROM && !t.dlprom && t.body.urgth != 0 && (match slack s t with
    | some x => decide (x < ((t.body.urgth * 100 : Nat) : Int))
    | none => false)

def promote (s : State) (i : Nat) (t : Task) : State :=
  let s := setTask s i (some { t with dlprom := true })
  match t.st with
  | .running k => modStr s k (fun x => { x with cls := 0 })
  | .preempting k _ _ _ => modStr s k (fun x => { x with cls := 0 })
  | _ => s

def execDeadlineSlackEvaluation (s : State) : Host.Outcome State Fault Refusal :=
  whenOn s (every evSlack 100 (fun s => forEach ((unended s).filter (fun p => promotes s p.2)) (fun s p => promote s p.1 p.2) s) s)

/-- The class of the oldest item of queue `q` that waits at an arbitration point: 0 dispatch, 1 DMA, 2 slath. -/
def waitingClass (s : State) (point q : Nat) : Option Nat :=
  match point with
  | 0 => (((readyTasks s).filter (fun p => taskQ p.2 == q)).foldl (fun (m : Option Task) p => match m with
      | some t => if p.2.order < t.order then some p.2 else some t
      | none => some p.2) none).map eclass
  | 1 => ((sortBy (fun a b => decide ((getChan s a).cmd ≤ (getChan s b).cmd)) ((List.range 64).filter (fun ch =>
      chanQueue s ch == q && (chanReady s ch).isSome))).head?).map (chanCls s)
  | _ => ((sortBy (fun a b => decide (opOrder s a.op ≤ opOrder s b.op)) (s.units.filter (fun u =>
      u.st == 0 && opQueue s u.op == q))).head?).map (fun u => opEclass s u.op)

/-- The aging threshold of a class in µs. -/
def ageLimit (s : State) (cls : Nat) : Nat :=
  match cls with
  | 1 => getF s fGATE_AGECFG_PROMPT
  | 2 => getF s fGATE_AGECFG_BULK
  | _ => getF s fGATE_AGECFG_IDLE

/-- What one evaluation makes of a queue's age. -/
def aged (s : State) (a : Age) (w : Option Nat) : Age :=
  match w with
  | none => { a with age := 0 }
  | some c =>
    if c = 0 ∨ a.boost ≠ 0 then a
    else if ageLimit s c ≠ 0 ∧ ageLimit s c < a.age + 1 then ⟨0, 64⟩
    else { a with age := a.age + 1 }

def execAgingEvaluation (s : State) : Host.Outcome State Fault Refusal :=
  whenOn s (every evAging 100 (fun s => forEach (List.range 384) (fun s i =>
    let a := amGet (fun _ => (⟨0, 0⟩ : Age)) s.ages i
    let b := aged s a (waitingClass s (i / 128) (i % 128))
    if a = b then s else { s with ages := amSet (fun _ => ⟨0, 0⟩) s.ages i b }) s) s)

/-! ### Reads that time out (R564) -/

/-- Whether a share of an operation reads host memory. -/
def shareReadsHost (s : State) (op core : Nat) : Bool :=
  match shareOf s op core with
  | some x =>
    (match x.op with
     | .sload t => spaceOf t.src == 8
     | _ => false)
  | none => false

/-- Whether the next run of a channel reads host memory. -/
def runReadsHost (s : State) (ch : Nat) : Bool :=
  let c := getChan s ch
  match c.desc with
  | some d => d.op != 1 && spaceOf (d.srcAt c.idx) == 8
  | none => false

/-- A read of host memory that times out fails as one that the completer aborts. -/
def execCompletionTimeout (r : HostReader) (s : State) : Host.Outcome State Fault Refusal :=
  whenOn s (match r with
    | .share op core => if shareReadsHost s op core.val then progress (performShare s op core.val 2) else s
    | .channel ch =>
      if (getChan s ch.val).st = .fetching then
        (if spaceOf (getChan s ch.val).addr = 8 then progress (fetchDesc s ch.val 2) else s)
      else if runReadsHost s ch.val then progress (dmaRun s ch.val 2) else s
    | .queue c q => settleFront c.val q.val (fetchCmds s c.val q.val 2))

end Sys2Proof.Machine
end

