-- ==== Sys2Proof/Machine/View.lean ====
section
/-! DEFINITION. What a read of a BAR0 register answers (spec/00 R15 to R20).  Most fields stand in the register file of the state;
the fields that show the state of another unit are computed here, from the unit. -/

namespace Sys2Proof.Machine

open Sys2Proof

/-- The instance indices of an offset past a row's first register. -/
def ixOf : List (Nat × Nat) → Nat → List Nat
  | [], _ => []
  | (_, st) :: ds, d => d / st :: ixOf ds (d % st)

/-- A number from a list of flags, the first one bit 0. -/
def mapOf (l : List Bool) : Nat := (l.mapIdx (fun i b => if b then 2 ^ i else 0)).sum

def oneIf (b : Bool) : Nat := if b then 1 else 0

/-! ### Cores (R109, R154, R191) -/

/-- The static macro-ops of core `m` in flight: those of a resumed task that are to issue again only once they have (R392). -/
def coreFlights (s : State) (m : Nat) : List Flight :=
  let t := getStr s (streamOfCore s m)
  t.flights.filter (fun f => f.cores.contains m && decide (f.issue ≤ t.now))

def FlightOp.matrix : FlightOp → Bool
  | .wload _ => true
  | .pass _ => true
  | _ => false

def FlightOp.element : FlightOp → Bool
  | .eprog _ => true
  | .eshufX _ _ _ => true
  | .eshufB _ _ _ => true
  | .esum _ _ _ => true
  | .emax _ _ _ _ => true
  | .ebcast _ _ _ _ _ _ => true
  | .equant _ => true
  | _ => false

/-- Whether core `m` takes part in the task that its stream runs. -/
def takesPart (s : State) (m : Nat) : Bool :=
  let t := getStr s (streamOfCore s m)
  t.st != .idle && t.cores.contains m

/-- The record of register `r` of core `m` as it stands: that of the core's task; a core in no task keeps the records that its last
task left (R114).  A RELEASING register is EMPTY from the cycle after its last access (R117). -/
def coreMeta (s : State) (m r : Nat) : RegMeta :=
  let t := getStr s (streamOfCore s m)
  if takesPart s m then (if t.flights.isEmpty then restMeta t r else regNow t r)
  else amGet (fun _ => RegMeta.reset) (getCore s m).left r

/-- The registers of core `m` whose record meets `f`, as a map. -/
def regMap (s : State) (m : Nat) (f : RegMeta → Bool) : Nat := mapOf ((List.range 64).map (fun r => f (coreMeta s m r)))

def widthMap (s : State) (m lo : Nat) : Nat := ((List.range 32).map (fun i => (coreMeta s m (lo + i)).width.code * 4 ^ i)).sum

/-- The weights and tables of core `m`, as far as it has any, are being reloaded for its resumed task (R107, R128, R392). -/
def reloading (s : State) (m : Nat) : Bool :=
  let t := getStr s (streamOfCore s m)
  takesPart s m && decide (t.now < t.reload)

/-- Whether core `m` has a weight image to reload, active or pending, and whether it has a table. -/
def hasImage (s : State) (m : Nat) : Bool :=
  let w := (getCore s m).weights
  w.act.isSome || w.pend.isSome
def hasTable (s : State) (m : Nat) : Bool := getF s (fEESTAT_TVALID (m / 8) (m % 8)) != 0

/-- Dynamic operations of core `m` in flight. -/
def opsInFlight (s : State) (m : Nat) : Nat :=
  (s.ops.flatMap (fun p => p.2.shares.filter (fun x => x.core == m && !x.st.isDone))).length

/-- Bytes 8j to 8j + 7 of the header at a core creel's HEAD (R439). -/
def headWord (s : State) (c j : Nat) : Nat :=
  if (getCreel s c).entries.isEmpty then 0
  else leVal (orgRead s (orgAddr (c / 8) (crlBase s c % 2 ^ 25 + getF s (crlHEAD c) + 8 * j)) 8)

/-! ### Streams (R247) -/

/-- STRSTAT.STATE: a stream in COMMIT counts as ending. -/
def strCode (t : Stream) : Nat :=
  match t.st with
  | .idle => 0
  | .running => 1
  | .waiting => if t.wait = .commit1 then 4 else 2
  | .held => 3
  | .ending => 4

/-- STRSTAT.WAITK. -/
def waitCode (t : Stream) : Nat :=
  match t.wait with
  | .none_ => 0
  | .words _ _ _ _ => 1
  | .credit _ _ _ => 2
  | .fence _ _ => 3
  | .commit1 => 3
  | .commit2 => 3
  | .commit3 => 3
  | .reply _ _ _ _ => 4

/-- The hidden counter of loop level `l`: the passes of the body still to come (R204). -/
def loopCount (t : Stream) (l : Nat) : Nat := (t.loops.reverse.getD l (0, 0)).1

/-- An LT-A1 binary runs pinned on a B0 part (R484). -/
def pinned (s : State) (t : Stream) : Bool := t.lt == .a1 && s.part == .b0 && t.st != .idle

/-! ### The Gatehouse, DMA and links (R401, R480, R545) -/

def runMap (s : State) : Nat :=
  mapOf ((List.range 16).map (fun k => (getStr s k).st != .idle))

def yieldMap (s : State) : Nat := mapOf ((List.range 16).map (yieldWanted s))

def chanCode (s : State) (ch : Nat) : Nat :=
  let c := getChan s ch
  if c.st = .idle then 0
  else if c.stop then 5
  else match c.st with
    | .waiting => 2
    | .faulted => 3
    | .peer => if (List.range 8).any (fun p => (getPort s p).txns.any (fun t => !t.todo.isEmpty && (match t.who with
        | .dma x _ => x == ch
        | _ => false))) then 4 else 1
    | _ => 1

/-- Operations of this module wait for port `p` under DRAIN: sends that wait for its credit among them. -/
def holding (s : State) (p : Nat) : Bool :=
  portHolds s p &&
  (s.ops.any (fun o => o.2.shares.any (fun x => (match x.st with
      | .waiting _ => true
      | _ => false) && (peerAddr x.op).map peerPort == some p)) ||
   (List.range 16).any (fun k => match (getStr s k).wait with
      | .credit 576 _ (.csend _ _ o) => peerPort ((issStr k (getStr s k)).a o.ar.val) == p
      | _ => false) ||
   (List.range 64).any (fun ch => (getChan s ch).heldAt.isSome && (match (getChan s ch).desc with
      | some d => (spaceOf d.src == 9 && peerPort d.src == p) || (spaceOf d.dst == 9 && peerPort d.dst == p)
      | none => false)))

/-- Nothing is left in flight through port `p` while it drains, by this end's DRAIN or by the peer's (R545). -/
def drained (s : State) (p : Nat) : Bool :=
  let x := getPort s p
  (isSet s (fLNKCTL_DRAIN p) || x.peerDrain) && x.txns.isEmpty && x.buf.isEmpty && x.txq.isEmpty && x.rxq.isEmpty && x.asked.isEmpty

/-! ### Meters (R636) -/

/-- RUN, OVER and ELAPSED of a slot's meter. -/
def meterNow (s : State) (sl : Nat) : Bool × Nat :=
  match meterTasks s sl with
  | [] => (false, getF s (fMTRNOW_ELAPSED sl))
  | p :: _ => (true, elapsed s p.2.doorbell)

/-- Powered hours of the module's life (R641). -/
def poweredHours (s : State) : Nat := powered s / 360000000000

/-! ### The computed fields -/

/-- The fields of a register that are computed: (most significant bit, least significant bit, value). -/
def liveFields (s : State) (base : Nat) (ix : List Nat) : List (Nat × Nat × Nat) :=
  let i := ix.getD 0 0
  let j := ix.getD 1 0
  let m := 8 * i + j
  let k := 2 * i + j
  if base = rARRSTAT 0 0 then
    [(2, 2, oneIf (reloading s m && hasImage s m)), (1, 1, oneIf ((coreFlights s m).any (fun f => f.op.matrix))), (0, 0, oneIf (coreHedged s m))]
  else if base = rTRLIVE 0 0 then [(63, 0, regMap s m (fun r => r.st == .live))]
  else if base = rTRSTALE 0 0 then [(63, 0, regMap s m (fun r => r.st == .live && r.stale))]
  else if base = rTRREL 0 0 then [(63, 0, regMap s m (fun r => r.st == .releasing))]
  else if base = rTRWIDTH0 0 0 then [(63, 0, widthMap s m 0)]
  else if base = rTRWIDTH1 0 0 then [(63, 0, widthMap s m 32)]
  else if base = rEESTAT 0 0 then
    [(1, 1, oneIf (reloading s m && hasTable s m)), (0, 0, oneIf ((coreFlights s m).any (fun f => f.op.element)))]
  else if base = rSOPOUT 0 0 then [(6, 0, opsInFlight s m)]
  else if base = rCRLHDR 0 0 0 then [(63, 0, headWord s (8 * m + ix.getD 2 0) (ix.getD 3 0))]
  else if base = rSTRSTAT 0 0 then
    let t := getStr s k
    [(27, 24, t.ctx), (23, 23, oneIf t.half), (22, 20, t.loops.length), (19, 16, waitCode t), (2, 0, strCode t)]
  else if base = rSTRWAIT 0 0 then [(63, 0, (getF s (fSTRWAIT_CYCLES i j) + waitedNow s (getStr s k)) % 2 ^ 64)]
  else if base = rSTRHOLDCY 0 0 then [(63, 0, (getF s (fSTRHOLDCY_CYCLES i j) + heldNow s (getStr s k)) % 2 ^ 64)]
  else if base = rSTRPC 0 0 then [(47, 32, (getStr s k).task), (31, 0, (getStr s k).pc)]
  else if base = rSTRLT 0 0 then
    [(8, 8, oneIf ((getStr s k).lt == .b0)), (2, 0, if pinned s (getStr s k) then 7 else 0)]
  else if base = rSTRLOOP0 0 0 then [(63, 32, loopCount (getStr s k) 1), (31, 0, loopCount (getStr s k) 0)]
  else if base = rSTRLOOP1 0 0 then [(63, 32, loopCount (getStr s k) 3), (31, 0, loopCount (getStr s k) 2)]
  else if base = rGATE_GATESTAT then
    [(44, 32, (unended s).length), (28, 16, (readyTasks s).length), (15, 0, runMap s)]
  else if base = rGATE_YIELDREQ then [(15, 0, yieldMap s)]
  else if base = rQSTAT 0 0 then
    if qState s i j = qRunning ∧ (getQ s i j).recs ≠ [] ∧ ringFull s i j = true then [(2, 0, qFull)] else []
  else if base = rDMA_DMASTAT then [(63, 0, mapOf ((List.range 64).map (fun ch => (getChan s ch).st != .idle)))]
  else if base = rCHSTAT 0 then [(2, 0, chanCode s i)]
  else if base = rLNKSTAT 0 then [(60, 60, oneIf (drained s i)), (59, 59, oneIf (holding s i))]
  else if base = rORG_MDVAL then
    let a := getF s fORG_MDADDR_ADDR * 8
    if orgAssigned a then [(1, 1, oneIf (metaOf s a == .poisoned)), (0, 0, oneIf (metaOf s a != .empty))] else []
  else if base = rLOGSTAT then [(8, 0, s.logQ.length)]
  else if base = rLODGESTAT then [(31, 0, poweredHours s)]
  else if base = rMTRNOW 0 then
    let m := meterNow s i
    [(63, 63, oneIf m.1), (32, 32, oneIf (lateAt s m.2 i)), (31, 0, m.2)]
  else []

/-- The value of the register at BAR0 offset `off`, 0 at an unassigned offset (R19). -/
def readReg (s : State) (off : Nat) : Nat :=
  match rowOf off with
  | none => 0
  | some r => (liveFields s r.base (ixOf r.dims (off - r.base))).foldl (fun v f => putBits v f.1 f.2.1 f.2.2) (regGet s off).toNat

/-- A BAR0 read of `size` bytes (R15): 0 for a size or an alignment that R15 does not allow. -/
def bar0Read (s : State) (off size : Nat) : Nat :=
  if size = 8 ∧ off % 8 = 0 then readReg s off
  else if size = 4 ∧ off % 4 = 0 then readReg s (off / 8 * 8) / 2 ^ (8 * (off % 8)) % 2 ^ 32
  else 0

end Sys2Proof.Machine
end

