-- ==== Sys2Proof/Machine/Lodge.lean ====
section
/-! DEFINITION. The Lodge at work (spec/16 R620 to R639): clock monitors, clock steps and change epochs, the governor, the cooling
demand, and telemetry. -/

namespace Sys2Proof.Machine

open Sys2Proof

def modLodge (s : State) (f : Lodge → Lodge) : State := { s with lodge := f s.lodge }

/-! ### Monitors (R620, R621) -/

/-- Count and log a failure of generator `j`'s monitor: cause 1 jitter, 2 duty cycle, with the measured value.  The hedge of a pavilion
plot follows as a command of its own; that of the spine's and the store die's, which is module-fatal, comes with the failure (R590, R595,
R597). -/
def monitorFails (s : State) (j cause value : Nat) : State :=
  let s := bump s (fGENMON_FAILCNT j) 1
  let s := logPut s { LogEntry.blank with
    kind := 0x13, cause := cause, rclass := 11, res := j, flags := if isSet s (fGENMON_HEDGED j) then 0 else 1, data := [value, 0, 0, 0] }
  if 8 ≤ j then applyHedge s 11 j else s

/-- The limit as it acts: 0 acts as 1. -/
def jitLimit (s : State) (j : Nat) : Nat := max 1 (getF s (fGENMON_JITLIM j))

/-- One window of generator `j`: the jitter monitor fails at the second window in a row whose peak exceeds the limit, the
duty-cycle monitor outside 45 to 55 %.  An unlocked generator is not monitored. -/
def monitorOne (s : State) (j : Nat) (m : GenMeas) : State :=
  if !(isSet s (fGENMON_LOCK j)) then modLodge s (fun l => { l with jitBad := l.jitBad.filter (fun i => i != j) })
  else
    let bad := decide (jitLimit s j < m.jit)
    let twice := bad && s.lodge.jitBad.contains j
    let s := setF (setF s (fGENMON_JIT j) m.jit) (fGENMON_DUTY j) m.duty
    let rest := s.lodge.jitBad.filter (fun i => i != j)
    let s := modLodge s (fun l => { l with jitBad := if bad then rest ++ [j] else rest })
    let s := if twice then monitorFails s j 1 m.jit else s
    if m.duty < 90 ∨ 110 < m.duty then monitorFails s j 2 m.duty else s

/-- The windows of 1,024 ticks; none is evaluated that is not whole (R620). -/
def execMonitorWindow (meas : List GenMeas) (s : State) : Host.Outcome State Fault Refusal :=
  whenAwake s (if (s.change.map (fun c => c.stopped)).getD false then s
    else eachWindow evMonitors 1024 (fun s => forEach ((List.range 10).zip meas) (fun s p => monitorOne s p.1 p.2) s) s)

/-- The reference stops: every generator loses lock, and generator 8 fails its monitor.  A module that is off or in recovery notes only
that the reference is gone, without which no Lodge leaves reset (R614). -/
def execReferenceClockLoss (s : State) : Host.Outcome State Fault Refusal :=
  let s := { s with pins := { s.pins with refclk := false } }
  whenAwake s (monitorFails (forEach (List.range 10) (fun s j => setF s (fGENMON_LOCK j) 0) s) 8 1 0)

/-! ### Clock steps (R622 to R627) -/

/-- The frequency of step `i` in MHz. -/
def stepMHz (i : Nat) : Nat := 625 + 125 * i

def curStep (s : State) : Nat := getF s fSTEPSTAT_CUR

/-- The first multiple of 1,024 at or after `t`. -/
def epochAt (t : Nat) : Nat := (t + 1023) / 1024 * 1024

def lead (cur target : Nat) : Nat := if cur < target then 6144 else 2048

/-- VDDC at the calibrated voltage of step `i`, in mV (R622). -/
def setRail (s : State) (i : Nat) : State := modLodge s (fun l => { l with rail := l.vddc.getD i 0 })

/-- VDDC while a change to `target` is to come: at the higher of the two steps' voltages (R624; assumption 113). -/
def railFor (s : State) (target : Nat) : State := setRail s (max (curStep s) target)

/-- Begin a change decided at tick `at_`: its epoch is after tick `low` and at least LEAD ticks after the decision. -/
def beginChange (s : State) (target at_ low : Nat) : State :=
  let e := epochAt (max (at_ + lead (curStep s) target) low)
  let s := railFor s target
  let s := setF (setF (setF s fSTEPSTAT_TARGET target) fSTEPSTAT_CHANGING 1) fSTEPSTAT_EPOCH e
  { s with change := some ⟨target, e, false, none⟩ }

/-- The Lodge decides that `target` is the step to be in force (R627): a change begins, the target of a pending one is replaced,
the pending one is cancelled, or the decision waits for the resume. -/
def decideStep (s : State) (target : Nat) : State :=
  match s.change with
  | none => if target = curStep s then s else beginChange s target (tick s) 0
  | some c =>
    if c.stopped then { s with change := some { c with next := if target = c.target then none else some (target, tick s) } }
    else if target = c.target then s
    else if target = curStep s then
      setRail (setF (setF { s with change := none } fSTEPSTAT_CHANGING 0) fSTEPSTAT_TARGET target) target
    else railFor (setF { s with change := some { c with target := target } } fSTEPSTAT_TARGET target) target

/-- The generators that take part in step changes: those of plots that are not hedged. -/
def liveGens (s : State) : List Nat := (List.range 10).filter (fun j => !(isSet s (fGENMON_HEDGED j)))

/-- The cycles that had begun before tick `t`: a plot completes the one under way (R625). -/
def cyclesBegun (s : State) (t : Nat) : Nat :=
  match s.plotClock.find? (fun g => decide (g.1 ≤ t)) with
  | some g => g.2.1 + ((t - g.1) * g.2.2 + 3) / 4
  | none => 0

/-- The rate of the plots' clock at step `i`, in quarter cycles a tick of 10 ns: 6.25 + 1.25 × i cycles (R622). -/
def stepRate (i : Nat) : Nat := 25 + 5 * i

/-- At the change epoch every plot stops, and its generator relocks; the monitors are suspended (R620, R625). -/
def execChangeEpoch (s : State) : Host.Outcome State Fault Refusal :=
  whenAwake s (match s.change with
    | none => s
    | some c =>
      if c.stopped || decide (tick s < c.epoch) then s
      else
        let s := forEach (liveGens s) (fun s j => setF s (fGENMON_LOCK j) 0) s
        let s := clockFrom s c.epoch (cyclesBegun s c.epoch) 0
        modLodge { s with change := some { c with stopped := true } } (fun l => { l with pause := true, jitBad := [] }))

/-- The monitors resume with the first whole window after tick `r` (R620). -/
def resumeMonitors (s : State) (r : Nat) : State :=
  { s with lastAt := amSet (fun _ => 0) s.lastAt evMonitors (r + 1025) }

/-- Every plot restarts at tick `r` at the new step, and what waited for it goes on; the rail stands at the new step's voltage (R624); the
store-die count starts anew (R264); a decision made during the pause begins its own change. -/
def resumePlots (s : State) (c : Change) (r : Nat) : State :=
  let s := setRail (setF (setF { s with change := none } fSTEPSTAT_CUR c.target) fSTEPSTAT_CHANGING 0) c.target
  let s := clockFrom s r (cyclesAt s r) (stepRate c.target)
  let s := bump s fEPOCHCNT_CHANGES 1
  let s := resumeMonitors (setF s fEPOCHCNT_WORST (max (getF s fEPOCHCNT_WORST) (r - c.epoch))) r
  let s := progress (restartFrame s)
  match c.next with
  | some n => if n.1 = curStep s then s else beginChange s n.1 n.2 (r + 1)
  | none => s

/-- The last generator reports lock, by E + 2,000: one that is later has failed (R625, R626). -/
def execChangeResume (s : State) : Host.Outcome State Fault Refusal :=
  whenAwake s (match s.change with
    | none => s
    | some c =>
      if !c.stopped || decide (c.epoch + 2000 < tick s) then s
      else resumePlots (forEach (liveGens s) (fun s j => setF s (fGENMON_LOCK j) 1) s) c (tick s))

/-- The generators of `late` have not locked by E + 2,000: they fail their monitors, and the other plots resume. -/
def execLockTimeout (late : List (Fin 10)) (s : State) : Host.Outcome State Fault Refusal :=
  whenAwake s (match s.change with
    | none => s
    | some c =>
      if !c.stopped || decide (tick s < c.epoch + 2000) then s
      else
        let js := (liveGens s).filter (fun j => late.any (fun i => i.val == j))
        let s := forEach ((liveGens s).filter (fun j => !js.contains j)) (fun s j => setF s (fGENMON_LOCK j) 1) s
        resumePlots (forEach js (fun s j => monitorFails s j 1 0) s) c (c.epoch + 2000))

/-! ### Limits (R623, R628 to R630) -/

/-- The cap in mW, with CAPW as it acts. -/
def capMilli (s : State) : Nat := max 1000 (min 2800 (getF s fSTEPCTL_CAPW)) * 1000

/-- R628 for one step: whether its projected power fits, from power `pin` and die power `pd` at step `cur`. -/
def stepFits (v : List Nat) (cap pin pd cur i : Nat) : Bool :=
  let pr := (pin + 2 ^ 32 - pd % 2 ^ 32) % 2 ^ 32
  let kk := stepMHz i * v.getD i 0 * v.getD i 0 * 1000000 / (stepMHz cur * v.getD cur 0 * v.getD cur 0)
  decide (pr + pd * kk / 1000000 + (if cur < i then 100000 else 0) ≤ cap)

/-- The power limit: the highest step that fits, 0 when none does; one below the current step at least, while the input
exceeds the cap. -/
def powerLimit (s : State) (pin pd : Nat) : Nat :=
  let cur := curStep s
  let cap := capMilli s
  let plim := (List.range 8).foldl (fun m i => if stepFits s.lodge.vddc cap pin pd cur i then i else m) 0
  if cap < pin ∧ cur ≤ plim then cur - 1 else plim

/-- The hottest of the junction sensors 0 to 51, and its index. -/
def hottest (s : State) : Int × Nat :=
  (List.range 52).foldl (fun m i => if m.1 < s.lodge.temps.getD i 0 then (s.lodge.temps.getD i 0, i) else m) (s.lodge.temps.getD 0 0, 0)

/-- The thermal limit of this run (R630), from TJ in 1/16 °C, the limit now and the limit ten runs ago. -/
def thermalLimit (s : State) (tj : Int) : Nat :=
  let now := s.lodge.tlims.getD 0 7
  if 105 * 16 ≤ tj then 0
  else if 100 * 16 ≤ tj then curStep s - 1
  else if 97 * 16 ≤ tj then now
  else min 7 (s.lodge.tlims.getD 9 7 + 1)

/-- Whether throttling is in force (R630): from 100 °C until below 97 °C. -/
def throttles (was : Bool) (tj : Int) : Bool := decide (100 * 16 ≤ tj) || (was && decide (97 * 16 ≤ tj))

/-- The step that the limits allow, and the code of the limit that decided: the first listed of the lowest (R623). -/
def limitOf (req boost power thermal : Nat) (emergency : Bool) : Nat × Nat :=
  let m := min (min req boost) (min power thermal)
  (m, if m = req then 0 else if m = boost then 1 else if m = power then 2 else if emergency then 4 else 3)

/-- Newest first, at most `n`. -/
def pushTop (n x : Nat) (l : List Nat) : List Nat := (x :: l).take n

/-- One run of the governor: `pin` and `pd` are the powers of R628 in mW, `temps` the readings of the 64 sensors in 1/16 °C. -/
def governor (pin pd : Nat) (temps : List Int) (s : State) : State :=
  let s := modLodge s (fun l => { l with temps := temps, pins10 := pushTop 10 pin l.pins10 })
  let s := setF (setF s fCLK_PWR_PIN pin) fCLK_PWR_PAVG10 (s.lodge.pins10.sum / s.lodge.pins10.length)
  let tj := (hottest s).1
  let tl := thermalLimit s tj
  let was := s.lodge.throttling
  let now := throttles was tj
  let d := limitOf (getF s fSTEPCTL_STEPREQ) (if isSet s fSTEPCTL_BOOSTEN then 7 else 5) (powerLimit s pin pd) tl (decide (105 * 16 ≤ tj))
  let s := modLodge s (fun l => { l with tlims := pushTop 10 tl l.tlims, throttling := now })
  let s := setF s fSTEPSTAT_LIMIT d.2
  let s := if d.2 = 2 then bump s fTHROTCNT_CAPMS 1 else if 3 ≤ d.2 then bump s fTHROTCNT_THRMS 1 else s
  let s := if was = now then s else irqSource s 4
  decideStep s d.1

/-- Every 1 ms, at the multiples of 100,000 ticks (R628). -/
def execGovernor (pin pd : Nat) (temps : List Int) (s : State) : Host.Outcome State Fault Refusal :=
  whenAwake s (if tick s % 100000 = 0 then every evGovernor 100000 (governor pin pd temps) s else s)

/-! ### Cooling (R633, R656, R658) -/

def clamp255 (x : Int) : Nat := (max 0 (min 255 x)).toNat

/-- DRAMT: the hottest stack. -/
def hottestStack (s : State) : Nat := (List.range 32).foldl (fun m k => max m (getF s (fSTK_TEMP_DEGC k))) 0

/-- The cooling demand. -/
def coolDemand (s : State) : Nat :=
  let tj := (hottest s).1 / 16
  if 40 * 16 < s.lodge.temps.getD 60 0 ∨ 105 ≤ tj then 255
  else
    max (getF s fCOOLCTL_MIN)
      (max (clamp255 ((tj - 75) * 255 / 25)) (clamp255 (((hottestStack s : Nat) - 70 : Int) * 255 / 25)))

/-- Every 1 ms (R633). -/
def execCoolUpdate (s : State) : Host.Outcome State Fault Refusal :=
  whenAwake s (every evCool 100000 (fun s => let c := coolDemand s; { setF s fCOOLCTL_COOL c with pins := { s.pins with cool := c } }) s)

/-- ALERT# is low (R656). -/
def alertLow (s : State) : Bool := isSet s fERRSTAT_FATAL || s.lodge.throttling || getF s fCOOLCTL_COOL == 255

/-! ### Telemetry (R638, R639) -/

def telSize (s : State) : Nat := 2 ^ min (getF s fTELRING_SIZE) 10

/-- A 16-bit two's complement value. -/
def s16 (x : Int) : List Byte := leBytes 2 (x % 65536).toNat

/-- The FLAGS byte of frame `k`. -/
def telFlags (s : State) (k : Nat) : Nat :=
  oneIf s.lodge.throttling + 2 * oneIf (getF s fSTEPSTAT_LIMIT == 2) + 4 * oneIf (decide (6 ≤ curStep s)) +
  8 * oneIf s.lodge.pause + 16 * oneIf s.lodge.lost + 128 * oneIf (k / telSize s % 2 == 0)

/-- The holds of stream `j` in the window, saturating. -/
def windowHolds (s : State) (j : Nat) : Nat :=
  let h := getF s (fSTRHOLD_HOLDS (j / 2) (j % 2))
  min 65535 ((h + 2 ^ 32 - amGet (fun _ => 0) s.lodge.holds j) % 2 ^ 32)

/-- The 2,048 bytes of frame `k`, of the window that ended last. -/
def telFrame (s : State) (k : Nat) (m : TelMeas) : List Byte :=
  let h := hottest s
  leBytes 4 k ++ leBytes 1 1 ++ leBytes 1 (curStep s) ++ leBytes 1 (telFlags s k) ++ leBytes 1 (getF s fCOOLCTL_COOL) ++
  leBytes 8 ((tick s / 100000 - 1) * 100000) ++ leBytes 4 (getF s fCLK_PWR_PIN) ++ leBytes 4 m.paux ++
  leBytes 4 (getF s fCLK_PWR_PAVG10) ++ leBytes 4 s.lodge.late ++ s16 h.1 ++ leBytes 1 h.2 ++ leBytes 1 (hottestStack s) ++
  leBytes 2 (runMap s) ++ leBytes 2 (unended s).length ++ leBytes 24 0 ++
  (List.range 16).flatMap (fun i => let r := if i < 11 then m.rails.getD i (0, 0) else (0, 0); leBytes 2 r.1 ++ leBytes 2 0 ++ leBytes 4 r.2) ++
  (List.range 64).flatMap (fun i => s16 (s.lodge.temps.getD i 0)) ++
  (List.range 10).flatMap (fun j => leBytes 4 (m.plot.getD j 0)) ++ leBytes 8 0 ++
  (List.range 32).flatMap (fun k => leBytes 2 (m.stack.getD k 0)) ++
  (List.range 32).flatMap (fun k => leBytes 1 (getF s (fSTK_TEMP_DEGC k))) ++
  (List.range 8).flatMap (fun p => leBytes 2 (getF s (fLANPWR_MW p))) ++
  (List.range 16).flatMap (fun j => leBytes 2 (windowHolds s j)) ++
  (List.range 128).flatMap (fun i => leBytes 4 (getF s (fLANEBER_PPT (i / 16) (i % 16)))) ++
  (List.range 128).flatMap (fun i => leBytes 2 (getF s (fLANEHTR_TX (i / 16) (i % 16))) ++ leBytes 2 (getF s (fLANEHTR_RX (i / 16) (i % 16)))) ++
  (List.range 144).flatMap (fun i => leBytes 2 (getF s (fLASER_POWER (i / 18) (i % 18)))) ++ leBytes 224 0

/-- A window starts anew. -/
def newWindow (s : State) (lost : Bool) : State :=
  modLodge s (fun l => { l with
    late := 0, pause := false, lost := lost,
    holds := (List.range 16).map (fun j => (j, getF s (fSTRHOLD_HOLDS (j / 2) (j % 2)))) })

/-- The frame of the window that has ended, in two posted writes, its first 8 bytes last; one that cannot be sent is skipped. -/
def telemetry (m : TelMeas) (sent : Bool) (s : State) : State :=
  if !(isSet s fTELRING_EN) then newWindow s false
  else
    let k := getF s fTELSTAT_SEQ
    if !sent then newWindow (bump (setF s fTELSTAT_SEQ (k + 1)) fTELSTAT_MISSCNT 1) true
    else
      let h := hottest s
      let a := getF s fTELRING_ADDR * 2048 + 2048 * (k % telSize s)
      let s := setF (toHostEntry s none a (telFrame s k m)) fTELSTAT_SEQ (k + 1)
      let s := modLodge s (fun l => { l with telLast := (h.1 % 65536).toNat + 65536 * h.2 })
      newWindow (irqSource s 3) false

def execTelemetryFrame (m : TelMeas) (sent : Bool) (s : State) : Host.Outcome State Fault Refusal :=
  whenAwake s (eachWindow evTelemetry 100000 (telemetry m sent) s)

/-- A write of TELRING: setting EN restarts SEQ at 0. -/
def writeTelring (s : State) (v : Nat) : State :=
  let was := isSet s fTELRING_EN
  let s := setF (setF (setF s fTELRING_SIZE (bitsOf v 63 60)) fTELRING_EN (bitsOf v 59 59)) fTELRING_ADDR (bitsOf v 51 11)
  if !was && bitOf v 59 then modLodge (setF s fTELSTAT_SEQ 0) (fun l => { l with lost := false }) else s

def execTelringEnable (v : BitVec 64) (s : State) : Host.Outcome State Fault Refusal :=
  .next (if servedAt s rTELRING then writeTelring s (putBits v.toNat 59 59 1) else s)

end Sys2Proof.Machine
end

