-- ==== Sys2Proof/Machine/Host.lean ====
section
/-! DEFINITION. The host's accesses (spec/00 R15 to R19; spec/14 R565, R568 to R580): the BAR2 window, register writes, BAR4, and
MSI-X. -/

namespace Sys2Proof.Machine

open Sys2Proof

/-! ### BAR errors (R570, R575, R586) -/

/-- Set flag `bit` of BARERR for an access at BAR offset `off`: 0 TRANS, 1 UE, 2 OFF, 3 DBSIZE. -/
def barError (s : State) (bit off : Nat) : State :=
  let s := match bit with
    | 0 => bump (setF s fHOST_BARERR_TRANS 1) fHOST_BARERRCNT_TRANSCNT 1
    | 1 => bump (setF s fHOST_BARERR_UE 1) fHOST_BARERRCNT_UECNT 1
    | 2 => bump (setF s fHOST_BARERR_OFF 1) fHOST_BARERRCNT_OFFCNT 1
    | _ => bump (setF s fHOST_BARERR_DBSIZE 1) fHOST_BARERRCNT_DBSIZECNT 1
  logEvent (setF s fHOST_BARERR_LASTOFF (off / 16)) 0x12 bit 0 [off, 0, 0, 0]

/-! ### The window (R570, R571) -/

/-- The device address of BAR2 offset `o`. -/
def windowAddr (s : State) (o : Nat) : Nat := getF s fHOST_WINCTL_SPACE * 2 ^ 48 + getF s fHOST_WINCTL_BASE * 2 ^ 28 + o

/-- The window maps an offset: EN is 1, and the space is one that it reaches. -/
def windowOpen (s : State) : Bool := isSet s fHOST_WINCTL_EN && decide (getF s fHOST_WINCTL_SPACE ≤ 2)

/-- What a piece of a window access meets. -/
inductive WinAt where
  | hole
  | notReady
  | trans
  | waits
  | at_ (l : Loc)
deriving DecidableEq, Repr

/-- What the place that an address names is to a window. -/
def winOf (s : State) (r : State × Loc) : State × WinAt :=
  match r.2 with
  | .org a => (r.1, if getBit s fORG_ORGREADY_READY (orgSlice a) then .at_ r.2 else .notReady)
  | .dram d => (r.1, if dramWaits s d then .waits else .at_ r.2)
  | .waits => (s, .waits)
  | _ => (r.1, if getF s fHOST_WINCTL_SPACE = 0 then .hole else .trans)

/-- Where the piece at BAR2 offset `o`, which crosses no 4 KiB boundary, lands. -/
def windowAt (s : State) (o : Nat) (write : Bool) : State × WinAt :=
  winOf s (locate s (getF s fHOST_WINCTL_CTX) (windowAddr s o) write false)

/-- A piece without its place is reported, and has no effect. -/
def noteWin (w : State × WinAt) (o : Nat) : State :=
  match w.2 with
  | .hole => noteHole w.1
  | .notReady => noteNotReady w.1
  | .trans => barError w.1 0 o
  | _ => w.1

/-- Read a piece of `n` bytes: zeros where it has no place or is uncorrectable, and whether it is uncorrectable. -/
def pieceRead (w : State × WinAt) (o n : Nat) : State × List Byte × Bool :=
  match w.2 with
  | .at_ l =>
    let r := readLoc w.1 none l n 0
    if r.2.2 = 0 then (r.1, r.2.1, false) else (barError r.1 1 o, List.replicate n (0#8), true)
  | _ => (noteWin w o, List.replicate n (0#8), false)

/-- Write a piece. -/
def pieceWrite (w : State × WinAt) (o : Nat) (bs : List Byte) : State :=
  match w.2 with
  | .at_ l =>
    let r := writeLoc w.1 none l bs
    if r.2 = 0 then r.1 else barError r.1 1 o
  | _ => noteWin w o

/-- Read pieces: the bytes so far and whether one was uncorrectable; none while a piece waits for its stack. -/
def windowRead : List (Nat × Nat) → List Byte → Bool → State → State × Option (List Byte × Bool)
  | [], acc, ue, s => (s, some (acc, ue))
  | (o, n) :: rest, acc, ue, s =>
    let w := windowAt s o false
    if w.2 = .waits then (s, none)
    else
      let r := pieceRead w o n
      windowRead rest (acc ++ r.2.1) (ue || r.2.2) r.1

/-- A read through the window: the completion's bytes stand in `reply`.  After a module-fatal error the contents of the memories
are undefined (R597), so the bytes are free. -/
def bar2Read (s : State) (o n : Nat) : State :=
  if !(windowOpen s) then { barError s 2 o with reply := ⟨List.replicate n (0#8), false, false⟩ }
  else if isSet s fERRSTAT_FATAL then
    let r := drawBytes n s
    { r.1 with reply := ⟨r.2, false, false⟩ }
  else
    let r := windowRead (cutAt 4096 (n / 4096 + 2) o n) [] false s
    match r.2 with
    | none => s
    | some b => { r.1 with reply := ⟨if b.2 then List.replicate n (0#8) else b.1, b.2, false⟩ }

/-- A read that completes with Unsupported Request: it brings no bytes (R565, R568). -/
def unsupported (s : State) : State := { s with reply := ⟨[], false, true⟩ }

/-- A read outside every BAR, and any in D3hot, is an Unsupported Request. -/
def execBar2Read (o : BitVec 28) (n : Nat) (s : State) : Host.Outcome State Fault Refusal :=
  .next (
    if on s && s.pcie.l0 && s.pcie.d3 && !(paused s) then unsupported s
    else if !(served s) then s
    else if o.toNat + n ≤ 2 ^ 28 then bar2Read s o.toNat n
    else unsupported s)

/-- Write pieces of `bs`, which starts at offset `base`; none while a piece waits for its stack. -/
def windowWrite (base : Nat) (bs : List Byte) : List (Nat × Nat) → State → State × Bool
  | [], s => (s, true)
  | (o, n) :: rest, s =>
    let w := windowAt s o true
    if w.2 = .waits then (s, false)
    else windowWrite base bs rest (pieceWrite w o ((bs.drop (o - base)).take n))

/-- A write through the window. -/
def bar2Write (s : State) (o : Nat) (bs : List Byte) : State :=
  if !(windowOpen s) then barError s 2 o
  else
    let r := windowWrite o bs (cutAt 4096 (bs.length / 4096 + 2) o bs.length) s
    if r.2 then r.1 else s

/-- A memory request with its EP bit set is dropped and reported through AER (R565). -/
def poisonedTlp (s : State) : State :=
  { s with aer := s.aer + 1, pcie := { s.pcie with cfg := { s.pcie.cfg with poisoned := true } } }

def execBar2Write (o : BitVec 28) (bs : List Byte) (ep : Bool) (s : State) : Host.Outcome State Fault Refusal :=
  whenServed s (
    if ep then poisonedTlp s
    else if o.toNat + bs.length ≤ 2 ^ 28 then bar2Write s o.toNat bs
    else s)

/-! ### MSI-X (R577, R580) -/

/-- Send the message of a vector whose pending bit is set, once nothing masks it. -/
def unmasked (s : State) (v : Nat) : State :=
  let f := fHOST_MSIXPBA_PEND (v / 64)
  if getBit s f (v % 64) && s.pcie.msixEn && !s.pcie.msixMask && !(isSet s (fHOST_MSIXCTL_MASK v)) then
    raiseVec (setBit s f (v % 64) false) v
  else s

/-- A write of a vector's data and control. -/
def writeMsix (s : State) (v w : Nat) : State :=
  unmasked (setF (setF s (fHOST_MSIXCTL_DATA v) w) (fHOST_MSIXCTL_MASK v) (bitsOf w 32 32)) v

def execMsixUnmask (v : BitVec 8) (s : State) : Host.Outcome State Fault Refusal :=
  .next (if servedAt s 0 then unmasked (setF s (fHOST_MSIXCTL_MASK v.toNat) 0) v.toNat else s)

/-! ### Firmware commands (R616, R617) -/

/-- The image that does not run: in recovery, the one that the boot header does not name. -/
def idleImage (s : State) : Nat := if recovering s then 1 - s.lodge.active else 1 - getF s fLODGESTAT_IMAGE

def fwResult (s : State) (r : Nat) : State := setF (setF s fFWSTAT_BUSY 0) fFWSTAT_RESULT r

def setImage (s : State) (i : Nat) (x : FwImage) : State := modLodge s (fun l => { l with images := l.images.set i x })

/-- OP 1: the inactive image is overwritten from host memory, and BUSY stays 1 until the read-back. -/
def fwWrite (s : State) (v hostSt : Nat) : State :=
  if isSet s fFWSTAT_BUSY then s
  else
    let n := bitsOf v 61 52
    if n = 0 then fwResult s 3
    else if hostSt ≠ 0 then fwResult s 4
    else
      let bytes := fromHost s (bitsOf v 51 12 * 4096) (4096 * n)
      let s := sendUp s none false (bitsOf v 51 12 * 4096) (4096 * n)
      let s := setF (setF s fFWSTAT_BUSY 1) fFWSTAT_RESULT 0
      let s := if recovering s then s else setF s fLODGESTAT_STATE 3
      setImage (modLodge s (fun l => { l with writing := some bytes })) (idleImage s) ⟨[], false⟩

def execFirmwareWrite (v : BitVec 64) (hostSt : Fin 4) (s : State) : Host.Outcome State Fault Refusal :=
  .next (if servedAt s rFWCMD then fwWrite s v.toNat hostSt.val else s)

/-- The read-back: `same` says that it agrees with what was written; the image's own CRC decides the rest. -/
def execFirmwareWriteDone (same : Bool) (s : State) : Host.Outcome State Fault Refusal :=
  whenUp s (match s.lodge.writing with
    | none => s
    | some bytes =>
      let good := same && Config.imageGood bytes
      let s := setImage (modLodge s (fun l => { l with writing := none })) (idleImage s) ⟨bytes, good⟩
      let s := if recovering s then s else setF s fLODGESTAT_STATE 1
      fwResult s (if good then 1 else 2))

/-- OP 2: the inactive image runs from the next module reset. -/
def fwActivate (s : State) : State :=
  if isSet s fFWSTAT_BUSY then s
  else if ((s.lodge.images.getD (idleImage s) ⟨[], false⟩).good) then
    fwResult (modLodge s (fun l => { l with active := idleImage s })) 1
  else fwResult s 3

def execFirmwareActivate (s : State) : Host.Outcome State Fault Refusal := .next (if servedAt s rFWCMD then fwActivate s else s)

/-- A write of FWCMD. -/
def writeFwcmd (s : State) (v : Nat) : State :=
  match bitsOf v 63 62 with
  | 1 => fwWrite s v 0
  | 2 => fwActivate s
  | _ => s

/-! ### Register writes (R15 to R19) -/

/-- A write by the access codes alone. -/
def plainWrite (s : State) (r : RegRow) (off v : Nat) : State :=
  regPut s off (BitVec.ofNat 64 (regWritten r (regGet s off).toNat v))

/-- The effect of writing `v` to the register at `off` of row `r`; `low` says that bits [31:0] are written, `high` that bits [63:32]
are. -/
def regEffect (s : State) (r : RegRow) (off v : Nat) (low high : Bool) : State :=
  let ix := ixOf r.dims (off - r.base)
  let i := ix.getD 0 0
  let j := ix.getD 1 0
  let b := r.base
  if b = rCRLCFG 0 0 0 then writeCrlCfg s (8 * (8 * i + j) + ix.getD 2 0) v
  else if b = rHCRLCFG 0 then writeCrlCfg s (512 + i) v
  else if b = rHCRLPTR 0 then (if low then writeHostHead s i (v % 2 ^ 20) else s)
  else if b = rORG_MDVAL then (if low then writeMdval s v else s)
  else if b = rSLA_INVAL then writeInval s v
  else if b = rCTXCTL 0 then writeCtxctl s i v
  else if b = rCTXKILL 0 then writeCtxkill s i v
  else if b = rQCTL 0 0 then writeQctl s i j v
  else if b = rCPLPTR 0 0 then settleFront i j (writeCplHead s i j v)
  else if b = rGATE_MODECFG then writeModecfg s v
  else if b = rDMA_FLTRESP then writeFltresp s v
  else if b = rDMA_FLTRING then deliverFault (plainWrite s r off v)
  else if b = rDMA_FLTPTR then deliverFault (plainWrite s r off v)
  else if b = rCHCTL 0 then writeChctl s i v
  else if b = rWKCTL 0 then writeWkctl s i v
  else if b = rWKRELW 0 then progress (writeWkrelw s i v)
  else if b = rWKRET 0 then wicketRelease s i (bitsOf v 31 8 * 256)
  else if b = rLNKCTL 0 then progress (writeLnkctl s i v)
  else if b = rPWGEN 0 0 then writePwgen s i j v
  else if b = rRWCTL 0 0 then (if high then writeRwctl s i j v else plainWrite s r off v)
  else if b = rLANCTL 0 then progress (writeLanctl s i v)
  else if b = rHOST_IRQSRC 0 then (if i < 7 then plainWrite s r off v else s)
  else if b = rHOST_MSIXCTL 0 then writeMsix s i v
  else if b = rLOGRING then writeLogRing s v
  else if b = rLOGMASK then plainWrite s r off (Nat.lor v (2 ^ 0x15 + 2 ^ 0x16))
  else if b = rHEDGECMD then progress (hedgeCmd s (bitsOf v 63 60) (bitsOf v 59 56) (bitsOf v 31 0))
  else if b = rFWCMD then writeFwcmd s v
  else if b = rTELRING then writeTelring s v
  else if b = rBELVCTL then
    let s := plainWrite s r off v
    if isSet s fBELVCTL_EN then s else forEach (List.range 16) (fun s k => modStr s k (fun t => { t with bcnt := 0 })) s
  else plainWrite s r off v

/-- A BAR0 write: an aligned write of 4 or 8 bytes acts on its register; any other, and one at an unassigned offset, is dropped. -/
def bar0Write (s : State) (off size v : Nat) : State :=
  if !((size == 8 && off % 8 == 0) || (size == 4 && off % 4 == 0)) then s
  else
    let reg := off / 8 * 8
    match rowOf reg with
    | none => s
    | some r => regEffect s r reg (widen r (regGet s reg).toNat off size v) (off % 8 == 0) (size == 8 || off % 8 == 4)

/-- A BAR4 write (R575): a doorbell, a consumer count or a request line; a write of another size or alignment sets DBSIZE. -/
def bar4Write (s : State) (off size v : Nat) : State :=
  if !((size == 8 && off % 8 == 0) || (size == 4 && off % 4 == 0)) then barError s 3 off
  else if off % 8 ≠ 0 then s
  else if off < 0x10000 then
    let c := off / 0x1000
    let o := off % 0x1000
    if o < 0x40 then doorbell s c (o / 8) (v % 2 ^ 32)
    else if 0x100 ≤ o ∧ o < 0x140 then settleFront c ((o - 0x100) / 8) (writeCplHead s c ((o - 0x100) / 8) (v % 2 ^ 32))
    else s
  else if off < 0x10800 then addRequests s ((off - 0x10000) / 8) (v % 65536)
  else s

/-- A read of BAR4 returns 0 (R575). -/
def bar4Read (_s : State) (_off _size : Nat) : Nat := 0

def execRegisterWrite (w : BarWrite) (s : State) : Host.Outcome State Fault Refusal :=
  .next (
    if !(servedAt s (if w.bar4 then 0x100000 else w.off)) then s
    else if w.ep then poisonedTlp s
    else if w.bar4 then bar4Write s w.off w.size w.v.toNat
    else bar0Write s w.off w.size w.v.toNat)

end Sys2Proof.Machine
end

