-- ==== Sys2Proof/Machine/Reset.lean ====
section
/-! DEFINITION. Resets, power and the module's pins (spec/14 R563 to R568; spec/16 R614 to R616; spec/17 R631, R647, R653 to R660): FLR
and its like, the PCIe link and its power states, module reset and bring-up, loss of power, and the management interfaces. -/

namespace Sys2Proof.Machine

open Sys2Proof

/-! ### FLR, Hot Reset and PERST# (R566, R567) -/

/-- Offsets of the HOST block. -/
def inHost (off : Nat) : Bool := decide (off < 0x100000)

/-- Every register at its reset value but those to keep. -/
def keepRegs (s : State) (keep : Nat → Bool) : State := { s with regs := s.regs.filter (fun p => keep p.1) }

/-- Every HOST register at its reset value; the identity that the Lodge loads and the state of the link itself stay. -/
def resetHostRegs (s : State) : State :=
  let keep := fun (off : Nat) => !(inHost off) || off == rHOST_HOSTID || off == rHOST_SERIAL || off == rHOST_LINKSTAT
  let s := { keepRegs s keep with creels := s.creels.filter (fun p => decide (p.1 < 512)) }
  setF (setF (setF (setF s fHOST_LINKSTAT_RETRCNT 0) fHOST_LINKSTAT_ATSEN 0) fHOST_LINKSTAT_PRIEN 0) fHOST_LINKSTAT_PASIDEN 0

/-- A task entry is given up: its index is free after the quarantine of R371. -/
def dropTask (s : State) (i : Nat) : State :=
  match getTask s i with
  | none => s
  | some t => setTask s i (some { t with
      st := .ended 7 0, saved := none, endTick := if t.st.isEnded then t.endTick else tick s, body := { t.body with seqs := [] } })

/-- A binary is unloaded, and its handle's generation rises. -/
def dropBin (b : Bin) : Bin := if b.loaded then { Bin.reset with gen := (b.gen + 1) % 16 } else b

/-- A sequence slot is closed and cleared. -/
def dropSlot (s : State) (sl : Nat) : State :=
  regPut (regPut (regPut (regPut s (rSEQA sl) (regDefault (rSEQA sl))) (rSEQB sl) (regDefault (rSEQB sl)))
    (rMTRNOW sl) (regDefault (rMTRNOW sl))) (rMTRHIST sl) (regDefault (rMTRHIST sl))

/-- Stream `k` is idle, with nothing tracked, nothing held and no plan. -/
def dropStream (s : State) (k : Nat) : State :=
  modStr (removePlan s k) k (fun t => { Stream.reset with now := t.now, nextSlot := t.now + 1 })

/-- Queue (c, q) is disabled and empty. -/
def dropQueue (s : State) (c q : Nat) : State :=
  setF (setF (setQ s c q Queue.reset) (fQCTL_EN c q) 0) (fQSTAT_STATE c q) qDisabled

/-- Channel `ch` is disabled and idle; the quarantine of one that ran begins (R475). -/
def dropChan (s : State) (ch : Nat) : State :=
  let c := getChan s ch
  setF (setChan s ch { Chan.reset with endTick := if c.st = .idle then c.endTick else tick s }) (fCHCTL_EN ch) 0

/-- Creel `c` of a core is disabled, and its quarantine begins (R434); requests of this module's own operations are gone with them. -/
def dropCreel (s : State) (c : Nat) : State :=
  modCreel (closeCreel s c) c (fun x => { x with requests := x.requests.filter (fun r => match r.dest with
    | .peer _ _ => true
    | .own _ => false) })

/-- Wicket `w` is closed, and its quarantine begins (R479). -/
def dropWicket (s : State) (w : Nat) : State := if isSet s (fWKCTL_EN w) then closeWicket s w else s

/-- Steps 1 to 4 of R566, and the state of R567.  The kills write no record and send no message. -/
def flr (s : State) : State :=
  let msgs := s.msgs
  let s := forEach (List.range 16) killContext s
  let s := forEach (List.range 64) killChan s
  let s := { s with ops := [], slaRuns := [], units := [], packets := [], faults := [], pri := [], slaRefused := [], slots := [],
                    bankq := s.bankq.filter (fun b => match b.dest with
                      | .peer _ _ _ => true
                      | _ => false),
                    waiters := s.waiters.filter (fun w => match w.agent with
                      | .peer _ _ _ => true
                      | _ => false) }
  let s := forEach (List.range 16) dropStream s
  let s := forEach (s.tasks.map Prod.fst) dropTask s
  let s := { s with bins := s.bins.map (fun p => (p.1, dropBin p.2)) }
  let s := forEach (List.range 1024) dropSlot s
  let s := forEach (List.range 16) (fun s c => forEach (List.range 8) (fun s q => dropQueue s c q) (setF s (fCTXCTL_EN c) 0)) s
  let s := forEach (List.range 64) dropChan s
  let s := forEach (List.range 512) dropCreel s
  let s := forEach (List.range 64) dropWicket s
  let s := forEach (List.range 64) (fun s m => modCore s m (fun c => { c with accounts := [] })) s
  resetHostRegs { s with msgs := msgs, pcie := { Pcie.reset s.part with l0 := s.pcie.l0 }, priMax := 0 }

def execFlr (s : State) : Host.Outcome State Fault Refusal := whenUp s (flr s)

/-- The link goes down, to train again. -/
def linkDown (s : State) : State :=
  setF (setF (setF { s with pcie := { s.pcie with l0 := false } } fHOST_LINKSTAT_SPEED 0) fHOST_LINKSTAT_WIDTH 0) fHOST_LINKSTAT_FLIT 0

def execHotReset (s : State) : Host.Outcome State Fault Refusal := whenUp s (linkDown (flr s))
def execPerst (s : State) : Host.Outcome State Fault Refusal := whenUp s (linkDown (flr s))

/-! ### The link and its power states (R563, R568, R653) -/

def execD3hotEntry (s : State) : Host.Outcome State Fault Refusal := whenUp s { s with pcie := { s.pcie with d3 := true } }
def execD0Return (s : State) : Host.Outcome State Fault Refusal := whenUp s { s with pcie := { s.pcie with d3 := false } }

/-- The cables of J3 and J4 as they are seated now; the next link training takes them. -/
def execCablePresenceChange (j3 j4 : Bool) (s : State) : Host.Outcome State Fault Refusal :=
  .next { s with pins := { s.pins with cbl := [j3, j4] } }

/-- The widest link that the cables and the negotiation allow. -/
def linkWidth (j4 : Bool) (n : Nat) : Nat :=
  let n := if j4 then n else min n 8
  if 16 ≤ n then 16 else if 8 ≤ n then 8 else if 4 ≤ n then 4 else if 2 ≤ n then 2 else 1

/-- A training of the link: without a cable at J3 it ends down; a training of a link that was up is a retrain. -/
def trainPcie (s : State) (u : LinkUp) : State :=
  let s := { s with pins := { s.pins with cblUsed := s.pins.cbl } }
  if !(s.pins.cbl.getD 0 false) then linkDown s
  else
    let s := if s.pcie.l0 then bump s fHOST_LINKSTAT_RETRCNT 1 else s
    let s := setF s fHOST_LINKSTAT_SPEED (max 1 (min 6 u.speed.val))
    let s := setF (setF s fHOST_LINKSTAT_WIDTH (linkWidth (s.pins.cbl.getD 1 false) u.width)) fHOST_LINKSTAT_FLIT (oneIf u.flit)
    let s := setF (setF (setF s fHOST_LINKSTAT_ATSEN (oneIf u.ats)) fHOST_LINKSTAT_PRIEN (oneIf u.pri)) fHOST_LINKSTAT_PASIDEN (oneIf u.pasid)
    let cfg := { s.pcie.cfg with
      mps := u.mps, mrrs := u.mrrs, timeoutUs := u.timeoutUs,
      bars := s.pcie.cfg.bars.zipWith (fun b a => { b with base := a }) u.bars }
    let s := { s with pcie := { s.pcie with l0 := true, msixEn := u.msixEn, msixMask := u.msixMask, cfg := cfg }, priMax := u.priMax }
    forEach (List.range 256) unmasked s

def execPcieLinkTraining (u : LinkUp) (s : State) : Host.Outcome State Fault Refusal := whenUp s (trainPcie s u)

/-! ### Module reset (R600, R603, R614 to R616) -/

/-- The hedges that outlive a module reset: the lasting ones, channels and plots apart. -/
def lastingHedges (s : State) : List Hedge :=
  (s.hedges.filter (fun h => h.lasting && h.cls != 10 && h.cls != 11 && h.cls != 12)).map
    (fun h => { h with probing := false, held := false, cmd := 0, since := 0 })

/-- What a loss of power and a module reset leave: the part, the host's memory and the requests sent to it, the queue of commands, the flash, the lanterns in
their bays, the pins, and the free-value counter.  Everything else is as State.reset has it. -/
def afterReset (s : State) : State :=
  { State.reset with
    part := s.part, free := s.free, pending := s.pending, host := s.host, msgs := s.msgs, up := s.up, aer := s.aer, wire := s.wire,
    console := s.console, pcie := Pcie.reset s.part,
    hedges := lastingHedges s, transients := s.transients,
    lanterns := s.lanterns.foldl (fun m p =>
      amSet (fun _ => Lantern.reset) m p.1 { Lantern.reset with mem := p.2.mem, supplyOff := p.2.supplyOff }) [],
    lodge := { Lodge.reset with
      images := s.lodge.images, active := s.lodge.active, bootStep := s.lodge.bootStep, calib := s.lodge.calib,
      bankSpares := s.lodge.bankSpares, dramSpares := s.lodge.dramSpares, laneSpares := s.lodge.laneSpares,
      vddc := s.lodge.vddc, powTicks := s.lodge.powTicks + tick s },
    pins := { Pins.reset with
      cbl := s.pins.cbl, resetLow := s.pins.resetLow, aux12 := s.pins.aux12, refclk := s.pins.refclk, ga := s.pins.ga,
      smAddr := 0x58 + s.pins.ga } }

/-- The image that the boot ROM runs, and whether it is not the one that the boot header names; none when both fail. -/
def bootImage (l : Lodge) : Option (Nat × Bool) :=
  let good := fun i => (l.images.getD i ⟨[], false⟩).good
  if good l.active then some (l.active, false)
  else if good (1 - l.active) then some (1 - l.active, true)
  else none

/-- The identity registers (R586). -/
def loadIdentity (s : State) : State :=
  let a1 := s.part == .a1
  let s := setF (setF s fHOST_HOSTID_DEVICE (if a1 then 0x0320 else 0x0321)) fHOST_HOSTID_PART (if a1 then 1 else 2)
  let s := setF (setF s fHOST_HOSTID_STEP (if a1 then 0xA1 else 0xB0)) fHOST_HOSTID_LTPROV (if a1 then 1 else 3)
  setF s fHOST_SERIAL_SERIAL Config.serial.toNat

/-- The registers that show the repair maps of the flash; `old` is the state before the reset. -/
def loadRepairs (old s : State) : State :=
  let s := forEach (List.range 64) (fun s m =>
    let off := rARRREPAIR (m / 8) (m % 8)
    regPut s off (regGet old off)) s
  let s := forEach (List.range 32) showSpared s
  forEach s.lodge.laneSpares (fun s x =>
    bump (setF s (fSTK_STAT_LINKDEG (x.1 / 2)) 1) (if x.1 % 2 = 0 then fSTK_LINKSTAT_SPUP (x.1 / 2) else fSTK_LINKSTAT_SPDN (x.1 / 2)) 1) s

/-- The hedges that stand after the reset, shown again; a hedged port is in the state HEDGED. -/
def loadHedges (s : State) : State :=
  forEach s.hedges (fun s h =>
    let s := showHedge s h.cls h.res
    if h.cls = 8 then setF s (fLNKSTAT_STATE h.res) 7
    else if h.cls = 9 then setF s (fLNKSTAT_STATE (h.res % 8)) 7
    else s) s

/-- The bays: a lantern that was seated is read and checked, and its port comes up. -/
def bootBays (old s : State) : State :=
  forEach ((List.range 8).filter (fun p => isSet old (fLANSTAT_PRESENT p))) (fun s p =>
    let s := setF (setF s (fLANSTAT_PRESENT p) 1) (fLANSTAT_INTLK p) (getF old (fLANSTAT_INTLK p))
    readLantern s p true) s

/-- The bring-up sequence of R614 from Lodge boot: the Lodge, the clocks, the Gatehouse, the DMA engine and the host interface
are ready; slices, pavilions, stacks, ports and the PCIe link report by their own commands.  With both images bad the Lodge is in recovery, and READY
stays 0.  Without the 12 V auxiliary rail or the reference the Lodge stays in reset. -/
def moduleReset (s : State) : State :=
  let t := loadRepairs s (afterReset s)
  if !(t.pins.aux12 && t.pins.refclk) then t
  else
  let t := { t with pins := { t.pins with conv := true, lodge := true, pwrgd := true } }
  match bootImage t.lodge with
  | none => setF (loadIdentity t) fLODGESTAT_STATE 2
  | some b =>
    let t := setF (setF (setF t fLODGESTAT_STATE 1) fLODGESTAT_IMAGE b.1) fLODGESTAT_FALLBACK (oneIf b.2)
    let t := setF t fLODGESTAT_FWVER (Config.imageVersion (t.lodge.images.getD b.1 ⟨[], false⟩).bytes).toNat
    let t := loadHedges (loadIdentity t)
    let step := t.lodge.bootStep
    let t := setRail { t with plotClock := [(0, 0, stepRate step)] } step
    let t := setF (setF (setF t fSTEPCTL_STEPREQ step) fSTEPSTAT_CUR step) fSTEPSTAT_TARGET step
    let t := forEach (List.range 10) (fun t j => setF t (fGENMON_LOCK j) 1) t
    let t := forEach (List.range 32) (fun t k => if stackHedged t k then t else setF t (fSTK_STAT_TRAIN k) 1) t
    progress (bootBays s (forEach (List.range 4) markReady t))

/-- A module reset of a module whose supply and reference are in order: the power-up of the 12 V auxiliary rail, the return of the reference
to a module in reset, or one by the management connector (R614, R657; assumption 114). -/
def execModuleReset (s : State) : Host.Outcome State Fault Refusal :=
  .next (moduleReset { s with pins := { s.pins with aux12 := true, refclk := true } })

/-- Pavilion `n` has passed its self-test: its slices and its cores are ready, or hedged. -/
def execPavilionReady (n : Fin 8) (s : State) : Host.Outcome State Fault Refusal :=
  whenOn s (
    if !(getBit s fHEDGEMISC_PAV n.val) &&
        (coresOfPav n.val).all (fun m => getBit s fORG_ORGREADY_READY m || getBit s fORG_ORGHEDGE_HEDGED m) then
      markReady s (8 + n.val)
    else s)

/-! ### Loss of power (R631, R647) -/

/-- Registers that the Lodge's domain and the host interface keep showing: HOST, LAN, LODGE, CLK and ERR, and the repair maps that
the flash holds. -/
def kept (off : Nat) : Bool :=
  inHost off || (decide (0x1000000 ≤ off) && decide (off < 0x1800000) && off % 0x10000 == 0x1008) || (decide (0x3480000 ≤ off) && decide (off < 0x3488000)) || (decide (0x3800000 ≤ off) && decide (off < 0x3B00000)) ||
  decide (0x3C00000 ≤ off)

/-- The state with no power in it: what the Lodge's domain shows, and what the flash holds. -/
def unpowered (s : State) (lodge : Bool) : State :=
  { afterReset s with
    regs := s.regs.filter (fun p => kept p.1), transients := s.transients, hedges := s.hedges,
    lodge := { s.lodge with writing := none, linkWait := [], rail := 0 },
    pins := { s.pins with conv := false, lodge := s.pins.lodge && lodge, pwrgd := false } }

/-- Every function stops without writing records; the module stays off until module reset.  `lodge` says whether the Lodge keeps
its supply. -/
def powerOff (s : State) (lodge : Bool) : State := forEach (List.range 8) lasersOff (unpowered s lodge)

def execUndervoltage48v (s : State) : Host.Outcome State Fault Refusal := whenUp s (powerOff s true)
def execUndervoltage12v (s : State) : Host.Outcome State Fault Refusal :=
  let s := { s with pins := { s.pins with aux12 := false } }
  .next (if s.pins.lodge then powerOff s false else s)
def execThermalTrip (s : State) : Host.Outcome State Fault Refusal := whenUp s (powerOff s true)

/-! ### RESET# (R657) -/

/-- A change of RESET#: it is low, and has been for `us` µs, or it rises after that time.  A level shorter than 1 ms has no effect; an
accepted one takes the rails down and holds the Lodge in reset, and module reset follows its end. -/
def execResetPin (low : Bool) (us : Nat) (s : State) : Host.Outcome State Fault Refusal :=
  .next (
    let s := { s with pins := { s.pins with resetLow := low } }
    if us < 1000 then s
    else if low then (if s.pins.conv || s.pins.lodge then powerOff s false else s)
    else moduleReset s)

/-! ### The management bus (R655) -/

/-- An SMBus or I3C read, at the module's address `Pins.smAddr`, of an eight-byte value. -/
def smbus (s : State) (v : Nat) : State := { s with reply := ⟨leBytes 8 v, false, false⟩ }

/-- The answer of a read: the module answers while the Lodge runs (R655; assumption 115). -/
def smbusRead (s : State) (v : Nat) : Host.Outcome State Fault Refusal := .next (if s.pins.lodge then smbus s v else s)

def execSmbusReadReady (s : State) : Host.Outcome State Fault Refusal := smbusRead s (readReg s rLODGE_READY)
def execSmbusReadLodgestat (s : State) : Host.Outcome State Fault Refusal := smbusRead s (readReg s rLODGESTAT)
def execSmbusReadPwr (s : State) : Host.Outcome State Fault Refusal := smbusRead s (readReg s rCLK_PWR)
def execSmbusReadCoolctl (s : State) : Host.Outcome State Fault Refusal := smbusRead s (readReg s rCOOLCTL)
def execSmbusReadTjmax (s : State) : Host.Outcome State Fault Refusal := smbusRead s s.lodge.telLast
def execSmbusReadErrstat (s : State) : Host.Outcome State Fault Refusal := smbusRead s (readReg s rERRSTAT)
def execSmbusReadSerial (s : State) : Host.Outcome State Fault Refusal := smbusRead s (readReg s rHOST_SERIAL)

/-! ### JTAG (R660) -/

/-- The bits that come out on TDO. -/
def tdo (s : State) (l : List Bool) : State := { s with pins := { s.pins with scan := l } }

def bitsOut (n w : Nat) : List Bool := (List.range n).map (fun i => bitOf w i)

/-- The answer of the test port, whose signals are valid while the 12 V auxiliary rail is within its limits (R654). -/
def jtag (s t : State) : Host.Outcome State Fault Refusal := .next (if s.pins.aux12 then t else s)

def execJtagIdcode (s : State) : Host.Outcome State Fault Refusal := jtag s (tdo s (bitsOut 32 Config.idcode.toNat))

/-- The bypass register holds one bit, 0 at first (IEEE 1149.1): what goes in comes out one bit later. -/
def bypass (s : State) (l : List Bool) : State := tdo s ((false :: l).take l.length)

def execJtagBypass (l : List Bool) (s : State) : Host.Outcome State Fault Refusal := jtag s (bypass s l)

/-- A boundary scan: while RESET# is low the pins' cells come out, whose order and levels the spec leaves open; while it is high
the instruction is treated as BYPASS. -/
def execJtagBoundaryScan (l : List Bool) (s : State) : Host.Outcome State Fault Refusal :=
  jtag s (
    if !s.pins.resetLow then bypass s l
    else
      let r := drawBytes l.length s
      tdo r.1 (r.2.map (fun b => bitOf b.toNat 0)))

end Sys2Proof.Machine
end

