-- ==== Sys2Proof/Machine/Dispatch.lean ====
section
/-! DEFINITION. The dispatch of a command to its meaning. -/

namespace Sys2Proof.Machine

open Sys2Proof

def exec (i : Instr) (s : State) : Host.Outcome State Fault Refusal :=
  match i with
  | .wloadR w gap am ae => Sys2Proof.Machine.execWloadR w gap am ae s
  | .wloadS w gap am ae fmt => Sys2Proof.Machine.execWloadS w gap am ae fmt s
  | .mpass w gap o => Sys2Proof.Machine.execMpass w gap o s
  | .mpasst w gap o => Sys2Proof.Machine.execMpasst w gap o s
  | .mdist w gap o => Sys2Proof.Machine.execMdist w gap o s
  | .msqd w gap o => Sys2Proof.Machine.execMsqd w gap o s
  | .mcmpx w gap o => Sys2Proof.Machine.execMcmpx w gap o s
  | .mcmpn w gap o => Sys2Proof.Machine.execMcmpn w gap o s
  | .tload w gap o => Sys2Proof.Machine.execTload w gap o s
  | .tstore w gap o pack => Sys2Proof.Machine.execTstore w gap o pack s
  | .sload w gap o => Sys2Proof.Machine.execSload w gap o s
  | .sstore w gap o => Sys2Proof.Machine.execSstore w gap o s
  | .slath w gap o => Sys2Proof.Machine.execSlath w gap o s
  | .sset w gap sd v => Sys2Proof.Machine.execSset w gap sd v s
  | .sadd w gap sd sa b => Sys2Proof.Machine.execSadd w gap sd sa b s
  | .aset w gap ad v => Sys2Proof.Machine.execAset w gap ad v s
  | .aadd w gap ad aa b => Sys2Proof.Machine.execAadd w gap ad aa b s
  | .loop w gap sc body => Sys2Proof.Machine.execLoop w gap sc body s
  | .endloop w gap => Sys2Proof.Machine.execEndloop w gap s
  | .eprog w gap o => Sys2Proof.Machine.execEprog w gap o s
  | .eshufX w gap d sr m => Sys2Proof.Machine.execEshufX w gap d sr m s
  | .eshufB w gap d sr c => Sys2Proof.Machine.execEshufB w gap d sr c s
  | .esum w gap d sr g => Sys2Proof.Machine.execEsum w gap d sr g s
  | .emax w gap d sr g d2 => Sys2Proof.Machine.execEmax w gap d sr g d2 s
  | .ebcast w gap d sr v col op kk => Sys2Proof.Machine.execEbcast w gap d sr v col op kk s
  | .equant w gap o => Sys2Proof.Machine.execEquant w gap o s
  | .fwait w gap o => Sys2Proof.Machine.execFwait w gap o s
  | .ftake w gap o => Sys2Proof.Machine.execFtake w gap o s
  | .ffill w gap o => Sys2Proof.Machine.execFfill w gap o s
  | .fempty w gap o => Sys2Proof.Machine.execFempty w gap o s
  | .fcountPlus w gap each aw n => Sys2Proof.Machine.execFcountPlus w gap each aw n s
  | .fcountMinus w gap each aw sk wait chk => Sys2Proof.Machine.execFcountMinus w gap each aw sk wait chk s
  | .csend w gap o => Sys2Proof.Machine.execCsend w gap o s
  | .csendTry w gap o sd => Sys2Proof.Machine.execCsendTry w gap o sd s
  | .hret w gap => Sys2Proof.Machine.execHret w gap s
  | .tcfg w gap x wd => Sys2Proof.Machine.execTcfg w gap x wd s
  | .trel w gap x => Sys2Proof.Machine.execTrel w gap x s
  | .fenceL w gap => Sys2Proof.Machine.execFenceL w gap s
  | .fenceX w gap => Sys2Proof.Machine.execFenceX w gap s
  | .commit w gap => Sys2Proof.Machine.execCommit w gap s
  | .commitBufferRelease k => Sys2Proof.Machine.execCommitBufferRelease k s
  | .yield w gap => Sys2Proof.Machine.execYield w gap s
  | .programEnd k => Sys2Proof.Machine.execProgramEnd k s
  | .holdRelease k => Sys2Proof.Machine.execHoldRelease k s
  | .operationCompletion op core hostSt => Sys2Proof.Machine.execOperationCompletion op core hostSt s
  | .trellisToken id => Sys2Proof.Machine.execTrellisToken id s
  | .trellisTimeout id => Sys2Proof.Machine.execTrellisTimeout id s
  | .handlerDispatch m => Sys2Proof.Machine.execHandlerDispatch m s
  | .handlerTimeLimit m => Sys2Proof.Machine.execHandlerTimeLimit m s
  | .waitTimeout k => Sys2Proof.Machine.execWaitTimeout k s
  | .settleIntervalExpiry w => Sys2Proof.Machine.execSettleIntervalExpiry w s
  | .doorbell c q v => Sys2Proof.Machine.execDoorbell c q v s
  | .commandFetch c q hostSt => Sys2Proof.Machine.execCommandFetch c q hostSt s
  | .completionConsumerCount c q v => Sys2Proof.Machine.execCompletionConsumerCount c q v s
  | .nop c q => Sys2Proof.Machine.execNop c q s
  | .task c q hostSt => Sys2Proof.Machine.execTask c q hostSt s
  | .graph c q hostSt => Sys2Proof.Machine.execGraph c q hostSt s
  | .openSeq c q => Sys2Proof.Machine.execOpenSeq c q s
  | .setSeq c q => Sys2Proof.Machine.execSetSeq c q s
  | .closeSeq c q => Sys2Proof.Machine.execCloseSeq c q s
  | .loadBin c q hostSt => Sys2Proof.Machine.execLoadBin c q hostSt s
  | .unloadBin c q => Sys2Proof.Machine.execUnloadBin c q s
  | .kill c q => Sys2Proof.Machine.execKill c q s
  | .dmaStart c q => Sys2Proof.Machine.execDmaStart c q s
  | .readinessPoll => Sys2Proof.Machine.execReadinessPoll s
  | .taskDispatch hostSt => Sys2Proof.Machine.execTaskDispatch hostSt s
  | .preemptionSave k => Sys2Proof.Machine.execPreemptionSave k s
  | .preemptionComplete k => Sys2Proof.Machine.execPreemptionComplete k s
  | .taskResume => Sys2Proof.Machine.execTaskResume s
  | .taskRetry t => Sys2Proof.Machine.execTaskRetry t s
  | .deadlineSlackEvaluation => Sys2Proof.Machine.execDeadlineSlackEvaluation s
  | .agingEvaluation => Sys2Proof.Machine.execAgingEvaluation s
  | .completionRecordWrite c q => Sys2Proof.Machine.execCompletionRecordWrite c q s
  | .taskIdQuarantineExpiry t => Sys2Proof.Machine.execTaskIdQuarantineExpiry t s
  | .creelDelivery c => Sys2Proof.Machine.execCreelDelivery c s
  | .creditGrant c => Sys2Proof.Machine.execCreditGrant c s
  | .creelEnable c v => Sys2Proof.Machine.execCreelEnable c v s
  | .creelDisable c v => Sys2Proof.Machine.execCreelDisable c v s
  | .creelQuarantineEnd c => Sys2Proof.Machine.execCreelQuarantineEnd c s
  | .hostCreelHeadWrite k v => Sys2Proof.Machine.execHostCreelHeadWrite k v s
  | .belvedereSample => Sys2Proof.Machine.execBelvedereSample s
  | .dynamicSubBankGrant sl sub busy => Sys2Proof.Machine.execDynamicSubBankGrant sl sub busy s
  | .packetHop l slot => Sys2Proof.Machine.execPacketHop l slot s
  | .scrubRead sl errs => Sys2Proof.Machine.execScrubRead sl errs s
  | .correctedWriteback sl => Sys2Proof.Machine.execCorrectedWriteback sl s
  | .mdvalWrite v => Sys2Proof.Machine.execMdvalWrite v s
  | .sliceReady sl => Sys2Proof.Machine.execSliceReady sl s
  | .slathRequestCheck op core => Sys2Proof.Machine.execSlathRequestCheck op core s
  | .workUnitStart k => Sys2Proof.Machine.execWorkUnitStart k s
  | .workUnitDone k ns => Sys2Proof.Machine.execWorkUnitDone k ns s
  | .pageWalk c va write sla => Sys2Proof.Machine.execPageWalk c va write sla s
  | .inval v => Sys2Proof.Machine.execInval v s
  | .invalidationComplete => Sys2Proof.Machine.execInvalidationComplete s
  | .dramRefresh k pc bank => Sys2Proof.Machine.execDramRefresh k pc bank s
  | .dramTemperatureSample k degc => Sys2Proof.Machine.execDramTemperatureSample k degc s
  | .dramScrubRead k errs => Sys2Proof.Machine.execDramScrubRead k errs s
  | .dramCorrectedWriteback k => Sys2Proof.Machine.execDramCorrectedWriteback k s
  | .rowSparing k pc bank row => Sys2Proof.Machine.execRowSparing k pc bank row s
  | .dieLinkReplay k => Sys2Proof.Machine.execDieLinkReplay k s
  | .dieLinkLaneSpare k up lane => Sys2Proof.Machine.execDieLinkLaneSpare k up lane s
  | .stackReady k => Sys2Proof.Machine.execStackReady k s
  | .descriptorFetch ch hostSt => Sys2Proof.Machine.execDescriptorFetch ch hostSt s
  | .dmaRun ch hostSt => Sys2Proof.Machine.execDmaRun ch hostSt s
  | .descriptorEnd ch => Sys2Proof.Machine.execDescriptorEnd ch s
  | .requestLineWrite l v => Sys2Proof.Machine.execRequestLineWrite l v s
  | .devicePageFault => Sys2Proof.Machine.execDevicePageFault s
  | .fltresp v => Sys2Proof.Machine.execFltresp v s
  | .channelKill ch v => Sys2Proof.Machine.execChannelKill ch v s
  | .channelStop ch v => Sys2Proof.Machine.execChannelStop ch v s
  | .channelQuiet ch => Sys2Proof.Machine.execChannelQuiet ch s
  | .atsInvalidationRequest c a n => Sys2Proof.Machine.execAtsInvalidationRequest c a n s
  | .prgResponse idx ok => Sys2Proof.Machine.execPrgResponse idx ok s
  | .completionTimeout r => Sys2Proof.Machine.execCompletionTimeout r s
  | .wicketOpen w v => Sys2Proof.Machine.execWicketOpen w v s
  | .wicketClose w v => Sys2Proof.Machine.execWicketClose w v s
  | .wicketQuarantineEnd w => Sys2Proof.Machine.execWicketQuarantineEnd w s
  | .wkret w v => Sys2Proof.Machine.execWkret w v s
  | .flitReceive p bytes => Sys2Proof.Machine.execFlitReceive p bytes s
  | .nak p => Sys2Proof.Machine.execNak p s
  | .nakRepeatTimer p => Sys2Proof.Machine.execNakRepeatTimer p s
  | .replayTimeout p => Sys2Proof.Machine.execReplayTimeout p s
  | .ackFlitTimer p => Sys2Proof.Machine.execAckFlitTimer p s
  | .wr p => Sys2Proof.Machine.execWr p s
  | .rdreq p => Sys2Proof.Machine.execRdreq p s
  | .rddata p => Sys2Proof.Machine.execRddata p s
  | .wrack p => Sys2Proof.Machine.execWrack p s
  | .fereq p => Sys2Proof.Machine.execFereq p s
  | .fereply p => Sys2Proof.Machine.execFereply p s
  | .cmsg p => Sys2Proof.Machine.execCmsg p s
  | .cmsgack p => Sys2Proof.Machine.execCmsgack p s
  | .grantreq p => Sys2Proof.Machine.execGrantreq p s
  | .grant p => Sys2Proof.Machine.execGrant p s
  | .laneoff p lane seq => Sys2Proof.Machine.execLaneoff p lane seq s
  | .laneon p lane seq => Sys2Proof.Machine.execLaneon p lane seq s
  | .lanemove p lane laser => Sys2Proof.Machine.execLanemove p lane laser s
  | .drain p => Sys2Proof.Machine.execDrain p s
  | .undrain p => Sys2Proof.Machine.execUndrain p s
  | .ident p serial peerPort lasers byte => Sys2Proof.Machine.execIdent p serial peerPort lasers byte s
  | .laserWarmupDone p tgts kp => Sys2Proof.Machine.execLaserWarmupDone p tgts kp s
  | .ringlock p locks => Sys2Proof.Machine.execRinglock p locks s
  | .lanetrain p errs peer => Sys2Proof.Machine.execLanetrain p errs peer s
  | .align p ok byte => Sys2Proof.Machine.execAlign p ok byte s
  | .quickRetrain p => Sys2Proof.Machine.execQuickRetrain p s
  | .fullRetrain p => Sys2Proof.Machine.execFullRetrain p s
  | .retrain p => Sys2Proof.Machine.execRetrain p s
  | .lnkctlDrainSet p => Sys2Proof.Machine.execLnkctlDrainSet p s
  | .lnkctlDrainClear p => Sys2Proof.Machine.execLnkctlDrainClear p s
  | .holdLimitExpiry p => Sys2Proof.Machine.execHoldLimitExpiry p s
  | .ringLockLoop p lane pin pdr rxdrop => Sys2Proof.Machine.execRingLockLoop p lane pin pdr rxdrop s
  | .laneTestDone p lane errs lock => Sys2Proof.Machine.execLaneTestDone p lane errs lock s
  | .laneErrorMeasurement p meas => Sys2Proof.Machine.execLaneErrorMeasurement p meas s
  | .portRetryTimer p => Sys2Proof.Machine.execPortRetryTimer p s
  | .lanternInsertion p mem latched => Sys2Proof.Machine.execLanternInsertion p mem latched s
  | .lanternRemoval p => Sys2Proof.Machine.execLanternRemoval p s
  | .interlockOpen p => Sys2Proof.Machine.execInterlockOpen p s
  | .laserPowerLoop p mpd mw caset => Sys2Proof.Machine.execLaserPowerLoop p mpd mw caset s
  | .laserWearCheck p => Sys2Proof.Machine.execLaserWearCheck p s
  | .spareSettled p => Sys2Proof.Machine.execSpareSettled p s
  | .laneMove p => Sys2Proof.Machine.execLaneMove p s
  | .usageRecordWrite p => Sys2Proof.Machine.execUsageRecordWrite p s
  | .forceoffSet p => Sys2Proof.Machine.execForceoffSet p s
  | .forceoffClear p => Sys2Proof.Machine.execForceoffClear p s
  | .bayOvercurrent p => Sys2Proof.Machine.execBayOvercurrent p s
  | .hedge cls res rows => Sys2Proof.Machine.execHedge cls res rows s
  | .probe cls res => Sys2Proof.Machine.execProbe cls res s
  | .probeDone cls res pass found cures => Sys2Proof.Machine.execProbeDone cls res pass found cures s
  | .hedgeAndProbe cls res => Sys2Proof.Machine.execHedgeAndProbe cls res s
  | .hedgeAndHold cls res => Sys2Proof.Machine.execHedgeAndHold cls res s
  | .probeHedged cls res => Sys2Proof.Machine.execProbeHedged cls res s
  | .errorLogEntryWrite => Sys2Proof.Machine.execErrorLogEntryWrite s
  | .logringEnable v => Sys2Proof.Machine.execLogringEnable v s
  | .monitorWindow meas => Sys2Proof.Machine.execMonitorWindow meas s
  | .governor pin pd temps => Sys2Proof.Machine.execGovernor pin pd temps s
  | .changeEpoch => Sys2Proof.Machine.execChangeEpoch s
  | .changeResume => Sys2Proof.Machine.execChangeResume s
  | .lockTimeout late => Sys2Proof.Machine.execLockTimeout late s
  | .coolUpdate => Sys2Proof.Machine.execCoolUpdate s
  | .telemetryFrame m sent => Sys2Proof.Machine.execTelemetryFrame m sent s
  | .telringEnable v => Sys2Proof.Machine.execTelringEnable v s
  | .modecfgWrite v => Sys2Proof.Machine.execModecfgWrite v s
  | .queueEnable c q vec => Sys2Proof.Machine.execQueueEnable c q vec s
  | .queueDisable c q vec => Sys2Proof.Machine.execQueueDisable c q vec s
  | .queueStop c q => Sys2Proof.Machine.execQueueStop c q s
  | .queueResume c q => Sys2Proof.Machine.execQueueResume c q s
  | .ctxkill c v => Sys2Proof.Machine.execCtxkill c v s
  | .contextEnable c v => Sys2Proof.Machine.execContextEnable c v s
  | .bar2Read o n => Sys2Proof.Machine.execBar2Read o n s
  | .bar2Write o bs ep => Sys2Proof.Machine.execBar2Write o bs ep s
  | .registerWrite w => Sys2Proof.Machine.execRegisterWrite w s
  | .msixUnmask v => Sys2Proof.Machine.execMsixUnmask v s
  | .firmwareWrite v hostSt => Sys2Proof.Machine.execFirmwareWrite v hostSt s
  | .firmwareWriteDone same => Sys2Proof.Machine.execFirmwareWriteDone same s
  | .firmwareActivate => Sys2Proof.Machine.execFirmwareActivate s
  | .flr => Sys2Proof.Machine.execFlr s
  | .hotReset => Sys2Proof.Machine.execHotReset s
  | .perst => Sys2Proof.Machine.execPerst s
  | .d3hotEntry => Sys2Proof.Machine.execD3hotEntry s
  | .cablePresenceChange j3 j4 => Sys2Proof.Machine.execCablePresenceChange j3 j4 s
  | .resetPin low us => Sys2Proof.Machine.execResetPin low us s
  | .moduleReset => Sys2Proof.Machine.execModuleReset s
  | .pavilionReady n => Sys2Proof.Machine.execPavilionReady n s
  | .undervoltage48v => Sys2Proof.Machine.execUndervoltage48v s
  | .undervoltage12v => Sys2Proof.Machine.execUndervoltage12v s
  | .thermalTrip => Sys2Proof.Machine.execThermalTrip s
  | .smbusReadReady => Sys2Proof.Machine.execSmbusReadReady s
  | .smbusReadLodgestat => Sys2Proof.Machine.execSmbusReadLodgestat s
  | .smbusReadPwr => Sys2Proof.Machine.execSmbusReadPwr s
  | .smbusReadCoolctl => Sys2Proof.Machine.execSmbusReadCoolctl s
  | .smbusReadTjmax => Sys2Proof.Machine.execSmbusReadTjmax s
  | .smbusReadErrstat => Sys2Proof.Machine.execSmbusReadErrstat s
  | .smbusReadSerial => Sys2Proof.Machine.execSmbusReadSerial s
  | .jtagIdcode => Sys2Proof.Machine.execJtagIdcode s
  | .jtagBypass l => Sys2Proof.Machine.execJtagBypass l s
  | .jtagBoundaryScan l => Sys2Proof.Machine.execJtagBoundaryScan l s
  | .referenceClockLoss => Sys2Proof.Machine.execReferenceClockLoss s
  | .pcieLinkTraining u => Sys2Proof.Machine.execPcieLinkTraining u s
  | .d0Return => Sys2Proof.Machine.execD0Return s
  | .dieLinkRetrainDone k => Sys2Proof.Machine.execDieLinkRetrainDone k s
  | .interlockClose p => Sys2Proof.Machine.execInterlockClose p s

end Sys2Proof.Machine
end

