-- ==== Sys2Proof/Safety.lean ====
section
/-! DEFINITION. What counts as a safe step and a safe state, in the terms that the statements use. -/

namespace Sys2Proof.Machine

open Sys2Proof

/-- A step that ends in a next state; a fault or a refusal ends the run. -/
def goesOn (o : Host.Outcome State Fault Refusal) : Bool :=
  match o with
  | .next _ => true
  | .fault _ => false
  | .refused _ => false

/-- The three memories, the metadata of the words, the errors of the stored words and the registers are in canonical form, so
that equal contents are equal data. -/
def State.canonical (s : State) : Bool :=
  Memory.wf s.org && Memory.wf s.dram && Memory.wf s.host && amWf regDefault s.regs &&
  amWf (fun _ => WMeta.empty) s.wordMeta && amWf (fun _ => 0) s.orgErr && amWf (fun _ => 0) s.dramErr

/-- A module-fatal error has stopped the module (R597). -/
def State.fatal (s : State) : Bool := isSet s fERRSTAT_FATAL

/-- Nothing waits to be settled: no stream is ending, and no task waits at a word that was found poisoned. -/
def State.calm (s : State) : Bool :=
  (List.range 16).all (fun k => (getStr s k).ended.isNone) &&
  ((unended s).filter (fun p => p.2.word == 2 && p.2.st == .waiting)).isEmpty

/-- Nothing waits to be settled, and no stream waits in a fence or in COMMIT. -/
def State.still (s : State) : Bool :=
  s.calm && (List.range 16).all (fun k => match (getStr s k).wait with
    | .fence _ _ => false
    | .commit1 => false
    | .commit2 => false
    | .commit3 => false
    | _ => true)

/-- Stream `k` at the cycle in which its next macro-op issues (R193). -/
def atIssue (s : State) (k gap : Nat) : State := runTo k ((getStr s k).nextSlot + gap) s

/-- Stream `k` issues a macro-op of a plan at once: it is running and stays so up to the macro-op's cycle, the plots do not
stand still (R76), the checks of R157 pass there, and nothing holds it. -/
def issues (s : State) (k gap : Nat) (plan : State → Stream → Plan) : Prop :=
  (getStr s k).st = .running ∧ (getStr s k).preempt = none ∧ paused s = false ∧ (getStr (atIssue s k gap) k).st = .running ∧
  (plan (atIssue s k gap) (getStr (atIssue s k gap) k)).cause = 0 ∧
  holdOf (atIssue s k gap) k (plan (atIssue s k gap) (getStr (atIssue s k gap) k)) = .free

/-- Stream `k` with a slot of `u` cycles taken at its present cycle, one more in a CHECK build (R193, R196). -/
def slotTaken (s : State) (k u : Nat) : State :=
  modStr s k (fun t => stepPc { t with nextSlot := t.now + u + (if t.check then 1 else 0) })

end Sys2Proof.Machine
end

