-- ==== Sys2Proof/WellFormed.lean ====
section
/-! DEFINITION. Which operand values a command can carry: the ranges that the spec gives the fields of each command, for the
operands whose Lean type is wider than the field.  A meaning is defined on every operand all the same; what it does with
an operand that a macro-op's field can carry and the spec calls illegal is the macro-op's own check (R157), not this one. -/

namespace Sys2Proof

/-- A macro-op's delay is 0 to 65,535 (R193). -/
def gapWf (g : Nat) : Bool := decide (g ≤ 65535)

/-- A tile names registers with 6 bits, and a height with 5 (R111, R112). -/
def Tile.wf (t : Tile) : Bool := decide (t.b < 64) && decide (t.h < 32)

/-- An exponent is a signed byte (R32). -/
def expWf (e : Int) : Bool := decide (-128 ≤ e) && decide (e ≤ 127)

/-- A reference exponent is an int16 (R69). -/
def erefWf (e : Int) : Bool := decide (-32768 ≤ e) && decide (e ≤ 32767)

/-- Every tile of an optional operand. -/
def optTileWf (t : Option Tile) : Bool := (t.map Tile.wf).getD true

def PassOpnds.wf (o : PassOpnds) : Bool := o.d.wf && o.s.wf && erefWf o.eref

def CmpOpnds.wf (o : CmpOpnds) : Bool := o.p.wf && o.d2.wf

def EprogOpnds.wf (o : EprogOpnds) : Bool := o.d.wf && o.a.wf && optTileWf o.b && expWf o.eexp

def EquantOpnds.wf (o : EquantOpnds) : Bool := o.d.wf && o.s.wf && expWf o.e

/-- The lengths that fit the fields of a message and of a request (R188, R231). -/
def CsendOpnds.wf (o : CsendOpnds) : Bool := decide (o.len < 65536)

def SlathOpnds.wf (o : SlathOpnds) : Bool := decide (o.qlen < 65536)

/-- Creels are 0 to 511 (R416) and host creels 512 to 575. -/
def creelWf (c : Nat) : Bool := decide (c < 576)

/-- Hedge classes are 0 to 12, with 13 for a context (R588), and a RES has 32 bits. -/
def hedgeWf (cls res : Nat) : Bool := decide (cls < 14) && decide (res < 2 ^ 32)

/-- A ring lock sets ratios and powers of 32 bits, and a sign of 1 or −1 (R514). -/
def RingLock.wf (r : RingLock) : Bool :=
  decide (0 ≤ r.rset) && decide (r.rset < 2 ^ 32) && (r.ksign == 1 || r.ksign == -1) &&
  decide (r.htx < 2 ^ 32) && decide (r.hrx < 2 ^ 32)

/-- A host write lies in its BAR and is no longer than Max Payload Size; only its first eight bytes matter, for a longer one acts on
nothing (R15, R563, R569, R575). -/
def BarWrite.wf (w : BarWrite) : Bool :=
  decide (1 ≤ w.size) && decide (w.size ≤ 512) && decide (w.off + w.size ≤ (if w.bar4 then 0x20000 else 0x4000000))

/-- A link comes up 16 lanes wide, or narrower; a payload is of 128 to 512 bytes, a read request of 128 to 4,096, a completion timeout lies in
ranges A to D, and each BAR is aligned to its size (R563, R569). -/
def LinkUp.wf (u : LinkUp) : Bool :=
  [1, 2, 4, 8, 16].contains u.width && decide (u.priMax ≤ 512) && [128, 256, 512].contains u.mps &&
  [128, 256, 512, 1024, 2048, 4096].contains u.mrrs && decide (50 ≤ u.timeoutUs) && decide (u.timeoutUs ≤ 64000000) &&
  u.bars.length == 3 && (u.bars.zip [2 ^ 26, 2 ^ 28, 2 ^ 17]).all (fun b => b.1 % b.2 == 0)

/-- A frame gives 14 rails, 10 plots and 32 stacks (R635). -/
def TelMeas.wf (m : TelMeas) : Bool :=
  decide (m.rails.length ≤ 14) && decide (m.plot.length ≤ 10) && decide (m.stack.length ≤ 32)

/-- Whether every operand of a command lies in the range of its field. -/
def Instr.wf (i : Instr) : Bool :=
  match i with
  | .wloadR _ g _ _ | .wloadS _ g _ _ _ => gapWf g
  | .mpass _ g o | .mpasst _ g o | .mdist _ g o | .msqd _ g o => gapWf g && o.wf
  | .mcmpx _ g o | .mcmpn _ g o => gapWf g && o.wf
  | .tload _ g o | .tstore _ g o _ => gapWf g && o.t.wf
  | .sload _ g _ | .sstore _ g _ => gapWf g
  | .slath _ g o => gapWf g && o.wf
  | .sset _ g _ _ | .sadd _ g _ _ _ | .aset _ g _ _ | .aadd _ g _ _ _ => gapWf g
  | .loop _ g _ body => gapWf g && decide (1 ≤ body) && decide (body < 2 ^ 32)
  | .endloop _ g => gapWf g
  | .eprog _ g o => gapWf g && o.wf
  | .eshufX _ g d s _ | .eshufB _ g d s _ | .esum _ g d s _ => gapWf g && d.wf && s.wf
  | .emax _ g d s _ d2 => gapWf g && d.wf && s.wf && optTileWf d2
  | .ebcast _ g d s _ _ _ _ => gapWf g && d.wf && s.wf
  | .equant _ g o => gapWf g && o.wf
  | .fwait _ g _ | .ftake _ g _ | .ffill _ g _ | .fempty _ g _ => gapWf g
  | .fcountPlus _ g _ _ k => gapWf g && decide (k < 2 ^ 16)
  | .fcountMinus _ g _ _ _ _ _ => gapWf g
  | .csend _ g o | .csendTry _ g o _ => gapWf g && o.wf
  | .hret _ g => gapWf g
  | .tcfg _ g t _ | .trel _ g t => gapWf g && t.wf
  | .fenceL _ g | .fenceX _ g | .commit _ g | .yield _ g => gapWf g
  | .commitBufferRelease _ | .programEnd _ | .holdRelease _ => true
  | .operationCompletion _ _ _ | .trellisToken _ | .trellisTimeout _ => true
  | .handlerDispatch _ | .handlerTimeLimit _ | .waitTimeout _ => true
  | .settleIntervalExpiry w => w % 8 == 0 && decide (w < 2 ^ 31)
  | .doorbell _ _ _ | .commandFetch _ _ _ | .completionConsumerCount _ _ _ | .nop _ _ | .task _ _ _ | .graph _ _ _ => true
  | .openSeq _ _ | .setSeq _ _ | .closeSeq _ _ | .loadBin _ _ _ | .unloadBin _ _ | .kill _ _ | .dmaStart _ _ => true
  | .readinessPoll | .taskDispatch _ | .preemptionSave _ | .preemptionComplete _ | .taskResume | .taskRetry _ => true
  | .deadlineSlackEvaluation | .agingEvaluation | .completionRecordWrite _ _ | .taskIdQuarantineExpiry _ => true
  | .creelDelivery c | .creditGrant c | .creelEnable c _ | .creelDisable c _ | .creelQuarantineEnd c => creelWf c
  | .hostCreelHeadWrite _ _ | .belvedereSample => true
  | .dynamicSubBankGrant _ _ _ | .packetHop _ _ | .correctedWriteback _ | .mdvalWrite _ | .sliceReady _ => true
  | .scrubRead _ errs => decide (errs.length ≤ 4)
  | .slathRequestCheck _ _ | .workUnitStart _ | .workUnitDone _ _ | .pageWalk _ _ _ _ | .inval _ => true
  | .invalidationComplete | .dramRefresh _ _ _ | .dramTemperatureSample _ _ => true
  | .dramScrubRead _ errs => decide (errs.length ≤ 64)
  | .dramCorrectedWriteback _ | .rowSparing _ _ _ _ | .dieLinkReplay _ | .dieLinkLaneSpare _ _ _ | .stackReady _ => true
  | .descriptorFetch _ _ | .dmaRun _ _ | .descriptorEnd _ | .requestLineWrite _ _ | .devicePageFault | .fltresp _ => true
  | .channelKill _ _ | .channelStop _ _ | .channelQuiet _ => true
  | .atsInvalidationRequest _ a n => decide (a + n ≤ 2 ^ 64)
  | .prgResponse _ _ | .completionTimeout _ => true
  | .wicketOpen _ _ | .wicketClose _ _ | .wicketQuarantineEnd _ | .wkret _ _ => true
  | .flitReceive _ bytes => bytes.length == 256
  | .nak _ | .nakRepeatTimer _ | .replayTimeout _ | .ackFlitTimer _ | .wr _ | .rdreq _ | .rddata _ | .wrack _ => true
  | .fereq _ | .fereply _ | .cmsg _ | .cmsgack _ | .grantreq _ | .grant _ => true
  | .laneoff _ _ _ | .laneon _ _ _ | .lanemove _ _ _ | .drain _ | .undrain _ => true
  | .ident _ _ _ lasers _ => lasers.length == 16
  | .laserWarmupDone _ tgts kp => tgts.length == 18 && tgts.all (fun t => decide (t < 65536)) && decide (0 ≤ kp)
  | .ringlock _ locks => locks.length == 16 && locks.all RingLock.wf
  | .lanetrain _ errs _ => errs.length == 16 && errs.all (fun n => decide (n ≤ 10 ^ 9))
  | .align _ _ _ | .quickRetrain _ | .fullRetrain _ | .retrain _ => true
  | .lnkctlDrainSet _ | .lnkctlDrainClear _ | .holdLimitExpiry _ | .ringLockLoop _ _ _ _ _ => true
  | .laneTestDone _ _ errs lock => decide (errs ≤ 4 * 10 ^ 8) && lock.all RingLock.wf
  | .laneErrorMeasurement _ meas => meas.length == 16
  | .portRetryTimer _ => true
  | .lanternInsertion _ mem _ => mem.length == 512
  | .lanternRemoval _ | .interlockOpen _ | .interlockClose _ => true
  | .laserPowerLoop _ mpd mw _ => mpd.length == 18 && mpd.all (fun t => decide (t < 65536)) && decide (mw < 65536)
  | .laserWearCheck _ | .spareSettled _ | .laneMove _ | .usageRecordWrite _ => true
  | .forceoffSet _ | .forceoffClear _ | .bayOvercurrent _ => true
  | .hedge cls res _ | .probe cls res | .probeDone cls res _ _ _ => hedgeWf cls res
  | .hedgeAndProbe _ _ | .hedgeAndHold _ _ | .probeHedged _ _ | .errorLogEntryWrite | .logringEnable _ => true
  | .monitorWindow meas => meas.length == 10
  | .governor _ _ temps => temps.length == 64
  | .changeEpoch | .changeResume | .coolUpdate | .telringEnable _ | .modecfgWrite _ | .referenceClockLoss => true
  | .lockTimeout late => decide (late.length ≤ 10)
  | .telemetryFrame m _ => m.wf
  | .queueEnable _ _ _ | .queueDisable _ _ _ | .queueStop _ _ | .queueResume _ _ | .ctxkill _ _ | .contextEnable _ _ => true
  | .bar2Read o n => decide (1 ≤ n) && decide (n ≤ 4096) && decide (o.toNat + n ≤ 2 ^ 28)
  | .bar2Write o bs _ => decide (1 ≤ bs.length) && decide (bs.length ≤ 4096) && decide (o.toNat + bs.length ≤ 2 ^ 28)
  | .registerWrite w => w.wf
  | .msixUnmask _ | .firmwareWrite _ _ | .firmwareWriteDone _ | .firmwareActivate => true
  | .flr | .hotReset | .perst | .d3hotEntry | .d0Return | .cablePresenceChange _ _ | .resetPin _ _ | .moduleReset => true
  | .pcieLinkTraining u => u.wf
  | .pavilionReady _ | .undervoltage48v | .undervoltage12v | .thermalTrip => true
  | .smbusReadReady | .smbusReadLodgestat | .smbusReadPwr | .smbusReadCoolctl | .smbusReadTjmax => true
  | .smbusReadErrstat | .smbusReadSerial | .jtagIdcode | .jtagBypass _ | .jtagBoundaryScan _ => true
  | .dieLinkRetrainDone _ => true

end Sys2Proof
end

