-- ==== Sys2Proof/Certificates/Slice0/Obligations.lean ====
section
/-! DEFINITION. The statements for the provers.  A statement that names the fate of a command says, for states and operands that meet
its hypotheses, which next state `exec` answers and what that state holds; `Sys2Proof/Safety.lean` defines the conditions that
the statements share. -/

open Sys2Proof Sys2Proof.Machine

namespace Sys2Proof.Machine

/-- `exec` answers a next state of which `P` holds. -/
def nextIs (c : Instr) (s : State) (P : State → Prop) : Prop := ∃ t, exec c s = .next t ∧ P t

/-- What a recurring command does: it changes nothing before it is due, and then answers a next state of which `P` holds (assumption 72). -/
def whenDue (due : Bool) (c : Instr) (s : State) (P : State → Prop) : Prop :=
  (due = false → exec c s = .next s) ∧ (due = true → nextIs c s P)

/-- `t` differs from `s` in core `m` alone. -/
def onlyCore (s t : State) (m : Nat) : Prop :=
  { t with cores := s.cores } = s ∧ ∀ j, j ≠ m → getCore t j = getCore s j

/-- The Orangery, DRAM, host memory, the words' metadata and the error states are as they were. -/
def sameMemory (s t : State) : Prop :=
  t.org = s.org ∧ t.dram = s.dram ∧ t.host = s.host ∧ t.wordMeta = s.wordMeta ∧ t.orgErr = s.orgErr ∧ t.dramErr = s.dramErr

/-- Every register but those of the list reads as it did. -/
def onlyRegs (s t : State) (l : List Nat) : Prop := ∀ off, off ∉ l → regGet t off = regGet s off

/-- A static macro-op of stream `k` has been put in flight at its issue, with its tracker entries, with the arrays of its cores as they were
where it changes them (R107), and with its operand values for the log (R209). -/
def launchedOver (u t : State) (k : Nat) (op : FlightOp) (rs : List Range) (before : List (Nat × ArrayAt)) (data : List Nat) : Prop :=
  let x := getStr u k
  (getStr t k).flights = x.flights ++ [⟨x.seq, x.now, x.pc, x.cores, op, [], [], [], rs, false, before, false, data⟩] ∧
  (getStr t k).ranges = x.ranges ++ rs

/-- The same for a macro-op that changes no array at its issue. -/
def launched (u t : State) (k : Nat) (op : FlightOp) (rs : List Range) (data : List Nat) : Prop := launchedOver u t k op rs [] data

/-- The arrays of the participating cores of stream `k`. -/
def arraysOf (u : State) (k : Nat) : List (Nat × ArrayAt) := (getStr u k).cores.map (fun m => (m, arrayAt u m))

/-- Command `f` of opcode `op` stands alone at the front of queue (c, q) of an enabled context, and may be accepted. -/
def atFront (s : State) (c q : Nat) (f : Fetched) (op : Nat) : Prop :=
  working s = true ∧ s.still = true ∧ isSet s (fCTXCTL_EN c) = true ∧ (getQ s c q).fetched = [f] ∧ f.bad = none ∧
  fld f.bytes 0 1 = op ∧ mayAccept s c q f = true

/-- `t` differs from `s` in stream `k` alone. -/
def onlyStream (s t : State) (k : Nat) : Prop :=
  { t with streams := s.streams } = s ∧ ∀ j, j ≠ k → getStr t j = getStr s j

/-- No other request and no static access wants the access of a sub-bank of a slice (R257, R273, R276). -/
def accessFree (s : State) (sl sub : Nat) : Bool := !(bankWanted s sl sub) && subFree s (128 * sl + sub)

/-- The scrub interval of a slice, or of a stack, has passed (R276, R335). -/
def orgScrubDue (s : State) (sl : Nat) : Bool :=
  scrubDue s sl (fun n => decide (max 1 (getF s fORG_SCRUBCTL_INTERVAL) ≤ cyclesSince s (tick s - n)))
def dramScrubDue (s : State) (k : Nat) : Bool := scrubDue s (64 + k) (fun n => decide (max 1 (getF s fSLA_SCRUBCTL_INTERVAL) ≤ 10 * n))

end Sys2Proof.Machine

/-- When a command stands at the front of the queue, a step is that command's effect with the rest of the queue waiting. -/
def Obligations.StepRunsTheFrontCommand : Prop :=
  ∀ (s : State) (c : Instr) (rest : List Instr), s.pending = c :: rest → step s = exec c { s with pending := rest }

/-- With no command waiting, a step is one tick of the reference clock while the module is on, and nothing while it is off (the
model's choice, assumption 1). -/
def Obligations.IdleStepIsATick : Prop :=
  ∀ s : State, s.pending = [] →
    (on s = false → step s = .next s) ∧
    (on s = true → ∃ t, step s = .next t ∧ tick t = (tick s + 1) % 2 ^ 64 ∧
      (∀ off, off ≠ rREFTICK → regGet t off = regGet s off) ∧ { t with regs := s.regs } = s)

/-- Every step takes the front command from the queue, and no meaning adds, drops or reorders a waiting one or changes the part. -/
def Obligations.QueueIsFirstInFirstOut : Prop :=
  ∀ s t : State, step s = .next t → t.pending = s.pending.tail ∧ t.part = s.part

/-- The canonical form of the memories, the metadata, the error states and the registers is kept by every step. -/
def Obligations.CanonicalFormIsKept : Prop :=
  ∀ s t : State, s.canonical = true → step s = .next t → t.canonical = true

/-- No command ends in a fault or a refusal: the spec gives each of them an outcome in every state. -/
def Obligations.EveryCommandCompletes : Prop := ∀ (c : Instr) (s : State), ∃ t, exec c s = .next t

/-- SSET, SADD, ASET and AADD at issue (R198): the destination register takes the value of the table, with u = 1, and nothing
else of the state at the issue changes. -/
def Obligations.ScalarAndAddressRegisterWrites : Prop :=
  ∀ (s : State) (k : Fin 16) (gap : Nat), issues s k gap plainPlan → (slotTaken (atIssue s k gap) k 1).calm = true →
    let u := slotTaken (atIssue s k gap) k 1
    let x := getStr u k
    let scalar := fun (c : Instr) (sd : SReg) (v : Nat) => ∃ t, exec c s = .next t ∧ onlyStream u t k ∧
      { getStr t k with sregs := x.sregs } = x ∧ sreg (getStr t k) sd = v ∧
      ∀ r, r ≠ sd.val → sreg (getStr t k) r = sreg x r
    let address := fun (c : Instr) (ad : AReg) (v : Int) => ∃ t, exec c s = .next t ∧ onlyStream u t k ∧
      { getStr t k with aregs := x.aregs } = x ∧ (areg (getStr t k) ad : Int) = v ∧
      ∀ r, r ≠ ad.val → areg (getStr t k) r = areg x r
    (∀ sd v, scalar (.sset (.stream k) gap sd v) sd v.toNat) ∧
    (∀ sd sa sb, scalar (.sadd (.stream k) gap sd sa (.reg sb)) sd ((sreg x sa + sreg x sb) % 2 ^ 32)) ∧
    (∀ sd sa v, scalar (.sadd (.stream k) gap sd sa (.imm v)) sd ((sreg x sa + v.toNat) % 2 ^ 32)) ∧
    (∀ ad v, address (.aset (.stream k) gap ad v) ad v.toNat) ∧
    (∀ ad aa sb, address (.aadd (.stream k) gap ad aa (.reg sb)) ad ((areg x aa + sext 32 (sreg x sb)) % 2 ^ 52)) ∧
    (∀ ad aa v, address (.aadd (.stream k) gap ad aa (.imm v)) ad ((areg x aa + sext 32 v.toNat) % 2 ^ 52))

/-- LOOP and ENDLOOP (R201, R202), in a main stream at its issue and in a running handler. -/
def Obligations.HardwareLoops : Prop :=
  (∀ (s : State) (k : Fin 16) (gap : Nat) (sc : SReg) (body : Nat), issues s k gap (loopPlan sc) →
    (slotTaken (atIssue s k gap) k 1).calm = true →
    let u := slotTaken (atIssue s k gap) k 1
    let x := getStr u k
    nextIs (.loop (.stream k) gap sc body) s fun t => onlyStream u t k ∧
      { getStr t k with loops := x.loops, nextPc := x.nextPc } = x ∧
      (sreg x sc = 0 → (getStr t k).loops = x.loops ∧ (getStr t k).nextPc = x.nextPc + body + 1) ∧
      (sreg x sc ≠ 0 → (getStr t k).loops = (sreg x sc, x.nextPc) :: x.loops ∧ (getStr t k).nextPc = x.nextPc)) ∧
  (∀ (s : State) (k : Fin 16) (gap n pc : Nat) (rest : List (Nat × Nat)), issues s k gap endloopPlan →
    (slotTaken (atIssue s k gap) k 1).calm = true →
    (getStr (slotTaken (atIssue s k gap) k 1) k).loops = (n, pc) :: rest →
    let u := slotTaken (atIssue s k gap) k 1
    let x := getStr u k
    nextIs (.endloop (.stream k) gap) s fun t => onlyStream u t k ∧
      { getStr t k with loops := x.loops, nextPc := x.nextPc } = x ∧
      (n = 1 → (getStr t k).loops = rest ∧ (getStr t k).nextPc = x.nextPc) ∧
      (n ≠ 1 → (getStr t k).loops = (n - 1, pc) :: rest ∧ (getStr t k).nextPc = pc)) ∧
  (∀ (s : State) (m : Fin 64) (gap : Nat) (sc : SReg) (body : Nat) (h : Handler), (getCore s m).handler = some h →
    h.loops.length < 4 → sc.val < 16 →
    nextIs (.loop (.handler m) gap sc body) s fun t => onlyCore s t m ∧
      (getCore t m).handler = some (if hsreg (getCore s m) sc = 0 then { h with pc := h.pc + body + 2 }
        else { h with loops := (hsreg (getCore s m) sc, h.pc + 1) :: h.loops, pc := h.pc + 1 })) ∧
  (∀ (s : State) (m : Fin 64) (gap n pc : Nat) (rest : List (Nat × Nat)) (h : Handler), (getCore s m).handler = some h →
    h.loops = (n, pc) :: rest →
    nextIs (.endloop (.handler m) gap) s fun t => onlyCore s t m ∧
      (getCore t m).handler = some (if n = 1 then { h with loops := rest, pc := h.pc + 1 }
        else { h with loops := (n - 1, pc) :: rest, pc := pc }))

/-- TCFG and TREL at issue (R236, R114, R116, R117). -/
def Obligations.TileConfiguration : Prop :=
  ∀ (s : State) (k : Fin 16) (gap : Nat) (x : Tile) (wd : Fin 4), (slotTaken (atIssue s k gap) k 1).calm = true →
    let u := slotTaken (atIssue s k gap) k 1
    (issues s k gap (tcfgPlan x wd) → nextIs (.tcfg (.stream k) gap x wd) s fun t =>
      (∀ r, r ∈ tileRegs x → regMeta (getStr t k) r = ⟨.live, Width.ofCode wd, false, [], 0⟩ ∧
        ∀ m ∈ (getStr u k).cores, regData t m r = RegData.zero) ∧
      (∀ r, r ∉ tileRegs x → regMeta (getStr t k) r = regMeta (getStr u k) r) ∧
      (∀ r m, r ∉ tileRegs x ∨ m ∉ (getStr u k).cores → regData t m r = regData u m r) ∧
      { getStr t k with tile := (getStr u k).tile } = getStr u k ∧ (∀ j, j ≠ k.val → getStr t j = getStr u j) ∧
      { t with streams := u.streams, cores := u.cores } = u) ∧
    (issues s k gap (trelPlan x) → nextIs (.trel (.stream k) gap x) s fun t => onlyStream u t k ∧
      { getStr t k with tile := (getStr u k).tile } = getStr u k ∧
      (∀ r, r ∈ tileRegs x → regMeta (getStr t k) r =
        { regMeta (getStr u k) r with st := .releasing, emptyAt := emptyCycle (getStr u k) r }) ∧
      (∀ r, r ∉ tileRegs x → regMeta (getStr t k) r = regMeta (getStr u k) r))

/-- WLOAD.R and WLOAD.S at issue (R78, R80, R107, R162, R163). -/
def Obligations.WeightLoadsEnterThePipeline : Prop :=
  ∀ (s : State) (k : Fin 16) (gap : Nat) (am ae : AReg) (fmt : Fin 4), (slotTaken (atIssue s k gap) k 1).calm = true →
    let u := slotTaken (atIssue s k gap) k 1
    let x := getStr u k
    let a := areg x am
    let e := areg x ae
    let entries := fun (p : Nat) => [(⟨true, x.seq, [orgSlice a], orgOff a, orgOff a + 16383, false, x.now + 132⟩ : Range),
      ⟨true, x.seq, [orgSlice e], orgOff e, orgOff e + 512 * p - 1, false, x.now + 132⟩]
    let frame := fun (t : State) => t.nextW = u.nextW + 1 ∧ (∀ m, m ∉ x.cores → getCore t m = getCore u m) ∧
      (∀ j, j ≠ k.val → getStr t j = getStr u j) ∧ sameMemory u t ∧
      onlyRegs u t (x.cores.map (fun m => rARRSTAT (m / 8) (m % 8))) ∧ { (getStr t k) with flights := x.flights, ranges := x.ranges, arr := x.arr } = x
    (issues s k gap (wloadRPlan k am ae) → nextIs (.wloadR (.stream k) gap am ae) s fun t =>
      launchedOver u t k (.wload ⟨u.nextW, a, e, 0, []⟩) (entries 1) (arraysOf u k) [a, e, 0, 0] ∧ getWSet t u.nextW = ⟨0, [], []⟩ ∧ frame t ∧
      ∀ m ∈ x.cores, pendOf t m = true ∧ wmodeOf t m = wmodeOf u m ∧
        getCore t m = { getCore u m with weights := { (getCore u m).weights with
          shadow := u.nextW, pend := some ⟨a, e, 0⟩, behind := (getCore t m).weights.behind } } ∧
        (x.cores.Nodup → (getCore t m).weights.behind = (getCore u m).weights.shadow)) ∧
    (issues s k gap (wloadSPlan k am ae fmt) → nextIs (.wloadS (.stream k) gap am ae fmt) s fun t =>
      launchedOver u t k (.wload ⟨u.nextW, a, e, fmt, []⟩) (entries (planesOf fmt)) (arraysOf u k) [a, e, fmt, 0] ∧ getWSet t u.nextW = ⟨fmt, [], []⟩ ∧ frame t ∧
      ∀ m ∈ x.cores, pendOf t m = false ∧ wmodeOf t m = fmt ∧
        getCore t m = { getCore u m with weights := ⟨u.nextW, u.nextW, u.nextW, some ⟨a, e, fmt⟩, none⟩ })

/-- The passes at issue (R69, R70, R79, R164 to R170). -/
def Obligations.PassesEnterThePipeline : Prop :=
  ∀ (s : State) (k : Fin 16) (gap : Nat), (slotTaken (atIssue s k gap) k 1).calm = true →
    let u := slotTaken (atIssue s k gap) k 1
    let x := getStr u k
    let enters := fun (c : Instr) (mode : PassMode) (o : PassOpnds) (d2 : Option Tile) (base : Int) => issues s k gap (passPlan mode o d2) →
      x.cores.Nodup → nextIs c s fun t =>
        let wide := decide (tileWidth x o.s = some .w16)
        let p : PassF := { mode := mode, d := o.d, d2 := d2.getD ⟨0, 0⟩, s := o.s, m := o.m.map Fin.val, n := sreg x o.sn, eref := o.eref,
                           ibase := base, acc := o.acc, i16 := wide, swap := o.swap, planes := planesOf (if o.swap then 0 else activeFmt u x),
                           wids := x.cores.map (fun m => (m, if o.swap then
                             { main := (getCore u m).weights.shadow, shadow := (getCore u m).weights.main, behind := (getCore u m).weights.main,
                               act := (getCore u m).weights.pend, pend := none : Weights } else (getCore u m).weights)),
                           ripple := x.arr.ripple.getD 0, masks := [], hits := [] }
        launchedOver u t k (.pass p) [] (if o.swap then arraysOf u k else []) (passData o x) ∧
        (getStr t k).arr.pass = some (x.now, if wide then 4 * sreg x o.sn else sreg x o.sn) ∧
        { getStr t k with flights := x.flights, arr := x.arr } = x ∧ (∀ j, j ≠ k.val → getStr t j = getStr u j) ∧ sameMemory u t ∧
        (o.swap = false → t.cores = u.cores ∧ t.regs = u.regs) ∧
        (o.swap = true → onlyRegs u t (x.cores.map (fun m => rARRSTAT (m / 8) (m % 8))) ∧
          (∀ m, m ∉ x.cores → getCore t m = getCore u m) ∧
          ∀ m ∈ x.cores, pendOf t m = false ∧ wmodeOf t m = 0 ∧
            getCore t m = { getCore u m with weights :=
              { main := (getCore u m).weights.shadow, shadow := (getCore u m).weights.main, behind := (getCore u m).weights.main,
                act := (getCore u m).weights.pend, pend := none } })
    (∀ o, enters (.mpass (.stream k) gap o) .mpass o none 0) ∧
    (∀ o, enters (.mpasst (.stream k) gap o) .mpasst o none 0) ∧
    (∀ o, enters (.mdist (.stream k) gap o) .mdist o none 0) ∧
    (∀ o, enters (.msqd (.stream k) gap o) .msqd o none 0) ∧
    (∀ o, enters (.mcmpx (.stream k) gap o) .mcmpx o.p (some o.d2) (sregI x o.sib)) ∧
    (∀ o, enters (.mcmpn (.stream k) gap o) .mcmpn o.p (some o.d2) (sregI x o.sib))

/-- TLOAD and TSTORE at issue (R172 to R175, R444). -/
def Obligations.MovementsEnterThePipeline : Prop :=
  ∀ (s : State) (k : Fin 16) (gap : Nat) (o : MoveOpnds) (pack : Fin 4) (w : Width), (slotTaken (atIssue s k gap) k 1).calm = true →
    tileWidth (getStr (slotTaken (atIssue s k gap) k 1) k) o.t = some w →
    let u := slotTaken (atIssue s k gap) k 1
    let x := getStr u k
    (issues s k gap (movePlan o false 0) → nextIs (.tload (.stream k) gap o) s fun t => onlyStream u t k ∧
      launched u t k (.tload (moveOf x o w 8)) (moveRanges x (moveOf x o w 8) false (x.now + o.t.h + 2)) (moveData o x) ∧
      { getStr t k with flights := x.flights, ranges := x.ranges } = { x with tldFree := x.now + o.t.h }) ∧
    (issues s k gap (movePlan o true pack) → nextIs (.tstore (.stream k) gap o pack) s fun t => onlyStream u t k ∧
      launched u t k (.tstore (moveOf x o w (packBits pack)))
        (moveRanges x (moveOf x o w (packBits pack)) true (x.now + o.t.h + x.lt.tile)) (moveData o x) ∧
      { getStr t k with flights := x.flights, ranges := x.ranges } = { x with tstFree := x.now + o.t.h })

/-- The bytes that a TSTORE writes (R174): the rows that are due, and no other byte of memory. -/
def Obligations.TstoreWritesItsOwnBytesAlone : Prop :=
  (∀ (s : State) (k c a : Nat), (∀ x ∈ (getStr s k).stores, x.cycle ≤ c → ∀ b, (a, b) ∉ x.cells) →
    orgByte (storePhase k c s) a = orgByte s a ∧ (storePhase k c s).dram = s.dram ∧ (storePhase k c s).host = s.host) ∧
  (∀ (d : RegData) (mv : MoveF) (m i a : Nat) (b : Byte), mv.pack = 8 ∨ mv.transposed = false → (a, b) ∈ tstoreCells d mv m i →
    ∃ pc ∈ mv.pieces i, orgAddr m pc.1.toNat ≤ a ∧ a < orgAddr m pc.1.toNat + pc.2)

/-- The element macro-ops at issue (R126, R128, R136 to R138, R210 to R215). -/
def Obligations.ElementMacroOpsEnterThePipeline : Prop :=
  ∀ (s : State) (k : Fin 16) (gap : Nat), (slotTaken (atIssue s k gap) k 1).calm = true →
    let u := slotTaken (atIssue s k gap) k 1
    let x := getStr u k
    let enters := fun (c : Instr) (plan : State → Stream → Plan) (op : FlightOp) (dur : Nat) => issues s k gap plan → nextIs c s fun t =>
      launched u t k op [] (elemData op) ∧ onlyStream u t k ∧ { getStr t k with flights := x.flights } = { x with eeFree := x.now + dur }
    (∀ d sr m, enters (.eshufX (.stream k) gap d sr m) (eshufXPlan d sr m) (.eshufX d sr m) (5 + d.h - 1)) ∧
    (∀ d sr c, enters (.eshufB (.stream k) gap d sr c) (eshufBPlan d sr c) (.eshufB d sr c) (5 + d.h - 1)) ∧
    (∀ d sr g, enters (.esum (.stream k) gap d sr g) (esumPlan d sr g) (.esum d sr g) (10 + d.h - 1)) ∧
    (∀ d sr g d2, enters (.emax (.stream k) gap d sr g d2) (emaxPlan d sr g d2) (.emax d sr g d2) (10 + d.h - 1)) ∧
    (∀ d sr v col op kk, enters (.ebcast (.stream k) gap d sr v col op kk) (ebcastPlan d sr v col op kk)
      (.ebcast d sr v col op kk) (6 + d.h - 1)) ∧
    (∀ o, enters (.equant (.stream k) gap o) (equantPlan o) (.equant (equantOf o)) ((if o.fit then 9 else 7) + o.d.h - 1)) ∧
    (∀ o, issues s k gap (eprogPlan o) → (∀ m ∈ x.cores, m < 64) → nextIs (.eprog (.stream k) gap o) s fun t =>
      let e := eprogOf x o
      launched u t k (.eprog e) (tableRanges x e) (eprogData o) ∧
      { getStr t k with flights := x.flights, ranges := x.ranges } =
        { x with eeFree := x.now + (8 + programRecips e.prog * (x.lt.recip - 1) + o.d.h * ((e.prog.length + 3) / 4)) } ∧
      (∀ j, j ≠ k.val → getStr t j = getStr u j) ∧ t.cores = u.cores ∧ sameMemory u t ∧
      (e.tmask = 0 → t.regs = u.regs) ∧
      onlyRegs u t (x.cores.flatMap (fun m => rEESTAT (m / 8) (m % 8) :: (List.range 4).map (fun i => rTBLADDR (m / 8) (m % 8) i))) ∧
      ∀ m ∈ x.cores, ∀ i, i < 4 → bitOf e.tmask i = true → getBit t (fEESTAT_TVALID (m / 8) (m % 8)) i = true)

/-- SLOAD, SSTORE and SLATH at issue (R176 to R189), in a stream and in a running handler. -/
def Obligations.DynamicMacroOpsStartTheirOperation : Prop :=
  (∀ (s : State) (k : Fin 16) (gap : Nat), (slotTaken (atIssue s k gap) k 2).still = true →
    let u := slotTaken (atIssue s k gap) k 2
    let x := getStr u k
    let i := issStr k x
    let starts := fun (c : Instr) (each count held : Bool) (shares : List Share) (ranges : List Range) (data : List Nat) =>
      nextIs c s fun t =>
        t.ops = u.ops ++ [(u.nextOp, ⟨.stream k, x.ctx, carriedClass u i, x.task, x.seq, count, held, false, tick u, x.pc, data, shares⟩)] ∧
        t.nextOp = u.nextOp + 1 ∧ shares.map Share.core = (if each then x.cores else x.cores.take 1) ∧
        getStr t k = { x with data := data, ranges := x.ranges ++ ranges, commit := if held then x.commit ++ [.cpl u.nextOp [] count] else x.commit } ∧
        (∀ j, j ≠ k.val → getStr t j = getStr u j) ∧ t.regs = u.regs ∧ t.cores = u.cores ∧ sameMemory u t
    let copy := fun (o : XferOpnds) (load : Bool) =>
      let far := fun (r : AReg) (l : Nat) => if o.each then truncN 52 ((areg x r : Int) + (l : Int) * sregI x o.scs) else areg x r
      let near := fun (r : AReg) (m : Nat) => if o.each then orgAddr m (areg x r) else areg x r
      (if o.each then (List.range x.cores.length).zip x.cores else ((List.range x.cores.length).zip x.cores).take 1).map (fun p =>
        let y : Xfer := ⟨if load then far o.asrc p.1 else near o.asrc p.2, if load then near o.adst p.2 else far o.adst p.1,
          sreg x o.srows, sreg x o.srb, sregI x o.sss, sregI x o.sds⟩
        (⟨p.2, if load then .sload y else .sstore y, some (orgAddr p.2 (areg x o.acpl)), .waiting 0⟩ : Share))
    (∀ o, issues s k gap (xferPlan k o true) → (∀ y ∈ copy o true, peerAddr y.op = none) →
      starts (.sload (.stream k) gap o) o.each o.count (cplHeld i o.each o.acpl) (copy o true)
        (xferRanges (coresOfPav (k.val / 2)) u.nextOp i o true) [areg x o.adst, areg x o.asrc, sreg x o.srows, sreg x o.srb]) ∧
    (∀ o, issues s k gap (xferPlan k o false) → (∀ y ∈ copy o false, peerAddr y.op = none) →
      starts (.sstore (.stream k) gap o) o.each o.count (cplHeld i o.each o.acpl) (copy o false)
        (xferRanges (coresOfPav (k.val / 2)) u.nextOp i o false) [areg x o.adst, areg x o.asrc, sreg x o.srows, sreg x o.srb]) ∧
    (∀ o, issues s k gap (slathPlan k o) →
      starts (.slath (.stream k) gap o) o.each o.count (cplHeld i o.each o.acpl) (slathShares u i o)
        (slathRanges (coresOfPav (k.val / 2)) u.nextOp x.now i o) [areg x o.areq, o.qlen, areg x o.ares, sreg x o.srl])) ∧
  (∀ (s : State) (m : Fin 64) (gap : Nat) (h : Handler), s.still = true → paused s = false → (getCore s m).handler = some h →
    let i := issHnd s m
    let starts := fun (c : Instr) (count : Bool) (shares : List Share) => nextIs c s fun t =>
      t.ops = s.ops ++ [(s.nextOp, ⟨.handler m, i.ctx, i.cls, 0, i.seq, count, false, false, tick s, h.pc, [h.routine, h.creel], shares⟩)] ∧
      t.nextOp = s.nextOp + 1 ∧ shares.map Share.core = [m.val] ∧ onlyCore s { t with ops := s.ops, nextOp := s.nextOp, packets := s.packets } m ∧
      getCore t m = { getCore s m with handler := some { h with pc := h.pc + 1 } }
    (∀ o, handlerRegs (.handler m) [o.srows.val, o.srb.val, o.sss.val, o.sds.val, o.scs.val] [o.adst.val, o.asrc.val, o.acpl.val] = true →
      xferLegal s i o true = true → (∀ y ∈ xferShares i o true, peerAddr y.op = none) →
      starts (.sload (.handler m) gap o) o.count (xferShares i o true)) ∧
    (∀ o, handlerRegs (.handler m) [o.srows.val, o.srb.val, o.sss.val, o.sds.val, o.scs.val] [o.adst.val, o.asrc.val, o.acpl.val] = true →
      xferLegal s i o false = true → (∀ y ∈ xferShares i o false, peerAddr y.op = none) →
      starts (.sstore (.handler m) gap o) o.count (xferShares i o false)) ∧
    (∀ o, handlerRegs (.handler m) [o.srl.val, o.scs.val] [o.areq.val, o.ares.val, o.acpl.val] = true → slathLegal s i o = true →
      starts (.slath (.handler m) gap o) o.count (slathShares s i o)))

/-- The takers at one local word at which nobody waits, with MODECFG.ORDERED 0 (R218, R219, R223, R224, R229); `data` is what the
stream notes of the macro-op for the log, and its tracker entry stands until it completes (R444). -/
def Obligations.TakesAtALocalWord : Prop :=
  ∀ (s : State) (k : Fin 16) (gap m w a : Nat),
    let u := slotTaken (atIssue s k gap) k 2
    let x := getStr u k
    strWords u k x false a = [.here m w] →
    let meets := fun (data : List Nat) (writes : Bool) (P : State → Stream → Prop) =>
      let v := runTo k (x.now + 3) (modStr u k (fun t => { t with data := data, ranges := t.ranges ++ feRanges t [(m, w)] writes }))
      v.calm = true → (getStr v k).st = .running → ordered v = false → bankHedged v w = false → orgErrAt v w = 0 →
      (∀ z ∈ v.waiters, z.word ≠ w) → P v (getStr v k)
    let resumed := fun (v : State) (y : Stream) (t : State) => (getStr t k).st = .running ∧ (getStr t k).wait = .none_ ∧
      (getStr t k).nextSlot = y.now + 3 + (if y.check then 1 else 0) ∧ t.waiters = v.waiters ∧
      (∀ z, z ≠ w → metaOf t z = metaOf v z) ∧ t.dram = v.dram ∧ t.host = v.host
    let waits := fun (v : State) (y : Stream) (t : State) (kd : TakeKind) => (getStr t k).st = .waiting ∧ t.org = v.org ∧
      t.wordMeta = v.wordMeta ∧ t.waiters = v.waiters ++ [⟨w, .local_ k m, y.cores.headD 0, kd, v.arrivals, tick v⟩]
    let takes := fun (c : Instr) (o : FwaitOpnds) (kd : TakeKind) (after : WMeta) => o.each = false → areg x o.aw = a →
      meets [areg x o.aw, areg x o.ag, sreg x o.sgl, 0] (kd != .fwait) fun v y =>
        (metaOf v w = .full → nextIs c s fun t => resumed v y t ∧ t.org = v.org ∧ metaOf t w = after ∧
          (∀ r, o.sd2 = some r → sreg (getStr t k) r = wordVal v w / 2 ^ 32) ∧
          (∀ r, o.sd = some r → o.sd2 ≠ some r → sreg (getStr t k) r = wordVal v w % 2 ^ 32) ∧
          (∀ r : SReg, o.sd ≠ some r → o.sd2 ≠ some r → sreg (getStr t k) r = sreg y r)) ∧
        (metaOf v w = .empty → nextIs c s fun t => waits v y t kd)
    (∀ o, issues s k gap (fwaitPlan k o false) → takes (.fwait (.stream k) gap o) o .fwait .full) ∧
    (∀ o, issues s k gap (fwaitPlan k o true) → takes (.ftake (.stream k) gap o) o .ftake .empty) ∧
    (∀ (aw : AReg) (sk : SReg) (chk : Bool), areg x aw = a → issues s k gap (fcountMinusPlan k false aw sk) →
      meets [areg x aw, sreg x sk, 0, 0] true fun v y =>
        (metaOf v w ≠ .poisoned → sreg x sk ≤ cntCount (wordVal v w) → (chk = true → cntCount (wordVal v w) = sreg x sk) →
          nextIs (.fcountMinus (.stream k) gap false aw sk true chk) s fun t => resumed v y t ∧
            wordVal t w = cntPut (wordVal v w) (cntCount (wordVal v w) - sreg x sk) ∧
            metaOf t w = (if cntCount (wordVal v w) = sreg x sk then .empty else .full) ∧
            (∀ b, b < w ∨ w + 8 ≤ b → orgByte t b = orgByte v b)) ∧
        (metaOf v w ≠ .poisoned → cntCount (wordVal v w) < sreg x sk →
          nextIs (.fcountMinus (.stream k) gap false aw sk true chk) s fun t => waits v y t (.fcount (sreg x sk) chk)))

/-- The stores to one local word at which nobody waits (R225 to R228); `data` is what the stream notes of the macro-op for the
log, and its tracker entry stands until it completes (R444).  FEMPTY and FCOUNT+ issue at the distance `gap` that the earlier writes they
publish leave them (R448, assumption 76). -/
def Obligations.FillsAtALocalWord : Prop :=
  ∀ (s : State) (k : Fin 16) (gap m w a : Nat),
    let u := slotTaken (atIssue s k gap) k 2
    let x := getStr u k
    strWords u k x false a = [.here m w] →
    let access := fun (c : Nat) (data : List Nat) (ins : Instr) (ok : State → Prop) (val : State → Nat) (after : State → WMeta) =>
      let v := runTo k c (modStr u k (fun t => { t with data := data, ranges := t.ranges ++ feRanges t [(m, w)] true }))
      v.calm = true → (getStr v k).st = .running → bankHedged v w = false → (∀ z ∈ v.waiters, z.word ≠ w) → ordered v = false → ok v →
      nextIs ins s fun t => wordVal t w = val v ∧ metaOf t w = after v ∧ (∀ z, z ≠ w → metaOf t z = metaOf v z) ∧
        (∀ b, b < w ∨ w + 8 ≤ b → orgByte t b = orgByte v b) ∧ t.dram = v.dram ∧ t.host = v.host ∧ t.waiters = v.waiters ∧
        (getStr t k).st = .running ∧ (getStr t k).nextSlot = (getStr v k).now + 3 + (if (getStr v k).check then 1 else 0) ∧
        (getStr t k).sregs = (getStr v k).sregs ∧ (getStr t k).commit = (getStr v k).commit
    let holds := fun (ins : Instr) (data : List Nat) (e : CEntry) => u.calm = true → nextIs ins s fun t => onlyStream u t k ∧
      getStr t k = { x with data := data, commit := x.commit ++ [e], nextSlot := x.now + 1 + (if x.check then 1 else 0) }
    (∀ o : FfillOpnds, o.each = false → areg x o.aw = a →
      let v := fillValue (sreg x) o
      (issues s k gap (ffillPlan k o true) →
        (inOuts x.outs w = false → access (storeCycle x 3) (fillData x o) (.ffill (.stream k) gap o) (fun v => metaOf v w = .empty)
          (fun _ => v.toNat) (fun _ => .full)) ∧
        (inOuts x.outs w = true → holds (.ffill (.stream k) gap o) (fillData x o) (.fill [w] v))) ∧
      (issues s k gap (ffillPlan k o false) →
        ∀ g, publishGap k g o.each (areg (getStr s k) o.aw) false s = gap →
          access (x.now + 3) (fillData x o) (.fempty (.stream k) g o) (fun _ => True) (fun _ => v.toNat) (fun _ => .empty))) ∧
    (∀ (aw : AReg) (n g : Nat), areg x aw = a → issues s k gap (fcountPlusPlan k false aw n) →
      publishGap k g false (areg (getStr s k) aw) true s = gap →
      (inOuts x.outs w = false → access (x.now + 3) [areg x aw, n, 0, 0] (.fcountPlus (.stream k) g false aw n)
        (fun v => metaOf v w ≠ .poisoned ∧ orgErrAt v w = 0 ∧ cntCount (wordVal v w) + n ≤ cntCap (wordVal v w))
        (fun v => cntPut (wordVal v w) (cntCount (wordVal v w) + n)) (fun _ => .full)) ∧
      (inOuts x.outs w = true → holds (.fcountPlus (.stream k) g false aw n) [areg x aw, n, 0, 0] (.count [w] n)))

/-- The full/empty macro-ops of a running handler (R149, R150). -/
def Obligations.HandlersUseWordsWithoutWaiting : Prop :=
  ∀ (s : State) (m : Fin 64) (gap w : Nat) (h : Handler), paused s = false → (getCore s m).handler = some h →
    let c := getCore s m
    let i := issHnd s m
    let sends := fun (ins : Instr) (each : Bool) (a : Nat) (acc : FeAcc) => hndWord s i m each a = some w → spaceOf w ≠ 9 →
      nextIs ins s fun t =>
        t.bankq = s.bankq ++ [⟨orgSlice w, bitsOf (orgOff w) 11 5, i.cls, agentOf (.handler m) (orgSlice w), w, acc, .remote s.nextOp, 64 + m.val⟩] ∧
        t.nextOp = s.nextOp + 1 ∧ getCore t m = { c with handler := some { h with pc := h.pc + 1 } } ∧
        (∀ j, j ≠ m.val → getCore t j = getCore s j) ∧ t.regs = s.regs ∧ t.streams = s.streams ∧ sameMemory s t
    (∀ each (aw : AReg) (sk : SReg) chk, sk.val < 16 → aw.val < 8 → hsreg c sk < 65536 →
      sends (.fcountMinus (.handler m) gap each aw sk false chk) each (hareg c aw) (.take (.fcount (hsreg c sk) chk) false)) ∧
    (∀ each (aw : AReg) (lo : BitVec 32) (hi : Option (BitVec 32)), aw.val < 8 →
      sends (.ffill (.handler m) gap ⟨each, aw, .imm lo, hi.map .imm⟩) each (hareg c aw)
        (.fill (BitVec.ofNat 64 (lo.toNat + ((hi.map BitVec.toNat).getD 0) * 2 ^ 32)))) ∧
    (∀ each (aw : AReg) (sl : SReg), aw.val < 8 → sl.val < 16 →
      sends (.ffill (.handler m) gap ⟨each, aw, .reg sl, none⟩) each (hareg c aw) (.fill (BitVec.ofNat 64 (hsreg c sl)))) ∧
    (∀ each (aw : AReg) (lo : BitVec 32), aw.val < 8 →
      sends (.fempty (.handler m) gap ⟨each, aw, .imm lo, none⟩) each (hareg c aw) (.empty (BitVec.ofNat 64 lo.toNat))) ∧
    (∀ each (aw : AReg) n, aw.val < 8 → 1 ≤ n → n < 65536 →
      sends (.fcountPlus (.handler m) gap each aw n) each (hareg c aw) (.count n))

/-- CSEND and CSEND.TRY at a creel of this module (R231 to R234). -/
def Obligations.SendsUseTheirCredit : Prop :=
  (∀ (s : State) (k : Fin 16) (gap c key : Nat) (o : CsendOpnds) (sd : SReg), issues s k gap (csendPlan k o) → 
    let v := noteData k (csendPlan k o) (slotTaken (atIssue s k gap) k 2)
    let y := getStr v k
    let a := areg y o.ar
    let i := issStr k y
    let from_ := fun (m : Nat) => if o.each then orgAddr m (areg y o.am) else areg y o.am
    let msgs := (if o.each then i.cores else i.cores.take 1).map (fun p => (p.2, orgRead (staticPart k v) (from_ p.2) o.len))
    let cost := msgs.length * (o.len + 32)
    let have_ := accountOf y.accounts key
    v.calm = true → (∀ p ∈ i.cores, ∀ e ∈ v.orgErr, overlaps e.1 8 (from_ p.2) o.len = false) → ringOf v y.ctx a = some (c, key) → c < 576 → (∃ b ∈ y.accounts, b.tag = key) →
    (cost ≤ have_ → o.early = false →
      let captured := fun (t : State) => (getStr t k).commit = y.commit ++ msgs.map (fun m => .msg c key a m.1 m.2) ∧
        accountOf (getStr t k).accounts key = have_ - cost ∧ (getStr t k).st = .running ∧ (∀ j, j ≠ k.val → getStr t j = getStr v j) ∧
        { t with streams := v.streams, uses := v.uses } = v
      nextIs (.csend (.stream k) gap o) s (fun t => captured t ∧ (getStr t k).sregs = y.sregs) ∧
      nextIs (.csendTry (.stream k) gap o sd) s (fun t => captured t ∧ sreg (getStr t k) sd = 1)) ∧
    (cost ≤ have_ → o.early = true →
      let sent := fun (t : State) => accountOf (getStr t k).accounts key = have_ - cost ∧ (getStr t k).released = true ∧
        (getStr t k).commit = y.commit ∧ (getCreel t c).stage.map StageMsg.bytes = (getCreel v c).stage.map StageMsg.bytes ++ msgs.map Prod.snd
      nextIs (.csend (.stream k) gap o) s sent ∧
      nextIs (.csendTry (.stream k) gap o sd) s (fun t => sent t ∧ sreg (getStr t k) sd = 1)) ∧
    (have_ < cost →
      let lacks := fun (t : State) => (getStr t k).commit = y.commit ∧ accountOf (getStr t k).accounts key = have_ ∧ sameMemory v t ∧
        (getCreel t c).stage = (getCreel v c).stage ∧
        ((getCreel t c).requests.drop (getCreel v c).requests.length).map (fun r => (r.dest, r.short)) = [(.own (.stream k), cost - have_)]
      nextIs (.csend (.stream k) gap o) s (fun t => lacks t ∧ (getStr t k).st = .waiting ∧
        (getStr t k).wait = .credit c cost (.csend (.stream k) gap o)) ∧
      nextIs (.csendTry (.stream k) gap o sd) s (fun t => lacks t ∧ (getStr t k).st = .running ∧ sreg (getStr t k) sd = 0))) ∧
  (∀ (s : State) (m : Fin 64) (gap c key : Nat) (h : Handler) (o : CsendOpnds) (sd : SReg), paused s = false → (getCore s m).handler = some h →
    let x := getCore s m
    let i := issHnd s m
    let cost := o.len + 32
    csendLegal s i o = true → o.ar.val < 8 → o.am.val < 8 → sd.val < 16 → ringOf s i.ctx (hareg x o.ar) = some (c, key) → c < 576 →
    (∃ b ∈ x.accounts, b.tag = key) →
    let done := fun (t : State) (r n : Nat) => hsreg (getCore t m) r = n ∧ (getCore t m).handler = some { h with pc := h.pc + 1 } ∧ t.streams = s.streams
    (cost ≤ accountOf x.accounts key →
      let sent := fun (t : State) => accountOf (getCore t m).accounts key = accountOf x.accounts key - cost ∧
        (getCreel t c).stage.length = (getCreel s c).stage.length + 1
      nextIs (.csend (.handler m) gap o) s (fun t => sent t ∧ done t 15 1) ∧
      nextIs (.csendTry (.handler m) gap o sd) s (fun t => sent t ∧ done t sd 1)) ∧
    (accountOf x.accounts key < cost →
      let lacks := fun (t : State) => accountOf (getCore t m).accounts key = accountOf x.accounts key ∧ (getCreel t c).stage = (getCreel s c).stage
      nextIs (.csend (.handler m) gap o) s (fun t => lacks t ∧ done t 15 0) ∧
      nextIs (.csendTry (.handler m) gap o sd) s (fun t => lacks t ∧ done t sd 0)))

/-- Starts and ends of handlers (R148, R151, R235, R423, R430). -/
def Obligations.HandlersStartAndEnd : Prop :=
  (∀ (s : State) (m : Fin 64) (c : Nat) (e : CrlEntry) (es : List CrlEntry), paused s = false → (getCore s m).handler = none → coreHedged s m = false →
    getBit s fHEDGEMISC_PAV (m / 8) = false → (getStr s (streamOfCore s m)).st ≠ .idle → m.val ∈ (getStr s (streamOfCore s m)).cores →
    (getStr s (streamOfCore s m)).resident ≠ none → s.fatal = false →
    nextCreel s m = some c → (getCreel s c).entries = e :: es →
    let a := crlBase s c + e.off + 32
    (∀ e ∈ s.orgErr, overlaps e.1 8 a 32 = false) → nextIs (.handlerDispatch m) s fun t =>
      ((getCore t m).handler.map (fun h => (h.creel, h.loops, h.pc, h.start)) = some (c, [], 0, tick s)) ∧
      (∀ i, i < 8 → hsreg (getCore t m) i = leVal (orgRead s (a + 4 * i) 4)) ∧ hsreg (getCore t m) 8 = c % 8 ∧
      hareg (getCore t m) 0 = a % 2 ^ 52 ∧ isSet t (fHNDSTAT_RUN (m / 8) (m % 8)) = true ∧
      (∀ j, j ≠ m.val → getCore t j = getCore s j) ∧ onlyRegs s t [rHNDSTAT (m / 8) (m % 8)] ∧
      { t with cores := s.cores, regs := s.regs } = s) ∧
  (∀ (s : State) (m : Fin 64) (gap : Nat) (h : Handler) (e : CrlEntry) (es : List CrlEntry), paused s = false →
    (getCore s m).handler = some h →
    (getCreel s h.creel).entries = e :: es → h.creel < 576 →
    let ends := fun (t : State) => (getCore t m).handler = none ∧ isSet t (fHNDSTAT_RUN (m / 8) (m % 8)) = false ∧
      getF t (fHNDCNT_COUNT (m / 8) (m % 8)) = (getF s (fHNDCNT_COUNT (m / 8) (m % 8)) + 1) % 2 ^ 64 ∧
      (getCreel t h.creel).entries = es ∧ (getCore t m).hndEnds = (getCore s m).hndEnds + 1 ∧
      { getCore t m with handler := some h, hndEnds := (getCore s m).hndEnds } = getCore s m ∧ sameMemory s t ∧ t.streams = s.streams ∧
      getF t (crlPOOL h.creel) = (getF s (crlPOOL h.creel) + e.size + e.marker) % 2 ^ 21
    let lim := getF s (fHNDLIM_LIMIT (m / 8) (m % 8))
    (h.loops = [] → nextIs (.hret (.handler m) gap) s ends) ∧
    (h.loops ≠ [] → nextIs (.hret (.handler m) gap) s fun t => ends t ∧ isSet t (fHNDFLT_ILL (m / 8) (m % 8)) = true) ∧
    (lim ≠ 0 → lim ≤ cyclesSince s h.start → nextIs (.handlerTimeLimit m) s fun t => ends t ∧
      isSet t (fHNDFLT_TLIM (m / 8) (m % 8)) = true) ∧
    (lim = 0 ∨ cyclesSince s h.start < lim → exec (.handlerTimeLimit m) s = .next s))

/-- The macro-ops that a handler may not use (R149). -/
def Obligations.OtherMacroOpsEndAHandler : Prop :=
  ∀ (s : State) (m : Fin 64) (gap : Nat) (h : Handler) (e : CrlEntry) (es : List CrlEntry), paused s = false →
    (getCore s m).handler = some h →
    (getCreel s h.creel).entries = e :: es → h.creel < 576 →
    let w := Who.handler m
    let ends := fun (c : Instr) => nextIs c s fun t => (getCore t m).handler = none ∧ (getCreel t h.creel).entries = es ∧
      isSet t (fHNDFLT_ILL (m / 8) (m % 8)) = true ∧ isSet t (fHNDSTAT_RUN (m / 8) (m % 8)) = false ∧
      (∀ j, j ≠ m.val → getCore t j = getCore s j) ∧ t.streams = s.streams ∧ sameMemory s t
    (∀ a b, ends (.wloadR w gap a b)) ∧ (∀ a b f, ends (.wloadS w gap a b f)) ∧ (∀ o, ends (.mpass w gap o)) ∧
    (∀ o, ends (.mpasst w gap o)) ∧ (∀ o, ends (.mdist w gap o)) ∧ (∀ o, ends (.msqd w gap o)) ∧ (∀ o, ends (.mcmpx w gap o)) ∧
    (∀ o, ends (.mcmpn w gap o)) ∧ (∀ o, ends (.tload w gap o)) ∧ (∀ o p, ends (.tstore w gap o p)) ∧
    (∀ d v, ends (.sset w gap d v)) ∧ (∀ d a b, ends (.sadd w gap d a b)) ∧ (∀ d v, ends (.aset w gap d v)) ∧
    (∀ d a b, ends (.aadd w gap d a b)) ∧ (∀ o, ends (.eprog w gap o)) ∧ (∀ d x n, ends (.eshufX w gap d x n)) ∧
    (∀ d x c, ends (.eshufB w gap d x c)) ∧ (∀ d x g, ends (.esum w gap d x g)) ∧ (∀ d x g o, ends (.emax w gap d x g o)) ∧
    (∀ d x v c o n, ends (.ebcast w gap d x v c o n)) ∧ (∀ o, ends (.equant w gap o)) ∧ (∀ o, ends (.fwait w gap o)) ∧
    (∀ o, ends (.ftake w gap o)) ∧ (∀ e a k c, ends (.fcountMinus w gap e a k true c)) ∧ (∀ x d, ends (.tcfg w gap x d)) ∧
    (∀ x, ends (.trel w gap x)) ∧ ends (.fenceL w gap) ∧ ends (.fenceX w gap) ∧ ends (.commit w gap) ∧ ends (.yield w gap)

/-- FENCE.L, FENCE.X and COMMIT (R237 to R239). -/
def Obligations.FencesAndCommit : Prop :=
  ∀ (s : State) (k : Fin 16) (gap : Nat),
    let v := staticPart k (slotTaken (atIssue s k gap) k 1)
    let y := getStr v k
    let fence := fun (x : Bool) (c : Instr) => issues s k gap plainPlan → v.still = true →
      (fenceMet v k x = true → nextIs c s fun t => onlyStream v t k ∧
        getStr t k = { y with nextSlot := max y.nextSlot (y.now + (if y.check then 1 else 0)) }) ∧
      (fenceMet v k x = false → nextIs c s fun t => onlyStream v t k ∧ (getStr t k).st = .waiting ∧
        (getStr t k).wait = .fence x y.seq ∧ (getStr t k).waitSince = tick v)
    fence false (.fenceL (.stream k) gap) ∧ fence true (.fenceX (.stream k) gap) ∧
    (issues s k gap commitPlan → v.still = true → paused v = false →
      (fenceMet v k true = false → nextIs (.commit (.stream k) gap) s fun t => onlyStream v t k ∧ (getStr t k).st = .waiting ∧
        (getStr t k).wait = .commit1 ∧ (getStr t k).commit = y.commit) ∧
      (fenceMet v k true = true → y.commit ≠ [] → nextIs (.commit (.stream k) gap) s fun t =>
        onlyStream v { t with regs := v.regs } k ∧ (∀ off, regGet t off = regGet v off) ∧ (getStr t k).st = .ending ∧ (getStr t k).wait = .commit2 ∧ (getStr t k).commit = y.commit) ∧
      (opsOf v k = [] → y.commit = [] → quiet y = true → nextIs (.commit (.stream k) gap) s fun t => (getStr t k).st = .idle ∧
        (getStr t k).wait = .none_ ∧ (getStr t k).sregs = [] ∧ (getStr t k).tile = [] ∧ (getStr t k).flights = [] ∧
        (∀ tk, getTask v (y.task % 4096) = some tk → tk.st.isEnded = false →
          (getTask t (y.task % 4096)).map Task.st = some (.ended 0 0))))

/-- YIELD (R243, R388) and the end of a program (R242). -/
def Obligations.YieldAndTheEndOfAProgram : Prop :=
  (∀ (s : State) (k : Fin 16) (gap : Nat), issues s k gap plainPlan →
    let u := slotTaken (atIssue s k gap) k 1
    u.calm = true →
    (yieldWanted u k = false → exec (.yield (.stream k) gap) s = .next u) ∧
    (yieldWanted u k = true → preemptible (getStr u k) = true → (getStr u k).flights = [] → (getStr u k).lands = [] → (getStr u k).stores = [] →
      (getStr u k).acq = [] →
      nextIs (.yield (.stream k) gap) s fun t => (getStr t k).st = .held ∧ (getStr t k).preempt = some (getStr u k).nextPc ∧
        t.slots.length = u.slots.length + 1 ∧
        ∃ tk sl, getTask u ((getStr u k).task % 4096) = some tk ∧
          getTask t ((getStr u k).task % 4096) = some { tk with st := .preempting k sl false none } ∧
          sameMemory u t)) ∧
  (∀ (s : State) (k : Fin 16), (getStr s k).st = .running → paused s = false →
    nextIs (.programEnd k) s fun t => isSet t (fSTRSKIP_SKIP (k / 2) (k % 2)) = true ∧
      getF t (fSTRSKIP_CAUSE (k / 2) (k % 2)) = 0x0B ∧ getF t (fSTRSKIP_PC (k / 2) (k % 2)) = (getStr s k).nextPc % 2 ^ 32 ∧
      (getStr t k).st ≠ .running)

/-- COMMIT step 2 (R239, R241): local words of stream `k` at which nobody waits; `e` is the entry that is released, and `d` the
one whose access is due in that cycle. -/
def Obligations.CommitReleasesItsBuffer : Prop :=
  ∀ (s : State) (k : Fin 16) (w : Nat) (e : CEntry) (rest : List CEntry),
    let v := runTo k ((getStr s k).now + 1) s
    let y := getStr v k
    ((getStr s k).wait = .commit2 → (getStr s k).commit = e :: rest → y.wait = .commit2 → paused s = false → paused v = false →
      (setStr v k Stream.reset).still = true → y.ended = none → rest ≠ [] → entryLocal y k e = true →
      ((getStr s k).releasing = [] → nextIs (.commitBufferRelease k) s fun t => onlyStream v t k ∧
        getStr t k = { y with commit := rest, released := true, releasing := y.releasing ++ [(y.now + 3, e)] }) ∧
      (∀ d, (getStr s k).releasing = [((getStr s k).now + 1, d)] → (∀ z ∈ v.waiters, z.word ≠ w) → ordered v = false →
        bankHedged v w = false →
        let accessed := fun (t : State) (n : Nat) => (getStr t k).commit = rest ∧ (getStr t k).wait = .commit2 ∧
          (getStr t k).released = true ∧ (getStr t k).releasing = [(y.now + 3, e)] ∧
          wordVal t w = n ∧ metaOf t w = .full ∧ (∀ z, z ≠ w → metaOf t z = metaOf v z) ∧
          (∀ b, b < w ∨ w + 8 ≤ b → orgByte t b = orgByte v b) ∧ t.dram = v.dram ∧ t.host = v.host
        let faults := fun (c : Nat) => nextIs (.commitBufferRelease k) s fun t => (getStr t k).commit = [] ∧
          (getStr t k).wait = .none_ ∧ isSet t (fSTRSKIP_SKIP (k / 2) (k % 2)) = true ∧ getF t (fSTRSKIP_CAUSE (k / 2) (k % 2)) = c
        (∀ x, d = .fill [w] x → metaOf v w = .empty → nextIs (.commitBufferRelease k) s fun t => accessed t x.toNat) ∧
        (∀ n, d = .count [w] n → metaOf v w ≠ .poisoned → orgErrAt v w = 0 → 1 ≤ n → cntCount (wordVal v w) + n ≤ cntCap (wordVal v w) →
          nextIs (.commitBufferRelease k) s fun t => accessed t (cntPut (wordVal v w) (cntCount (wordVal v w) + n))) ∧
        (∀ x, d = .fill [w] x → metaOf v w = .full → faults 7) ∧ (∀ x, d = .fill [w] x → metaOf v w = .poisoned → faults 10))) ∧
    ((getStr s k).wait ≠ .commit2 ∨ (getStr s k).commit = [] ∨ paused s = true → exec (.commitBufferRelease k) s = .next s)

/-- The release of a hold (R446). -/
def Obligations.HeldMacroOpsIssueAgain : Prop :=
  ∀ (s : State) (k : Fin 16),
    let x := getStr s k
    let n := cyclesSince s x.heldAt
    let free := modStr s k (fun x => { readOn n x with st := .running, held := none, heldAs := [], preempt := none, obliged := false })
    let counted := fun (t r : State) => { r with regs := t.regs } = t ∧ onlyRegs t r [rSTRHOLDCY (k / 2) (k % 2)] ∧
      getF r (fSTRHOLDCY_CYCLES (k / 2) (k % 2)) =
        (getF t (fSTRHOLDCY_CYCLES (k / 2) (k % 2)) + n) % 2 ^ 64
    (x.st ≠ .held ∨ x.held = none ∨ paused s = true ∨ (x.preempt ≠ none ∧ x.obliged = false) → exec (.holdRelease k) s = .next s) ∧
    (∀ (i : Instr) (t : State), x.st = .held → x.held = some i → paused s = false → x.preempt = none ∨ x.obliged = true →
      (∃ w g o p, i = .tload w g o ∨ i = .tstore w g o p) ∨ (∃ w g o, i = .sload w g o ∨ i = .sstore w g o) ∨
        (∃ w g o, i = .slath w g o) ∨ (∃ w g o, i = .eprog w g o) ∨ (∃ w g a b f, i = .wloadR w g a b ∨ i = .wloadS w g a b f) ∨
        (∃ w g o, i = .ffill w g o ∨ i = .fempty w g o) ∨ (∃ w g o, i = .fwait w g o ∨ i = .ftake w g o) ∨ (∃ w g o, i = .csend w g o) →
      exec i free = .next t →
      ((getStr t k).st = .held → exec (.holdRelease k) s = .next s) ∧
      ((getStr t k).st ≠ .held → x.obliged = false → nextIs (.holdRelease k) s (counted t))) ∧
    (∀ (gap : Nat) (o : MoveOpnds) (w : Width), x.st = .held → x.held = some (.tload (.stream k) gap o) → x.preempt = none →
      x.obliged = false → issues free k gap (movePlan o false 0) →
      let u := slotTaken (atIssue free k gap) k 1
      u.calm = true → tileWidth (getStr u k) o.t = some w →
      nextIs (.holdRelease k) s fun r => ∃ t, counted t r ∧ onlyStream u t k ∧
        launched u t k (.tload (moveOf (getStr u k) o w 8)) (moveRanges (getStr u k) (moveOf (getStr u k) o w 8) false ((getStr u k).now + o.t.h + 2)) (moveData o (getStr u k)) ∧
        { getStr t k with flights := (getStr u k).flights, ranges := (getStr u k).ranges } =
          { getStr u k with tldFree := (getStr u k).now + o.t.h })

/-- A one-row copy of one core is performed (R178, R179, R184, R186). -/
def Obligations.CopiesArePerformed : Prop :=
  ∀ (s : State) (op : Nat) (core : Fin 64) (d : DynOp) (y : Xfer) (so : ShareOp) (w : Nat),
    findOp s op = some d → d.shares = [⟨core, so, some w, .waiting 0⟩] → so = .sload y ∨ so = .sstore y → d.held = false → d.count = false →
    y.rows = 1 → 1 ≤ y.rb → y.src % 4096 + y.rb ≤ 4096 → y.dst % 4096 + y.rb ≤ 4096 → y.src < 2 ^ 52 →
    orgAssigned y.dst = true → orgHedged s y.dst y.rb = false → s.orgErr = [] → s.still = true → paused s = false → (∀ z ∈ s.packets, z.op ≠ op) →
    (∀ l, outranked s d.cls (xferAgent s d ⟨core, so, some w, .waiting 0⟩) (2 * op) l = false) →
    (∀ p ∈ pieceplaces s d.ctx (xferPieces y), p < 8192 → subFree s p = true) →
    metaOf s w = .empty → bankHedged s w = false → (∀ z ∈ s.waiters, z.word ≠ w) → w + 8 ≤ y.dst ∨ y.dst + y.rb ≤ w → ordered s = false →
    (orgAssigned y.src = true → orgHedged s y.src y.rb = false → nextIs (.operationCompletion op core 0) s fun t =>
      (∀ j, j < y.rb → orgByte t (y.dst + j) = orgByte s (y.src + j)) ∧ wordVal t w = y.rb ∧ metaOf t w = .full ∧
      (∀ a, a < y.dst ∨ y.dst + y.rb ≤ a → a < w ∨ w + 8 ≤ a → orgByte t a = orgByte s a) ∧ (∀ z, z ≠ w → metaOf t z = metaOf s z) ∧
      findOp t op = none ∧ t.dram = s.dram ∧ t.host = s.host ∧
      getF t (fSOPCNT_COUNT (core / 8) (core % 8)) = (getF s (fSOPCNT_COUNT (core / 8) (core % 8)) + 1) % 2 ^ 64) ∧
    (∀ h : Fin 4, h = 1 ∨ h = 2 → spaceOf y.src = 8 →
      let failed := fun (t : State) => wordVal t w = h * 2 ^ 56 + 8 * 2 ^ 52 ∧ metaOf t w = .poisoned ∧
        (∀ a, a < w ∨ w + 8 ≤ a → orgByte t a = orgByte s a) ∧ findOp t op = none ∧ t.dram = s.dram ∧ t.host = s.host
      nextIs (.operationCompletion op core h) s failed ∧ (h = 2 → so = .sload y → working s = true → nextIs (.completionTimeout (.share op core)) s failed))

/-- Tokens of the trellis (R546, R597 cause 4). -/
def Obligations.TokensAreTakenUp : Prop :=
  ∀ (s : State) (x : Token), s.tokens.find? (fun z => z.id == x.id) = some x →
    let moving := paused s = false
    (¬ moving → exec (.trellisToken x.id) s = .next s) ∧
    (∀ (k : Fin 16) (op : Nat) (v : BitVec 64) (sd : SReg) (d : DynOp), moving → s.still = true → x.kind = .reply op (.ok v) →
      findOp s op = some d → d.who = .stream k → (getStr s k).wait = .reply op (some sd) none (0, 0, 0) → (getStr s k).late = none →
      nextIs (.trellisToken x.id) s fun t => (∀ z ∈ t.tokens, z.id ≠ x.id) ∧ findOp t op = none ∧ (getStr t k).st = .running ∧
        (getStr t k).wait = .none_ ∧ sreg (getStr t k) sd = v.toNat % 2 ^ 32 ∧
        (getStr t k).nextSlot = max (getStr s k).nextSlot ((getStr s k).now + 1 + (if (getStr s k).check then 1 else 0)) ∧ sameMemory s t) ∧
    (∀ (k : Fin 16) (tag n : Nat), moving → s.still = true → x.kind = .grant (.stream k) tag n → (getStr s k).wait = .none_ →
      (∃ b ∈ (getStr s k).accounts, b.tag = tag) →
      nextIs (.trellisToken x.id) s fun t => (∀ z ∈ t.tokens, z.id ≠ x.id) ∧
        accountOf (getStr t k).accounts tag = accountOf (getStr s k).accounts tag + n ∧ sameMemory s t ∧
        { getStr t k with accounts := (getStr s k).accounts } = getStr s k) ∧
    (tick s < x.tick + 1000 → exec (.trellisTimeout x.id) s = .next s) ∧
    (x.tick + 1000 ≤ tick s → s.fatal = false → nextIs (.trellisTimeout x.id) s fun t => t.fatal = true ∧
      getF t fFATALINFO_CAUSE = 4 ∧ t.tokens = [] ∧ t.ops = [] ∧ t.waiters = [] ∧ (∀ k, k < 16 → (getStr t k).st = .idle) ∧ sameMemory s t)

/-- The limit of a wait (R415). -/
def Obligations.WaitsHaveALimit : Prop :=
  ∀ (s : State) (k : Fin 16),
    let x := getStr s k
    let lim := getF s (fSTRWTO_STRWTO (k / 2) (k % 2))
    (lim = 0 ∨ x.st ≠ .waiting ∨ x.wait.limited = false ∨ tick s - x.waitSince ≤ 100 * lim → exec (.waitTimeout k) s = .next s) ∧
    (lim ≠ 0 → x.st = .waiting → x.wait.limited = true → 100 * lim < tick s - x.waitSince → nextIs (.waitTimeout k) s fun t =>
      isSet t (fSTRSKIP_SKIP (k / 2) (k % 2)) = true ∧ getF t (fSTRSKIP_CAUSE (k / 2) (k % 2)) = 0x0D ∧
      getF t (fSTRWTO_TOCNT (k / 2) (k % 2)) = (getF s (fSTRWTO_TOCNT (k / 2) (k % 2)) + 1) % 2 ^ 32 ∧
      (getStr t k).st ≠ .waiting ∧ ∀ z ∈ t.waiters, ∀ m, z.agent ≠ .local_ k m)

/-- The settle interval (R407, R503); that R503 means an open wicket is the reading of log entry 77. -/
def Obligations.TakersAreServedInKeyOrder : Prop :=
  ∀ (s : State) (w : Nat),
    let ts := takersOf s w
    let full := amGet (fun _ => 0) s.fullAt w
    let since := tick s - max (full - 1) (ts.foldl (fun m x => min m x.tick) (tick s))
    let shared := ∃ k, k < 64 ∧ isSet s (fWKCTL_EN k) = true ∧
      (getBit s (fWKCTL_PERM k) 2 = true ∨ getBit s (fWKCTL_PERM k) 3 = true) ∧
      getF s (fWKBASE_BASE k) * 4096 ≤ w ∧ w < (getF s (fWKBASE_BASE k) + getF s (fWKSIZE_PAGES k)) * 4096
    let past := (shared ∧ 200 ≤ since) ∨ (¬ shared ∧ 128 ≤ cyclesSince s (tick s - since))
    (ordered s = false ∨ ts = [] ∨ metaOf s w ≠ .full ∨ ¬ past → exec (.settleIntervalExpiry w) s = .next s) ∧
    (∀ x rest, ordered s = true → ts = x :: rest → metaOf s w = .full → past → s.still = true →
      x.kind = .ftake → bankHedged s w = false → orgErrAt s w = 0 → (∃ op d, x.agent = .remote op ∧ findOp s op = some d) →
      (∀ y ∈ ts, x.key ≤ y.key) ∧ nextIs (.settleIntervalExpiry w) s fun t => metaOf t w = .empty ∧
        t.waiters = s.waiters.filter (fun y => y != x) ∧ t.tokens.length = s.tokens.length + 1 ∧ t.org = s.org)

/-- Doorbells, fetches and consumer counts (R340 to R342, R346, R359), on a queue that holds no fetched command. -/
def Obligations.DoorbellsAndFetches : Prop :=
  ∀ (s : State) (c : Fin 16) (q : Fin 8), (getQ s c q).fetched = [] → s.fatal = false →
    let h := getF s (fQPTR_HEAD c q)
    let n := cmdEntries s c q
    (∀ v : BitVec 64, served s = true → isSet s (fQCTL_EN c q) = true → v.toNat % 2 ^ 32 ≠ getF s (fQPTR_TAIL c q) →
      (sub32 (v.toNat % 2 ^ 32) h ≤ n → nextIs (.doorbell c q v) s fun t => getF t (fQPTR_TAIL c q) = v.toNat % 2 ^ 32 ∧
        getF t (fQPTR_HEAD c q) = h ∧ (getQ t c q).bells = (getQ s c q).bells ++ [(v.toNat % 2 ^ 32, tick s)] ∧
        onlyRegs s t [rQPTR c q] ∧ { t with regs := s.regs, queues := s.queues } = s) ∧
      (n < sub32 (v.toNat % 2 ^ 32) h → nextIs (.doorbell c q v) s fun t => qState t c q = qError ∧ sameMemory s t)) ∧
    (∀ v : BitVec 64, served s = true → isSet s (fQCTL_EN c q) = false → nextIs (.doorbell c q v) s fun t =>
      getF t (fQSTAT_DBDROP c q) = (getF s (fQSTAT_DBDROP c q) + 1) % 2 ^ 16 ∧ onlyRegs s t [rQSTAT c q] ∧ { t with regs := s.regs } = s) ∧
    (working s = true → queueOpen s c q = true → sub32 (getF s (fQPTR_TAIL c q)) h ≠ 0 →
      let a := fun (i : Nat) => getF s (fCMDRING_ADDR c q) * 32 / 64 * 64 + 64 * ((h + i) % 2 ^ 32 % n)
      let at_ := fun (i : Nat) => fromHost s (a i) 64
      (fld (at_ 0) 0 1 < 10 → nextIs (.commandFetch c q 0) s fun t => getF t (fQPTR_HEAD c q) = getF s (fQPTR_TAIL c q) ∧
        (getQ t c q).fetched.map Fetched.bytes = (List.range (sub32 (getF s (fQPTR_TAIL c q)) h)).map at_ ∧
        t.up = s.up ++ (List.range (sub32 (getF s (fQPTR_TAIL c q)) h)).map (fun i => ⟨false, pcieAddr s (a i), 64, pasidOf s (some c)⟩) ∧
        onlyRegs s t [rQPTR c q] ∧ { t with regs := s.regs, queues := s.queues, up := s.up } = s) ∧
      (∀ st : Fin 4, st ≠ 0 → (getQ s c q).recs = [] → (getQ s c q).cmds = [] → nextIs (.commandFetch c q st) s fun t => qState t c q = qError ∧
        getF t (fQPTR_HEAD c q) = (h + 1) % 2 ^ 32 ∧ (getQ t c q).fetched = [] ∧
        (getQ t c q).recs.map (fun r => (r.status, r.detail)) = [(3, if st = 3 then 4 else st.val)])) ∧
    (∀ v : BitVec 64, served s = true → nextIs (.completionConsumerCount c q v) s fun t =>
      getF t (fCPLPTR_CPLHEAD c q) = v.toNat % 2 ^ 32 ∧ getF t (fCPLPTR_CPLTAIL c q) = getF s (fCPLPTR_CPLTAIL c q) ∧
      onlyRegs s t [rCPLPTR c q] ∧ { t with regs := s.regs } = s)

/-- The switches of queues, contexts and modes (R339, R341, R362, R401, R507, R596). -/
def Obligations.QueueAndContextSwitches : Prop :=
  ∀ (s : State), served s = true →
    (∀ (c : Fin 16) (q : Fin 8) (vec : BitVec 8),
      (isSet s (fQCTL_EN c q) = false → nextIs (.queueEnable c q vec) s fun t => isSet t (fQCTL_EN c q) = true ∧
        getF t (fQCTL_VEC c q) = vec.toNat ∧ qState t c q = qRunning ∧ getF t (fQPTR_HEAD c q) = 0 ∧ getF t (fQPTR_TAIL c q) = 0 ∧
        getF t (fCPLPTR_CPLHEAD c q) = 0 ∧ getF t (fCPLPTR_CPLTAIL c q) = 0 ∧ (getQ t c q).fetched = [] ∧
        (getQ t c q).recs = (getQ s c q).recs ∧ onlyRegs s t [rQCTL c q, rQPTR c q, rCPLPTR c q, rQSTAT c q] ∧
        { t with regs := s.regs, queues := s.queues } = s) ∧
      (isSet s (fQCTL_EN c q) = true → nextIs (.queueDisable c q vec) s fun t => isSet t (fQCTL_EN c q) = false ∧
        qState t c q = qDisabled ∧ (getQ t c q).fetched = [] ∧ (getQ t c q).cmds = (getQ s c q).cmds ∧
        onlyRegs s t [rQCTL c q, rQSTAT c q] ∧ { t with regs := s.regs, queues := s.queues } = s) ∧
      (qState s c q = qRunning → (getQ s c q).fetched = [] → nextIs (.queueStop c q) s fun t => ∃ u, qState u c q = qStopped ∧
        isSet u (fQCTL_EN c q) = isSet s (fQCTL_EN c q) ∧ getF u (fQCTL_VEC c q) = getF s (fQCTL_VEC c q) ∧
        onlyRegs s u [rQCTL c q, rQSTAT c q] ∧ { u with regs := s.regs } = s ∧ t = raiseVec u (getF s (fQCTL_VEC c q))) ∧
      (qState s c q = qStopped → (getQ s c q).fetched = [] → nextIs (.queueResume c q) s fun t => qState t c q = qRunning ∧
        isSet t (fQCTL_EN c q) = isSet s (fQCTL_EN c q) ∧ getF t (fQCTL_VEC c q) = getF s (fQCTL_VEC c q) ∧
        onlyRegs s t [rQCTL c q, rQSTAT c q] ∧ { t with regs := s.regs } = s)) ∧
    (∀ (c : Fin 16) (v : BitVec 64), nextIs (.contextEnable c v) s fun t => isSet t (fCTXCTL_EN c) = true ∧
      getF t (fCTXCTL_YK8 c) = bitsOf v.toNat 62 62 ∧ getF t (fCTXCTL_MAXTASK c) = bitsOf v.toNat 44 32 ∧
      getBit t fHEDGEMISC_CTX c = (getBit s fHEDGEMISC_CTX c && isSet s (fCTXCTL_EN c)) ∧ onlyRegs s t [rCTXCTL c, rHEDGEMISC] ∧ { t with regs := s.regs, hedges := s.hedges } = s) ∧
    (∀ v : BitVec 64, bitOf v.toNat 0 ≠ isSet s fGATE_MODECFG_ORDERED →
      (unended s = [] → (∀ ch, ch < 64 → (getChan s ch).st = .idle) → bitOf v.toNat 1 = false → nextIs (.modecfgWrite v) s fun t =>
        isSet t fGATE_MODECFG_ORDERED = bitOf v.toNat 0 ∧ isSet t fGATE_MODECFG_ORDSTRICT = false ∧
        onlyRegs s t [rGATE_MODECFG] ∧ { t with regs := s.regs } = s) ∧
      (unended s ≠ [] → nextIs (.modecfgWrite v) s fun t => isSet t fGATE_MODECFG_ORDERED = isSet s fGATE_MODECFG_ORDERED ∧
        isSet t fGATE_MODECFG_REJ = true ∧ getF t fGATE_MODECFG_REJCNT = (getF s fGATE_MODECFG_REJCNT + 1) % 2 ^ 16 ∧
        onlyRegs s t [rGATE_MODECFG] ∧ { t with regs := s.regs } = s))

/-- Commands that complete at their acceptance (R354, R355, R361, R363, R364, R373, R483). -/
def Obligations.PlainCommandsComplete : Prop :=
  ∀ (s : State) (c : Fin 16) (q : Fin 8) (f : Fetched),
    let b := f.bytes
    let fits := fun (op : Nat) => atFront s c q f op ∧ firstBad (formChecks s c op b) = none
    let done := fun (u t : State) (status detail : Nat) => (getQ t c q).fetched = [] ∧
      (getQ t c q).recs = (getQ u c q).recs ++ [recOf (cmdOf u f) status detail] ∧ (getQ t c q).cmds = (getQ u c q).cmds ∧
      (∀ i j, (i, j) ≠ (c.val, q.val) → i < 16 → j < 8 → getQ t i j = getQ u i j) ∧ t.tasks = u.tasks ∧ t.streams = u.streams
    let sl := fld b 8 2
    (fits 0 → nextIs (.nop c q) s fun t => done s t 0 0 ∧ sameMemory s t ∧ onlyRegs s t [rQSTAT c q]) ∧
    (fits 3 → sl ≠ 0xFFFF → slotOpen s sl = false → nextIs (.openSeq c q) s fun t => done s t 0 sl ∧ sameMemory s t ∧ slotOpen t sl = true ∧
      slotCtx t sl = c ∧ getF t (fSEQA_CLASS sl) = fld b 10 1 ∧ getF t (fSEQB_DEADLINE sl) = fld b 12 3 ∧
      getF t (fSEQA_PTADDR sl) = fld b 16 8 / 64 % 2 ^ 42 ∧ getF t (fSEQB_LATECNT sl) = 0 ∧
      onlyRegs s t [rSEQA sl, rSEQB sl, rMTRNOW sl, rMTRHIST sl, rQSTAT c q]) ∧
    (fits 3 → sl ≠ 0xFFFF → slotOpen s sl = true → bitOf (fld b 1 1) 0 = false → nextIs (.openSeq c q) s fun t => done s t 1 0x01 ∧ sameMemory s t ∧
      regGet t (rSEQA sl) = regGet s (rSEQA sl) ∧ getF t fGATE_REJSTAT_CODE = 1) ∧
    (fits 4 → slotOpen s sl = true → slotCtx s sl = c → nextIs (.setSeq c q) s fun t => done s t 0 0 ∧ sameMemory s t ∧
      getF t (fSEQA_CLASS sl) = (if bitOf (fld b 24 1) 0 then fld b 10 1 else getF s (fSEQA_CLASS sl)) ∧
      getF t (fSEQB_DEADLINE sl) = (if bitOf (fld b 24 1) 1 then fld b 12 3 else getF s (fSEQB_DEADLINE sl)) ∧
      getF t (fSEQA_PTADDR sl) = (if bitOf (fld b 24 1) 2 then fld b 16 8 / 64 % 2 ^ 42 else getF s (fSEQA_PTADDR sl)) ∧
      slotOpen t sl = true ∧ onlyRegs s t [rSEQA sl, rSEQB sl, rMTRHIST sl, rQSTAT c q]) ∧
    (fits 5 → slotOpen s sl = true → slotCtx s sl = c → (∀ p ∈ unended s, sl ∉ p.2.body.seqs) → nextIs (.closeSeq c q) s fun t =>
      done s t 0 (getF s (fSEQB_LATECNT sl)) ∧ sameMemory s t ∧ slotOpen t sl = false ∧ onlyRegs s t [rSEQA sl, rQSTAT c q]) ∧
    (fits 7 → handleOk s c sl = true → (∀ p ∈ unended s, p.2.ctx = c → p.2.body.bin ≠ sl) → nextIs (.unloadBin c q) s fun t =>
      done s t 0 0 ∧ sameMemory s t ∧ (getBin t c (sl % 256)).loaded = false ∧ (getBin t c (sl % 256)).units = [] ∧
      (∀ i, i < 256 → i ≠ sl % 256 → getBin t c i = getBin s c i) ∧ onlyRegs s t [rQSTAT c q]) ∧
    (fits 6 → ∀ (st : Fin 4), let i := fld b 20 1
      let n := fld b 16 4
      let r := readDev s c (fld b 8 8) n st
      let units := (freeUnits s c).take ((n + 4095) / 4096)
      let g := ((getBin s c i).gen + 1) % 16
      (getBin s c i).loaded = false → areaOk s c = true → units.length = (n + 4095) / 4096 → readWaits s c (fld b 8 8) n = false → r.2.2 = 0 →
      r.1.still = true → nextIs (.loadBin c q st) s fun t => match checkBin r.1 r.2.1 n with
        | (_, some d) => done r.1 t 0 (i + 256 * g) ∧ (getBin t c i).loaded = true ∧ (getBin t c i).gen = g ∧
            (getBin t c i).units = units ∧ (getBin t c i).body = d
        | (cause, none) => done r.1 t 9 cause ∧ t.bins = s.bins)

/-- TASK, GRAPH and DMA_START (R352, R356, R361, R367, R371, R463); the nodes have been read before, while the queue was paused. -/
def Obligations.TasksAndChainsAreAccepted : Prop :=
  ∀ (s : State) (c : Fin 16) (q : Fin 8) (f : Fetched), 
    let cm := cmdOf s f
    let accepted := fun (t : State) (l : List Node) => (getQ t c q).fetched = [] ∧
      ∃ ids : List Nat, ids.length = l.length ∧ (getQ t c q).cmds = (getQ s c q).cmds ++ [{ cm with tasks := ids }] ∧
        ∀ x ∈ l.zip ids, ∃ tk, taskById t x.2 = some tk ∧ tk.body = x.1.body ∧ tk.preds = x.1.preds ∧ tk.node = x.1.idx ∧
          tk.st = .waiting ∧ tk.ctx = c ∧ tk.q = q ∧ tk.cmd = cm.key
    (∀ (st : Fin 4) (l : List Node), (getQ s c q).parsed = some l → taskRoom s c l.length = true → firstReject s c l = none →
      (∀ n ∈ l, readyNow s n.body ≠ 2) →
      (atFront s c q f 1 → nextIs (.task c q st) s fun t => accepted t l ∧ t.streams = s.streams ∧ sameMemory s t ∧
        ∀ i tk, getTask s i = some tk → getTask t i = some tk) ∧
      (atFront s c q f 2 → nextIs (.graph c q st) s fun t => accepted t l ∧ t.streams = s.streams ∧ sameMemory s t ∧
        ∀ i tk, getTask s i = some tk → getTask t i = some tk)) ∧
    (∀ (st : Fin 4) (l : List Node), (getQ s c q).parsed = some l → taskRoom s c l.length = false →
      (atFront s c q f 1 → nextIs (.task c q st) s fun t => qState t c q = qCapacity ∧ t.tasks = s.tasks ∧ (getQ t c q).fetched = [f]) ∧
      (atFront s c q f 2 → nextIs (.graph c q st) s fun t => qState t c q = qCapacity ∧ t.tasks = s.tasks ∧ (getQ t c q).fetched = [f])) ∧
    (atFront s c q f 9 → firstBad (formChecks s c 9 f.bytes) = none → let ch := fld f.bytes 8 2
      chanTakes s c ch = true → nextIs (.dmaStart c q) s fun t => getF t (fCHCTL_GEN ch) = (getF s (fCHCTL_GEN ch) + 1) % 16 ∧
        isSet t (fCHCTL_QUIET ch) = false ∧ getF t (fCHSTAT_DONEN ch) = 0 ∧ getF t (fCHSTAT_BADN ch) = 0 ∧
        (getChan t ch).st = .fetching ∧ (getChan t ch).addr = fld f.bytes 16 8 ∧ (getChan t ch).ctx = c ∧ (getChan t ch).q = q ∧
        (∀ j, j ≠ ch → getChan t j = getChan s j) ∧ (getQ t c q).cmds = (getQ s c q).cmds ++ [{ cm with chan := some ch }] ∧
        (getQ t c q).fetched = [] ∧ sameMemory s t)

/-- KILL and CTXKILL (R398 to R400). -/
def Obligations.KillsEndTasks : Prop :=
  (∀ (s : State) (c : Fin 16) (q : Fin 8) (f : Fetched) (tk : Task) (own : Cmd), atFront s c q f 8 → firstBad (formChecks s c 8 f.bytes) = none →
    let id := fld f.bytes 8 2
    id ≠ 0xFFFF → amGet (fun _ => 0) s.gens (id % 4096) = id / 4096 → taskById s id = some tk →
    (unended s).filter (fun p => p.2.id == id) = [(id % 4096, tk)] → tk.st = .waiting → tk.ctx = c → tk.q = q →
    tk.body.outs = [] → tk.saved = none → tk.node = none → (∀ p ∈ s.ops, p.2.task ≠ id) →
    (getQ s c q).cmds = [own] → own.opcode = 1 → own.key = tk.cmd →
    nextIs (.kill c q) s fun t => (getTask t (id % 4096)).map Task.st = some (.ended 7 0) ∧ (getQ t c q).fetched = [] ∧
      (getQ t c q).cmds = [] ∧ ((getQ t c q).recs.drop (getQ s c q).recs.length).map (fun r => (r.opcode, r.status, r.taskid)) = [(1, 7, id), (8, 0, 0)] ∧
      t.streams = s.streams ∧ sameMemory s t ∧ ∀ i, i ≠ id % 4096 → getTask t i = getTask s i) ∧
  (∀ (s : State) (c : Fin 16) (q : Fin 8) (f : Fetched), atFront s c q f 8 → firstBad (formChecks s c 8 f.bytes) = none →
    fld f.bytes 8 2 ≠ 0xFFFF → amGet (fun _ => 0) s.gens (fld f.bytes 8 2 % 4096) = fld f.bytes 8 2 / 4096 →
    (∀ p ∈ unended s, p.2.id ≠ fld f.bytes 8 2) → bitOf (fld f.bytes 1 1) 0 = false →
    nextIs (.kill c q) s fun t => (getQ t c q).recs = (getQ s c q).recs ++ [recOf (cmdOf s f) 1 9] ∧ t.tasks = s.tasks) ∧
  (∀ (s : State) (c : Fin 16) (v : BitVec 64), served s = true →
    (bitOf v.toNat 0 = false → exec (.ctxkill c v) s = .next s) ∧
    (bitOf v.toNat 0 = true → nextIs (.ctxkill c v) s fun t => ∀ q, q < 8 → qState t c q = qKilled))

/-- Polls, evaluations, retries and quarantine (R370, R371, R384, R396). -/
def Obligations.TaskTimersAct : Prop :=
  ∀ s : State, working s = true →
    (s.still = true → (∀ p ∈ watchers s, getTask s p.1 = some p.2) → (∀ p ∈ watchers s, readyNow s p.2.body ≠ 2) →
      whenDue (due s evReadiness 200) .readinessPoll s fun t => { t with tasks := s.tasks } = noteAt s evReadiness ∧
        (∀ p ∈ watchers s, getTask t p.1 = some { p.2 with word := readyNow s p.2.body }) ∧
        ∀ i, (∀ p ∈ watchers s, p.1 ≠ i) → getTask t i = getTask s i) ∧
    ((∀ p ∈ unended s, promotes s p.2 = false) → whenDue (due s evSlack 100) .deadlineSlackEvaluation s fun t => t = noteAt s evSlack) ∧
    (∀ i tk, (unended s).filter (fun p => promotes s p.2) = [(i, tk)] → whenDue (due s evSlack 100) .deadlineSlackEvaluation s fun t =>
      getTask t i = some { tk with dlprom := true } ∧ (∀ j, j ≠ i → getTask t j = getTask s j) ∧
      (∀ k, tk.st = .running k → getStr t k = { getStr s k with cls := 0 }) ∧ (∀ k, tk.st ≠ .running k → (∀ a b c, tk.st ≠ .preempting k a b c) →
        getStr t k = getStr s k) ∧ { t with tasks := s.tasks, streams := s.streams } = noteAt s evSlack) ∧
    (whenDue (due s evAging 100) .agingEvaluation s fun t => { t with ages := s.ages } = noteAt s evAging ∧ ∀ i, i < 384 →
      let a := amGet (fun _ => (⟨0, 0⟩ : Age)) s.ages i
      let b := amGet (fun _ => (⟨0, 0⟩ : Age)) t.ages i
      match waitingClass s (i / 128) (i % 128) with
      | none => b = ⟨0, a.boost⟩
      | some c => (c = 0 ∨ a.boost ≠ 0 → b = a) ∧
          (c ≠ 0 → a.boost = 0 → ageLimit s c = 0 ∨ a.age + 1 ≤ ageLimit s c → b = ⟨a.age + 1, 0⟩) ∧
          (c ≠ 0 → a.boost = 0 → ageLimit s c ≠ 0 → ageLimit s c < a.age + 1 → b = ⟨0, 64⟩)) ∧
    (∀ (i : Fin 4096) (tk : Task) (n : Nat), getTask s i = some tk → tk.st = .retrying n →
      ((∃ p ∈ s.ops, p.2.ofTask tk.id = true) ∨ tk.faults ≠ 0 → exec (.taskRetry i) s = .next s) ∧
      ((∀ p ∈ s.ops, p.2.ofTask tk.id = false) → tk.faults = 0 → nextIs (.taskRetry i) s fun t =>
        getTask t i = some { tk with st := .waiting } ∧ (∀ j, j ≠ i.val → getTask t j = getTask s j) ∧ { t with tasks := s.tasks } = s)) ∧
    (∀ (i : Fin 4096) (tk : Task), getTask s i = some tk →
      (tk.st.isEnded = false ∨ tick s < tk.endTick + 100000 ∨ recWaits s i = true ∨ (∃ p ∈ s.ops, p.2.ofTask tk.id = true) → exec (.taskIdQuarantineExpiry i) s = .next s) ∧
      (tk.st.isEnded = true → tk.endTick + 100000 ≤ tick s → recWaits s i = false → (∀ p ∈ s.ops, p.2.ofTask tk.id = false) →
        nextIs (.taskIdQuarantineExpiry i) s fun t => getTask t i = none ∧ (∀ j, j ≠ i.val → getTask t j = getTask s j) ∧
          { t with tasks := s.tasks } = s))

/-- Dispatch, save and resume (R350, R379, R391, R392), for tasks without a slot plan. -/
def Obligations.TasksStartAndLeaveStreams : Prop :=
  ∀ s : State, working s = true →
    (∀ (st : Fin 4) (i k : Nat) (tk : Task) (ks : List Nat), s.fatal = false → isSet s fGATE_DISPCFG_PREEN = false → chosen s = some (i, tk, k :: ks) →
      isPreempted tk = false → plansIn s tk = false → k < 16 →
      let r := if tk.body.plen = 0 then (s, [], 0) else readDev s tk.ctx tk.body.param (8 * tk.body.plen) st
      let n := (hostCores s tk.body.width k).length
      (tk.body.plen ≠ 0 → readWaits s tk.ctx tk.body.param (8 * tk.body.plen) = false) → r.2.2 = 0 → r.1.still = true →
      nextIs (.taskDispatch st) s fun t =>
        getTask t i = some { tk with st := .running k, last := some k, attempts := tk.attempts + 1, dispatched := tick r.1, collAt := none } ∧
        (∀ j, j ≠ i → getTask t j = getTask r.1 j) ∧ (∀ j, j ≠ k → getStr t j = getStr r.1 j) ∧ sameMemory r.1 t ∧
        (let x := getStr t k
         x.st = .running ∧ x.task = tk.id ∧ x.ctx = tk.ctx ∧ x.cls = eclass tk ∧ x.cores = hostCores s tk.body.width k ∧ x.tile = [] ∧ x.loops = [] ∧
           x.commit = [] ∧ x.wait = .none_ ∧ x.outs = outRanges tk.body (some k) ∧ x.nextSlot = (getStr r.1 k).now + 1 ∧ x.resident = some (binKey tk) ∧
           (∀ j, j < 32 → sreg x j = if tk.body.wreg = j then n else if 4 * j + 4 ≤ r.2.1.length then fld r.2.1 (4 * j) 4 else 0) ∧
           (∀ j, j < 16 → areg x j = if 136 + 8 * j ≤ r.2.1.length then fld r.2.1 (128 + 8 * j) 8 % 2 ^ 52 else 0)) ∧
        ∀ m ∈ hostCores s tk.body.width k, (getCore t m).tile = []) ∧
    (∀ (k : Fin 16) (i sl j : Nat) (tk : Task) (b : Option Nat) (m : Nat) (ms : List Nat),
      let x := getStr s k
      let off := slotOff s tk.ctx sl
      leaving s k = some (i, tk, sl, false) → s.orgErr = [] → tk.st = .preempting j sl false b → x.cores = m :: ms → off + 65536 ≤ sliceBytes →
      x.commit.length ≤ 256 → commitBytes x ≤ 16384 → x.loops.length ≤ 4 →
      nextIs (.preemptionSave k) s fun t => getTask t i = some { tk with st := .preempting j sl true b } ∧
        (∀ r, r < 32 → leVal (orgRead t (orgAddr m (off + 0x8800 + 4 * r)) 4) = sreg x r) ∧
        (∀ r, r < 16 → leVal (orgRead t (orgAddr m (off + 0x8880 + 8 * r)) 8) = areg x r) ∧
        leVal (orgRead t (orgAddr m (off + 0x8910)) 1) = x.loops.length ∧
        leVal (orgRead t (orgAddr m (off + 0x8914)) 4) = (x.preempt.getD x.nextPc) % 2 ^ 32 ∧
        leVal (orgRead t (orgAddr m (off + 0x8918)) 2) = x.commit.length ∧
        (∀ a, (∀ c ∈ x.cores, a < orgAddr c off ∨ orgAddr c (off + 65536) ≤ a) → orgByte t a = orgByte s a) ∧
        t.streams = s.streams ∧ t.cores = s.cores ∧ t.regs = s.regs ∧ t.dram = s.dram ∧ t.host = s.host) ∧
    (∀ (k : Fin 16) (i sl : Nat) (tk : Task), leaving s k = some (i, tk, sl, true) → (getStr s k).accounts = [] → (getStr s k).plan = [] →
      let x := getStr s k
      nextIs (.preemptionComplete k) s fun t =>
        getTask t i = some { tk with st := .preempted k sl, preempted := true, saved := some ⟨{ x with tile := restTile x }, x.cores.map (fun m => (m, keepCore s m))⟩ } ∧
        (getStr t k).st = .idle ∧ (∀ j, j ≠ k.val → getStr t j = getStr s j) ∧
        (∀ m, getCore t m = if m ∈ x.cores then { getCore s m with left := restTile x } else getCore s m) ∧ sameMemory s t ∧
        getF t fGATE_PREEMPTCNT_PREEMPTS = (getF s fGATE_PREEMPTCNT_PREEMPTS + 1) % 2 ^ 32) ∧
    (∀ (i k : Nat) (tk : Task) (ks : List Nat) (sv : Saved), s.fatal = false → s.still = true → k < 16 → chosen s = some (i, tk, k :: ks) → tk.saved = some sv →
      sv.stream.plan = [] → sv.stream.gone = [] → sv.stream.held = none → sv.stream.late = none → sv.stream.parked = none → (sv.cores.map Prod.fst).Nodup →
      (∀ p ∈ sv.cores, p.1 < 64) → (∀ p ∈ sv.cores, p.2.array.weights.act = none ∧ p.2.array.weights.pend = none ∧ p.2.valid = 0) → nextIs .taskResume s fun t =>
        let x := getStr t k
        getTask t i = some { tk with st := .running k, saved := none, dispatched := tick s, collAt := none } ∧
        x.st = .running ∧ x.wait = .none_ ∧ x.sregs = sv.stream.sregs ∧ x.aregs = sv.stream.aregs ∧ x.tile = sv.stream.tile ∧
        x.loops = sv.stream.loops ∧ x.commit = sv.stream.commit ∧ x.nextPc = sv.stream.nextPc ∧ (getStr s k).now < x.nextSlot ∧
        (∀ p ∈ sv.cores, (getCore t p.1).tile = p.2.tile) ∧ (∀ m, (∀ p ∈ sv.cores, p.1 ≠ m) → getCore t m = getCore s m) ∧
        (∀ j, j ≠ k → getStr t j = getStr s j) ∧ (∀ u ∈ t.slots, u.task ≠ i) ∧ sameMemory s t ∧
        getF t fGATE_PREEMPTCNT_RESUMES = (getF s fGATE_PREEMPTCNT_RESUMES + 1) % 2 ^ 32)

/-- Records, log entries and the switches of the rings (R357, R359, R608, R610, R638). -/
def Obligations.RecordsReachTheirRings : Prop :=
  ∀ s : State,
    (working s = true → s.fatal = false → ∀ (c : Fin 16) (q : Fin 8) (r : Rec), (getQ s c q).fetched = [] →
      nextRec s (getQ s c q) (getQ s c q).recs false = some r → recSilent r = false → r.seqs = [] →
      let n := cplEntries s c q
      let tl := getF s (fCPLPTR_CPLTAIL c q)
      let a := pcieAddr s (getF s (fCPLRING_ADDR c q) * 32 + 32 * (tl % n))
      let v := getF s (fQCTL_VEC c q)
      (ringFull s c q = true → exec (.completionRecordWrite c q) s = .next s) ∧
      (ringFull s c q = false → nextIs (.completionRecordWrite c q) s fun t =>
        let b := hostRead t a 32
        fld b 0 1 = r.status % 256 ∧ fld b 1 1 = r.opcode % 256 ∧ fld b 2 2 = r.tag % 65536 ∧ fld b 4 2 = r.taskid % 65536 ∧
        fld b 6 1 = (r.flags + if tl / n % 2 = 0 then 128 else 0) % 256 ∧ fld b 8 4 = min (tick s - r.doorbell) 0xFFFFFFFF ∧
        fld b 16 8 = r.detail % 2 ^ 64 ∧ (∀ x, x < a ∨ a + 32 ≤ x → hostByte t x = hostByte s x) ∧
        getF t (fCPLPTR_CPLTAIL c q) = (tl + 1) % 2 ^ 32 ∧ getF t (fCPLPTR_CPLHEAD c q) = getF s (fCPLPTR_CPLHEAD c q) ∧
        (getQ t c q).recs = dropRec r (getQ s c q).recs ∧ (∀ i, r.free = some i → getTask t i = none) ∧
        (∀ i, r.free ≠ some i → getTask t i = getTask s i) ∧ onlyRegs s t [rCPLPTR c q, rHOST_MSIXPBA (v / 64)] ∧
        t.msgs = s.msgs ++ (if s.pcie.msixEn && !s.pcie.msixMask && !(isSet s (fHOST_MSIXCTL_MASK v))
          then List.replicate ((if r.irq then 1 else 0) + if r.stops then 1 else 0) ((regGet s (rHOST_MSIXADDR v)).toNat, getF s (fHOST_MSIXCTL_DATA v)) else []) ∧
        { t with regs := s.regs, host := s.host, queues := s.queues, tasks := s.tasks, msgs := s.msgs, up := s.up } = s ∧
        t.up = s.up ++ [⟨true, a, 32, pasidOf s (some c.val)⟩])) ∧
    (working s = true → ∀ e es, s.logQ = e :: es →
      let tl := getF s fLOGPTR_TAIL
      let a := pcieAddr s (getF s fLOGRING_ADDR * 64 + tl % logSize s * 64)
      (isSet s fLOGRING_EN = false ∨ logSize s ≤ (tl + 2 ^ 32 - getF s fLOGPTR_HEAD) % 2 ^ 32 → exec .errorLogEntryWrite s = .next s) ∧
      (isSet s fLOGRING_EN = true → (tl + 2 ^ 32 - getF s fLOGPTR_HEAD) % 2 ^ 32 < logSize s → nextIs .errorLogEntryWrite s fun t =>
        let b := hostRead t a 64
        fld b 0 1 = e.kind % 256 ∧ fld b 1 1 = e.cause % 256 ∧ bitOf (fld b 3 1) 7 = decide (tl / logSize s % 2 = 0) ∧
        fld b 4 4 = e.res % 2 ^ 32 ∧ fld b 8 8 = e.tick % 2 ^ 64 ∧ fld b 24 8 = e.addr % 2 ^ 64 ∧
        (∀ x, x < a ∨ a + 64 ≤ x → hostByte t x = hostByte s x) ∧ t.logQ = es ∧ getF t fLOGPTR_TAIL = (tl + 1) % 2 ^ 32 ∧
        getF t fLOGPTR_HEAD = getF s fLOGPTR_HEAD ∧ isSet t (fHOST_IRQSRC_PEND 2) = true ∧
        getF t (fHOST_IRQSRC_COUNT 2) = (getF s (fHOST_IRQSRC_COUNT 2) + 1) % 2 ^ 32 ∧ t.org = s.org ∧ t.dram = s.dram ∧
        t.up = s.up ++ [⟨true, pcieAddr s (getF s fLOGRING_ADDR * 64 + tl % logSize s * 64 + 8), 56, none⟩, ⟨true, a, 8, none⟩])) ∧
    (∀ v : BitVec 64, served s = true → isSet s fLOGRING_EN = false → nextIs (.logringEnable v) s fun t =>
      isSet t fLOGRING_EN = true ∧ getF t fLOGRING_SIZE = bitsOf v.toNat 63 60 ∧ getF t fLOGRING_ADDR = bitsOf v.toNat 51 6 ∧
      getF t fLOGPTR_TAIL = 0 ∧ getF t fLOGPTR_HEAD = 0 ∧ onlyRegs s t [rLOGRING, rLOGPTR] ∧ { t with regs := s.regs } = s) ∧
    (∀ v : BitVec 64, servedAt s rTELRING = true → isSet s fTELRING_EN = false → nextIs (.telringEnable v) s fun t =>
      isSet t fTELRING_EN = true ∧ getF t fTELRING_SIZE = bitsOf v.toNat 63 60 ∧ getF t fTELRING_ADDR = bitsOf v.toNat 51 11 ∧
      getF t fTELSTAT_SEQ = 0 ∧ getF t fTELSTAT_MISSCNT = getF s fTELSTAT_MISSCNT ∧ onlyRegs s t [rTELRING, rTELSTAT] ∧
      { t with regs := s.regs, lodge := s.lodge } = s)

/-- The place of an entry in its ring (R422). -/
def Obligations.CreelEntriesAreWrittenAtTail : Prop :=
  ∀ (s : State) (c : Nat) (m : StageMsg), c < 576 → working s = true → s.still = true →
    let x := getCreel s c
    let size := crlS s c
    let e := m.bytes.length + 32
    let tl := getF s (crlTAIL c)
    let off := if tl + e ≤ size then tl else 0
    let read := fun (t : State) (o n : Nat) => if crlHost c then fromHost t (crlBase s c + o) n else orgRead t (crlBase s c + o) n
    let at_ := fun (o : Nat) => if crlHost c then pcieAddr s (crlBase s c + o) else crlBase s c + o
    m ∈ x.stage → stageReady s c x.stage = true → crlHedged s c = false →
    (ordered s = false → x.stage.head? = some m) → (ordered s = true → (∀ y ∈ x.stage, m.key ≤ y.key) ∧ (x.stage.filter (fun y => y.key == m.key)).head? = some m) →
    (x.stage.map StageMsg.order).Nodup →
    (∃ k, m.back = .commit k) ∨ (∃ op core d, m.back = .op op core ∧ findOp s op = some d ∧
      d.shares = [⟨core, .send c m.tag 0 m.bytes m.flags, none, .sent⟩] ∧ s.packets = []) →
    getF s (crlMSGS c) + 1 < 2 ^ 15 → getF s (crlOCC c) + e + (size - tl) < 2 ^ 21 → e ≤ size → tl < size → (size < tl + e → e ≤ tl ∧ size - tl < 8192) → e < 8192 →
    nextIs (.creelDelivery c) s fun t =>
      let b := read t off e
      fld b 0 1 = 1 ∧ fld b 1 1 = e / 32 ∧ fld b 4 2 = m.tag % 65536 ∧ fld b 6 2 = m.srcid % 65536 ∧ fld b 8 4 = x.written % 2 ^ 32 ∧
      b.drop 32 = m.bytes ∧
      (size < tl + e → fld (read t tl 32) 0 1 = 2 ∧ fld (read t tl 32) 1 1 = (size - tl) / 32) ∧
      (∀ i, (i < at_ off ∨ at_ off + e ≤ i) → (tl + e ≤ size ∨ i < at_ tl ∨ at_ tl + 32 ≤ i) →
        if crlHost c then hostByte t i = hostByte s i else orgByte t i = orgByte s i) ∧
      (if crlHost c then t.org = s.org else t.host = s.host) ∧ t.dram = s.dram ∧ t.wordMeta = s.wordMeta ∧
      getF t (crlTAIL c) = (if off + e = size then 0 else off + e) ∧ getF t (crlMSGS c) = getF s (crlMSGS c) + 1 ∧
      getF t (crlOCC c) = getF s (crlOCC c) + e + (if tl + e ≤ size ∨ x.entries = [] then 0 else size - tl) ∧
      (getCreel t c).out = x.out - e ∧ (getCreel t c).written = (x.written + 1) % 2 ^ 32 ∧
      (getCreel t c).stage = x.stage.filter (fun y => y.order != m.order) ∧
      (getCreel t c).entries.getLast? = some ⟨off, e, 0, x.written, m.srcid, tick s⟩ ∧
      (∀ j, j ≠ c → j < 576 → getCreel t j = getCreel s j) ∧ (∀ op core, m.back = .op op core → findOp t op = none)

/-- Switches, consumption and grants of creels (R418, R423, R425, R426, R434, R587). -/
def Obligations.CreelsOpenCloseAndGrant : Prop :=
  ∀ (s : State) (c : Nat), c < 576 →
    let others := fun (t : State) => ∀ j, j ≠ c → j < 576 → getCreel t j = getCreel s j
    let regs := [(crlEN c).reg, (crlTAIL c).reg, (crlPOOL c).reg, (crlMSGS c).reg]
    (∀ v : BitVec 64, served s = true → isSet s (crlEN c) = false →
      (isSet s (crlQUIET c) = false → exec (.creelEnable c v) s = .next s) ∧
      (isSet s (crlQUIET c) = true → nextIs (.creelEnable c v) s fun t => isSet t (crlEN c) = true ∧ isSet t (crlQUIET c) = false ∧
        getF t (crlGEN c) = (getF s (crlGEN c) + 1) % 16 ∧ getF t (crlCTX c) = bitsOf v.toNat 58 55 ∧
        getF t (crlSIZE c) = (if crlHost c then bitsOf v.toNat 47 44 else bitsOf v.toNat 43 40) ∧ getF t (crlHEAD c) = 0 ∧
        getF t (crlTAIL c) = 0 ∧ getF t (crlMSGS c) = 0 ∧ getF t (crlOCC c) = 0 ∧ getF t (crlPOOL c) = crlS t c ∧
        getCreel t c = Creel.reset ∧ ((getCreel s c).stage = [] → (getCreel s c).requests = [] → others t ∧ onlyRegs s t regs ∧
          { t with regs := s.regs, creels := s.creels } = s))) ∧
    (∀ v : BitVec 64, served s = true → isSet s (crlEN c) = true → nextIs (.creelDisable c v) s fun t => isSet t (crlEN c) = false ∧
      getF t (crlGEN c) = getF s (crlGEN c) ∧ getF t (crlPOOL c) = getF s (crlPOOL c) ∧ getCreel t c = { getCreel s c with cleared := tick s } ∧
      others t ∧ onlyRegs s t [(crlEN c).reg] ∧ { t with regs := s.regs, creels := s.creels } = s) ∧
    (working s = true →
      let past := ((getCreel s c).out = 0 ∧ crlTraffic s c = false) ∨ (getCreel s c).cleared + 100000 ≤ tick s
      (isSet s (crlEN c) = true ∨ isSet s (crlQUIET c) = true ∨ ¬ past → exec (.creelQuarantineEnd c) s = .next s) ∧
      (isSet s (crlEN c) = false → isSet s (crlQUIET c) = false → past → nextIs (.creelQuarantineEnd c) s fun t =>
        isSet t (crlQUIET c) = true ∧ isSet t (crlEN c) = false ∧ onlyRegs s t [(crlQUIET c).reg] ∧ { t with regs := s.regs } = s)) ∧
    (∀ (k : Fin 64) (v : BitVec 20), served s = true → c = 512 + k.val →
      (∀ e f rest, (getCreel s c).entries = e :: f :: rest → f.off = v.toNat → e.marker = 0 → e.off + e.size = f.off → f.off ≠ crlS s c →
        e.size ≤ getF s (crlOCC c) → 1 ≤ getF s (crlMSGS c) → getF s (crlPOOL c) + e.size < 2 ^ 21 →
        nextIs (.hostCreelHeadWrite k v) s fun t => getF t (crlHEAD c) = v.toNat ∧ getF t (crlTAIL c) = getF s (crlTAIL c) ∧
          (getCreel t c).entries = f :: rest ∧ getF t (crlPOOL c) = getF s (crlPOOL c) + e.size ∧
          getF t (crlOCC c) = getF s (crlOCC c) - e.size ∧ getF t (crlMSGS c) = getF s (crlMSGS c) - 1 ∧ others t ∧ onlyRegs s t regs ∧
          { t with regs := s.regs, creels := s.creels } = s) ∧
      ((∀ e ∈ (getCreel s c).entries, e.off ≠ v.toNat) → v.toNat ≠ getF s (crlTAIL c) → nextIs (.hostCreelHeadWrite k v) s fun t =>
        isSet t (fHCRLSTAT_HEADERR k) = true ∧ getF t (fHCRLSTAT_HEADCNT k) = (getF s (fHCRLSTAT_HEADCNT k) + 1) % 64 ∧
        getF t (crlHEAD c) = getF s (crlHEAD c) ∧ t.creels = s.creels ∧ sameMemory s t)) ∧
    (∀ (r : GrantReq) (rs : List GrantReq) (w : Who), working s = true → isSet s (crlEN c) = true → crlHedged s c = false →
      (getCreel s c).requests = r :: rs → r.dest = .own w → rs.length < 2048 →
      let g := min r.want (getF s (crlPOOL c) - 256)
      (g < r.short → exec (.creditGrant c) s = .next s) ∧
      (r.short ≤ g → nextIs (.creditGrant c) s fun t => getF t (crlPOOL c) = getF s (crlPOOL c) - g ∧ getF t (crlWAITREQ c) = rs.length ∧
        getCreel t c = { getCreel s c with requests := rs, out := (getCreel s c).out + g } ∧ others t ∧ onlyRegs s t [(crlPOOL c).reg] ∧
        t.tokens = s.tokens ++ [⟨s.nextTok, plotOf w, .grant w r.tag g, tick s⟩] ∧
        { t with regs := s.regs, creels := s.creels, tokens := s.tokens, nextTok := s.nextTok } = s))

/-- One sample of the Belvedere (R435 to R438); a declaration is stated for the case that one context is enabled. -/
def Obligations.TheBelvedereSamples : Prop :=
  ∀ s : State, working s = true → s.fatal = false →
    (isSet s fBELVCTL_EN = false → nextIs .belvedereSample s fun t => (∀ k, k < 16 → getStr t k = { getStr s k with bcnt := 0 }) ∧
      { t with streams := s.streams } = s) ∧
    (isSet s fBELVCTL_EN = true →
      let now := due s evSample (100 * max 1 (getF s fBELVCTL_SAMPLE))
      let counts := fun (t : State) => ∀ k, k < 16 → let x := getStr s k
        getStr t k = (if x.st = .idle then { x with issued := false }
          else { x with issued := false, bcnt := if x.issued = true ∨ blockedOn x = 0 then 0 else min (x.bcnt + 1) 65535 })
      ((∀ c, c < 16 → isSet s (fBELVCTX_EN c) = false) → whenDue now .belvedereSample s fun t => counts t ∧
        (∀ m, m < 64 → (getCore t m).handled = if (getCore s m).handled = [] then [] else stillRuns s (getCore s m)) ∧ t.belvIssued = [] ∧
        (∀ c, c < 16 → amGet (fun _ => true) t.belvArmed c =
          (amGet (fun _ => true) s.belvArmed c || s.belvIssued.contains c || (streamsOf s c).any (fun k => (getStr s k).issued))) ∧
        sameMemory s t ∧ t.regs = s.regs) ∧
      (∀ c, c < 16 → isSet s (fBELVCTX_EN c) = true → (∀ j, j < 16 → j ≠ c → isSet s (fBELVCTX_EN j) = false) →
        amGet (fun _ => true) s.belvArmed c = true → c ∉ s.belvIssued → streamsOf s c ≠ [] →
        (∀ k ∈ streamsOf s c, (getStr s k).issued = false ∧ blockedOn (getStr s k) ≠ 0 ∧
          max 1 (getF s fBELVCTL_THRESH) ≤ min ((getStr s k).bcnt + 1) 65535) →
        (∀ p ∈ taskList s, p.2.ctx = c → taskReady p.2 = false) → (∀ m, m < 64 → c ∉ (getCore s m).handled) →
        getF s (fBELVCTX_ADDR c) ≠ 0 → whenDue now .belvedereSample s fun t => counts t ∧
          getF t fBELVCNT_DECL = (getF s fBELVCNT_DECL + 1) % 2 ^ 32 ∧ isSet t (fHOST_IRQSRC_PEND 0) = true ∧
          amGet (fun _ => true) t.belvArmed c = false ∧ t.org = s.org ∧ t.dram = s.dram ∧
          (let b := hostRead t (pcieAddr s (getF s (fBELVCTX_ADDR c) * 64)) 16
           fld b 0 1 = 1 ∧ fld b 1 1 = c ∧ fld b 2 1 = (streamsOf s c).length ∧
             fld b 4 4 = (amGet (fun _ => 0) s.belvCount c + 1) % 2 ^ 32 ∧ fld b 8 8 = tick s) ∧
          (let a := pcieAddr s (getF s (fBELVCTX_ADDR c) * 64)
           (∀ x, x < a ∨ a + 1088 ≤ x → hostByte t x = hostByte s x) ∧ t.up = s.up ++ [⟨true, a, 1088, pasidOf s (some c)⟩])))

/-- Sub-bank grants and promenade hops (R252, R253, R256 to R258, R261 to R265, R268, R269, R287). -/
def Obligations.SubBankGrantsAndHops : Prop :=
  ∀ s : State,
    (working s = true → ∀ (sl : Fin 64) (sub : Fin 128) (d : Nat),
      let key := 128 * sl.val + sub.val
      let u := passCycles s sl d
      let l := (eligible sl sub [] u.bankq).map .fe ++ turnsAt u key
      let granted := grantBank (amGet (fun _ => 0) u.bankRR key) l
      (subFree u key = false ∨ l = [] → exec (.dynamicSubBankGrant sl sub d) s = .next u) ∧
      (∀ w, granted = some w → w ∈ l ∧ ∀ y ∈ l, w.cls ≤ y.cls) ∧
      (∀ (b : BankReq) (v : BitVec 64) (op : Nat) (o : DynOp), subFree u key = true → granted = some (.fe b) →
        b.acc = .fill v → b.dest = .remote op → findOp u op = some o → metaOf u b.addr = .empty → bankHedged u b.addr = false →
        (∀ w ∈ u.waiters, w.word ≠ b.addr) → ordered u = false → u.still = true →
        nextIs (.dynamicSubBankGrant sl sub d) s fun t => wordVal t b.addr = v.toNat ∧ metaOf t b.addr = .full ∧
          (∀ z, z ≠ b.addr → metaOf t z = metaOf u z) ∧ (∀ x, x < b.addr ∨ b.addr + 8 ≤ x → orgByte t x = orgByte u x) ∧
          t.bankq = removeFirst b u.bankq ∧ t.tokens = u.tokens ++ [⟨u.nextTok, plotOf o.who, .reply op (.ok 0), tick u⟩] ∧
          t.regs = u.regs ∧ t.dram = u.dram ∧ t.host = u.host ∧ t.streams = u.streams ∧ t.cores = u.cores) ∧
      (∀ (cls ag op core : Nat) (o : DynOp) (x : Share) (p : Nat × Nat × Nat) (pos : Nat), subFree u key = true → granted = some (.xfer cls ag op core) →
        findOp u op = some o → shareOf u op core = some x → turnOf u op o x = some (p, pos) →
        (dropPieces p.2.2 (readyPieces u op o x)).isEmpty = false → orgAssigned p.1 = true → orgAssigned p.2.1 = true →
        p.1 % 32 + p.2.2 ≤ 32 → p.2.1 % 32 + p.2.2 ≤ 32 → orgHedged u p.1 p.2.2 = false → orgHedged u p.2.1 p.2.2 = false → u.orgErr = [] → u.still = true →
        nextIs (.dynamicSubBankGrant sl sub d) s fun t => (∀ j, j < p.2.2 → orgByte t (p.2.1 + j) = orgByte u (p.1 + j)) ∧
          (∀ a, a < p.2.1 ∨ p.2.1 + p.2.2 ≤ a → orgByte t a = orgByte u a) ∧ t.wordMeta = u.wordMeta ∧
          (shareOf t op core).map Share.st = some (.waiting (pos + p.2.2)) ∧ t.bankq = u.bankq ∧ t.dram = u.dram ∧ t.host = u.host)) ∧
    (∀ (sl : Fin 64) (sub : Fin 128) (d : Nat) (o : Fin 480) (n : Nat), paused s = true →
      exec (.dynamicSubBankGrant sl sub d) s = .next s ∧ exec (.packetHop o n) s = .next s) ∧
    (working s = true → (∀ r ∈ s.slaRuns, r.sent = false) → ∀ (o : Fin 480) (n : Nat),
      let f := s.frame + n
      let slot := f % 16
      let hs := headsFor s o f
      let last := amGet (fun _ => 0) s.stallAt o
      let used := amGet (fun _ => 0) s.outAt o = f + 1
      let reserved := o.val < 224 ∧ getBit s (fORG_PLANMASK_MASK o) slot = true
      let free := fun (p : PromPkt) => hasCredit s o p && inputFree s f p
      let stalls := fun (t : State) (k : Nat) => (o.val < 224 → getF t (fORG_LSTALL_CYCLES o) =
          (getF s (fORG_LSTALL_CYCLES o) + (if last = 0 ∨ hs = [] then 0 else f - last) + if last = f + 1 then 0 else k) % 2 ^ 64) ∧
        amGet (fun _ => 0) t.stallAt o = (if k = 0 then 0 else f + 1) ∧ (∀ j, j ≠ o.val → amGet (fun _ => 0) t.stallAt j = amGet (fun _ => 0) s.stallAt j) ∧
        onlyRegs s t (if o.val < 224 then [rORG_LSTALL o] else []) ∧ t.frame = f ∧
        { t with regs := s.regs, packets := s.packets, hopRR := s.hopRR, outAt := s.outAt, inAt := s.inAt, stallAt := s.stallAt, frame := s.frame } = s
      let moved := fun (t : State) (p : PromPkt) => ∃ a b, s.packets = a ++ p :: b ∧ p ∉ a ∧ nextOut p = o ∧ p.ready ≤ f ∧
        (o.val < 224 → p.at_ < 64 → p.dst < 64 → p.at_ = (linkEnds o).1) ∧ amGet (fun _ => 0) t.outAt o = f + 1 ∧
        t.packets = a ++ b ++ (if o.val < 224 then [{ p with at_ := (linkEnds o).2, inp := inputOf o, ready := f + 2 }] else [])
      (used → exec (.packetHop o n) s = .next { s with frame := f }) ∧
      (¬ used → hs = [] → nextIs (.packetHop o n) s fun t => stalls t 0 ∧ t.packets = s.packets) ∧
      (∀ p, ¬ used → hs = [p] → p.inp < 8 → p.cls ≤ 4 → ¬ reserved →
        (free p = true → nextIs (.packetHop o n) s fun t => stalls t 0 ∧ moved t p) ∧
        (free p = false → nextIs (.packetHop o n) s fun t => stalls t 1 ∧ t.packets = s.packets)) ∧
      (∀ p q, ¬ used → hs = [p, q] → p.inp < 8 → p.cls < q.cls → p.cls ≤ 4 → free p = true → ¬ reserved →
        nextIs (.packetHop o n) s fun t => stalls t 1 ∧ moved t p) ∧
      (∀ p, ¬ used → hs = [p] → p.inp < 8 → reserved →
        let own := bitsOf (getF s (fORG_PLANOWN_OWNER o)) (4 * slot + 3) (4 * slot)
        (p.own = false ∨ p.stream ≠ own → nextIs (.packetHop o n) s fun t => stalls t 1 ∧ t.packets = s.packets) ∧
        (p.own = true → p.stream = own → free p = true → nextIs (.packetHop o n) s fun t => stalls t 0 ∧ moved t p)))

/-- Scrubbing, metadata and readiness of the Orangery (R273, R274, R276 to R278). -/
def Obligations.OrangeryWordsAreScrubbedAndSet : Prop :=
  ∀ s : State,
    (working s = true → ∀ (sl : Fin 64),
      let n := amGet (fun _ => 0) s.scrubAt sl.val
      let a := orgAddr sl (32 * n)
      (∀ errs, (isSet s fORG_SCRUBCTL_EN = false ∨ accessFree (upsetWords s sl errs) sl (n % 128) = false ∨ orgScrubDue s sl = false) →
        exec (.scrubRead sl errs) s = .next (upsetWords s sl errs)) ∧ upsetWords s sl [] = s ∧
      (isSet s fORG_SCRUBCTL_EN = true → orgScrubDue s sl = true → n < sliceSectors → (∀ p ∈ s.orgErr, p.1 + 8 ≤ a ∨ a + 32 ≤ p.1) →
        let on := fun (t : State) => amGet (fun _ => 0) t.scrubAt sl.val = (n + 1) % sliceSectors ∧ sameMemory s { t with org := s.org, orgErr := s.orgErr }
        (accessFree s sl (n % 128) = true → nextIs (.scrubRead sl []) s fun t => on t ∧ { t with scrubAt := s.scrubAt, lastAt := s.lastAt, bankAt := s.bankAt } = s) ∧
        (∀ i : Fin 4, accessFree (upsetWords s sl [(4 * n + i.val, false)]) sl (n % 128) = true → nextIs (.scrubRead sl [(4 * n + i.val, false)]) s fun t =>
          on t ∧ t.org = s.org ∧ orgErrAt t (a + 8 * i.val) = 1 ∧ a + 8 * i.val ∈ t.orgWb ∧
          getF t (fSLC_CECNT_COUNT sl) = (getF s (fSLC_CECNT_COUNT sl) + 1) % 2 ^ 32 ∧ onlyRegs s t [rSLC_CECNT sl]) ∧
        (∀ i : Fin 4, accessFree (upsetWords s sl [(4 * n + i.val, true)]) sl (n % 128) = true → nextIs (.scrubRead sl [(4 * n + i.val, true)]) s fun t =>
          on t ∧ (∀ x, x / 8 ≠ a / 8 + i.val → orgByte t x = orgByte s x) ∧ orgErrAt t (a + 8 * i.val) = 2 ∧ t.orgWb = s.orgWb ∧
          isSet t (fSLC_UELAST_UE sl) = true ∧ getF t (fSLC_UELAST_ADDR sl) = (a + 8 * i.val) / 8 % 2 ^ 28 ∧
          getF t (fSLC_UECNT_COUNT sl) = (getF s (fSLC_UECNT_COUNT sl) + 1) % 2 ^ 32))) ∧
    (working s = true → ∀ (sl : Fin 64),
      (s.orgWb.find? (fun a => orgSlice a == sl.val) = none → exec (.correctedWriteback sl) s = .next s) ∧
      (∀ a, s.orgWb.find? (fun a => orgSlice a == sl.val) = some a →
        (accessFree s sl (orgOff a / 32 % 128) = false → exec (.correctedWriteback sl) s = .next s) ∧
        (accessFree s sl (orgOff a / 32 % 128) = true → orgErrAt s a = 1 → amWf (fun _ => 0) s.orgErr = true →
          nextIs (.correctedWriteback sl) s fun t => orgErrAt t a = 0 ∧
          (∀ z, z / 8 ≠ a / 8 → orgErrAt t z = orgErrAt s z) ∧ a ∉ t.orgWb ∧ { t with orgErr := s.orgErr, orgWb := s.orgWb, bankAt := s.bankAt } = s))) ∧
    (served s = true → ∀ v : BitVec 64,
      let a := getF s fORG_MDADDR_ADDR * 8
      (orgAssigned a = false → nextIs (.mdvalWrite v) s fun t => isSet t fORG_HOLESTAT_HOLE = true ∧
        getF t fORG_HOLESTAT_HOLECNT = (getF s fORG_HOLESTAT_HOLECNT + 1) % 2 ^ 16 ∧ onlyRegs s t [rORG_HOLESTAT] ∧ { t with regs := s.regs } = s) ∧
      (orgAssigned a = true → bankHedged s a = true → exec (.mdvalWrite v) s = .next s) ∧
      (orgAssigned a = true → bankHedged s a = false → s.still = true → (∀ w ∈ s.waiters, w.word ≠ a) → (∀ p ∈ watchers s, p.2.body.ready ≠ a) →
        nextIs (.mdvalWrite v) s fun t => metaOf t a = (if bitOf v.toNat 1 then .poisoned else if bitOf v.toNat 0 then .full else .empty) ∧
          (∀ z, z ≠ a → metaOf t z = metaOf s z) ∧ (∀ x, orgByte t x = orgByte s x) ∧ t.regs = s.regs ∧ t.dram = s.dram ∧ t.host = s.host ∧
          t.streams = s.streams ∧ t.tasks = s.tasks)) ∧
    (working s = true → ∀ (sl : Fin 64),
      (getBit s fORG_ORGREADY_READY sl = true → exec (.sliceReady sl) s = .next s) ∧
      (getBit s fORG_ORGREADY_READY sl = false → hedgedAt s 4 sl = false → s.canonical = true → nextIs (.sliceReady sl) s fun t =>
        getBit t fORG_ORGREADY_READY sl = true ∧ (∀ j, j < 64 → j ≠ sl.val → getBit t fORG_ORGREADY_READY j = getBit s fORG_ORGREADY_READY j) ∧
        (∀ a, orgByte t a = if orgSlice a = sl.val then 0#8 else orgByte s a) ∧
        (∀ w, metaOf t w = if orgSlice w = sl.val then .empty else metaOf s w) ∧ t.dram = s.dram ∧ t.host = s.host ∧ t.canonical = true))

/-- The stacks' own events (R291, R292, R329, R330, R332, R335 to R337). -/
def Obligations.DramStacksTendThemselves : Prop :=
  ∀ (s : State) (k : Fin 32), working s = true →
    (∀ (pc : Fin 64) (bank : Fin 16), nextIs (.dramRefresh k pc bank) s fun t => { t with refreshed := s.refreshed } = s ∧
      ∀ i, amGet (fun _ => 0) t.refreshed i = if i = 1024 * k.val + 16 * pc.val + bank.val then tick s else amGet (fun _ => 0) s.refreshed i) ∧
    (∀ deg : Fin 256, whenDue (due s (evTemp k) 100000) (.dramTemperatureSample k deg) s fun t => getF t (fSTK_TEMP_DEGC k) = deg ∧
      isSet t (fSTK_STAT_REFX2 k) = decide (85 < deg.val) ∧ isSet t (fSTK_STAT_THROT k) = decide (95 < deg.val) ∧
      getF t (fSTK_STAT_READY k) = getF s (fSTK_STAT_READY k) ∧ getF t (fSTK_STAT_HEDGED k) = getF s (fSTK_STAT_HEDGED k) ∧
      getF t (fSTK_STAT_LINKDEG k) = getF s (fSTK_STAT_LINKDEG k) ∧ onlyRegs s t [rSTK_TEMP k, rSTK_STAT k] ∧ { t with regs := s.regs } = noteAt s (evTemp k)) ∧
    (let n := getF s (fSTK_SCRUBPOS_NEXT k)
     let at_ := fun (pc : Nat) => (64 * n / 4096 * 262144 + pc * 4096 + 64 * n % 4096) / 64
     (isSet s fSLA_SCRUBCTL_EN = false ∨ dramScrubDue s k = false → exec (.dramScrubRead k []) s = .next s) ∧
     (isSet s fSLA_SCRUBCTL_EN = true → dramScrubDue s k = true → n < pcBlocks → (∀ pc, pc < 64 → dramErrAt s (blockDpa k pc n) = 0) →
       (∀ pc, pc < 64 → dramFails s (blockDpa k pc n) = false ∧ dramWaits s (blockDpa k pc n) = false) →
       let on := fun (t : State) => getF t (fSTK_SCRUBPOS_NEXT k) = (if n + 1 = pcBlocks then 0 else n + 1) ∧
         getF t (fSTK_SCRUBPOS_PASSES k) = (getF s (fSTK_SCRUBPOS_PASSES k) + if n + 1 = pcBlocks then 1 else 0) % 2 ^ 32 ∧
         getF t (fSTK_RDBYTES_COUNT k) = (getF s (fSTK_RDBYTES_COUNT k) + 64 * 64) % 2 ^ 64 ∧ t.org = s.org ∧ t.host = s.host
       let quiet := fun (t : State) => onlyRegs s t [rSTK_SCRUBPOS k, rSTK_RDBYTES k] ∧
         { t with regs := s.regs, lastAt := s.lastAt, dram := s.dram } = s
       (nextIs (.dramScrubRead k []) s fun t => on t ∧ quiet t ∧ t.dram = s.dram) ∧
       (∀ pc : Fin 64, nextIs (.dramScrubRead k [(at_ pc, .correctable)]) s fun t => on t ∧ dramErrAt t (blockDpa k pc n) = 1 ∧ t.dram = s.dram ∧
         dramBlock (blockDpa k pc n) ∈ t.dramWb ∧ getF t (fSTK_CECNT_COUNT k) = (getF s (fSTK_CECNT_COUNT k) + 1) % 2 ^ 32) ∧
       (∀ (pc : Fin 64) (bs : List Byte), bs.length = 64 → nextIs (.dramScrubRead k [(at_ pc, .silent bs)]) s fun t => on t ∧ quiet t ∧
         (∀ i : Fin 64, some (dramByte t (blockDpa k pc n + i.val)) = bs[i.val]?) ∧
         ∀ d, (d < blockDpa k pc n ∨ blockDpa k pc n + 64 ≤ d) → dramByte t d = dramByte s d))) ∧
    (∀ d, s.dramWb.find? (fun d => dpaStack d == k.val) = some d → dramErrAt s d = 1 → nextIs (.dramCorrectedWriteback k) s fun t =>
      dramErrAt t d = 0 ∧ (∀ e, dramBlock e ≠ dramBlock d → dramErrAt t e = dramErrAt s e) ∧ d ∉ t.dramWb ∧
      { t with dramErr := s.dramErr, dramWb := s.dramWb } = s) ∧
    (∀ (pc : Fin 64) (bank : Fin 16) (row : Fin 36864), let key := 64 * k.val + pc.val
      let r := bank.val * 65536 + row.val
      (hedgedAt s 5 key = false → exec (.rowSparing k pc bank row) s = .next s) ∧
      (hedgedAt s 5 key = true → s.lodge.dramSpares = [] → nextIs (.rowSparing k pc bank row) s fun t =>
        t.lodge.dramSpares = [(key, r)] ∧ getF t (fSTK_SPARED_ROWS k) = 1 ∧ getF t (fSTK_SPARED_LEFT k) = 31 ∧ t.dram = s.dram ∧
        t.org = s.org ∧ t.host = s.host)) ∧
    (nextIs (.dieLinkReplay k) s fun t => getF t (fSTK_LINKCNT_CRC k) = (getF s (fSTK_LINKCNT_CRC k) + 1) % 2 ^ 32 ∧
      getF t (fSTK_LINKCNT_REPLAY k) = (getF s (fSTK_LINKCNT_REPLAY k) + 1) % 2 ^ 32 ∧ onlyRegs s t [rSTK_LINKCNT k] ∧ { t with regs := s.regs } = s) ∧
    (∀ (up : Bool) (lane : Fin 264), let f := if up then fSTK_LINKSTAT_SPUP k else fSTK_LINKSTAT_SPDN k
      getF s f < 8 → k.val ∉ s.lodge.linkWait → nextIs (.dieLinkLaneSpare k up lane) s fun t => getF t f = getF s f + 1 ∧
        isSet t (fSTK_STAT_LINKDEG k) = true ∧ t.lodge.linkWait = s.lodge.linkWait ++ [k.val] ∧ sameMemory s t) ∧
    (nextIs (.dieLinkRetrainDone k) s fun t => k.val ∉ t.lodge.linkWait ∧ (∀ j, j ≠ k.val → (j ∈ t.lodge.linkWait ↔ j ∈ s.lodge.linkWait)) ∧
      { t with lodge := s.lodge } = s) ∧
    ((stackReady s k = true → exec (.stackReady k) s = .next s) ∧
     (stackReady s k = false → stackHedged s k = false → s.canonical = true → nextIs (.stackReady k) s fun t => stackReady t k = true ∧
       isSet t (fSTK_STAT_READY k) = true ∧ isSet t (fSTK_STAT_TRAIN k) = false ∧
       (∀ d, dramByte t d = if dpaStack d = k.val then 0#8 else dramByte s d) ∧ t.org = s.org ∧ t.host = s.host ∧ t.canonical = true))

/-- A slath request from its check to its result (R285, R304, R305, R309, R310, R312, R325), for an array sum of one piece of space 0x2. -/
def Obligations.SlathRequestsRunInUnits : Prop :=
  ∀ (s : State) (op : Nat) (core : Fin 64) (d : DynOp) (k : Fin 16) (req ares srl w : Nat) (body : List Byte), working s = true → s.fatal = false → s.still = true →
    findOp s op = some d → d.who = .stream k → d.held = false → d.count = false → s.orgErr = [] →
    metaOf s w = .empty → bankHedged s w = false → (∀ z ∈ s.waiters, z.word ≠ w) → ordered s = false →
    body.length = 64 → let r := readSub body
    let done := fun (t : State) (v : Nat) (m : WMeta) => findOp t op = none ∧ wordVal t w = v ∧ metaOf t w = m ∧
      (∀ z, z ≠ w → metaOf t z = metaOf s z) ∧ t.dram = s.dram ∧ t.host = s.host
    (d.shares = [⟨core, .slath req 64 ares srl body, some w, .waiting 0⟩] → s.packets = [] → slaRunOf s op core = none → orgHedged s req 64 = false →
      (∀ c, firstCheck s d.ctx r = c → c ≠ 0 → s.units = [] → (∀ p ∈ watchers s, p.2.body.ready ≠ w) → nextIs (.slathRequestCheck op core) s fun t => done t (6 * 2 ^ 56) .poisoned ∧
        isSet t fSLA_REJ_REJFLAG = true ∧ getF t fSLA_REJ_REJCNT = (getF s fSLA_REJ_REJCNT + 1) % 2 ^ 32 ∧ getF t fSLA_REJ_CAUSE = c ∧
        getF t fSLA_REJ_CTX = d.ctx % 16 ∧ (∀ b, b < w ∨ w + 8 ≤ b → orgByte t b = orgByte s b)) ∧
      (firstCheck s d.ctx r = 0 → r.op = 9 → spaceOf r.daddr = 2 → r.daddr % 4096 + 4 * r.cnt0 ≤ 4096 →
        bitsOf r.daddr 47 41 = 0 → bitsOf r.daddr 35 0 < stackBytes → nextIs (.slathRequestCheck op core) s fun t =>
          t.units = s.units ++ [⟨op, core, 0, 0, bitsOf r.daddr 40 36, d.cls, k, 0, 0, 2, [], []⟩] ∧
          slaRunOf t op core = some ⟨op, core, [SubRun.fresh r], none, [], false⟩ ∧ sameMemory s t ∧ t.regs = s.regs ∧ (findOp t op).isSome = true ∧
          ∃ p : PromPkt, t.packets = [p] ∧ p.op = op ∧ p.core = core.val ∧ p.dst = portSlice (bitsOf r.daddr 40 36))) ∧
    (∀ (st : Fin 32), (∀ u ∈ s.units, u.stack = st.val → u.st ≠ 1) →
      (nextUnit s st = none → exec (.workUnitStart st) s = .next s) ∧
      (∀ u x, nextUnit s st = some u → u.op = op → unitSub s u = some x → x.r.op = 9 → u.idx = 0 → spaceOf x.r.daddr = 2 → x.r.daddr < 2 ^ 52 →
        x.r.daddr % 4096 + 4 * x.r.cnt0 ≤ 4096 → 1 ≤ x.r.cnt0 → bitsOf x.r.daddr 47 41 = 0 → bitsOf x.r.daddr 35 0 < stackBytes → u.data = [] →
        (∀ v ∈ s.units, sameUnit v u = true → v = u) →
        let a := dpaOf (bitsOf x.r.daddr 40 36) (bitsOf x.r.daddr 35 0)
        (dramWanted s st (workClass s op) = true → exec (.workUnitStart st) s = .next s) ∧
        (dramWanted s st (workClass s op) = false → s.dramErr = [] → dramFails s a = false →
        u ∈ s.units ∧ u.stack = st ∧ u.st = 0 ∧ (∀ v ∈ s.units, v.stack = st.val → v.st = 0 → unitReady s v = true → workClass s u.op ≤ workClass s v.op) ∧
        nextIs (.workUnitStart st) s fun t =>
          (let vals := (List.range x.r.cnt0).map (fun i => (sext 32 (leVal (dramRead s (a + 4 * i) 4)), false))
           t.units = s.units.map (fun v => if v = u then { u with st := 1, status := 0, vals := vals } else v)) ∧
          getF t (fSTK_RDBYTES_COUNT (dpaStack a)) = (getF s (fSTK_RDBYTES_COUNT (dpaStack a)) + 4 * x.r.cnt0) % 2 ^ 64 ∧
          sameMemory s t ∧ t.ops = s.ops))) ∧
    (∀ (st : Fin 32) (u : WUnit), s.units.find? (fun v => v.stack == st.val && v.st == 1) = some u → (∃ v ∈ s.units, v.stack = st.val ∧ v.st = 1) →
      exec (.workUnitStart st) s = .next s) ∧
    (∀ (st : Fin 32) (ns : Nat) (u : WUnit) (x : SubRun), s.units.find? (fun v => v.stack == st.val && v.st == 1) = some u →
      let counted := fun (t : State) => getF t (fSTK_UNITCNT_COUNT st) = (getF s (fSTK_UNITCNT_COUNT st) + 1) % 2 ^ 64 ∧
        getF t (fSTK_BUSYNS_COUNT st) = (getF s (fSTK_BUSYNS_COUNT st) + ns) % 2 ^ 64
      (s.lodge.linkWait.contains st.val = true → exec (.workUnitDone st ns) s = .next s) ∧
      (s.lodge.linkWait.contains st.val = false → u.op = op → u.core = core → d.shares = [⟨core, .slath req 64 ares srl body, some w, .sent⟩] →
      ((∃ v ∈ s.units, v.op = op ∧ v.core = core ∧ v.st ≠ 2 ∧ sameUnit v u = false) → (slaRunOf s op core).isSome = true →
        nextIs (.workUnitDone st ns) s fun t => counted t ∧ t.units = s.units.map (fun v => if sameUnit v u then { u with st := 2 } else v) ∧
          { t with units := s.units, regs := s.regs } = s) ∧
      (∀ pt rf, s.units.filter (fun v => v.op == op && v.core == core.val) = [u] → slaRunOf s op core = some ⟨op, core, [x], pt, rf, false⟩ →
        u.sub = 0 → x.r.op = 9 → x.status = 0 → x.rejected = false → spaceOf ares = 0 →
        nextIs (.workUnitDone st ns) s fun t => counted t ∧ t.units = s.units.map (fun v => if sameUnit v u then { u with st := 2 } else v) ∧
          slaRunOf t op core = some ⟨op, core, [x], pt, rf, true⟩ ∧ findOp t op = some d ∧ sameMemory s t ∧
          ∃ p : PromPkt, t.packets = s.packets ++ [p] ∧ p.op = op ∧ p.core = core.val ∧ p.at_ = portSlice st ∧ p.dst = orgSlice ares % 64 ∧ p.out = 0))) ∧
    (∀ (o : Fin 480) (n : Nat) (u : WUnit) (x : SubRun) (p : PromPkt) (run : SlaRun), d.shares = [⟨core, .slath req 64 ares srl body, some w, .sent⟩] →
      s.packets = [p] → p.op = op → p.core = core.val → nextOut p = o → 224 ≤ o.val → p.ready ≤ s.frame + n → p.inp < 8 → p.cls ≤ 4 →
      amGet (fun _ => 0) s.outAt o.val ≠ s.frame + n + 1 → inputFree s (s.frame + n) p = true →
      s.slaRuns = [run] → run.op = op → run.core = core.val → run.subs = [x] → run.sent = true → s.units = [u] → u.op = op → u.core = core.val → u.st = 2 → u.sub = 0 →
      u.status = 0 → x.r.op = 9 → x.status = 0 → x.rejected = false → 64 ≤ srl → orgHedged s ares 64 = false → w + 8 ≤ ares ∨ ares + 64 ≤ w →
      nextIs (.packetHop o n) s fun t => done t 64 .full ∧ t.packets = [] ∧ t.slaRuns = [] ∧ t.units = [] ∧
        (let b := orgRead t ares 64
         fld b 0 1 = 0 ∧ fld b 1 1 = 9 ∧ fld b 4 4 = 8 ∧ fld b 8 4 = 0 ∧ fld b 12 4 = 1 ∧
           fld b 32 4 = truncN 32 (deliver (partial48 (u.vals.map Prod.fst))).1) ∧
        (∀ b, b < w ∨ w + 8 ≤ b → b < ares ∨ ares + 64 ≤ b → orgByte t b = orgByte s b))

/-- Translation and its invalidation (R298 to R302, R458). -/
def Obligations.AddressesAreTranslated : Prop :=
  ∀ (s : State), 
    (working s = true → ∀ (c : Fin 16) (va : BitVec 48) (write sla : Bool),
      let l := if sla then s.slaTlb else s.dmaTlb
      let tab0 := getF s (fSLA_CTXMEM_ROOT c) * 4096
      let e0 := leVal (dramRead s (tab0 + 8 * bitsOf va.toNat 47 39) 8)
      let tab1 := bitsOf e0 40 8 * 256
      let e1 := leVal (dramRead s (tab1 + 8 * bitsOf va.toNat 38 30) 8)
      let tab2 := bitsOf e1 40 8 * 256
      let e2 := leVal (dramRead s (tab2 + 8 * bitsOf va.toNat 29 21) 8)
      ((tlbHit l c va.toNat).isSome = true ∨ isSet s (fSLA_CTXMEM_EN c) = false → exec (.pageWalk c va write sla) s = .next s) ∧
      (tlbHit l c va.toNat = none → isSet s (fSLA_CTXMEM_EN c) = true → s.dramErr = [] →
        (∀ a ∈ [tab0 + 8 * bitsOf va.toNat 47 39, tab1 + 8 * bitsOf va.toNat 38 30, tab2 + 8 * bitsOf va.toNat 29 21],
          dramWaits s a = false ∧ dramFails s a = false) →
        (∀ e ∈ [e0, e1], bitOf e 0 = true ∧ bitOf e 1 = false) → pteBad 0 e0 = false → pteBad 1 e1 = false → pteBad 2 e2 = false →
        bitOf e2 0 = true → bitOf e2 1 = true → bitOf e2 4 = true → bitOf e2 (if write then 3 else 2) = true → l.length < (if sla then 4096 else 2048) →
        nextIs (.pageWalk c va write sla) s fun t =>
          (let entry : Tlb := ⟨c, va.toNat / 2 ^ 21 * 2 ^ 21, 2 ^ 21, bitsOf e2 40 8 * 256, bitOf e2 2, bitOf e2 3, none⟩
           (if sla then t.slaTlb else t.dmaTlb) = l ++ [entry] ∧ (if sla then t.dmaTlb = s.dmaTlb else t.slaTlb = s.slaTlb)) ∧
          getF t fSLA_WALKCNT_WALKS = (getF s fSLA_WALKCNT_WALKS + 1) % 2 ^ 47 ∧ sameMemory s t ∧
          { t with regs := s.regs, slaTlb := s.slaTlb, dmaTlb := s.dmaTlb } = s)) ∧
    (served s = true → ∀ v : BitVec 64,
      let scope := bitsOf v.toNat 1 0
      let c := bitsOf v.toNat 51 48
      let va := bitsOf v.toNat 47 16 * 65536
      let keep := fun (x : Tlb) => !(scope == 0 || x.ctx == c && (scope == 1 || decide (x.base ≤ va) && decide (va < x.base + x.size)))
      (scope = 3 → exec (.inval v) s = .next s) ∧
      (scope ≠ 3 → isSet s fSLA_INVALSTAT_BUSY = false → nextIs (.inval v) s fun t => isSet t fSLA_INVALSTAT_BUSY = true ∧
        t.slaTlb = s.slaTlb.filter keep ∧ t.dmaTlb = s.dmaTlb.filter keep ∧ onlyRegs s t [rSLA_INVALSTAT] ∧
        { t with regs := s.regs, slaTlb := s.slaTlb, dmaTlb := s.dmaTlb, inval := s.inval } = s) ∧
      (scope ≠ 3 → isSet s fSLA_INVALSTAT_BUSY = true → nextIs (.inval v) s fun t => isSet t fSLA_INVALSTAT_DROP = true ∧
        getF t fSLA_INVALSTAT_DROPCNT = (getF s fSLA_INVALSTAT_DROPCNT + 1) % 2 ^ 16 ∧ onlyRegs s t [rSLA_INVALSTAT] ∧ { t with regs := s.regs } = s)) ∧
    (working s = true → nextIs .invalidationComplete s fun t => isSet t fSLA_INVALSTAT_BUSY = false ∧ t.inval = none ∧
      onlyRegs s t [rSLA_INVALSTAT] ∧ { t with regs := s.regs, inval := s.inval } = s) ∧
    (working s = true → ∀ (c : Option (Fin 16)) (a n : Nat), nextIs (.atsInvalidationRequest c a n) s fun t => { t with dmaTlb := s.dmaTlb } = s ∧
      ∀ x, x ∈ t.dmaTlb ↔ x ∈ s.dmaTlb ∧ ¬ (8 * 2 ^ 48 ≤ x.base ∧ overlaps x.dpa x.size a n = true ∧ ∀ k, c = some k → x.pasid = pasidOf s (some k.val)))

/-- A chain's descriptors (R465 to R467, R469, R470, R472, R474), in the Orangery. -/
def Obligations.DmaChainsRun : Prop :=
  ∀ (s : State) (ch : Fin 64) (cm : Cmd), working s = true → s.still = true → s.orgErr = [] →
    let c := getChan s ch
    let others := fun (t : State) => ∀ j, j ≠ ch.val → getChan t j = getChan s j
    let ends := fun (t : State) (rest : Nat) => getChan t ch = { Chan.reset with endTick := tick s } ∧ others t ∧
      (getQ t c.ctx c.q).cmds = [] ∧ ∃ did, (getQ t c.ctx c.q).recs = (getQ s c.ctx c.q).recs ++ [recOf cm 0 (rest + did * 2 ^ 48)] 
    (c.st = .fetching → c.stop = false → c.addr % 128 = 0 → c.addr < 2 ^ 52 →
      (orgAssigned c.addr = true → orgHedged s c.addr 128 = false →
        let b := orgRead s c.addr 128
        let ok := descOk s c.ctx b (readDesc b)
        nextIs (.descriptorFetch ch 0) s fun t =>
          getChan t ch = { c with
            st := if ok then .running else .ending, desc := some (readDesc b), idx := 0, token := false, csum := (readDesc b).csumStart, tail := [], bytes := 0, status := if ok then 0 else 8, phase := 0, space := 0 } ∧
          others t ∧ getF t (fCHDESC_ADDR ch) = c.addr ∧ getF t (fCHSTAT_DID ch) = getF s (fCHCTL_GEN ch) * 4096 + c.pos % 4096 ∧
          onlyRegs s t [rCHDESC ch, rCHSTAT ch] ∧ sameMemory s t) ∧
      (∀ st : Fin 4, st = 1 ∨ st = 2 → spaceOf c.addr = 8 → c.killed = false → (getQ s c.ctx c.q).cmds = [cm] → cm.opcode = 9 → cm.key = c.cmd →
        nextIs (.descriptorFetch ch st) s fun t => sameMemory s t ∧
          ends t (c.done % 65536 + c.bad % 65536 * 2 ^ 16 + c.firstBad % 256 * 2 ^ 32 + 2 ^ 41))) ∧
    (∀ d, c.st = .running → c.desc = some d → 1 ≤ d.run → d.overlaps = false → c.token = false →
      let src := d.srcAt c.idx
      let dst := d.dstAt c.idx
      (∀ st, bitOf d.flags 0 = true → getF s (fDMA_REQ_KIND d.line) = 0 → getF s (fDMA_REQ_PEND d.line) = 0 →
        (∀ w ∈ s.waiters, w.agent ≠ .dma ch) → (∀ b ∈ s.bankq, b.dest ≠ .dma ch) →
        nextIs (.dmaRun ch st) s fun t => getChan t ch = { c with st := .waiting } ∧ others t ∧ sameMemory s t ∧ t.regs = s.regs) ∧
      (∀ st, bitOf d.flags 0 = false → (chanReady s ch).isSome = true → nextChan s ≠ some ch.val → exec (.dmaRun ch st) s = .next s) ∧
      (∀ st, let s1 := setChan s ch c
        bitOf d.flags 0 = false → runPorts d = [] → nextChan s = some ch.val → outranked s1 (chanPoint s1 ch) 0 (2 * ch.val + 1) (runPlaces s1 ch d) = false →
        (∀ p ∈ runPlaces s1 ch d, p < 8192 → subFree s1 p = true) →
        orgAssigned dst = true → dst % 4096 + d.run ≤ 4096 → orgHedged s dst d.run = false →
        (d.op = 0 ∧ orgAssigned src = true ∧ src % 4096 + d.run ≤ 4096 ∧ orgHedged s src d.run = false) ∨ d.op = 1 →
        (c.phase ≠ 3 → runPackets s1 ch d ≠ [] → nextIs (.dmaRun ch st) s fun t => t.packets = s.packets ++ runPackets s1 ch d ∧
          getChan t ch = { c with phase := 3, heldAt := none } ∧ others t ∧ { t with packets := s.packets, chans := s.chans } = s) ∧
        (c.phase = 3 ∨ runPackets s1 ch d = [] → nextIs (.dmaRun ch st) s fun t =>
          (∀ j, j < d.run → orgByte t (dst + j) = if d.op = 0 then orgByte s (src + j) else BitVec.ofNat 8 (d.src / 256 ^ (j % 8))) ∧
          (∀ a, a < dst ∨ dst + d.run ≤ a → orgByte t a = orgByte s a) ∧ t.wordMeta = s.wordMeta ∧ t.dram = s.dram ∧ t.host = s.host ∧
          others t ∧ (getChan t ch).idx = c.idx + 1 ∧ (getChan t ch).bytes = c.bytes + d.run ∧
          (getChan t ch).st = (if d.runs ≤ c.idx + 1 then .ending else .running) ∧
          getF t (fCHBYTES_BYTES ch) = (getF s (fCHBYTES_BYTES ch) + d.run) % 2 ^ 64 ∧ onlyRegs s t [rCHBYTES ch]))) ∧
    (∀ d, c.st = .ending → c.desc = some d → d.cplw = 0 → orgAssigned (c.addr + 112) = true → c.addr % 128 = 0 → orgHedged s (c.addr + 112) 16 = false →
      c.killed = false → c.stop = false → bitOf d.flags 4 = false →
      let did := getF s (fCHSTAT_DID ch)
      let written := fun (t : State) => (let b := orgRead t (c.addr + 112) 16
          fld b 0 4 = (if c.status = 0 then csumValue d c else 0) % 2 ^ 32 ∧ fld b 4 1 = c.status % 256 ∧ fld b 5 1 = 1 ∧ fld b 6 2 = did ∧
          fld b 8 8 = c.bytes % 2 ^ 64) ∧
        (∀ a, a < c.addr + 112 ∨ c.addr + 128 ≤ a → orgByte t a = orgByte s a) ∧ t.wordMeta = s.wordMeta ∧ t.dram = s.dram ∧ t.host = s.host ∧
        getF t (fCHSTAT_DONEN ch) = (getF s (fCHSTAT_DONEN ch) + 1) % 2 ^ 16 ∧
        getF t (fCHSTAT_BADN ch) = (getF s (fCHSTAT_BADN ch) + if c.status = 0 then 0 else 1) % 2 ^ 16
      (d.next ≠ 0 → descAddrOk d.next = true → nextIs (.descriptorEnd ch) s fun t => written t ∧ others t ∧ (getChan t ch).st = .fetching ∧
        (getChan t ch).addr = d.next ∧ (getChan t ch).pos = c.pos + 1 ∧ (getChan t ch).done = c.done + 1) ∧
      (d.next = 0 → (getQ s c.ctx c.q).cmds = [cm] → cm.opcode = 9 → cm.key = c.cmd → nextIs (.descriptorEnd ch) s fun t => written t ∧
        ends t ((c.done + 1) % 65536 + (c.bad + if c.status = 0 then 0 else 1) % 65536 * 2 ^ 16 +
          (if c.status ≠ 0 ∧ c.firstBad = 0 then c.status else c.firstBad) % 256 * 2 ^ 32)))

/-- Request lines, stops, kills and quiet channels (R463, R470, R473, R475). -/
def Obligations.DmaChannelsStopAndAreAsked : Prop :=
  ∀ s : State,
    (∀ (l : Fin 256) (v : BitVec 64), served s = true →
      (getF s (fDMA_REQ_KIND l) = 1 → exec (.requestLineWrite l v) s = .next s) ∧
      (getF s (fDMA_REQ_KIND l) = 0 → nextIs (.requestLineWrite l v) s fun t =>
        getF t (fDMA_REQ_PEND l) = min 65535 (getF s (fDMA_REQ_PEND l) + v.toNat % 65536) ∧ getF t (fDMA_REQ_KIND l) = 0 ∧
        onlyRegs s t [rDMA_REQ l] ∧ { t with regs := s.regs } = s)) ∧
    (∀ (ch : Fin 64) (v : BitVec 64), served s = true →
      let c := getChan s ch
      let assigned := fun (t : State) => isSet t (fCHCTL_EN ch) = bitOf v.toNat 63 ∧ getF t (fCHCTL_CTX ch) = bitsOf v.toNat 62 59 ∧
        getF t (fCHCTL_CLASS ch) = bitsOf v.toNat 58 57 ∧ isSet t (fCHCTL_QUIET ch) = isSet s (fCHCTL_QUIET ch) ∧ onlyRegs s t [rCHCTL ch]
      (bitOf v.toNat 2 = false → nextIs (.channelStop ch v) s fun t => assigned t ∧ getF t (fCHCTL_GEN ch) = getF s (fCHCTL_GEN ch) ∧
        getChan t ch = (if c.st = .idle then c else { c with stop := true }) ∧ (∀ j, j ≠ ch.val → getChan t j = getChan s j) ∧
        { t with regs := s.regs, chans := s.chans } = s) ∧
      (∀ cm, bitOf v.toNat 1 = false → s.still = true → c.st = .fetching → c.desc = none → (getQ s c.ctx c.q).cmds = [cm] → cm.opcode = 9 →
        cm.key = c.cmd → nextIs (.channelKill ch v) s fun t => assigned t ∧ getF t (fCHCTL_GEN ch) = (getF s (fCHCTL_GEN ch) + 1) % 16 ∧
          getChan t ch = { Chan.reset with endTick := tick s } ∧ (∀ j, j ≠ ch.val → getChan t j = getChan s j) ∧ sameMemory s t ∧
          (getQ t c.ctx c.q).cmds = [] ∧ ∃ detail, (getQ t c.ctx c.q).recs = (getQ s c.ctx c.q).recs ++ [recOf cm 7 detail])) ∧
    (∀ ch : Fin 64, working s = true →
      (((getChan s ch).st ≠ .idle ∨ chanAwaits s ch = true ∧ tick s < (getChan s ch).endTick + 100000) → exec (.channelQuiet ch) s = .next s) ∧
      ((getChan s ch).st = .idle → chanAwaits s ch = false ∨ (getChan s ch).endTick + 100000 ≤ tick s →
        nextIs (.channelQuiet ch) s fun t => isSet t (fCHCTL_QUIET ch) = true ∧ getF t (fCHCTL_GEN ch) = getF s (fCHCTL_GEN ch) ∧
          getF t (fCHCTL_CTX ch) = getF s (fCHCTL_CTX ch) ∧ onlyRegs s t [rCHCTL ch] ∧ { t with regs := s.regs } = s))

/-- Page faults and timeouts (R458 to R461, R564): when DEVICE PAGE FAULT, FLTRESP, PRG RESPONSE and COMPLETION TIMEOUT complete, and
with what effect; a halted channel stands for those that a response reaches. -/
def Obligations.FaultsAreReportedAndAnswered : Prop :=
  ∀ s : State,
    (working s = true → ∀ (f : PageFault) (i : Nat), s.faults.find? (fun g => g.fid.isNone) = some f → freeFid s = some i →
      let tl := getF s fDMA_FLTPTR_TAIL
      let n := faultRing s
      let a := pcieAddr s (getF s fDMA_FLTRING_ADDR * 32 + tl % n * 32)
      let g := (amGet (fun _ => 0) s.fidGens i + 1) % 16
      (isSet s fDMA_FLTRING_EN = false ∨ n ≤ (tl + 2 ^ 32 - getF s fDMA_FLTPTR_HEAD) % 2 ^ 32 → exec .devicePageFault s = .next s) ∧
      (isSet s fDMA_FLTRING_EN = true → (tl + 2 ^ 32 - getF s fDMA_FLTPTR_HEAD) % 2 ^ 32 < n → nextIs .devicePageFault s fun t =>
        (let b := hostRead t a 32
         fld b 0 1 = f.source % 256 ∧ fld b 1 1 = f.ctx % 256 ∧ fld b 2 1 = f.access % 256 ∧ fld b 3 1 = (if tl / n % 2 = 0 then 128 else 0) ∧
           fld b 4 2 = g * 4096 + i ∧ fld b 6 2 = f.agent % 2 ^ 16 ∧ fld b 8 8 = f.va % 2 ^ 64 ∧ fld b 16 2 = f.task % 2 ^ 16 ∧ fld b 18 6 = 0 ∧
           fld b 24 8 = f.tick % 2 ^ 64) ∧
        (∀ x, x < a ∨ a + 32 ≤ x → hostByte t x = hostByte s x) ∧ t.org = s.org ∧ t.dram = s.dram ∧
        getF t fDMA_FLTPTR_TAIL = (tl + 1) % 2 ^ 32 ∧ isSet t (fHOST_IRQSRC_PEND 1) = true ∧
        t.faults = s.faults.map (fun x => if x == f then { x with fid := some (g * 4096 + i) } else x) ∧
        { t with regs := s.regs, host := s.host, up := s.up, faults := s.faults, fidGens := s.fidGens, logQ := s.logQ, console := s.console,
                 msgs := s.msgs } = s)) ∧
    (served s = true → ∀ v : BitVec 64, let fid := bitsOf v.toNat 15 0
      let res := bitsOf v.toNat 17 16
      (2 ≤ res → exec (.fltresp v) s = .next s) ∧
      (res < 2 → (∀ g ∈ s.faults, g.fid ≠ some fid) → nextIs (.fltresp v) s fun t =>
        getF t fDMA_FLTSTAT_STALECNT = (getF s fDMA_FLTSTAT_STALECNT + 1) % 2 ^ 16 ∧ t.faults = s.faults ∧ t.chans = s.chans ∧ sameMemory s t) ∧
      (∀ (f : PageFault) (ch : Nat) (d : Desc), s.still = true → s.faults = [f] → f.fid = some fid → f.by_ = [.dma ch] →
        (getChan s ch).st = .faulted → (getChan s ch).desc = some d → (getChan s ch).status = 0 → (getChan s ch).idx < d.runs →
        isSet s (fCTXCTL_YK8 (getChan s ch).ctx) = false →
        (res = 0 → nextIs (.fltresp v) s fun t => getChan t ch = { getChan s ch with st := .running } ∧ t.faults = [] ∧
          getF t fDMA_FLTSTAT_OPEN = 0 ∧ onlyRegs s t [rDMA_FLTSTAT] ∧ { t with regs := s.regs, chans := s.chans, faults := s.faults } = s) ∧
        (res = 1 → nextIs (.fltresp v) s fun t =>
          getChan t ch = { getChan s ch with st := .ending, status := 4, space := 1, phase := 0, heldAt := none } ∧ t.faults = [] ∧ sameMemory s t))) ∧
    (working s = true → ∀ (idx : Fin 512) (ok : Bool),
      ((∀ x ∈ s.pri, x.sent = true → x.idx ≠ idx.val) → exec (.prgResponse idx ok) s = .next s) ∧
      (∀ (x : Pri) (ch : Nat) (d : Desc), s.still = true → s.pri = [x] → x.sent = true → x.idx = idx.val → x.by_ = .dma ch →
        (getChan s ch).st = .faulted → (getChan s ch).desc = some d → (getChan s ch).status = 0 → (getChan s ch).idx < d.runs →
        isSet s (fCTXCTL_YK8 (getChan s ch).ctx) = false → nextIs (.prgResponse idx ok) s fun t => t.pri = [] ∧
          getChan t ch = (if ok then { getChan s ch with st := .running }
            else { getChan s ch with st := .ending, status := 4, space := 8, phase := 0, heldAt := none }) ∧ t.regs = s.regs ∧ sameMemory s t)) ∧
    (working s = true →
      (∀ op core, shareReadsHost s op core.val = true → paused s = false → nextIs (.completionTimeout (.share op core)) s fun t =>
        exec (.operationCompletion op core 2) s = .next t) ∧
      (∀ op core, shareReadsHost s op core.val = false → exec (.completionTimeout (.share op core)) s = .next s) ∧
      (∀ ch : Fin 64, (getChan s ch).st = .fetching → spaceOf (getChan s ch).addr = 8 → nextIs (.completionTimeout (.channel ch)) s fun t =>
        exec (.descriptorFetch ch 2) s = .next t) ∧
      (∀ ch : Fin 64, (getChan s ch).st ≠ .fetching → runReadsHost s ch = true → nextIs (.completionTimeout (.channel ch)) s fun t =>
        exec (.dmaRun ch 2) s = .next t) ∧
      (∀ ch : Fin 64, (getChan s ch).st ≠ .fetching → runReadsHost s ch = false → exec (.completionTimeout (.channel ch)) s = .next s) ∧
      (∀ c q, nextIs (.completionTimeout (.queue c q)) s fun t => exec (.commandFetch c q 2) s = .next t))

/-- Wickets as their owner handles them (R476, R478, R479). -/
def Obligations.WicketsOpenAndClose : Prop :=
  ∀ (s : State) (w : Fin 64),
    let others := fun (t : State) => ∀ j, j ≠ w.val → getWk t j = getWk s j
    (∀ v : BitVec 64, served s = true → isSet s (fWKCTL_EN w) = false →
      let ctx := bitsOf v.toNat 58 55
      let may := isSet s (fWKCTL_QUIET w) = true ∧ (spaceOf (wkBase s w) = 0 → dmaOwned s ctx (wkBase s w) (wkSize s w) = true) ∧
        (spaceOf (wkBase s w) = 2 ∨ spaceOf (wkBase s w + wkSize s w - 1) = 2 → hasPriv s ctx = true)
      (may → nextIs (.wicketOpen w v) s fun t => isSet t (fWKCTL_EN w) = true ∧ isSet t (fWKCTL_QUIET w) = false ∧
        getF t (fWKCTL_GEN w) = (getF s (fWKCTL_GEN w) + 1) % 16 ∧ getF t (fWKCTL_CTX w) = ctx ∧ getF t (fWKCTL_PERM w) = bitsOf v.toNat 51 48 ∧
        getF t (fWKPOOL_POOL w) = bitsOf v.toNat 23 0 * 256 ∧ getF t (fWKPOOL_OUT w) = 0 ∧ getWk t w = Wicket.reset ∧ others t ∧
        onlyRegs s t [rWKCTL w, rWKPOOL w] ∧ { t with regs := s.regs, wickets := s.wickets } = s) ∧
      (¬ may → nextIs (.wicketOpen w v) s fun t => isSet t (fWKCTL_EN w) = false ∧ getF t (fWKCTL_GEN w) = getF s (fWKCTL_GEN w) ∧
        isSet t (fWKSTAT_VIOL w) = true ∧ getF t (fWKSTAT_VIOLCNT w) = (getF s (fWKSTAT_VIOLCNT w) + 1) % 2 ^ 16 ∧
        getF t (fWKSTAT_CAUSE w) = 7 ∧ t.wickets = s.wickets ∧ sameMemory s t)) ∧
    (∀ v : BitVec 64, served s = true → isSet s (fWKCTL_EN w) = true → (getWk s w).requests = [] → nextIs (.wicketClose w v) s fun t =>
      isSet t (fWKCTL_EN w) = false ∧ getF t (fWKCTL_GEN w) = getF s (fWKCTL_GEN w) ∧ getF t (fWKPOOL_OUT w) = 0 ∧
      getF t (fWKPOOL_POOL w) = getF s (fWKPOOL_POOL w) ∧ getWk t w = { getWk s w with closed := tick s } ∧ others t ∧
      onlyRegs s t [rWKCTL w, rWKPOOL w] ∧ { t with regs := s.regs, wickets := s.wickets } = s) ∧
    (working s = true →
      let past := ((getWk s w).granted.map Prod.snd).sum = 0 ∨ (getWk s w).closed + 100000 ≤ tick s
      (isSet s (fWKCTL_EN w) = true ∨ isSet s (fWKCTL_QUIET w) = true ∨ ¬ past → exec (.wicketQuarantineEnd w) s = .next s) ∧
      (isSet s (fWKCTL_EN w) = false → isSet s (fWKCTL_QUIET w) = false → past → nextIs (.wicketQuarantineEnd w) s fun t =>
        isSet t (fWKCTL_QUIET w) = true ∧ isSet t (fWKCTL_EN w) = false ∧ getF t (fWKCTL_GEN w) = getF s (fWKCTL_GEN w) ∧
        getWk t w = Wicket.reset ∧ others t ∧ onlyRegs s t [rWKCTL w] ∧ { t with regs := s.regs, wickets := s.wickets } = s)) ∧
    (∀ v : BitVec 64, served s = true → (getWk s w).requests = [] → nextIs (.wkret w v) s fun t =>
      getF t (fWKPOOL_POOL w) = min (getF s (fWKPOOL_POOL w) + bitsOf v.toNat 31 8 * 256) (2 ^ 32 - 1) ∧
      getF t (fWKPOOL_OUT w) = getF s (fWKPOOL_OUT w) ∧ onlyRegs s t [rWKPOOL w] ∧ { t with regs := s.regs } = s)

/-- Flits and their timers (R521 to R526, R528, R530, R531), at a port with nothing new to send and with MINLANES lanes or more in its stripe (R532). -/
def Obligations.FlitsAreReceivedAndSentAgain : Prop :=
  ∀ (s : State) (p : Fin 8), awake s = true → s.still = true →
    let x := getPort s p
    let others := fun (t : State) => (∀ j, j ≠ p.val → getPort t j = getPort s j) ∧ sameMemory s t
    let idle := fun (t : State) (seq rx : Nat) (nak : Bool) => ∃ b, t.wire = s.wire ++ [(p.val, laneOf s p 0, b)] ∧ (getPort t p).txIdx = x.txIdx + 1 ∧ b.length = 256 ∧
      (let f := readFlit b; f.idle = true ∧ f.ctrl = false ∧ f.nak = nak ∧ f.crcOk = true ∧ f.seq = seq % 65536 ∧ f.ack = rx % 65536 ∧
        f.linkid = getF s (fLNKSESS_LINKID p))
    (portRuns s p = false → (∀ b, exec (.flitReceive p b) s = .next s) ∧ exec (.nak p) s = .next s ∧ exec (.nakRepeatTimer p) s = .next s ∧
      exec (.replayTimeout p) s = .next s ∧ exec (.ackFlitTimer p) s = .next s) ∧
    (portRuns s p = true → x.txq = [] → x.ctlq = [] → x.lanes = [] → minLanes s p ≤ activeLanes s p →
      (∀ b : List Byte, let f := readFlit b
        (f.crcOk = false ∨ f.linkid ≠ getF s (fLNKSESS_LINKID p) → nextIs (.flitReceive p b) s fun t =>
          getF t (fREPLAYCNT_BADFLITS p) = (getF s (fREPLAYCNT_BADFLITS p) + 1) % 2 ^ 32 ∧ (getPort t p).rxSeq = x.rxSeq ∧ (getPort t p).rxq = x.rxq ∧
          (getPort t p).nakd = true ∧ others t ∧ (x.nakd = true → t.wire = s.wire) ∧ (x.nakd = false → idle t x.txSeq x.rxSeq true)) ∧
        (f.crcOk = true → f.linkid = getF s (fLNKSESS_LINKID p) → f.nak = false → x.buf = [] → f.credit = 0 →
          (f.seq ≠ (x.rxSeq + 1) % 65536 → nextIs (.flitReceive p b) s fun t => (getPort t p).rxSeq = x.rxSeq ∧ (getPort t p).rxq = x.rxq ∧
            (getPort t p).nakd = true ∧ others t ∧ (x.nakd = true → t = s) ∧ (x.nakd = false → idle t x.txSeq x.rxSeq true)) ∧
          (f.seq = (x.rxSeq + 1) % 65536 → f.idle = false → f.ctrl = true → nextIs (.flitReceive p b) s fun t =>
            let y := { x with rxSeq := f.seq, nakd := false, owes := true }
            let arg := fun (o n : Nat) => leVal ((f.payload.drop o).take n)
            others t ∧ getF t (⟨rFLITRX p, 63, 0⟩ : Fld) = (getF s (⟨rFLITRX p, 63, 0⟩ : Fld) + 1) % 2 ^ 64 ∧
            match (List.range 6).find? (fun k => f.payload.head? == some (Config.ctlCode k)) with
            | some 1 => getPort t p = { y with lanes := [⟨arg 1 1 % 16, false, true, arg 2 2⟩] } ∧ t.wire = s.wire ∧ onlyRegs s t [rFLITRX p]
            | some 2 => getPort t p = { y with lanes := [⟨arg 1 1 % 16, true, true, arg 2 2⟩] } ∧ t.wire = s.wire ∧ onlyRegs s t [rFLITRX p]
            | some 3 => getPort t p = y ∧ t.wire = s.wire ∧ laserAt t fRXLAS0_LASER fRXLAS1_LASER p (arg 1 1 % 16) = arg 2 1 % 32
            | some 4 => getPort t p = { y with peerDrain := true } ∧ t.wire = s.wire ∧ onlyRegs s t [rFLITRX p]
            | some 5 => isSet s (fLNKCTL_DRAIN p) = true → getPort t p = { y with peerDrain := false } ∧ t.wire = s.wire ∧ onlyRegs s t [rFLITRX p]
            | _ => getPort t p = y ∧ t.wire = s.wire ∧ onlyRegs s t [rFLITRX p]) ∧
          (f.seq = (x.rxSeq + 1) % 65536 → f.idle = false → f.ctrl = false → f.vc < 3 → f.sop < 15 → amGet (fun _ => []) x.rxPart f.vc = [] →
            let r := parsePkts f.vc ((f.payload.drop (16 * f.sop)).length / 16 + 1) (f.payload.drop (16 * f.sop))
            r.2.2 = true → nextIs (.flitReceive p b) s fun t => (getPort t p).rxSeq = f.seq ∧ (getPort t p).nakd = false ∧ (getPort t p).owes = true ∧
              (getPort t p).rxq.map RxPkt.pkt = x.rxq.map RxPkt.pkt ++ r.1 ∧ amGet (fun _ => []) (getPort t p).rxPart f.vc = r.2.1 ∧ others t ∧
              t.wire = s.wire ∧ onlyRegs s t [rFLITRX p]))) ∧
      (let again := fun (t : State) => t.wire = s.wire ++ ((List.range x.buf.length).zip x.buf).map (fun q => (p.val, laneOf s p q.1, q.2.bytes s p)) ∧
          (getPort t p).replays = x.replays + 1 ∧
          (getPort t p).buf = x.buf.map (fun f => { f with sent := tick s }) ∧ (getPort t p).txSeq = x.txSeq ∧ others t ∧
          getF t (fREPLAYCNT_REPLAYS p) = (getF s (fREPLAYCNT_REPLAYS p) + 1) % 2 ^ 32 ∧
          getF t (⟨rFLITTX p, 63, 0⟩ : Fld) = (getF s (⟨rFLITTX p, 63, 0⟩ : Fld) + x.buf.length) % 2 ^ 64 ∧ onlyRegs s t [rREPLAYCNT p, rFLITTX p];
        (x.nakIn = none → exec (.nak p) s = .next s) ∧
        (x.nakIn.isSome = true → x.buf = [] → nextIs (.nak p) s fun t => getPort t p = { x with nakIn := none } ∧ { t with ports := s.ports } = s) ∧
        (x.nakIn.isSome = true → x.buf ≠ [] → x.replays < 8 → nextIs (.nak p) s fun t => again t ∧ (getPort t p).nakIn = none) ∧
        (x.nakIn.isSome = true → x.buf ≠ [] → 8 ≤ x.replays → nextIs (.nak p) s fun t => portState t p = 3 ∧ (getPort t p).quick = true ∧
          (getPort t p).buf = x.buf ∧ (getPort t p).replays = 0 ∧ others t) ∧
        (x.buf = [] ∨ tick s < x.progress + 1600 → exec (.replayTimeout p) s = .next s) ∧
        (x.buf ≠ [] → x.progress + 1600 ≤ tick s → x.replays < 8 → nextIs (.replayTimeout p) s fun t => again t ∧
          (getPort t p).progress = tick s) ∧
        (x.buf ≠ [] → x.progress + 1600 ≤ tick s → 8 ≤ x.replays → nextIs (.replayTimeout p) s fun t => portState t p = 3 ∧
          (getPort t p).quick = true ∧ (getPort t p).buf = x.buf ∧ (getPort t p).replays = 0 ∧ others t)) ∧
      (x.nakd = false ∨ tick s < x.nakTick + 400 → exec (.nakRepeatTimer p) s = .next s) ∧
      (x.nakd = true → x.nakTick + 400 ≤ tick s → nextIs (.nakRepeatTimer p) s fun t => idle t x.txSeq x.rxSeq true ∧
        (getPort t p).nakTick = tick s ∧ (getPort t p).buf = x.buf ∧ t.regs = s.regs ∧ others t) ∧
      ((x.owes = false ∧ (∀ n ∈ x.owed, n = 0)) ∨ tick s < x.sentAt + 20 → exec (.ackFlitTimer p) s = .next s) ∧
      (x.owes = true → x.sentAt + 20 ≤ tick s → nextIs (.ackFlitTimer p) s fun t => idle t x.txSeq x.rxSeq false ∧ (getPort t p).owes = false ∧
        (getPort t p).buf = x.buf ∧ t.regs = s.regs ∧ others t))

/-- The requests of a peer (R477, R478, R534 to R538, R541, R426, R433), at a port with nothing else to send. -/
def Obligations.RequestsOfAPeerArePerformed : Prop :=
  ∀ (s : State) (p : Fin 8), working s = true → s.fatal = false → s.still = true →
    let x := getPort s p
    (∀ e ∈ [(1, Instr.wr p), (2, .rdreq p), (5, .fereq p), (7, .cmsg p), (9, .grantreq p)],
      (∀ r, vcHead s p (vcOf e.1) = some r → r.pkt.hdr.ty ≠ e.1) → exec e.2 s = .next s) ∧
    (∀ r : RxPkt, x.txq = [] → x.ctlq = [] → x.nakIn = none → x.lanes = [] →
      let h := r.pkt.hdr
      let w := h.wk
      let n := r.pkt.body.length
      let a := wkBase s w + h.off
      let head := vcHead s p (vcOf h.ty) = some r
      let u := popVc s p (vcOf h.ty) r
      let served_ := fun (len : Nat) (write : Bool) => serveAt u h.cls (peerId p) (placesOf u (getF s (fWKCTL_CTX w)) a len write) ≠ none
      let took := fun (t : State) => (getPort t p).rxq = dropFirst (vcOf h.ty) x.rxq ∧ ∀ j, j ≠ p.val → getPort t j = getPort s j
      let answered := fun (t : State) (k : Pkt) =>
        (portUp s p = false ∨ vcCredit s p 1 = 0 → (getPort t p).txq = [⟨1, k.hdr.cls, none, true, k.bytes⟩] ∧ t.wire = s.wire) ∧
        (portUp s p = true → 0 < vcCredit s p 1 → x.buf.length < 4095 → k.bytes.length ≤ 240 → (getPort t p).txq = [] ∧
          ∃ b, t.wire = s.wire ++ [(p.val, laneOf s p 0, b)] ∧ (let f := readFlit b
            f.vc = 1 ∧ f.ctrl = false ∧ f.idle = false ∧ f.sop = 0 ∧ f.crcOk = true ∧ f.payload = padTo 240 k.bytes))
      let rep := fun (ty status sub len : Nat) (body : List Byte) => (⟨{ h with ty := ty, status := status, sub := sub, len := len }, body⟩ : Pkt)
      let open_ := if isSet s (fWKCTL_EN w) = false then 1 else if h.gen ≠ getF s (fWKCTL_GEN w) then 2
        else if getBit s (fWKPEER_PORTS w) p = false ∨ getBit s (fWKPEER_PCTX w) h.ctx = false then 3 else 0
      let check := fun (perm len : Nat) (ok : Bool) => if open_ ≠ 0 then open_ else if getBit s (fWKCTL_PERM w) perm = false ∨ ok = false then 4
        else if getF s (fWKSIZE_PAGES w) * 4096 < h.off + len then 5 else 0
      let refused := fun (c : Instr) (cause : Nat) (k : Pkt) => nextIs c s fun t => isSet t (fWKSTAT_VIOL w) = true ∧
        getF t (fWKSTAT_VIOLCNT w) = (getF s (fWKSTAT_VIOLCNT w) + 1) % 2 ^ 16 ∧ getF t (fWKSTAT_CAUSE w) = cause ∧
        getF t (fWKSTAT_STALECNT w) = (getF s (fWKSTAT_STALECNT w) + if cause = 2 then 1 else 0) % 2 ^ 16 ∧
        took t ∧ answered t k ∧ sameMemory s t ∧ t.wickets = s.wickets ∧ t.bankq = s.bankq ∧ t.creels = s.creels
      let sent := [rVCCRED p, rFLITTX p]
      head →
      (h.ty = 1 →
        let c0 := check 1 h.len (inWindow s p h != .bad)
        let c := if c0 = 0 ∧ portGranted (getWk s w) p < roundUp n 32 then 6 else c0
        let spent := fun (t : State) => portGranted (getWk t w) p = portGranted (getWk s w) p - roundUp n 32 ∧ took t ∧
          (∀ q, q ≠ p.val → portGranted (getWk t w) q = portGranted (getWk s w) q)
        (c ≠ 0 → refused (.wr p) c (rep 4 3 0 1 [])) ∧
        (c = 0 → inWindow s p h = .out → served_ h.len true → s.orgErr = [] → orgAssigned a = true → a % 256 + n ≤ 256 → orgHedged s a n = false → nextIs (.wr p) s fun t =>
          spent t ∧ answered t (rep 4 0 0 1 []) ∧ (∀ j, j < n → orgByte t (a + j) = r.pkt.body.getD j 0) ∧
          (∀ b, b < a ∨ a + n ≤ b → orgByte t b = orgByte s b) ∧ t.wordMeta = s.wordMeta ∧ t.dram = s.dram ∧ t.host = s.host ∧
          onlyRegs s t (rWKPOOL w :: sent)) ∧
        (c = 0 → inWindow s p h = .out → orgAssigned a = true → ¬ served_ h.len true → exec (.wr p) s = .next s) ∧
        (∀ j, c = 0 → inWindow s p h = .win j → served_ h.len true → n = 8 → s.orgErr = [] → orgHedged s a 8 = false → orgAssigned a = true → a % 8 = 0 → s.waiters = [] → s.tasks = [] →
          let cw := wkBase s (getF s (fRWCTL_WKT p j)) + winCnt s p j
          let v := wordVal s cw
          orgAssigned cw = true → cw % 8 = 0 → cw ≠ a → seenMeta s cw ≠ .poisoned → cntCount v + 1 ≤ cntCap v → nextIs (.wr p) s fun t =>
            spent t ∧ answered t (rep 4 0 0 1 []) ∧
            wordVal t a = truncN 64 (sext 48 ((wordVal s a % 2 ^ 48 + leVal r.pkt.body % 2 ^ 48) % 2 ^ 48)) ∧
            wordVal t cw = cntPut v (cntCount v + 1) ∧ metaOf t cw = .full ∧ (∀ b, b ≠ cw → metaOf t b = metaOf s b) ∧
            (∀ b, b % 8 = 0 → b ≠ a → b ≠ cw → wordVal t b = wordVal s b) ∧
            getF t (fRWCTL_WORDS p j) = (getF s (fRWCTL_WORDS p j) + 1) % 2 ^ 32)) ∧
      (h.ty = 2 →
        let c := check 0 h.len true
        let one := min h.len (256 - h.off % 256)
        (c ≠ 0 → refused (.rdreq p) c (rep 3 3 0 one (List.replicate one 0#8))) ∧
        (c = 0 → served_ h.len false → s.orgErr = [] → orgAssigned a = true → 1 ≤ h.len → h.off % 256 + h.len ≤ 256 → orgHedged s a h.len = false →
          nextIs (.rdreq p) s fun t => took t ∧ sameMemory s t ∧ onlyRegs s t sent ∧
            answered t ⟨{ h with ty := 3, status := 0, sub := 0, attr := h.attr % 64 + if bitOf h.attr 6 then 64 else 0 }, orgRead s a h.len⟩)) ∧
      (h.ty = 5 →
        let c := check 2 8 (decide (spaceOf a = 0 ∧ a % 8 = 0))
        (c ≠ 0 → refused (.fereq p) c (rep 6 3 0 8 (leBytes 8 0))) ∧
        (c = 0 → nextIs (.fereq p) s fun t => took t ∧ (getPort t p).txq = [] ∧ (getPort t p).asked = x.asked ++ [(x.nextRef, h)] ∧ sameMemory s t ∧
          t.regs = s.regs ∧ t.bankq = s.bankq ++ [⟨orgSlice a, bitsOf (orgOff a) 11 5, h.cls, 0, a, reqAcc h.sub r.pkt.body,
            .peer p (peerKey p h.src) x.nextRef, peerKey p h.src⟩])) ∧
      (let cr := crlAt s (getF s (fWKCTL_CTX w)) a
       (h.ty = 7 →
        let c := check 3 h.len cr.isSome
        (c ≠ 0 → refused (.cmsg p) c (rep 8 3 0 0 [])) ∧
        (∀ k, c = 0 → cr = some k →
          let have_ := amGet (fun _ => 0) (getCreel s k).peers p
          (have_ < h.len + 32 → nextIs (.cmsg p) s fun t => took t ∧ answered t (rep 8 0 0 0 []) ∧ sameMemory s t ∧ t.creels = s.creels ∧
            isSet t (crlSTALE k) = true ∧ getF t (crlSTALECNT k) = (getF s (crlSTALECNT k) + 1) % 2 ^ 16) ∧
          (h.len + 32 ≤ have_ → nextIs (.cmsg p) s fun t => took t ∧ (getPort t p).txq = [] ∧ sameMemory s t ∧ t.regs = s.regs ∧
            getCreel t k = { getCreel s k with
              peers := amSet (fun _ => 0) (getCreel s k).peers p (have_ - (h.len + 32)), stage := (getCreel s k).stage ++ [⟨peerKey p h.src, s.arrivals, tick s, crlTag s k, 0, 2, p, 0, getF s (fWKCTL_CTX w), r.pkt.body, .peer p x.nextRef⟩] } ∧
            (∀ j, j ≠ k → getCreel t j = getCreel s j)))) ∧
       (h.ty = 9 →
        let want := leVal (r.pkt.body.take 4)
        (h.sub = 2 →
          let c := check 3 1 cr.isSome
          (c ≠ 0 → refused (.grantreq p) c (rep 10 3 2 8 (leBytes 8 0))) ∧
          (∀ k, c = 0 → cr = some k → nextIs (.grantreq p) s fun t => took t ∧ (getPort t p).txq = [] ∧ sameMemory s t ∧
            (getCreel t k).requests = (getCreel s k).requests ++ [⟨.peer p x.nextRef, crlTag s k, want, max want (getF s (crlGRANTQ k) / 32 * 32)⟩] ∧
            (∀ j, j ≠ k → getCreel t j = getCreel s j) ∧ onlyRegs s t [(crlWAITREQ k).reg])) ∧
        (h.sub ≠ 2 →
          let pool := getF s (fWKPOOL_POOL w)
          let g := min (roundUp want 256) (pool / 256 * 256)
          (open_ ≠ 0 → refused (.grantreq p) open_ (rep 10 3 1 8 (leBytes 8 0))) ∧
          (open_ = 0 → (getWk s w).requests = [] → 4096 < want → want ≤ g → (∀ q ∈ x.asked, q.1 ≠ x.nextRef) → nextIs (.grantreq p) s fun t => took t ∧ sameMemory s t ∧
            answered t (rep 10 0 1 8 (leBytes 4 g ++ leBytes 4 0)) ∧ getF t (fWKPOOL_POOL w) = pool - g ∧ (getWk t w).requests = [] ∧
            portGranted (getWk t w) p = portGranted (getWk s w) p + g ∧ onlyRegs s t (rWKPOOL w :: sent)) ∧
          (open_ = 0 → (getWk s w).requests = [] → 4096 < want → g < want → nextIs (.grantreq p) s fun t => took t ∧ sameMemory s t ∧
            (getPort t p).txq = [] ∧ (getWk t w).requests = [⟨.peer p x.nextRef, 0, want, want⟩] ∧ (getWk t w).granted = (getWk s w).granted ∧
            t.regs = s.regs)))))

/-- The replies of a peer (R535, R537, R538, R178, R179, R478); a refused full/empty access is assumption 11. -/
def Obligations.RepliesOfAPeerEndTransactions : Prop :=
  ∀ (s : State) (p : Fin 8), working s = true → s.fatal = false → s.still = true → s.orgErr = [] → s.packets = [] → ordered s = false → s.waiters = [] →
    s.tasks = [] →
    let x := getPort s p
    (∀ e ∈ [(3, Instr.rddata p), (4, .wrack p), (6, .fereply p), (8, .cmsgack p), (10, .grant p)],
      (∀ r, vcHead s p (vcOf e.1) = some r → r.pkt.hdr.ty ≠ e.1) → exec e.2 s = .next s) ∧
    (∀ r : RxPkt, vcHead s p 1 = some r →
      let h := r.pkt.hdr
      let popped := popVc s p 1 r
      let ended := fun (l : List Txn) => l.filter (fun u => u.tag != replyKey h)
      let took := fun (t : State) => (getPort t p).rxq = dropFirst 1 x.rxq ∧ ∀ j, j ≠ p.val → getPort t j = getPort s j
      let served_ := fun (op ctx dst : Nat) => serveAt popped h.cls (2 * op) (placesOf popped ctx dst h.len true) ≠ none
      (∀ e ∈ [(3, Instr.rddata p), (4, .wrack p), (6, .fereply p), (8, .cmsgack p), (10, .grant p)], h.ty = e.1 → findTxn s p (replyKey h) = none →
        exec e.2 s = .next popped ∧ took popped ∧ { popped with ports := s.ports } = s) ∧
      (∀ (t0 : Txn) (op core w : Nat) (d : DynOp) (so : ShareOp), findTxn s p (replyKey h) = some t0 → (∀ u ∈ x.txns, u.tag = replyKey h → u = t0) → t0.who = .share op core →
        findOp s op = some d → d.shares = [⟨core, so, some w, .sent⟩] → d.count = false → d.held = false → w % 8 = 0 → orgAssigned w = true →
        metaOf s w = .empty → bankHedged s w = false →
        let completes := fun (c : Instr) (status bytes : Nat) (keep : Nat → Prop) => nextIs c s fun t => took t ∧ (getPort t p).txns = ended x.txns ∧
          wordVal t w = cplValue status 9 bytes ∧ metaOf t w = (if status = 0 then .full else .poisoned) ∧ (∀ z, z ≠ w → metaOf t z = metaOf s z) ∧
          (∀ b, keep b → b < w ∨ w + 8 ≤ b → orgByte t b = orgByte s b) ∧ t.dram = s.dram ∧ t.host = s.host ∧
          getF t (fSOPCNT_COUNT (core / 8) (core % 8)) = (getF s (fSOPCNT_COUNT (core / 8) (core % 8)) + 1) % 2 ^ 64
        let stays := fun (c : Instr) (t' : Txn) (org : State → Prop) => nextIs c s fun t => took t ∧ (getPort t p).txns = x.txns.map (fun u => if u = t0 then t' else u) ∧
          org t ∧ t.wordMeta = s.wordMeta ∧ t.dram = s.dram ∧ t.host = s.host ∧ t.regs = (noteLate s t0).regs ∧ t.ops = s.ops
        core < 64 →
        (h.ty = 3 → ∀ q dst, (so = .sload q → h.status ≠ 0 → h.status < 16 → completes (.rddata p) h.status t0.bytes (fun _ => True)) ∧
          (so = .sload q → h.status = 0 → placeOf t0 h.off = some dst → served_ op d.ctx dst → r.pkt.body.length = h.len → orgAssigned dst = true → dst % 256 + h.len ≤ 256 →
            orgHedged s dst h.len = false → (w + 8 ≤ dst ∨ dst + h.len ≤ w) →
            (h.len < t0.left → stays (.rddata p) { t0 with left := t0.left - h.len, bytes := t0.bytes + h.len } fun t =>
              (∀ j, j < h.len → orgByte t (dst + j) = r.pkt.body.getD j 0) ∧ (∀ b, b < dst ∨ dst + h.len ≤ b → orgByte t b = orgByte s b)) ∧
            (h.len = t0.left → completes (.rddata p) 0 (q.rows * q.rb) (fun b => b < dst ∨ dst + h.len ≤ b)))) ∧
        (h.ty = 4 → ∀ q, so = .sstore q →
          (h.status ≠ 0 → h.status < 16 → completes (.wrack p) h.status t0.bytes (fun _ => True)) ∧
          (h.status = 0 → h.len < t0.left → stays (.wrack p) { t0 with
            left := t0.left - h.len, bytes := t0.bytes + ((t0.pieces.take h.len).map (fun x => x.len)).sum, pieces := t0.pieces.drop h.len } fun t =>
              t.org = s.org) ∧
          (h.status = 0 → h.len = t0.left → completes (.wrack p) 0 (q.rows * q.rb) (fun _ => True))) ∧
        (h.ty = 8 → ∀ ck tg ad m fl, so = .send ck tg ad m fl → h.status < 16 →
          completes (.cmsgack p) h.status (if h.status = 0 then m.length else t0.bytes) (fun _ => True)) ∧
        (h.ty = 6 → ∀ ad acc, so = .fe ad acc → nextIs (.fereply p) s fun t => took t ∧ (getPort t p).txns = ended x.txns ∧ sameMemory s t ∧
          t.regs = (noteLate s t0).regs ∧ t.tokens = s.tokens ++ [⟨s.nextTok, plotOf d.who, .reply op
            (if h.status ≠ 0 then .cause 0x0A else if h.sub ≠ 0 then .cause h.sub else .ok (BitVec.ofNat 64 (leVal (r.pkt.body.take 8)))), tick s⟩])) ∧
      (∀ t0 : Txn, h.ty = 10 → findTxn s p (replyKey h) = some t0 → h.status = 0 →
        let n := leVal (r.pkt.body.take 4)
        (∀ w, t0.who = .wicketCredit w → (∀ u ∈ x.txns, u.wk = w → u.todo = []) → n < 2 ^ 32 → 0 < n → nextIs (.grant p) s fun t =>
          took t ∧ (getPort t p).txns = ended x.txns ∧ wallet t p w = wallet s p w + (if h.gen = peerGen s p w then n else 0) ∧
          { t with ports := s.ports } = s) ∧
        (∀ who key, t0.who = .creelCredit who key → nextIs (.grant p) s fun t => took t ∧ (getPort t p).txns = ended x.txns ∧
          t.tokens = s.tokens ++ [⟨s.nextTok, plotOf who, .grant who key n, tick s⟩] ∧ t.regs = s.regs ∧ sameMemory s t)))

/-- A port's way to ACTIVE (R514, R518 to R520, R529, R533, R554, R615). -/
def Obligations.TrainingRunsThroughItsStates : Prop :=
  ∀ (s : State) (p : Fin 8), awake s = true → s.fatal = false →
    let x := getPort s p
    let others := fun (t : State) => (∀ j, j ≠ p.val → getPort t j = getPort s j) ∧ sameMemory s t
    let fails := fun (c : Instr) => x.txq = [] →
      (x.quick = true → x.quickFails < 2 → nextIs c s fun t => portState t p = 3 ∧ getPort t p = { x with quickFails := x.quickFails + 1 } ∧
        onlyRegs s t [rLNKSTAT p] ∧ others t) ∧
      (x.quick = false → x.attempts < 2 → nextIs c s fun t => portState t p = 2 ∧ getPort t p = { x with attempts := x.attempts + 1 } ∧
        onlyRegs s t [rLNKSTAT p] ∧ others t) ∧
      (x.quick = false → 2 ≤ x.attempts → hedgedAt s 8 p = false → lanternHedged s p = false → nextIs c s fun t => portState t p = 7 ∧ hedgedAt t 8 p = true ∧
        getF t (fLANEMAP_ACTIVE p) = 0)
    (∀ (tgts : List Nat) (kp : Int), getF s (fLANSTAT_STATE p) ≠ 3 → exec (.laserWarmupDone p tgts kp) s = .next s) ∧
    (∀ locks, portState s p ≠ 2 → exec (.ringlock p locks) s = .next s) ∧
    (∀ errs peer, portState s p ≠ 3 → exec (.lanetrain p errs peer) s = .next s) ∧
    (∀ ok byte, portState s p ≠ 4 → exec (.align p ok byte) s = .next s) ∧
    (∀ serial q lasers byte, portState s p ≠ 5 → exec (.ident p serial q lasers byte) s = .next s) ∧
    (∀ (tgts : List Nat) (kp : Int), getF s (fLANSTAT_STATE p) = 3 → portState s p = 1 → (getLan s p).mem.length = 512 →
      nextIs (.laserWarmupDone p tgts kp) s fun t => getF t (fLANSTAT_STATE p) = 4 ∧ portState t p = 2 ∧ others t ∧
        (∀ k : Fin 18, getF t (fLASER_STATE p k) = getF s (fLASER_STATE p k) ∧ 
          (laserInService s p k = true → getF t (fLASER_BIAS p k) = binit (getLan s p).mem k % 2 ^ 16) ∧
          (laserInService s p k = false → getF t (fLASER_BIAS p k) = 0)) ∧
        (∀ l : Fin 16, txLaser t p l = (((List.range 18).filter (laserInService s p))[l.val]?).getD (txLaser s p l)) ∧
        (isSet s (fLANSTAT_KNOWN p) = false ∨ storedCal s p = none →
          (getLan t p).tgt = (List.range 18).zip (tgts.map (fun t => t % 65536)) ∧ (getLan t p).kp = kp ∧ isSet t (fLANSTAT_KNOWN p) = true) ∧
        (∀ c, isSet s (fLANSTAT_KNOWN p) = true → storedCal s p = some c → (getLan t p).tgt = c.1 ∧ (getLan t p).kp = c.2 ∧
          t.lodge = s.lodge ∧ (getLan t p).mem = (getLan s p).mem)) ∧
    (∀ locks, portState s p = 2 → nextIs (.ringlock p locks) s fun t => portState t p = 3 ∧
      (∀ (l : Fin 16) (k : RingLock), locks[l.val]? = some k →
        getF t (fLANEHTR_TX p l) = min k.htx 20000 ∧ getF t (fLANEHTR_RX p l) = min k.hrx 20000) ∧
      (∀ l : Fin 16, locks[l.val]? = none → regGet t (rLANEHTR p l) = regGet s (rLANEHTR p l)) ∧
      onlyRegs s t (rLNKSTAT p :: (List.range 16).map (rLANEHTR p)) ∧ others t) ∧
    (∀ (errs : List Nat) (peer : BitVec 16), portState s p = 3 →
      let ok := fun (l : Nat) => (errs[l]?).any (fun n => decide (n ≤ 10000)) && bitOf peer.toNat l && !(getBit s (fLANEMAP_HEDGED p) l)
      let n := ((List.range 16).filter ok).length
      let need := if getF s (fLNKCTL_MINLANES p) = 0 then 1 else min (getF s (fLNKCTL_MINLANES p)) 16
      (n < need → fails (.lanetrain p errs peer)) ∧
      (need ≤ n → nextIs (.lanetrain p errs peer) s fun t => portState t p = 4 ∧ getF t (fLNKSTAT_ACTIVE p) = n ∧
        (∀ l : Fin 16, getBit t (fLANEMAP_ACTIVE p) l = ok l) ∧ others t ∧
        (hedgedAt s 8 p = false → lanternHedged s p = false → (∀ l : Fin 16, getBit s (fLANEMAP_HEDGED p) l = s.hedges.any (fun h => h.cls == 7 && h.res % 128 == p + 8 * l)) →
          ∀ l : Fin 16, getBit t (fLANEMAP_HEDGED p) l = !(ok l)))) ∧
    (∀ byte : Byte, portState s p = 4 → x.txq = [] → x.ctlq = [] → x.lanes = [] →
      (fails (.align p false byte)) ∧
      (x.quick = true → x.undrain = false → nextIs (.align p true byte) s fun t => portState t p = 6 ∧ (getPort t p).quick = false ∧ (getPort t p).quickFails = 0 ∧
        t.wire = s.wire ++ ((List.range x.buf.length).zip x.buf).map (fun q => (p.val, laneOf s p q.1, q.2.bytes s p)) ∧ (getPort t p).txSeq = x.txSeq ∧ (getPort t p).rxSeq = x.rxSeq ∧
        getF t (fREPLAYCNT_REPLAYS p) = (getF s (fREPLAYCNT_REPLAYS p) + if x.buf = [] then 0 else 1) % 2 ^ 32 ∧
        isSet t (fHOST_IRQSRC_PEND 5) = true ∧ others t) ∧
      (x.quick = false → x.nakIn = none → x.buf.length < 4095 → nextIs (.align p true byte) s fun t => portState t p = 5 ∧ (getPort t p).ownByte = byte ∧
        (getPort t p).txSeq = (x.txSeq + 1) % 65536 ∧ others t ∧ ∃ b, t.wire = s.wire ++ [(p.val, laneOf s p 0, b)] ∧ (let f := readFlit b
          f.ctrl = true ∧ f.seq = x.txSeq % 65536 ∧ f.crcOk = true ∧ f.payload.take 24 = Config.ctlCode 0 :: leBytes 6 (getF s fHOST_SERIAL_SERIAL) ++
            leBytes 1 p ++ (List.range 16).map (fun l => BitVec.ofNat 8 (txLaser s p l))))) ∧
    (∀ (serial : BitVec 48) (q : Fin 8) (lasers : List (Fin 18)) (byte : Byte), portState s p = 5 → x.txq = [] → x.ctlq = [] → x.lanes = [] → x.undrain = false →
      isSet s (fLNKCTL_DRAIN p) = false → hedgedAt s 8 p = false → nextIs (.ident p serial q lasers byte) s fun t => portState t p = 6 ∧
        getF t (fLNKPEER_SERIAL p) = serial.toNat ∧ getF t (fLNKPEER_PORT p) = q ∧
        getF t (fLNKSESS_LINKID p) = (if getF s fHOST_SERIAL_SERIAL ≤ serial.toNat then x.ownByte.toNat * 256 + byte.toNat
          else byte.toNat * 256 + x.ownByte.toNat) ∧
        getF t (fLNKSESS_SESSIONS p) = (getF s (fLNKSESS_SESSIONS p) + 1) % 2 ^ 32 ∧
        (∀ v : Fin 3, vcCredit t p v = 1024) ∧ getBit t readyBits (48 + p) = true ∧ (getPort t p).rxSeq = (x.rxSeq + 1) % 65536 ∧
        getF t (fLNKEVT_PEERCNT p) = (getF s (fLNKEVT_PEERCNT p) + if 0 < getF s (fLNKSESS_SESSIONS p) ∧
          (getF s (fLNKPEER_SERIAL p) ≠ serial.toNat ∨ getF s (fLNKPEER_PORT p) ≠ q) then 1 else 0) % 2 ^ 8 ∧
        (∀ (l : Fin 16) (k : Fin 18), lasers[l.val]? = some k → laserAt t fRXLAS0_LASER fRXLAS1_LASER p l = k) ∧ t.wire = s.wire ∧ others t)

/-- Retrains of a port (R518, R533, R544, R602). -/
def Obligations.PortsRetrain : Prop :=
  ∀ (s : State) (p : Fin 8), s.fatal = false →
    let x := getPort s p
    let others := fun (t : State) => ∀ j, j ≠ p.val → getPort t j = getPort s j
    let counted := fun (t : State) => isSet t (fLNKEVT_RETR p) = true ∧ getF t (fLNKEVT_RETRCNT p) = (getF s (fLNKEVT_RETRCNT p) + 1) % 2 ^ 16
    let quick := fun (c : Instr) => (portState s p ≠ 6 → exec c s = .next s) ∧
      (portState s p = 6 → nextIs c s fun t => portState t p = 3 ∧ getPort t p = { x with quick := true } ∧ counted t ∧
        getF t (fVCCRED_CRED p) = getF s (fVCCRED_CRED p) ∧ getF t (fLNKSESS_LINKID p) = getF s (fLNKSESS_LINKID p) ∧
        isSet t (fHOST_IRQSRC_PEND 5) = true ∧ others t ∧ sameMemory s t ∧ t.wickets = s.wickets)
    let fresh := fun (t : State) => counted t ∧ getF t (fLANEMAP_ACTIVE p) = 0 ∧
      (getPort t p).buf = [] ∧ (getPort t p).txq = [] ∧ (getPort t p).rxq = [] ∧ (getPort t p).txns = [] ∧ (getPort t p).wallets = [] ∧
      (getPort t p).txSeq = 0 ∧ (getPort t p).rxSeq = 65535 ∧ (getPort t p).quick = false ∧ (getPort t p).attempts = 0 ∧
      (∀ w : Fin 64, portGranted (getWk t w) p = 0)
    let starts := if isSet s (fLANCTL_EN p) = false ∨ isSet s (fLANCTL_FORCEOFF p) = true then 0 else if getF s (fLANSTAT_STATE p) = 4 then 2
      else if getF s (fLANSTAT_STATE p) = 3 then 1 else 0
    (awake s = true → quick (.quickRetrain p)) ∧
    (served s = true → quick (.retrain p)) ∧
    (awake s = true → s.still = true → x.txns = [] → (∀ k : Fin 16, (getStr s k).wait = .none_) →
      (isSet s (fLNKCTL_EN p) = false ∨ portHedged s p = true → exec (.fullRetrain p) s = .next s) ∧
      (isSet s (fLNKCTL_EN p) = true → portHedged s p = false → nextIs (.fullRetrain p) s fun t => portState t p = starts ∧ fresh t ∧ sameMemory s t) ∧
      (let due := isSet s (fLNKCTL_EN p) = true ∧ getF s (fLANSTAT_STATE p) = 4 ∧ portState s p = 7 ∧ lanternHedged s p = false ∧
          x.tries + 6000000000 ≤ tick s ∧ ∃ h, hedgeOf s 8 p = some h ∧ h.lasting = true ∧ h.probing = false
       (¬ due → exec (.portRetryTimer p) s = .next s) ∧
       (due → nextIs (.portRetryTimer p) s fun t => portState t p = starts ∧ fresh t ∧ (getPort t p).tries = tick s ∧ t.hedges = s.hedges ∧ sameMemory s t)))

/-- Lanes and drains of a port (R514, R516, R517, R530 to R532, R545); MINLANES lanes or more are in the stripe where a clause says so (R532). -/
def Obligations.LanesAndDrainsOfAPort : Prop :=
  ∀ (s : State) (p : Fin 8), s.fatal = false →
    let x := getPort s p
    let others := fun (t : State) => (∀ j, j ≠ p.val → getPort t j = getPort s j) ∧ sameMemory s t
    let maySend := x.nakIn = none ∧ x.ctlq = [] ∧ x.buf.length < 4095
    let onlyPort := fun (t : State) (y : Port) => getPort t p = y ∧ (∀ j, j ≠ p.val → getPort t j = getPort s j) ∧ { t with ports := s.ports } = s
    let control := fun (t : State) (code : Nat) => (getPort t p).txSeq = (x.txSeq + 1) % 65536 ∧ ∃ b, t.wire = s.wire ++ [(p.val, laneOf s p 0, b)] ∧
      (let f := readFlit b; f.ctrl = true ∧ f.seq = x.txSeq % 65536 ∧ f.crcOk = true ∧ f.payload.getD 0 0 = Config.ctlCode code)
    let heldOne := fun (op core : Nat) (d : DynOp) (q : Xfer) (w : Nat) => s.ops = [(op, d)] ∧ d.shares = [⟨core, .sload q, some w, .waiting 0⟩] ∧
      spaceOf q.src = 9 ∧ peerPort q.src = p.val
    let enough := minLanes s p ≤ activeLanes s p
    let nothingHeld := (∀ k : Fin 16, (getStr s k).wait = .none_) ∧ (∀ ch : Fin 64, (getChan s ch).heldAt = none)
    (awake s = true → portUp s p = false → (∀ l n, exec (.laneoff p l n) s = .next s ∧ exec (.laneon p l n) s = .next s) ∧
      (∀ l k, exec (.lanemove p l k) s = .next s) ∧ exec (.drain p) s = .next s ∧ exec (.undrain p) s = .next s ∧
      (∀ m, exec (.laneErrorMeasurement p m) s = .next s)) ∧
    (awake s = true → portUp s p = true →
      (∀ (l : Fin 16) (n : Fin 65536),
        (nextIs (.laneoff p l n) s fun t => onlyPort t { x with lanes := x.lanes ++ [⟨l, false, true, n⟩] }) ∧
        (nextIs (.laneon p l n) s fun t => onlyPort t { x with lanes := x.lanes ++ [⟨l, true, true, n⟩] })) ∧
      (∀ (b : List Byte) (c : LaneChange), s.still = true → x.lanes = [c] → c.rx = true → c.lane < 16 → x.txq = [] → x.ctlq = [] → x.buf = [] →
        let f := readFlit b
        f.crcOk = true → f.linkid = getF s (fLNKSESS_LINKID p) → f.nak = false → f.credit = 0 → f.seq = (x.rxSeq + 1) % 65536 → f.idle = false →
        f.ctrl = false → f.vc < 3 → f.sop = 15 → amGet (fun _ => []) x.rxPart f.vc = [] →
        (c.seq = (f.seq + 1) % 65536 → c.on = false → getBit s (fLANEMAP_ACTIVE p) c.lane = true → activeLanes s p = minLanes s p →
          hedgedAt s 8 p = false → lanternHedged s p = false → nextIs (.flitReceive p b) s fun t => hedgedAt t 8 p = true ∧ portState t p = 7) ∧
        (minLanes s p < activeLanes s p → nextIs (.flitReceive p b) s fun t => (getPort t p).rxSeq = f.seq ∧ (∀ j : Fin 16, j.val ≠ c.lane → getBit t (fLANEMAP_ACTIVE p) j = getBit s (fLANEMAP_ACTIVE p) j) ∧
          (c.seq = (f.seq + 1) % 65536 → getBit t (fLANEMAP_ACTIVE p) c.lane = c.on ∧ (getPort t p).lanes = []) ∧
          (c.seq ≠ (f.seq + 1) % 65536 → getBit t (fLANEMAP_ACTIVE p) c.lane = getBit s (fLANEMAP_ACTIVE p) c.lane ∧ (getPort t p).lanes = [c]))) ∧
      (∀ (l : Fin 16) (k : Fin 18), nextIs (.lanemove p l k) s fun t => laserAt t fRXLAS0_LASER fRXLAS1_LASER p l = k ∧
        (∀ j : Fin 16, j ≠ l → laserAt t fRXLAS0_LASER fRXLAS1_LASER p j = laserAt s fRXLAS0_LASER fRXLAS1_LASER p j) ∧ t.ports = s.ports ∧ others t) ∧
      (nextIs (.drain p) s fun t => onlyPort t { x with peerDrain := true } ∧ portHolds t p = true) ∧
      (s.ops = [] → nothingHeld → nextIs (.undrain p) s fun t => onlyPort t { x with peerDrain := false }) ∧
      (∀ meas : List LaneMeas, s.still = true → enough → whenDue (due s (evLanes p) 100000000) (.laneErrorMeasurement p meas) s fun t =>
        (∀ l : Fin 16, (getBit s (fLANEMAP_ACTIVE p) l = false ∨ meas[l.val]? = none →
            getF t (fFECSYM_COUNT p l) = getF s (fFECSYM_COUNT p l) ∧ getF t (fFECUNC_COUNT p l) = getF s (fFECUNC_COUNT p l) ∧
            getF t (fLANEBER_PPT p l) = getF s (fLANEBER_PPT p l)) ∧
          (∀ m, getBit s (fLANEMAP_ACTIVE p) l = true → meas[l.val]? = some m → (∀ m' ∈ meas, m'.unc ≤ 10 ∧ m'.ber ≤ 200000000) →
            getF t (fFECSYM_COUNT p l) = (getF s (fFECSYM_COUNT p l) + m.sym) % 2 ^ 64 ∧
            getF t (fFECUNC_COUNT p l) = (getF s (fFECUNC_COUNT p l) + m.unc) % 2 ^ 32 ∧ getF t (fLANEBER_PPT p l) = m.ber ∧
            amGet (fun _ => 0) (getPort t p).bad l = 0 ∧ t.hedges = s.hedges ∧ others t)) ∧
        (∀ m, meas = [m] → getBit s (fLANEMAP_ACTIVE p) 0 = true → hedgedAt s 8 p = false → lanternHedged s p = false → 10 < m.unc ∨ (200000000 < m.ber ∧ amGet (fun _ => 0) x.bad 0 = 2) →
          hedgedAt t 7 (p + 128) = true))) ∧
    (served s = true → x.lanes = [] →
      (isSet s (fLNKCTL_DRAIN p) = true → exec (.lnkctlDrainSet p) s = .next s) ∧
      (isSet s (fLNKCTL_DRAIN p) = false → nextIs (.lnkctlDrainSet p) s fun t => isSet t (fLNKCTL_DRAIN p) = true ∧ portHolds t p = true ∧
        (getPort t p).undrain = false ∧ others t ∧ (portUp s p = true → maySend → control t 4) ∧ (portUp s p = false → portState s p ≠ 5 → t.wire = s.wire)) ∧
      (isSet s (fLNKCTL_DRAIN p) = false → exec (.lnkctlDrainClear p) s = .next s) ∧
      (isSet s (fLNKCTL_DRAIN p) = true → s.ops = [] → nothingHeld → nextIs (.lnkctlDrainClear p) s fun t =>
        isSet t (fLNKCTL_DRAIN p) = false ∧ others t ∧
        (portUp s p = true → portHolds t p = x.peerDrain ∧ (maySend → control t 5)) ∧ (portUp s p = false → t.wire = s.wire ∧ portHolds t p = true))) ∧
    (working s = true → s.still = true → nothingHeld → ∀ (op core : Nat) (d : DynOp) (q : Xfer) (w : Nat), heldOne op core d q w →
      let lim := getF s (fLNKCTL_HOLDTO p) * 100000
      (getF s (fLNKCTL_HOLDTO p) = 0 ∨ portHolds s p = false ∨ tick s ≤ d.tick + lim → exec (.holdLimitExpiry p) s = .next s) ∧
      (0 < getF s (fLNKCTL_HOLDTO p) → portHolds s p = true → d.tick + lim < tick s → d.count = false → d.held = false → s.packets = [] →
        w % 8 = 0 → orgAssigned w = true → s.waiters = [] → s.tasks = [] → metaOf s w = .empty → bankHedged s w = false →
        nextIs (.holdLimitExpiry p) s fun t =>
          t.ops = [] ∧ wordVal t w = cplValue 1 9 0 ∧ metaOf t w = .poisoned ∧ (∀ z, z ≠ w → metaOf t z = metaOf s z) ∧
          (∀ b, b < w ∨ w + 8 ≤ b → orgByte t b = orgByte s b) ∧ t.dram = s.dram ∧ t.host = s.host ∧ t.ports = s.ports)) ∧
    (awake s = true → ∀ (l : Fin 16) (pin pdr rx : BitVec 32),
      let g := amGet (fun _ => (⟨0, 0, 1, 0, false, 0⟩ : Ring)) x.rings l
      let r := sext 32 (pdr.toNat * 4096 / max pin.toNat 1 % 2 ^ 32)
      let step := if g.odd then g.step else if g.plast ≤ sext 32 rx.toNat then g.step else -g.step
      let h := (getF s (fLANEHTR_TX p l) : Int) + (r - g.rset) * g.ksign * 3 / 16
      let clamped := fun (v : Int) => (max 0 (min v 20000)).toNat
      let far := 512 < (r - g.rset).natAbs
      let loses := far ∧ g.off = 9 ∧ portUp s p = true ∧ getBit s (fLANEMAP_ACTIVE p) l = true ∧ x.testing.contains l.val = false
      (portState s p < 2 ∨ portState s p = 7 → exec (.ringLockLoop p l pin pdr rx) s = .next s) ∧
      (2 ≤ portState s p → portState s p ≤ 6 → (loses → enough) → whenDue (due s (evRing p l) 1000) (.ringLockLoop p l pin pdr rx) s fun t => others t ∧
        getF t (fLANEHTR_TX p l) = clamped h ∧ getF t (fLANEHTR_RX p l) = clamped ((getF s (fLANEHTR_RX p l) : Int) + step) ∧
        (let g' := amGet (fun _ => (⟨0, 0, 1, 0, false, 0⟩ : Ring)) (getPort t p).rings l
         g'.step = step ∧ g'.plast = sext 32 rx.toNat ∧ g'.odd = !g.odd ∧ g'.rset = g.rset) ∧
        (¬ loses → g.off < 10 → (getPort t p).testing = x.testing ∧ (getPort t p).lanes = x.lanes ∧ t.wire = s.wire ∧ onlyRegs s t [rLANEHTR p l]) ∧
        (loses → x.lanes = [] → maySend → (getPort t p).testing = x.testing ++ [l.val] ∧ control t 1 ∧
          (getPort t p).lanes = [⟨l, false, false, (x.txSeq + 64) % 65536⟩]))) ∧
    (awake s = true → ∀ (l : Fin 16) (errs : Nat) (lock : Option RingLock),
      (x.testing.contains l.val = false → exec (.laneTestDone p l errs lock) s = .next s) ∧
      (x.testing.contains l.val = true →
        (∀ k, lock = some k → errs ≤ 4000 → enough → nextIs (.laneTestDone p l errs lock) s fun t => (getPort t p).testing.contains l.val = false ∧
          others t ∧ getF t (fLANEHTR_TX p l) = min k.htx 20000 ∧ getF t (fLANEHTR_RX p l) = min k.hrx 20000 ∧
          (portUp s p = true → getBit s (fLANEMAP_HEDGED p) l = false → x.lanes = [] → maySend → control t 2 ∧
            (getPort t p).lanes = [⟨l, true, false, (x.txSeq + 64) % 65536⟩]) ∧
          (portUp s p = false ∨ getBit s (fLANEMAP_HEDGED p) l = true → t.wire = s.wire)) ∧
        (lock = none ∨ 4000 < errs → hedgedAt s 8 p = false → lanternHedged s p = false → nextIs (.laneTestDone p l errs lock) s fun t =>
          (getPort t p).testing.contains l.val = false ∧ hedgedAt t 7 (p + 8 * l) = true)))

/-- Lanterns (R512, R549, R551 to R555, R557 to R559). -/
def Obligations.LanternsLiveInTheirBays : Prop :=
  ∀ (s : State) (p : Fin 8),
    let y := getLan s p
    let state := fun (t : State) => getF t (fLANSTAT_STATE p)
    let present := isSet s (fLANSTAT_PRESENT p) = true
    let others := fun (t : State) => (∀ j, j ≠ p.val → getLan t j = getLan s j) ∧ (∀ j, j ≠ p.val → getPort t j = getPort s j)
    let dark := fun (t : State) => ∀ k : Fin 18, getF t (fLASER_BIAS p k) = 0 ∧ getF t (fLASER_POWER p k) = 0
    let lit := state s = 3 ∨ state s = 4
    let canEmit := isSet s (fLANCTL_EN p) = true ∧ isSet s (fLANCTL_FORCEOFF p) = false
    let shows := fun (t : State) (m : List Byte) => ∀ q : Fin 64, (regGet t (rIDMEM p q)).toNat = fieldAt m (8 * q) 8
    let accepted := fun (t : State) (m : List Byte) (b : Nat) (emits : Prop) =>
      (emits → state t = 3) ∧ (¬ emits → state t = 5) ∧ shows t m ∧ lanternHedged t p = false ∧
      (∀ k : Fin 18, getF t (fLASER_STATE p k) = laserState m b k) ∧
      (emits → isSet t (fLANSTAT_KNOWN p) = false → ∀ k : Fin 18, getF t (fLASER_BIAS p k) = binit m k % 2 ^ 16) ∧
      getF t (fLANSTAT_SPARES p) = ((List.range 18).filter (fun k => laserState m b k == 0)).length % 16
    let hedgedNow := fun (t : State) => lanternHedged t p = true ∧ portState t p = 7
    let quiet := s.still = true ∧ (getPort s p).txns = [] ∧ (∀ k : Fin 16, (getStr s k).wait = .none_) ∧ lanternHedged s p = false
    (∀ (mem : List Byte) (latched : Bool), let m := (padTo 512 mem).take 512
      (present → exec (.lanternInsertion p mem latched) s = .next s) ∧
      (¬ present → on s = false → nextIs (.lanternInsertion p mem latched) s fun t => isSet t (fLANSTAT_PRESENT p) = true ∧
        isSet t (fLANSTAT_INTLK p) = latched ∧ (getLan t p).mem = m ∧ others t ∧ onlyRegs s t [rLANSTAT p]) ∧
      (¬ present → on s = true → quiet →
        (∀ c, rejectCause m (minLanes s p) = c → c ≠ 0 → (m.take 4 ≠ [0x4C#8, 0x4E#8, 0x54#8, 0x4E#8] → c = 1) ∧
          nextIs (.lanternInsertion p mem latched) s fun t => state t = 2 ∧ getF t (fLANSTAT_REJCAUSE p) = c ∧ shows t m ∧ hedgedNow t ∧ (getLan t p).mem = m) ∧
        (∀ b, rejectCause m (minLanes s p) = 0 → validCopy m = some b → nextIs (.lanternInsertion p mem latched) s fun t =>
          accepted t m b (latched = true ∧ canEmit) ∧ (getLan t p).mem = m ∧
          (latched = true → canEmit → portState s p = 0 → isSet s (fLNKCTL_EN p) = true → hedgedAt s 8 p = false → portState t p = 1)))) ∧
    (let gone := fun (t : State) => isSet t (fLANSTAT_PRESENT p) = false ∧ isSet t (fLANSTAT_INTLK p) = false ∧ state t = 0 ∧ getLan t p = Lantern.reset ∧
        (∀ j, j ≠ p.val → getLan t j = getLan s j)
     (¬ present → exec (.lanternRemoval p) s = .next s) ∧
     (present → on s = false → nextIs (.lanternRemoval p) s fun t => gone t ∧ getF t (fLANPWR_MW p) = 0 ∧ onlyRegs s t [rLANSTAT p, rLANPWR p] ∧ t.hedges = s.hedges) ∧
     (present → on s = true → quiet → nextIs (.lanternRemoval p) s fun t => gone t ∧ dark t ∧
        (canEmit → hedgedNow t) ∧ (isSet s (fLANCTL_FORCEOFF p) = true → t.hedges = s.hedges ∧ portState t p = portState s p))) ∧
    (isSet s (fLANSTAT_INTLK p) = false → exec (.interlockOpen p) s = .next s) ∧
    (isSet s (fLANSTAT_INTLK p) = true → quiet → nextIs (.interlockOpen p) s fun t => isSet t (fLANSTAT_INTLK p) = false ∧
      (¬ lit ∨ on s = false → onlyRegs s t [rLANSTAT p] ∧ { t with regs := s.regs } = s ∧ state t = state s) ∧
      (lit → on s = true → dark t ∧ state t = 5 ∧ (canEmit → hedgedNow t))) ∧
    (¬ present ∨ isSet s (fLANSTAT_INTLK p) = true → exec (.interlockClose p) s = .next s) ∧
    (present → isSet s (fLANSTAT_INTLK p) = false → quiet → nextIs (.interlockClose p) s fun t => isSet t (fLANSTAT_INTLK p) = true ∧
      (state s ≠ 5 ∨ on s = false → onlyRegs s t [rLANSTAT p] ∧ { t with regs := s.regs } = s ∧ state t = state s) ∧
      (∀ b, state s = 5 → on s = true → rejectCause y.mem (minLanes s p) = 0 → validCopy y.mem = some b → accepted t y.mem b (canEmit ∧ y.supplyOff = false))) ∧
    (awake s = true →
      (¬ present → exec (.bayOvercurrent p) s = .next s) ∧
      (present → quiet → nextIs (.bayOvercurrent p) s fun t => (getLan t p).supplyOff = true ∧ dark t ∧ (lit → state t = 5) ∧
        (canEmit → hedgedNow t)) ∧
      (state s ≠ 4 → exec (.laserWearCheck p) s = .next s) ∧ (¬ present → ∀ mpd mw c, exec (.laserPowerLoop p mpd mw c) s = .next s) ∧
      (∀ (mpd : List Nat) (mw : Nat) (c : BitVec 8), present → whenDue (due s (evPower p) 100000) (.laserPowerLoop p mpd mw c) s fun t =>
        getF t (fLANPWR_MW p) = min mw 65535 ∧ getF t (fLANSTAT_CASET p) = c.toNat ∧ (getLan t p).energy = y.energy + mw ∧ (getLan t p).tmax = max y.tmax c.toNat ∧
        others t ∧ sameMemory s t ∧
        (∀ k : Fin 18, (state s ≠ 4 ∨ laserInService s p k = false ∨ mpd[k.val]? = none → regGet t (rLASER p k) = regGet s (rLASER p k)) ∧
          (∀ m, state s = 4 → laserInService s p k = true → mpd[k.val]? = some m →
            let err := ((amGet (fun _ => 0) y.tgt k : Nat) : Int) - ((m % 65536 : Nat) : Int)
            getF t (fLASER_POWER p k) = m % 65536 ∧ getF t (fLASER_BIAS p k) =
              (max 0 (min ((getF s (fLASER_BIAS p k) : Int) + err * y.kp / 1024) ((binit y.mem k * 150 / 100 % 65536 : Nat) : Int))).toNat ∧
            getF t (fLASER_STATE p k) = getF s (fLASER_STATE p k)))) ∧
      (∀ k : Fin 18, state s = 4 → s.still = true → (∀ j : Fin 18, laserInService s p j = decide (j = k)) → y.mem.length = 512 → 0 < binit y.mem k →
        let cnts := (amGet (fun _ => 0) y.sums (32 + k) :: amGet (fun _ => []) y.means (32 + k)).take 60
        let sums := (amGet (fun _ => 0) y.sums k :: amGet (fun _ => []) y.means k).take 60
        let r := sums.sum / cnts.sum % 65536 * 100 / binit y.mem k % 65536
        0 < cnts.sum →
        (r < 130 → amGet (fun _ => 0) y.capped k < 1000 → whenDue (due s (evWear p) 100000000) (.laserWearCheck p) s fun t => getF t (fLASER_RATIO p k) = min r 255 ∧
          getF t (fLASER_STATE p k) = getF s (fLASER_STATE p k) ∧ onlyRegs s t [rLASER p k] ∧ others t ∧ t.hedges = s.hedges) ∧
        (130 ≤ r → r < 150 → amGet (fun _ => 0) y.capped k < 1000 → getF s (fLASER_STATE p k) = 1 → whenDue (due s (evWear p) 100000000) (.laserWearCheck p) s fun t =>
          getF t (fLASER_RATIO p k) = min r 255 ∧ getF t (fLASER_STATE p k) = 2 ∧ isSet t (fLANEVT_WEAR p) = true ∧
          getF t (fLANEVT_WEARCNT p) = (getF s (fLANEVT_WEARCNT p) + 1) % 2 ^ 16 ∧ t.hedges = s.hedges ∧ others t) ∧
        (150 ≤ r ∨ 1000 ≤ amGet (fun _ => 0) y.capped k → y.retiring = none →
          (∀ j, (List.range 18).find? (fun j => getF s (fLASER_STATE p j) == 0) = some j → amGet (fun _ => 0) y.sums (32 + j) = 0 → amGet (fun _ => []) y.means (32 + j) = [] →
            whenDue (due s (evWear p) 100000000) (.laserWearCheck p) s fun t =>
            getF t (fLASER_STATE p k) = 3 ∧ getF t (fLASER_STATE p j) = 1 ∧ getF t (fLASER_BIAS p j) = binit y.mem j % 2 ^ 16 ∧
            (getLan t p).settling = some j ∧ (getLan t p).retiring = some k.val ∧ t.hedges = s.hedges ∧ others t) ∧
          ((∀ j : Fin 18, getF s (fLASER_STATE p j) ≠ 0) → hedgedAt s 8 p = false → lanternHedged s p = false → whenDue (due s (evWear p) 100000000) (.laserWearCheck p) s fun t => getF t (fLASER_STATE p k) = 3 ∧ getF t (fLASER_BIAS p k) = 0 ∧
            getF t (fLANEVT_REPLCNT p) = (getF s (fLANEVT_REPLCNT p) + 1) % 2 ^ 16 ∧
            (∀ l, (List.range 16).find? (fun l => txLaser s p l == k.val) = some l → hedgedAt t 7 (p + 8 * l) = true)))) ∧
      (y.settling = none → exec (.spareSettled p) s = .next s) ∧
      (y.settling ≠ none → nextIs (.spareSettled p) s fun t => getLan t p = { y with
        settling := none, moves := ((List.range 16).filter (fun l => (((List.range 18).filter (laserInService s p))[l]?).any (fun k => txLaser s p l != k))).reverse } ∧
        { t with lanterns := s.lanterns } = s ∧ others t) ∧
      (let ended := fun (t : State) (k : Nat) => (getLan t p).retiring = none ∧ getF t (fLASER_BIAS p k) = 0 ∧ getF t (fLASER_POWER p k) = 0 ∧
          getF t (fLANEVT_SWCNT p) = (getF s (fLANEVT_SWCNT p) + 1) % 2 ^ 16 ∧ getF t (fLANEVT_REPLCNT p) = (getF s (fLANEVT_REPLCNT p) + 1) % 2 ^ 16
       ((getPort s p).testing ≠ [] ∨ (y.moves = [] ∧ (y.retiring = none ∨ y.settling ≠ none)) → exec (.laneMove p) s = .next s) ∧
       (∀ k : Nat, y.moves = [] → y.settling = none → y.retiring = some k → k < 18 → (getPort s p).testing = [] → nextIs (.laneMove p) s fun t =>
          ended t k ∧ others t ∧ sameMemory s t) ∧
       (∀ (l : Fin 16) (errs k : Nat) (lock : RingLock), y.moves = [] → y.settling = none → y.retiring = some k → k < 18 → (getPort s p).testing = [l.val] →
          errs ≤ 4000 → minLanes s p ≤ activeLanes s p → nextIs (.laneTestDone p l errs (some lock)) s fun t => ended t k ∧ others t ∧ sameMemory s t) ∧
       (∀ l rest k, y.moves = l :: rest → l < 16 → (getPort s p).testing = [] → (getPort s p).lanes = [] →
        ((List.range 18).filter (laserInService s p))[l]? = some k → (portUp s p = true → minLanes s p ≤ activeLanes s p) →
        nextIs (.laneMove p) s fun t => (getLan t p).moves = rest ∧ others t ∧ sameMemory s t ∧
          txLaser t p l = k ∧ getF t (fLASER_LANE p k) = l ∧ (∀ j : Fin 16, j.val ≠ l → txLaser t p j = txLaser s p j) ∧
          (portUp s p = false → (getPort s p).quick = false → t.ports = s.ports ∧ t.wire = s.wire) ∧
          (portUp s p = true → getBit s (fLANEMAP_ACTIVE p) l = true → (getPort s p).nakIn = none → (getPort s p).ctlq = [] → (getPort s p).buf.length < 4094 →
            (getPort t p).testing = [l] ∧ (getLan t p).retiring = y.retiring ∧
            t.wire.length = s.wire.length + 2 ∧ (getPort t p).lanes = [⟨l, false, false, ((getPort s p).txSeq + 64) % 65536⟩]) ∧
          (rest ≠ [] → (getLan t p).retiring = y.retiring) ∧
          (∀ k : Nat, rest = [] → portUp s p = false → y.settling = none → y.retiring = some k → k < 18 → ended t k))) ∧
      (let due := present ∧ state s ≠ 2 ∧ y.hourAt + 360000000000 ≤ tick s
       (¬ due → exec (.usageRecordWrite p) s = .next s) ∧
       (∀ b, due → validCopy y.mem = some b → y.mem.length = 512 → fieldAt y.mem b 4 + 1 < 2 ^ 32 →
        let h := (tick s - y.hourAt) / 360000000000
        fieldAt y.mem (b + 4) 4 + h < 2 ^ 32 → nextIs (.usageRecordWrite p) s fun t => let b' := if b = 0x100 then 0x180 else 0x100
          validCopy (getLan t p).mem = some b' ∧ fieldAt (getLan t p).mem b' 4 = fieldAt y.mem b 4 + 1 ∧
          fieldAt (getLan t p).mem (b' + 4) 4 = fieldAt y.mem (b + 4) 4 + h ∧ getF t (fLANLIFE_HOURS p) = fieldAt y.mem (b + 4) 4 + h ∧
          (y.tmax < 256 → fieldAt (getLan t p).mem (b' + 0xC) 1 = max (fieldAt y.mem (b + 0xC) 1) y.tmax) ∧
          (getLan t p).mem.take 256 = y.mem.take 256 ∧ (getLan t p).hourAt = y.hourAt + h * 360000000000 ∧ others t ∧ sameMemory s t))) ∧
    (served s = true →
      (isSet s (fLANCTL_FORCEOFF p) = false → present → quiet → nextIs (.forceoffSet p) s fun t => isSet t (fLANCTL_FORCEOFF p) = true ∧
        isSet t (fLANCTL_EN p) = isSet s (fLANCTL_EN p) ∧ dark t ∧ hedgedNow t ∧ (lit → state t = 5)) ∧
      (isSet s (fLANCTL_FORCEOFF p) = true → s.still = true → nextIs (.forceoffSet p) s fun t => ∀ off, regGet t off = regGet s off) ∧
      (isSet s (fLANCTL_FORCEOFF p) = false → s.still = true → nextIs (.forceoffClear p) s fun t => ∀ off, regGet t off = regGet s off) ∧
      (∀ b h, isSet s (fLANCTL_FORCEOFF p) = true → present → s.hedges = [h] → h.cls = 9 → h.res = p + 0x1F00 → h.held = false → s.still = true →
        (getPort s p).txns = [] → (∀ k : Fin 16, (getStr s k).wait = .none_) → isSet s (fLANSTAT_INTLK p) = true → isSet s (fLANCTL_EN p) = true →
        y.supplyOff = false → rejectCause y.mem (minLanes s p) = 0 → validCopy y.mem = some b → portState s p = 7 → isSet s (fLNKCTL_EN p) = true →
        nextIs (.forceoffClear p) s fun t => isSet t (fLANCTL_FORCEOFF p) = false ∧ state t = 3 ∧ t.hedges = [] ∧ portState t p = 1))

/-- Hedges, probes and the host's hedge commands (R588, R590, R592, R598 to R602, R612, R94). -/
def Obligations.HedgesAndProbes : Prop :=
  ∀ s : State,
    let counts := fun (t : State) (cls : Nat) (n : Nat) => getF t fERRSTAT_HEDGECNT = (getF s fERRSTAT_HEDGECNT + n) % 2 ^ (fERRSTAT_HEDGECNT.hi + 1 - fERRSTAT_HEDGECNT.lo) ∧
      getF t (fHEDGECNT_HEDGES cls) = (getF s (fHEDGECNT_HEDGES cls) + n) % 2 ^ ((fHEDGECNT_HEDGES cls).hi + 1 - (fHEDGECNT_HEDGES cls).lo)
    let free := fun (cls key : Nat) => hedgedAt s cls key = false ∧ ∀ c ∈ containers cls key, hedgedAt s c.1 c.2 = false
    (awake s = true → ∀ (cls res : Nat) (rows : List Nat),
      let key := hedgeKey cls res
      (cls ≠ 0 → resExists cls res = false ∨ cls = 13 ∨ s.fatal = true → exec (.hedge cls res rows) s = .next s) ∧
      (cls = 0 → s.fatal = false → nextIs (.hedge cls res rows) s fun t => t.fatal = true ∧ t.hedges = s.hedges) ∧
      (resExists cls res = true → cls ≠ 13 → s.fatal = false → cls ≠ 11 ∨ res < 8 → free cls key → nextIs (.hedge cls res rows) s fun t =>
        (∃ h, hedgeOf t cls key = some h ∧ h.held = !(isSet s fPROBECFG_AUTO) ∧ h.probing = false ∧ h.lasting = false ∧ h.since = tick s ∧ h.cmd = 0 ∧
          ∀ r ∈ rows, r ∈ h.rows) ∧ isSet t fERRSTAT_HEDGE = true ∧ (cls ≠ 7 → counts t cls 1) ∧ (cls = 1 → getBit t fHEDGECORE_MAP key = true)) ∧
      (∀ h, resExists cls res = true → cls ≠ 13 → cls ≠ 7 → s.fatal = false → s.still = true → hedgeOf s cls key = some h →
        nextIs (.hedge cls res rows) s fun t => ∃ h', hedgeOf t cls key = some h' ∧ { h' with rows := h.rows } = h ∧ (∀ r ∈ rows, r ∈ h'.rows) ∧
          (∀ r ∈ h.rows, r ∈ h'.rows) ∧ sameMemory s t ∧ t.streams = s.streams ∧ t.tasks = s.tasks ∧
          (parityCause cls = 0 → cls ≠ 8 → { t with hedges := s.hedges, lodge := s.lodge } = s) ∧
          (cls = 8 → getF t (fKINDCNT_COUNT 0x0F) = (getF s (fKINDCNT_COUNT 0x0F) + 1) % 2 ^ 32) ∧
          (parityCause cls ≠ 0 → getF t (fKINDCNT_COUNT 0x14) = (getF s (fKINDCNT_COUNT 0x14) + 1) % 2 ^ 32)) ∧
      (cls = 11 → res = 8 ∨ res = 9 → s.fatal = false → hedgedAt s 11 res = false → nextIs (.hedge cls res rows) s fun t => t.fatal = true)) ∧
    (awake s = true → s.fatal = false → ∀ (cls res : Nat),
      let key := hedgeKey cls res
      (hedgeOf s cls key = none → exec (.probe cls res) s = .next s ∧ (s.still = true → ∀ ok l c, exec (.probeDone cls res ok l c) s = .next s)) ∧
      (∀ h, hedgeOf s cls key = some h →
        (h.probing = true ∨ h.held = true ∨ (h.lasting = true ∧ h.cmd = 0) ∨ cls = 12 → h.cls = cls → exec (.probe cls res) s = .next s) ∧
        (h.probing = false → s.still = true → ∀ ok l c, exec (.probeDone cls res ok l c) s = .next s))) ∧
    (awake s = true → s.still = true → s.fatal = false → ∀ (m : Fin 64) (h : Hedge), s.hedges = [h] → h.cls = 1 → h.res = m →
      (h.probing = false → h.held = false → h.lasting = false → (∀ k : Fin 16, (getStr s k).st = .idle ∨ (getStr s k).cores.contains m.val = false) →
        nextIs (.probe 1 m) s fun t => t.hedges = [{ h with probing := true, held := false, since := tick s }] ∧ getF t fERRSTAT_PROBING = 1 ∧
          onlyRegs s t [rERRSTAT] ∧ { t with hedges := s.hedges, regs := s.regs } = s) ∧
      (let n := transientsOf s 1 m
       let limit := if 2 ≤ getF s fPROBECFG_COUNT ∧ getF s fPROBECFG_COUNT ≤ 15 then getF s fPROBECFG_COUNT else 3
       let ran := fun (t : State) (lasting : Nat) => getF t fPROBECNT_RUN = (getF s fPROBECNT_RUN + 1) % 2 ^ 32 ∧
         getF t fPROBECNT_LASTING = (getF s fPROBECNT_LASTING + lasting) % 2 ^ 32 ∧ sameMemory s t
       let returned := fun (t : State) => t.hedges = [] ∧ getBit t fHEDGECORE_MAP m = false ∧ (getCore t m).tile = [] ∧ (getCore t m).left = [] ∧
         (getCore t m).weights = Weights.zero ∧ ∀ j, j ≠ m.val → getCore t j = getCore s j
       let stays := fun (t : State) => t.hedges = [{ h with probing := false, lasting := true, cmd := 0 }] ∧ t.cores = s.cores ∧ t.transients = s.transients
       let commanded := fun (t : State) (r : Nat) => h.cmd ≠ 0 → isSet t fHEDGECMDST_BUSY = false ∧ getF t fHEDGECMDST_RESULT = r
       ∀ (found : List Nat) (cures : Bool), h.probing = true →
        (h.cmd ≠ 3 → n + 1 < limit → nextIs (.probeDone 1 m true found cures) s fun t => ran t 0 ∧ returned t ∧
          t.transients = s.transients ++ [⟨1, m, s.lodge.powTicks + tick s, h.rows⟩] ∧ commanded t 1) ∧
        (h.cmd ≠ 3 → limit ≤ n + 1 → (∀ x ∈ s.transients, x.cls = 1 → x.res = m → x.rows = []) → h.rows = [] →
          nextIs (.probeDone 1 m true found cures) s fun t => ran t 1 ∧ stays t ∧ commanded t 2) ∧
        (∀ r, h.cmd ≠ 3 → limit ≤ n + 1 → (∀ x ∈ s.transients, x.cls = 1 → x.res = m → x.rows = [r]) → h.rows = [] → r < 130 →
          isSet s (fARRREPAIR_V0 (m / 8) (m % 8)) = false → isSet s (fARRREPAIR_V1 (m / 8) (m % 8)) = false →
          nextIs (.probeDone 1 m true found cures) s fun t => ran t 1 ∧ returned t ∧ commanded t 1 ∧
            isSet t (fARRREPAIR_V0 (m / 8) (m % 8)) = true ∧ getF t (fARRREPAIR_F0 (m / 8) (m % 8)) = r ∧ isSet t (fARRREPAIR_V1 (m / 8) (m % 8)) = false) ∧
        (h.cmd ≠ 3 → found = [] → nextIs (.probeDone 1 m false found cures) s fun t => ran t 1 ∧ stays t ∧ commanded t 2) ∧
        (∀ r, h.cmd ≠ 3 → found = [r] → r < 130 → isSet s (fARRREPAIR_V0 (m / 8) (m % 8)) = false → isSet s (fARRREPAIR_V1 (m / 8) (m % 8)) = false →
          nextIs (.probeDone 1 m false found cures) s fun t => ran t 1 ∧ returned t ∧ commanded t 1 ∧
            isSet t (fARRREPAIR_V0 (m / 8) (m % 8)) = true ∧ getF t (fARRREPAIR_F0 (m / 8) (m % 8)) = r ∧ isSet t (fARRREPAIR_V1 (m / 8) (m % 8)) = false ∧
            t.transients = s.transients.filter (fun x => !(x.cls == 1 && x.res == m.val))) ∧
        (h.cmd = 3 → nextIs (.probeDone 1 m true found cures) s fun t => ran t 0 ∧ returned t ∧ t.transients = s.transients ∧ commanded t 1) ∧
        (h.cmd = 3 → nextIs (.probeDone 1 m false found cures) s fun t => ran t 1 ∧ stays t ∧ commanded t 2))) ∧
    (served s = true → s.still = true → ∀ (cls : Fin 16) (res : BitVec 32),
      let key := hedgeKey cls res.toNat
      let all := [Instr.hedgeAndProbe cls res, .hedgeAndHold cls res, .probeHedged cls res]
      let names := resExists cls res.toNat = true ∧ cls ≠ 12 ∧ cls ≠ 13 ∧ (cls = 11 → res.toNat < 8)
      (∀ c ∈ all, isSet s fHEDGECMDST_BUSY = true → nextIs c s fun t => getF t fHEDGECMDST_RESULT = 3 ∧ isSet t fHEDGECMDST_BUSY = true ∧
        onlyRegs s t [rHEDGECMDST] ∧ { t with regs := s.regs } = s) ∧
      (isSet s fHEDGECMDST_BUSY = false →
        (∀ c ∈ all, ¬ names → nextIs c s fun t => getF t fHEDGECMDST_RESULT = 3 ∧ isSet t fHEDGECMDST_BUSY = false ∧ t.hedges = s.hedges ∧ sameMemory s t) ∧
        (names → hedgedAt s cls key = false →
          (nextIs (.probeHedged cls res) s fun t => getF t fHEDGECMDST_RESULT = 3 ∧ isSet t fHEDGECMDST_BUSY = false ∧ t.hedges = s.hedges) ∧
          (nextIs (.hedgeAndProbe cls res) s fun t => getF t fHEDGECMDST_RESULT = 0 ∧ isSet t fHEDGECMDST_BUSY = true ∧ (cls ≠ 7 → counts t cls 1) ∧
            ∃ h, hedgeOf t cls key = some h ∧ h.held = false ∧ h.cmd = 1 ∧ h.lasting = false ∧ h.probing = false) ∧
          (nextIs (.hedgeAndHold cls res) s fun t => getF t fHEDGECMDST_RESULT = 2 ∧ isSet t fHEDGECMDST_BUSY = false ∧ (cls ≠ 7 → counts t cls 1) ∧
            ∃ h, hedgeOf t cls key = some h ∧ h.held = true ∧ h.cmd = 0 ∧ h.lasting = false ∧ h.probing = false)) ∧
        (∀ h, names → cls ≠ 7 → hedgeOf s cls key = some h → nextIs (.hedgeAndHold cls res) s fun t => getF t fHEDGECMDST_RESULT = 2 ∧
          isSet t fHEDGECMDST_BUSY = false ∧ ∃ h', hedgeOf t cls key = some h' ∧ h'.held = true ∧ h'.probing = false ∧ h'.cmd = 0 ∧ h'.lasting = h.lasting) ∧
        (∀ h, names → hedgeOf s cls key = some h → nextIs (.probeHedged cls res) s fun t => getF t fHEDGECMDST_RESULT = 0 ∧ isSet t fHEDGECMDST_BUSY = true ∧
          hedgeOf t cls key = some { h with held := false, cmd := 3 } ∧ onlyRegs s t [rHEDGECMDST])))

/-- Clocks, limits and telemetry (R620, R621, R623 to R628, R630, R633, R638, R639). -/
def Obligations.ClockStepsAndLimits : Prop :=
  ∀ s : State, awake s = true →
    let gens := (List.range 10).map rGENMON
    let live := fun (j : Fin 10) => isSet s (fGENMON_HEDGED j) = false
    let cur := getF s fSTEPSTAT_CUR
    let next1024 := fun (e t : Nat) => e % 1024 = 0 ∧ t ≤ e ∧ e < t + 1024
    let stopped := ∃ c, s.change = some c ∧ c.stopped = true
    (∀ meas : List GenMeas, (stopped → exec (.monitorWindow meas) s = .next s) ∧
      (¬ stopped → (∀ m ∈ meas, m.jit < 2 ^ 16 ∧ m.duty < 2 ^ 8) →
        (∀ j : Fin 10, ∀ m, meas[j.val]? = some m → isSet s (fGENMON_LOCK j) = true → whenDue (windowEnded s evMonitors 1024) (.monitorWindow meas) s fun t =>
          getF t (fGENMON_JIT j) = m.jit ∧ getF t (fGENMON_DUTY j) = m.duty ∧
          (let twice := max 1 (getF s (fGENMON_JITLIM j)) < m.jit ∧ j.val ∈ s.lodge.jitBad
           let duty := m.duty < 90 ∨ 110 < m.duty
           (¬ twice → ¬ duty → getF t (fGENMON_FAILCNT j) = getF s (fGENMON_FAILCNT j)) ∧
           (twice ∧ ¬ duty ∨ ¬ twice ∧ duty → getF t (fGENMON_FAILCNT j) = (getF s (fGENMON_FAILCNT j) + 1) % 2 ^ 16) ∧
           (twice → duty → getF t (fGENMON_FAILCNT j) = (getF s (fGENMON_FAILCNT j) + 2) % 2 ^ 16) ∧
           (twice ∨ duty → 8 ≤ j.val → hedgedAt s 11 j = false → t.fatal = true ∧ hedgedAt t 11 j = true)) ∧
          (j.val ∈ t.lodge.jitBad ↔ max 1 (getF s (fGENMON_JITLIM j)) < m.jit)) ∧
        (∀ j : Fin 10, isSet s (fGENMON_LOCK j) = false ∨ meas[j.val]? = none → whenDue (windowEnded s evMonitors 1024) (.monitorWindow meas) s fun t =>
          regGet t (rGENMON j) = regGet s (rGENMON j)))) ∧
    (nextIs .referenceClockLoss s fun t => (hedgedAt s 11 8 = false → t.fatal = true ∧ hedgedAt t 11 8 = true) ∧ t.pins.refclk = false ∧ (∀ j : Fin 10, isSet t (fGENMON_LOCK j) = false) ∧
      getF t (fGENMON_FAILCNT 8) = (getF s (fGENMON_FAILCNT 8) + 1) % 2 ^ 16) ∧
    (∀ (pin pd : Nat) (temps : List Int) (tj : Int) (plim : Nat), pin < 2 ^ 32 → pd < 2 ^ 32 →
      (∃ i : Fin 52, temps.getD i 0 = tj) → (∀ i : Fin 52, temps.getD i 0 ≤ tj) → tj < 97 * 16 →
      let now := decide (tick s % 100000 = 0) && due s evGovernor 100000
      let cap := max 1000 (min 2800 (getF s fSTEPCTL_CAPW)) * 1000
      let fits := fun (i : Nat) =>
        let f := fun (i : Nat) => 625 + 125 * i
        let v := fun (i : Nat) => s.lodge.vddc.getD i 0
        let kk := f i * v i * v i * 1000000 / (f cur * v cur * v cur)
        (pin + 2 ^ 32 - pd) % 2 ^ 32 + pd * kk / 1000000 + (if cur < i then 100000 else 0) ≤ cap
      plim < 8 → (fits plim ∨ plim = 0) → (∀ i, plim < i → i < 8 → ¬ fits i) →
      let power := if cap < pin ∧ cur ≤ plim then cur - 1 else plim
      let req := getF s fSTEPCTL_STEPREQ
      let boost := if isSet s fSTEPCTL_BOOSTEN then 7 else 5
      let thermal := min 7 (s.lodge.tlims.getD 9 7 + 1)
      let d := min (min req boost) (min power thermal)
      let e := fun (t : State) => getF t fSTEPSTAT_LIMIT = (if d = req then 0 else if d = boost then 1 else if d = power then 2 else 3) ∧
        getF t fCLK_PWR_PIN = pin ∧ getF t fTHROTCNT_CAPMS = (getF s fTHROTCNT_CAPMS + if d ≠ req ∧ d ≠ boost ∧ d = power then 1 else 0) % 2 ^ 32 ∧
        getF t fSTEPSTAT_CUR = cur ∧ sameMemory s t
      (s.change = none → d = cur → whenDue now (.governor pin pd temps) s fun t => e t ∧ t.change = none ∧ isSet t fSTEPSTAT_CHANGING = isSet s fSTEPSTAT_CHANGING) ∧
      (s.change = none → d ≠ cur → tick s < 2 ^ 47 → whenDue now (.governor pin pd temps) s fun t => e t ∧ t.lodge.rail = s.lodge.vddc.getD (max cur d) 0 ∧
        ∃ at_, t.change = some ⟨d, at_, false, none⟩ ∧
        next1024 at_ (tick s + if cur < d then 6144 else 2048) ∧ getF t fSTEPSTAT_TARGET = d ∧ isSet t fSTEPSTAT_CHANGING = true ∧
        getF t fSTEPSTAT_EPOCH = at_) ∧
      (∀ c, s.change = some c → c.stopped = false → d ≠ c.target → d ≠ cur → whenDue now (.governor pin pd temps) s fun t => e t ∧
        t.change = some { c with target := d } ∧ getF t fSTEPSTAT_TARGET = d ∧ t.lodge.rail = s.lodge.vddc.getD (max cur d) 0) ∧
      (∀ c, s.change = some c → c.stopped = false → d = cur → c.target ≠ cur → whenDue now (.governor pin pd temps) s fun t => e t ∧
        t.change = none ∧ isSet t fSTEPSTAT_CHANGING = false ∧ getF t fEPOCHCNT_CHANGES = getF s fEPOCHCNT_CHANGES ∧
        t.lodge.rail = s.lodge.vddc.getD cur 0) ∧
      (∀ c, s.change = some c → c.stopped = true → whenDue now (.governor pin pd temps) s fun t => e t ∧
        t.change = some { c with next := if d = c.target then none else some (d, tick s) })) ∧
    (s.change = none ∨ stopped ∨ (∃ c, s.change = some c ∧ tick s < c.epoch) → exec .changeEpoch s = .next s) ∧
    (∀ c, s.change = some c → c.stopped = false → c.epoch ≤ tick s → nextIs .changeEpoch s fun t => t.change = some { c with stopped := true } ∧ t.lodge.jitBad = [] ∧
      (∀ j : Fin 10, (live j → isSet t (fGENMON_LOCK j) = false) ∧ (¬ live j → regGet t (rGENMON j) = regGet s (rGENMON j))) ∧ onlyRegs s t gens ∧
      (∀ n, c.epoch ≤ n → cyclesAt t n = cyclesBegun s c.epoch) ∧
      { t with regs := s.regs, change := s.change, lodge := s.lodge, plotClock := s.plotClock } = s) ∧
    (¬ stopped → exec .changeResume s = .next s ∧ ∀ late, exec (.lockTimeout late) s = .next s) ∧
    (∀ c, s.change = some c → c.stopped = true → c.target < 8 → c.epoch ≤ tick s →
      let resumed := fun (t : State) (r : Nat) => getF t fSTEPSTAT_CUR = c.target ∧ getF t fEPOCHCNT_CHANGES = (getF s fEPOCHCNT_CHANGES + 1) % 2 ^ 32 ∧
        getF t fEPOCHCNT_WORST = max (getF s fEPOCHCNT_WORST) (r - c.epoch) % 2 ^ 16
      (c.epoch + 2000 < tick s → exec .changeResume s = .next s) ∧
      (c.next = none → tick s ≤ c.epoch + 2000 → nextIs .changeResume s fun t => resumed t (tick s) ∧ t.change = none ∧ t.lodge.rail = s.lodge.vddc.getD c.target 0 ∧
        (∀ n, tick s ≤ n → cyclesAt t n = cyclesAt s (tick s) + (n - tick s) * (25 + 5 * c.target) / 4) ∧ isSet t fSTEPSTAT_CHANGING = false ∧
        (∀ j : Fin 10, live j → isSet t (fGENMON_LOCK j) = true) ∧ (s.still = true → t.frame = 0 ∧ lastOf t evMonitors = tick s + 1025 ∧ sameMemory s t ∧
          onlyRegs s t (rSTEPSTAT :: rEPOCHCNT :: gens))) ∧
      (∀ n, c.next = some n → n.1 ≠ c.target → tick s ≤ c.epoch + 2000 → nextIs .changeResume s fun t => resumed t (tick s) ∧ ∃ at_, t.change = some ⟨n.1, at_, false, none⟩ ∧
        next1024 at_ (max (n.2 + if c.target < n.1 then 6144 else 2048) (tick s + 1)) ∧
        (s.still = true → sameMemory s t)) ∧
      (∀ late, tick s < c.epoch + 2000 → exec (.lockTimeout late) s = .next s) ∧
      (∀ j : Fin 10, c.next = none → c.epoch + 2000 ≤ tick s → live j → nextIs (.lockTimeout [j]) s fun t => resumed t (c.epoch + 2000) ∧ t.change = none ∧
        getF t (fGENMON_FAILCNT j) = (getF s (fGENMON_FAILCNT j) + 1) % 2 ^ 16 ∧ isSet t (fGENMON_LOCK j) = isSet s (fGENMON_LOCK j) ∧
        (s.still = true → unended s = [] → (∀ k : Fin 16, (getStr s k).st = .idle) → sameMemory s t) ∧
        (∀ i : Fin 10, i ≠ j → live i → isSet t (fGENMON_LOCK i) = true ∧ getF t (fGENMON_FAILCNT i) = getF s (fGENMON_FAILCNT i)))) ∧
    (∀ (tj : Int) (dramt : Nat), (∃ i : Fin 52, s.lodge.temps.getD i 0 = tj) → (∀ i : Fin 52, s.lodge.temps.getD i 0 ≤ tj) →
      (∃ k : Fin 32, getF s (fSTK_TEMP_DEGC k) = dramt) → (∀ k : Fin 32, getF s (fSTK_TEMP_DEGC k) ≤ dramt) → whenDue (due s evCool 100000) .coolUpdate s fun t =>
      let c := if 640 < s.lodge.temps.getD 60 0 then 255
        else max (getF s fCOOLCTL_MIN : Int) (max (max 0 (min 255 ((tj / 16 - 75) * 255 / 25))) (max 0 (min 255 (((dramt : Int) - 70) * 255 / 25))))
      ((getF t fCOOLCTL_COOL : Nat) : Int) = c ∧ ((t.pins.cool : Nat) : Int) = c ∧ onlyRegs s t [rCOOLCTL] ∧
      { t with regs := s.regs, pins := s.pins } = noteAt s evCool) ∧
    (∀ m : TelMeas,
      let frame := windowEnded s evTelemetry 100000
      let k := getF s fTELSTAT_SEQ
      let a := pcieAddr s (getF s fTELRING_ADDR * 2048 + 2048 * (k % 2 ^ min (getF s fTELRING_SIZE) 10))
      (∀ b, isSet s fTELRING_EN = false → whenDue frame (.telemetryFrame m b) s fun t => t.regs = s.regs ∧ sameMemory s t) ∧
      (isSet s fTELRING_EN = true → whenDue frame (.telemetryFrame m false) s fun t => getF t fTELSTAT_SEQ = (k + 1) % 2 ^ 32 ∧
        getF t fTELSTAT_MISSCNT = (getF s fTELSTAT_MISSCNT + 1) % 2 ^ 32 ∧ t.lodge.lost = true ∧ sameMemory s t) ∧
      (isSet s fTELRING_EN = true → whenDue frame (.telemetryFrame m true) s fun t => getF t fTELSTAT_SEQ = (k + 1) % 2 ^ 32 ∧
        getF t fTELSTAT_MISSCNT = getF s fTELSTAT_MISSCNT ∧ t.lodge.lost = false ∧ isSet t (fHOST_IRQSRC_PEND 3) = true ∧
        (telFrame s k m).length = 2048 ∧ hostRead t a 2048 = telFrame s k m ∧ t.up = s.up ++ [⟨true, a + 8, 2040, none⟩, ⟨true, a, 8, none⟩] ∧ leVal ((telFrame s k m).take 4) = k ∧
        (∀ b, b < a ∨ a + 2048 ≤ b → hostByte t b = hostByte s b) ∧ t.org = s.org ∧ t.dram = s.dram))

/-- The host's and the board's ways in (R15, R18, R19, R565, R568, R570, R571, R575, R580, R617, R655, R660).  The bypass register's first
bit, and an image's CRC being `Config.imageGood`, are the model's choices (assumptions 8 and 68). -/
def Obligations.TheHostReadsAndWrites : Prop :=
  ∀ s : State,
    let poisoned := fun (t : State) => t.aer = s.aer + 1 ∧ t.pcie.cfg.poisoned = true ∧
      { t with aer := s.aer, pcie := { t.pcie with cfg := { t.pcie.cfg with poisoned := s.pcie.cfg.poisoned } } } = s
    let unsupported_ := fun (t : State) => t.reply = ⟨[], false, true⟩ ∧ { t with reply := s.reply } = s
    (∀ (w : BarWrite), let reg := w.off / 8 * 8
      let fits := (w.size = 8 ∧ w.off % 8 = 0) ∨ (w.size = 4 ∧ w.off % 4 = 0)
      let there := servedAt s (if w.bar4 then 0x100000 else w.off) = true
      let v := if w.size = 8 then w.v.toNat else if w.off % 8 = 0 then w.v.toNat % 2 ^ 32 else w.v.toNat % 2 ^ 32 * 2 ^ 32
      let reaches := fun (b : Nat) => w.size = 8 ∨ (b < 32 ↔ w.off % 8 = 0)
      let acting := [rCRLCFG 0 0 0, rHCRLCFG 0, rHCRLPTR 0, rORG_MDVAL, rSLA_INVAL, rCTXCTL 0, rCTXKILL 0, rQCTL 0 0, rCPLPTR 0 0, rGATE_MODECFG,
        rDMA_FLTRESP, rDMA_FLTRING, rDMA_FLTPTR, rCHCTL 0, rWKCTL 0, rWKRELW 0, rWKRET 0, rLNKCTL 0, rPWGEN 0 0, rRWCTL 0 0, rLANCTL 0, rHOST_IRQSRC 0,
        rHOST_MSIXCTL 0, rLOGRING, rLOGMASK, rHEDGECMD, rFWCMD, rTELRING, rBELVCTL]
      (¬ there → exec (.registerWrite w) s = .next s) ∧
      (there → w.ep = true → nextIs (.registerWrite w) s poisoned) ∧
      (there → w.ep = false → w.bar4 = false → ¬ fits ∨ rowOf reg = none → exec (.registerWrite w) s = .next s) ∧
      (∀ r, there → w.ep = false → w.bar4 = false → fits → rowOf reg = some r → r.base ∉ acting → nextIs (.registerWrite w) s fun t =>
        onlyRegs s t [reg] ∧ { t with regs := s.regs } = s ∧ ∀ b : Fin 64, bitOf (regGet t reg).toNat b =
          if reaches b ∧ bitOf r.rw b = true then bitOf v b
          else if reaches b ∧ bitOf r.w1c b = true ∧ bitOf v b = true then false else bitOf (regGet s reg).toNat b) ∧
      (there → w.ep = false → w.bar4 = true → ¬ fits → nextIs (.registerWrite w) s fun t => isSet t fHOST_BARERR_DBSIZE = true ∧
        getF t fHOST_BARERRCNT_DBSIZECNT = (getF s fHOST_BARERRCNT_DBSIZECNT + 1) % 2 ^ 16 ∧ getF t fHOST_BARERR_LASTOFF = w.off / 16 % 2 ^ 48 ∧
        sameMemory s t)) ∧
    (served s = true → ∀ v : BitVec 64,
      let write := fun (off : Nat) => exec (.registerWrite ⟨false, off, 8, v, false⟩) s
      (∀ w : Fin 64, (bitOf v.toNat 63 = true → write (rWKCTL w) = exec (.wicketOpen w v) s) ∧
        (bitOf v.toNat 63 = false → write (rWKCTL w) = exec (.wicketClose w v) s) ∧ write (rWKRET w) = exec (.wkret w v) s) ∧
      write rDMA_FLTRESP = exec (.fltresp v) s ∧
      (bitOf v.toNat 63 = false → bitOf v.toNat 62 = true → write rFWCMD = exec (.firmwareWrite v 0) s) ∧
      (bitOf v.toNat 63 = true → bitOf v.toNat 62 = false → write rFWCMD = exec .firmwareActivate s) ∧
      (∀ (c : Fin 16) (q : Fin 8), exec (.registerWrite ⟨true, 4096 * c + 8 * q, 8, v, false⟩) s = exec (.doorbell c q v) s) ∧
      (∀ l : Fin 256, exec (.registerWrite ⟨true, 0x10000 + 8 * l, 8, v, false⟩) s = exec (.requestLineWrite l v) s)) ∧
    (∀ (o : BitVec 28) (n : Nat),
      let a := getF s fHOST_WINCTL_BASE * 2 ^ 28 + o.toNat
      let opened := isSet s fHOST_WINCTL_EN = true ∧ getF s fHOST_WINCTL_SPACE = 0
      let off := fun (t : State) => isSet t fHOST_BARERR_OFF = true ∧ getF t fHOST_BARERRCNT_OFFCNT = (getF s fHOST_BARERRCNT_OFFCNT + 1) % 2 ^ 16 ∧ sameMemory s t
      let ue := fun (t : State) => isSet t fHOST_BARERR_UE = true ∧ getF t fHOST_BARERRCNT_UECNT = (getF s fHOST_BARERRCNT_UECNT + 1) % 2 ^ 16
      let within := o.toNat + n ≤ 2 ^ 28 ∧ 1 ≤ n ∧ o.toNat % 4096 + n ≤ 4096
      let place := opened ∧ orgAssigned a = true ∧ getBit s fORG_ORGREADY_READY (orgSlice a) = true
      let asleep := on s = true ∧ s.pcie.l0 = true ∧ s.pcie.d3 = true ∧ paused s = false
      (asleep ∨ (served s = true ∧ 2 ^ 28 < o.toNat + n) → nextIs (.bar2Read o n) s unsupported_) ∧
      (served s = false → ¬ asleep → exec (.bar2Read o n) s = .next s) ∧
      (served s = true → within →
        (isSet s fHOST_WINCTL_EN = false ∨ 2 < getF s fHOST_WINCTL_SPACE → nextIs (.bar2Read o n) s fun t => t.reply = ⟨List.replicate n 0#8, false, false⟩ ∧ off t) ∧
        (place → s.fatal = false → s.orgErr = [] → orgHedged s a n = false → nextIs (.bar2Read o n) s fun t => t.reply = ⟨orgRead s a n, false, false⟩ ∧
          { t with reply := s.reply } = s) ∧
        (place → s.fatal = false → orgHedged s a n = true → nextIs (.bar2Read o n) s fun t => t.reply = ⟨List.replicate n 0#8, true, false⟩ ∧ ue t) ∧
        (opened → s.fatal = false → orgAssigned a = false → nextIs (.bar2Read o n) s fun t => t.reply = ⟨List.replicate n 0#8, false, false⟩ ∧
          isSet t fORG_HOLESTAT_HOLE = true ∧ sameMemory s t) ∧
        (opened → s.fatal = true → nextIs (.bar2Read o n) s fun t => t.reply.bytes.length = n ∧ t.reply.ep = false ∧ t.regs = s.regs ∧ sameMemory s t)) ∧
      (∀ (bs : List Byte) (ep : Bool), bs.length = n →
        (served s = false ∨ (ep = false ∧ 2 ^ 28 < o.toNat + n) → exec (.bar2Write o bs ep) s = .next s) ∧
        (served s = true → ep = true → nextIs (.bar2Write o bs ep) s poisoned) ∧
        (served s = true → ep = false → within → isSet s fHOST_WINCTL_EN = false ∨ 2 < getF s fHOST_WINCTL_SPACE →
          nextIs (.bar2Write o bs ep) s fun t => off t) ∧
        (served s = true → ep = false → within → place → s.orgErr = [] → orgHedged s a n = false → nextIs (.bar2Write o bs ep) s fun t =>
          (∀ j, j < n → orgByte t (a + j) = bs.getD j 0) ∧ (∀ b, b < a ∨ a + n ≤ b → orgByte t b = orgByte s b) ∧
          t.wordMeta = s.wordMeta ∧ t.dram = s.dram ∧ t.host = s.host ∧ t.regs = s.regs))) ∧
    (∀ v : BitVec 8, servedAt s 0 = true → nextIs (.msixUnmask v) s fun t => isSet t (fHOST_MSIXCTL_MASK v.toNat) = false ∧ sameMemory s t ∧
      (let waits := getBit s (fHOST_MSIXPBA_PEND (v.toNat / 64)) (v.toNat % 64) = true
       (waits → s.pcie.msixEn = true → s.pcie.msixMask = false → getBit t (fHOST_MSIXPBA_PEND (v.toNat / 64)) (v.toNat % 64) = false ∧
          t.msgs = s.msgs ++ [((regGet s (rHOST_MSIXADDR v.toNat)).toNat, getF s (fHOST_MSIXCTL_DATA v.toNat))]) ∧
       (¬ waits ∨ s.pcie.msixEn = false ∨ s.pcie.msixMask = true → t.msgs = s.msgs ∧ onlyRegs s t [rHOST_MSIXCTL v.toNat]))) ∧
    (let idleIm := if getF s fLODGESTAT_STATE = 2 then 1 - s.lodge.active else 1 - getF s fLODGESTAT_IMAGE
     let busy := isSet s fFWSTAT_BUSY = true
     let result := fun (t : State) (r : Nat) => isSet t fFWSTAT_BUSY = false ∧ getF t fFWSTAT_RESULT = r
     s.lodge.images.length = 2 → s.lodge.active < 2 →
     (servedAt s rFWCMD = true →
      (∀ v st, busy → exec (.firmwareWrite v st) s = .next s ∧ exec .firmwareActivate s = .next s) ∧
      (∀ (v : BitVec 64) (st : Fin 4), ¬ busy → let n := bitsOf v.toNat 61 52
        let b := fromHost s (bitsOf v.toNat 51 12 * 4096) (4096 * n)
        (n = 0 → nextIs (.firmwareWrite v st) s fun t => result t 3 ∧ t.lodge = s.lodge) ∧
        (0 < n → st ≠ 0 → nextIs (.firmwareWrite v st) s fun t => result t 4 ∧ t.lodge = s.lodge) ∧
        (0 < n → st = 0 → nextIs (.firmwareWrite v st) s fun t => isSet t fFWSTAT_BUSY = true ∧ getF t fFWSTAT_RESULT = 0 ∧ t.lodge.writing = some b ∧
          t.lodge.images = s.lodge.images.set idleIm ⟨[], false⟩ ∧ t.lodge.active = s.lodge.active ∧ sameMemory s t)) ∧
      (¬ busy →
        ((s.lodge.images.getD idleIm ⟨[], false⟩).good = true → nextIs .firmwareActivate s fun t => result t 1 ∧ t.lodge = { s.lodge with active := idleIm }) ∧
        ((s.lodge.images.getD idleIm ⟨[], false⟩).good = false → nextIs .firmwareActivate s fun t => result t 3 ∧ t.lodge = s.lodge))) ∧
     (on s = true → ∀ same, (s.lodge.writing = none → exec (.firmwareWriteDone same) s = .next s) ∧
      (∀ b, s.lodge.writing = some b → nextIs (.firmwareWriteDone same) s fun t => result t (if same && Config.imageGood b then 1 else 2) ∧
        t.lodge = { s.lodge with writing := none, images := s.lodge.images.set idleIm ⟨b, same && Config.imageGood b⟩ } ∧ onlyRegs s t [rFWSTAT, rLODGESTAT] ∧
        sameMemory s t))) ∧
    (let reads := [(Instr.smbusReadReady, (regGet s rLODGE_READY).toNat), (.smbusReadPwr, (regGet s rCLK_PWR).toNat), (.smbusReadCoolctl, (regGet s rCOOLCTL).toNat),
        (.smbusReadErrstat, (regGet s rERRSTAT).toNat), (.smbusReadSerial, (regGet s rHOST_SERIAL).toNat), (.smbusReadTjmax, s.lodge.telLast),
        (.smbusReadLodgestat, (regGet s rLODGESTAT).toNat / 2 ^ 32 * 2 ^ 32 + (s.lodge.powTicks + tick s) / 360000000000 % 2 ^ 32)]
     ∀ r ∈ reads, (s.pins.lodge = false → exec r.1 s = .next s) ∧
      (s.pins.lodge = true → nextIs r.1 s fun t => t.reply = ⟨leBytes 8 r.2, false, false⟩ ∧ { t with reply := s.reply } = s)) ∧
    (let shifted := fun (t : State) (l : List Bool) => t = { s with pins := { s.pins with scan := l } }
     (s.pins.aux12 = false → exec .jtagIdcode s = .next s ∧ ∀ l, exec (.jtagBypass l) s = .next s ∧ exec (.jtagBoundaryScan l) s = .next s) ∧
     (s.pins.aux12 = true → (nextIs .jtagIdcode s fun t => shifted t ((List.range 32).map (fun i => bitOf Config.idcode.toNat i))) ∧
     (∀ l : List Bool, (nextIs (.jtagBypass l) s fun t => shifted t ((false :: l).take l.length)) ∧
      (s.pins.resetLow = false → nextIs (.jtagBoundaryScan l) s fun t => shifted t ((false :: l).take l.length)) ∧
      (s.pins.resetLow = true → nextIs (.jtagBoundaryScan l) s fun t => t.pins.scan.length = l.length ∧ { t with pins := s.pins, free := s.free } = s))))

/-- Resets, the PCIe link's states and losses of power (R563, R566 to R568, R614 to R616, R631, R647, R653, R657).  The identity
registers that an FLR keeps and the image and bring-up at module reset are the model's readings (assumptions 8 and 59). -/
def Obligations.ResetsAndPower : Prop :=
  ∀ s : State,
    let off := fun (c : Instr) => on s = false → exec c s = .next s
    off .flr ∧ off .hotReset ∧ off .perst ∧ off .d3hotEntry ∧ off .d0Return ∧ off .undervoltage48v ∧ off .thermalTrip ∧
    (∀ u, off (.pcieLinkTraining u)) ∧ (s.pins.lodge = false → exec .undervoltage12v s = .next { s with pins := { s.pins with aux12 := false } }) ∧
    (on s = true → nextIs .flr s fun t =>
      (∀ c : Fin 16, isSet t (fCTXCTL_EN c) = false ∧ ∀ q : Fin 8, getQ t c q = Queue.reset ∧ isSet t (fQCTL_EN c q) = false ∧ qState t c q = qDisabled) ∧
      (∀ k : Fin 16, (getStr t k).st = .idle ∧ (getStr t k).ranges = [] ∧ (getStr t k).commit = []) ∧ t.ops = [] ∧ t.slots = [] ∧ t.units = [] ∧
      (∀ ch : Fin 64, { getChan t ch with endTick := Chan.reset.endTick } = Chan.reset ∧ isSet t (fCHCTL_EN ch) = false) ∧
      (∀ w : Fin 64, isSet t (fWKCTL_EN w) = false) ∧ (∀ c : Fin 512, isSet t (crlEN c) = false) ∧ (∀ p ∈ taskList t, p.2.st.isEnded = true) ∧
      (∀ b ∈ t.bins, b.2.loaded = false) ∧
      (∀ o, o < 0x100000 → o ≠ rHOST_HOSTID → o ≠ rHOST_SERIAL → o ≠ rHOST_LINKSTAT → regGet t o = regDefault o) ∧
      regGet t rHOST_HOSTID = regGet s rHOST_HOSTID ∧ regGet t rHOST_SERIAL = regGet s rHOST_SERIAL ∧ getF t fHOST_LINKSTAT_SPEED = getF s fHOST_LINKSTAT_SPEED ∧
      getF t fHOST_LINKSTAT_WIDTH = getF s fHOST_LINKSTAT_WIDTH ∧ getF t fHOST_LINKSTAT_RETRCNT = 0 ∧ t.msgs = s.msgs ∧ t.pcie = { Pcie.reset s.part with l0 := s.pcie.l0 } ∧ t.priMax = 0 ∧
      ((unended s) = [] → s.ops = [] → (∀ k : Fin 16, (getStr s k).st = .idle) → (∀ ch : Fin 64, (getChan s ch).st = .idle) → (∀ m : Fin 64, (getCore s m).handler = none) →
        s.still = true → sameMemory s t ∧ t.lanterns = s.lanterns ∧ t.hedges = s.hedges ∧ regGet t rGATE_MODECFG = regGet s rGATE_MODECFG ∧
        (∀ p : Fin 8, regGet t (rLNKSTAT p) = regGet s (rLNKSTAT p) ∧ regGet t (rLANCTL p) = regGet s (rLANCTL p)) ∧ (∀ w : Fin 64, regGet t (rWKBASE w) = regGet s (rWKBASE w)) ∧
        (∀ ch : Fin 64, isSet t (fCHCTL_QUIET ch) = isSet s (fCHCTL_QUIET ch)) ∧
        (∀ w : Fin 64, isSet t (fWKCTL_QUIET w) = isSet s (fWKCTL_QUIET w) ∧ (isSet s (fWKCTL_EN w) = true → (getWk t w).closed = tick s ∧ getF t (fWKPOOL_OUT w) = 0)) ∧
        (∀ c : Fin 512, isSet t (crlQUIET c) = isSet s (crlQUIET c) ∧ (isSet s (crlEN c) = true → (getCreel t c).cleared = tick s)))) ∧
    (on s = true → ∀ c ∈ [Instr.hotReset, .perst], nextIs c s fun t => ∃ u, exec .flr s = .next u ∧ t.pcie = { u.pcie with l0 := false } ∧
      getF t fHOST_LINKSTAT_SPEED = 0 ∧ getF t fHOST_LINKSTAT_WIDTH = 0 ∧ getF t fHOST_LINKSTAT_FLIT = 0 ∧ onlyRegs u t [rHOST_LINKSTAT] ∧
      { t with regs := u.regs, pcie := u.pcie } = u) ∧
    (on s = true → (nextIs .d3hotEntry s fun t => served t = false ∧ { t with pcie := s.pcie } = s) ∧
      (nextIs .d0Return s fun t => t.pcie.d3 = false ∧ { t with pcie := s.pcie } = s ∧ (s.pcie.l0 = true → recovering s = false → paused s = false → served t = true))) ∧
    (∀ j3 j4, nextIs (.cablePresenceChange j3 j4) s fun t => t.pins.cbl = [j3, j4] ∧ t.pins.cblUsed = s.pins.cblUsed ∧ { t with pins := s.pins } = s) ∧
    (∀ (u : LinkUp) (j3 j4 : Bool), on s = true → s.pins.cbl = [j3, j4] →
      (j3 = false → nextIs (.pcieLinkTraining u) s fun t => t.pcie.l0 = false ∧ getF t fHOST_LINKSTAT_WIDTH = 0 ∧ onlyRegs s t [rHOST_LINKSTAT] ∧ sameMemory s t) ∧
      (j3 = true → (∀ i : Fin 4, getF s (fHOST_MSIXPBA_PEND i) = 0) → 1 ≤ u.speed.val → u.speed.val ≤ 6 → nextIs (.pcieLinkTraining u) s fun t =>
        t.pcie = ⟨u.msixEn, u.msixMask, s.pcie.d3, true, { s.pcie.cfg with
          mps := u.mps, mrrs := u.mrrs, timeoutUs := u.timeoutUs, bars := s.pcie.cfg.bars.zipWith (fun b a => { b with base := a }) u.bars }⟩ ∧ t.priMax = u.priMax ∧ getF t fHOST_LINKSTAT_SPEED = u.speed.val ∧
        getF t fHOST_LINKSTAT_WIDTH = (let n := if j4 then u.width else min u.width 8
          if 16 ≤ n then 16 else if 8 ≤ n then 8 else if 4 ≤ n then 4 else if 2 ≤ n then 2 else 1) ∧
        isSet t fHOST_LINKSTAT_FLIT = u.flit ∧ isSet t fHOST_LINKSTAT_ATSEN = u.ats ∧ isSet t fHOST_LINKSTAT_PRIEN = u.pri ∧ isSet t fHOST_LINKSTAT_PASIDEN = u.pasid ∧
        getF t fHOST_LINKSTAT_RETRCNT = (getF s fHOST_LINKSTAT_RETRCNT + if s.pcie.l0 then 1 else 0) % 2 ^ 16 ∧ t.pins.cblUsed = [j3, j4] ∧
        onlyRegs s t [rHOST_LINKSTAT] ∧ t.msgs = s.msgs ∧ sameMemory s t)) ∧
    (let good := fun (i : Nat) => (s.lodge.images.getD i ⟨[], false⟩).good
     let a := s.lodge.active
     nextIs .moduleReset s fun t => on t = true ∧ t.pending = s.pending ∧ t.host = s.host ∧ t.org = [] ∧ t.dram = [] ∧ t.wordMeta = [] ∧ t.part = s.part ∧
      t.transients = s.transients ∧ t.lodge.images = s.lodge.images ∧ t.lodge.active = a ∧ t.ops = [] ∧ t.tasks = [] ∧
      (∀ k : Fin 16, (getStr t k).st = .idle) ∧ getF t fHOST_HOSTID_DEVICE = (if s.part = .a1 then 0x0320 else 0x0321) ∧
      (good a = false → good (1 - a) = false → recovering t = true ∧ regGet t rLODGE_READY = 0) ∧
      (good a = true ∨ good (1 - a) = true → working t = true ∧ getF t fLODGESTAT_STATE = 1 ∧ isSet t fLODGESTAT_FALLBACK = !(good a) ∧
        (a < 2 → getF t fLODGESTAT_IMAGE = if good a then a else 1 - a) ∧ (s.lodge.bootStep < 8 → getF t fSTEPSTAT_CUR = s.lodge.bootStep) ∧
        (∀ j : Fin 10, isSet t (fGENMON_LOCK j) = true) ∧ getF t fLODGE_READY_CORE = 15)) ∧
    (∀ n : Fin 8, working s = true →
      let ok := getBit s fHEDGEMISC_PAV n = false ∧ ∀ i : Fin 8, getBit s fORG_ORGREADY_READY (8 * n + i) = true ∨ getBit s fORG_ORGHEDGE_HEDGED (8 * n + i) = true
      (¬ ok → exec (.pavilionReady n) s = .next s) ∧
      (ok → nextIs (.pavilionReady n) s fun t => getBit t readyBits (8 + n) = true ∧ (∀ b : Fin 56, b.val ≠ 8 + n → getBit t readyBits b = getBit s readyBits b) ∧ sameMemory s t)) ∧
    (let stopped := fun (t : State) (lodge : Bool) => on t = false ∧ t.pins.conv = false ∧ t.pins.lodge = lodge ∧ t.org = [] ∧ t.dram = [] ∧ t.ops = [] ∧ t.tasks = [] ∧
       (∀ k : Fin 16, (getStr t k).st = .idle) ∧ (∀ (p : Fin 8) (k : Fin 18), getF t (fLASER_BIAS p k) = 0 ∧ getF t (fLASER_POWER p k) = 0) ∧
       (∀ o, o < 0x100000 → regGet t o = regGet s o) ∧ t.hedges = s.hedges ∧ t.host = s.host ∧ t.pending = s.pending
     (∀ c ∈ [Instr.undervoltage48v, .thermalTrip], on s = true → nextIs c s fun t => stopped t true) ∧
     (s.pins.lodge = true → nextIs .undervoltage12v s fun t => stopped t false ∧ t.pins.aux12 = false) ∧
     (∀ (low : Bool) (us : Nat),
       (us < 1000 → nextIs (.resetPin low us) s fun t => t.pins.resetLow = low ∧ { t with pins := s.pins } = s) ∧
       (1000 ≤ us → low = true → s.pins.conv = true ∨ s.pins.lodge = true → nextIs (.resetPin low us) s fun t => stopped t false ∧ t.pins.resetLow = true) ∧
       (1000 ≤ us → low = false → s.pins.aux12 = true → s.pins.refclk = true → nextIs (.resetPin low us) s fun t =>
          exec .moduleReset { s with pins := { s.pins with resetLow := false } } = .next t) ∧
       (1000 ≤ us → low = false → s.pins.aux12 = false ∨ s.pins.refclk = false → nextIs (.resetPin low us) s fun t =>
          on t = false ∧ t.pins.resetLow = false ∧ t.org = [] ∧ t.dram = [] ∧ t.tasks = [] ∧ t.host = s.host ∧ t.lodge.images = s.lodge.images ∧
          t.transients = s.transients ∧ t.pending = s.pending)))

/-- The state after reset (R20, R560, R613, R629, R640); that the rails are off is the model's choice (assumption 38). -/
def Obligations.ResetState : Prop :=
  let s := State.reset
  s.canonical = true ∧ s.pending = [] ∧ on s = false ∧ s.fatal = false ∧ s.still = true ∧ s.org = [] ∧ s.dram = [] ∧ s.host = [] ∧ s.wordMeta = [] ∧
  (∀ off, regGet s off = regDefault off) ∧ (∀ k, (getStr s k).st = .idle) ∧ s.ops = [] ∧ s.tasks = [] ∧ s.hedges = [] ∧ s.waiters = [] ∧ s.change = none ∧
  getF s fSTEPCTL_CAPW = 2800 ∧ getF s fPROBECFG_WINDOW = 24 ∧ getF s fPROBECFG_COUNT = 3 ∧ isSet s fPROBECFG_AUTO = true ∧
  (∀ p : Fin 8, getF s (fLNKCTL_MINLANES p) = 8 ∧ portState s p = 0) ∧ (∀ j : Fin 10, getF s (fGENMON_JITLIM j) = 25) ∧
  (∀ w : Fin 64, isSet s (fWKCTL_EN w) = false ∧ isSet s (fWKCTL_QUIET w) = true) ∧ (∀ ch : Fin 64, isSet s (fCHCTL_EN ch) = false ∧ isSet s (fCHCTL_QUIET ch) = true) ∧
  (∀ c : Fin 16, isSet s (fCTXCTL_EN c) = false ∧ ∀ q : Fin 8, isSet s (fQCTL_EN c q) = false ∧ qState s c q = qDisabled)
end

