-- ==== Sys2Proof/Laws/Map.lean ====
section
/-! SUPPORT. The laws of the maps: reading after writing, and that every map operation keeps the canonical form. -/

namespace Sys2Proof.Machine

variable {β : Type}

/-! ### Reading after writing -/

theorem amGet_amInsert (d : Nat → β) (m : List (Nat × β)) (a b : Nat) (v : β) :
    amGet d (amInsert m a v) b = if a = b then v else amGet d m b := by
  induction m with
  | nil => simp [amInsert, amGet]
  | cons p m ih =>
    obtain ⟨k, w⟩ := p
    by_cases h1 : k = a
    · subst h1
      by_cases h2 : k = b <;> simp [amInsert, amGet, h2]
    · by_cases h2 : a < k
      · simp [amInsert, amGet, h1, h2]
      · by_cases h3 : k = b
        · subst h3
          simp [amInsert, amGet, h1, h2, Ne.symm h1]
        · simp [amInsert, amGet, h1, h2, h3, ih]

theorem amGet_amErase (d : Nat → β) (m : List (Nat × β)) (a b : Nat) :
    amGet d (amErase m a) b = if a = b then d a else amGet d m b := by
  induction m with
  | nil => by_cases h2 : a = b <;> simp [amErase, amGet, h2]
  | cons p m ih =>
    obtain ⟨k, w⟩ := p
    by_cases h1 : k = a
    · subst h1
      rw [amErase, if_pos rfl, ih]
      by_cases h2 : k = b <;> simp [amGet, h2]
    · by_cases h3 : k = b
      · subst h3
        simp [amErase, amGet, h1, Ne.symm h1]
      · simp [amErase, amGet, h1, h3, ih]

/-- A read after a write gives what was written, and every other key reads as before. -/
theorem amGet_amSet [DecidableEq β] (d : Nat → β) (m : List (Nat × β)) (a b : Nat) (v : β) :
    amGet d (amSet d m a v) b = if a = b then v else amGet d m b := by
  unfold amSet
  split
  · rename_i hv
    rw [amGet_amErase, hv]
  · exact amGet_amInsert d m a b v

@[simp] theorem amGet_amSet_self [DecidableEq β] (d : Nat → β) (m : List (Nat × β)) (a : Nat) (v : β) :
    amGet d (amSet d m a v) a = v := by simp [amGet_amSet]

theorem amGet_amSet_other [DecidableEq β] (d : Nat → β) (m : List (Nat × β)) (a b : Nat) (v : β) (h : a ≠ b) :
    amGet d (amSet d m a v) b = amGet d m b := by simp [amGet_amSet, h]

/-! ### The canonical form -/

theorem amWfFrom_mono [DecidableEq β] (d : Nat → β) (lo lo' : Nat) (m : List (Nat × β)) (hl : lo' ≤ lo)
    (h : amWfFrom d lo m = true) : amWfFrom d lo' m = true := by
  cases m with
  | nil => rfl
  | cons p m =>
    obtain ⟨k, w⟩ := p
    simp only [amWfFrom, Bool.and_eq_true, decide_eq_true_eq] at h ⊢
    exact ⟨⟨by omega, h.1.2⟩, h.2⟩

theorem amWfFrom_amInsert [DecidableEq β] (d : Nat → β) (lo : Nat) (m : List (Nat × β)) (a : Nat) (v : β)
    (h : amWfFrom d lo m = true) (ha : lo ≤ a) (hv : v ≠ d a) : amWfFrom d lo (amInsert m a v) = true := by
  induction m generalizing lo with
  | nil => simp [amInsert, amWfFrom, ha, hv]
  | cons p m ih =>
    obtain ⟨k, w⟩ := p
    simp only [amWfFrom, Bool.and_eq_true, decide_eq_true_eq] at h
    by_cases h1 : k = a
    · subst h1
      simp [amInsert, amWfFrom, ha, hv, h.2]
    · by_cases h2 : a < k
      · have : amWfFrom d (a + 1) ((k, w) :: m) = true := by
          simp only [amWfFrom, Bool.and_eq_true, decide_eq_true_eq]
          exact ⟨⟨by omega, h.1.2⟩, h.2⟩
        simp only [amInsert, h1, h2, if_false, if_true]
        rw [amWfFrom, this]
        simp [ha, hv]
      · have := ih (k + 1) h.2 (by omega)
        simp [amInsert, amWfFrom, h1, h2, this, h.1.1, h.1.2]

theorem amWfFrom_amErase [DecidableEq β] (d : Nat → β) (lo : Nat) (m : List (Nat × β)) (a : Nat)
    (h : amWfFrom d lo m = true) : amWfFrom d lo (amErase m a) = true := by
  induction m generalizing lo with
  | nil => rfl
  | cons p m ih =>
    obtain ⟨k, w⟩ := p
    simp only [amWfFrom, Bool.and_eq_true, decide_eq_true_eq] at h
    by_cases h1 : k = a
    · simpa [amErase, h1] using amWfFrom_mono d (k + 1) lo _ (by omega) (ih (k + 1) h.2)
    · simp [amErase, amWfFrom, h1, h.1.1, h.1.2, ih (k + 1) h.2]

theorem amWfFrom_filter [DecidableEq β] (d : Nat → β) (lo : Nat) (m : List (Nat × β)) (f : Nat × β → Bool)
    (h : amWfFrom d lo m = true) : amWfFrom d lo (m.filter f) = true := by
  induction m generalizing lo with
  | nil => rfl
  | cons p m ih =>
    obtain ⟨k, w⟩ := p
    simp only [amWfFrom, Bool.and_eq_true, decide_eq_true_eq] at h
    by_cases h1 : f (k, w) = true
    · simp [h1, amWfFrom, h.1.1, h.1.2, ih (k + 1) h.2]
    · simpa [h1] using amWfFrom_mono d (k + 1) lo _ (by omega) (ih (k + 1) h.2)

/-- Writing keeps the canonical form. -/
theorem amSet_wf [DecidableEq β] (d : Nat → β) (m : List (Nat × β)) (a : Nat) (v : β) (h : amWf d m = true) :
    amWf d (amSet d m a v) = true := by
  unfold amSet
  split
  · exact amWfFrom_amErase d 0 m a h
  · rename_i hv
    exact amWfFrom_amInsert d 0 m a v h (Nat.zero_le a) hv

theorem amErase_wf [DecidableEq β] (d : Nat → β) (m : List (Nat × β)) (a : Nat) (h : amWf d m = true) :
    amWf d (amErase m a) = true := amWfFrom_amErase d 0 m a h

theorem amFilter_wf [DecidableEq β] (d : Nat → β) (m : List (Nat × β)) (f : Nat × β → Bool) (h : amWf d m = true) :
    amWf d (m.filter f) = true := amWfFrom_filter d 0 m f h

/-- A fold of operations that keep the canonical form keeps it. -/
theorem foldl_wf {γ : Type} [DecidableEq β] (d : Nat → β) (f : List (Nat × β) → γ → List (Nat × β))
    (hf : ∀ m x, amWf d m = true → amWf d (f m x) = true) (l : List γ) (m : List (Nat × β)) (h : amWf d m = true) :
    amWf d (l.foldl f m) = true := by
  induction l generalizing m with
  | nil => exact h
  | cons x l ih => exact ih (f m x) (hf m x h)

end Sys2Proof.Machine
end

