-- ==== Sys2Proof/Laws/State.lean ====
section
/-! SUPPORT. What each update of one part of the state leaves as it was: every other field, one equation each. -/

namespace Sys2Proof.Machine

open Sys2Proof

@[simp] theorem regPut_fields (s : State) (off : Nat) (v : W64) :
    (regPut s off v).part = s.part ∧ (regPut s off v).free = s.free ∧ (regPut s off v).pending = s.pending ∧
    (regPut s off v).org = s.org ∧ (regPut s off v).dram = s.dram ∧ (regPut s off v).host = s.host ∧
    (regPut s off v).wordMeta = s.wordMeta ∧ (regPut s off v).orgErr = s.orgErr ∧ (regPut s off v).orgWb = s.orgWb ∧
    (regPut s off v).cores = s.cores ∧ (regPut s off v).streams = s.streams ∧ (regPut s off v).wsets = s.wsets ∧
    (regPut s off v).nextW = s.nextW ∧ (regPut s off v).waiters = s.waiters ∧ (regPut s off v).arrivals = s.arrivals ∧
    (regPut s off v).fullAt = s.fullAt ∧ (regPut s off v).ops = s.ops ∧ (regPut s off v).nextOp = s.nextOp ∧
    (regPut s off v).bankq = s.bankq ∧ (regPut s off v).bankRR = s.bankRR ∧ (regPut s off v).bankAt = s.bankAt ∧
    (regPut s off v).bankClock = s.bankClock ∧ (regPut s off v).tokens = s.tokens ∧ (regPut s off v).nextTok = s.nextTok ∧
    (regPut s off v).creels = s.creels ∧ (regPut s off v).logQ = s.logQ ∧ (regPut s off v).pcie = s.pcie ∧
    (regPut s off v).msgs = s.msgs ∧ (regPut s off v).up = s.up ∧ (regPut s off v).uses = s.uses ∧
    (regPut s off v).tasks = s.tasks ∧ (regPut s off v).gens = s.gens ∧ (regPut s off v).lastId = s.lastId ∧
    (regPut s off v).accepted = s.accepted ∧ (regPut s off v).queues = s.queues ∧ (regPut s off v).bins = s.bins ∧
    (regPut s off v).slots = s.slots ∧ (regPut s off v).ages = s.ages ∧ (regPut s off v).planRemovals = s.planRemovals ∧
    (regPut s off v).ports = s.ports ∧ (regPut s off v).wickets = s.wickets ∧ (regPut s off v).lanterns = s.lanterns ∧
    (regPut s off v).wire = s.wire ∧ (regPut s off v).chans = s.chans ∧ (regPut s off v).faults = s.faults ∧
    (regPut s off v).fidGens = s.fidGens ∧ (regPut s off v).dmaTlb = s.dmaTlb ∧ (regPut s off v).slaTlb = s.slaTlb ∧
    (regPut s off v).inval = s.inval ∧ (regPut s off v).pri = s.pri ∧ (regPut s off v).priNext = s.priNext ∧
    (regPut s off v).priMax = s.priMax ∧ (regPut s off v).slaRuns = s.slaRuns ∧ (regPut s off v).slaRefused = s.slaRefused ∧
    (regPut s off v).units = s.units ∧ (regPut s off v).unitRR = s.unitRR ∧ (regPut s off v).dramErr = s.dramErr ∧
    (regPut s off v).dramWb = s.dramWb ∧ (regPut s off v).refreshed = s.refreshed ∧ (regPut s off v).scrubAt = s.scrubAt ∧
    (regPut s off v).lastAt = s.lastAt ∧ (regPut s off v).plotClock = s.plotClock ∧ (regPut s off v).frame = s.frame ∧
    (regPut s off v).outAt = s.outAt ∧ (regPut s off v).inAt = s.inAt ∧ (regPut s off v).stallAt = s.stallAt ∧
    (regPut s off v).packets = s.packets ∧ (regPut s off v).hopRR = s.hopRR ∧ (regPut s off v).hedges = s.hedges ∧
    (regPut s off v).transients = s.transients ∧ (regPut s off v).change = s.change ∧ (regPut s off v).lodge = s.lodge ∧
    (regPut s off v).pins = s.pins ∧ (regPut s off v).reply = s.reply ∧ (regPut s off v).aer = s.aer ∧
    (regPut s off v).console = s.console ∧ (regPut s off v).belvArmed = s.belvArmed ∧
    (regPut s off v).belvCount = s.belvCount ∧ (regPut s off v).belvIssued = s.belvIssued :=
    ⟨rfl, rfl, rfl, rfl, rfl, rfl, rfl, rfl, rfl, rfl, rfl, rfl, rfl, rfl, rfl, rfl, rfl, rfl, rfl, rfl, rfl, rfl, rfl,
    rfl, rfl, rfl, rfl, rfl, rfl, rfl, rfl, rfl, rfl, rfl, rfl, rfl, rfl, rfl, rfl, rfl, rfl, rfl, rfl, rfl, rfl, rfl,
    rfl, rfl, rfl, rfl, rfl, rfl, rfl, rfl, rfl, rfl, rfl, rfl, rfl, rfl, rfl, rfl, rfl, rfl, rfl, rfl, rfl, rfl, rfl,
    rfl, rfl, rfl, rfl, rfl, rfl, rfl, rfl, rfl, rfl⟩

@[simp] theorem setF_fields (s : State) (f : Fld) (v : Nat) :
    (setF s f v).part = s.part ∧ (setF s f v).free = s.free ∧ (setF s f v).pending = s.pending ∧ (setF s f v).org = s.org ∧
    (setF s f v).dram = s.dram ∧ (setF s f v).host = s.host ∧ (setF s f v).wordMeta = s.wordMeta ∧
    (setF s f v).orgErr = s.orgErr ∧ (setF s f v).orgWb = s.orgWb ∧ (setF s f v).cores = s.cores ∧
    (setF s f v).streams = s.streams ∧ (setF s f v).wsets = s.wsets ∧ (setF s f v).nextW = s.nextW ∧
    (setF s f v).waiters = s.waiters ∧ (setF s f v).arrivals = s.arrivals ∧ (setF s f v).fullAt = s.fullAt ∧
    (setF s f v).ops = s.ops ∧ (setF s f v).nextOp = s.nextOp ∧ (setF s f v).bankq = s.bankq ∧
    (setF s f v).bankRR = s.bankRR ∧ (setF s f v).bankAt = s.bankAt ∧ (setF s f v).bankClock = s.bankClock ∧
    (setF s f v).tokens = s.tokens ∧ (setF s f v).nextTok = s.nextTok ∧ (setF s f v).creels = s.creels ∧
    (setF s f v).logQ = s.logQ ∧ (setF s f v).pcie = s.pcie ∧ (setF s f v).msgs = s.msgs ∧ (setF s f v).up = s.up ∧
    (setF s f v).uses = s.uses ∧ (setF s f v).tasks = s.tasks ∧ (setF s f v).gens = s.gens ∧
    (setF s f v).lastId = s.lastId ∧ (setF s f v).accepted = s.accepted ∧ (setF s f v).queues = s.queues ∧
    (setF s f v).bins = s.bins ∧ (setF s f v).slots = s.slots ∧ (setF s f v).ages = s.ages ∧
    (setF s f v).planRemovals = s.planRemovals ∧ (setF s f v).ports = s.ports ∧ (setF s f v).wickets = s.wickets ∧
    (setF s f v).lanterns = s.lanterns ∧ (setF s f v).wire = s.wire ∧ (setF s f v).chans = s.chans ∧
    (setF s f v).faults = s.faults ∧ (setF s f v).fidGens = s.fidGens ∧ (setF s f v).dmaTlb = s.dmaTlb ∧
    (setF s f v).slaTlb = s.slaTlb ∧ (setF s f v).inval = s.inval ∧ (setF s f v).pri = s.pri ∧
    (setF s f v).priNext = s.priNext ∧ (setF s f v).priMax = s.priMax ∧ (setF s f v).slaRuns = s.slaRuns ∧
    (setF s f v).slaRefused = s.slaRefused ∧ (setF s f v).units = s.units ∧ (setF s f v).unitRR = s.unitRR ∧
    (setF s f v).dramErr = s.dramErr ∧ (setF s f v).dramWb = s.dramWb ∧ (setF s f v).refreshed = s.refreshed ∧
    (setF s f v).scrubAt = s.scrubAt ∧ (setF s f v).lastAt = s.lastAt ∧ (setF s f v).plotClock = s.plotClock ∧
    (setF s f v).frame = s.frame ∧ (setF s f v).outAt = s.outAt ∧ (setF s f v).inAt = s.inAt ∧
    (setF s f v).stallAt = s.stallAt ∧ (setF s f v).packets = s.packets ∧ (setF s f v).hopRR = s.hopRR ∧
    (setF s f v).hedges = s.hedges ∧ (setF s f v).transients = s.transients ∧ (setF s f v).change = s.change ∧
    (setF s f v).lodge = s.lodge ∧ (setF s f v).pins = s.pins ∧ (setF s f v).reply = s.reply ∧ (setF s f v).aer = s.aer ∧
    (setF s f v).console = s.console ∧ (setF s f v).belvArmed = s.belvArmed ∧ (setF s f v).belvCount = s.belvCount ∧
    (setF s f v).belvIssued = s.belvIssued :=
    ⟨rfl, rfl, rfl, rfl, rfl, rfl, rfl, rfl, rfl, rfl, rfl, rfl, rfl, rfl, rfl, rfl, rfl, rfl, rfl, rfl, rfl, rfl, rfl,
    rfl, rfl, rfl, rfl, rfl, rfl, rfl, rfl, rfl, rfl, rfl, rfl, rfl, rfl, rfl, rfl, rfl, rfl, rfl, rfl, rfl, rfl, rfl,
    rfl, rfl, rfl, rfl, rfl, rfl, rfl, rfl, rfl, rfl, rfl, rfl, rfl, rfl, rfl, rfl, rfl, rfl, rfl, rfl, rfl, rfl, rfl,
    rfl, rfl, rfl, rfl, rfl, rfl, rfl, rfl, rfl, rfl⟩

@[simp] theorem bump_fields (s : State) (f : Fld) (n : Nat) :
    (bump s f n).part = s.part ∧ (bump s f n).free = s.free ∧ (bump s f n).pending = s.pending ∧ (bump s f n).org = s.org ∧
    (bump s f n).dram = s.dram ∧ (bump s f n).host = s.host ∧ (bump s f n).wordMeta = s.wordMeta ∧
    (bump s f n).orgErr = s.orgErr ∧ (bump s f n).orgWb = s.orgWb ∧ (bump s f n).cores = s.cores ∧
    (bump s f n).streams = s.streams ∧ (bump s f n).wsets = s.wsets ∧ (bump s f n).nextW = s.nextW ∧
    (bump s f n).waiters = s.waiters ∧ (bump s f n).arrivals = s.arrivals ∧ (bump s f n).fullAt = s.fullAt ∧
    (bump s f n).ops = s.ops ∧ (bump s f n).nextOp = s.nextOp ∧ (bump s f n).bankq = s.bankq ∧
    (bump s f n).bankRR = s.bankRR ∧ (bump s f n).bankAt = s.bankAt ∧ (bump s f n).bankClock = s.bankClock ∧
    (bump s f n).tokens = s.tokens ∧ (bump s f n).nextTok = s.nextTok ∧ (bump s f n).creels = s.creels ∧
    (bump s f n).logQ = s.logQ ∧ (bump s f n).pcie = s.pcie ∧ (bump s f n).msgs = s.msgs ∧ (bump s f n).up = s.up ∧
    (bump s f n).uses = s.uses ∧ (bump s f n).tasks = s.tasks ∧ (bump s f n).gens = s.gens ∧
    (bump s f n).lastId = s.lastId ∧ (bump s f n).accepted = s.accepted ∧ (bump s f n).queues = s.queues ∧
    (bump s f n).bins = s.bins ∧ (bump s f n).slots = s.slots ∧ (bump s f n).ages = s.ages ∧
    (bump s f n).planRemovals = s.planRemovals ∧ (bump s f n).ports = s.ports ∧ (bump s f n).wickets = s.wickets ∧
    (bump s f n).lanterns = s.lanterns ∧ (bump s f n).wire = s.wire ∧ (bump s f n).chans = s.chans ∧
    (bump s f n).faults = s.faults ∧ (bump s f n).fidGens = s.fidGens ∧ (bump s f n).dmaTlb = s.dmaTlb ∧
    (bump s f n).slaTlb = s.slaTlb ∧ (bump s f n).inval = s.inval ∧ (bump s f n).pri = s.pri ∧
    (bump s f n).priNext = s.priNext ∧ (bump s f n).priMax = s.priMax ∧ (bump s f n).slaRuns = s.slaRuns ∧
    (bump s f n).slaRefused = s.slaRefused ∧ (bump s f n).units = s.units ∧ (bump s f n).unitRR = s.unitRR ∧
    (bump s f n).dramErr = s.dramErr ∧ (bump s f n).dramWb = s.dramWb ∧ (bump s f n).refreshed = s.refreshed ∧
    (bump s f n).scrubAt = s.scrubAt ∧ (bump s f n).lastAt = s.lastAt ∧ (bump s f n).plotClock = s.plotClock ∧
    (bump s f n).frame = s.frame ∧ (bump s f n).outAt = s.outAt ∧ (bump s f n).inAt = s.inAt ∧
    (bump s f n).stallAt = s.stallAt ∧ (bump s f n).packets = s.packets ∧ (bump s f n).hopRR = s.hopRR ∧
    (bump s f n).hedges = s.hedges ∧ (bump s f n).transients = s.transients ∧ (bump s f n).change = s.change ∧
    (bump s f n).lodge = s.lodge ∧ (bump s f n).pins = s.pins ∧ (bump s f n).reply = s.reply ∧ (bump s f n).aer = s.aer ∧
    (bump s f n).console = s.console ∧ (bump s f n).belvArmed = s.belvArmed ∧ (bump s f n).belvCount = s.belvCount ∧
    (bump s f n).belvIssued = s.belvIssued :=
    ⟨rfl, rfl, rfl, rfl, rfl, rfl, rfl, rfl, rfl, rfl, rfl, rfl, rfl, rfl, rfl, rfl, rfl, rfl, rfl, rfl, rfl, rfl, rfl,
    rfl, rfl, rfl, rfl, rfl, rfl, rfl, rfl, rfl, rfl, rfl, rfl, rfl, rfl, rfl, rfl, rfl, rfl, rfl, rfl, rfl, rfl, rfl,
    rfl, rfl, rfl, rfl, rfl, rfl, rfl, rfl, rfl, rfl, rfl, rfl, rfl, rfl, rfl, rfl, rfl, rfl, rfl, rfl, rfl, rfl, rfl,
    rfl, rfl, rfl, rfl, rfl, rfl, rfl, rfl, rfl, rfl⟩

@[simp] theorem setBit_fields (s : State) (f : Fld) (i : Nat) (b : Bool) :
    (setBit s f i b).part = s.part ∧ (setBit s f i b).free = s.free ∧ (setBit s f i b).pending = s.pending ∧
    (setBit s f i b).org = s.org ∧ (setBit s f i b).dram = s.dram ∧ (setBit s f i b).host = s.host ∧
    (setBit s f i b).wordMeta = s.wordMeta ∧ (setBit s f i b).orgErr = s.orgErr ∧ (setBit s f i b).orgWb = s.orgWb ∧
    (setBit s f i b).cores = s.cores ∧ (setBit s f i b).streams = s.streams ∧ (setBit s f i b).wsets = s.wsets ∧
    (setBit s f i b).nextW = s.nextW ∧ (setBit s f i b).waiters = s.waiters ∧ (setBit s f i b).arrivals = s.arrivals ∧
    (setBit s f i b).fullAt = s.fullAt ∧ (setBit s f i b).ops = s.ops ∧ (setBit s f i b).nextOp = s.nextOp ∧
    (setBit s f i b).bankq = s.bankq ∧ (setBit s f i b).bankRR = s.bankRR ∧ (setBit s f i b).bankAt = s.bankAt ∧
    (setBit s f i b).bankClock = s.bankClock ∧ (setBit s f i b).tokens = s.tokens ∧ (setBit s f i b).nextTok = s.nextTok ∧
    (setBit s f i b).creels = s.creels ∧ (setBit s f i b).logQ = s.logQ ∧ (setBit s f i b).pcie = s.pcie ∧
    (setBit s f i b).msgs = s.msgs ∧ (setBit s f i b).up = s.up ∧ (setBit s f i b).uses = s.uses ∧
    (setBit s f i b).tasks = s.tasks ∧ (setBit s f i b).gens = s.gens ∧ (setBit s f i b).lastId = s.lastId ∧
    (setBit s f i b).accepted = s.accepted ∧ (setBit s f i b).queues = s.queues ∧ (setBit s f i b).bins = s.bins ∧
    (setBit s f i b).slots = s.slots ∧ (setBit s f i b).ages = s.ages ∧ (setBit s f i b).planRemovals = s.planRemovals ∧
    (setBit s f i b).ports = s.ports ∧ (setBit s f i b).wickets = s.wickets ∧ (setBit s f i b).lanterns = s.lanterns ∧
    (setBit s f i b).wire = s.wire ∧ (setBit s f i b).chans = s.chans ∧ (setBit s f i b).faults = s.faults ∧
    (setBit s f i b).fidGens = s.fidGens ∧ (setBit s f i b).dmaTlb = s.dmaTlb ∧ (setBit s f i b).slaTlb = s.slaTlb ∧
    (setBit s f i b).inval = s.inval ∧ (setBit s f i b).pri = s.pri ∧ (setBit s f i b).priNext = s.priNext ∧
    (setBit s f i b).priMax = s.priMax ∧ (setBit s f i b).slaRuns = s.slaRuns ∧ (setBit s f i b).slaRefused = s.slaRefused ∧
    (setBit s f i b).units = s.units ∧ (setBit s f i b).unitRR = s.unitRR ∧ (setBit s f i b).dramErr = s.dramErr ∧
    (setBit s f i b).dramWb = s.dramWb ∧ (setBit s f i b).refreshed = s.refreshed ∧ (setBit s f i b).scrubAt = s.scrubAt ∧
    (setBit s f i b).lastAt = s.lastAt ∧ (setBit s f i b).plotClock = s.plotClock ∧ (setBit s f i b).frame = s.frame ∧
    (setBit s f i b).outAt = s.outAt ∧ (setBit s f i b).inAt = s.inAt ∧ (setBit s f i b).stallAt = s.stallAt ∧
    (setBit s f i b).packets = s.packets ∧ (setBit s f i b).hopRR = s.hopRR ∧ (setBit s f i b).hedges = s.hedges ∧
    (setBit s f i b).transients = s.transients ∧ (setBit s f i b).change = s.change ∧ (setBit s f i b).lodge = s.lodge ∧
    (setBit s f i b).pins = s.pins ∧ (setBit s f i b).reply = s.reply ∧ (setBit s f i b).aer = s.aer ∧
    (setBit s f i b).console = s.console ∧ (setBit s f i b).belvArmed = s.belvArmed ∧
    (setBit s f i b).belvCount = s.belvCount ∧ (setBit s f i b).belvIssued = s.belvIssued :=
    ⟨rfl, rfl, rfl, rfl, rfl, rfl, rfl, rfl, rfl, rfl, rfl, rfl, rfl, rfl, rfl, rfl, rfl, rfl, rfl, rfl, rfl, rfl, rfl,
    rfl, rfl, rfl, rfl, rfl, rfl, rfl, rfl, rfl, rfl, rfl, rfl, rfl, rfl, rfl, rfl, rfl, rfl, rfl, rfl, rfl, rfl, rfl,
    rfl, rfl, rfl, rfl, rfl, rfl, rfl, rfl, rfl, rfl, rfl, rfl, rfl, rfl, rfl, rfl, rfl, rfl, rfl, rfl, rfl, rfl, rfl,
    rfl, rfl, rfl, rfl, rfl, rfl, rfl, rfl, rfl, rfl⟩

@[simp] theorem setCore_fields (s : State) (m : Nat) (c : Core) :
    (setCore s m c).part = s.part ∧ (setCore s m c).regs = s.regs ∧ (setCore s m c).free = s.free ∧
    (setCore s m c).pending = s.pending ∧ (setCore s m c).org = s.org ∧ (setCore s m c).dram = s.dram ∧
    (setCore s m c).host = s.host ∧ (setCore s m c).wordMeta = s.wordMeta ∧ (setCore s m c).orgErr = s.orgErr ∧
    (setCore s m c).orgWb = s.orgWb ∧ (setCore s m c).streams = s.streams ∧ (setCore s m c).wsets = s.wsets ∧
    (setCore s m c).nextW = s.nextW ∧ (setCore s m c).waiters = s.waiters ∧ (setCore s m c).arrivals = s.arrivals ∧
    (setCore s m c).fullAt = s.fullAt ∧ (setCore s m c).ops = s.ops ∧ (setCore s m c).nextOp = s.nextOp ∧
    (setCore s m c).bankq = s.bankq ∧ (setCore s m c).bankRR = s.bankRR ∧ (setCore s m c).bankAt = s.bankAt ∧
    (setCore s m c).bankClock = s.bankClock ∧ (setCore s m c).tokens = s.tokens ∧ (setCore s m c).nextTok = s.nextTok ∧
    (setCore s m c).creels = s.creels ∧ (setCore s m c).logQ = s.logQ ∧ (setCore s m c).pcie = s.pcie ∧
    (setCore s m c).msgs = s.msgs ∧ (setCore s m c).up = s.up ∧ (setCore s m c).uses = s.uses ∧
    (setCore s m c).tasks = s.tasks ∧ (setCore s m c).gens = s.gens ∧ (setCore s m c).lastId = s.lastId ∧
    (setCore s m c).accepted = s.accepted ∧ (setCore s m c).queues = s.queues ∧ (setCore s m c).bins = s.bins ∧
    (setCore s m c).slots = s.slots ∧ (setCore s m c).ages = s.ages ∧ (setCore s m c).planRemovals = s.planRemovals ∧
    (setCore s m c).ports = s.ports ∧ (setCore s m c).wickets = s.wickets ∧ (setCore s m c).lanterns = s.lanterns ∧
    (setCore s m c).wire = s.wire ∧ (setCore s m c).chans = s.chans ∧ (setCore s m c).faults = s.faults ∧
    (setCore s m c).fidGens = s.fidGens ∧ (setCore s m c).dmaTlb = s.dmaTlb ∧ (setCore s m c).slaTlb = s.slaTlb ∧
    (setCore s m c).inval = s.inval ∧ (setCore s m c).pri = s.pri ∧ (setCore s m c).priNext = s.priNext ∧
    (setCore s m c).priMax = s.priMax ∧ (setCore s m c).slaRuns = s.slaRuns ∧ (setCore s m c).slaRefused = s.slaRefused ∧
    (setCore s m c).units = s.units ∧ (setCore s m c).unitRR = s.unitRR ∧ (setCore s m c).dramErr = s.dramErr ∧
    (setCore s m c).dramWb = s.dramWb ∧ (setCore s m c).refreshed = s.refreshed ∧ (setCore s m c).scrubAt = s.scrubAt ∧
    (setCore s m c).lastAt = s.lastAt ∧ (setCore s m c).plotClock = s.plotClock ∧ (setCore s m c).frame = s.frame ∧
    (setCore s m c).outAt = s.outAt ∧ (setCore s m c).inAt = s.inAt ∧ (setCore s m c).stallAt = s.stallAt ∧
    (setCore s m c).packets = s.packets ∧ (setCore s m c).hopRR = s.hopRR ∧ (setCore s m c).hedges = s.hedges ∧
    (setCore s m c).transients = s.transients ∧ (setCore s m c).change = s.change ∧ (setCore s m c).lodge = s.lodge ∧
    (setCore s m c).pins = s.pins ∧ (setCore s m c).reply = s.reply ∧ (setCore s m c).aer = s.aer ∧
    (setCore s m c).console = s.console ∧ (setCore s m c).belvArmed = s.belvArmed ∧
    (setCore s m c).belvCount = s.belvCount ∧ (setCore s m c).belvIssued = s.belvIssued :=
    ⟨rfl, rfl, rfl, rfl, rfl, rfl, rfl, rfl, rfl, rfl, rfl, rfl, rfl, rfl, rfl, rfl, rfl, rfl, rfl, rfl, rfl, rfl, rfl,
    rfl, rfl, rfl, rfl, rfl, rfl, rfl, rfl, rfl, rfl, rfl, rfl, rfl, rfl, rfl, rfl, rfl, rfl, rfl, rfl, rfl, rfl, rfl,
    rfl, rfl, rfl, rfl, rfl, rfl, rfl, rfl, rfl, rfl, rfl, rfl, rfl, rfl, rfl, rfl, rfl, rfl, rfl, rfl, rfl, rfl, rfl,
    rfl, rfl, rfl, rfl, rfl, rfl, rfl, rfl, rfl, rfl⟩

@[simp] theorem modCore_fields (s : State) (m : Nat) (f : Core → Core) :
    (modCore s m f).part = s.part ∧ (modCore s m f).regs = s.regs ∧ (modCore s m f).free = s.free ∧
    (modCore s m f).pending = s.pending ∧ (modCore s m f).org = s.org ∧ (modCore s m f).dram = s.dram ∧
    (modCore s m f).host = s.host ∧ (modCore s m f).wordMeta = s.wordMeta ∧ (modCore s m f).orgErr = s.orgErr ∧
    (modCore s m f).orgWb = s.orgWb ∧ (modCore s m f).streams = s.streams ∧ (modCore s m f).wsets = s.wsets ∧
    (modCore s m f).nextW = s.nextW ∧ (modCore s m f).waiters = s.waiters ∧ (modCore s m f).arrivals = s.arrivals ∧
    (modCore s m f).fullAt = s.fullAt ∧ (modCore s m f).ops = s.ops ∧ (modCore s m f).nextOp = s.nextOp ∧
    (modCore s m f).bankq = s.bankq ∧ (modCore s m f).bankRR = s.bankRR ∧ (modCore s m f).bankAt = s.bankAt ∧
    (modCore s m f).bankClock = s.bankClock ∧ (modCore s m f).tokens = s.tokens ∧ (modCore s m f).nextTok = s.nextTok ∧
    (modCore s m f).creels = s.creels ∧ (modCore s m f).logQ = s.logQ ∧ (modCore s m f).pcie = s.pcie ∧
    (modCore s m f).msgs = s.msgs ∧ (modCore s m f).up = s.up ∧ (modCore s m f).uses = s.uses ∧
    (modCore s m f).tasks = s.tasks ∧ (modCore s m f).gens = s.gens ∧ (modCore s m f).lastId = s.lastId ∧
    (modCore s m f).accepted = s.accepted ∧ (modCore s m f).queues = s.queues ∧ (modCore s m f).bins = s.bins ∧
    (modCore s m f).slots = s.slots ∧ (modCore s m f).ages = s.ages ∧ (modCore s m f).planRemovals = s.planRemovals ∧
    (modCore s m f).ports = s.ports ∧ (modCore s m f).wickets = s.wickets ∧ (modCore s m f).lanterns = s.lanterns ∧
    (modCore s m f).wire = s.wire ∧ (modCore s m f).chans = s.chans ∧ (modCore s m f).faults = s.faults ∧
    (modCore s m f).fidGens = s.fidGens ∧ (modCore s m f).dmaTlb = s.dmaTlb ∧ (modCore s m f).slaTlb = s.slaTlb ∧
    (modCore s m f).inval = s.inval ∧ (modCore s m f).pri = s.pri ∧ (modCore s m f).priNext = s.priNext ∧
    (modCore s m f).priMax = s.priMax ∧ (modCore s m f).slaRuns = s.slaRuns ∧ (modCore s m f).slaRefused = s.slaRefused ∧
    (modCore s m f).units = s.units ∧ (modCore s m f).unitRR = s.unitRR ∧ (modCore s m f).dramErr = s.dramErr ∧
    (modCore s m f).dramWb = s.dramWb ∧ (modCore s m f).refreshed = s.refreshed ∧ (modCore s m f).scrubAt = s.scrubAt ∧
    (modCore s m f).lastAt = s.lastAt ∧ (modCore s m f).plotClock = s.plotClock ∧ (modCore s m f).frame = s.frame ∧
    (modCore s m f).outAt = s.outAt ∧ (modCore s m f).inAt = s.inAt ∧ (modCore s m f).stallAt = s.stallAt ∧
    (modCore s m f).packets = s.packets ∧ (modCore s m f).hopRR = s.hopRR ∧ (modCore s m f).hedges = s.hedges ∧
    (modCore s m f).transients = s.transients ∧ (modCore s m f).change = s.change ∧ (modCore s m f).lodge = s.lodge ∧
    (modCore s m f).pins = s.pins ∧ (modCore s m f).reply = s.reply ∧ (modCore s m f).aer = s.aer ∧
    (modCore s m f).console = s.console ∧ (modCore s m f).belvArmed = s.belvArmed ∧
    (modCore s m f).belvCount = s.belvCount ∧ (modCore s m f).belvIssued = s.belvIssued :=
    ⟨rfl, rfl, rfl, rfl, rfl, rfl, rfl, rfl, rfl, rfl, rfl, rfl, rfl, rfl, rfl, rfl, rfl, rfl, rfl, rfl, rfl, rfl, rfl,
    rfl, rfl, rfl, rfl, rfl, rfl, rfl, rfl, rfl, rfl, rfl, rfl, rfl, rfl, rfl, rfl, rfl, rfl, rfl, rfl, rfl, rfl, rfl,
    rfl, rfl, rfl, rfl, rfl, rfl, rfl, rfl, rfl, rfl, rfl, rfl, rfl, rfl, rfl, rfl, rfl, rfl, rfl, rfl, rfl, rfl, rfl,
    rfl, rfl, rfl, rfl, rfl, rfl, rfl, rfl, rfl, rfl⟩

@[simp] theorem setStr_fields (s : State) (k : Nat) (t : Stream) :
    (setStr s k t).part = s.part ∧ (setStr s k t).regs = s.regs ∧ (setStr s k t).free = s.free ∧
    (setStr s k t).pending = s.pending ∧ (setStr s k t).org = s.org ∧ (setStr s k t).dram = s.dram ∧
    (setStr s k t).host = s.host ∧ (setStr s k t).wordMeta = s.wordMeta ∧ (setStr s k t).orgErr = s.orgErr ∧
    (setStr s k t).orgWb = s.orgWb ∧ (setStr s k t).cores = s.cores ∧ (setStr s k t).wsets = s.wsets ∧
    (setStr s k t).nextW = s.nextW ∧ (setStr s k t).waiters = s.waiters ∧ (setStr s k t).arrivals = s.arrivals ∧
    (setStr s k t).fullAt = s.fullAt ∧ (setStr s k t).ops = s.ops ∧ (setStr s k t).nextOp = s.nextOp ∧
    (setStr s k t).bankq = s.bankq ∧ (setStr s k t).bankRR = s.bankRR ∧ (setStr s k t).bankAt = s.bankAt ∧
    (setStr s k t).bankClock = s.bankClock ∧ (setStr s k t).tokens = s.tokens ∧ (setStr s k t).nextTok = s.nextTok ∧
    (setStr s k t).creels = s.creels ∧ (setStr s k t).logQ = s.logQ ∧ (setStr s k t).pcie = s.pcie ∧
    (setStr s k t).msgs = s.msgs ∧ (setStr s k t).up = s.up ∧ (setStr s k t).uses = s.uses ∧
    (setStr s k t).tasks = s.tasks ∧ (setStr s k t).gens = s.gens ∧ (setStr s k t).lastId = s.lastId ∧
    (setStr s k t).accepted = s.accepted ∧ (setStr s k t).queues = s.queues ∧ (setStr s k t).bins = s.bins ∧
    (setStr s k t).slots = s.slots ∧ (setStr s k t).ages = s.ages ∧ (setStr s k t).planRemovals = s.planRemovals ∧
    (setStr s k t).ports = s.ports ∧ (setStr s k t).wickets = s.wickets ∧ (setStr s k t).lanterns = s.lanterns ∧
    (setStr s k t).wire = s.wire ∧ (setStr s k t).chans = s.chans ∧ (setStr s k t).faults = s.faults ∧
    (setStr s k t).fidGens = s.fidGens ∧ (setStr s k t).dmaTlb = s.dmaTlb ∧ (setStr s k t).slaTlb = s.slaTlb ∧
    (setStr s k t).inval = s.inval ∧ (setStr s k t).pri = s.pri ∧ (setStr s k t).priNext = s.priNext ∧
    (setStr s k t).priMax = s.priMax ∧ (setStr s k t).slaRuns = s.slaRuns ∧ (setStr s k t).slaRefused = s.slaRefused ∧
    (setStr s k t).units = s.units ∧ (setStr s k t).unitRR = s.unitRR ∧ (setStr s k t).dramErr = s.dramErr ∧
    (setStr s k t).dramWb = s.dramWb ∧ (setStr s k t).refreshed = s.refreshed ∧ (setStr s k t).scrubAt = s.scrubAt ∧
    (setStr s k t).lastAt = s.lastAt ∧ (setStr s k t).plotClock = s.plotClock ∧ (setStr s k t).frame = s.frame ∧
    (setStr s k t).outAt = s.outAt ∧ (setStr s k t).inAt = s.inAt ∧ (setStr s k t).stallAt = s.stallAt ∧
    (setStr s k t).packets = s.packets ∧ (setStr s k t).hopRR = s.hopRR ∧ (setStr s k t).hedges = s.hedges ∧
    (setStr s k t).transients = s.transients ∧ (setStr s k t).change = s.change ∧ (setStr s k t).lodge = s.lodge ∧
    (setStr s k t).pins = s.pins ∧ (setStr s k t).reply = s.reply ∧ (setStr s k t).aer = s.aer ∧
    (setStr s k t).console = s.console ∧ (setStr s k t).belvArmed = s.belvArmed ∧ (setStr s k t).belvCount = s.belvCount ∧
    (setStr s k t).belvIssued = s.belvIssued :=
    ⟨rfl, rfl, rfl, rfl, rfl, rfl, rfl, rfl, rfl, rfl, rfl, rfl, rfl, rfl, rfl, rfl, rfl, rfl, rfl, rfl, rfl, rfl, rfl,
    rfl, rfl, rfl, rfl, rfl, rfl, rfl, rfl, rfl, rfl, rfl, rfl, rfl, rfl, rfl, rfl, rfl, rfl, rfl, rfl, rfl, rfl, rfl,
    rfl, rfl, rfl, rfl, rfl, rfl, rfl, rfl, rfl, rfl, rfl, rfl, rfl, rfl, rfl, rfl, rfl, rfl, rfl, rfl, rfl, rfl, rfl,
    rfl, rfl, rfl, rfl, rfl, rfl, rfl, rfl, rfl, rfl⟩

@[simp] theorem modStr_fields (s : State) (k : Nat) (f : Stream → Stream) :
    (modStr s k f).part = s.part ∧ (modStr s k f).regs = s.regs ∧ (modStr s k f).free = s.free ∧
    (modStr s k f).pending = s.pending ∧ (modStr s k f).org = s.org ∧ (modStr s k f).dram = s.dram ∧
    (modStr s k f).host = s.host ∧ (modStr s k f).wordMeta = s.wordMeta ∧ (modStr s k f).orgErr = s.orgErr ∧
    (modStr s k f).orgWb = s.orgWb ∧ (modStr s k f).cores = s.cores ∧ (modStr s k f).wsets = s.wsets ∧
    (modStr s k f).nextW = s.nextW ∧ (modStr s k f).waiters = s.waiters ∧ (modStr s k f).arrivals = s.arrivals ∧
    (modStr s k f).fullAt = s.fullAt ∧ (modStr s k f).ops = s.ops ∧ (modStr s k f).nextOp = s.nextOp ∧
    (modStr s k f).bankq = s.bankq ∧ (modStr s k f).bankRR = s.bankRR ∧ (modStr s k f).bankAt = s.bankAt ∧
    (modStr s k f).bankClock = s.bankClock ∧ (modStr s k f).tokens = s.tokens ∧ (modStr s k f).nextTok = s.nextTok ∧
    (modStr s k f).creels = s.creels ∧ (modStr s k f).logQ = s.logQ ∧ (modStr s k f).pcie = s.pcie ∧
    (modStr s k f).msgs = s.msgs ∧ (modStr s k f).up = s.up ∧ (modStr s k f).uses = s.uses ∧
    (modStr s k f).tasks = s.tasks ∧ (modStr s k f).gens = s.gens ∧ (modStr s k f).lastId = s.lastId ∧
    (modStr s k f).accepted = s.accepted ∧ (modStr s k f).queues = s.queues ∧ (modStr s k f).bins = s.bins ∧
    (modStr s k f).slots = s.slots ∧ (modStr s k f).ages = s.ages ∧ (modStr s k f).planRemovals = s.planRemovals ∧
    (modStr s k f).ports = s.ports ∧ (modStr s k f).wickets = s.wickets ∧ (modStr s k f).lanterns = s.lanterns ∧
    (modStr s k f).wire = s.wire ∧ (modStr s k f).chans = s.chans ∧ (modStr s k f).faults = s.faults ∧
    (modStr s k f).fidGens = s.fidGens ∧ (modStr s k f).dmaTlb = s.dmaTlb ∧ (modStr s k f).slaTlb = s.slaTlb ∧
    (modStr s k f).inval = s.inval ∧ (modStr s k f).pri = s.pri ∧ (modStr s k f).priNext = s.priNext ∧
    (modStr s k f).priMax = s.priMax ∧ (modStr s k f).slaRuns = s.slaRuns ∧ (modStr s k f).slaRefused = s.slaRefused ∧
    (modStr s k f).units = s.units ∧ (modStr s k f).unitRR = s.unitRR ∧ (modStr s k f).dramErr = s.dramErr ∧
    (modStr s k f).dramWb = s.dramWb ∧ (modStr s k f).refreshed = s.refreshed ∧ (modStr s k f).scrubAt = s.scrubAt ∧
    (modStr s k f).lastAt = s.lastAt ∧ (modStr s k f).plotClock = s.plotClock ∧ (modStr s k f).frame = s.frame ∧
    (modStr s k f).outAt = s.outAt ∧ (modStr s k f).inAt = s.inAt ∧ (modStr s k f).stallAt = s.stallAt ∧
    (modStr s k f).packets = s.packets ∧ (modStr s k f).hopRR = s.hopRR ∧ (modStr s k f).hedges = s.hedges ∧
    (modStr s k f).transients = s.transients ∧ (modStr s k f).change = s.change ∧ (modStr s k f).lodge = s.lodge ∧
    (modStr s k f).pins = s.pins ∧ (modStr s k f).reply = s.reply ∧ (modStr s k f).aer = s.aer ∧
    (modStr s k f).console = s.console ∧ (modStr s k f).belvArmed = s.belvArmed ∧ (modStr s k f).belvCount = s.belvCount ∧
    (modStr s k f).belvIssued = s.belvIssued :=
    ⟨rfl, rfl, rfl, rfl, rfl, rfl, rfl, rfl, rfl, rfl, rfl, rfl, rfl, rfl, rfl, rfl, rfl, rfl, rfl, rfl, rfl, rfl, rfl,
    rfl, rfl, rfl, rfl, rfl, rfl, rfl, rfl, rfl, rfl, rfl, rfl, rfl, rfl, rfl, rfl, rfl, rfl, rfl, rfl, rfl, rfl, rfl,
    rfl, rfl, rfl, rfl, rfl, rfl, rfl, rfl, rfl, rfl, rfl, rfl, rfl, rfl, rfl, rfl, rfl, rfl, rfl, rfl, rfl, rfl, rfl,
    rfl, rfl, rfl, rfl, rfl, rfl, rfl, rfl, rfl, rfl⟩

@[simp] theorem setCreel_fields (s : State) (c : Nat) (x : Creel) :
    (setCreel s c x).part = s.part ∧ (setCreel s c x).regs = s.regs ∧ (setCreel s c x).free = s.free ∧
    (setCreel s c x).pending = s.pending ∧ (setCreel s c x).org = s.org ∧ (setCreel s c x).dram = s.dram ∧
    (setCreel s c x).host = s.host ∧ (setCreel s c x).wordMeta = s.wordMeta ∧ (setCreel s c x).orgErr = s.orgErr ∧
    (setCreel s c x).orgWb = s.orgWb ∧ (setCreel s c x).cores = s.cores ∧ (setCreel s c x).streams = s.streams ∧
    (setCreel s c x).wsets = s.wsets ∧ (setCreel s c x).nextW = s.nextW ∧ (setCreel s c x).waiters = s.waiters ∧
    (setCreel s c x).arrivals = s.arrivals ∧ (setCreel s c x).fullAt = s.fullAt ∧ (setCreel s c x).ops = s.ops ∧
    (setCreel s c x).nextOp = s.nextOp ∧ (setCreel s c x).bankq = s.bankq ∧ (setCreel s c x).bankRR = s.bankRR ∧
    (setCreel s c x).bankAt = s.bankAt ∧ (setCreel s c x).bankClock = s.bankClock ∧ (setCreel s c x).tokens = s.tokens ∧
    (setCreel s c x).nextTok = s.nextTok ∧ (setCreel s c x).logQ = s.logQ ∧ (setCreel s c x).pcie = s.pcie ∧
    (setCreel s c x).msgs = s.msgs ∧ (setCreel s c x).up = s.up ∧ (setCreel s c x).uses = s.uses ∧
    (setCreel s c x).tasks = s.tasks ∧ (setCreel s c x).gens = s.gens ∧ (setCreel s c x).lastId = s.lastId ∧
    (setCreel s c x).accepted = s.accepted ∧ (setCreel s c x).queues = s.queues ∧ (setCreel s c x).bins = s.bins ∧
    (setCreel s c x).slots = s.slots ∧ (setCreel s c x).ages = s.ages ∧ (setCreel s c x).planRemovals = s.planRemovals ∧
    (setCreel s c x).ports = s.ports ∧ (setCreel s c x).wickets = s.wickets ∧ (setCreel s c x).lanterns = s.lanterns ∧
    (setCreel s c x).wire = s.wire ∧ (setCreel s c x).chans = s.chans ∧ (setCreel s c x).faults = s.faults ∧
    (setCreel s c x).fidGens = s.fidGens ∧ (setCreel s c x).dmaTlb = s.dmaTlb ∧ (setCreel s c x).slaTlb = s.slaTlb ∧
    (setCreel s c x).inval = s.inval ∧ (setCreel s c x).pri = s.pri ∧ (setCreel s c x).priNext = s.priNext ∧
    (setCreel s c x).priMax = s.priMax ∧ (setCreel s c x).slaRuns = s.slaRuns ∧ (setCreel s c x).slaRefused = s.slaRefused ∧
    (setCreel s c x).units = s.units ∧ (setCreel s c x).unitRR = s.unitRR ∧ (setCreel s c x).dramErr = s.dramErr ∧
    (setCreel s c x).dramWb = s.dramWb ∧ (setCreel s c x).refreshed = s.refreshed ∧ (setCreel s c x).scrubAt = s.scrubAt ∧
    (setCreel s c x).lastAt = s.lastAt ∧ (setCreel s c x).plotClock = s.plotClock ∧ (setCreel s c x).frame = s.frame ∧
    (setCreel s c x).outAt = s.outAt ∧ (setCreel s c x).inAt = s.inAt ∧ (setCreel s c x).stallAt = s.stallAt ∧
    (setCreel s c x).packets = s.packets ∧ (setCreel s c x).hopRR = s.hopRR ∧ (setCreel s c x).hedges = s.hedges ∧
    (setCreel s c x).transients = s.transients ∧ (setCreel s c x).change = s.change ∧ (setCreel s c x).lodge = s.lodge ∧
    (setCreel s c x).pins = s.pins ∧ (setCreel s c x).reply = s.reply ∧ (setCreel s c x).aer = s.aer ∧
    (setCreel s c x).console = s.console ∧ (setCreel s c x).belvArmed = s.belvArmed ∧
    (setCreel s c x).belvCount = s.belvCount ∧ (setCreel s c x).belvIssued = s.belvIssued :=
    ⟨rfl, rfl, rfl, rfl, rfl, rfl, rfl, rfl, rfl, rfl, rfl, rfl, rfl, rfl, rfl, rfl, rfl, rfl, rfl, rfl, rfl, rfl, rfl,
    rfl, rfl, rfl, rfl, rfl, rfl, rfl, rfl, rfl, rfl, rfl, rfl, rfl, rfl, rfl, rfl, rfl, rfl, rfl, rfl, rfl, rfl, rfl,
    rfl, rfl, rfl, rfl, rfl, rfl, rfl, rfl, rfl, rfl, rfl, rfl, rfl, rfl, rfl, rfl, rfl, rfl, rfl, rfl, rfl, rfl, rfl,
    rfl, rfl, rfl, rfl, rfl, rfl, rfl, rfl, rfl, rfl⟩

@[simp] theorem orgWrite_fields (s : State) (a : Nat) (bs : List Byte) :
    (orgWrite s a bs).part = s.part ∧ (orgWrite s a bs).regs = s.regs ∧ (orgWrite s a bs).free = s.free ∧
    (orgWrite s a bs).pending = s.pending ∧ (orgWrite s a bs).dram = s.dram ∧ (orgWrite s a bs).host = s.host ∧
    (orgWrite s a bs).wordMeta = s.wordMeta ∧ (orgWrite s a bs).orgWb = s.orgWb ∧ (orgWrite s a bs).cores = s.cores ∧
    (orgWrite s a bs).streams = s.streams ∧ (orgWrite s a bs).wsets = s.wsets ∧ (orgWrite s a bs).nextW = s.nextW ∧
    (orgWrite s a bs).waiters = s.waiters ∧ (orgWrite s a bs).arrivals = s.arrivals ∧ (orgWrite s a bs).fullAt = s.fullAt ∧
    (orgWrite s a bs).ops = s.ops ∧ (orgWrite s a bs).nextOp = s.nextOp ∧ (orgWrite s a bs).bankq = s.bankq ∧
    (orgWrite s a bs).bankRR = s.bankRR ∧ (orgWrite s a bs).bankAt = s.bankAt ∧ (orgWrite s a bs).bankClock = s.bankClock ∧
    (orgWrite s a bs).tokens = s.tokens ∧ (orgWrite s a bs).nextTok = s.nextTok ∧ (orgWrite s a bs).creels = s.creels ∧
    (orgWrite s a bs).logQ = s.logQ ∧ (orgWrite s a bs).pcie = s.pcie ∧ (orgWrite s a bs).msgs = s.msgs ∧
    (orgWrite s a bs).up = s.up ∧ (orgWrite s a bs).uses = s.uses ∧ (orgWrite s a bs).tasks = s.tasks ∧
    (orgWrite s a bs).gens = s.gens ∧ (orgWrite s a bs).lastId = s.lastId ∧ (orgWrite s a bs).accepted = s.accepted ∧
    (orgWrite s a bs).queues = s.queues ∧ (orgWrite s a bs).bins = s.bins ∧ (orgWrite s a bs).slots = s.slots ∧
    (orgWrite s a bs).ages = s.ages ∧ (orgWrite s a bs).planRemovals = s.planRemovals ∧ (orgWrite s a bs).ports = s.ports ∧
    (orgWrite s a bs).wickets = s.wickets ∧ (orgWrite s a bs).lanterns = s.lanterns ∧ (orgWrite s a bs).wire = s.wire ∧
    (orgWrite s a bs).chans = s.chans ∧ (orgWrite s a bs).faults = s.faults ∧ (orgWrite s a bs).fidGens = s.fidGens ∧
    (orgWrite s a bs).dmaTlb = s.dmaTlb ∧ (orgWrite s a bs).slaTlb = s.slaTlb ∧ (orgWrite s a bs).inval = s.inval ∧
    (orgWrite s a bs).pri = s.pri ∧ (orgWrite s a bs).priNext = s.priNext ∧ (orgWrite s a bs).priMax = s.priMax ∧
    (orgWrite s a bs).slaRuns = s.slaRuns ∧ (orgWrite s a bs).slaRefused = s.slaRefused ∧
    (orgWrite s a bs).units = s.units ∧ (orgWrite s a bs).unitRR = s.unitRR ∧ (orgWrite s a bs).dramErr = s.dramErr ∧
    (orgWrite s a bs).dramWb = s.dramWb ∧ (orgWrite s a bs).refreshed = s.refreshed ∧
    (orgWrite s a bs).scrubAt = s.scrubAt ∧ (orgWrite s a bs).lastAt = s.lastAt ∧
    (orgWrite s a bs).plotClock = s.plotClock ∧ (orgWrite s a bs).frame = s.frame ∧ (orgWrite s a bs).outAt = s.outAt ∧
    (orgWrite s a bs).inAt = s.inAt ∧ (orgWrite s a bs).stallAt = s.stallAt ∧ (orgWrite s a bs).packets = s.packets ∧
    (orgWrite s a bs).hopRR = s.hopRR ∧ (orgWrite s a bs).hedges = s.hedges ∧ (orgWrite s a bs).transients = s.transients ∧
    (orgWrite s a bs).change = s.change ∧ (orgWrite s a bs).lodge = s.lodge ∧ (orgWrite s a bs).pins = s.pins ∧
    (orgWrite s a bs).reply = s.reply ∧ (orgWrite s a bs).aer = s.aer ∧ (orgWrite s a bs).console = s.console ∧
    (orgWrite s a bs).belvArmed = s.belvArmed ∧ (orgWrite s a bs).belvCount = s.belvCount ∧
    (orgWrite s a bs).belvIssued = s.belvIssued :=
    ⟨rfl, rfl, rfl, rfl, rfl, rfl, rfl, rfl, rfl, rfl, rfl, rfl, rfl, rfl, rfl, rfl, rfl, rfl, rfl, rfl, rfl, rfl, rfl,
    rfl, rfl, rfl, rfl, rfl, rfl, rfl, rfl, rfl, rfl, rfl, rfl, rfl, rfl, rfl, rfl, rfl, rfl, rfl, rfl, rfl, rfl, rfl,
    rfl, rfl, rfl, rfl, rfl, rfl, rfl, rfl, rfl, rfl, rfl, rfl, rfl, rfl, rfl, rfl, rfl, rfl, rfl, rfl, rfl, rfl, rfl,
    rfl, rfl, rfl, rfl, rfl, rfl, rfl, rfl, rfl⟩

@[simp] theorem dramWrite_fields (s : State) (a : Nat) (bs : List Byte) :
    (dramWrite s a bs).part = s.part ∧ (dramWrite s a bs).regs = s.regs ∧ (dramWrite s a bs).free = s.free ∧
    (dramWrite s a bs).pending = s.pending ∧ (dramWrite s a bs).org = s.org ∧ (dramWrite s a bs).host = s.host ∧
    (dramWrite s a bs).wordMeta = s.wordMeta ∧ (dramWrite s a bs).orgErr = s.orgErr ∧ (dramWrite s a bs).orgWb = s.orgWb ∧
    (dramWrite s a bs).cores = s.cores ∧ (dramWrite s a bs).streams = s.streams ∧ (dramWrite s a bs).wsets = s.wsets ∧
    (dramWrite s a bs).nextW = s.nextW ∧ (dramWrite s a bs).waiters = s.waiters ∧ (dramWrite s a bs).arrivals = s.arrivals ∧
    (dramWrite s a bs).fullAt = s.fullAt ∧ (dramWrite s a bs).ops = s.ops ∧ (dramWrite s a bs).nextOp = s.nextOp ∧
    (dramWrite s a bs).bankq = s.bankq ∧ (dramWrite s a bs).bankRR = s.bankRR ∧ (dramWrite s a bs).bankAt = s.bankAt ∧
    (dramWrite s a bs).bankClock = s.bankClock ∧ (dramWrite s a bs).tokens = s.tokens ∧
    (dramWrite s a bs).nextTok = s.nextTok ∧ (dramWrite s a bs).creels = s.creels ∧ (dramWrite s a bs).logQ = s.logQ ∧
    (dramWrite s a bs).pcie = s.pcie ∧ (dramWrite s a bs).msgs = s.msgs ∧ (dramWrite s a bs).up = s.up ∧
    (dramWrite s a bs).uses = s.uses ∧ (dramWrite s a bs).tasks = s.tasks ∧ (dramWrite s a bs).gens = s.gens ∧
    (dramWrite s a bs).lastId = s.lastId ∧ (dramWrite s a bs).accepted = s.accepted ∧ (dramWrite s a bs).queues = s.queues ∧
    (dramWrite s a bs).bins = s.bins ∧ (dramWrite s a bs).slots = s.slots ∧ (dramWrite s a bs).ages = s.ages ∧
    (dramWrite s a bs).planRemovals = s.planRemovals ∧ (dramWrite s a bs).ports = s.ports ∧
    (dramWrite s a bs).wickets = s.wickets ∧ (dramWrite s a bs).lanterns = s.lanterns ∧ (dramWrite s a bs).wire = s.wire ∧
    (dramWrite s a bs).chans = s.chans ∧ (dramWrite s a bs).faults = s.faults ∧ (dramWrite s a bs).fidGens = s.fidGens ∧
    (dramWrite s a bs).dmaTlb = s.dmaTlb ∧ (dramWrite s a bs).slaTlb = s.slaTlb ∧ (dramWrite s a bs).inval = s.inval ∧
    (dramWrite s a bs).pri = s.pri ∧ (dramWrite s a bs).priNext = s.priNext ∧ (dramWrite s a bs).priMax = s.priMax ∧
    (dramWrite s a bs).slaRuns = s.slaRuns ∧ (dramWrite s a bs).slaRefused = s.slaRefused ∧
    (dramWrite s a bs).units = s.units ∧ (dramWrite s a bs).unitRR = s.unitRR ∧ (dramWrite s a bs).dramErr = s.dramErr ∧
    (dramWrite s a bs).dramWb = s.dramWb ∧ (dramWrite s a bs).refreshed = s.refreshed ∧
    (dramWrite s a bs).scrubAt = s.scrubAt ∧ (dramWrite s a bs).lastAt = s.lastAt ∧
    (dramWrite s a bs).plotClock = s.plotClock ∧ (dramWrite s a bs).frame = s.frame ∧ (dramWrite s a bs).outAt = s.outAt ∧
    (dramWrite s a bs).inAt = s.inAt ∧ (dramWrite s a bs).stallAt = s.stallAt ∧ (dramWrite s a bs).packets = s.packets ∧
    (dramWrite s a bs).hopRR = s.hopRR ∧ (dramWrite s a bs).hedges = s.hedges ∧
    (dramWrite s a bs).transients = s.transients ∧ (dramWrite s a bs).change = s.change ∧
    (dramWrite s a bs).lodge = s.lodge ∧ (dramWrite s a bs).pins = s.pins ∧ (dramWrite s a bs).reply = s.reply ∧
    (dramWrite s a bs).aer = s.aer ∧ (dramWrite s a bs).console = s.console ∧ (dramWrite s a bs).belvArmed = s.belvArmed ∧
    (dramWrite s a bs).belvCount = s.belvCount ∧ (dramWrite s a bs).belvIssued = s.belvIssued :=
    ⟨rfl, rfl, rfl, rfl, rfl, rfl, rfl, rfl, rfl, rfl, rfl, rfl, rfl, rfl, rfl, rfl, rfl, rfl, rfl, rfl, rfl, rfl, rfl,
    rfl, rfl, rfl, rfl, rfl, rfl, rfl, rfl, rfl, rfl, rfl, rfl, rfl, rfl, rfl, rfl, rfl, rfl, rfl, rfl, rfl, rfl, rfl,
    rfl, rfl, rfl, rfl, rfl, rfl, rfl, rfl, rfl, rfl, rfl, rfl, rfl, rfl, rfl, rfl, rfl, rfl, rfl, rfl, rfl, rfl, rfl,
    rfl, rfl, rfl, rfl, rfl, rfl, rfl, rfl, rfl, rfl⟩

@[simp] theorem hostWrite_fields (s : State) (a : Nat) (bs : List Byte) :
    (hostWrite s a bs).part = s.part ∧ (hostWrite s a bs).regs = s.regs ∧ (hostWrite s a bs).free = s.free ∧
    (hostWrite s a bs).pending = s.pending ∧ (hostWrite s a bs).org = s.org ∧ (hostWrite s a bs).dram = s.dram ∧
    (hostWrite s a bs).wordMeta = s.wordMeta ∧ (hostWrite s a bs).orgErr = s.orgErr ∧ (hostWrite s a bs).orgWb = s.orgWb ∧
    (hostWrite s a bs).cores = s.cores ∧ (hostWrite s a bs).streams = s.streams ∧ (hostWrite s a bs).wsets = s.wsets ∧
    (hostWrite s a bs).nextW = s.nextW ∧ (hostWrite s a bs).waiters = s.waiters ∧ (hostWrite s a bs).arrivals = s.arrivals ∧
    (hostWrite s a bs).fullAt = s.fullAt ∧ (hostWrite s a bs).ops = s.ops ∧ (hostWrite s a bs).nextOp = s.nextOp ∧
    (hostWrite s a bs).bankq = s.bankq ∧ (hostWrite s a bs).bankRR = s.bankRR ∧ (hostWrite s a bs).bankAt = s.bankAt ∧
    (hostWrite s a bs).bankClock = s.bankClock ∧ (hostWrite s a bs).tokens = s.tokens ∧
    (hostWrite s a bs).nextTok = s.nextTok ∧ (hostWrite s a bs).creels = s.creels ∧ (hostWrite s a bs).logQ = s.logQ ∧
    (hostWrite s a bs).pcie = s.pcie ∧ (hostWrite s a bs).msgs = s.msgs ∧ (hostWrite s a bs).up = s.up ∧
    (hostWrite s a bs).uses = s.uses ∧ (hostWrite s a bs).tasks = s.tasks ∧ (hostWrite s a bs).gens = s.gens ∧
    (hostWrite s a bs).lastId = s.lastId ∧ (hostWrite s a bs).accepted = s.accepted ∧ (hostWrite s a bs).queues = s.queues ∧
    (hostWrite s a bs).bins = s.bins ∧ (hostWrite s a bs).slots = s.slots ∧ (hostWrite s a bs).ages = s.ages ∧
    (hostWrite s a bs).planRemovals = s.planRemovals ∧ (hostWrite s a bs).ports = s.ports ∧
    (hostWrite s a bs).wickets = s.wickets ∧ (hostWrite s a bs).lanterns = s.lanterns ∧ (hostWrite s a bs).wire = s.wire ∧
    (hostWrite s a bs).chans = s.chans ∧ (hostWrite s a bs).faults = s.faults ∧ (hostWrite s a bs).fidGens = s.fidGens ∧
    (hostWrite s a bs).dmaTlb = s.dmaTlb ∧ (hostWrite s a bs).slaTlb = s.slaTlb ∧ (hostWrite s a bs).inval = s.inval ∧
    (hostWrite s a bs).pri = s.pri ∧ (hostWrite s a bs).priNext = s.priNext ∧ (hostWrite s a bs).priMax = s.priMax ∧
    (hostWrite s a bs).slaRuns = s.slaRuns ∧ (hostWrite s a bs).slaRefused = s.slaRefused ∧
    (hostWrite s a bs).units = s.units ∧ (hostWrite s a bs).unitRR = s.unitRR ∧ (hostWrite s a bs).dramErr = s.dramErr ∧
    (hostWrite s a bs).dramWb = s.dramWb ∧ (hostWrite s a bs).refreshed = s.refreshed ∧
    (hostWrite s a bs).scrubAt = s.scrubAt ∧ (hostWrite s a bs).lastAt = s.lastAt ∧
    (hostWrite s a bs).plotClock = s.plotClock ∧ (hostWrite s a bs).frame = s.frame ∧ (hostWrite s a bs).outAt = s.outAt ∧
    (hostWrite s a bs).inAt = s.inAt ∧ (hostWrite s a bs).stallAt = s.stallAt ∧ (hostWrite s a bs).packets = s.packets ∧
    (hostWrite s a bs).hopRR = s.hopRR ∧ (hostWrite s a bs).hedges = s.hedges ∧
    (hostWrite s a bs).transients = s.transients ∧ (hostWrite s a bs).change = s.change ∧
    (hostWrite s a bs).lodge = s.lodge ∧ (hostWrite s a bs).pins = s.pins ∧ (hostWrite s a bs).reply = s.reply ∧
    (hostWrite s a bs).aer = s.aer ∧ (hostWrite s a bs).console = s.console ∧ (hostWrite s a bs).belvArmed = s.belvArmed ∧
    (hostWrite s a bs).belvCount = s.belvCount ∧ (hostWrite s a bs).belvIssued = s.belvIssued :=
    ⟨rfl, rfl, rfl, rfl, rfl, rfl, rfl, rfl, rfl, rfl, rfl, rfl, rfl, rfl, rfl, rfl, rfl, rfl, rfl, rfl, rfl, rfl, rfl,
    rfl, rfl, rfl, rfl, rfl, rfl, rfl, rfl, rfl, rfl, rfl, rfl, rfl, rfl, rfl, rfl, rfl, rfl, rfl, rfl, rfl, rfl, rfl,
    rfl, rfl, rfl, rfl, rfl, rfl, rfl, rfl, rfl, rfl, rfl, rfl, rfl, rfl, rfl, rfl, rfl, rfl, rfl, rfl, rfl, rfl, rfl,
    rfl, rfl, rfl, rfl, rfl, rfl, rfl, rfl, rfl, rfl⟩

@[simp] theorem setMetaW_fields (s : State) (w : Nat) (m : WMeta) :
    (setMetaW s w m).part = s.part ∧ (setMetaW s w m).regs = s.regs ∧ (setMetaW s w m).free = s.free ∧
    (setMetaW s w m).pending = s.pending ∧ (setMetaW s w m).org = s.org ∧ (setMetaW s w m).dram = s.dram ∧
    (setMetaW s w m).host = s.host ∧ (setMetaW s w m).orgErr = s.orgErr ∧ (setMetaW s w m).orgWb = s.orgWb ∧
    (setMetaW s w m).cores = s.cores ∧ (setMetaW s w m).streams = s.streams ∧ (setMetaW s w m).wsets = s.wsets ∧
    (setMetaW s w m).nextW = s.nextW ∧ (setMetaW s w m).waiters = s.waiters ∧ (setMetaW s w m).arrivals = s.arrivals ∧
    (setMetaW s w m).fullAt = s.fullAt ∧ (setMetaW s w m).ops = s.ops ∧ (setMetaW s w m).nextOp = s.nextOp ∧
    (setMetaW s w m).bankq = s.bankq ∧ (setMetaW s w m).bankRR = s.bankRR ∧ (setMetaW s w m).bankAt = s.bankAt ∧
    (setMetaW s w m).bankClock = s.bankClock ∧ (setMetaW s w m).tokens = s.tokens ∧ (setMetaW s w m).nextTok = s.nextTok ∧
    (setMetaW s w m).creels = s.creels ∧ (setMetaW s w m).logQ = s.logQ ∧ (setMetaW s w m).pcie = s.pcie ∧
    (setMetaW s w m).msgs = s.msgs ∧ (setMetaW s w m).up = s.up ∧ (setMetaW s w m).uses = s.uses ∧
    (setMetaW s w m).tasks = s.tasks ∧ (setMetaW s w m).gens = s.gens ∧ (setMetaW s w m).lastId = s.lastId ∧
    (setMetaW s w m).accepted = s.accepted ∧ (setMetaW s w m).queues = s.queues ∧ (setMetaW s w m).bins = s.bins ∧
    (setMetaW s w m).slots = s.slots ∧ (setMetaW s w m).ages = s.ages ∧ (setMetaW s w m).planRemovals = s.planRemovals ∧
    (setMetaW s w m).ports = s.ports ∧ (setMetaW s w m).wickets = s.wickets ∧ (setMetaW s w m).lanterns = s.lanterns ∧
    (setMetaW s w m).wire = s.wire ∧ (setMetaW s w m).chans = s.chans ∧ (setMetaW s w m).faults = s.faults ∧
    (setMetaW s w m).fidGens = s.fidGens ∧ (setMetaW s w m).dmaTlb = s.dmaTlb ∧ (setMetaW s w m).slaTlb = s.slaTlb ∧
    (setMetaW s w m).inval = s.inval ∧ (setMetaW s w m).pri = s.pri ∧ (setMetaW s w m).priNext = s.priNext ∧
    (setMetaW s w m).priMax = s.priMax ∧ (setMetaW s w m).slaRuns = s.slaRuns ∧ (setMetaW s w m).slaRefused = s.slaRefused ∧
    (setMetaW s w m).units = s.units ∧ (setMetaW s w m).unitRR = s.unitRR ∧ (setMetaW s w m).dramErr = s.dramErr ∧
    (setMetaW s w m).dramWb = s.dramWb ∧ (setMetaW s w m).refreshed = s.refreshed ∧ (setMetaW s w m).scrubAt = s.scrubAt ∧
    (setMetaW s w m).lastAt = s.lastAt ∧ (setMetaW s w m).plotClock = s.plotClock ∧ (setMetaW s w m).frame = s.frame ∧
    (setMetaW s w m).outAt = s.outAt ∧ (setMetaW s w m).inAt = s.inAt ∧ (setMetaW s w m).stallAt = s.stallAt ∧
    (setMetaW s w m).packets = s.packets ∧ (setMetaW s w m).hopRR = s.hopRR ∧ (setMetaW s w m).hedges = s.hedges ∧
    (setMetaW s w m).transients = s.transients ∧ (setMetaW s w m).change = s.change ∧ (setMetaW s w m).lodge = s.lodge ∧
    (setMetaW s w m).pins = s.pins ∧ (setMetaW s w m).reply = s.reply ∧ (setMetaW s w m).aer = s.aer ∧
    (setMetaW s w m).console = s.console ∧ (setMetaW s w m).belvArmed = s.belvArmed ∧
    (setMetaW s w m).belvCount = s.belvCount ∧ (setMetaW s w m).belvIssued = s.belvIssued :=
    ⟨rfl, rfl, rfl, rfl, rfl, rfl, rfl, rfl, rfl, rfl, rfl, rfl, rfl, rfl, rfl, rfl, rfl, rfl, rfl, rfl, rfl, rfl, rfl,
    rfl, rfl, rfl, rfl, rfl, rfl, rfl, rfl, rfl, rfl, rfl, rfl, rfl, rfl, rfl, rfl, rfl, rfl, rfl, rfl, rfl, rfl, rfl,
    rfl, rfl, rfl, rfl, rfl, rfl, rfl, rfl, rfl, rfl, rfl, rfl, rfl, rfl, rfl, rfl, rfl, rfl, rfl, rfl, rfl, rfl, rfl,
    rfl, rfl, rfl, rfl, rfl, rfl, rfl, rfl, rfl, rfl⟩

@[simp] theorem setOp_fields (s : State) (i : Nat) (d : DynOp) :
    (setOp s i d).part = s.part ∧ (setOp s i d).regs = s.regs ∧ (setOp s i d).free = s.free ∧
    (setOp s i d).pending = s.pending ∧ (setOp s i d).org = s.org ∧ (setOp s i d).dram = s.dram ∧
    (setOp s i d).host = s.host ∧ (setOp s i d).wordMeta = s.wordMeta ∧ (setOp s i d).orgErr = s.orgErr ∧
    (setOp s i d).orgWb = s.orgWb ∧ (setOp s i d).cores = s.cores ∧ (setOp s i d).streams = s.streams ∧
    (setOp s i d).wsets = s.wsets ∧ (setOp s i d).nextW = s.nextW ∧ (setOp s i d).waiters = s.waiters ∧
    (setOp s i d).arrivals = s.arrivals ∧ (setOp s i d).fullAt = s.fullAt ∧ (setOp s i d).nextOp = s.nextOp ∧
    (setOp s i d).bankq = s.bankq ∧ (setOp s i d).bankRR = s.bankRR ∧ (setOp s i d).bankAt = s.bankAt ∧
    (setOp s i d).bankClock = s.bankClock ∧ (setOp s i d).tokens = s.tokens ∧ (setOp s i d).nextTok = s.nextTok ∧
    (setOp s i d).creels = s.creels ∧ (setOp s i d).logQ = s.logQ ∧ (setOp s i d).pcie = s.pcie ∧
    (setOp s i d).msgs = s.msgs ∧ (setOp s i d).up = s.up ∧ (setOp s i d).uses = s.uses ∧ (setOp s i d).tasks = s.tasks ∧
    (setOp s i d).gens = s.gens ∧ (setOp s i d).lastId = s.lastId ∧ (setOp s i d).accepted = s.accepted ∧
    (setOp s i d).queues = s.queues ∧ (setOp s i d).bins = s.bins ∧ (setOp s i d).slots = s.slots ∧
    (setOp s i d).ages = s.ages ∧ (setOp s i d).planRemovals = s.planRemovals ∧ (setOp s i d).ports = s.ports ∧
    (setOp s i d).wickets = s.wickets ∧ (setOp s i d).lanterns = s.lanterns ∧ (setOp s i d).wire = s.wire ∧
    (setOp s i d).chans = s.chans ∧ (setOp s i d).faults = s.faults ∧ (setOp s i d).fidGens = s.fidGens ∧
    (setOp s i d).dmaTlb = s.dmaTlb ∧ (setOp s i d).slaTlb = s.slaTlb ∧ (setOp s i d).inval = s.inval ∧
    (setOp s i d).pri = s.pri ∧ (setOp s i d).priNext = s.priNext ∧ (setOp s i d).priMax = s.priMax ∧
    (setOp s i d).slaRuns = s.slaRuns ∧ (setOp s i d).slaRefused = s.slaRefused ∧ (setOp s i d).units = s.units ∧
    (setOp s i d).unitRR = s.unitRR ∧ (setOp s i d).dramErr = s.dramErr ∧ (setOp s i d).dramWb = s.dramWb ∧
    (setOp s i d).refreshed = s.refreshed ∧ (setOp s i d).scrubAt = s.scrubAt ∧ (setOp s i d).lastAt = s.lastAt ∧
    (setOp s i d).plotClock = s.plotClock ∧ (setOp s i d).frame = s.frame ∧ (setOp s i d).outAt = s.outAt ∧
    (setOp s i d).inAt = s.inAt ∧ (setOp s i d).stallAt = s.stallAt ∧ (setOp s i d).packets = s.packets ∧
    (setOp s i d).hopRR = s.hopRR ∧ (setOp s i d).hedges = s.hedges ∧ (setOp s i d).transients = s.transients ∧
    (setOp s i d).change = s.change ∧ (setOp s i d).lodge = s.lodge ∧ (setOp s i d).pins = s.pins ∧
    (setOp s i d).reply = s.reply ∧ (setOp s i d).aer = s.aer ∧ (setOp s i d).console = s.console ∧
    (setOp s i d).belvArmed = s.belvArmed ∧ (setOp s i d).belvCount = s.belvCount ∧
    (setOp s i d).belvIssued = s.belvIssued :=
    ⟨rfl, rfl, rfl, rfl, rfl, rfl, rfl, rfl, rfl, rfl, rfl, rfl, rfl, rfl, rfl, rfl, rfl, rfl, rfl, rfl, rfl, rfl, rfl,
    rfl, rfl, rfl, rfl, rfl, rfl, rfl, rfl, rfl, rfl, rfl, rfl, rfl, rfl, rfl, rfl, rfl, rfl, rfl, rfl, rfl, rfl, rfl,
    rfl, rfl, rfl, rfl, rfl, rfl, rfl, rfl, rfl, rfl, rfl, rfl, rfl, rfl, rfl, rfl, rfl, rfl, rfl, rfl, rfl, rfl, rfl,
    rfl, rfl, rfl, rfl, rfl, rfl, rfl, rfl, rfl, rfl⟩

@[simp] theorem dropOp_fields (s : State) (i : Nat) :
    (dropOp s i).part = s.part ∧ (dropOp s i).regs = s.regs ∧ (dropOp s i).free = s.free ∧
    (dropOp s i).pending = s.pending ∧ (dropOp s i).org = s.org ∧ (dropOp s i).dram = s.dram ∧ (dropOp s i).host = s.host ∧
    (dropOp s i).wordMeta = s.wordMeta ∧ (dropOp s i).orgErr = s.orgErr ∧ (dropOp s i).orgWb = s.orgWb ∧
    (dropOp s i).cores = s.cores ∧ (dropOp s i).streams = s.streams ∧ (dropOp s i).wsets = s.wsets ∧
    (dropOp s i).nextW = s.nextW ∧ (dropOp s i).waiters = s.waiters ∧ (dropOp s i).arrivals = s.arrivals ∧
    (dropOp s i).fullAt = s.fullAt ∧ (dropOp s i).nextOp = s.nextOp ∧ (dropOp s i).bankq = s.bankq ∧
    (dropOp s i).bankRR = s.bankRR ∧ (dropOp s i).bankAt = s.bankAt ∧ (dropOp s i).bankClock = s.bankClock ∧
    (dropOp s i).tokens = s.tokens ∧ (dropOp s i).nextTok = s.nextTok ∧ (dropOp s i).creels = s.creels ∧
    (dropOp s i).logQ = s.logQ ∧ (dropOp s i).pcie = s.pcie ∧ (dropOp s i).msgs = s.msgs ∧ (dropOp s i).up = s.up ∧
    (dropOp s i).uses = s.uses ∧ (dropOp s i).tasks = s.tasks ∧ (dropOp s i).gens = s.gens ∧
    (dropOp s i).lastId = s.lastId ∧ (dropOp s i).accepted = s.accepted ∧ (dropOp s i).queues = s.queues ∧
    (dropOp s i).bins = s.bins ∧ (dropOp s i).slots = s.slots ∧ (dropOp s i).ages = s.ages ∧
    (dropOp s i).planRemovals = s.planRemovals ∧ (dropOp s i).ports = s.ports ∧ (dropOp s i).wickets = s.wickets ∧
    (dropOp s i).lanterns = s.lanterns ∧ (dropOp s i).wire = s.wire ∧ (dropOp s i).chans = s.chans ∧
    (dropOp s i).faults = s.faults ∧ (dropOp s i).fidGens = s.fidGens ∧ (dropOp s i).dmaTlb = s.dmaTlb ∧
    (dropOp s i).slaTlb = s.slaTlb ∧ (dropOp s i).inval = s.inval ∧ (dropOp s i).pri = s.pri ∧
    (dropOp s i).priNext = s.priNext ∧ (dropOp s i).priMax = s.priMax ∧ (dropOp s i).slaRuns = s.slaRuns ∧
    (dropOp s i).slaRefused = s.slaRefused ∧ (dropOp s i).units = s.units ∧ (dropOp s i).unitRR = s.unitRR ∧
    (dropOp s i).dramErr = s.dramErr ∧ (dropOp s i).dramWb = s.dramWb ∧ (dropOp s i).refreshed = s.refreshed ∧
    (dropOp s i).scrubAt = s.scrubAt ∧ (dropOp s i).lastAt = s.lastAt ∧ (dropOp s i).plotClock = s.plotClock ∧
    (dropOp s i).frame = s.frame ∧ (dropOp s i).outAt = s.outAt ∧ (dropOp s i).inAt = s.inAt ∧
    (dropOp s i).stallAt = s.stallAt ∧ (dropOp s i).packets = s.packets ∧ (dropOp s i).hopRR = s.hopRR ∧
    (dropOp s i).hedges = s.hedges ∧ (dropOp s i).transients = s.transients ∧ (dropOp s i).change = s.change ∧
    (dropOp s i).lodge = s.lodge ∧ (dropOp s i).pins = s.pins ∧ (dropOp s i).reply = s.reply ∧ (dropOp s i).aer = s.aer ∧
    (dropOp s i).console = s.console ∧ (dropOp s i).belvArmed = s.belvArmed ∧ (dropOp s i).belvCount = s.belvCount ∧
    (dropOp s i).belvIssued = s.belvIssued :=
    ⟨rfl, rfl, rfl, rfl, rfl, rfl, rfl, rfl, rfl, rfl, rfl, rfl, rfl, rfl, rfl, rfl, rfl, rfl, rfl, rfl, rfl, rfl, rfl,
    rfl, rfl, rfl, rfl, rfl, rfl, rfl, rfl, rfl, rfl, rfl, rfl, rfl, rfl, rfl, rfl, rfl, rfl, rfl, rfl, rfl, rfl, rfl,
    rfl, rfl, rfl, rfl, rfl, rfl, rfl, rfl, rfl, rfl, rfl, rfl, rfl, rfl, rfl, rfl, rfl, rfl, rfl, rfl, rfl, rfl, rfl,
    rfl, rfl, rfl, rfl, rfl, rfl, rfl, rfl, rfl, rfl⟩

@[simp] theorem setTask_fields (s : State) (i : Nat) (t : Option Task) :
    (setTask s i t).part = s.part ∧ (setTask s i t).regs = s.regs ∧ (setTask s i t).free = s.free ∧
    (setTask s i t).pending = s.pending ∧ (setTask s i t).org = s.org ∧ (setTask s i t).dram = s.dram ∧
    (setTask s i t).host = s.host ∧ (setTask s i t).wordMeta = s.wordMeta ∧ (setTask s i t).orgErr = s.orgErr ∧
    (setTask s i t).orgWb = s.orgWb ∧ (setTask s i t).cores = s.cores ∧ (setTask s i t).streams = s.streams ∧
    (setTask s i t).wsets = s.wsets ∧ (setTask s i t).nextW = s.nextW ∧ (setTask s i t).waiters = s.waiters ∧
    (setTask s i t).arrivals = s.arrivals ∧ (setTask s i t).fullAt = s.fullAt ∧ (setTask s i t).ops = s.ops ∧
    (setTask s i t).nextOp = s.nextOp ∧ (setTask s i t).bankq = s.bankq ∧ (setTask s i t).bankRR = s.bankRR ∧
    (setTask s i t).bankAt = s.bankAt ∧ (setTask s i t).bankClock = s.bankClock ∧ (setTask s i t).tokens = s.tokens ∧
    (setTask s i t).nextTok = s.nextTok ∧ (setTask s i t).creels = s.creels ∧ (setTask s i t).logQ = s.logQ ∧
    (setTask s i t).pcie = s.pcie ∧ (setTask s i t).msgs = s.msgs ∧ (setTask s i t).up = s.up ∧
    (setTask s i t).uses = s.uses ∧ (setTask s i t).gens = s.gens ∧ (setTask s i t).lastId = s.lastId ∧
    (setTask s i t).accepted = s.accepted ∧ (setTask s i t).queues = s.queues ∧ (setTask s i t).bins = s.bins ∧
    (setTask s i t).slots = s.slots ∧ (setTask s i t).ages = s.ages ∧ (setTask s i t).planRemovals = s.planRemovals ∧
    (setTask s i t).ports = s.ports ∧ (setTask s i t).wickets = s.wickets ∧ (setTask s i t).lanterns = s.lanterns ∧
    (setTask s i t).wire = s.wire ∧ (setTask s i t).chans = s.chans ∧ (setTask s i t).faults = s.faults ∧
    (setTask s i t).fidGens = s.fidGens ∧ (setTask s i t).dmaTlb = s.dmaTlb ∧ (setTask s i t).slaTlb = s.slaTlb ∧
    (setTask s i t).inval = s.inval ∧ (setTask s i t).pri = s.pri ∧ (setTask s i t).priNext = s.priNext ∧
    (setTask s i t).priMax = s.priMax ∧ (setTask s i t).slaRuns = s.slaRuns ∧ (setTask s i t).slaRefused = s.slaRefused ∧
    (setTask s i t).units = s.units ∧ (setTask s i t).unitRR = s.unitRR ∧ (setTask s i t).dramErr = s.dramErr ∧
    (setTask s i t).dramWb = s.dramWb ∧ (setTask s i t).refreshed = s.refreshed ∧ (setTask s i t).scrubAt = s.scrubAt ∧
    (setTask s i t).lastAt = s.lastAt ∧ (setTask s i t).plotClock = s.plotClock ∧ (setTask s i t).frame = s.frame ∧
    (setTask s i t).outAt = s.outAt ∧ (setTask s i t).inAt = s.inAt ∧ (setTask s i t).stallAt = s.stallAt ∧
    (setTask s i t).packets = s.packets ∧ (setTask s i t).hopRR = s.hopRR ∧ (setTask s i t).hedges = s.hedges ∧
    (setTask s i t).transients = s.transients ∧ (setTask s i t).change = s.change ∧ (setTask s i t).lodge = s.lodge ∧
    (setTask s i t).pins = s.pins ∧ (setTask s i t).reply = s.reply ∧ (setTask s i t).aer = s.aer ∧
    (setTask s i t).console = s.console ∧ (setTask s i t).belvArmed = s.belvArmed ∧
    (setTask s i t).belvCount = s.belvCount ∧ (setTask s i t).belvIssued = s.belvIssued :=
    ⟨rfl, rfl, rfl, rfl, rfl, rfl, rfl, rfl, rfl, rfl, rfl, rfl, rfl, rfl, rfl, rfl, rfl, rfl, rfl, rfl, rfl, rfl, rfl,
    rfl, rfl, rfl, rfl, rfl, rfl, rfl, rfl, rfl, rfl, rfl, rfl, rfl, rfl, rfl, rfl, rfl, rfl, rfl, rfl, rfl, rfl, rfl,
    rfl, rfl, rfl, rfl, rfl, rfl, rfl, rfl, rfl, rfl, rfl, rfl, rfl, rfl, rfl, rfl, rfl, rfl, rfl, rfl, rfl, rfl, rfl,
    rfl, rfl, rfl, rfl, rfl, rfl, rfl, rfl, rfl, rfl⟩

@[simp] theorem setQ_fields (s : State) (c q : Nat) (x : Queue) :
    (setQ s c q x).part = s.part ∧ (setQ s c q x).regs = s.regs ∧ (setQ s c q x).free = s.free ∧
    (setQ s c q x).pending = s.pending ∧ (setQ s c q x).org = s.org ∧ (setQ s c q x).dram = s.dram ∧
    (setQ s c q x).host = s.host ∧ (setQ s c q x).wordMeta = s.wordMeta ∧ (setQ s c q x).orgErr = s.orgErr ∧
    (setQ s c q x).orgWb = s.orgWb ∧ (setQ s c q x).cores = s.cores ∧ (setQ s c q x).streams = s.streams ∧
    (setQ s c q x).wsets = s.wsets ∧ (setQ s c q x).nextW = s.nextW ∧ (setQ s c q x).waiters = s.waiters ∧
    (setQ s c q x).arrivals = s.arrivals ∧ (setQ s c q x).fullAt = s.fullAt ∧ (setQ s c q x).ops = s.ops ∧
    (setQ s c q x).nextOp = s.nextOp ∧ (setQ s c q x).bankq = s.bankq ∧ (setQ s c q x).bankRR = s.bankRR ∧
    (setQ s c q x).bankAt = s.bankAt ∧ (setQ s c q x).bankClock = s.bankClock ∧ (setQ s c q x).tokens = s.tokens ∧
    (setQ s c q x).nextTok = s.nextTok ∧ (setQ s c q x).creels = s.creels ∧ (setQ s c q x).logQ = s.logQ ∧
    (setQ s c q x).pcie = s.pcie ∧ (setQ s c q x).msgs = s.msgs ∧ (setQ s c q x).up = s.up ∧ (setQ s c q x).uses = s.uses ∧
    (setQ s c q x).tasks = s.tasks ∧ (setQ s c q x).gens = s.gens ∧ (setQ s c q x).lastId = s.lastId ∧
    (setQ s c q x).accepted = s.accepted ∧ (setQ s c q x).bins = s.bins ∧ (setQ s c q x).slots = s.slots ∧
    (setQ s c q x).ages = s.ages ∧ (setQ s c q x).planRemovals = s.planRemovals ∧ (setQ s c q x).ports = s.ports ∧
    (setQ s c q x).wickets = s.wickets ∧ (setQ s c q x).lanterns = s.lanterns ∧ (setQ s c q x).wire = s.wire ∧
    (setQ s c q x).chans = s.chans ∧ (setQ s c q x).faults = s.faults ∧ (setQ s c q x).fidGens = s.fidGens ∧
    (setQ s c q x).dmaTlb = s.dmaTlb ∧ (setQ s c q x).slaTlb = s.slaTlb ∧ (setQ s c q x).inval = s.inval ∧
    (setQ s c q x).pri = s.pri ∧ (setQ s c q x).priNext = s.priNext ∧ (setQ s c q x).priMax = s.priMax ∧
    (setQ s c q x).slaRuns = s.slaRuns ∧ (setQ s c q x).slaRefused = s.slaRefused ∧ (setQ s c q x).units = s.units ∧
    (setQ s c q x).unitRR = s.unitRR ∧ (setQ s c q x).dramErr = s.dramErr ∧ (setQ s c q x).dramWb = s.dramWb ∧
    (setQ s c q x).refreshed = s.refreshed ∧ (setQ s c q x).scrubAt = s.scrubAt ∧ (setQ s c q x).lastAt = s.lastAt ∧
    (setQ s c q x).plotClock = s.plotClock ∧ (setQ s c q x).frame = s.frame ∧ (setQ s c q x).outAt = s.outAt ∧
    (setQ s c q x).inAt = s.inAt ∧ (setQ s c q x).stallAt = s.stallAt ∧ (setQ s c q x).packets = s.packets ∧
    (setQ s c q x).hopRR = s.hopRR ∧ (setQ s c q x).hedges = s.hedges ∧ (setQ s c q x).transients = s.transients ∧
    (setQ s c q x).change = s.change ∧ (setQ s c q x).lodge = s.lodge ∧ (setQ s c q x).pins = s.pins ∧
    (setQ s c q x).reply = s.reply ∧ (setQ s c q x).aer = s.aer ∧ (setQ s c q x).console = s.console ∧
    (setQ s c q x).belvArmed = s.belvArmed ∧ (setQ s c q x).belvCount = s.belvCount ∧
    (setQ s c q x).belvIssued = s.belvIssued :=
    ⟨rfl, rfl, rfl, rfl, rfl, rfl, rfl, rfl, rfl, rfl, rfl, rfl, rfl, rfl, rfl, rfl, rfl, rfl, rfl, rfl, rfl, rfl, rfl,
    rfl, rfl, rfl, rfl, rfl, rfl, rfl, rfl, rfl, rfl, rfl, rfl, rfl, rfl, rfl, rfl, rfl, rfl, rfl, rfl, rfl, rfl, rfl,
    rfl, rfl, rfl, rfl, rfl, rfl, rfl, rfl, rfl, rfl, rfl, rfl, rfl, rfl, rfl, rfl, rfl, rfl, rfl, rfl, rfl, rfl, rfl,
    rfl, rfl, rfl, rfl, rfl, rfl, rfl, rfl, rfl, rfl⟩

@[simp] theorem setBin_fields (s : State) (c i : Nat) (b : Bin) :
    (setBin s c i b).part = s.part ∧ (setBin s c i b).regs = s.regs ∧ (setBin s c i b).free = s.free ∧
    (setBin s c i b).pending = s.pending ∧ (setBin s c i b).org = s.org ∧ (setBin s c i b).dram = s.dram ∧
    (setBin s c i b).host = s.host ∧ (setBin s c i b).wordMeta = s.wordMeta ∧ (setBin s c i b).orgErr = s.orgErr ∧
    (setBin s c i b).orgWb = s.orgWb ∧ (setBin s c i b).cores = s.cores ∧ (setBin s c i b).streams = s.streams ∧
    (setBin s c i b).wsets = s.wsets ∧ (setBin s c i b).nextW = s.nextW ∧ (setBin s c i b).waiters = s.waiters ∧
    (setBin s c i b).arrivals = s.arrivals ∧ (setBin s c i b).fullAt = s.fullAt ∧ (setBin s c i b).ops = s.ops ∧
    (setBin s c i b).nextOp = s.nextOp ∧ (setBin s c i b).bankq = s.bankq ∧ (setBin s c i b).bankRR = s.bankRR ∧
    (setBin s c i b).bankAt = s.bankAt ∧ (setBin s c i b).bankClock = s.bankClock ∧ (setBin s c i b).tokens = s.tokens ∧
    (setBin s c i b).nextTok = s.nextTok ∧ (setBin s c i b).creels = s.creels ∧ (setBin s c i b).logQ = s.logQ ∧
    (setBin s c i b).pcie = s.pcie ∧ (setBin s c i b).msgs = s.msgs ∧ (setBin s c i b).up = s.up ∧
    (setBin s c i b).uses = s.uses ∧ (setBin s c i b).tasks = s.tasks ∧ (setBin s c i b).gens = s.gens ∧
    (setBin s c i b).lastId = s.lastId ∧ (setBin s c i b).accepted = s.accepted ∧ (setBin s c i b).queues = s.queues ∧
    (setBin s c i b).slots = s.slots ∧ (setBin s c i b).ages = s.ages ∧ (setBin s c i b).planRemovals = s.planRemovals ∧
    (setBin s c i b).ports = s.ports ∧ (setBin s c i b).wickets = s.wickets ∧ (setBin s c i b).lanterns = s.lanterns ∧
    (setBin s c i b).wire = s.wire ∧ (setBin s c i b).chans = s.chans ∧ (setBin s c i b).faults = s.faults ∧
    (setBin s c i b).fidGens = s.fidGens ∧ (setBin s c i b).dmaTlb = s.dmaTlb ∧ (setBin s c i b).slaTlb = s.slaTlb ∧
    (setBin s c i b).inval = s.inval ∧ (setBin s c i b).pri = s.pri ∧ (setBin s c i b).priNext = s.priNext ∧
    (setBin s c i b).priMax = s.priMax ∧ (setBin s c i b).slaRuns = s.slaRuns ∧ (setBin s c i b).slaRefused = s.slaRefused ∧
    (setBin s c i b).units = s.units ∧ (setBin s c i b).unitRR = s.unitRR ∧ (setBin s c i b).dramErr = s.dramErr ∧
    (setBin s c i b).dramWb = s.dramWb ∧ (setBin s c i b).refreshed = s.refreshed ∧ (setBin s c i b).scrubAt = s.scrubAt ∧
    (setBin s c i b).lastAt = s.lastAt ∧ (setBin s c i b).plotClock = s.plotClock ∧ (setBin s c i b).frame = s.frame ∧
    (setBin s c i b).outAt = s.outAt ∧ (setBin s c i b).inAt = s.inAt ∧ (setBin s c i b).stallAt = s.stallAt ∧
    (setBin s c i b).packets = s.packets ∧ (setBin s c i b).hopRR = s.hopRR ∧ (setBin s c i b).hedges = s.hedges ∧
    (setBin s c i b).transients = s.transients ∧ (setBin s c i b).change = s.change ∧ (setBin s c i b).lodge = s.lodge ∧
    (setBin s c i b).pins = s.pins ∧ (setBin s c i b).reply = s.reply ∧ (setBin s c i b).aer = s.aer ∧
    (setBin s c i b).console = s.console ∧ (setBin s c i b).belvArmed = s.belvArmed ∧
    (setBin s c i b).belvCount = s.belvCount ∧ (setBin s c i b).belvIssued = s.belvIssued :=
    ⟨rfl, rfl, rfl, rfl, rfl, rfl, rfl, rfl, rfl, rfl, rfl, rfl, rfl, rfl, rfl, rfl, rfl, rfl, rfl, rfl, rfl, rfl, rfl,
    rfl, rfl, rfl, rfl, rfl, rfl, rfl, rfl, rfl, rfl, rfl, rfl, rfl, rfl, rfl, rfl, rfl, rfl, rfl, rfl, rfl, rfl, rfl,
    rfl, rfl, rfl, rfl, rfl, rfl, rfl, rfl, rfl, rfl, rfl, rfl, rfl, rfl, rfl, rfl, rfl, rfl, rfl, rfl, rfl, rfl, rfl,
    rfl, rfl, rfl, rfl, rfl, rfl, rfl, rfl, rfl, rfl⟩

@[simp] theorem setPort_fields (s : State) (p : Nat) (x : Port) :
    (setPort s p x).part = s.part ∧ (setPort s p x).regs = s.regs ∧ (setPort s p x).free = s.free ∧
    (setPort s p x).pending = s.pending ∧ (setPort s p x).org = s.org ∧ (setPort s p x).dram = s.dram ∧
    (setPort s p x).host = s.host ∧ (setPort s p x).wordMeta = s.wordMeta ∧ (setPort s p x).orgErr = s.orgErr ∧
    (setPort s p x).orgWb = s.orgWb ∧ (setPort s p x).cores = s.cores ∧ (setPort s p x).streams = s.streams ∧
    (setPort s p x).wsets = s.wsets ∧ (setPort s p x).nextW = s.nextW ∧ (setPort s p x).waiters = s.waiters ∧
    (setPort s p x).arrivals = s.arrivals ∧ (setPort s p x).fullAt = s.fullAt ∧ (setPort s p x).ops = s.ops ∧
    (setPort s p x).nextOp = s.nextOp ∧ (setPort s p x).bankq = s.bankq ∧ (setPort s p x).bankRR = s.bankRR ∧
    (setPort s p x).bankAt = s.bankAt ∧ (setPort s p x).bankClock = s.bankClock ∧ (setPort s p x).tokens = s.tokens ∧
    (setPort s p x).nextTok = s.nextTok ∧ (setPort s p x).creels = s.creels ∧ (setPort s p x).logQ = s.logQ ∧
    (setPort s p x).pcie = s.pcie ∧ (setPort s p x).msgs = s.msgs ∧ (setPort s p x).up = s.up ∧
    (setPort s p x).uses = s.uses ∧ (setPort s p x).tasks = s.tasks ∧ (setPort s p x).gens = s.gens ∧
    (setPort s p x).lastId = s.lastId ∧ (setPort s p x).accepted = s.accepted ∧ (setPort s p x).queues = s.queues ∧
    (setPort s p x).bins = s.bins ∧ (setPort s p x).slots = s.slots ∧ (setPort s p x).ages = s.ages ∧
    (setPort s p x).planRemovals = s.planRemovals ∧ (setPort s p x).wickets = s.wickets ∧
    (setPort s p x).lanterns = s.lanterns ∧ (setPort s p x).wire = s.wire ∧ (setPort s p x).chans = s.chans ∧
    (setPort s p x).faults = s.faults ∧ (setPort s p x).fidGens = s.fidGens ∧ (setPort s p x).dmaTlb = s.dmaTlb ∧
    (setPort s p x).slaTlb = s.slaTlb ∧ (setPort s p x).inval = s.inval ∧ (setPort s p x).pri = s.pri ∧
    (setPort s p x).priNext = s.priNext ∧ (setPort s p x).priMax = s.priMax ∧ (setPort s p x).slaRuns = s.slaRuns ∧
    (setPort s p x).slaRefused = s.slaRefused ∧ (setPort s p x).units = s.units ∧ (setPort s p x).unitRR = s.unitRR ∧
    (setPort s p x).dramErr = s.dramErr ∧ (setPort s p x).dramWb = s.dramWb ∧ (setPort s p x).refreshed = s.refreshed ∧
    (setPort s p x).scrubAt = s.scrubAt ∧ (setPort s p x).lastAt = s.lastAt ∧ (setPort s p x).plotClock = s.plotClock ∧
    (setPort s p x).frame = s.frame ∧ (setPort s p x).outAt = s.outAt ∧ (setPort s p x).inAt = s.inAt ∧
    (setPort s p x).stallAt = s.stallAt ∧ (setPort s p x).packets = s.packets ∧ (setPort s p x).hopRR = s.hopRR ∧
    (setPort s p x).hedges = s.hedges ∧ (setPort s p x).transients = s.transients ∧ (setPort s p x).change = s.change ∧
    (setPort s p x).lodge = s.lodge ∧ (setPort s p x).pins = s.pins ∧ (setPort s p x).reply = s.reply ∧
    (setPort s p x).aer = s.aer ∧ (setPort s p x).console = s.console ∧ (setPort s p x).belvArmed = s.belvArmed ∧
    (setPort s p x).belvCount = s.belvCount ∧ (setPort s p x).belvIssued = s.belvIssued :=
    ⟨rfl, rfl, rfl, rfl, rfl, rfl, rfl, rfl, rfl, rfl, rfl, rfl, rfl, rfl, rfl, rfl, rfl, rfl, rfl, rfl, rfl, rfl, rfl,
    rfl, rfl, rfl, rfl, rfl, rfl, rfl, rfl, rfl, rfl, rfl, rfl, rfl, rfl, rfl, rfl, rfl, rfl, rfl, rfl, rfl, rfl, rfl,
    rfl, rfl, rfl, rfl, rfl, rfl, rfl, rfl, rfl, rfl, rfl, rfl, rfl, rfl, rfl, rfl, rfl, rfl, rfl, rfl, rfl, rfl, rfl,
    rfl, rfl, rfl, rfl, rfl, rfl, rfl, rfl, rfl, rfl⟩

@[simp] theorem setWk_fields (s : State) (w : Nat) (x : Wicket) :
    (setWk s w x).part = s.part ∧ (setWk s w x).regs = s.regs ∧ (setWk s w x).free = s.free ∧
    (setWk s w x).pending = s.pending ∧ (setWk s w x).org = s.org ∧ (setWk s w x).dram = s.dram ∧
    (setWk s w x).host = s.host ∧ (setWk s w x).wordMeta = s.wordMeta ∧ (setWk s w x).orgErr = s.orgErr ∧
    (setWk s w x).orgWb = s.orgWb ∧ (setWk s w x).cores = s.cores ∧ (setWk s w x).streams = s.streams ∧
    (setWk s w x).wsets = s.wsets ∧ (setWk s w x).nextW = s.nextW ∧ (setWk s w x).waiters = s.waiters ∧
    (setWk s w x).arrivals = s.arrivals ∧ (setWk s w x).fullAt = s.fullAt ∧ (setWk s w x).ops = s.ops ∧
    (setWk s w x).nextOp = s.nextOp ∧ (setWk s w x).bankq = s.bankq ∧ (setWk s w x).bankRR = s.bankRR ∧
    (setWk s w x).bankAt = s.bankAt ∧ (setWk s w x).bankClock = s.bankClock ∧ (setWk s w x).tokens = s.tokens ∧
    (setWk s w x).nextTok = s.nextTok ∧ (setWk s w x).creels = s.creels ∧ (setWk s w x).logQ = s.logQ ∧
    (setWk s w x).pcie = s.pcie ∧ (setWk s w x).msgs = s.msgs ∧ (setWk s w x).up = s.up ∧ (setWk s w x).uses = s.uses ∧
    (setWk s w x).tasks = s.tasks ∧ (setWk s w x).gens = s.gens ∧ (setWk s w x).lastId = s.lastId ∧
    (setWk s w x).accepted = s.accepted ∧ (setWk s w x).queues = s.queues ∧ (setWk s w x).bins = s.bins ∧
    (setWk s w x).slots = s.slots ∧ (setWk s w x).ages = s.ages ∧ (setWk s w x).planRemovals = s.planRemovals ∧
    (setWk s w x).ports = s.ports ∧ (setWk s w x).lanterns = s.lanterns ∧ (setWk s w x).wire = s.wire ∧
    (setWk s w x).chans = s.chans ∧ (setWk s w x).faults = s.faults ∧ (setWk s w x).fidGens = s.fidGens ∧
    (setWk s w x).dmaTlb = s.dmaTlb ∧ (setWk s w x).slaTlb = s.slaTlb ∧ (setWk s w x).inval = s.inval ∧
    (setWk s w x).pri = s.pri ∧ (setWk s w x).priNext = s.priNext ∧ (setWk s w x).priMax = s.priMax ∧
    (setWk s w x).slaRuns = s.slaRuns ∧ (setWk s w x).slaRefused = s.slaRefused ∧ (setWk s w x).units = s.units ∧
    (setWk s w x).unitRR = s.unitRR ∧ (setWk s w x).dramErr = s.dramErr ∧ (setWk s w x).dramWb = s.dramWb ∧
    (setWk s w x).refreshed = s.refreshed ∧ (setWk s w x).scrubAt = s.scrubAt ∧ (setWk s w x).lastAt = s.lastAt ∧
    (setWk s w x).plotClock = s.plotClock ∧ (setWk s w x).frame = s.frame ∧ (setWk s w x).outAt = s.outAt ∧
    (setWk s w x).inAt = s.inAt ∧ (setWk s w x).stallAt = s.stallAt ∧ (setWk s w x).packets = s.packets ∧
    (setWk s w x).hopRR = s.hopRR ∧ (setWk s w x).hedges = s.hedges ∧ (setWk s w x).transients = s.transients ∧
    (setWk s w x).change = s.change ∧ (setWk s w x).lodge = s.lodge ∧ (setWk s w x).pins = s.pins ∧
    (setWk s w x).reply = s.reply ∧ (setWk s w x).aer = s.aer ∧ (setWk s w x).console = s.console ∧
    (setWk s w x).belvArmed = s.belvArmed ∧ (setWk s w x).belvCount = s.belvCount ∧
    (setWk s w x).belvIssued = s.belvIssued :=
    ⟨rfl, rfl, rfl, rfl, rfl, rfl, rfl, rfl, rfl, rfl, rfl, rfl, rfl, rfl, rfl, rfl, rfl, rfl, rfl, rfl, rfl, rfl, rfl,
    rfl, rfl, rfl, rfl, rfl, rfl, rfl, rfl, rfl, rfl, rfl, rfl, rfl, rfl, rfl, rfl, rfl, rfl, rfl, rfl, rfl, rfl, rfl,
    rfl, rfl, rfl, rfl, rfl, rfl, rfl, rfl, rfl, rfl, rfl, rfl, rfl, rfl, rfl, rfl, rfl, rfl, rfl, rfl, rfl, rfl, rfl,
    rfl, rfl, rfl, rfl, rfl, rfl, rfl, rfl, rfl, rfl⟩

@[simp] theorem setChan_fields (s : State) (ch : Nat) (x : Chan) :
    (setChan s ch x).part = s.part ∧ (setChan s ch x).regs = s.regs ∧ (setChan s ch x).free = s.free ∧
    (setChan s ch x).pending = s.pending ∧ (setChan s ch x).org = s.org ∧ (setChan s ch x).dram = s.dram ∧
    (setChan s ch x).host = s.host ∧ (setChan s ch x).wordMeta = s.wordMeta ∧ (setChan s ch x).orgErr = s.orgErr ∧
    (setChan s ch x).orgWb = s.orgWb ∧ (setChan s ch x).cores = s.cores ∧ (setChan s ch x).streams = s.streams ∧
    (setChan s ch x).wsets = s.wsets ∧ (setChan s ch x).nextW = s.nextW ∧ (setChan s ch x).waiters = s.waiters ∧
    (setChan s ch x).arrivals = s.arrivals ∧ (setChan s ch x).fullAt = s.fullAt ∧ (setChan s ch x).ops = s.ops ∧
    (setChan s ch x).nextOp = s.nextOp ∧ (setChan s ch x).bankq = s.bankq ∧ (setChan s ch x).bankRR = s.bankRR ∧
    (setChan s ch x).bankAt = s.bankAt ∧ (setChan s ch x).bankClock = s.bankClock ∧ (setChan s ch x).tokens = s.tokens ∧
    (setChan s ch x).nextTok = s.nextTok ∧ (setChan s ch x).creels = s.creels ∧ (setChan s ch x).logQ = s.logQ ∧
    (setChan s ch x).pcie = s.pcie ∧ (setChan s ch x).msgs = s.msgs ∧ (setChan s ch x).up = s.up ∧
    (setChan s ch x).uses = s.uses ∧ (setChan s ch x).tasks = s.tasks ∧ (setChan s ch x).gens = s.gens ∧
    (setChan s ch x).lastId = s.lastId ∧ (setChan s ch x).accepted = s.accepted ∧ (setChan s ch x).queues = s.queues ∧
    (setChan s ch x).bins = s.bins ∧ (setChan s ch x).slots = s.slots ∧ (setChan s ch x).ages = s.ages ∧
    (setChan s ch x).planRemovals = s.planRemovals ∧ (setChan s ch x).ports = s.ports ∧
    (setChan s ch x).wickets = s.wickets ∧ (setChan s ch x).lanterns = s.lanterns ∧ (setChan s ch x).wire = s.wire ∧
    (setChan s ch x).faults = s.faults ∧ (setChan s ch x).fidGens = s.fidGens ∧ (setChan s ch x).dmaTlb = s.dmaTlb ∧
    (setChan s ch x).slaTlb = s.slaTlb ∧ (setChan s ch x).inval = s.inval ∧ (setChan s ch x).pri = s.pri ∧
    (setChan s ch x).priNext = s.priNext ∧ (setChan s ch x).priMax = s.priMax ∧ (setChan s ch x).slaRuns = s.slaRuns ∧
    (setChan s ch x).slaRefused = s.slaRefused ∧ (setChan s ch x).units = s.units ∧ (setChan s ch x).unitRR = s.unitRR ∧
    (setChan s ch x).dramErr = s.dramErr ∧ (setChan s ch x).dramWb = s.dramWb ∧ (setChan s ch x).refreshed = s.refreshed ∧
    (setChan s ch x).scrubAt = s.scrubAt ∧ (setChan s ch x).lastAt = s.lastAt ∧ (setChan s ch x).plotClock = s.plotClock ∧
    (setChan s ch x).frame = s.frame ∧ (setChan s ch x).outAt = s.outAt ∧ (setChan s ch x).inAt = s.inAt ∧
    (setChan s ch x).stallAt = s.stallAt ∧ (setChan s ch x).packets = s.packets ∧ (setChan s ch x).hopRR = s.hopRR ∧
    (setChan s ch x).hedges = s.hedges ∧ (setChan s ch x).transients = s.transients ∧ (setChan s ch x).change = s.change ∧
    (setChan s ch x).lodge = s.lodge ∧ (setChan s ch x).pins = s.pins ∧ (setChan s ch x).reply = s.reply ∧
    (setChan s ch x).aer = s.aer ∧ (setChan s ch x).console = s.console ∧ (setChan s ch x).belvArmed = s.belvArmed ∧
    (setChan s ch x).belvCount = s.belvCount ∧ (setChan s ch x).belvIssued = s.belvIssued :=
    ⟨rfl, rfl, rfl, rfl, rfl, rfl, rfl, rfl, rfl, rfl, rfl, rfl, rfl, rfl, rfl, rfl, rfl, rfl, rfl, rfl, rfl, rfl, rfl,
    rfl, rfl, rfl, rfl, rfl, rfl, rfl, rfl, rfl, rfl, rfl, rfl, rfl, rfl, rfl, rfl, rfl, rfl, rfl, rfl, rfl, rfl, rfl,
    rfl, rfl, rfl, rfl, rfl, rfl, rfl, rfl, rfl, rfl, rfl, rfl, rfl, rfl, rfl, rfl, rfl, rfl, rfl, rfl, rfl, rfl, rfl,
    rfl, rfl, rfl, rfl, rfl, rfl, rfl, rfl, rfl, rfl⟩

@[simp] theorem setLan_fields (s : State) (p : Nat) (x : Lantern) :
    (setLan s p x).part = s.part ∧ (setLan s p x).regs = s.regs ∧ (setLan s p x).free = s.free ∧
    (setLan s p x).pending = s.pending ∧ (setLan s p x).org = s.org ∧ (setLan s p x).dram = s.dram ∧
    (setLan s p x).host = s.host ∧ (setLan s p x).wordMeta = s.wordMeta ∧ (setLan s p x).orgErr = s.orgErr ∧
    (setLan s p x).orgWb = s.orgWb ∧ (setLan s p x).cores = s.cores ∧ (setLan s p x).streams = s.streams ∧
    (setLan s p x).wsets = s.wsets ∧ (setLan s p x).nextW = s.nextW ∧ (setLan s p x).waiters = s.waiters ∧
    (setLan s p x).arrivals = s.arrivals ∧ (setLan s p x).fullAt = s.fullAt ∧ (setLan s p x).ops = s.ops ∧
    (setLan s p x).nextOp = s.nextOp ∧ (setLan s p x).bankq = s.bankq ∧ (setLan s p x).bankRR = s.bankRR ∧
    (setLan s p x).bankAt = s.bankAt ∧ (setLan s p x).bankClock = s.bankClock ∧ (setLan s p x).tokens = s.tokens ∧
    (setLan s p x).nextTok = s.nextTok ∧ (setLan s p x).creels = s.creels ∧ (setLan s p x).logQ = s.logQ ∧
    (setLan s p x).pcie = s.pcie ∧ (setLan s p x).msgs = s.msgs ∧ (setLan s p x).up = s.up ∧ (setLan s p x).uses = s.uses ∧
    (setLan s p x).tasks = s.tasks ∧ (setLan s p x).gens = s.gens ∧ (setLan s p x).lastId = s.lastId ∧
    (setLan s p x).accepted = s.accepted ∧ (setLan s p x).queues = s.queues ∧ (setLan s p x).bins = s.bins ∧
    (setLan s p x).slots = s.slots ∧ (setLan s p x).ages = s.ages ∧ (setLan s p x).planRemovals = s.planRemovals ∧
    (setLan s p x).ports = s.ports ∧ (setLan s p x).wickets = s.wickets ∧ (setLan s p x).wire = s.wire ∧
    (setLan s p x).chans = s.chans ∧ (setLan s p x).faults = s.faults ∧ (setLan s p x).fidGens = s.fidGens ∧
    (setLan s p x).dmaTlb = s.dmaTlb ∧ (setLan s p x).slaTlb = s.slaTlb ∧ (setLan s p x).inval = s.inval ∧
    (setLan s p x).pri = s.pri ∧ (setLan s p x).priNext = s.priNext ∧ (setLan s p x).priMax = s.priMax ∧
    (setLan s p x).slaRuns = s.slaRuns ∧ (setLan s p x).slaRefused = s.slaRefused ∧ (setLan s p x).units = s.units ∧
    (setLan s p x).unitRR = s.unitRR ∧ (setLan s p x).dramErr = s.dramErr ∧ (setLan s p x).dramWb = s.dramWb ∧
    (setLan s p x).refreshed = s.refreshed ∧ (setLan s p x).scrubAt = s.scrubAt ∧ (setLan s p x).lastAt = s.lastAt ∧
    (setLan s p x).plotClock = s.plotClock ∧ (setLan s p x).frame = s.frame ∧ (setLan s p x).outAt = s.outAt ∧
    (setLan s p x).inAt = s.inAt ∧ (setLan s p x).stallAt = s.stallAt ∧ (setLan s p x).packets = s.packets ∧
    (setLan s p x).hopRR = s.hopRR ∧ (setLan s p x).hedges = s.hedges ∧ (setLan s p x).transients = s.transients ∧
    (setLan s p x).change = s.change ∧ (setLan s p x).lodge = s.lodge ∧ (setLan s p x).pins = s.pins ∧
    (setLan s p x).reply = s.reply ∧ (setLan s p x).aer = s.aer ∧ (setLan s p x).console = s.console ∧
    (setLan s p x).belvArmed = s.belvArmed ∧ (setLan s p x).belvCount = s.belvCount ∧
    (setLan s p x).belvIssued = s.belvIssued :=
    ⟨rfl, rfl, rfl, rfl, rfl, rfl, rfl, rfl, rfl, rfl, rfl, rfl, rfl, rfl, rfl, rfl, rfl, rfl, rfl, rfl, rfl, rfl, rfl,
    rfl, rfl, rfl, rfl, rfl, rfl, rfl, rfl, rfl, rfl, rfl, rfl, rfl, rfl, rfl, rfl, rfl, rfl, rfl, rfl, rfl, rfl, rfl,
    rfl, rfl, rfl, rfl, rfl, rfl, rfl, rfl, rfl, rfl, rfl, rfl, rfl, rfl, rfl, rfl, rfl, rfl, rfl, rfl, rfl, rfl, rfl,
    rfl, rfl, rfl, rfl, rfl, rfl, rfl, rfl, rfl, rfl⟩

@[simp] theorem noteAt_fields (s : State) (ev : Nat) :
    (noteAt s ev).part = s.part ∧ (noteAt s ev).regs = s.regs ∧ (noteAt s ev).free = s.free ∧
    (noteAt s ev).pending = s.pending ∧ (noteAt s ev).org = s.org ∧ (noteAt s ev).dram = s.dram ∧
    (noteAt s ev).host = s.host ∧ (noteAt s ev).wordMeta = s.wordMeta ∧ (noteAt s ev).orgErr = s.orgErr ∧
    (noteAt s ev).orgWb = s.orgWb ∧ (noteAt s ev).cores = s.cores ∧ (noteAt s ev).streams = s.streams ∧
    (noteAt s ev).wsets = s.wsets ∧ (noteAt s ev).nextW = s.nextW ∧ (noteAt s ev).waiters = s.waiters ∧
    (noteAt s ev).arrivals = s.arrivals ∧ (noteAt s ev).fullAt = s.fullAt ∧ (noteAt s ev).ops = s.ops ∧
    (noteAt s ev).nextOp = s.nextOp ∧ (noteAt s ev).bankq = s.bankq ∧ (noteAt s ev).bankRR = s.bankRR ∧
    (noteAt s ev).bankAt = s.bankAt ∧ (noteAt s ev).bankClock = s.bankClock ∧ (noteAt s ev).tokens = s.tokens ∧
    (noteAt s ev).nextTok = s.nextTok ∧ (noteAt s ev).creels = s.creels ∧ (noteAt s ev).logQ = s.logQ ∧
    (noteAt s ev).pcie = s.pcie ∧ (noteAt s ev).msgs = s.msgs ∧ (noteAt s ev).up = s.up ∧ (noteAt s ev).uses = s.uses ∧
    (noteAt s ev).tasks = s.tasks ∧ (noteAt s ev).gens = s.gens ∧ (noteAt s ev).lastId = s.lastId ∧
    (noteAt s ev).accepted = s.accepted ∧ (noteAt s ev).queues = s.queues ∧ (noteAt s ev).bins = s.bins ∧
    (noteAt s ev).slots = s.slots ∧ (noteAt s ev).ages = s.ages ∧ (noteAt s ev).planRemovals = s.planRemovals ∧
    (noteAt s ev).ports = s.ports ∧ (noteAt s ev).wickets = s.wickets ∧ (noteAt s ev).lanterns = s.lanterns ∧
    (noteAt s ev).wire = s.wire ∧ (noteAt s ev).chans = s.chans ∧ (noteAt s ev).faults = s.faults ∧
    (noteAt s ev).fidGens = s.fidGens ∧ (noteAt s ev).dmaTlb = s.dmaTlb ∧ (noteAt s ev).slaTlb = s.slaTlb ∧
    (noteAt s ev).inval = s.inval ∧ (noteAt s ev).pri = s.pri ∧ (noteAt s ev).priNext = s.priNext ∧
    (noteAt s ev).priMax = s.priMax ∧ (noteAt s ev).slaRuns = s.slaRuns ∧ (noteAt s ev).slaRefused = s.slaRefused ∧
    (noteAt s ev).units = s.units ∧ (noteAt s ev).unitRR = s.unitRR ∧ (noteAt s ev).dramErr = s.dramErr ∧
    (noteAt s ev).dramWb = s.dramWb ∧ (noteAt s ev).refreshed = s.refreshed ∧ (noteAt s ev).scrubAt = s.scrubAt ∧
    (noteAt s ev).plotClock = s.plotClock ∧ (noteAt s ev).frame = s.frame ∧ (noteAt s ev).outAt = s.outAt ∧
    (noteAt s ev).inAt = s.inAt ∧ (noteAt s ev).stallAt = s.stallAt ∧ (noteAt s ev).packets = s.packets ∧
    (noteAt s ev).hopRR = s.hopRR ∧ (noteAt s ev).hedges = s.hedges ∧ (noteAt s ev).transients = s.transients ∧
    (noteAt s ev).change = s.change ∧ (noteAt s ev).lodge = s.lodge ∧ (noteAt s ev).pins = s.pins ∧
    (noteAt s ev).reply = s.reply ∧ (noteAt s ev).aer = s.aer ∧ (noteAt s ev).console = s.console ∧
    (noteAt s ev).belvArmed = s.belvArmed ∧ (noteAt s ev).belvCount = s.belvCount ∧
    (noteAt s ev).belvIssued = s.belvIssued :=
    ⟨rfl, rfl, rfl, rfl, rfl, rfl, rfl, rfl, rfl, rfl, rfl, rfl, rfl, rfl, rfl, rfl, rfl, rfl, rfl, rfl, rfl, rfl, rfl,
    rfl, rfl, rfl, rfl, rfl, rfl, rfl, rfl, rfl, rfl, rfl, rfl, rfl, rfl, rfl, rfl, rfl, rfl, rfl, rfl, rfl, rfl, rfl,
    rfl, rfl, rfl, rfl, rfl, rfl, rfl, rfl, rfl, rfl, rfl, rfl, rfl, rfl, rfl, rfl, rfl, rfl, rfl, rfl, rfl, rfl, rfl,
    rfl, rfl, rfl, rfl, rfl, rfl, rfl, rfl, rfl, rfl⟩

end Sys2Proof.Machine
end

