-- ==== Sys2Proof/Laws/Ops.lean ====
section
/-! SUPPORT. Reading after writing, for registers, numbered units and memories: what the shared operations write is what is read
back, and everything else reads as before. -/

namespace Sys2Proof.Machine

open Sys2Proof

/-! ### Registers -/

theorem regGet_regPut (s : State) (a b : Nat) (v : W64) : regGet (regPut s a v) b = if a = b then v else regGet s b :=
  amGet_amSet regDefault s.regs a b v

@[simp] theorem regGet_regPut_self (s : State) (a : Nat) (v : W64) : regGet (regPut s a v) a = v := by simp [regGet_regPut]

theorem regGet_regPut_other (s : State) (a b : Nat) (v : W64) (h : a ≠ b) : regGet (regPut s a v) b = regGet s b := by
  simp [regGet_regPut, h]

/-- Setting a field changes its own register alone. -/
theorem regGet_setF_other (s : State) (f : Fld) (v b : Nat) (h : f.reg ≠ b) : regGet (setF s f v) b = regGet s b :=
  regGet_regPut_other s f.reg b _ h

theorem getF_setF_other (s : State) (f g : Fld) (v : Nat) (h : f.reg ≠ g.reg) : getF (setF s f v) g = getF s g := by
  unfold getF
  rw [regGet_setF_other s f v g.reg h]

/-! ### Numbered units -/

@[simp] theorem getCore_setCore_self (s : State) (m : Nat) (c : Core) : getCore (setCore s m c) m = c :=
  amGet_amSet_self _ s.cores m c

theorem getCore_setCore_other (s : State) (m n : Nat) (c : Core) (h : m ≠ n) : getCore (setCore s m c) n = getCore s n :=
  amGet_amSet_other _ s.cores m n c h

@[simp] theorem getStr_setStr_self (s : State) (k : Nat) (t : Stream) : getStr (setStr s k t) k = t :=
  amGet_amSet_self _ s.streams k t

theorem getStr_setStr_other (s : State) (k n : Nat) (t : Stream) (h : k ≠ n) : getStr (setStr s k t) n = getStr s n :=
  amGet_amSet_other _ s.streams k n t h

@[simp] theorem getCreel_setCreel_self (s : State) (c : Nat) (x : Creel) : getCreel (setCreel s c x) c = x :=
  amGet_amSet_self _ s.creels c x

theorem getCreel_setCreel_other (s : State) (c n : Nat) (x : Creel) (h : c ≠ n) : getCreel (setCreel s c x) n = getCreel s n :=
  amGet_amSet_other _ s.creels c n x h

@[simp] theorem getTask_setTask_self (s : State) (i : Nat) (t : Option Task) : getTask (setTask s i t) i = t :=
  amGet_amSet_self _ s.tasks i t

theorem getTask_setTask_other (s : State) (i n : Nat) (t : Option Task) (h : i ≠ n) : getTask (setTask s i t) n = getTask s n :=
  amGet_amSet_other _ s.tasks i n t h

@[simp] theorem getPort_setPort_self (s : State) (p : Nat) (x : Port) : getPort (setPort s p x) p = x :=
  amGet_amSet_self _ s.ports p x

theorem getPort_setPort_other (s : State) (p n : Nat) (x : Port) (h : p ≠ n) : getPort (setPort s p x) n = getPort s n :=
  amGet_amSet_other _ s.ports p n x h

@[simp] theorem getWk_setWk_self (s : State) (w : Nat) (x : Wicket) : getWk (setWk s w x) w = x :=
  amGet_amSet_self _ s.wickets w x

theorem getWk_setWk_other (s : State) (w n : Nat) (x : Wicket) (h : w ≠ n) : getWk (setWk s w x) n = getWk s n :=
  amGet_amSet_other _ s.wickets w n x h

@[simp] theorem getChan_setChan_self (s : State) (ch : Nat) (x : Chan) : getChan (setChan s ch x) ch = x :=
  amGet_amSet_self _ s.chans ch x

theorem getChan_setChan_other (s : State) (ch n : Nat) (x : Chan) (h : ch ≠ n) : getChan (setChan s ch x) n = getChan s n :=
  amGet_amSet_other _ s.chans ch n x h

@[simp] theorem getLan_setLan_self (s : State) (p : Nat) (x : Lantern) : getLan (setLan s p x) p = x :=
  amGet_amSet_self _ s.lanterns p x

theorem getLan_setLan_other (s : State) (p n : Nat) (x : Lantern) (h : p ≠ n) : getLan (setLan s p x) n = getLan s n :=
  amGet_amSet_other _ s.lanterns p n x h

/-! ### Memories -/

/-- A byte after a write of consecutive bytes: the written one inside the range, as before outside it. -/
theorem amGet_putBytes (m : List Host.Cell) (a : Nat) (bs : List Byte) (x : Nat) :
    amGet freshByte (putBytes m a bs) x =
      if a ≤ x ∧ x < a + bs.length then bs.getD (x - a) (0#8) else amGet freshByte m x := by
  induction bs generalizing m a with
  | nil =>
    have : ¬(a ≤ x ∧ x < a + ([] : List Byte).length) := by simp only [List.length_nil]; omega
    rw [if_neg this]
    rfl
  | cons b bs ih =>
    rw [putBytes, ih, amGet_amSet]
    by_cases h1 : a = x
    · subst h1
      have h2 : ¬(a + 1 ≤ a ∧ a < a + 1 + bs.length) := by omega
      have h3 : a ≤ a ∧ a < a + (b :: bs).length := by simp
      rw [if_neg h2, if_pos h3]
      simp
    · by_cases h2 : a + 1 ≤ x ∧ x < a + 1 + bs.length
      · have h3 : a ≤ x ∧ x < a + (b :: bs).length := by simp; omega
        have h4 : x - a = (x - (a + 1)) + 1 := by omega
        rw [if_pos h2, if_pos h3, h4]
        simp
      · have h3 : ¬(a ≤ x ∧ x < a + (b :: bs).length) := by simp; omega
        rw [if_neg h2, if_neg h3, if_neg h1]

theorem orgByte_orgWrite (s : State) (a : Nat) (bs : List Byte) (x : Nat) :
    orgByte (orgWrite s a bs) x = if a ≤ x ∧ x < a + bs.length then bs.getD (x - a) (0#8) else orgByte s x :=
  amGet_putBytes s.org a bs x

theorem dramByte_dramWrite (s : State) (a : Nat) (bs : List Byte) (x : Nat) :
    dramByte (dramWrite s a bs) x = if a ≤ x ∧ x < a + bs.length then bs.getD (x - a) (0#8) else dramByte s x :=
  amGet_putBytes s.dram a bs x

theorem hostByte_hostWrite (s : State) (a : Nat) (bs : List Byte) (x : Nat) :
    hostByte (hostWrite s a bs) x = if a ≤ x ∧ x < a + bs.length then bs.getD (x - a) (0#8) else hostByte s x :=
  amGet_putBytes s.host a bs x

@[simp] theorem metaOf_setMetaW_self (s : State) (w : Nat) (m : WMeta) : metaOf (setMetaW s w m) w = m :=
  amGet_amSet_self _ s.wordMeta w m

theorem metaOf_setMetaW_other (s : State) (w x : Nat) (m : WMeta) (h : w ≠ x) : metaOf (setMetaW s w m) x = metaOf s x :=
  amGet_amSet_other _ s.wordMeta w x m h

/-! ### Answers -/

theorem whenOn_next (s t : State) : whenOn s t = .next (if working s then t else s) := rfl
theorem whenUp_next (s t : State) : whenUp s t = .next (if on s then t else s) := rfl
theorem whenServed_next (s t : State) : whenServed s t = .next (if served s then t else s) := rfl

theorem whenOn_of (s t : State) (h : working s = true) : whenOn s t = .next t := by rw [whenOn_next, if_pos h]
theorem whenUp_of (s t : State) (h : on s = true) : whenUp s t = .next t := by rw [whenUp_next, if_pos h]
theorem whenServed_of (s t : State) (h : served s = true) : whenServed s t = .next t := by rw [whenServed_next, if_pos h]

/-! ### Events that come back after an interval -/

theorem noteAt_tick (s : State) (ev : Nat) : tick (noteAt s ev) = tick s := rfl

/-- What such an event can do: nothing before it is due, else its effect, the time noted. -/
theorem every_cases (ev n : Nat) (f : State → State) (s : State) :
    (due s ev n = false ∧ every ev n f s = s) ∨ (due s ev n = true ∧ every ev n f s = f (noteAt s ev)) := by
  unfold every
  cases due s ev n <;> simp

theorem eachWindow_cases (ev n : Nat) (f : State → State) (s : State) :
    (windowEnded s ev n = false ∧ eachWindow ev n f s = s) ∨
      (windowEnded s ev n = true ∧ eachWindow ev n f s = f (noteAt s ev)) := by
  unfold eachWindow
  cases windowEnded s ev n <;> simp

end Sys2Proof.Machine
end

