-- ==== Sys2Proof/Laws/Issue.lean ====
section
/-! SUPPORT. What issuing a macro-op does when nothing stands in its way, and when settling changes nothing. -/

namespace Sys2Proof.Machine

open Sys2Proof

theorem foldl_same {α β : Type} (f : α → β → α) (a : α) (l : List β) (h : ∀ x ∈ l, f a x = a) : l.foldl f a = a := by
  induction l with
  | nil => rfl
  | cons x l ih =>
    rw [List.foldl_cons, h x (List.mem_cons_self ..)]
    exact ih (fun y hy => h y (List.mem_cons_of_mem _ hy))

theorem settleOne_calm (s : State) (k : Nat) (h : (getStr s k).ended = none) : settleOne s k = s := by
  unfold settleOne
  rw [h]

/-- Settling a calm state changes nothing. -/
theorem settle_calm (s : State) (h : s.calm = true) : settle s = s := by
  simp only [State.calm, Bool.and_eq_true, List.all_eq_true, List.isEmpty_iff] at h
  have h1 : forEach (List.range 16) settleOne s = s :=
    foldl_same _ _ _ (fun k hk => settleOne_calm s k (by simpa using h.1 k hk))
  unfold settle
  rw [h1, h1]
  unfold settleReady
  rw [h.2]
  rfl

/-- Writing one stream keeps a state calm, if the stream does not end by it. -/
theorem calm_setStr (u : State) (k : Nat) (t : Stream) (hc : u.calm = true) (ht : t.ended = (getStr u k).ended) :
    (setStr u k t).calm = true := by
  unfold State.calm at hc ⊢
  rw [Bool.and_eq_true] at hc ⊢
  refine ⟨?_, by simpa [unended, taskList] using hc.2⟩
  rw [List.all_eq_true] at hc ⊢
  intro j hj
  have := hc.1 j hj
  by_cases hjk : k = j
  · subst hjk
    simpa [ht] using this
  · simpa [getStr_setStr_other _ _ _ _ hjk] using this

/-- A state stays calm when its tasks are the same and no stream's end has changed. -/
theorem calm_of_same (u t : State) (hc : u.calm = true) (ht : t.tasks = u.tasks)
    (he : ∀ k, (getStr t k).ended = (getStr u k).ended) : t.calm = true := by
  unfold State.calm at hc ⊢
  simpa [he, unended, taskList, ht] using hc

/-- In a still state no waiting fence or COMMIT goes on, and nothing is settled. -/
theorem progress_still (s : State) (h : s.still = true) : progress s = s := by
  unfold State.still at h
  rw [Bool.and_eq_true, List.all_eq_true] at h
  have h1 : forEach (List.range 16) (fun s k => commitStep k s) s = s := by
    refine foldl_same _ _ _ (fun k hk => ?_)
    have := h.2 k hk
    unfold commitStep
    cases hw : (getStr s k).wait <;> simp_all
  unfold progress
  rw [h1, ite_self, settle_calm s h.1]

theorem waitStatic_free (k n : Nat) (p : Plan) (s : State) (h : holdOf s k p = .free) : waitStatic k p (n + 1) s = (s, false) := by
  simp only [waitStatic, h]

/-- A macro-op that issues at once: its slot is taken and its effect at issue follows. -/
theorem issueStr_of (k gap u : Nat) (i : Instr) (plan : State → Stream → Plan) (eff : State → State) (s : State)
    (h : issues s k gap plan) : issueStr k gap u i plan eff s = settle (eff (slotTaken (atIssue s k gap) k u)) := by
  obtain ⟨h1, h2, hp, h3, h4, h5⟩ := h
  unfold issueStr
  rw [if_neg (by simp [h1, h2, hp])]
  rw [show runTo k ((getStr s k).nextSlot + gap) s = atIssue s k gap from rfl]
  generalize atIssue s k gap = v at h3 h4 h5 ⊢
  simp only [h3, h4, h5, waitStatic_free k 199 _ _ h5, ne_eq, not_true_eq_false, false_and, if_false, if_true, reduceCtorEq,
    Bool.false_eq_true]
  rfl

end Sys2Proof.Machine
end

