-- ==== Sys2Proof/Laws/Keeps.lean ====
section
/-! SUPPORT. What no operation of the module disturbs, said once: the queue of waiting commands and the part stay as they were, and
memories and registers in canonical form stay in it.  `Keeps s0 s` is that relation between the state before and a later one;
the lemmas here give it for the primitive operations, and compose. -/

namespace Sys2Proof.Machine

/-- `s` comes from `s0` with the queue and the part as they were, and canonical if `s0` was. -/
def Keeps (s0 s : State) : Prop :=
  s.pending = s0.pending ∧ s.part = s0.part ∧ (s0.canonical = true → s.canonical = true)

/-- The same of an operation that answers a value beside the state. -/
def KeepsL {α : Type} (s0 : State) (r : State × α) : Prop := Keeps s0 r.1
def KeepsR {α : Type} (s0 : State) (r : α × State) : Prop := Keeps s0 r.2

def KeepsM (s0 : State) (o : Option State) : Prop := ∀ t, o = some t → Keeps s0 t

def KeepsN {α : Type} (s0 : State) (o : Option (State × α)) : Prop := ∀ t a, o = some (t, a) → Keeps s0 t

def KeepsRd {α : Type} (s0 : State) : Read α → Prop
  | .ok s _ => Keeps s0 s
  | .waits => True
  | .failed s _ => Keeps s0 s
  | .bad s _ => Keeps s0 s

/-- The same of an outcome, if it is a next state. -/
def KeepsO (s0 : State) (o : Host.Outcome State Fault Refusal) : Prop := ∀ t, o = .next t → Keeps s0 t

theorem keeps_refl (s : State) : Keeps s s := ⟨rfl, rfl, id⟩

theorem keeps_trans {r s t : State} (h1 : Keeps r s) (h2 : Keeps s t) : Keeps r t :=
  ⟨h2.1.trans h1.1, h2.2.1.trans h1.2.1, fun h => h2.2.2 (h1.2.2 h)⟩

theorem keepsO_next {s0 t : State} (h : Keeps s0 t) : KeepsO s0 (.next t) := by
  intro u hu
  cases hu
  exact h

theorem keepsL_mk {α : Type} {s0 s : State} {a : α} : KeepsL s0 (s, a) = Keeps s0 s := propext ⟨fun h => h, fun h => h⟩
theorem keepsR_mk {α : Type} {s0 s : State} {a : α} : KeepsR s0 (a, s) = Keeps s0 s := propext ⟨fun h => h, fun h => h⟩
theorem keepsM_some {s0 s : State} : KeepsM s0 (some s) = Keeps s0 s :=
  propext ⟨fun h => h s rfl, fun h _ e => Option.some.inj e ▸ h⟩
theorem keepsM_none {s0 : State} : KeepsM s0 none = True := propext ⟨fun _ => trivial, fun _ _ e => nomatch e⟩
theorem keepsM_get {s0 t : State} {o : Option State} (h : KeepsM s0 o) (e : o = some t) : Keeps s0 t := h t e
theorem keepsM_map {α : Type} {s0 : State} {f : α → State} (h : ∀ x, Keeps s0 (f x)) (o : Option α) : KeepsM s0 (o.map f) := by
  cases o with
  | none => exact fun _ e => nomatch e
  | some x => exact fun _ e => Option.some.inj e ▸ h x
theorem keepsM_bind {s0 : State} {f : State → Option State} {o : Option State} (ho : KeepsM s0 o)
    (h : ∀ t, Keeps s0 t → KeepsM s0 (f t)) : KeepsM s0 (o.bind f) := by
  cases o with
  | none => exact fun _ e => nomatch e
  | some t => exact h t (ho t rfl)
theorem keepsM_foldl {α : Type} {s0 : State} {f : State → α → Option State} (h : ∀ t x, Keeps s0 t → KeepsM s0 (f t x))
    (l : List α) : ∀ {o : Option State}, KeepsM s0 o → KeepsM s0 (l.foldl (fun o x => o.bind (fun s => f s x)) o) := by
  induction l with
  | nil => exact fun h => h
  | cons x l ih => exact fun ho => ih (keepsM_bind ho (fun t ht => h t x ht))
theorem keepsM_getD {s0 s : State} {o : Option State} (h : KeepsM s0 o) (hs : Keeps s0 s) : Keeps s0 (o.getD s) := by
  cases o with
  | none => exact hs
  | some t => exact h t rfl
theorem keepsN_some {α : Type} {s0 s : State} {a : α} : KeepsN s0 (some (s, a)) = Keeps s0 s :=
  propext ⟨fun h => h s a rfl, fun h _ _ e => (Prod.mk.inj (Option.some.inj e)).1 ▸ h⟩
theorem keepsN_none {α : Type} {s0 : State} : KeepsN s0 (none : Option (State × α)) = True :=
  propext ⟨fun _ => trivial, fun _ _ _ e => nomatch e⟩
theorem keepsN_get {α : Type} {s0 t : State} {a : α} {o : Option (State × α)} (h : KeepsN s0 o) (e : o = some (t, a)) : Keeps s0 t :=
  h t a e
theorem keepsN_pair {α : Type} {s0 : State} {r : State × α} (h : KeepsL s0 r) : KeepsN s0 (some r) := fun _ _ e =>
  (Prod.mk.inj (show (r.1, r.2) = _ from Option.some.inj e)).1 ▸ h
theorem keepsN_bind {α : Type} {s0 : State} {f : State → Option (State × α)} {o : Option State} (ho : KeepsM s0 o)
    (h : ∀ t, Keeps s0 t → KeepsN s0 (f t)) : KeepsN s0 (o.bind f) := by
  cases o with
  | none => exact fun _ _ e => nomatch e
  | some t => exact h t (ho t rfl)
theorem keepsRd_ok {α : Type} {s0 s : State} {v : α} : KeepsRd s0 (.ok s v) = Keeps s0 s := propext ⟨fun h => h, fun h => h⟩
theorem keepsRd_waits {α : Type} {s0 : State} : KeepsRd s0 (.waits : Read α) = True := propext ⟨fun h => h, fun h => h⟩
theorem keepsRd_failed {α : Type} {s0 s : State} {st : Nat} : KeepsRd s0 (.failed s st : Read α) = Keeps s0 s :=
  propext ⟨fun h => h, fun h => h⟩
theorem keepsRd_bad {α : Type} {s0 s : State} {d : Nat} : KeepsRd s0 (.bad s d : Read α) = Keeps s0 s :=
  propext ⟨fun h => h, fun h => h⟩
theorem keepsRd_getOk {α : Type} {s0 t : State} {v : α} {r : Read α} (h : KeepsRd s0 r) (e : r = .ok t v) : Keeps s0 t := by
  rw [e] at h
  exact h
theorem keepsRd_getFailed {α : Type} {s0 t : State} {st : Nat} {r : Read α} (h : KeepsRd s0 r) (e : r = .failed t st) : Keeps s0 t := by
  rw [e] at h
  exact h
theorem keepsRd_getBad {α : Type} {s0 t : State} {d : Nat} {r : Read α} (h : KeepsRd s0 r) (e : r = .bad t d) : Keeps s0 t := by
  rw [e] at h
  exact h
theorem keepsL_fst {α : Type} {s0 : State} {r : State × α} (h : KeepsL s0 r) : Keeps s0 r.1 := h
theorem keepsR_snd {α : Type} {s0 : State} {r : α × State} (h : KeepsR s0 r) : Keeps s0 r.2 := h

/-- An update of any fields but those that `Keeps` speaks of. -/
theorem keeps_upd {s0 b : State}
    {x_free x_orgWb x_cores x_streams x_wsets x_nextW x_waiters x_arrivals x_fullAt x_ops x_nextOp x_bankq x_bankRR x_bankAt
      x_bankClock x_tokens x_nextTok x_creels x_logQ x_pcie x_msgs x_up x_uses x_tasks x_gens x_lastId x_accepted x_queues
      x_bins x_slots x_ages x_planRemovals x_ports x_wickets x_lanterns x_wire x_chans x_faults x_fidGens x_dmaTlb x_slaTlb
      x_inval x_pri x_priNext x_priMax x_slaRuns x_slaRefused x_units x_unitRR x_dramWb x_refreshed x_scrubAt x_lastAt
      x_plotClock x_frame x_outAt x_inAt x_stallAt x_packets x_hopRR x_hedges x_transients x_change x_lodge x_pins x_reply
      x_aer x_console x_belvArmed x_belvCount x_belvIssued} :
    Keeps s0 (State.mk b.part b.regs x_free b.pending b.org b.dram b.host b.wordMeta b.orgErr x_orgWb x_cores x_streams
      x_wsets x_nextW x_waiters x_arrivals x_fullAt x_ops x_nextOp x_bankq x_bankRR x_bankAt x_bankClock x_tokens x_nextTok
      x_creels x_logQ x_pcie x_msgs x_up x_uses x_tasks x_gens x_lastId x_accepted x_queues x_bins x_slots x_ages
      x_planRemovals x_ports x_wickets x_lanterns x_wire x_chans x_faults x_fidGens x_dmaTlb x_slaTlb x_inval x_pri
      x_priNext x_priMax x_slaRuns x_slaRefused x_units x_unitRR b.dramErr x_dramWb x_refreshed x_scrubAt x_lastAt
      x_plotClock x_frame x_outAt x_inAt x_stallAt x_packets x_hopRR x_hedges x_transients x_change x_lodge x_pins x_reply
      x_aer x_console x_belvArmed x_belvCount x_belvIssued) =
      Keeps s0 b := propext ⟨fun h => h, fun h => h⟩

theorem keeps_ite {s0 : State} {c : Prop} [Decidable c] {x y : State} (hx : Keeps s0 x) (hy : Keeps s0 y) :
    Keeps s0 (if c then x else y) := by
  split
  · exact hx
  · exact hy

theorem keepsL_ite {α : Type} {s0 : State} {c : Prop} [Decidable c] {x y : State × α} (hx : KeepsL s0 x) (hy : KeepsL s0 y) :
    KeepsL s0 (if c then x else y) := by
  split
  · exact hx
  · exact hy

theorem keepsR_ite {α : Type} {s0 : State} {c : Prop} [Decidable c] {x y : α × State} (hx : KeepsR s0 x) (hy : KeepsR s0 y) :
    KeepsR s0 (if c then x else y) := by
  split
  · exact hx
  · exact hy

theorem keepsM_ite {s0 : State} {c : Prop} [Decidable c] {x y : Option State} (hx : KeepsM s0 x) (hy : KeepsM s0 y) :
    KeepsM s0 (if c then x else y) := by
  split
  · exact hx
  · exact hy

theorem keepsN_ite {α : Type} {s0 : State} {c : Prop} [Decidable c] {x y : Option (State × α)} (hx : KeepsN s0 x)
    (hy : KeepsN s0 y) : KeepsN s0 (if c then x else y) := by
  split
  · exact hx
  · exact hy

theorem keepsRd_ite {α : Type} {s0 : State} {c : Prop} [Decidable c] {x y : Read α} (hx : KeepsRd s0 x)
    (hy : KeepsRd s0 y) : KeepsRd s0 (if c then x else y) := by
  split
  · exact hx
  · exact hy

theorem keepsO_ite {s0 : State} {c : Prop} [Decidable c] {x y : Host.Outcome State Fault Refusal} (hx : KeepsO s0 x) (hy : KeepsO s0 y) :
    KeepsO s0 (if c then x else y) := by
  split
  · exact hx
  · exact hy

theorem keeps_forEach {β : Type} {s0 s : State} {l : List β} {f : State → β → State}
    (hf : ∀ t x, Keeps s0 t → Keeps s0 (f t x)) (h : Keeps s0 s) : Keeps s0 (forEach l f s) := by
  unfold forEach
  induction l generalizing s with
  | nil => exact h
  | cons x l ih => exact ih (hf s x h)

theorem keeps_foldl {β : Type} {s0 s : State} {l : List β} {f : State → β → State}
    (hf : ∀ t x, Keeps s0 t → Keeps s0 (f t x)) (h : Keeps s0 s) : Keeps s0 (l.foldl f s) := by
  induction l generalizing s with
  | nil => exact h
  | cons x l ih => exact ih (hf s x h)

theorem keepsL_foldl {β γ : Type} {s0 : State} {r : State × γ} {l : List β} {f : State × γ → β → State × γ}
    (hf : ∀ t x, KeepsL s0 t → KeepsL s0 (f t x)) (h : KeepsL s0 r) : KeepsL s0 (l.foldl f r) := by
  induction l generalizing r with
  | nil => exact h
  | cons x l ih => exact ih (hf r x h)

theorem keepsR_foldl {β γ : Type} {s0 : State} {r : γ × State} {l : List β} {f : γ × State → β → γ × State}
    (hf : ∀ t x, KeepsR s0 t → KeepsR s0 (f t x)) (h : KeepsR s0 r) : KeepsR s0 (l.foldl f r) := by
  induction l generalizing r with
  | nil => exact h
  | cons x l ih => exact ih (hf r x h)

/-! ### The operations that write a memory or a register -/

theorem putBytes_wf (m : List Host.Cell) (a : Nat) (bs : List Byte) (h : Memory.wf m = true) :
    Memory.wf (putBytes m a bs) = true := by
  induction bs generalizing m a with
  | nil => exact h
  | cons b bs ih => exact ih _ _ (amSet_wf freshByte m a b h)

theorem canonical_iff (s : State) : s.canonical = true ↔
    Memory.wf s.org = true ∧ Memory.wf s.dram = true ∧ Memory.wf s.host = true ∧ amWf regDefault s.regs = true ∧
    amWf (fun _ => WMeta.empty) s.wordMeta = true ∧ amWf (fun _ => 0) s.orgErr = true ∧ amWf (fun _ => 0) s.dramErr = true := by
  simp only [State.canonical, Bool.and_eq_true, and_assoc]

/-- An update of the fields that the canonical form speaks of, each of which it keeps. -/
theorem keeps_of {s0 s t : State} (h : Keeps s0 s) (hp : t.pending = s.pending) (ha : t.part = s.part)
    (ho : Memory.wf s.org = true → Memory.wf t.org = true) (hd : Memory.wf s.dram = true → Memory.wf t.dram = true)
    (hh : Memory.wf s.host = true → Memory.wf t.host = true) (hr : amWf regDefault s.regs = true → amWf regDefault t.regs = true)
    (hw : amWf (fun _ => WMeta.empty) s.wordMeta = true → amWf (fun _ => WMeta.empty) t.wordMeta = true)
    (he : amWf (fun _ => 0) s.orgErr = true → amWf (fun _ => 0) t.orgErr = true)
    (hg : amWf (fun _ => 0) s.dramErr = true → amWf (fun _ => 0) t.dramErr = true) : Keeps s0 t := by
  refine ⟨hp.trans h.1, ha.trans h.2.1, fun hc => ?_⟩
  have := (canonical_iff s).1 (h.2.2 hc)
  obtain ⟨a, b, c, d, e, f, g⟩ := this
  exact (canonical_iff t).2 ⟨ho a, hd b, hh c, hr d, hw e, he f, hg g⟩

theorem keeps_regPut {s0 s : State} {off : Nat} {v : W64} (h : Keeps s0 s) : Keeps s0 (regPut s off v) :=
  keeps_of h rfl rfl id id id (amSet_wf regDefault s.regs off v) id id id

theorem keeps_orgWrite {s0 s : State} {a : Nat} {bs : List Byte} (h : Keeps s0 s) : Keeps s0 (orgWrite s a bs) :=
  keeps_of h rfl rfl (putBytes_wf s.org a bs) id id id id
    (foldl_wf _ _ (fun m x hm => amErase_wf _ m x hm) _ s.orgErr) id

theorem keeps_dramWrite {s0 s : State} {a : Nat} {bs : List Byte} (h : Keeps s0 s) : Keeps s0 (dramWrite s a bs) :=
  keeps_of h rfl rfl id (putBytes_wf s.dram a bs) id id id id id

theorem keeps_hostWrite {s0 s : State} {a : Nat} {bs : List Byte} (h : Keeps s0 s) : Keeps s0 (hostWrite s a bs) :=
  keeps_of h rfl rfl id id (putBytes_wf s.host a bs) id id id id

theorem keeps_setMetaW {s0 s : State} {w : Nat} {m : WMeta} (h : Keeps s0 s) : Keeps s0 (setMetaW s w m) :=
  keeps_of h rfl rfl id id id id (amSet_wf _ s.wordMeta w m) id id

theorem keeps_setDramErr {s0 s : State} {d e : Nat} (h : Keeps s0 s) : Keeps s0 (setDramErr s d e) :=
  keeps_of h rfl rfl id id id id id id (amSet_wf _ s.dramErr (dramBlock d) e)

end Sys2Proof.Machine
end

