-- ==== Sys2Proof/Laws/KeepsRegisters.lean ====
section
/-! SUPPORT. What the operations and the meanings of Machine/Ops, Flags keep: one lemma each (see Laws/Keeps.lean). -/

namespace Sys2Proof.Machine

open Sys2Proof

set_option linter.all false

theorem keeps_setF {s0 : State} {s : State} {f : Fld} {v : Nat} (hkeep : Keeps s0 s) :
    Keeps s0 (setF s f v) := by
  unfold setF
  try dsimp only
  with_reducible repeat' (first
    | assumption | apply keeps_regPut)

theorem keeps_bump {s0 : State} {s : State} {f : Fld} {n : Nat} (hkeep : Keeps s0 s) :
    Keeps s0 (bump s f n) := by
  unfold bump
  try dsimp only
  with_reducible repeat' (first
    | assumption | apply keeps_setF)

theorem keeps_setBit {s0 : State} {s : State} {f : Fld} {i : Nat} {b : Bool} (hkeep : Keeps s0 s) :
    Keeps s0 (setBit s f i b) := by
  unfold setBit
  try dsimp only
  with_reducible repeat' (first
    | assumption | apply keeps_setF | apply keeps_ite)

theorem keeps_noteAt {s0 : State} {s : State} {ev : Nat} (hkeep : Keeps s0 s) :
    Keeps s0 (noteAt s ev) := by
  unfold noteAt
  try dsimp only
  with_reducible repeat' (first
    | intro _ | assumption | simp only [keeps_upd])

theorem keeps_every {s0 : State} {ev n : Nat} {f : State → State} {s : State} (hf : ∀ t0, Keeps s0 t0 → Keeps s0 (f t0)) (hkeep
    : Keeps s0 s) :
    Keeps s0 (every ev n f s) := by
  unfold every
  try dsimp only
  with_reducible repeat' (first
    | assumption | apply keeps_noteAt | apply hf | apply keeps_ite)

theorem keeps_eachWindow {s0 : State} {ev n : Nat} {f : State → State} {s : State} (hf : ∀ t0, Keeps s0 t0 → Keeps s0 (f t0))
    (hkeep : Keeps s0 s) :
    Keeps s0 (eachWindow ev n f s) := by
  unfold eachWindow
  try dsimp only
  with_reducible repeat' (first
    | assumption | apply keeps_noteAt | apply hf | apply keeps_ite)

theorem keeps_unlessPaused {s0 : State} {s t : State} (hs : Keeps s0 s) (hkeep : Keeps s0 t) :
    Keeps s0 (unlessPaused s t) := by
  unfold unlessPaused
  try dsimp only
  with_reducible repeat' (first
    | assumption | apply keeps_ite)

theorem keeps_whenOn {s0 : State} {s t : State} (hs : Keeps s0 s) (hkeep : Keeps s0 t) :
    KeepsO s0 (whenOn s t) := by
  unfold whenOn
  try dsimp only
  with_reducible repeat' (first
    | assumption | apply keeps_ite | apply keepsO_next)

theorem keeps_whenAwake {s0 : State} {s t : State} (hs : Keeps s0 s) (hkeep : Keeps s0 t) :
    KeepsO s0 (whenAwake s t) := by
  unfold whenAwake
  try dsimp only
  with_reducible repeat' (first
    | assumption | apply keeps_ite | apply keepsO_next)

theorem keeps_whenUp {s0 : State} {s t : State} (hs : Keeps s0 s) (hkeep : Keeps s0 t) :
    KeepsO s0 (whenUp s t) := by
  unfold whenUp
  try dsimp only
  with_reducible repeat' (first
    | assumption | apply keeps_ite | apply keepsO_next)

theorem keeps_whenServed {s0 : State} {s t : State} (hs : Keeps s0 s) (hkeep : Keeps s0 t) :
    KeepsO s0 (whenServed s t) := by
  unfold whenServed
  try dsimp only
  with_reducible repeat' (first
    | assumption | apply keeps_ite | apply keepsO_next)

theorem keeps_idle {s0 : State} {s : State} (hkeep : Keeps s0 s) :
    Keeps s0 (idle s) := by
  unfold idle
  try dsimp only
  with_reducible repeat' (first
    | assumption | apply keeps_bump | apply keeps_ite)

theorem keeps_setCore {s0 : State} {s : State} {m : Nat} {c : Core} (hkeep : Keeps s0 s) :
    Keeps s0 (setCore s m c) := by
  unfold setCore
  try dsimp only
  with_reducible repeat' (first
    | intro _ | assumption | simp only [keeps_upd])

theorem keeps_modCore {s0 : State} {s : State} {m : Nat} {f : Core → Core} (hkeep : Keeps s0 s) :
    Keeps s0 (modCore s m f) := by
  unfold modCore
  try dsimp only
  with_reducible repeat' (first
    | assumption | apply keeps_setCore)

theorem keeps_setStr {s0 : State} {s : State} {k : Nat} {t : Stream} (hkeep : Keeps s0 s) :
    Keeps s0 (setStr s k t) := by
  unfold setStr
  try dsimp only
  with_reducible repeat' (first
    | intro _ | assumption | simp only [keeps_upd])

theorem keeps_modStr {s0 : State} {s : State} {k : Nat} {f : Stream → Stream} (hkeep : Keeps s0 s) :
    Keeps s0 (modStr s k f) := by
  unfold modStr
  try dsimp only
  with_reducible repeat' (first
    | assumption | apply keeps_setStr)

theorem keeps_setCreel {s0 : State} {s : State} {c : Nat} {x : Creel} (hkeep : Keeps s0 s) :
    Keeps s0 (setCreel s c x) := by
  unfold setCreel
  try dsimp only
  with_reducible repeat' (first
    | intro _ | assumption | simp only [keeps_upd])

theorem keeps_modCreel {s0 : State} {s : State} {c : Nat} {f : Creel → Creel} (hkeep : Keeps s0 s) :
    Keeps s0 (modCreel s c f) := by
  unfold modCreel
  try dsimp only
  with_reducible repeat' (first
    | assumption | apply keeps_setCreel)

theorem keeps_modWSet {s0 : State} {s : State} {i : Nat} {f : WSet → WSet} (hkeep : Keeps s0 s) :
    Keeps s0 (modWSet s i f) := by
  unfold modWSet
  try dsimp only
  with_reducible repeat' (first
    | intro _ | assumption | simp only [keeps_upd])

theorem keeps_setOp {s0 : State} {s : State} {i : Nat} {d : DynOp} (hkeep : Keeps s0 s) :
    Keeps s0 (setOp s i d) := by
  unfold setOp
  try dsimp only
  with_reducible repeat' (first
    | intro _ | assumption | apply keeps_ite | simp only [keeps_upd])

theorem keeps_dropOp {s0 : State} {s : State} {i : Nat} (hkeep : Keeps s0 s) :
    Keeps s0 (dropOp s i) := by
  unfold dropOp
  try dsimp only
  with_reducible repeat' (first
    | intro _ | assumption | simp only [keeps_upd])

theorem keeps_clockFrom {s0 : State} {s : State} {t cycles rate : Nat} (hkeep : Keeps s0 s) :
    Keeps s0 (clockFrom s t cycles rate) := by
  unfold clockFrom
  try dsimp only
  with_reducible repeat' (first
    | assumption | simp only [keeps_upd])

theorem keeps_setRegData {s0 : State} {s : State} {m r : Nat} {d : RegData} (hkeep : Keeps s0 s) :
    Keeps s0 (setRegData s m r d) := by
  unfold setRegData
  try dsimp only
  with_reducible repeat' (first
    | intro _ | assumption | apply keeps_modCore | simp only [keeps_upd])

theorem keeps_mendWord {s0 s : State} {a : Nat} (h : Keeps s0 s) : Keeps s0 (mendWord s a) :=
  keeps_of h rfl rfl id id id id id (amErase_wf _ _ _) id

theorem keeps_setWord {s0 : State} {s : State} {w v : Nat} (hkeep : Keeps s0 s) :
    Keeps s0 (setWord s w v) := by
  unfold setWord
  try dsimp only
  with_reducible repeat' (first
    | assumption | apply keeps_orgWrite)

theorem keeps_logPut {s0 : State} {s : State} {e : LogEntry} (hkeep : Keeps s0 s) :
    Keeps s0 (logPut s e) := by
  unfold logPut
  try dsimp only
  with_reducible repeat' (first
    | assumption | apply keeps_setF | apply keeps_bump | apply keeps_ite | simp only [keeps_upd])

theorem keeps_logEvent {s0 : State} {s : State} {kind cause : Nat} {addr : Nat} {data : List Nat} (hkeep : Keeps s0 s) :
    Keeps s0 (logEvent s kind cause addr data) := by
  unfold logEvent
  try dsimp only
  with_reducible repeat' (first
    | assumption | apply keeps_logPut | simp only [keeps_upd])

theorem keeps_raiseVec {s0 : State} {s : State} {v : Nat} (hkeep : Keeps s0 s) :
    Keeps s0 (raiseVec s v) := by
  unfold raiseVec
  try dsimp only
  with_reducible repeat' (first
    | assumption | apply keeps_setBit | apply keeps_ite | simp only [keeps_upd])

theorem keeps_irqSource {s0 : State} {s : State} {i : Nat} (hkeep : Keeps s0 s) :
    Keeps s0 (irqSource s i) := by
  unfold irqSource
  try dsimp only
  with_reducible repeat' (first
    | assumption | apply keeps_setF | apply keeps_bump | apply keeps_raiseVec | apply keeps_ite)

theorem keeps_sendUp {s0 : State} {s : State} {ctx : Option Nat} {write : Bool} {a n : Nat} (hkeep : Keeps s0 s) :
    Keeps s0 (sendUp s ctx write a n) := by
  unfold sendUp
  try dsimp only
  with_reducible repeat' (first
    | assumption | simp only [keeps_upd])

theorem keeps_toHost {s0 : State} {s : State} {ctx : Option Nat} {a : Nat} {bs : List Byte} (hkeep : Keeps s0 s) :
    Keeps s0 (toHost s ctx a bs) := by
  unfold toHost
  try dsimp only
  with_reducible repeat' (first
    | assumption | apply keeps_hostWrite | apply keeps_sendUp)

theorem keeps_toHostEntry {s0 : State} {s : State} {ctx : Option Nat} {a : Nat} {bs : List Byte} (hkeep : Keeps s0 s) :
    Keeps s0 (toHostEntry s ctx a bs) := by
  unfold toHostEntry
  try dsimp only
  with_reducible repeat' (first
    | assumption | apply keeps_toHost)

theorem keeps_drawByte {s0 : State} {s : State} (hkeep : Keeps s0 s) :
    KeepsL s0 (drawByte s) := by
  unfold drawByte
  try dsimp only
  with_reducible repeat' (first
    | assumption | apply keepsL_fst | simp only [keeps_upd, keepsL_mk])

theorem keeps_drawBytes {s0 : State} {n : Nat} {s : State} (hkeep : Keeps s0 s) :
    KeepsL s0 (drawBytes n s) := by
  unfold drawBytes
  try dsimp only
  with_reducible repeat' (first
    | intro _ | assumption | apply keepsL_fst | simp only [keeps_upd, keepsL_mk])

theorem keeps_setColFlag {s0 : State} {s : State} {m c : Nat} (hkeep : Keeps s0 s) :
    Keeps s0 (setColFlag s m c) := by
  unfold setColFlag
  try dsimp only
  with_reducible repeat' (first
    | assumption | apply keeps_setBit | apply keeps_ite)

theorem keeps_countCol {s0 : State} {s : State} {m c : Nat} (hkeep : Keeps s0 s) :
    Keeps s0 (countCol s m c) := by
  unfold countCol
  try dsimp only
  with_reducible repeat' (first
    | assumption | apply keeps_bump | apply keeps_ite)

theorem keeps_setLrFlag {s0 : State} {s : State} {m : Nat} (hkeep : Keeps s0 s) :
    Keeps s0 (setLrFlag s m) := by
  unfold setLrFlag
  try dsimp only
  with_reducible repeat' (first
    | assumption | apply keeps_setF)

theorem keeps_countLr {s0 : State} {s : State} {m : Nat} (hkeep : Keeps s0 s) :
    Keeps s0 (countLr s m) := by
  unfold countLr
  try dsimp only
  with_reducible repeat' (first
    | assumption | apply keeps_bump)

theorem keeps_countStale {s0 : State} {s : State} {m n : Nat} (hkeep : Keeps s0 s) :
    Keeps s0 (countStale s m n) := by
  unfold countStale
  try dsimp only
  with_reducible repeat' (first
    | assumption | apply keeps_bump)

theorem keeps_reportUe {s0 : State} {s : State} {cls key : Nat} {hedged : Bool} (hkeep : Keeps s0 s) :
    KeepsL s0 (reportUe s cls key hedged) := by
  unfold reportUe
  try dsimp only
  with_reducible repeat' (first
    | assumption | apply keeps_ite | apply keepsL_ite | apply keepsL_fst | simp only [keeps_upd, keepsL_mk])

theorem keeps_noteUe {s0 : State} {s : State} {a by_ : Nat} (hkeep : Keeps s0 s) :
    Keeps s0 (noteUe s a by_) := by
  unfold noteUe
  try dsimp only
  with_reducible repeat' (first
    | assumption | apply keeps_setF | apply keeps_bump | apply keeps_logPut | apply keeps_drawBytes | apply keeps_reportUe
    | apply keeps_ite | apply keepsL_ite | apply keepsL_fst | simp only [keeps_upd])

theorem keeps_noteCe {s0 : State} {s : State} {a : Nat} (hkeep : Keeps s0 s) :
    Keeps s0 (noteCe s a) := by
  unfold noteCe
  try dsimp only
  with_reducible repeat' (first
    | assumption | apply keeps_bump | apply keeps_ite | simp only [keeps_upd])

theorem keeps_noteWord {s0 : State} {s : State} {w by_ : Nat} (hkeep : Keeps s0 s) :
    Keeps s0 (noteWord s w by_) := by
  unfold noteWord
  try dsimp only
  with_reducible repeat' (first
    | assumption | apply keeps_noteUe | apply keeps_noteCe | simp only [keeps_upd] | split)

theorem keeps_noteRead {s0 : State} {s : State} {a n by_ : Nat} (hkeep : Keeps s0 s) :
    Keeps s0 (noteRead s a n by_) := by
  unfold noteRead
  try dsimp only
  with_reducible repeat' (first
    | intro _ | assumption | apply keeps_noteUe | apply keeps_noteCe | apply keeps_ite | apply keeps_forEach)

theorem keeps_mergeWrite {s0 : State} {s : State} {a : Nat} {bs : List Byte} (hkeep : Keeps s0 s) :
    KeepsL s0 (mergeWrite s a bs) := by
  unfold mergeWrite
  try dsimp only
  with_reducible repeat' (first
    | intro _ | assumption | apply keeps_orgWrite | apply keeps_bump | apply keeps_mendWord | apply keeps_noteUe
    | apply keeps_ite | apply keepsL_ite | apply keeps_foldl | apply keepsL_foldl | apply keepsR_foldl | apply keepsL_fst
    | simp only [keepsL_mk, keepsR_mk])

end Sys2Proof.Machine
end

