-- ==== Sys2Proof/Laws/KeepsPipeline.lean ====
section
/-! SUPPORT. What the operations and the meanings of Machine/Pipeline keep: one lemma each (see Laws/Keeps.lean). -/

namespace Sys2Proof.Machine

open Sys2Proof

set_option linter.all false

theorem keeps_countDefer {s0 : State} {k c : Nat} {s : State} (hkeep : Keeps s0 s) :
    Keeps s0 (countDefer k c s) := by
  unfold countDefer
  try dsimp only
  with_reducible repeat' (first
    | intro _ | assumption | apply keeps_bump | apply keeps_ite | apply keeps_forEach)

theorem keeps_addLand {s0 : State} {s : State} {k : Nat} {l : Land} (hkeep : Keeps s0 s) :
    Keeps s0 (addLand s k l) := by
  unfold addLand
  try dsimp only
  with_reducible repeat' (first
    | intro _ | assumption | apply keeps_modStr | simp only [keeps_upd])

theorem keeps_landOne {s0 : State} {k : Nat} {s : State} {l : Land} (hkeep : Keeps s0 s) :
    Keeps s0 (landOne k s l) := by
  unfold landOne
  try dsimp only
  with_reducible repeat' (first
    | intro _ | assumption | apply keeps_modStr | apply keeps_setRegData | simp only [keeps_upd])

theorem keeps_logCollisions {s0 : State} {k : Nat} {now : List Land} {s : State} (hkeep : Keeps s0 s) :
    Keeps s0 (logCollisions k now s) := by
  unfold logCollisions
  try dsimp only
  with_reducible repeat' (first
    | intro _ | assumption | apply keeps_logPut | apply keeps_ite | apply keeps_forEach | simp only [keeps_upd])

theorem keeps_landPhase {s0 : State} {k c : Nat} {s : State} (hkeep : Keeps s0 s) :
    Keeps s0 (landPhase k c s) := by
  unfold landPhase
  try dsimp only
  with_reducible repeat' (first
    | intro _ | assumption | apply keeps_modStr | apply keeps_landOne | apply keeps_logCollisions | apply keeps_forEach
    | simp only [keeps_upd])

theorem keeps_raiseLr {s0 : State} {f : Flight} {m : Nat} {clip : Bool} {s : State} (hkeep : Keeps s0 s) :
    KeepsR s0 (raiseLr f m clip s) := by
  unfold raiseLr
  try dsimp only
  with_reducible repeat' (first
    | assumption | apply keeps_setLrFlag | apply keeps_countLr | apply keeps_ite | apply keepsR_ite | apply keepsR_snd
    | simp only [keeps_upd, keepsR_mk])

theorem keeps_noteStatic {s0 : State} {k : Nat} {s : State} {a n : Nat} (hkeep : Keeps s0 s) :
    Keeps s0 (noteStatic k s a n) := by
  unfold noteStatic
  try dsimp only
  with_reducible repeat' (first
    | intro _ | assumption | apply keeps_modStr | apply keeps_noteRead | apply keeps_ite | simp only [keeps_upd])

theorem keeps_noteStaticWords {s0 : State} {k : Nat} {s : State} {ws : List Nat} (hkeep : Keeps s0 s) :
    Keeps s0 (noteStaticWords k s ws) := by
  unfold noteStaticWords
  try dsimp only
  with_reducible repeat' (first
    | intro _ | assumption | apply keeps_noteStatic | apply keeps_ite | apply keeps_forEach)

theorem keeps_noteClips {s0 : State} {p : PassF} {m : Nat} {clips : List Bool} {s : State} (hkeep : Keeps s0 s) :
    KeepsR s0 (noteClips p m clips s) := by
  unfold noteClips
  try dsimp only
  with_reducible repeat' (first
    | intro _ | assumption | apply keeps_setColFlag | apply keeps_countCol | apply keeps_ite | apply keepsR_ite
    | apply keeps_foldl | apply keepsL_foldl | apply keepsR_foldl | apply keepsR_snd
    | simp only [keeps_upd, keepsL_mk, keepsR_mk])

theorem keeps_drainFeed {s0 : State} {k c : Nat} {f : Flight} {p : PassF} {fd : Feed} {s : State} (hkeep : Keeps s0 s) :
    KeepsR s0 (drainFeed k c f p fd s) := by
  unfold drainFeed
  try dsimp only
  with_reducible repeat' (first
    | intro _ | assumption | apply keeps_addLand | apply keeps_noteClips | apply keeps_foldl | apply keepsL_foldl
    | apply keepsR_foldl | apply keepsR_snd | simp only [keeps_upd, keepsL_mk, keepsR_mk] | split)

theorem keeps_passCycle {s0 : State} {k c : Nat} {f : Flight} {p : PassF} {s : State} (hkeep : Keeps s0 s) :
    KeepsR s0 (passCycle k c f p s) := by
  unfold passCycle
  try dsimp only
  with_reducible repeat' (first
    | intro _ | assumption | apply keeps_bump | apply keeps_drainFeed | apply keeps_ite | apply keepsR_ite
    | apply keeps_forEach | apply keeps_foldl | apply keepsL_foldl | apply keepsR_foldl | apply keepsR_snd
    | simp only [keeps_upd, keepsL_mk, keepsR_mk] | split)

theorem keeps_setWmode {s0 : State} {s : State} {m v : Nat} (hkeep : Keeps s0 s) :
    Keeps s0 (setWmode s m v) := by
  unfold setWmode
  try dsimp only
  with_reducible repeat' (first
    | assumption | apply keeps_setF)

theorem keeps_setPend {s0 : State} {s : State} {m v : Nat} (hkeep : Keeps s0 s) :
    Keeps s0 (setPend s m v) := by
  unfold setPend
  try dsimp only
  with_reducible repeat' (first
    | assumption | apply keeps_setF)

theorem keeps_setArray {s0 : State} {s : State} {m : Nat} {a : ArrayAt} (hkeep : Keeps s0 s) :
    Keeps s0 (setArray s m a) := by
  unfold setArray
  try dsimp only
  with_reducible repeat' (first
    | intro _ | assumption | apply keeps_modCore | apply keeps_setWmode | apply keeps_setPend | apply keeps_ite
    | simp only [keeps_upd])

theorem keeps_loadArrays {s0 : State} {cores : List Nat} {w : WloadF} {s : State} (hkeep : Keeps s0 s) :
    Keeps s0 (loadArrays cores w s) := by
  unfold loadArrays
  try dsimp only
  with_reducible repeat' (first
    | intro _ | assumption | apply keeps_modCore | apply keeps_setWmode | apply keeps_setPend | apply keeps_ite
    | apply keeps_forEach | simp only [keeps_upd])

theorem keeps_swapArrays {s0 : State} {cores : List Nat} {s : State} (hkeep : Keeps s0 s) :
    Keeps s0 (swapArrays cores s) := by
  unfold swapArrays
  try dsimp only
  with_reducible repeat' (first
    | intro _ | assumption | apply keeps_modCore | apply keeps_setWmode | apply keeps_setPend | apply keeps_forEach
    | simp only [keeps_upd])

theorem keeps_againEff {s0 : State} {f : Flight} {s : State} (hkeep : Keeps s0 s) :
    KeepsR s0 (againEff f s) := by
  unfold againEff
  try dsimp only
  with_reducible repeat' (first
    | assumption | apply keeps_loadArrays | apply keeps_swapArrays | apply keeps_ite | apply keepsR_ite | apply keepsR_snd
    | simp only [keeps_upd, keepsR_mk] | split)

theorem keeps_wloadCycle {s0 : State} {k c : Nat} {f : Flight} {w : WloadF} {s : State} (hkeep : Keeps s0 s) :
    KeepsR s0 (wloadCycle k c f w s) := by
  unfold wloadCycle
  try dsimp only
  with_reducible repeat' (first
    | intro _ | assumption | apply keeps_modWSet | apply keeps_noteStatic | apply keeps_ite | apply keepsR_ite
    | apply keeps_forEach | apply keepsR_snd | simp only [keeps_upd, keepsR_mk])

theorem keeps_tloadCycle {s0 : State} {k c : Nat} {f : Flight} {mv : MoveF} {s : State} (hkeep : Keeps s0 s) :
    KeepsR s0 (tloadCycle k c f mv s) := by
  unfold tloadCycle
  try dsimp only
  with_reducible repeat' (first
    | intro _ | assumption | apply keeps_addLand | apply keeps_noteStaticWords | apply keeps_ite | apply keepsR_ite
    | apply keeps_forEach | apply keepsR_snd | simp only [keepsR_mk])

theorem keeps_tstoreCycle {s0 : State} {k c : Nat} {f : Flight} {mv : MoveF} {s : State} (hkeep : Keeps s0 s) :
    KeepsR s0 (tstoreCycle k c f mv s) := by
  unfold tstoreCycle
  try dsimp only
  with_reducible repeat' (first
    | intro _ | assumption | apply keeps_modStr | apply keeps_ite | apply keepsR_ite | apply keepsR_snd
    | simp only [keeps_upd, keepsR_mk])

theorem keeps_setTable {s0 : State} {s : State} {m t : Nat} {vs : List Int} (hkeep : Keeps s0 s) :
    Keeps s0 (setTable s m t vs) := by
  unfold setTable
  try dsimp only
  with_reducible repeat' (first
    | intro _ | assumption | apply keeps_modCore | simp only [keeps_upd])

theorem keeps_eprogCycle {s0 : State} {k c : Nat} {f : Flight} {e : EprogF} {s : State} (hkeep : Keeps s0 s) :
    KeepsR s0 (eprogCycle k c f e s) := by
  unfold eprogCycle
  try dsimp only
  with_reducible repeat' (first
    | intro _ | assumption | apply keeps_addLand | apply keeps_raiseLr | apply keeps_noteStatic | apply keeps_setTable
    | apply keeps_ite | apply keepsR_ite | apply keeps_forEach | apply keeps_foldl | apply keepsL_foldl | apply keepsR_foldl
    | apply keepsR_snd | simp only [keeps_upd, keepsL_mk, keepsR_mk] | split)

theorem keeps_elemCycle {s0 : State} {k c : Nat} {f : Flight} {s : State} (hkeep : Keeps s0 s) :
    KeepsR s0 (elemCycle k c f s) := by
  unfold elemCycle
  try dsimp only
  with_reducible repeat' (first
    | intro _ | assumption | apply keeps_addLand | apply keeps_raiseLr | apply keeps_ite | apply keepsR_ite
    | apply keeps_forEach | apply keeps_foldl | apply keepsL_foldl | apply keepsR_foldl | apply keepsR_snd
    | simp only [keepsL_mk, keepsR_mk])

theorem keeps_flightCycle {s0 : State} {k c : Nat} {f : Flight} {s : State} (hkeep : Keeps s0 s) :
    KeepsR s0 (flightCycle k c f s) := by
  unfold flightCycle
  try dsimp only
  with_reducible repeat' (first
    | assumption | apply keeps_passCycle | apply keeps_againEff | apply keeps_wloadCycle | apply keeps_tloadCycle
    | apply keeps_tstoreCycle | apply keeps_eprogCycle | apply keeps_elemCycle | apply keeps_ite | apply keepsR_ite
    | apply keepsR_snd | simp only [keeps_upd, keepsR_mk] | split)

theorem keeps_readPhase {s0 : State} {k c : Nat} {l : List Flight} : ∀ {s : State}, Keeps s0 s → KeepsR s0 (readPhase k c l s)
    := by
  induction l with
  | nil => intro s h; exact h
  | cons x l ih =>
    intro s h
    unfold readPhase
    try dsimp only
    with_reducible repeat' (first
    | intro _ | assumption | apply keeps_flightCycle | apply ih | apply keepsR_snd | simp only [keepsR_mk] | split)

theorem keeps_putCells {s0 s : State} {bad good : List Nat} {cells : List Host.Cell} (h : Keeps s0 s) :
    Keeps s0 (putCells bad good cells s) :=
  keeps_of h rfl rfl (foldl_wf _ _ (fun m x hm => by split <;> first | exact hm | exact amSet_wf _ _ _ _ hm) _ _) id id id id
    (foldl_wf _ _ (fun m x hm => amErase_wf _ m x hm) _ _) id

theorem keeps_storeCells {s0 : State} {k : Nat} {s : State} {cells : List Host.Cell} (hkeep : Keeps s0 s) :
    Keeps s0 (storeCells k s cells) := by
  unfold storeCells
  try dsimp only
  with_reducible repeat' (first
    | intro _ | assumption | apply keeps_bump | apply keeps_modStr | apply keeps_noteUe | apply keeps_putCells
    | apply keeps_ite | apply keeps_forEach | simp only [keeps_upd])

theorem keeps_storePhase {s0 : State} {k c : Nat} {s : State} (hkeep : Keeps s0 s) :
    Keeps s0 (storePhase k c s) := by
  unfold storePhase
  try dsimp only
  with_reducible repeat' (first
    | intro _ | assumption | apply keeps_modStr | apply keeps_storeCells | apply keeps_ite | apply keeps_forEach
    | simp only [keeps_upd])

theorem keeps_acquire {s0 : State} {k c : Nat} {g : Nat × Nat × Nat} {s : State} (hkeep : Keeps s0 s) :
    Keeps s0 (acquire k c g s) := by
  unfold acquire
  try dsimp only
  with_reducible repeat' (first
    | intro _ | assumption | apply keeps_modStr | apply keeps_countStale | apply keeps_ite | apply keeps_forEach
    | apply keeps_foldl | apply keepsL_foldl | apply keepsR_foldl | simp only [keeps_upd, keepsL_mk, keepsR_mk] | split)

theorem keeps_acquirePhase {s0 : State} {k c : Nat} {s : State} (hkeep : Keeps s0 s) :
    Keeps s0 (acquirePhase k c s) := by
  unfold acquirePhase
  try dsimp only
  with_reducible repeat' (first
    | intro _ | assumption | apply keeps_modStr | apply keeps_acquire | apply keeps_forEach | simp only [keeps_upd])

theorem keeps_cycle {s0 : State} {k c : Nat} {s : State} (hkeep : Keeps s0 s) :
    Keeps s0 (cycle k c s) := by
  unfold cycle
  try dsimp only
  with_reducible repeat' (first
    | intro _ | assumption | apply keeps_modStr | apply keeps_countDefer | apply keeps_landPhase | apply keeps_readPhase
    | apply keeps_storePhase | apply keeps_acquirePhase | apply keepsR_snd | simp only [keeps_upd])

theorem keeps_runCycles {s0 : State} {k n : Nat} : ∀ {s : State}, Keeps s0 s → Keeps s0 (runCycles k n s) := by
  induction n with
  | zero => intro s h; exact h
  | succ n ih =>
    intro s h
    unfold runCycles
    try dsimp only
    with_reducible repeat' (first
    | intro _ | assumption | apply keeps_modStr | apply keeps_cycle | apply ih | apply keeps_ite | simp only [keeps_upd]
    | split)

theorem keeps_runTo {s0 : State} {k c : Nat} {s : State} (hkeep : Keeps s0 s) :
    Keeps s0 (runTo k c s) := by
  unfold runTo
  try dsimp only
  with_reducible repeat' (first
    | assumption | apply keeps_runCycles)

theorem keeps_drain {s0 : State} {k : Nat} {s : State} (hkeep : Keeps s0 s) :
    Keeps s0 (drain k s) := by
  unfold drain
  try dsimp only
  with_reducible repeat' (first
    | assumption | apply keeps_runTo)

end Sys2Proof.Machine
end

