-- ==== Sys2Proof/Laws/KeepsLinks.lean ====
section
/-! SUPPORT. What the operations and the meanings of Machine/LinkTx, Creel keep: one lemma each (see Laws/Keeps.lean). -/

namespace Sys2Proof.Machine

open Sys2Proof

set_option linter.all false

theorem keeps_setPort {s0 : State} {s : State} {p : Nat} {x : Port} (hkeep : Keeps s0 s) :
    Keeps s0 (setPort s p x) := by
  unfold setPort
  try dsimp only
  with_reducible repeat' (first
    | intro _ | assumption | simp only [keeps_upd])

theorem keeps_modPort {s0 : State} {s : State} {p : Nat} {f : Port → Port} (hkeep : Keeps s0 s) :
    Keeps s0 (modPort s p f) := by
  unfold modPort
  try dsimp only
  with_reducible repeat' (first
    | assumption | apply keeps_setPort)

theorem keeps_setWk {s0 : State} {s : State} {w : Nat} {x : Wicket} (hkeep : Keeps s0 s) :
    Keeps s0 (setWk s w x) := by
  unfold setWk
  try dsimp only
  with_reducible repeat' (first
    | intro _ | assumption | simp only [keeps_upd])

theorem keeps_modWk {s0 : State} {s : State} {w : Nat} {f : Wicket → Wicket} (hkeep : Keeps s0 s) :
    Keeps s0 (modWk s w f) := by
  unfold modWk
  try dsimp only
  with_reducible repeat' (first
    | assumption | apply keeps_setWk)

theorem keeps_setChan {s0 : State} {s : State} {ch : Nat} {x : Chan} (hkeep : Keeps s0 s) :
    Keeps s0 (setChan s ch x) := by
  unfold setChan
  try dsimp only
  with_reducible repeat' (first
    | intro _ | assumption | simp only [keeps_upd])

theorem keeps_modChan {s0 : State} {s : State} {ch : Nat} {f : Chan → Chan} (hkeep : Keeps s0 s) :
    Keeps s0 (modChan s ch f) := by
  unfold modChan
  try dsimp only
  with_reducible repeat' (first
    | assumption | apply keeps_setChan)

theorem keeps_setVcCredit {s0 : State} {s : State} {p v n : Nat} (hkeep : Keeps s0 s) :
    Keeps s0 (setVcCredit s p v n) := by
  unfold setVcCredit
  try dsimp only
  with_reducible repeat' (first
    | assumption | apply keeps_setF)

theorem keeps_emit {s0 : State} {s : State} {p : Nat} {bs : List Byte} (hkeep : Keeps s0 s) :
    Keeps s0 (emit s p bs) := by
  unfold emit
  try dsimp only
  with_reducible repeat' (first
    | intro _ | assumption | apply keeps_modPort | simp only [keeps_upd])

theorem keeps_payCredit {s0 : State} {s : State} {p : Nat} {c : Nat × Nat} (hkeep : Keeps s0 s) :
    Keeps s0 (payCredit s p c) := by
  unfold payCredit
  try dsimp only
  with_reducible repeat' (first
    | intro _ | assumption | apply keeps_modPort | simp only [keeps_upd])

theorem keeps_sendIdle {s0 : State} {s : State} {p : Nat} {nak : Bool} (hkeep : Keeps s0 s) :
    Keeps s0 (sendIdle s p nak) := by
  unfold sendIdle
  try dsimp only
  with_reducible repeat' (first
    | assumption | apply keeps_emit | apply keeps_payCredit | apply keeps_ite)

theorem keeps_logLink {s0 : State} {s : State} {p cause rclass res flags : Nat} (hkeep : Keeps s0 s) :
    Keeps s0 (logLink s p cause rclass res flags) := by
  unfold logLink
  try dsimp only
  with_reducible repeat' (first
    | assumption | apply keeps_logPut | simp only [keeps_upd])

theorem keeps_setLane {s0 : State} {p : Nat} {s : State} {l : Nat} {on : Bool} (hkeep : Keeps s0 s) :
    Keeps s0 (setLane p s l on) := by
  unfold setLane
  try dsimp only
  with_reducible repeat' (first
    | assumption | apply keeps_setF | apply keeps_setBit)

theorem keeps_applyLanes {s0 : State} {s : State} {p : Nat} {rx : Bool} (hkeep : Keeps s0 s) :
    Keeps s0 (applyLanes s p rx) := by
  unfold applyLanes
  try dsimp only
  with_reducible repeat' (first
    | intro _ | assumption | apply keeps_modPort | apply keeps_logLink | apply keeps_setLane | apply keeps_ite
    | apply keeps_forEach | simp only [keeps_upd])

theorem keeps_sendFlit {s0 : State} {s : State} {p vc : Nat} {ctrl : Bool} {sop : Nat} {payload : List Byte} (hkeep : Keeps s0
    s) :
    Keeps s0 (sendFlit s p vc ctrl sop payload) := by
  unfold sendFlit
  try dsimp only
  with_reducible repeat' (first
    | intro _ | assumption | apply keeps_bump | apply keeps_modPort | apply keeps_emit | apply keeps_payCredit
    | apply keeps_applyLanes | apply keeps_ite | simp only [keeps_upd])

theorem keeps_replayAll {s0 : State} {s : State} {p : Nat} (hkeep : Keeps s0 s) :
    Keeps s0 (replayAll s p) := by
  unfold replayAll
  try dsimp only
  with_reducible repeat' (first
    | intro _ | assumption | apply keeps_bump | apply keeps_modPort | apply keeps_emit | apply keeps_forEach
    | simp only [keeps_upd])

theorem keeps_pumpN {s0 : State} {p n : Nat} : ∀ {s : State}, Keeps s0 s → Keeps s0 (pumpN p n s) := by
  induction n with
  | zero => intro s h; exact h
  | succ n ih =>
    intro s h
    unfold pumpN
    try dsimp only
    with_reducible repeat' (first
    | intro _ | assumption | apply keeps_modPort | apply keeps_setVcCredit | apply keeps_sendFlit | apply ih
    | apply keeps_ite | simp only [keeps_upd] | split)

theorem keeps_ctlFlit {s0 : State} {p : Nat} {s : State} {kind : Nat} {args : List Byte} (hkeep : Keeps s0 s) :
    Keeps s0 (ctlFlit p s kind args) := by
  unfold ctlFlit
  try dsimp only
  with_reducible repeat' (first
    | intro _ | assumption | apply keeps_modPort | apply keeps_sendFlit | apply keeps_ite | simp only [keeps_upd])

theorem keeps_pumpCtl {s0 : State} {p n : Nat} : ∀ {s : State}, Keeps s0 s → Keeps s0 (pumpCtl p n s) := by
  induction n with
  | zero => intro s h; exact h
  | succ n ih =>
    intro s h
    unfold pumpCtl
    try dsimp only
    with_reducible repeat' (first
    | intro _ | assumption | apply keeps_modPort | apply keeps_ctlFlit | apply ih | apply keeps_ite | simp only [keeps_upd]
    | split)

theorem keeps_pump {s0 : State} {s : State} {p : Nat} (hkeep : Keeps s0 s) :
    Keeps s0 (pump s p) := by
  unfold pump
  try dsimp only
  with_reducible repeat' (first
    | intro _ | assumption | apply keeps_pumpN | apply keeps_pumpCtl)

theorem keeps_sendCtl {s0 : State} {s : State} {p kind : Nat} {args : List Byte} (hkeep : Keeps s0 s) :
    Keeps s0 (sendCtl s p kind args) := by
  unfold sendCtl
  try dsimp only
  with_reducible repeat' (first
    | intro _ | assumption | apply keeps_modPort | apply keeps_pumpCtl | simp only [keeps_upd])

theorem keeps_queuePkt {s0 : State} {s : State} {p : Nat} {k : Pkt} (hkeep : Keeps s0 s) :
    Keeps s0 (queuePkt s p k) := by
  unfold queuePkt
  try dsimp only
  with_reducible repeat' (first
    | intro _ | assumption | apply keeps_modPort | apply keeps_ite | simp only [keeps_upd])

theorem keeps_sendPkt {s0 : State} {s : State} {p : Nat} {k : Pkt} (hkeep : Keeps s0 s) :
    Keeps s0 (sendPkt s p k) := by
  unfold sendPkt
  try dsimp only
  with_reducible repeat' (first
    | assumption | apply keeps_pump | apply keeps_queuePkt)

theorem keeps_askRef {s0 : State} {s : State} {p : Nat} {h : Hdr} (hkeep : Keeps s0 s) :
    KeepsL s0 (askRef s p h) := by
  unfold askRef
  try dsimp only
  with_reducible repeat' (first
    | intro _ | assumption | apply keeps_modPort | apply keepsL_fst | simp only [keeps_upd, keepsL_mk])

theorem keeps_sendReply {s0 : State} {s : State} {p ref ty status sub len : Nat} {body : List Byte} (hkeep : Keeps s0 s) :
    Keeps s0 (sendReply s p ref ty status sub len body) := by
  unfold sendReply
  try dsimp only
  with_reducible repeat' (first
    | intro _ | assumption | apply keeps_modPort | apply keeps_sendPkt | simp only [keeps_upd] | split)

theorem keeps_replyFe {s0 : State} {s : State} {p ref : Nat} {res : FeRes} (hkeep : Keeps s0 s) :
    Keeps s0 (replyFe s p ref res) := by
  unfold replyFe
  try dsimp only
  with_reducible repeat' (first
    | assumption | apply keeps_sendReply | simp only [keeps_upd] | split)

theorem keeps_newTag {s0 : State} {s : State} {p : Nat} (hkeep : Keeps s0 s) :
    KeepsL s0 (newTag s p) := by
  unfold newTag
  try dsimp only
  with_reducible repeat' (first
    | intro _ | assumption | apply keeps_modPort | apply keepsL_fst | simp only [keeps_upd, keepsL_mk])

theorem keeps_setWallet {s0 : State} {s : State} {p w n : Nat} (hkeep : Keeps s0 s) :
    Keeps s0 (setWallet s p w n) := by
  unfold setWallet
  try dsimp only
  with_reducible repeat' (first
    | intro _ | assumption | apply keeps_modPort | apply keeps_ite | simp only [keeps_upd])

theorem keeps_setTxn {s0 : State} {s : State} {p : Nat} {t : Txn} (hkeep : Keeps s0 s) :
    Keeps s0 (setTxn s p t) := by
  unfold setTxn
  try dsimp only
  with_reducible repeat' (first
    | intro _ | assumption | apply keeps_modPort | apply keeps_ite | simp only [keeps_upd])

theorem keeps_dropTxn {s0 : State} {s : State} {p tag : Nat} (hkeep : Keeps s0 s) :
    Keeps s0 (dropTxn s p tag) := by
  unfold dropTxn
  try dsimp only
  with_reducible repeat' (first
    | intro _ | assumption | apply keeps_modPort | simp only [keeps_upd])

theorem keeps_pumpTxn {s0 : State} {p tag n : Nat} : ∀ {s : State}, Keeps s0 s → Keeps s0 (pumpTxn p tag n s) := by
  induction n with
  | zero => intro s h; exact h
  | succ n ih =>
    intro s h
    unfold pumpTxn
    try dsimp only
    with_reducible repeat' (first
    | intro _ | assumption | apply keeps_modPort | apply keeps_sendPkt | apply keeps_setWallet | apply keeps_setTxn
    | apply ih | apply keeps_ite | simp only [keeps_upd] | split)

theorem keeps_tagFor {s0 : State} {s : State} {p : Nat} {who : TxnFor} (hkeep : Keeps s0 s) :
    KeepsL s0 (tagFor s p who) := by
  unfold tagFor
  try dsimp only
  with_reducible repeat' (first
    | assumption | apply keeps_newTag | apply keepsL_fst | simp only [keeps_upd, keepsL_mk] | split)

theorem keeps_openTxn {s0 : State} {s : State} {p : Nat} {who : TxnFor} {src wk left : Nat} {pieces : List Piece} (hkeep :
    Keeps s0 s) :
    KeepsL s0 (openTxn s p who src wk left pieces) := by
  unfold openTxn
  try dsimp only
  with_reducible repeat' (first
    | intro _ | assumption | apply keeps_modPort | apply keeps_tagFor | apply keepsL_fst | simp only [keeps_upd, keepsL_mk])

theorem keeps_peerRead {s0 : State} {s : State} {who : TxnFor} {src ctx cls : Nat} {rows : List (Nat × Nat × Nat)} (hkeep :
    Keeps s0 s) :
    Keeps s0 (peerRead s who src ctx cls rows) := by
  unfold peerRead
  try dsimp only
  with_reducible repeat' (first
    | intro _ | assumption | apply keeps_pump | apply keeps_queuePkt | apply keeps_openTxn | apply keeps_forEach
    | apply keepsL_fst | simp only [keeps_upd] | split)

theorem keeps_peerWrite {s0 : State} {s : State} {who : TxnFor} {src ctx cls : Nat} {rows : List (Nat × List Byte)} (hkeep :
    Keeps s0 s) :
    Keeps s0 (peerWrite s who src ctx cls rows) := by
  unfold peerWrite
  try dsimp only
  with_reducible repeat' (first
    | intro _ | assumption | apply keeps_setTxn | apply keeps_pumpTxn | apply keeps_openTxn | apply keepsL_fst
    | simp only [keeps_upd] | split)

theorem keeps_peerFe {s0 : State} {s : State} {who : TxnFor} {src ctx cls a : Nat} {acc : FeAcc} (hkeep : Keeps s0 s) :
    Keeps s0 (peerFe s who src ctx cls a acc) := by
  unfold peerFe
  try dsimp only
  with_reducible repeat' (first
    | assumption | apply keeps_sendPkt | apply keeps_openTxn | apply keepsL_fst)

theorem keeps_peerMsg {s0 : State} {s : State} {who : TxnFor} {src ctx cls a : Nat} {msg : List Byte} (hkeep : Keeps s0 s) :
    Keeps s0 (peerMsg s who src ctx cls a msg) := by
  unfold peerMsg
  try dsimp only
  with_reducible repeat' (first
    | assumption | apply keeps_sendPkt | apply keeps_openTxn | apply keepsL_fst)

theorem keeps_peerCredit {s0 : State} {s : State} {w : Who} {key ctx cls a n : Nat} (hkeep : Keeps s0 s) :
    Keeps s0 (peerCredit s w key ctx cls a n) := by
  unfold peerCredit
  try dsimp only
  with_reducible repeat' (first
    | assumption | apply keeps_sendPkt | apply keeps_openTxn | apply keepsL_fst)

theorem keeps_crlStale {s0 : State} {s : State} {tag : Nat} (hkeep : Keeps s0 s) :
    Keeps s0 (crlStale s tag) := by
  unfold crlStale
  try dsimp only
  with_reducible repeat' (first
    | assumption | apply keeps_setF | apply keeps_bump | apply keeps_logEvent | apply keeps_ite)

theorem keeps_poolAdd {s0 : State} {s : State} {c n : Nat} (hkeep : Keeps s0 s) :
    Keeps s0 (poolAdd s c n) := by
  unfold poolAdd
  try dsimp only
  with_reducible repeat' (first
    | assumption | apply keeps_setF)

theorem keeps_poolSub {s0 : State} {s : State} {c n : Nat} (hkeep : Keeps s0 s) :
    Keeps s0 (poolSub s c n) := by
  unfold poolSub
  try dsimp only
  with_reducible repeat' (first
    | assumption | apply keeps_setF)

theorem keeps_creditReturn {s0 : State} {s : State} {tag n : Nat} (hkeep : Keeps s0 s) :
    Keeps s0 (creditReturn s tag n) := by
  unfold creditReturn
  try dsimp only
  with_reducible repeat' (first
    | intro _ | assumption | apply keeps_modCreel | apply keeps_crlStale | apply keeps_poolAdd | apply keeps_ite
    | simp only [keeps_upd])

theorem keeps_setAccounts {s0 : State} {s : State} {w : Who} {l : List Account} (hkeep : Keeps s0 s) :
    Keeps s0 (setAccounts s w l) := by
  unfold setAccounts
  try dsimp only
  with_reducible repeat' (first
    | intro _ | assumption | apply keeps_modCore | apply keeps_modStr | simp only [keeps_upd] | split)

theorem keeps_useAccount {s0 : State} {s : State} {w : Who} {tag : Nat} (hkeep : Keeps s0 s) :
    Keeps s0 (useAccount s w tag) := by
  unfold useAccount
  try dsimp only
  with_reducible repeat' (first
    | assumption | apply keeps_creditReturn | apply keeps_setAccounts | simp only [keeps_upd] | split)

theorem keeps_closeAccounts {s0 : State} {s : State} {w : Who} (hkeep : Keeps s0 s) :
    Keeps s0 (closeAccounts s w) := by
  unfold closeAccounts
  try dsimp only
  with_reducible repeat' (first
    | intro _ | assumption | apply keeps_creditReturn | apply keeps_setAccounts | apply keeps_ite | apply keeps_forEach)

theorem keeps_crlWrite {s0 : State} {s : State} {c off : Nat} {bs : List Byte} (hkeep : Keeps s0 s) :
    Keeps s0 (crlWrite s c off bs) := by
  unfold crlWrite
  try dsimp only
  with_reducible repeat' (first
    | assumption | apply keeps_orgWrite | apply keeps_toHostEntry | apply keeps_ite)

theorem keeps_writeEntry {s0 : State} {s : State} {c : Nat} {m : StageMsg} (hkeep : Keeps s0 s) :
    Keeps s0 (writeEntry s c m) := by
  unfold writeEntry
  try dsimp only
  with_reducible repeat' (first
    | intro _ | assumption | apply keeps_setF | apply keeps_setCreel | apply keeps_poolSub | apply keeps_crlWrite
    | apply keeps_ite | simp only [keeps_upd] | split)

theorem keeps_consumeHead {s0 : State} {s : State} {c : Nat} (hkeep : Keeps s0 s) :
    Keeps s0 (consumeHead s c) := by
  unfold consumeHead
  try dsimp only
  with_reducible repeat' (first
    | assumption | apply keeps_setF | apply keeps_setCreel | apply keeps_poolAdd | apply keeps_ite | simp only [keeps_upd]
    | split)

theorem keeps_stageMsg {s0 : State} {s : State} {c : Nat} {m : StageMsg} (hkeep : Keeps s0 s) :
    KeepsL s0 (stageMsg s c m) := by
  unfold stageMsg
  try dsimp only
  with_reducible repeat' (first
    | intro _ | assumption | apply keeps_modCreel | apply keeps_crlStale | apply keeps_ite | apply keepsL_ite
    | apply keepsL_fst | simp only [keeps_upd, keepsL_mk])

theorem keeps_setGranted {s0 : State} {s : State} {w p n : Nat} (hkeep : Keeps s0 s) :
    Keeps s0 (setGranted s w p n) := by
  unfold setGranted
  try dsimp only
  with_reducible repeat' (first
    | intro _ | assumption | apply keeps_setF | apply keeps_modWk | simp only [keeps_upd])

theorem keeps_serveWicket {s0 : State} {w n : Nat} : ∀ {s : State}, Keeps s0 s → Keeps s0 (serveWicket w n s) := by
  induction n with
  | zero => intro s h; exact h
  | succ n ih =>
    intro s h
    unfold serveWicket
    try dsimp only
    with_reducible repeat' (first
    | intro _ | assumption | apply keeps_setF | apply keeps_setWk | apply keeps_sendReply | apply keeps_setGranted
    | apply ih | simp only [keeps_upd] | split)

theorem keeps_wicketRelease {s0 : State} {s : State} {w n : Nat} (hkeep : Keeps s0 s) :
    Keeps s0 (wicketRelease s w n) := by
  unfold wicketRelease
  try dsimp only
  with_reducible repeat' (first
    | assumption | apply keeps_setF | apply keeps_serveWicket)

theorem keeps_requestGrant {s0 : State} {s : State} {r : GrantReq} (hkeep : Keeps s0 s) :
    Keeps s0 (requestGrant s r) := by
  unfold requestGrant
  try dsimp only
  with_reducible repeat' (first
    | intro _ | assumption | apply keeps_setF | apply keeps_modCreel | apply keeps_crlStale | apply keeps_ite
    | simp only [keeps_upd])

theorem keeps_sendToken {s0 : State} {s : State} {plot : Nat} {kd : TokenKind} (hkeep : Keeps s0 s) :
    Keeps s0 (sendToken s plot kd) := by
  unfold sendToken
  try dsimp only
  with_reducible repeat' (first
    | assumption | simp only [keeps_upd])

theorem keeps_clearCreel {s0 : State} {s : State} {c : Nat} (hkeep : Keeps s0 s) :
    Keeps s0 (clearCreel s c) := by
  unfold clearCreel
  try dsimp only
  with_reducible repeat' (first
    | assumption | apply keeps_setF | apply keeps_setCreel)

end Sys2Proof.Machine
end

