-- ==== Sys2Proof/Laws/KeepsBandstand.lean ====
section
/-! SUPPORT. What the operations and the meanings of Machine/FullEmpty, Gate, Choose, Images, Operands, Matrix, Movement, Element, Control keep: one lemma each (see Laws/Keeps.lean). -/

namespace Sys2Proof.Machine

open Sys2Proof

set_option linter.all false

theorem keeps_emptyWord {s0 : State} {s : State} {w : Nat} (hkeep : Keeps s0 s) :
    Keeps s0 (emptyWord s w) := by
  unfold emptyWord
  try dsimp only
  with_reducible repeat' (first
    | intro _ | assumption | apply keeps_setMetaW | simp only [keeps_upd])

theorem keeps_countedDown {s0 : State} {s : State} {w n : Nat} (hkeep : Keeps s0 s) :
    Keeps s0 (countedDown s w n) := by
  unfold countedDown
  try dsimp only
  with_reducible repeat' (first
    | intro _ | assumption | apply keeps_setMetaW | apply keeps_emptyWord | apply keeps_ite | simp only [keeps_upd])

theorem keeps_doTake {s0 : State} {s : State} {w : Nat} {kd : TakeKind} (hkeep : Keeps s0 s) :
    Keeps s0 (doTake s w kd) := by
  unfold doTake
  try dsimp only
  with_reducible repeat' (first
    | assumption | apply keeps_setWord | apply keeps_emptyWord | apply keeps_countedDown | simp only [keeps_upd] | split)

theorem keeps_countWait {s0 : State} {k : Nat} {s : State} (hkeep : Keeps s0 s) :
    Keeps s0 (countWait k s) := by
  unfold countWait
  try dsimp only
  with_reducible repeat' (first
    | assumption | apply keeps_bump | apply keeps_ite)

theorem keeps_countHold {s0 : State} {k : Nat} {s : State} (hkeep : Keeps s0 s) :
    Keeps s0 (countHold k s) := by
  unfold countHold
  try dsimp only
  with_reducible repeat' (first
    | assumption | apply keeps_bump | apply keeps_ite)

theorem keeps_dropLocalWaiters {s0 : State} {k : Nat} {s : State} (hkeep : Keeps s0 s) :
    Keeps s0 (dropLocalWaiters k s) := by
  unfold dropLocalWaiters
  try dsimp only
  with_reducible repeat' (first
    | intro _ | assumption | simp only [keeps_upd] | split)

theorem keeps_dropRemote {s0 : State} {s : State} {op : Nat} (hkeep : Keeps s0 s) :
    Keeps s0 (dropRemote s op) := by
  unfold dropRemote
  try dsimp only
  with_reducible repeat' (first
    | intro _ | assumption | apply keeps_dropOp | simp only [keeps_upd])

theorem keeps_dropParked {s0 : State} {s : State} {t : Stream} (hkeep : Keeps s0 s) :
    Keeps s0 (dropParked s t) := by
  unfold dropParked
  try dsimp only
  with_reducible repeat' (first
    | assumption | apply keeps_dropRemote | simp only [keeps_upd] | split)

theorem keeps_withdraw {s0 : State} {k : Nat} {s : State} (hkeep : Keeps s0 s) :
    Keeps s0 (withdraw k s) := by
  unfold withdraw
  try dsimp only
  with_reducible repeat' (first
    | assumption | apply keeps_dropLocalWaiters | apply keeps_dropRemote | apply keeps_dropParked | simp only [keeps_upd]
    | split)

theorem keeps_stopStream {s0 : State} {k c : Nat} {s : State} (hkeep : Keeps s0 s) :
    Keeps s0 (stopStream k c s) := by
  unfold stopStream
  try dsimp only
  with_reducible repeat' (first
    | intro _ | assumption | apply keeps_modStr | apply keeps_countWait | apply keeps_countHold | apply keeps_withdraw
    | simp only [keeps_upd])

theorem keeps_stopLate {s0 : State} {k c : Nat} {s : State} (hkeep : Keeps s0 s) :
    Keeps s0 (stopLate k c s) := by
  unfold stopLate
  try dsimp only
  with_reducible repeat' (first
    | intro _ | assumption | apply keeps_modStr | apply keeps_stopStream | apply keeps_ite | simp only [keeps_upd])

theorem keeps_noteSkip {s0 : State} {k ctx task c idx : Nat} {data : List Nat} {s : State} (hkeep : Keeps s0 s) :
    Keeps s0 (noteSkip k ctx task c idx data s) := by
  unfold noteSkip
  try dsimp only
  with_reducible repeat' (first
    | assumption | apply keeps_setF | apply keeps_bump | apply keeps_logPut | simp only [keeps_upd])

theorem keeps_skip {s0 : State} {k c idx : Nat} {data : List Nat} {s : State} (hkeep : Keeps s0 s) :
    Keeps s0 (skip k c idx data s) := by
  unfold skip
  try dsimp only
  with_reducible repeat' (first
    | intro _ | assumption | apply keeps_modStr | apply keeps_stopStream | apply keeps_noteSkip | simp only [keeps_upd])

theorem keeps_resumeWait {s0 : State} {k after : Nat} {s : State} (hkeep : Keeps s0 s) :
    Keeps s0 (resumeWait k after s) := by
  unfold resumeWait
  try dsimp only
  with_reducible repeat' (first
    | intro _ | assumption | apply keeps_modStr | apply keeps_countWait | apply keeps_stopStream | apply keeps_ite
    | simp only [keeps_upd] | split)

theorem keeps_laterAcquire {s0 : State} {k n : Nat} {g : Nat × Nat × Nat} {s : State} (hkeep : Keeps s0 s) :
    Keeps s0 (laterAcquire k n g s) := by
  unfold laterAcquire
  try dsimp only
  with_reducible repeat' (first
    | intro _ | assumption | apply keeps_modStr | apply keeps_ite | simp only [keeps_upd])

theorem keeps_addWaiter {s0 : State} {s : State} {w : Nat} {ag : FeAgent} {key : Nat} {kd : TakeKind} (hkeep : Keeps s0 s) :
    Keeps s0 (addWaiter s w ag key kd) := by
  unfold addWaiter
  try dsimp only
  with_reducible repeat' (first
    | assumption | simp only [keeps_upd])

theorem keeps_sharesDone {s0 : State} {s : State} {op st : Nat} (hkeep : Keeps s0 s) :
    Keeps s0 (sharesDone s op st) := by
  unfold sharesDone
  try dsimp only
  with_reducible repeat' (first
    | intro _ | assumption | apply keeps_setOp | simp only [keeps_upd] | split)

theorem keeps_answer {s0 : State} {s : State} {ag : FeAgent} {res : FeRes} (hkeep : Keeps s0 s) :
    Keeps s0 (answer s ag res) := by
  unfold answer
  try dsimp only
  with_reducible repeat' (first
    | intro _ | assumption | apply keeps_modStr | apply keeps_modChan | apply keeps_replyFe | apply keeps_wicketRelease
    | apply keeps_sendToken | apply keeps_skip | apply keeps_resumeWait | apply keeps_laterAcquire | apply keeps_addWaiter
    | apply keeps_sharesDone | apply keeps_ite | simp only [keeps_upd] | split)

theorem keeps_badWord {s0 : State} {s : State} {ag : FeAgent} {v : Nat} (hkeep : Keeps s0 s) :
    Keeps s0 (badWord s ag v) := by
  unfold badWord
  try dsimp only
  with_reducible repeat' (first
    | intro _ | assumption | apply keeps_modStr | apply keeps_modChan | apply keeps_sendReply | apply keeps_answer
    | apply keeps_ite | simp only [keeps_upd] | split)

theorem keeps_grantTake {s0 : State} {s : State} {w : Nat} {kd : TakeKind} {ag : FeAgent} {v : Nat} (hkeep : Keeps s0 s) :
    Keeps s0 (grantTake s w kd ag v) := by
  unfold grantTake
  try dsimp only
  with_reducible repeat' (first
    | assumption | apply keeps_noteWord | apply keeps_doTake | apply keeps_answer | apply keeps_badWord | apply keeps_ite
    | simp only [keeps_upd] | split)

theorem keeps_dropWaiter {s0 : State} {s : State} {x : Waiter} (hkeep : Keeps s0 s) :
    Keeps s0 (dropWaiter s x) := by
  unfold dropWaiter
  try dsimp only
  with_reducible repeat' (first
    | intro _ | assumption | simp only [keeps_upd])

theorem keeps_examine {s0 : State} {w : Nat} {l : List Waiter} : ∀ {s : State}, Keeps s0 s → Keeps s0 (examine w l s) := by
  induction l with
  | nil => intro s h; exact h
  | cons x l ih =>
    intro s h
    unfold examine
    try dsimp only
    with_reducible repeat' (first
    | intro _ | assumption | apply keeps_answer | apply keeps_grantTake | apply keeps_dropWaiter | apply ih
    | apply keeps_ite | simp only [keeps_upd] | split)

theorem keeps_setTask {s0 : State} {s : State} {i : Nat} {t : Option Task} (hkeep : Keeps s0 s) :
    Keeps s0 (setTask s i t) := by
  unfold setTask
  try dsimp only
  with_reducible repeat' (first
    | intro _ | assumption | simp only [keeps_upd])

theorem keeps_seeReady {s0 : State} {s : State} {w v : Nat} (hkeep : Keeps s0 s) :
    Keeps s0 (seeReady s w v) := by
  unfold seeReady
  try dsimp only
  with_reducible repeat' (first
    | intro _ | assumption | apply keeps_setTask | apply keeps_ite | apply keeps_forEach | simp only [keeps_upd])

theorem keeps_wake {s0 : State} {s : State} {w : Nat} (hkeep : Keeps s0 s) :
    Keeps s0 (wake s w) := by
  unfold wake
  try dsimp only
  with_reducible repeat' (first
    | intro _ | assumption | apply keeps_answer | apply keeps_grantTake | apply keeps_dropWaiter | apply keeps_examine
    | apply keeps_seeReady | apply keeps_ite | apply keeps_forEach | simp only [keeps_upd] | split)

theorem keeps_markWord {s0 : State} {s : State} {w : Nat} {m : WMeta} (hkeep : Keeps s0 s) :
    Keeps s0 (markWord s w m) := by
  unfold markWord
  try dsimp only
  with_reducible repeat' (first
    | intro _ | assumption | apply keeps_setMetaW | apply keeps_wake | apply keeps_ite | simp only [keeps_upd])

theorem keeps_putWord {s0 : State} {s : State} {w v : Nat} {m : WMeta} (hkeep : Keeps s0 s) :
    Keeps s0 (putWord s w v m) := by
  unfold putWord
  try dsimp only
  with_reducible repeat' (first
    | assumption | apply keeps_setWord | apply keeps_markWord)

theorem keeps_poisonWord {s0 : State} {s : State} {w : Nat} (hkeep : Keeps s0 s) :
    Keeps s0 (poisonWord s w) := by
  unfold poisonWord
  try dsimp only
  with_reducible repeat' (first
    | assumption | apply keeps_setMetaW | apply keeps_wake)

theorem keeps_feAccess {s0 : State} {s : State} {w : Nat} {ag : FeAgent} {key : Nat} {acc : FeAcc} (hkeep : Keeps s0 s) :
    Keeps s0 (feAccess s w ag key acc) := by
  unfold feAccess
  try dsimp only
  with_reducible repeat' (first
    | assumption | apply keeps_noteWord | apply keeps_addWaiter | apply keeps_answer | apply keeps_badWord
    | apply keeps_grantTake | apply keeps_wake | apply keeps_putWord | apply keeps_ite | simp only [keeps_upd] | split)

theorem keeps_completeWord {s0 : State} {s : State} {w v : Nat} {count failed : Bool} (hkeep : Keeps s0 s) :
    KeepsL s0 (completeWord s w v count failed) := by
  unfold completeWord
  try dsimp only
  with_reducible repeat' (first
    | assumption | apply keeps_setMetaW | apply keeps_setWord | apply keeps_noteWord | apply keeps_wake
    | apply keeps_putWord | apply keeps_poisonWord | apply keeps_ite | apply keepsL_ite | apply keepsL_fst
    | simp only [keeps_upd, keepsL_mk] | split)

theorem keeps_setQ {s0 : State} {s : State} {c q : Nat} {x : Queue} (hkeep : Keeps s0 s) :
    Keeps s0 (setQ s c q x) := by
  unfold setQ
  try dsimp only
  with_reducible repeat' (first
    | intro _ | assumption | simp only [keeps_upd])

theorem keeps_modQ {s0 : State} {s : State} {c q : Nat} {f : Queue → Queue} (hkeep : Keeps s0 s) :
    Keeps s0 (modQ s c q f) := by
  unfold modQ
  try dsimp only
  with_reducible repeat' (first
    | assumption | apply keeps_setQ)

theorem keeps_setBin {s0 : State} {s : State} {c i : Nat} {b : Bin} (hkeep : Keeps s0 s) :
    Keeps s0 (setBin s c i b) := by
  unfold setBin
  try dsimp only
  with_reducible repeat' (first
    | intro _ | assumption | simp only [keeps_upd])

theorem keeps_staleTask {s0 : State} {s : State} {id : Nat} (hkeep : Keeps s0 s) :
    Keeps s0 (staleTask s id) := by
  unfold staleTask
  try dsimp only
  with_reducible repeat' (first
    | intro _ | assumption | apply keeps_bump | apply keeps_logEvent)

theorem keeps_setStopped {s0 : State} {s : State} {c q st cause : Nat} (hkeep : Keeps s0 s) :
    Keeps s0 (setStopped s c q st cause) := by
  unfold setStopped
  try dsimp only
  with_reducible repeat' (first
    | assumption | apply keeps_setF)

theorem keeps_stopQueue {s0 : State} {s : State} {c q st cause : Nat} (hkeep : Keeps s0 s) :
    Keeps s0 (stopQueue s c q st cause) := by
  unfold stopQueue
  try dsimp only
  with_reducible repeat' (first
    | assumption | apply keeps_raiseVec | apply keeps_setStopped)

theorem keeps_stopAtRec {s0 : State} {s : State} {c q st cause : Nat} (hkeep : Keeps s0 s) :
    Keeps s0 (stopAtRec s c q st cause) := by
  unfold stopAtRec
  try dsimp only
  with_reducible repeat' (first
    | intro _ | assumption | apply keeps_modQ | apply keeps_setStopped | simp only [keeps_upd])

theorem keeps_pushRec {s0 : State} {s : State} {c q : Nat} {r : Rec} (hkeep : Keeps s0 s) :
    Keeps s0 (pushRec s c q r) := by
  unfold pushRec
  try dsimp only
  with_reducible repeat' (first
    | intro _ | assumption | apply keeps_modQ | simp only [keeps_upd])

theorem keeps_completeCmds {s0 : State} {s : State} {c q : Nat} (hkeep : Keeps s0 s) :
    Keeps s0 (completeCmds s c q) := by
  unfold completeCmds
  try dsimp only
  with_reducible repeat' (first
    | intro _ | assumption | apply keeps_setQ | apply keeps_pushRec | apply keeps_forEach | simp only [keeps_upd] | split)

theorem keeps_endOne {s0 : State} {s : State} {i status detail : Nat} (hkeep : Keeps s0 s) :
    Keeps s0 (endOne s i status detail) := by
  unfold endOne
  try dsimp only
  with_reducible repeat' (first
    | intro _ | assumption | apply keeps_setTask | apply keeps_modQ | apply keeps_pushRec | apply keeps_completeCmds
    | apply keeps_ite | simp only [keeps_upd] | split)

theorem keeps_endTasks {s0 : State} {n : Nat} : ∀ {l : List (Nat × Nat × Nat)} {s : State}, Keeps s0 s → Keeps s0 (endTasks n l
    s) := by
  induction n with
  | zero => intro l s h; cases l <;> exact h
  | succ n ih =>
    intro l s h
    cases l with
    | nil => exact h
    | cons x l =>
    unfold endTasks
    try dsimp only
    with_reducible repeat' (first
    | intro _ | assumption | apply keeps_endOne | apply ih | apply keeps_ite | simp only [keeps_upd] | split)

theorem keeps_endTask {s0 : State} {s : State} {i status detail : Nat} (hkeep : Keeps s0 s) :
    Keeps s0 (endTask s i status detail) := by
  unfold endTask
  try dsimp only
  with_reducible repeat' (first
    | assumption | apply keeps_endTasks)

theorem keeps_poisonOuts {s0 : State} {s : State} {t : Task} (hkeep : Keeps s0 s) :
    Keeps s0 (poisonOuts s t) := by
  unfold poisonOuts
  try dsimp only
  with_reducible repeat' (first
    | intro _ | assumption | apply keeps_poisonWord | apply keeps_forEach)

theorem keeps_removePlan {s0 : State} {s : State} {k : Nat} (hkeep : Keeps s0 s) :
    Keeps s0 (removePlan s k) := by
  unfold removePlan
  try dsimp only
  with_reducible repeat' (first
    | intro _ | assumption | apply keeps_setF | apply keeps_setBit | apply keeps_modStr | apply keeps_ite
    | apply keeps_forEach | simp only [keeps_upd])

theorem keeps_discardCommit {s0 : State} {s : State} {k : Nat} (hkeep : Keeps s0 s) :
    Keeps s0 (discardCommit s k) := by
  unfold discardCommit
  try dsimp only
  with_reducible repeat' (first
    | intro _ | assumption | apply keeps_modStr | apply keeps_creditReturn | apply keeps_forEach | simp only [keeps_upd]
    | split)

theorem keeps_freeStream {s0 : State} {s : State} {k : Nat} (hkeep : Keeps s0 s) :
    Keeps s0 (freeStream s k) := by
  unfold freeStream
  try dsimp only
  with_reducible repeat' (first
    | intro _ | assumption | apply keeps_modCore | apply keeps_setStr | apply keeps_closeAccounts | apply keeps_removePlan
    | apply keeps_ite | apply keeps_forEach | simp only [keeps_upd])

theorem keeps_finishStream {s0 : State} {s : State} {k c : Nat} (hkeep : Keeps s0 s) :
    Keeps s0 (finishStream s k c) := by
  unfold finishStream
  try dsimp only
  with_reducible repeat' (first
    | intro _ | assumption | apply keeps_logPut | apply keeps_setTask | apply keeps_endTask | apply keeps_poisonOuts
    | apply keeps_freeStream | apply keeps_ite | simp only [keeps_upd] | split)

theorem keeps_settleOne {s0 : State} {s : State} {k : Nat} (hkeep : Keeps s0 s) :
    Keeps s0 (settleOne s k) := by
  unfold settleOne
  try dsimp only
  with_reducible repeat' (first
    | assumption | apply keeps_drain | apply keeps_discardCommit | apply keeps_finishStream | apply keeps_ite
    | simp only [keeps_upd] | split)

theorem keeps_settleReady {s0 : State} {s : State} (hkeep : Keeps s0 s) :
    Keeps s0 (settleReady s) := by
  unfold settleReady
  try dsimp only
  with_reducible repeat' (first
    | intro _ | assumption | apply keeps_endTask | apply keeps_forEach)

theorem keeps_settle {s0 : State} {s : State} (hkeep : Keeps s0 s) :
    Keeps s0 (settle s) := by
  unfold settle
  try dsimp only
  with_reducible repeat' (first
    | intro _ | assumption | apply keeps_settleOne | apply keeps_settleReady | apply keeps_forEach)

theorem keeps_cutHandler {s0 : State} {s : State} {m : Nat} (hkeep : Keeps s0 s) :
    Keeps s0 (cutHandler s m) := by
  unfold cutHandler
  try dsimp only
  with_reducible repeat' (first
    | intro _ | assumption | apply keeps_setF | apply keeps_modCore | apply keeps_consumeHead | simp only [keeps_upd]
    | split)

theorem keeps_endHandler {s0 : State} {s : State} {m : Nat} (hkeep : Keeps s0 s) :
    Keeps s0 (endHandler s m) := by
  unfold endHandler
  try dsimp only
  with_reducible repeat' (first
    | assumption | apply keeps_bump | apply keeps_cutHandler | simp only [keeps_upd] | split)

theorem keeps_handlerIll {s0 : State} {s : State} {m cause : Nat} (hkeep : Keeps s0 s) :
    Keeps s0 (handlerIll s m cause) := by
  unfold handlerIll
  try dsimp only
  with_reducible repeat' (first
    | assumption | apply keeps_setF | apply keeps_bump | apply keeps_logPut | apply keeps_endHandler | simp only [keeps_upd]
    | split)

theorem keeps_mainOnly {s0 : State} {w : Who} {s : State} {f : Nat → State} (hf : ∀ t0, Keeps s0 (f t0)) (hkeep : Keeps s0 s) :
    Keeps s0 (mainOnly w s f) := by
  unfold mainOnly
  try dsimp only
  with_reducible repeat' (first
    | assumption | apply keeps_unlessPaused | apply keeps_handlerIll | apply hf | simp only [keeps_upd] | split)

theorem keeps_handlerStep {s0 : State} {s : State} {m : Nat} (hkeep : Keeps s0 s) :
    Keeps s0 (handlerStep s m) := by
  unfold handlerStep
  try dsimp only
  with_reducible repeat' (first
    | intro _ | assumption | apply keeps_modCore | simp only [keeps_upd])

theorem keeps_pointGrant {s0 : State} {s : State} {point q : Nat} (hkeep : Keeps s0 s) :
    Keeps s0 (pointGrant s point q) := by
  unfold pointGrant
  try dsimp only
  with_reducible repeat' (first
    | intro _ | assumption | simp only [keeps_upd])

theorem keeps_installPlan {s0 : State} {s : State} {k : Nat} {plan : List Reservation} (hkeep : Keeps s0 s) :
    Keeps s0 (installPlan s k plan) := by
  unfold installPlan
  try dsimp only
  with_reducible repeat' (first
    | intro _ | assumption | apply keeps_setF | apply keeps_setBit | apply keeps_modStr | apply keeps_forEach
    | simp only [keeps_upd])

theorem keeps_noteCollision {s0 : State} {s : State} {t : Task} {k : Nat} {c : Collision} (hkeep : Keeps s0 s) :
    Keeps s0 (noteCollision s t k c) := by
  unfold noteCollision
  try dsimp only
  with_reducible repeat' (first
    | assumption | apply keeps_setF | apply keeps_bump | apply keeps_logPut | apply keeps_ite | simp only [keeps_upd])

theorem keeps_sliceWrite {s0 : State} {s : State} {m off : Nat} {bs : List Byte} (hkeep : Keeps s0 s) :
    Keeps s0 (sliceWrite s m off bs) := by
  unfold sliceWrite
  try dsimp only
  with_reducible repeat' (first
    | assumption | apply keeps_mergeWrite | apply keeps_ite | apply keepsL_ite | apply keepsL_fst)

theorem keeps_saveRegs {s0 : State} {t : Stream} {m off : Nat} {s : State} (hkeep : Keeps s0 s) :
    Keeps s0 (saveRegs t m off s) := by
  unfold saveRegs
  try dsimp only
  with_reducible repeat' (first
    | intro _ | assumption | apply keeps_drawBytes | apply keeps_sliceWrite | apply keeps_ite | apply keepsL_ite
    | apply keeps_forEach | apply keepsL_fst)

theorem keeps_saveCore {s0 : State} {t : Stream} {m off : Nat} {s : State} (hkeep : Keeps s0 s) :
    Keeps s0 (saveCore t m off s) := by
  unfold saveCore
  try dsimp only
  with_reducible repeat' (first
    | intro _ | assumption | apply keeps_sliceWrite | apply keeps_saveRegs | apply keeps_ite)

theorem keeps_saveCommit {s0 : State} {t : Stream} {m off : Nat} {s : State} (hkeep : Keeps s0 s) :
    Keeps s0 (saveCommit t m off s) := by
  unfold saveCommit
  try dsimp only
  with_reducible repeat' (first
    | assumption | apply keeps_sliceWrite)

theorem keeps_saveStream {s0 : State} {t : Stream} {m off : Nat} {s : State} (hkeep : Keeps s0 s) :
    Keeps s0 (saveStream t m off s) := by
  unfold saveStream
  try dsimp only
  with_reducible repeat' (first
    | intro _ | assumption | apply keeps_drawBytes | apply keeps_sliceWrite | apply keeps_saveCommit | apply keepsL_fst)

theorem keeps_saveImages {s0 : State} {t : Stream} {off : Nat} {s : State} (hkeep : Keeps s0 s) :
    Keeps s0 (saveImages t off s) := by
  unfold saveImages
  try dsimp only
  with_reducible repeat' (first
    | intro _ | assumption | apply keeps_saveCore | apply keeps_saveStream | apply keeps_forEach)

theorem keeps_waitStatic {s0 : State} {k : Nat} {p : Plan} {n : Nat} : ∀ {s : State}, Keeps s0 s → KeepsL s0 (waitStatic k p n
    s) := by
  induction n with
  | zero => intro s h; exact h
  | succ n ih =>
    intro s h
    unfold waitStatic
    try dsimp only
    with_reducible repeat' (first
    | intro _ | assumption | apply keeps_bump | apply keeps_modStr | apply keeps_runTo | apply ih | apply keepsL_fst
    | simp only [keeps_upd, keepsL_mk] | split)

theorem keeps_issueStr {s0 : State} {k gap u : Nat} {i : Instr} {plan : State → Stream → Plan} {eff : State → State} {s :
    State} (heff : ∀ t0, Keeps s0 t0 → Keeps s0 (eff t0)) (hkeep : Keeps s0 s) :
    Keeps s0 (issueStr k gap u i plan eff s) := by
  unfold issueStr
  try dsimp only
  with_reducible repeat' (first
    | intro _ | assumption | apply keeps_bump | apply keeps_modStr | apply keeps_runTo | apply keeps_skip
    | apply keeps_settle | apply keeps_waitStatic | apply heff | apply keeps_ite | apply keepsL_ite | apply keepsL_fst
    | simp only [keeps_upd])

theorem keeps_noteData {s0 : State} {k : Nat} {plan : State → Stream → Plan} {s : State} (hkeep : Keeps s0 s) :
    Keeps s0 (noteData k plan s) := by
  unfold noteData
  try dsimp only
  with_reducible repeat' (first
    | intro _ | assumption | apply keeps_modStr | simp only [keeps_upd])

theorem keeps_launch {s0 : State} {k : Nat} {op : FlightOp} {ranges : List Range} {data : List Nat} {s : State} (hkeep : Keeps
    s0 s) :
    Keeps s0 (launch k op ranges data s) := by
  unfold launch
  try dsimp only
  with_reducible repeat' (first
    | intro _ | assumption | apply keeps_modStr | simp only [keeps_upd])

theorem keeps_noteBefore {s0 : State} {k : Nat} {s : State} (hkeep : Keeps s0 s) :
    Keeps s0 (noteBefore k s) := by
  unfold noteBefore
  try dsimp only
  with_reducible repeat' (first
    | intro _ | assumption | apply keeps_modStr | simp only [keeps_upd])

theorem keeps_wloadStart {s0 : State} {k am ae fmt : Nat} {s : State} (hkeep : Keeps s0 s) :
    KeepsR s0 (wloadStart k am ae fmt s) := by
  unfold wloadStart
  try dsimp only
  with_reducible repeat' (first
    | intro _ | assumption | apply keeps_modWSet | apply keeps_launch | apply keeps_noteBefore | apply keepsR_snd
    | simp only [keeps_upd, keepsR_mk])

theorem keeps_wloadREff {s0 : State} {k am ae : Nat} {s : State} (hkeep : Keeps s0 s) :
    Keeps s0 (wloadREff k am ae s) := by
  unfold wloadREff
  try dsimp only
  with_reducible repeat' (first
    | intro _ | assumption | apply keeps_modStr | apply keeps_loadArrays | apply keeps_wloadStart | apply keepsR_snd
    | simp only [keeps_upd])

theorem keeps_execWloadR {s0 : State} {w : Who} {gap : Nat} {am ae : AReg} {s : State} (hkeep : Keeps s0 s) :
    KeepsO s0 (execWloadR w gap am ae s) := by
  unfold execWloadR
  try dsimp only
  with_reducible repeat' (first
    | intro _ | assumption | apply keeps_mainOnly | apply keeps_issueStr | apply keeps_wloadREff | apply keepsO_next)

theorem keeps_wloadSEff {s0 : State} {k am ae fmt : Nat} {s : State} (hkeep : Keeps s0 s) :
    Keeps s0 (wloadSEff k am ae fmt s) := by
  unfold wloadSEff
  try dsimp only
  with_reducible repeat' (first
    | intro _ | assumption | apply keeps_modStr | apply keeps_loadArrays | apply keeps_wloadStart | apply keepsR_snd
    | simp only [keeps_upd])

theorem keeps_execWloadS {s0 : State} {w : Who} {gap : Nat} {am ae : AReg} {fmt : Fin 4} {s : State} (hkeep : Keeps s0 s) :
    KeepsO s0 (execWloadS w gap am ae fmt s) := by
  unfold execWloadS
  try dsimp only
  with_reducible repeat' (first
    | intro _ | assumption | apply keeps_mainOnly | apply keeps_issueStr | apply keeps_wloadSEff | apply keepsO_next)

theorem keeps_passEff {s0 : State} {k : Nat} {mode : PassMode} {o : PassOpnds} {d2 : Tile} {ib : Int} {s : State} (hkeep :
    Keeps s0 s) :
    Keeps s0 (passEff k mode o d2 ib s) := by
  unfold passEff
  try dsimp only
  with_reducible repeat' (first
    | intro _ | assumption | apply keeps_modStr | apply keeps_swapArrays | apply keeps_launch | apply keeps_noteBefore
    | apply keeps_ite | simp only [keeps_upd])

theorem keeps_issuePass {s0 : State} {mode : PassMode} {k gap : Nat} {i : Instr} {o : PassOpnds} {d2 : Option Tile} {sib :
    Option SReg} {s : State} (hkeep : Keeps s0 s) :
    Keeps s0 (issuePass mode k gap i o d2 sib s) := by
  unfold issuePass
  try dsimp only
  with_reducible repeat' (first
    | intro _ | assumption | apply keeps_issueStr | apply keeps_passEff)

theorem keeps_execMpass {s0 : State} {w : Who} {gap : Nat} {o : PassOpnds} {s : State} (hkeep : Keeps s0 s) :
    KeepsO s0 (execMpass w gap o s) := by
  unfold execMpass
  try dsimp only
  with_reducible repeat' (first
    | intro _ | assumption | apply keeps_mainOnly | apply keeps_issuePass | apply keepsO_next)

theorem keeps_execMpasst {s0 : State} {w : Who} {gap : Nat} {o : PassOpnds} {s : State} (hkeep : Keeps s0 s) :
    KeepsO s0 (execMpasst w gap o s) := by
  unfold execMpasst
  try dsimp only
  with_reducible repeat' (first
    | intro _ | assumption | apply keeps_mainOnly | apply keeps_issuePass | apply keepsO_next)

theorem keeps_execMdist {s0 : State} {w : Who} {gap : Nat} {o : PassOpnds} {s : State} (hkeep : Keeps s0 s) :
    KeepsO s0 (execMdist w gap o s) := by
  unfold execMdist
  try dsimp only
  with_reducible repeat' (first
    | intro _ | assumption | apply keeps_mainOnly | apply keeps_issuePass | apply keepsO_next)

theorem keeps_execMsqd {s0 : State} {w : Who} {gap : Nat} {o : PassOpnds} {s : State} (hkeep : Keeps s0 s) :
    KeepsO s0 (execMsqd w gap o s) := by
  unfold execMsqd
  try dsimp only
  with_reducible repeat' (first
    | intro _ | assumption | apply keeps_mainOnly | apply keeps_issuePass | apply keepsO_next)

theorem keeps_execMcmpx {s0 : State} {w : Who} {gap : Nat} {o : CmpOpnds} {s : State} (hkeep : Keeps s0 s) :
    KeepsO s0 (execMcmpx w gap o s) := by
  unfold execMcmpx
  try dsimp only
  with_reducible repeat' (first
    | intro _ | assumption | apply keeps_mainOnly | apply keeps_issuePass | apply keepsO_next)

theorem keeps_execMcmpn {s0 : State} {w : Who} {gap : Nat} {o : CmpOpnds} {s : State} (hkeep : Keeps s0 s) :
    KeepsO s0 (execMcmpn w gap o s) := by
  unfold execMcmpn
  try dsimp only
  with_reducible repeat' (first
    | intro _ | assumption | apply keeps_mainOnly | apply keeps_issuePass | apply keepsO_next)

theorem keeps_moveEff {s0 : State} {k : Nat} {o : MoveOpnds} {store : Bool} {pack : Nat} {s : State} (hkeep : Keeps s0 s) :
    Keeps s0 (moveEff k o store pack s) := by
  unfold moveEff
  try dsimp only
  with_reducible repeat' (first
    | intro _ | assumption | apply keeps_modStr | apply keeps_launch | apply keeps_ite | simp only [keeps_upd])

theorem keeps_execTload {s0 : State} {w : Who} {gap : Nat} {o : MoveOpnds} {s : State} (hkeep : Keeps s0 s) :
    KeepsO s0 (execTload w gap o s) := by
  unfold execTload
  try dsimp only
  with_reducible repeat' (first
    | intro _ | assumption | apply keeps_mainOnly | apply keeps_issueStr | apply keeps_moveEff | apply keepsO_next)

theorem keeps_execTstore {s0 : State} {w : Who} {gap : Nat} {o : MoveOpnds} {pack : Fin 4} {s : State} (hkeep : Keeps s0 s) :
    KeepsO s0 (execTstore w gap o pack s) := by
  unfold execTstore
  try dsimp only
  with_reducible repeat' (first
    | intro _ | assumption | apply keeps_mainOnly | apply keeps_issueStr | apply keeps_moveEff | apply keepsO_next)

theorem keeps_elemEff {s0 : State} {k : Nat} {op : FlightOp} {ranges : List Range} {data : List Nat} {s : State} (hkeep : Keeps
    s0 s) :
    Keeps s0 (elemEff k op ranges data s) := by
  unfold elemEff
  try dsimp only
  with_reducible repeat' (first
    | intro _ | assumption | apply keeps_modStr | apply keeps_launch | simp only [keeps_upd])

theorem keeps_eprogEff {s0 : State} {k : Nat} {o : EprogOpnds} {s : State} (hkeep : Keeps s0 s) :
    Keeps s0 (eprogEff k o s) := by
  unfold eprogEff
  try dsimp only
  with_reducible repeat' (first
    | intro _ | assumption | apply keeps_setF | apply keeps_setBit | apply keeps_elemEff | apply keeps_forEach)

theorem keeps_blankTables {s0 : State} {s : State} {m : Nat} (hkeep : Keeps s0 s) :
    Keeps s0 (blankTables s m) := by
  unfold blankTables
  try dsimp only
  with_reducible repeat' (first
    | intro _ | assumption | apply keeps_setF | apply keeps_modCore | apply keeps_forEach | simp only [keeps_upd])

theorem keeps_execEprog {s0 : State} {w : Who} {gap : Nat} {o : EprogOpnds} {s : State} (hkeep : Keeps s0 s) :
    KeepsO s0 (execEprog w gap o s) := by
  unfold execEprog
  try dsimp only
  with_reducible repeat' (first
    | intro _ | assumption | apply keeps_mainOnly | apply keeps_issueStr | apply keeps_eprogEff | apply keepsO_next)

theorem keeps_execEshufX {s0 : State} {w : Who} {gap : Nat} {d sr : Tile} {m : Fin 128} {s : State} (hkeep : Keeps s0 s) :
    KeepsO s0 (execEshufX w gap d sr m s) := by
  unfold execEshufX
  try dsimp only
  with_reducible repeat' (first
    | intro _ | assumption | apply keeps_mainOnly | apply keeps_issueStr | apply keeps_elemEff | apply keepsO_next)

theorem keeps_execEshufB {s0 : State} {w : Who} {gap : Nat} {d sr : Tile} {c : Fin 64} {s : State} (hkeep : Keeps s0 s) :
    KeepsO s0 (execEshufB w gap d sr c s) := by
  unfold execEshufB
  try dsimp only
  with_reducible repeat' (first
    | intro _ | assumption | apply keeps_mainOnly | apply keeps_issueStr | apply keeps_elemEff | apply keepsO_next)

theorem keeps_execEsum {s0 : State} {w : Who} {gap : Nat} {d sr : Tile} {g : Fin 8} {s : State} (hkeep : Keeps s0 s) :
    KeepsO s0 (execEsum w gap d sr g s) := by
  unfold execEsum
  try dsimp only
  with_reducible repeat' (first
    | intro _ | assumption | apply keeps_mainOnly | apply keeps_issueStr | apply keeps_elemEff | apply keepsO_next)

theorem keeps_execEmax {s0 : State} {w : Who} {gap : Nat} {d sr : Tile} {g : Fin 8} {d2 : Option Tile} {s : State} (hkeep :
    Keeps s0 s) :
    KeepsO s0 (execEmax w gap d sr g d2 s) := by
  unfold execEmax
  try dsimp only
  with_reducible repeat' (first
    | intro _ | assumption | apply keeps_mainOnly | apply keeps_issueStr | apply keeps_elemEff | apply keepsO_next)

theorem keeps_execEbcast {s0 : State} {w : Who} {gap : Nat} {d sr : Tile} {v : Fin 64} {col : Bool} {op : Fin 8} {kk : Fin 64}
    {s : State} (hkeep : Keeps s0 s) :
    KeepsO s0 (execEbcast w gap d sr v col op kk s) := by
  unfold execEbcast
  try dsimp only
  with_reducible repeat' (first
    | intro _ | assumption | apply keeps_mainOnly | apply keeps_issueStr | apply keeps_elemEff | apply keepsO_next)

theorem keeps_execEquant {s0 : State} {w : Who} {gap : Nat} {o : EquantOpnds} {s : State} (hkeep : Keeps s0 s) :
    KeepsO s0 (execEquant w gap o s) := by
  unfold execEquant
  try dsimp only
  with_reducible repeat' (first
    | intro _ | assumption | apply keeps_mainOnly | apply keeps_issueStr | apply keeps_elemEff | apply keepsO_next)

theorem keeps_tcfgEff {s0 : State} {k : Nat} {x : Tile} {w : Width} {s : State} (hkeep : Keeps s0 s) :
    Keeps s0 (tcfgEff k x w s) := by
  unfold tcfgEff
  try dsimp only
  with_reducible repeat' (first
    | intro _ | assumption | apply keeps_modStr | apply keeps_setRegData | apply keeps_forEach | apply keeps_foldl
    | apply keepsL_foldl | apply keepsR_foldl | simp only [keepsL_mk, keepsR_mk])

theorem keeps_execTcfg {s0 : State} {w : Who} {gap : Nat} {x : Tile} {wd : Fin 4} {s : State} (hkeep : Keeps s0 s) :
    KeepsO s0 (execTcfg w gap x wd s) := by
  unfold execTcfg
  try dsimp only
  with_reducible repeat' (first
    | intro _ | assumption | apply keeps_mainOnly | apply keeps_issueStr | apply keeps_tcfgEff | apply keepsO_next)

theorem keeps_trelEff {s0 : State} {k : Nat} {x : Tile} {s : State} (hkeep : Keeps s0 s) :
    Keeps s0 (trelEff k x s) := by
  unfold trelEff
  try dsimp only
  with_reducible repeat' (first
    | intro _ | assumption | apply keeps_modStr | apply keeps_foldl | apply keepsL_foldl | apply keepsR_foldl
    | simp only [keeps_upd, keepsL_mk, keepsR_mk])

theorem keeps_execTrel {s0 : State} {w : Who} {gap : Nat} {x : Tile} {s : State} (hkeep : Keeps s0 s) :
    KeepsO s0 (execTrel w gap x s) := by
  unfold execTrel
  try dsimp only
  with_reducible repeat' (first
    | intro _ | assumption | apply keeps_mainOnly | apply keeps_issueStr | apply keeps_trelEff | apply keepsO_next)

theorem keeps_execSset {s0 : State} {w : Who} {gap : Nat} {sd : SReg} {v : BitVec 32} {s : State} (hkeep : Keeps s0 s) :
    KeepsO s0 (execSset w gap sd v s) := by
  unfold execSset
  try dsimp only
  with_reducible repeat' (first
    | intro _ | assumption | apply keeps_modStr | apply keeps_mainOnly | apply keeps_issueStr | apply keepsO_next)

theorem keeps_execSadd {s0 : State} {w : Who} {gap : Nat} {sd sa : SReg} {b : SOpnd} {s : State} (hkeep : Keeps s0 s) :
    KeepsO s0 (execSadd w gap sd sa b s) := by
  unfold execSadd
  try dsimp only
  with_reducible repeat' (first
    | intro _ | assumption | apply keeps_modStr | apply keeps_mainOnly | apply keeps_issueStr | apply keepsO_next)

theorem keeps_execAset {s0 : State} {w : Who} {gap : Nat} {ad : AReg} {v : BitVec 52} {s : State} (hkeep : Keeps s0 s) :
    KeepsO s0 (execAset w gap ad v s) := by
  unfold execAset
  try dsimp only
  with_reducible repeat' (first
    | intro _ | assumption | apply keeps_modStr | apply keeps_mainOnly | apply keeps_issueStr | apply keepsO_next)

theorem keeps_execAadd {s0 : State} {w : Who} {gap : Nat} {ad aa : AReg} {b : SOpnd} {s : State} (hkeep : Keeps s0 s) :
    KeepsO s0 (execAadd w gap ad aa b s) := by
  unfold execAadd
  try dsimp only
  with_reducible repeat' (first
    | intro _ | assumption | apply keeps_modStr | apply keeps_mainOnly | apply keeps_issueStr | apply keepsO_next)

theorem keeps_loopHandler {s0 : State} {m sc body : Nat} {s : State} (hkeep : Keeps s0 s) :
    Keeps s0 (loopHandler m sc body s) := by
  unfold loopHandler
  try dsimp only
  with_reducible repeat' (first
    | intro _ | assumption | apply keeps_modCore | apply keeps_ite | simp only [keeps_upd])

theorem keeps_endloopHandler {s0 : State} {m : Nat} {s : State} (hkeep : Keeps s0 s) :
    Keeps s0 (endloopHandler m s) := by
  unfold endloopHandler
  try dsimp only
  with_reducible repeat' (first
    | intro _ | assumption | apply keeps_modCore | apply keeps_ite | simp only [keeps_upd] | split)

theorem keeps_execLoop {s0 : State} {w : Who} {gap : Nat} {sc : SReg} {body : Nat} {s : State} (hkeep : Keeps s0 s) :
    KeepsO s0 (execLoop w gap sc body s) := by
  unfold execLoop
  try dsimp only
  with_reducible repeat' (first
    | intro _ | assumption | apply keeps_unlessPaused | apply keeps_modStr | apply keeps_handlerIll | apply keeps_issueStr
    | apply keeps_loopHandler | apply keeps_ite | apply keepsO_next | simp only [keeps_upd] | split)

theorem keeps_execEndloop {s0 : State} {w : Who} {gap : Nat} {s : State} (hkeep : Keeps s0 s) :
    KeepsO s0 (execEndloop w gap s) := by
  unfold execEndloop
  try dsimp only
  with_reducible repeat' (first
    | intro _ | assumption | apply keeps_unlessPaused | apply keeps_modStr | apply keeps_handlerIll | apply keeps_issueStr
    | apply keeps_endloopHandler | apply keeps_ite | apply keepsO_next | simp only [keeps_upd] | split)

theorem keeps_beginWait {s0 : State} {k : Nat} {w : Wait} {i : Option Instr} {s : State} (hkeep : Keeps s0 s) :
    Keeps s0 (beginWait k w i s) := by
  unfold beginWait
  try dsimp only
  with_reducible repeat' (first
    | intro _ | assumption | apply keeps_modStr | simp only [keeps_upd])

theorem keeps_staticPart {s0 : State} {k : Nat} {s : State} (hkeep : Keeps s0 s) :
    Keeps s0 (staticPart k s) := by
  unfold staticPart
  try dsimp only
  with_reducible repeat' (first
    | assumption | apply keeps_runTo | simp only [keeps_upd] | split)

theorem keeps_fenceEff {s0 : State} {k : Nat} {x : Bool} {i : Instr} {s : State} (hkeep : Keeps s0 s) :
    Keeps s0 (fenceEff k x i s) := by
  unfold fenceEff
  try dsimp only
  with_reducible repeat' (first
    | intro _ | assumption | apply keeps_modStr | apply keeps_beginWait | apply keeps_staticPart | apply keeps_ite
    | simp only [keeps_upd])

theorem keeps_execFenceL {s0 : State} {w : Who} {gap : Nat} {s : State} (hkeep : Keeps s0 s) :
    KeepsO s0 (execFenceL w gap s) := by
  unfold execFenceL
  try dsimp only
  with_reducible repeat' (first
    | intro _ | assumption | apply keeps_mainOnly | apply keeps_issueStr | apply keeps_fenceEff | apply keepsO_next)

theorem keeps_execFenceX {s0 : State} {w : Who} {gap : Nat} {s : State} (hkeep : Keeps s0 s) :
    KeepsO s0 (execFenceX w gap s) := by
  unfold execFenceX
  try dsimp only
  with_reducible repeat' (first
    | intro _ | assumption | apply keeps_mainOnly | apply keeps_issueStr | apply keeps_fenceEff | apply keepsO_next)

theorem keeps_commitEnd {s0 : State} {k : Nat} {s : State} (hkeep : Keeps s0 s) :
    Keeps s0 (commitEnd k s) := by
  unfold commitEnd
  try dsimp only
  with_reducible repeat' (first
    | intro _ | assumption | apply keeps_modStr | apply keeps_countWait | apply keeps_ite | simp only [keeps_upd])

theorem keeps_commitStep {s0 : State} {k : Nat} {s : State} (hkeep : Keeps s0 s) :
    Keeps s0 (commitStep k s) := by
  unfold commitStep
  try dsimp only
  with_reducible repeat' (first
    | intro _ | assumption | apply keeps_modStr | apply keeps_countWait | apply keeps_resumeWait | apply keeps_commitEnd
    | apply keeps_ite | simp only [keeps_upd] | split)

theorem keeps_progress {s0 : State} {s : State} (hkeep : Keeps s0 s) :
    Keeps s0 (progress s) := by
  unfold progress
  try dsimp only
  with_reducible repeat' (first
    | intro _ | assumption | apply keeps_settle | apply keeps_commitStep | apply keeps_ite | apply keeps_forEach)

theorem keeps_commitEff {s0 : State} {k : Nat} {i : Instr} {s : State} (hkeep : Keeps s0 s) :
    Keeps s0 (commitEff k i s) := by
  unfold commitEff
  try dsimp only
  with_reducible repeat' (first
    | assumption | apply keeps_beginWait | apply keeps_staticPart | apply keeps_progress)

theorem keeps_execCommit {s0 : State} {w : Who} {gap : Nat} {s : State} (hkeep : Keeps s0 s) :
    KeepsO s0 (execCommit w gap s) := by
  unfold execCommit
  try dsimp only
  with_reducible repeat' (first
    | intro _ | assumption | apply keeps_mainOnly | apply keeps_issueStr | apply keeps_commitEff | apply keepsO_next)

theorem keeps_execProgramEnd {s0 : State} {k : Fin 16} {s : State} (hkeep : Keeps s0 s) :
    KeepsO s0 (execProgramEnd k s) := by
  unfold execProgramEnd
  try dsimp only
  with_reducible repeat' (first
    | assumption | apply keeps_skip | apply keeps_settle | apply keeps_ite | apply keepsO_next)

theorem keeps_abandon {s0 : State} {k : Nat} {gone : List Flight} {s : State} (hkeep : Keeps s0 s) :
    Keeps s0 (abandon k gone s) := by
  unfold abandon
  try dsimp only
  with_reducible repeat' (first
    | intro _ | assumption | apply keeps_modStr | apply keeps_setArray | apply keeps_forEach | simp only [keeps_upd] | split)

theorem keeps_requestPreempt {s0 : State} {k : Nat} {s : State} (hkeep : Keeps s0 s) :
    Keeps s0 (requestPreempt k s) := by
  unfold requestPreempt
  try dsimp only
  with_reducible repeat' (first
    | intro _ | assumption | apply keeps_modStr | apply keeps_drain | apply keeps_countWait | apply keeps_countHold
    | apply keeps_withdraw | apply keeps_abandon | apply keeps_ite | simp only [keeps_upd] | split)

theorem keeps_beginPreempt {s0 : State} {k : Nat} {by_ : Option Nat} {s : State} (hkeep : Keeps s0 s) :
    Keeps s0 (beginPreempt k by_ s) := by
  unfold beginPreempt
  try dsimp only
  with_reducible repeat' (first
    | assumption | apply keeps_setTask | apply keeps_requestPreempt | simp only [keeps_upd] | split)

theorem keeps_execYield {s0 : State} {w : Who} {gap : Nat} {s : State} (hkeep : Keeps s0 s) :
    KeepsO s0 (execYield w gap s) := by
  unfold execYield
  try dsimp only
  with_reducible repeat' (first
    | intro _ | assumption | apply keeps_mainOnly | apply keeps_issueStr | apply keeps_beginPreempt | apply keeps_ite
    | apply keepsO_next)

end Sys2Proof.Machine
end

