-- ==== Sys2Proof/Laws/KeepsOperations.lean ====
section
/-! SUPPORT. What the operations and the meanings of Machine/Memory, Runs, Sharing, Sync, Dynamic, Session keep: one lemma each (see Laws/Keeps.lean). -/

namespace Sys2Proof.Machine

open Sys2Proof

set_option linter.all false

theorem keeps_noteDramUe {s0 : State} {s : State} {d by_ : Nat} (hkeep : Keeps s0 s) :
    Keeps s0 (noteDramUe s d by_) := by
  unfold noteDramUe
  try dsimp only
  with_reducible repeat' (first
    | assumption | apply keeps_setF | apply keeps_bump | apply keeps_logPut | apply keeps_drawBytes | apply keeps_reportUe
    | apply keeps_ite | apply keepsL_ite | apply keepsL_fst | simp only [keeps_upd])

theorem keeps_noteDramCe {s0 : State} {s : State} {d : Nat} (hkeep : Keeps s0 s) :
    Keeps s0 (noteDramCe s d) := by
  unfold noteDramCe
  try dsimp only
  with_reducible repeat' (first
    | assumption | apply keeps_bump | apply keeps_ite | simp only [keeps_upd])

theorem keeps_dramAccess {s0 : State} {s : State} {d n : Nat} (hkeep : Keeps s0 s) :
    KeepsL s0 (dramAccess s d n) := by
  unfold dramAccess
  try dsimp only
  with_reducible repeat' (first
    | intro _ | assumption | apply keeps_bump | apply keeps_noteDramUe | apply keeps_noteDramCe | apply keeps_ite
    | apply keepsL_ite | apply keeps_forEach | apply keepsL_fst | simp only [keepsL_mk])

theorem keeps_mendBlock {s0 s : State} {d : Nat} (h : Keeps s0 s) : Keeps s0 (mendBlock s d) :=
  keeps_of h rfl rfl id id id id id id (amErase_wf _ _ _)

theorem keeps_dramStore {s0 : State} {s : State} {d : Nat} {bs : List Byte} (hkeep : Keeps s0 s) :
    KeepsL s0 (dramStore s d bs) := by
  unfold dramStore
  try dsimp only
  with_reducible repeat' (first
    | intro _ | assumption | apply keeps_dramWrite | apply keeps_bump | apply keeps_noteDramUe | apply keeps_mendBlock
    | apply keeps_ite | apply keepsL_ite | apply keeps_foldl | apply keepsL_foldl | apply keepsR_foldl | apply keepsL_fst
    | simp only [keepsL_mk, keepsR_mk])

theorem keeps_orgAccess {s0 : State} {s : State} {a n : Nat} (hkeep : Keeps s0 s) :
    KeepsL s0 (orgAccess s a n) := by
  unfold orgAccess
  try dsimp only
  with_reducible repeat' (first
    | assumption | apply keeps_noteRead | apply keeps_ite | apply keepsL_ite | apply keepsL_fst | simp only [keepsL_mk])

theorem keeps_orgStore {s0 : State} {s : State} {a : Nat} {bs : List Byte} (hkeep : Keeps s0 s) :
    KeepsL s0 (orgStore s a bs) := by
  unfold orgStore
  try dsimp only
  with_reducible repeat' (first
    | assumption | apply keeps_mergeWrite | apply keeps_ite | apply keepsL_ite | apply keepsL_fst | simp only [keepsL_mk])

theorem keeps_walkFrom {s0 : State} {ctx va : Nat} {write : Bool} {n : Nat} : ∀ {lvl tab : Nat} {s : State}, Keeps s0 s →
    KeepsL s0 (walkFrom s ctx va write n lvl tab) := by
  induction n with
  | zero => intro lvl tab s h; exact h
  | succ n ih =>
    intro lvl tab s h
    unfold walkFrom
    try dsimp only
    with_reducible repeat' (first
    | intro _ | assumption | apply keeps_dramAccess | apply ih | apply keeps_ite | apply keepsL_ite | apply keepsL_fst
    | simp only [keepsL_mk] | split)

theorem keeps_walk {s0 : State} {s : State} {ctx va : Nat} {write : Bool} (hkeep : Keeps s0 s) :
    KeepsL s0 (walk s ctx va write) := by
  unfold walk
  try dsimp only
  with_reducible repeat' (first
    | assumption | apply keeps_setF | apply keeps_bump | apply keeps_logPut | apply keeps_walkFrom | apply keeps_ite
    | apply keepsL_ite | apply keepsL_fst | simp only [keeps_upd, keepsL_mk] | split)

theorem keeps_translate {s0 : State} {s : State} {ctx va : Nat} {write sla : Bool} (hkeep : Keeps s0 s) :
    KeepsL s0 (translate s ctx va write sla) := by
  unfold translate
  try dsimp only
  with_reducible repeat' (first
    | assumption | apply keeps_walk | apply keeps_ite | apply keepsL_ite | apply keepsL_fst
    | simp only [keeps_upd, keepsL_mk] | split)

theorem keeps_atsHold {s0 : State} {s : State} {ctx a : Nat} (hkeep : Keeps s0 s) :
    Keeps s0 (atsHold s ctx a) := by
  unfold atsHold
  try dsimp only
  with_reducible repeat' (first
    | intro _ | assumption | apply keeps_ite | simp only [keeps_upd])

theorem keeps_locate {s0 : State} {s : State} {ctx a : Nat} {write sla : Bool} (hkeep : Keeps s0 s) :
    KeepsL s0 (locate s ctx a write sla) := by
  unfold locate
  try dsimp only
  with_reducible repeat' (first
    | assumption | apply keeps_translate | apply keeps_atsHold | apply keeps_ite | apply keepsL_ite | apply keepsL_fst
    | simp only [keeps_upd, keepsL_mk] | split)

theorem keeps_readLoc {s0 : State} {s : State} {ctx : Option Nat} {l : Loc} {n hostSt : Nat} (hkeep : Keeps s0 s) :
    KeepsL s0 (readLoc s ctx l n hostSt) := by
  unfold readLoc
  try dsimp only
  with_reducible repeat' (first
    | assumption | apply keeps_sendUp | apply keeps_dramAccess | apply keeps_orgAccess | apply keeps_ite | apply keepsL_ite
    | apply keepsL_fst | simp only [keeps_upd, keepsL_mk] | split)

theorem keeps_writeLoc {s0 : State} {s : State} {ctx : Option Nat} {l : Loc} {bs : List Byte} (hkeep : Keeps s0 s) :
    KeepsL s0 (writeLoc s ctx l bs) := by
  unfold writeLoc
  try dsimp only
  with_reducible repeat' (first
    | assumption | apply keeps_toHost | apply keeps_dramStore | apply keeps_orgStore | apply keeps_ite | apply keepsL_ite
    | apply keepsL_fst | simp only [keeps_upd, keepsL_mk] | split)

theorem keeps_copyRun {s0 : State} {ctx hostSt : Nat} {l : List (Nat × Nat × Nat)} : ∀ {n : Nat} {s : State}, Keeps s0 s →
    KeepsL s0 (copyRun ctx hostSt l n s) := by
  induction l with
  | nil => intro n s h; exact h
  | cons x l ih =>
    intro n s h
    unfold copyRun
    try dsimp only
    with_reducible repeat' (first
    | intro _ | assumption | apply keeps_locate | apply keeps_readLoc | apply keeps_writeLoc | apply ih | apply keeps_ite
    | apply keepsL_ite | apply keepsL_fst | simp only [keeps_upd, keepsL_mk] | split)

theorem keeps_deliverFault {s0 : State} {s : State} (hkeep : Keeps s0 s) :
    Keeps s0 (deliverFault s) := by
  unfold deliverFault
  try dsimp only
  with_reducible repeat' (first
    | intro _ | assumption | apply keeps_setF | apply keeps_logPut | apply keeps_irqSource | apply keeps_toHost
    | apply keeps_ite | simp only [keeps_upd] | split)

theorem keeps_raiseFault {s0 : State} {s : State} {f : PageFault} {who : FaultBy} (hkeep : Keeps s0 s) :
    Keeps s0 (raiseFault s f who) := by
  unfold raiseFault
  try dsimp only
  with_reducible repeat' (first
    | intro _ | assumption | apply keeps_setF | apply keeps_bump | apply keeps_deliverFault | apply keeps_ite
    | simp only [keeps_upd])

theorem keeps_outBytes {s0 : State} {s : State} {d : Desc} {bs : List Byte} (hkeep : Keeps s0 s) :
    KeepsL s0 (outBytes s d bs) := by
  unfold outBytes
  try dsimp only
  with_reducible repeat' (first
    | assumption | apply keeps_drawBytes | apply keeps_ite | apply keepsL_ite | apply keepsL_fst | simp only [keepsL_mk])

theorem keeps_finishRun {s0 : State} {s : State} {ch : Nat} {d : Desc} (hkeep : Keeps s0 s) :
    Keeps s0 (finishRun s ch d) := by
  unfold finishRun
  try dsimp only
  with_reducible repeat' (first
    | assumption | apply keeps_bump | apply keeps_setChan | apply keeps_ite | simp only [keeps_upd])

theorem keeps_failRun {s0 : State} {s : State} {ch status space : Nat} (hkeep : Keeps s0 s) :
    Keeps s0 (failRun s ch status space) := by
  unfold failRun
  try dsimp only
  with_reducible repeat' (first
    | intro _ | assumption | apply keeps_modChan | simp only [keeps_upd])

theorem keeps_runToPeer {s0 : State} {s : State} {ch : Nat} {d : Desc} (hkeep : Keeps s0 s) :
    Keeps s0 (runToPeer s ch d) := by
  unfold runToPeer
  try dsimp only
  with_reducible repeat' (first
    | assumption | apply keeps_setChan | apply keeps_peerWrite | apply keeps_outBytes | apply keepsL_fst
    | simp only [keeps_upd])

theorem keeps_chanStale {s0 : State} {s : State} {ch did : Nat} (hkeep : Keeps s0 s) :
    Keeps s0 (chanStale s ch did) := by
  unfold chanStale
  try dsimp only
  with_reducible repeat' (first
    | assumption | apply keeps_bump | apply keeps_logEvent)

theorem keeps_chanAnswered {s0 : State} {s : State} {ch did status : Nat} (hkeep : Keeps s0 s) :
    Keeps s0 (chanAnswered s ch did status) := by
  unfold chanAnswered
  try dsimp only
  with_reducible repeat' (first
    | assumption | apply keeps_finishRun | apply keeps_failRun | apply keeps_runToPeer | apply keeps_chanStale
    | apply keeps_ite | simp only [keeps_upd] | split)

theorem keeps_faultChan {s0 : State} {s : State} {ch base size va : Nat} {write : Bool} (hkeep : Keeps s0 s) :
    Keeps s0 (faultChan s ch base size va write) := by
  unfold faultChan
  try dsimp only
  with_reducible repeat' (first
    | assumption | apply keeps_setChan | apply keeps_raiseFault | apply keeps_ite | simp only [keeps_upd])

theorem keeps_grantChan {s0 : State} {s : State} {ch : Nat} (hkeep : Keeps s0 s) :
    Keeps s0 (grantChan s ch) := by
  unfold grantChan
  try dsimp only
  with_reducible repeat' (first
    | intro _ | assumption | apply keeps_pointGrant | simp only [keeps_upd])

theorem keeps_setShare {s0 : State} {s : State} {op core : Nat} {st : ShareState} (hkeep : Keeps s0 s) :
    Keeps s0 (setShare s op core st) := by
  unfold setShare
  try dsimp only
  with_reducible repeat' (first
    | intro _ | assumption | apply keeps_setOp | apply keeps_ite | simp only [keeps_upd] | split)

theorem keeps_releaseRanges {s0 : State} {s : State} {op : Nat} (hkeep : Keeps s0 s) :
    Keeps s0 (releaseRanges s op) := by
  unfold releaseRanges
  try dsimp only
  with_reducible repeat' (first
    | intro _ | assumption | apply keeps_modStr | apply keeps_ite | apply keeps_foldl | apply keepsL_foldl
    | apply keepsR_foldl | simp only [keeps_upd, keepsL_mk, keepsR_mk] | split)

theorem keeps_lateSaved {s0 : State} {s : State} {id c : Nat} (hkeep : Keeps s0 s) :
    Keeps s0 (lateSaved s id c) := by
  unfold lateSaved
  try dsimp only
  with_reducible repeat' (first
    | assumption | apply keeps_setTask | apply keeps_ite | simp only [keeps_upd] | split)

theorem keeps_cplOverflow {s0 : State} {s : State} {d : DynOp} {w : Nat} (hkeep : Keeps s0 s) :
    Keeps s0 (cplOverflow s d w) := by
  unfold cplOverflow
  try dsimp only
  with_reducible repeat' (first
    | assumption | apply keeps_logPut | apply keeps_stopLate | apply keeps_lateSaved | apply keeps_ite
    | simp only [keeps_upd] | split)

theorem keeps_retireOp {s0 : State} {s : State} {op : Nat} (hkeep : Keeps s0 s) :
    Keeps s0 (retireOp s op) := by
  unfold retireOp
  try dsimp only
  with_reducible repeat' (first
    | intro _ | assumption | apply keeps_dropOp | apply keeps_releaseRanges | apply keeps_ite | simp only [keeps_upd]
    | split)

theorem keeps_countSop {s0 : State} {s : State} {m status value : Nat} (hkeep : Keeps s0 s) :
    Keeps s0 (countSop s m status value) := by
  unfold countSop
  try dsimp only
  with_reducible repeat' (first
    | assumption | apply keeps_setF | apply keeps_bump | apply keeps_ite)

theorem keeps_recordHeld {s0 : State} {s : State} {d : DynOp} {op w v : Nat} {failed : Bool} (hkeep : Keeps s0 s) :
    KeepsM s0 (recordHeld s d op w v failed) := by
  unfold recordHeld
  try dsimp only
  with_reducible repeat' (first
    | assumption | apply keeps_modStr | apply keeps_setTask | apply keeps_saveCommit | apply keeps_ite | apply keepsM_ite
    | simp only [keeps_upd, keepsM_some, keepsM_none] | exact True.intro | split | refine keepsM_get ?_ ‹_ = some _›)

theorem keeps_logFailed {s0 : State} {s : State} {d : DynOp} {x : Share} {status space : Nat} (hkeep : Keeps s0 s) :
    Keeps s0 (logFailed s d x status space) := by
  unfold logFailed
  try dsimp only
  with_reducible repeat' (first
    | assumption | apply keeps_logPut | apply keeps_ite | simp only [keeps_upd] | split)

theorem keeps_completeShare {s0 : State} {s : State} {op core status bytes space : Nat} (hkeep : Keeps s0 s) :
    Keeps s0 (completeShare s op core status bytes space) := by
  unfold completeShare
  try dsimp only
  with_reducible repeat' (first
    | assumption | apply keeps_completeWord | apply keeps_setShare | apply keeps_cplOverflow | apply keeps_retireOp
    | apply keeps_countSop | apply keeps_recordHeld | apply keeps_logFailed | apply keeps_ite | apply keepsL_ite
    | apply keepsL_fst | simp only [keeps_upd] | split | refine keepsM_get ?_ ‹_ = some _›)

theorem keeps_readRows {s0 : State} {s : State} {x : Xfer} (hkeep : Keeps s0 s) :
    KeepsL s0 (readRows s x) := by
  unfold readRows
  try dsimp only
  with_reducible repeat' (first
    | intro _ | assumption | apply keeps_orgAccess | apply keeps_ite | apply keepsL_ite | apply keeps_foldl
    | apply keepsL_foldl | apply keepsR_foldl | apply keepsL_fst | simp only [keeps_upd, keepsL_mk, keepsR_mk] | split)

theorem keeps_failShare {s0 : State} {s : State} {op core : Nat} {so : ShareOp} {status : Nat} (hkeep : Keeps s0 s) :
    Keeps s0 (failShare s op core so status) := by
  unfold failShare
  try dsimp only
  with_reducible repeat' (first
    | assumption | apply keeps_answer | apply keeps_completeShare | simp only [keeps_upd] | split)

theorem keeps_startShare {s0 : State} {s : State} {op : Nat} {x : Share} (hkeep : Keeps s0 s) :
    Keeps s0 (startShare s op x) := by
  unfold startShare
  try dsimp only
  with_reducible repeat' (first
    | intro _ | assumption | apply keeps_peerRead | apply keeps_peerWrite | apply keeps_peerFe | apply keeps_peerMsg
    | apply keeps_stageMsg | apply keeps_setShare | apply keeps_releaseRanges | apply keeps_completeShare
    | apply keeps_readRows | apply keeps_failShare | apply keeps_ite | apply keepsL_ite | apply keepsL_fst
    | simp only [keeps_upd] | split)

theorem keeps_launchOp {s0 : State} {s : State} {i : Issuer} {shares : List Share} {count held reply : Bool} {ranges : List
    Range} (hkeep : Keeps s0 s) :
    Keeps s0 (launchOp s i shares count held reply ranges) := by
  unfold launchOp
  try dsimp only
  with_reducible repeat' (first
    | intro _ | assumption | apply keeps_modStr | apply keeps_startShare | apply keeps_forEach | simp only [keeps_upd]
    | split)

theorem keeps_abortTask {s0 : State} {s : State} {k id : Nat} (hkeep : Keeps s0 s) :
    Keeps s0 (abortTask s k id) := by
  unfold abortTask
  try dsimp only
  with_reducible repeat' (first
    | intro _ | assumption | apply keeps_creditReturn | apply keeps_stopStream | apply keeps_setTask | apply keeps_ite
    | apply keeps_forEach | simp only [keeps_upd] | split)

theorem keeps_haltShare {s0 : State} {s : State} {op core pos space : Nat} {by_ : FaultBy} {raise : State → FaultBy → State}
    (hraise : ∀ t0 t1, Keeps s0 t0 → Keeps s0 (raise t0 t1)) (hkeep : Keeps s0 s) :
    Keeps s0 (haltShare s op core pos space by_ raise) := by
  unfold haltShare
  try dsimp only
  with_reducible repeat' (first
    | assumption | apply keeps_setTask | apply keeps_setShare | apply keeps_completeShare | apply keeps_abortTask
    | apply hraise | apply keeps_ite | simp only [keeps_upd] | split)

theorem keeps_faultShare {s0 : State} {s : State} {op core pos base size va : Nat} {write : Bool} (hkeep : Keeps s0 s) :
    Keeps s0 (faultShare s op core pos base size va write) := by
  unfold faultShare
  try dsimp only
  with_reducible repeat' (first
    | intro _ | assumption | apply keeps_raiseFault | apply keeps_haltShare | simp only [keeps_upd] | split)

theorem keeps_raisePri {s0 : State} {s : State} {ctx : Nat} {who : FaultBy} (hkeep : Keeps s0 s) :
    Keeps s0 (raisePri s ctx who) := by
  unfold raisePri
  try dsimp only
  with_reducible repeat' (first
    | intro _ | assumption | apply keeps_logPut | simp only [keeps_upd])

theorem keeps_useSub {s0 : State} {s : State} {key : Nat} (hkeep : Keeps s0 s) :
    Keeps s0 (useSub s key) := by
  unfold useSub
  try dsimp only
  with_reducible repeat' (first
    | intro _ | assumption | simp only [keeps_upd])

theorem keeps_copyShare {s0 : State} {s : State} {op core ctx hostSt pos : Nat} {ps : List (Nat × Nat × Nat)} {last : Bool}
    (hkeep : Keeps s0 s) :
    Keeps s0 (copyShare s op core ctx hostSt pos ps last) := by
  unfold copyShare
  try dsimp only
  with_reducible repeat' (first
    | assumption | apply keeps_copyRun | apply keeps_setShare | apply keeps_completeShare | apply keeps_faultShare
    | apply keeps_ite | apply keepsL_ite | apply keepsL_fst | simp only [keeps_upd] | split)

theorem keeps_performShare {s0 : State} {s : State} {op core hostSt : Nat} (hkeep : Keeps s0 s) :
    Keeps s0 (performShare s op core hostSt) := by
  unfold performShare
  try dsimp only
  with_reducible repeat' (first
    | intro _ | assumption | apply keeps_completeShare | apply keeps_startShare | apply keeps_haltShare
    | apply keeps_raisePri | apply keeps_copyShare | apply keeps_ite | simp only [keeps_upd] | split)

theorem keeps_performTurn {s0 : State} {s : State} {op core : Nat} (hkeep : Keeps s0 s) :
    Keeps s0 (performTurn s op core) := by
  unfold performTurn
  try dsimp only
  with_reducible repeat' (first
    | intro _ | assumption | apply keeps_useSub | apply keeps_copyShare | apply keeps_forEach | simp only [keeps_upd]
    | split)

theorem keeps_askCredit {s0 : State} {s : State} {i : Issuer} {a c key short : Nat} (hkeep : Keeps s0 s) :
    Keeps s0 (askCredit s i a c key short) := by
  unfold askCredit
  try dsimp only
  with_reducible repeat' (first
    | assumption | apply keeps_peerCredit | apply keeps_requestGrant | apply keeps_ite)

theorem keeps_noteMsgs {s0 : State} {s : State} {i : Issuer} {o : CsendOpnds} (hkeep : Keeps s0 s) :
    Keeps s0 (noteMsgs s i o) := by
  unfold noteMsgs
  try dsimp only
  with_reducible repeat' (first
    | intro _ | assumption | apply keeps_noteRead | apply keeps_noteStatic | apply keeps_ite | apply keeps_forEach
    | simp only [keeps_upd] | split)

theorem keeps_sendNow {s0 : State} {s src : State} {i : Issuer} {o : CsendOpnds} {c key : Nat} (hs : Keeps s0 s) (hkeep : Keeps
    s0 src) :
    Keeps s0 (sendNow s src i o c key) := by
  unfold sendNow
  try dsimp only
  with_reducible repeat' (first
    | intro _ | assumption | apply keeps_modStr | apply keeps_setAccounts | apply keeps_launchOp | apply keeps_noteMsgs
    | apply keeps_ite | simp only [keeps_upd] | split)

theorem keeps_localAccess {s0 : State} {k c : Nat} {i : Instr} {each : Bool} {sd sd2 : Option SReg} {g : Nat × Nat × Nat}
    {words : List (Nat × Nat)} {acc : FeAcc} {s : State} (hkeep : Keeps s0 s) :
    Keeps s0 (localAccess k c i each sd sd2 g words acc s) := by
  unfold localAccess
  try dsimp only
  with_reducible repeat' (first
    | intro _ | assumption | apply keeps_modStr | apply keeps_runTo | apply keeps_skip | apply keeps_feAccess
    | apply keeps_ite | apply keeps_forEach | simp only [keeps_upd] | split)

theorem keeps_remoteAccess {s0 : State} {k a : Nat} {acc : FeAcc} {wait : Option (Instr × Option SReg × Option SReg × (Nat ×
    Nat × Nat))} {s : State} (hkeep : Keeps s0 s) :
    Keeps s0 (remoteAccess k a acc wait s) := by
  unfold remoteAccess
  try dsimp only
  with_reducible repeat' (first
    | intro _ | assumption | apply keeps_modStr | apply keeps_runTo | apply keeps_launchOp | apply keeps_ite
    | simp only [keeps_upd] | split)

theorem keeps_takeEff {s0 : State} {k : Nat} {i : Instr} {each : Bool} {a : Nat} {kd : TakeKind} {wait : Bool} {sd sd2 : Option
    SReg} {g : Nat × Nat × Nat} {s : State} (hkeep : Keeps s0 s) :
    Keeps s0 (takeEff k i each a kd wait sd sd2 g s) := by
  unfold takeEff
  try dsimp only
  with_reducible repeat' (first
    | assumption | apply keeps_localAccess | apply keeps_remoteAccess | simp only [keeps_upd] | split)

theorem keeps_fwaitEff {s0 : State} {k : Nat} {i : Instr} {o : FwaitOpnds} {kd : TakeKind} {s : State} (hkeep : Keeps s0 s) :
    Keeps s0 (fwaitEff k i o kd s) := by
  unfold fwaitEff
  try dsimp only
  with_reducible repeat' (first
    | assumption | apply keeps_takeEff)

theorem keeps_execFwait {s0 : State} {w : Who} {gap : Nat} {o : FwaitOpnds} {s : State} (hkeep : Keeps s0 s) :
    KeepsO s0 (execFwait w gap o s) := by
  unfold execFwait
  try dsimp only
  with_reducible repeat' (first
    | intro _ | assumption | apply keeps_mainOnly | apply keeps_issueStr | apply keeps_noteData | apply keeps_fwaitEff
    | apply keepsO_next)

theorem keeps_execFtake {s0 : State} {w : Who} {gap : Nat} {o : FwaitOpnds} {s : State} (hkeep : Keeps s0 s) :
    KeepsO s0 (execFtake w gap o s) := by
  unfold execFtake
  try dsimp only
  with_reducible repeat' (first
    | intro _ | assumption | apply keeps_mainOnly | apply keeps_issueStr | apply keeps_noteData | apply keeps_fwaitEff
    | apply keepsO_next)

theorem keeps_handlerFe {s0 : State} {m : Nat} {each : Bool} {a : Nat} {legal : Bool} {acc : FeAcc} {s : State} (hkeep : Keeps
    s0 s) :
    Keeps s0 (handlerFe m each a legal acc s) := by
  unfold handlerFe
  try dsimp only
  with_reducible repeat' (first
    | assumption | apply keeps_handlerIll | apply keeps_handlerStep | apply keeps_launchOp | apply keeps_ite
    | simp only [keeps_upd] | split)

theorem keeps_fcountMinusEff {s0 : State} {k : Nat} {i : Instr} {each : Bool} {aw : AReg} {sk : SReg} {wait chk : Bool} {s :
    State} (hkeep : Keeps s0 s) :
    Keeps s0 (fcountMinusEff k i each aw sk wait chk s) := by
  unfold fcountMinusEff
  try dsimp only
  with_reducible repeat' (first
    | assumption | apply keeps_takeEff)

theorem keeps_execFcountMinus {s0 : State} {w : Who} {gap : Nat} {each : Bool} {aw : AReg} {sk : SReg} {wait chk : Bool} {s :
    State} (hkeep : Keeps s0 s) :
    KeepsO s0 (execFcountMinus w gap each aw sk wait chk s) := by
  unfold execFcountMinus
  try dsimp only
  with_reducible repeat' (first
    | intro _ | assumption | apply keeps_issueStr | apply keeps_noteData | apply keeps_handlerFe
    | apply keeps_fcountMinusEff | apply keepsO_next | simp only [keeps_upd] | split)

theorem keeps_fillEff {s0 : State} {k : Nat} {i : Instr} {each : Bool} {a : Nat} {holds afterStores : Bool} {acc : FeAcc}
    {entry : List Nat → CEntry} {s : State} (hkeep : Keeps s0 s) :
    Keeps s0 (fillEff k i each a holds afterStores acc entry s) := by
  unfold fillEff
  try dsimp only
  with_reducible repeat' (first
    | intro _ | assumption | apply keeps_modStr | apply keeps_runTo | apply keeps_localAccess | apply keeps_remoteAccess
    | apply keeps_ite | simp only [keeps_upd] | split)

theorem keeps_ffillEff {s0 : State} {k : Nat} {i : Instr} {o : FfillOpnds} {first : Bool} {acc : BitVec 64 → FeAcc} {s : State}
    (hkeep : Keeps s0 s) :
    Keeps s0 (ffillEff k i o first acc s) := by
  unfold ffillEff
  try dsimp only
  with_reducible repeat' (first
    | intro _ | assumption | apply keeps_fillEff)

theorem keeps_fcountPlusEff {s0 : State} {k : Nat} {i : Instr} {each : Bool} {aw : AReg} {n : Nat} {s : State} (hkeep : Keeps
    s0 s) :
    Keeps s0 (fcountPlusEff k i each aw n s) := by
  unfold fcountPlusEff
  try dsimp only
  with_reducible repeat' (first
    | intro _ | assumption | apply keeps_fillEff)

theorem keeps_execFfill {s0 : State} {w : Who} {gap : Nat} {o : FfillOpnds} {s : State} (hkeep : Keeps s0 s) :
    KeepsO s0 (execFfill w gap o s) := by
  unfold execFfill
  try dsimp only
  with_reducible repeat' (first
    | intro _ | assumption | apply keeps_issueStr | apply keeps_noteData | apply keeps_handlerFe | apply keeps_ffillEff
    | apply keepsO_next | simp only [keeps_upd] | split)

theorem keeps_execFempty {s0 : State} {w : Who} {gap : Nat} {o : FfillOpnds} {s : State} (hkeep : Keeps s0 s) :
    KeepsO s0 (execFempty w gap o s) := by
  unfold execFempty
  try dsimp only
  with_reducible repeat' (first
    | intro _ | assumption | apply keeps_issueStr | apply keeps_noteData | apply keeps_handlerFe | apply keeps_ffillEff
    | apply keepsO_next | simp only [keeps_upd] | split)

theorem keeps_execFcountPlus {s0 : State} {w : Who} {gap : Nat} {each : Bool} {aw : AReg} {n : Nat} {s : State} (hkeep : Keeps
    s0 s) :
    KeepsO s0 (execFcountPlus w gap each aw n s) := by
  unfold execFcountPlus
  try dsimp only
  with_reducible repeat' (first
    | intro _ | assumption | apply keeps_issueStr | apply keeps_noteData | apply keeps_handlerFe | apply keeps_fcountPlusEff
    | apply keepsO_next | simp only [keeps_upd] | split)

theorem keeps_lateFault {s0 : State} {s : State} {k : Nat} {d : DynOp} {res : FeRes} (hkeep : Keeps s0 s) :
    Keeps s0 (lateFault s k d res) := by
  unfold lateFault
  try dsimp only
  with_reducible repeat' (first
    | assumption | apply keeps_stopLate | apply keeps_noteSkip | apply keeps_lateSaved | apply keeps_ite
    | simp only [keeps_upd] | split)

theorem keeps_parkedReply {s0 : State} {s : State} {k op task : Nat} {res : FeRes} (hkeep : Keeps s0 s) :
    KeepsM s0 (parkedReply s k op task res) := by
  unfold parkedReply
  try dsimp only
  with_reducible repeat' (first
    | intro _ | assumption | apply keeps_setStr | apply keeps_setTask | apply keeps_ite | apply keepsM_ite
    | apply keepsM_map | intro _ | simp only [keeps_upd, keepsM_some, keepsM_none] | exact True.intro | split
    | refine keepsM_get ?_ ‹_ = some _›)

theorem keeps_lateHandler {s0 : State} {s : State} {m : Nat} {d : DynOp} {c : Nat} (hkeep : Keeps s0 s) :
    Keeps s0 (lateHandler s m d c) := by
  unfold lateHandler
  try dsimp only
  with_reducible repeat' (first
    | assumption | apply keeps_setF | apply keeps_bump | apply keeps_logPut | simp only [keeps_upd])

theorem keeps_takeAnswer {s0 : State} {s : State} {k : Nat} {sd sd2 : Option SReg} {g : Nat × Nat × Nat} {res : FeRes} (hkeep :
    Keeps s0 s) :
    Keeps s0 (takeAnswer s k sd sd2 g res) := by
  unfold takeAnswer
  try dsimp only
  with_reducible repeat' (first
    | intro _ | assumption | apply keeps_modStr | apply keeps_skip | apply keeps_resumeWait | apply keeps_laterAcquire
    | simp only [keeps_upd] | split)

theorem keeps_takeReply {s0 : State} {s : State} {op : Nat} {res : FeRes} (hkeep : Keeps s0 s) :
    Keeps s0 (takeReply s op res) := by
  unfold takeReply
  try dsimp only
  with_reducible repeat' (first
    | intro _ | assumption | apply keeps_dropOp | apply keeps_handlerIll | apply keeps_countSop | apply keeps_lateFault
    | apply keeps_parkedReply | apply keeps_lateHandler | apply keeps_takeAnswer | apply keeps_ite | apply keepsM_getD
    | simp only [keeps_upd] | split | refine keepsM_get ?_ ‹_ = some _›)

theorem keeps_launchHeld {s0 : State} {k : Nat} {i : Issuer} {shares : List Share} {count held : Bool} {ranges : List Range} {s
    : State} (hkeep : Keeps s0 s) :
    Keeps s0 (launchHeld k i shares count held ranges s) := by
  unfold launchHeld
  try dsimp only
  with_reducible repeat' (first
    | intro _ | assumption | apply keeps_modStr | apply keeps_launchOp | apply keeps_ite | simp only [keeps_upd])

theorem keeps_xferEff {s0 : State} {k : Nat} {o : XferOpnds} {load : Bool} {s : State} (hkeep : Keeps s0 s) :
    Keeps s0 (xferEff k o load s) := by
  unfold xferEff
  try dsimp only
  with_reducible repeat' (first
    | assumption | apply keeps_progress | apply keeps_launchHeld)

theorem keeps_handlerXfer {s0 : State} {m : Nat} {w : Who} {o : XferOpnds} {load : Bool} {s : State} (hkeep : Keeps s0 s) :
    Keeps s0 (handlerXfer m w o load s) := by
  unfold handlerXfer
  try dsimp only
  with_reducible repeat' (first
    | assumption | apply keeps_handlerIll | apply keeps_handlerStep | apply keeps_progress | apply keeps_launchOp
    | apply keeps_ite)

theorem keeps_execSload {s0 : State} {w : Who} {gap : Nat} {o : XferOpnds} {s : State} (hkeep : Keeps s0 s) :
    KeepsO s0 (execSload w gap o s) := by
  unfold execSload
  try dsimp only
  with_reducible repeat' (first
    | intro _ | assumption | apply keeps_issueStr | apply keeps_noteData | apply keeps_xferEff | apply keeps_handlerXfer
    | apply keepsO_next | simp only [keeps_upd] | split)

theorem keeps_execSstore {s0 : State} {w : Who} {gap : Nat} {o : XferOpnds} {s : State} (hkeep : Keeps s0 s) :
    KeepsO s0 (execSstore w gap o s) := by
  unfold execSstore
  try dsimp only
  with_reducible repeat' (first
    | intro _ | assumption | apply keeps_issueStr | apply keeps_noteData | apply keeps_xferEff | apply keeps_handlerXfer
    | apply keepsO_next | simp only [keeps_upd] | split)

theorem keeps_slathEff {s0 : State} {k : Nat} {o : SlathOpnds} {s : State} (hkeep : Keeps s0 s) :
    Keeps s0 (slathEff k o s) := by
  unfold slathEff
  try dsimp only
  with_reducible repeat' (first
    | assumption | apply keeps_launchHeld)

theorem keeps_execSlath {s0 : State} {w : Who} {gap : Nat} {o : SlathOpnds} {s : State} (hkeep : Keeps s0 s) :
    KeepsO s0 (execSlath w gap o s) := by
  unfold execSlath
  try dsimp only
  with_reducible repeat' (first
    | intro _ | assumption | apply keeps_handlerIll | apply keeps_handlerStep | apply keeps_issueStr | apply keeps_noteData
    | apply keeps_launchOp | apply keeps_slathEff | apply keeps_ite | apply keepsO_next | simp only [keeps_upd] | split)

theorem keeps_csendTryNow {s0 : State} {i : Issuer} {o : CsendOpnds} {src s : State} (hsrc : Keeps s0 src) (hkeep : Keeps s0 s)
    :
    KeepsL s0 (csendTryNow i o src s) := by
  unfold csendTryNow
  try dsimp only
  with_reducible repeat' (first
    | assumption | apply keeps_useAccount | apply keeps_askCredit | apply keeps_sendNow | apply keeps_ite | apply keepsL_ite
    | apply keepsL_fst | simp only [keeps_upd, keepsL_mk] | split)

theorem keeps_csendEff {s0 : State} {k : Nat} {ins : Instr} {o : CsendOpnds} {s : State} (hkeep : Keeps s0 s) :
    Keeps s0 (csendEff k ins o s) := by
  unfold csendEff
  try dsimp only
  with_reducible repeat' (first
    | assumption | apply keeps_beginWait | apply keeps_staticPart | apply keeps_csendTryNow | apply keeps_ite
    | apply keepsL_ite | apply keepsL_fst)

theorem keeps_csendTryEff {s0 : State} {k : Nat} {o : CsendOpnds} {sd : SReg} {s : State} (hkeep : Keeps s0 s) :
    Keeps s0 (csendTryEff k o sd s) := by
  unfold csendTryEff
  try dsimp only
  with_reducible repeat' (first
    | intro _ | assumption | apply keeps_modStr | apply keeps_staticPart | apply keeps_csendTryNow | apply keeps_ite
    | apply keepsL_ite | apply keepsL_fst)

theorem keeps_handlerSend {s0 : State} {m : Nat} {w : Who} {o : CsendOpnds} {sd : Nat} {s : State} (hkeep : Keeps s0 s) :
    Keeps s0 (handlerSend m w o sd s) := by
  unfold handlerSend
  try dsimp only
  with_reducible repeat' (first
    | intro _ | assumption | apply keeps_modCore | apply keeps_handlerIll | apply keeps_handlerStep
    | apply keeps_csendTryNow | apply keeps_ite | apply keepsL_ite | apply keepsL_fst)

theorem keeps_execCsend {s0 : State} {w : Who} {gap : Nat} {o : CsendOpnds} {s : State} (hkeep : Keeps s0 s) :
    KeepsO s0 (execCsend w gap o s) := by
  unfold execCsend
  try dsimp only
  with_reducible repeat' (first
    | intro _ | assumption | apply keeps_issueStr | apply keeps_noteData | apply keeps_csendEff | apply keeps_handlerSend
    | apply keepsO_next | simp only [keeps_upd] | split)

theorem keeps_execCsendTry {s0 : State} {w : Who} {gap : Nat} {o : CsendOpnds} {sd : SReg} {s : State} (hkeep : Keeps s0 s) :
    KeepsO s0 (execCsendTry w gap o sd s) := by
  unfold execCsendTry
  try dsimp only
  with_reducible repeat' (first
    | intro _ | assumption | apply keeps_issueStr | apply keeps_noteData | apply keeps_csendTryEff | apply keeps_handlerSend
    | apply keepsO_next | simp only [keeps_upd] | split)

theorem keeps_execHret {s0 : State} {w : Who} {gap : Nat} {s : State} (hkeep : Keeps s0 s) :
    KeepsO s0 (execHret w gap s) := by
  unfold execHret
  try dsimp only
  with_reducible repeat' (first
    | intro _ | assumption | apply keeps_unlessPaused | apply keeps_endHandler | apply keeps_handlerIll
    | apply keeps_issueStr | apply keeps_ite | apply keepsO_next | simp only [keeps_upd] | split)

theorem keeps_execOperationCompletion {s0 : State} {op : Nat} {core : Fin 64} {hostSt : Fin 4} {s : State} (hkeep : Keeps s0 s)
    :
    KeepsO s0 (execOperationCompletion op core hostSt s) := by
  unfold execOperationCompletion
  try dsimp only
  with_reducible repeat' (first
    | assumption | apply keeps_unlessPaused | apply keeps_progress | apply keeps_performShare | apply keepsO_next)

theorem keeps_nextOf {s0 s : State} {o : Host.Outcome State Fault Refusal} (ho : KeepsO s0 o) (h : Keeps s0 s) : Keeps s0
    (nextOf o s) := by
  cases o with
  | next t => exact ho t rfl
  | fault r => exact h
  | refused r => exact h

theorem keeps_reissue {s0 : State} {i : Instr} {s : State} (hkeep : Keeps s0 s) :
    Keeps s0 (reissue i s) := by
  unfold reissue
  try dsimp only
  with_reducible repeat' (first
    | assumption | apply keeps_execWloadR | apply keeps_execWloadS | apply keeps_execMpass | apply keeps_execMpasst
    | apply keeps_execMdist | apply keeps_execMsqd | apply keeps_execMcmpx | apply keeps_execMcmpn | apply keeps_execTload
    | apply keeps_execTstore | apply keeps_execEprog | apply keeps_execEshufX | apply keeps_execEshufB
    | apply keeps_execEsum | apply keeps_execEmax | apply keeps_execEbcast | apply keeps_execEquant | apply keeps_execFenceL
    | apply keeps_execFenceX | apply keeps_execCommit | apply keeps_execFwait | apply keeps_execFtake
    | apply keeps_execFcountMinus | apply keeps_execFfill | apply keeps_execFempty | apply keeps_execFcountPlus
    | apply keeps_execSload | apply keeps_execSstore | apply keeps_execSlath | apply keeps_execCsend
    | apply keeps_execCsendTry | apply keeps_nextOf | simp only [keeps_upd] | split)

theorem keeps_execHoldRelease {s0 : State} {k : Fin 16} {s : State} (hkeep : Keeps s0 s) :
    KeepsO s0 (execHoldRelease k s) := by
  unfold execHoldRelease
  try dsimp only
  with_reducible repeat' (first
    | intro _ | assumption | apply keeps_bump | apply keeps_modStr | apply keeps_drain | apply keeps_reissue
    | apply keeps_ite | apply keepsO_next | simp only [keeps_upd] | split)

theorem keeps_commitFault {s0 : State} {k c w : Nat} {s : State} (hkeep : Keeps s0 s) :
    Keeps s0 (commitFault k c w s) := by
  unfold commitFault
  try dsimp only
  with_reducible repeat' (first
    | assumption | apply keeps_skip | apply keeps_discardCommit)

theorem keeps_releaseWords {s0 : State} {k : Nat} {acc : FeAcc} {l : List Nat} : ∀ {s : State}, Keeps s0 s → KeepsL s0
    (releaseWords k acc l s) := by
  induction l with
  | nil => intro s h; exact h
  | cons x l ih =>
    intro s h
    unfold releaseWords
    try dsimp only
    with_reducible repeat' (first
    | intro _ | assumption | apply keeps_noteWord | apply keeps_stopStream | apply keeps_putWord | apply keeps_discardCommit
    | apply ih | apply keeps_ite | apply keepsL_ite | apply keepsL_fst | simp only [keeps_upd, keepsL_mk] | split)

theorem keeps_releaseCpls {s0 : State} {count : Bool} {l : List (Nat × BitVec 64 × Bool)} : ∀ {s : State}, Keeps s0 s → KeepsL
    s0 (releaseCpls count l s) := by
  induction l with
  | nil => intro s h; exact h
  | cons x l ih =>
    intro s h
    unfold releaseCpls
    try dsimp only
    with_reducible repeat' (first
    | intro _ | assumption | apply keeps_completeWord | apply ih | apply keeps_ite | apply keepsL_ite | apply keepsL_fst
    | simp only [keepsL_mk] | split)

theorem keeps_accessEntry {s0 : State} {k : Nat} {e : CEntry} {s : State} (hkeep : Keeps s0 s) :
    KeepsL s0 (accessEntry k e s) := by
  unfold accessEntry
  try dsimp only
  with_reducible repeat' (first
    | assumption | apply keeps_releaseWords | apply keeps_releaseCpls | apply keepsL_fst | simp only [keeps_upd, keepsL_mk]
    | split)

theorem keeps_releaseEntry {s0 : State} {k : Nat} {e : CEntry} {s : State} (hkeep : Keeps s0 s) :
    Keeps s0 (releaseEntry k e s) := by
  unfold releaseEntry
  try dsimp only
  with_reducible repeat' (first
    | intro _ | assumption | apply keeps_modStr | apply keeps_launchOp | apply keeps_ite | apply keeps_forEach
    | simp only [keeps_upd] | split)

theorem keeps_accessDue {s0 : State} {k c : Nat} {n : Nat} : ∀ {s : State}, Keeps s0 s → Keeps s0 (accessDue k c n s) := by
  induction n with
  | zero => intro s h; exact h
  | succ n ih =>
    intro s h
    unfold accessDue
    try dsimp only
    with_reducible repeat' (first
    | intro _ | assumption | apply keeps_modStr | apply keeps_runTo | apply keeps_commitFault | apply keeps_accessEntry
    | apply ih | apply keeps_ite | apply keepsL_ite | apply keepsL_fst | simp only [keeps_upd] | split)

theorem keeps_execCommitBufferRelease {s0 : State} {k : Fin 16} {s : State} (hkeep : Keeps s0 s) :
    KeepsO s0 (execCommitBufferRelease k s) := by
  unfold execCommitBufferRelease
  try dsimp only
  with_reducible repeat' (first
    | intro _ | assumption | apply keeps_modStr | apply keeps_runTo | apply keeps_settle | apply keeps_progress
    | apply keeps_releaseEntry | apply keeps_accessDue | apply keeps_ite | apply keepsO_next | simp only [keeps_upd] | split)

theorem keeps_resumeCredit {s0 : State} {k : Nat} {s : State} (hkeep : Keeps s0 s) :
    Keeps s0 (resumeCredit k s) := by
  unfold resumeCredit
  try dsimp only
  with_reducible repeat' (first
    | assumption | apply keeps_resumeWait | apply keeps_staticPart | apply keeps_sendNow | apply keeps_ite
    | simp only [keeps_upd] | split)

theorem keeps_takeGrant {s0 : State} {s : State} {w : Who} {tag n : Nat} (hkeep : Keeps s0 s) :
    Keeps s0 (takeGrant s w tag n) := by
  unfold takeGrant
  try dsimp only
  with_reducible repeat' (first
    | intro _ | assumption | apply keeps_creditReturn | apply keeps_setAccounts | apply keeps_resumeCredit | apply keeps_ite
    | simp only [keeps_upd] | split)

theorem keeps_execTrellisToken {s0 : State} {id : Nat} {s : State} (hkeep : Keeps s0 s) :
    KeepsO s0 (execTrellisToken id s) := by
  unfold execTrellisToken
  try dsimp only
  with_reducible repeat' (first
    | intro _ | assumption | apply keeps_progress | apply keeps_takeReply | apply keeps_takeGrant | apply keeps_ite
    | apply keepsO_next | simp only [keeps_upd] | split)

theorem keeps_dropWork {s0 : State} {s : State} (hkeep : Keeps s0 s) :
    Keeps s0 (dropWork s) := by
  unfold dropWork
  try dsimp only
  with_reducible repeat' (first
    | assumption | simp only [keeps_upd])

theorem keeps_fatal {s0 : State} {s : State} {cause : Nat} (hkeep : Keeps s0 s) :
    Keeps s0 (fatal s cause) := by
  unfold fatal
  try dsimp only
  with_reducible repeat' (first
    | intro _ | assumption | apply keeps_setF | apply keeps_modStr | apply keeps_logPut | apply keeps_setPort
    | apply keeps_modChan | apply keeps_dropWork | apply keeps_ite | apply keeps_forEach | simp only [keeps_upd])

theorem keeps_execTrellisTimeout {s0 : State} {id : Nat} {s : State} (hkeep : Keeps s0 s) :
    KeepsO s0 (execTrellisTimeout id s) := by
  unfold execTrellisTimeout
  try dsimp only
  with_reducible repeat' (first
    | intro _ | assumption | apply keeps_fatal | apply keeps_ite | apply keepsO_next | simp only [keeps_upd] | split)

theorem keeps_execHandlerDispatch {s0 : State} {m : Fin 64} {s : State} (hkeep : Keeps s0 s) :
    KeepsO s0 (execHandlerDispatch m s) := by
  unfold execHandlerDispatch
  try dsimp only
  with_reducible repeat' (first
    | intro _ | assumption | apply keeps_setF | apply keeps_modCore | apply keeps_noteRead | apply keeps_ite
    | apply keepsO_next | apply keeps_foldl | apply keepsL_foldl | apply keepsR_foldl
    | simp only [keeps_upd, keepsL_mk, keepsR_mk] | split)

theorem keeps_execHandlerTimeLimit {s0 : State} {m : Fin 64} {s : State} (hkeep : Keeps s0 s) :
    KeepsO s0 (execHandlerTimeLimit m s) := by
  unfold execHandlerTimeLimit
  try dsimp only
  with_reducible repeat' (first
    | assumption | apply keeps_setF | apply keeps_bump | apply keeps_logPut | apply keeps_endHandler | apply keeps_ite
    | apply keepsO_next | simp only [keeps_upd] | split)

theorem keeps_execWaitTimeout {s0 : State} {k : Fin 16} {s : State} (hkeep : Keeps s0 s) :
    KeepsO s0 (execWaitTimeout k s) := by
  unfold execWaitTimeout
  try dsimp only
  with_reducible repeat' (first
    | assumption | apply keeps_bump | apply keeps_skip | apply keeps_progress | apply keeps_ite | apply keepsO_next)

theorem keeps_execSettleIntervalExpiry {s0 : State} {w : Nat} {s : State} (hkeep : Keeps s0 s) :
    KeepsO s0 (execSettleIntervalExpiry w s) := by
  unfold execSettleIntervalExpiry
  try dsimp only
  with_reducible repeat' (first
    | intro _ | assumption | apply keeps_examine | apply keeps_progress | apply keeps_ite | apply keepsO_next
    | apply keeps_foldl | apply keepsL_foldl | apply keepsR_foldl | simp only [keepsL_mk, keepsR_mk])

theorem keeps_setPortState {s0 : State} {s : State} {p st : Nat} (hkeep : Keeps s0 s) :
    Keeps s0 (setPortState s p st) := by
  unfold setPortState
  try dsimp only
  with_reducible repeat' (first
    | assumption | apply keeps_setF | apply keeps_irqSource | apply keeps_ite)

theorem keeps_setLanes {s0 : State} {s : State} {p mask : Nat} (hkeep : Keeps s0 s) :
    Keeps s0 (setLanes s p mask) := by
  unfold setLanes
  try dsimp only
  with_reducible repeat' (first
    | assumption | apply keeps_setF)

theorem keeps_sendLane {s0 : State} {s : State} {p l : Nat} {on : Bool} (hkeep : Keeps s0 s) :
    Keeps s0 (sendLane s p l on) := by
  unfold sendLane
  try dsimp only
  with_reducible repeat' (first
    | assumption | apply keeps_sendCtl | apply keeps_ite)

theorem keeps_setLaser {s0 : State} {s : State} {f0 f1 : Nat → Fld} {p l k : Nat} (hkeep : Keeps s0 s) :
    Keeps s0 (setLaser s f0 f1 p l k) := by
  unfold setLaser
  try dsimp only
  with_reducible repeat' (first
    | assumption | apply keeps_setF | apply keeps_ite)

theorem keeps_setTxLaser {s0 : State} {s : State} {p l k : Nat} (hkeep : Keeps s0 s) :
    Keeps s0 (setTxLaser s p l k) := by
  unfold setTxLaser
  try dsimp only
  with_reducible repeat' (first
    | assumption | apply keeps_setLaser)

theorem keeps_setRxLaser {s0 : State} {s : State} {p l k : Nat} (hkeep : Keeps s0 s) :
    Keeps s0 (setRxLaser s p l k) := by
  unfold setRxLaser
  try dsimp only
  with_reducible repeat' (first
    | assumption | apply keeps_setLaser)

theorem keeps_failTxn {s0 : State} {s : State} {t : Txn} (hkeep : Keeps s0 s) :
    Keeps s0 (failTxn s t) := by
  unfold failTxn
  try dsimp only
  with_reducible repeat' (first
    | assumption | apply keeps_chanAnswered | apply keeps_failShare | simp only [keeps_upd] | split)

theorem keeps_failSend {s0 : State} {s src : State} {i : Issuer} {o : CsendOpnds} (hs : Keeps s0 s) (hkeep : Keeps s0 src) :
    Keeps s0 (failSend s src i o) := by
  unfold failSend
  try dsimp only
  with_reducible repeat' (first
    | intro _ | assumption | apply keeps_failShare | apply keeps_launchOp | apply keeps_noteMsgs | apply keeps_forEach)

theorem keeps_failCredit {s0 : State} {p : Nat} {s : State} {k : Nat} (hkeep : Keeps s0 s) :
    Keeps s0 (failCredit p s k) := by
  unfold failCredit
  try dsimp only
  with_reducible repeat' (first
    | assumption | apply keeps_resumeWait | apply keeps_staticPart | apply keeps_failSend | apply keeps_ite
    | simp only [keeps_upd] | split)

theorem keeps_portFail {s0 : State} {s : State} {p : Nat} (hkeep : Keeps s0 s) :
    Keeps s0 (portFail s p) := by
  unfold portFail
  try dsimp only
  with_reducible repeat' (first
    | intro _ | assumption | apply keeps_setPort | apply keeps_failTxn | apply keeps_failCredit | apply keeps_ite
    | apply keeps_forEach | simp only [keeps_upd])

theorem keeps_endSession {s0 : State} {s : State} {p : Nat} (hkeep : Keeps s0 s) :
    Keeps s0 (endSession s p) := by
  unfold endSession
  try dsimp only
  with_reducible repeat' (first
    | intro _ | assumption | apply keeps_setF | apply keeps_modCore | apply keeps_modStr | apply keeps_setCreel
    | apply keeps_modPort | apply keeps_setWk | apply keeps_poolAdd | apply keeps_setGranted | apply keeps_wicketRelease
    | apply keeps_ite | apply keeps_forEach | simp only [keeps_upd] | split)

theorem keeps_portDown {s0 : State} {s : State} {p st : Nat} (hkeep : Keeps s0 s) :
    Keeps s0 (portDown s p st) := by
  unfold portDown
  try dsimp only
  with_reducible repeat' (first
    | assumption | apply keeps_setPortState | apply keeps_setLanes | apply keeps_portFail)

theorem keeps_noteRetrain {s0 : State} {s : State} {p cause : Nat} (hkeep : Keeps s0 s) :
    Keeps s0 (noteRetrain s p cause) := by
  unfold noteRetrain
  try dsimp only
  with_reducible repeat' (first
    | assumption | apply keeps_setF | apply keeps_bump | apply keeps_logLink)

theorem keeps_quickRetrain {s0 : State} {s : State} {p : Nat} (hkeep : Keeps s0 s) :
    Keeps s0 (quickRetrain s p) := by
  unfold quickRetrain
  try dsimp only
  with_reducible repeat' (first
    | intro _ | assumption | apply keeps_modPort | apply keeps_setPortState | apply keeps_noteRetrain | apply keeps_ite
    | simp only [keeps_upd])

theorem keeps_startTraining {s0 : State} {s : State} {p : Nat} (hkeep : Keeps s0 s) :
    Keeps s0 (startTraining s p) := by
  unfold startTraining
  try dsimp only
  with_reducible repeat' (first
    | intro _ | assumption | apply keeps_modPort | apply keeps_endSession | apply keeps_portDown | simp only [keeps_upd])

theorem keeps_fullRetrain {s0 : State} {s : State} {p : Nat} (hkeep : Keeps s0 s) :
    Keeps s0 (fullRetrain s p) := by
  unfold fullRetrain
  try dsimp only
  with_reducible repeat' (first
    | assumption | apply keeps_noteRetrain | apply keeps_startTraining)

theorem keeps_train {s0 : State} {s : State} {p : Nat} (hkeep : Keeps s0 s) :
    Keeps s0 (train s p) := by
  unfold train
  try dsimp only
  with_reducible repeat' (first
    | assumption | apply keeps_startTraining | apply keeps_fullRetrain | apply keeps_ite)

end Sys2Proof.Machine
end

