-- ==== Sys2Proof/Laws/KeepsCreels.lean ====
section
/-! SUPPORT. What the operations and the meanings of Machine/Creels, Hedge, Errors keep: one lemma each (see Laws/Keeps.lean). -/

namespace Sys2Proof.Machine

open Sys2Proof

set_option linter.all false

theorem keeps_quietCreel {s0 : State} {s : State} {c : Nat} (hkeep : Keeps s0 s) :
    Keeps s0 (quietCreel s c) := by
  unfold quietCreel
  try dsimp only
  with_reducible repeat' (first
    | assumption | apply keeps_setF | apply keeps_ite)

theorem keeps_closeCreel {s0 : State} {s : State} {c : Nat} (hkeep : Keeps s0 s) :
    Keeps s0 (closeCreel s c) := by
  unfold closeCreel
  try dsimp only
  with_reducible repeat' (first
    | intro _ | assumption | apply keeps_setF | apply keeps_modCreel | apply keeps_ite | simp only [keeps_upd])

theorem keeps_msgDone {s0 s : State} {bytes : Nat} {f : MsgFrom} (h : Keeps s0 s) : Keeps s0 (msgDone s bytes f) := by
  unfold msgDone
  with_reducible repeat' (first
    | intro _ | assumption | apply keeps_sendReply | apply keeps_completeShare | split)

theorem keeps_dropRequest {s0 : State} {s : State} {r : GrantReq} (hkeep : Keeps s0 s) :
    Keeps s0 (dropRequest s r) := by
  unfold dropRequest
  try dsimp only
  with_reducible repeat' (first
    | assumption | apply keeps_sendReply | apply keeps_crlStale | simp only [keeps_upd] | split)

theorem keeps_openCreel {s0 : State} {s : State} {c : Nat} (hkeep : Keeps s0 s) :
    Keeps s0 (openCreel s c) := by
  unfold openCreel
  try dsimp only
  with_reducible repeat' (first
    | intro _ | assumption | apply keeps_setF | apply keeps_crlStale | apply keeps_clearCreel | apply keeps_msgDone
    | apply keeps_dropRequest | apply keeps_forEach)

theorem keeps_writeCrlCfg {s0 : State} {s : State} {c : Nat} {v : Nat} (hkeep : Keeps s0 s) :
    Keeps s0 (writeCrlCfg s c v) := by
  unfold writeCrlCfg
  try dsimp only
  with_reducible repeat' (first
    | intro _ | assumption | apply keeps_regPut | apply keeps_closeCreel | apply keeps_openCreel | apply keeps_ite
    | simp only [keeps_upd] | split)

theorem keeps_execCreelEnable {s0 : State} {c : Nat} {v : BitVec 64} {s : State} (hkeep : Keeps s0 s) :
    KeepsO s0 (execCreelEnable c v s) := by
  unfold execCreelEnable
  try dsimp only
  with_reducible repeat' (first
    | assumption | apply keeps_whenServed | apply keeps_writeCrlCfg | apply keeps_ite | apply keepsO_next)

theorem keeps_execCreelDisable {s0 : State} {c : Nat} {v : BitVec 64} {s : State} (hkeep : Keeps s0 s) :
    KeepsO s0 (execCreelDisable c v s) := by
  unfold execCreelDisable
  try dsimp only
  with_reducible repeat' (first
    | assumption | apply keeps_whenServed | apply keeps_writeCrlCfg | apply keeps_ite | apply keepsO_next)

theorem keeps_execCreelQuarantineEnd {s0 : State} {c : Nat} {s : State} (hkeep : Keeps s0 s) :
    KeepsO s0 (execCreelQuarantineEnd c s) := by
  unfold execCreelQuarantineEnd
  try dsimp only
  with_reducible repeat' (first
    | assumption | apply keeps_whenOn | apply keeps_quietCreel | apply keeps_ite | apply keepsO_next)

theorem keeps_execCreelDelivery {s0 : State} {c : Nat} {s : State} (hkeep : Keeps s0 s) :
    KeepsO s0 (execCreelDelivery c s) := by
  unfold execCreelDelivery
  try dsimp only
  with_reducible repeat' (first
    | intro _ | assumption | apply keeps_whenOn | apply keeps_modCreel | apply keeps_raiseVec | apply keeps_writeEntry
    | apply keeps_progress | apply keeps_msgDone | apply keeps_ite | apply keepsO_next | simp only [keeps_upd] | split)

theorem keeps_giveGrant {s0 : State} {s : State} {c g : Nat} {r : GrantReq} (hkeep : Keeps s0 s) :
    Keeps s0 (giveGrant s c g r) := by
  unfold giveGrant
  try dsimp only
  with_reducible repeat' (first
    | intro _ | assumption | apply keeps_modCreel | apply keeps_sendReply | apply keeps_poolSub | apply keeps_sendToken
    | simp only [keeps_upd] | split)

theorem keeps_execCreditGrant {s0 : State} {c : Nat} {s : State} (hkeep : Keeps s0 s) :
    KeepsO s0 (execCreditGrant c s) := by
  unfold execCreditGrant
  try dsimp only
  with_reducible repeat' (first
    | assumption | apply keeps_setF | apply keeps_whenOn | apply keeps_setCreel | apply keeps_giveGrant | apply keeps_ite
    | apply keepsO_next | simp only [keeps_upd] | split)

theorem keeps_consumeN {s0 : State} {c n : Nat} : ∀ {s : State}, Keeps s0 s → Keeps s0 (consumeN c n s) := by
  induction n with
  | zero => intro s h; exact h
  | succ n ih =>
    intro s h
    unfold consumeN
    try dsimp only
    with_reducible repeat' (first
    | intro _ | assumption | apply keeps_consumeHead | apply ih | split)

theorem keeps_writeHostHead {s0 : State} {s : State} {k v : Nat} (hkeep : Keeps s0 s) :
    Keeps s0 (writeHostHead s k v) := by
  unfold writeHostHead
  try dsimp only
  with_reducible repeat' (first
    | assumption | apply keeps_setF | apply keeps_bump | apply keeps_logEvent | apply keeps_consumeN | simp only [keeps_upd]
    | split)

theorem keeps_execHostCreelHeadWrite {s0 : State} {k : Fin 64} {v : BitVec 20} {s : State} (hkeep : Keeps s0 s) :
    KeepsO s0 (execHostCreelHeadWrite k v s) := by
  unfold execHostCreelHeadWrite
  try dsimp only
  with_reducible repeat' (first
    | assumption | apply keeps_whenServed | apply keeps_writeHostHead | apply keepsO_next)

theorem keeps_moveAccounts {s0 : State} {s : State} {old new : Nat} (hkeep : Keeps s0 s) :
    Keeps s0 (moveAccounts s old new) := by
  unfold moveAccounts
  try dsimp only
  with_reducible repeat' (first
    | intro _ | assumption | apply keeps_setCore | apply keeps_setStr | apply keeps_ite | apply keeps_forEach
    | simp only [keeps_upd])

theorem keeps_resetCreel {s0 : State} {s : State} {c : Nat} (hkeep : Keeps s0 s) :
    Keeps s0 (resetCreel s c) := by
  unfold resetCreel
  try dsimp only
  with_reducible repeat' (first
    | intro _ | assumption | apply keeps_setF | apply keeps_setCreel | apply keeps_logEvent | apply keeps_crlStale
    | apply keeps_msgDone | apply keeps_moveAccounts | apply keeps_forEach | simp only [keeps_upd])

theorem keeps_resetCreels {s0 : State} {s : State} {m : Nat} (hkeep : Keeps s0 s) :
    Keeps s0 (resetCreels s m) := by
  unfold resetCreels
  try dsimp only
  with_reducible repeat' (first
    | intro _ | assumption | apply keeps_resetCreel | apply keeps_ite | apply keeps_forEach)

theorem keeps_declare {s0 : State} {s : State} {c : Nat} (hkeep : Keeps s0 s) :
    Keeps s0 (declare s c) := by
  unfold declare
  try dsimp only
  with_reducible repeat' (first
    | intro _ | assumption | apply keeps_bump | apply keeps_logPut | apply keeps_irqSource | apply keeps_toHost
    | apply keeps_drawBytes | apply keeps_ite | apply keepsL_ite | apply keepsL_fst | simp only [keeps_upd])

theorem keeps_belvedere {s0 : State} {s : State} (hkeep : Keeps s0 s) :
    Keeps s0 (belvedere s) := by
  unfold belvedere
  try dsimp only
  with_reducible repeat' (first
    | intro _ | assumption | apply keeps_idle | apply keeps_setCore | apply keeps_setStr | apply keeps_declare
    | apply keeps_ite | apply keeps_forEach | simp only [keeps_upd])

theorem keeps_execBelvedereSample {s0 : State} {s : State} (hkeep : Keeps s0 s) :
    KeepsO s0 (execBelvedereSample s) := by
  unfold execBelvedereSample
  try dsimp only
  with_reducible repeat' (first
    | intro _ | assumption | apply keeps_every | apply keeps_whenOn | apply keeps_modStr | apply keeps_belvedere
    | apply keeps_ite | apply keepsO_next | apply keeps_forEach | simp only [keeps_upd])

theorem keeps_showHedge {s0 : State} {s : State} {cls key : Nat} (hkeep : Keeps s0 s) :
    Keeps s0 (showHedge s cls key) := by
  unfold showHedge
  try dsimp only
  with_reducible repeat' (first
    | intro _ | assumption | apply keeps_setF | apply keeps_setBit | apply keeps_ite | apply keeps_foldl
    | apply keepsL_foldl | apply keepsR_foldl | simp only [keeps_upd, keepsL_mk, keepsR_mk] | split)

theorem keeps_hedgeStream {s0 : State} {cls : Nat} {s : State} {k : Nat} (hkeep : Keeps s0 s) :
    Keeps s0 (hedgeStream cls s k) := by
  unfold hedgeStream
  try dsimp only
  with_reducible repeat' (first
    | assumption | apply keeps_stopStream | apply keeps_ite)

theorem keeps_dropSaved {s0 : State} {s : State} {t : Stream} (hkeep : Keeps s0 s) :
    Keeps s0 (dropSaved s t) := by
  unfold dropSaved
  try dsimp only
  with_reducible repeat' (first
    | intro _ | assumption | apply keeps_creditReturn | apply keeps_dropParked | apply keeps_forEach | simp only [keeps_upd]
    | split)

theorem keeps_hedgePreempted {s0 : State} {cls : Nat} {s : State} {i : Nat} (hkeep : Keeps s0 s) :
    Keeps s0 (hedgePreempted cls s i) := by
  unfold hedgePreempted
  try dsimp only
  with_reducible repeat' (first
    | intro _ | assumption | apply keeps_logPut | apply keeps_setTask | apply keeps_endTask | apply keeps_poisonOuts
    | apply keeps_dropSaved | apply keeps_ite | simp only [keeps_upd] | split)

theorem keeps_hedgeTasks {s0 : State} {cls : Nat} {on : Stream → Nat → Bool} {s : State} (hkeep : Keeps s0 s) :
    Keeps s0 (hedgeTasks cls on s) := by
  unfold hedgeTasks
  try dsimp only
  with_reducible repeat' (first
    | intro _ | assumption | apply keeps_hedgeStream | apply keeps_hedgePreempted | apply keeps_forEach
    | simp only [keeps_upd] | split)

theorem keeps_hedgeCore {s0 : State} {cls m : Nat} {s : State} (hkeep : Keeps s0 s) :
    Keeps s0 (hedgeCore cls m s) := by
  unfold hedgeCore
  try dsimp only
  with_reducible repeat' (first
    | intro _ | assumption | apply keeps_cutHandler | apply keeps_hedgeTasks)

theorem keeps_hedgePavilion {s0 : State} {cls n : Nat} {s : State} (hkeep : Keeps s0 s) :
    Keeps s0 (hedgePavilion cls n s) := by
  unfold hedgePavilion
  try dsimp only
  with_reducible repeat' (first
    | intro _ | assumption | apply keeps_cutHandler | apply keeps_hedgeTasks | apply keeps_forEach)

theorem keeps_wakeBank {s0 : State} {hit : Nat → Bool} {s : State} (hkeep : Keeps s0 s) :
    Keeps s0 (wakeBank hit s) := by
  unfold wakeBank
  try dsimp only
  with_reducible repeat' (first
    | intro _ | assumption | apply keeps_answer | apply keeps_dropWaiter | apply keeps_setTask | apply keeps_forEach
    | simp only [keeps_upd])

theorem keeps_hedgeContext {s0 : State} {c : Nat} {s : State} (hkeep : Keeps s0 s) :
    Keeps s0 (hedgeContext c s) := by
  unfold hedgeContext
  try dsimp only
  with_reducible repeat' (first
    | intro _ | assumption | apply keeps_modStr | apply keeps_logPut | apply keeps_setTask | apply keeps_stopQueue
    | apply keeps_closeCreel | apply keeps_hedgeStream | apply keeps_hedgePreempted | apply keeps_ite | apply keeps_forEach
    | simp only [keeps_upd] | split)

theorem keeps_dropChanWaits {s0 : State} {s : State} {ch : Nat} (hkeep : Keeps s0 s) :
    Keeps s0 (dropChanWaits s ch) := by
  unfold dropChanWaits
  try dsimp only
  with_reducible repeat' (first
    | intro _ | assumption | apply keeps_modPort | apply keeps_ite | apply keeps_forEach | simp only [keeps_upd] | split)

theorem keeps_hedgeChan {s0 : State} {ch : Nat} {s : State} (hkeep : Keeps s0 s) :
    Keeps s0 (hedgeChan ch s) := by
  unfold hedgeChan
  try dsimp only
  with_reducible repeat' (first
    | intro _ | assumption | apply keeps_modChan | apply keeps_dropChanWaits | simp only [keeps_upd] | split)

theorem keeps_hedgeLane {s0 : State} {key : Nat} {s : State} (hkeep : Keeps s0 s) :
    Keeps s0 (hedgeLane key s) := by
  unfold hedgeLane
  try dsimp only
  with_reducible repeat' (first
    | assumption | apply keeps_setF | apply keeps_bump | apply keeps_logLink | apply keeps_setLane | apply keeps_sendLane
    | apply keeps_ite)

theorem keeps_setLan {s0 : State} {s : State} {p : Nat} {x : Lantern} (hkeep : Keeps s0 s) :
    Keeps s0 (setLan s p x) := by
  unfold setLan
  try dsimp only
  with_reducible repeat' (first
    | intro _ | assumption | simp only [keeps_upd])

theorem keeps_modLan {s0 : State} {s : State} {p : Nat} {f : Lantern → Lantern} (hkeep : Keeps s0 s) :
    Keeps s0 (modLan s p f) := by
  unfold modLan
  try dsimp only
  with_reducible repeat' (first
    | assumption | apply keeps_setLan)

theorem keeps_lasersOff {s0 : State} {s : State} {p : Nat} (hkeep : Keeps s0 s) :
    Keeps s0 (lasersOff s p) := by
  unfold lasersOff
  try dsimp only
  with_reducible repeat' (first
    | intro _ | assumption | apply keeps_setF | apply keeps_ite | apply keeps_forEach)

theorem keeps_markReady {s0 : State} {s : State} {b : Nat} (hkeep : Keeps s0 s) :
    Keeps s0 (markReady s b) := by
  unfold markReady
  try dsimp only
  with_reducible repeat' (first
    | assumption | apply keeps_setBit | apply keeps_irqSource | apply keeps_ite | simp only [keeps_upd])

theorem keeps_orgReadyCheck {s0 : State} {s : State} (hkeep : Keeps s0 s) :
    Keeps s0 (orgReadyCheck s) := by
  unfold orgReadyCheck
  try dsimp only
  with_reducible repeat' (first
    | intro _ | assumption | apply keeps_markReady | apply keeps_ite)

theorem keeps_hedgeEffect {s0 : State} {s : State} {cls key : Nat} (hkeep : Keeps s0 s) :
    Keeps s0 (hedgeEffect s cls key) := by
  unfold hedgeEffect
  try dsimp only
  with_reducible repeat' (first
    | intro _ | assumption | apply keeps_logLink | apply keeps_fatal | apply keeps_portDown | apply keeps_resetCreels
    | apply keeps_hedgeCore | apply keeps_hedgePavilion | apply keeps_wakeBank | apply keeps_hedgeContext
    | apply keeps_hedgeChan | apply keeps_hedgeLane | apply keeps_lasersOff | apply keeps_orgReadyCheck | apply keeps_ite
    | simp only [keeps_upd] | split)

theorem keeps_showProbing {s0 : State} {s : State} (hkeep : Keeps s0 s) :
    Keeps s0 (showProbing s) := by
  unfold showProbing
  try dsimp only
  with_reducible repeat' (first
    | intro _ | assumption | apply keeps_setF)

theorem keeps_putHedge {s0 : State} {s : State} {h : Hedge} (hkeep : Keeps s0 s) :
    Keeps s0 (putHedge s h) := by
  unfold putHedge
  try dsimp only
  with_reducible repeat' (first
    | intro _ | assumption | apply keeps_ite | simp only [keeps_upd])

theorem keeps_logProbe {s0 : State} {s : State} {h : Hedge} {result us n rows flags : Nat} (hkeep : Keeps s0 s) :
    Keeps s0 (logProbe s h result us n rows flags) := by
  unfold logProbe
  try dsimp only
  with_reducible repeat' (first
    | assumption | apply keeps_logPut | simp only [keeps_upd])

theorem keeps_abandonProbes {s0 : State} {s : State} {cls key : Nat} (hkeep : Keeps s0 s) :
    Keeps s0 (abandonProbes s cls key) := by
  unfold abandonProbes
  try dsimp only
  with_reducible repeat' (first
    | intro _ | assumption | apply keeps_showProbing | apply keeps_putHedge | apply keeps_logProbe | apply keeps_forEach
    | simp only [keeps_upd])

theorem keeps_joinRows {s0 : State} {s : State} {h : Hedge} {rows : List Nat} (hkeep : Keeps s0 s) :
    Keeps s0 (joinRows s h rows) := by
  unfold joinRows
  try dsimp only
  with_reducible repeat' (first
    | intro _ | assumption | apply keeps_putHedge | simp only [keeps_upd])

theorem keeps_logJoin {s0 : State} {s : State} {cls key : Nat} (hkeep : Keeps s0 s) :
    Keeps s0 (logJoin s cls key) := by
  unfold logJoin
  try dsimp only
  with_reducible repeat' (first
    | assumption | apply keeps_logLink | simp only [keeps_upd] | split)

theorem keeps_hedgeOne {s0 : State} {s : State} {cls res : Nat} {hold : Bool} {cmd : Nat} (hkeep : Keeps s0 s) :
    Keeps s0 (hedgeOne s cls res hold cmd) := by
  unfold hedgeOne
  try dsimp only
  with_reducible repeat' (first
    | intro _ | assumption | apply keeps_setF | apply keeps_bump | apply keeps_showHedge | apply keeps_hedgeEffect
    | apply keeps_abandonProbes | apply keeps_joinRows | apply keeps_logJoin | apply keeps_ite | simp only [keeps_upd]
    | split)

theorem keeps_applyOne {s0 : State} {s : State} {cls res : Nat} (hkeep : Keeps s0 s) :
    Keeps s0 (applyOne s cls res) := by
  unfold applyOne
  try dsimp only
  with_reducible repeat' (first
    | assumption | apply keeps_hedgeOne)

theorem keeps_fewLanes {s0 : State} {few : State → Nat → Nat} {s : State} {p : Nat} (hkeep : Keeps s0 s) :
    Keeps s0 (fewLanes few s p) := by
  unfold fewLanes
  try dsimp only
  with_reducible repeat' (first
    | assumption | apply keeps_applyOne | apply keeps_ite)

theorem keeps_applyHedge {s0 : State} {s : State} {cls res : Nat} (hkeep : Keeps s0 s) :
    Keeps s0 (applyHedge s cls res) := by
  unfold applyHedge
  try dsimp only
  with_reducible repeat' (first
    | assumption | apply keeps_applyOne | apply keeps_fewLanes | apply keeps_ite)

theorem keeps_watchLanes {s0 : State} {s : State} {p : Nat} (hkeep : Keeps s0 s) :
    Keeps s0 (watchLanes s p) := by
  unfold watchLanes
  try dsimp only
  with_reducible repeat' (first
    | assumption | apply keeps_fewLanes)

theorem keeps_zeroBanks {s0 s : State} {hit : Nat → Bool} (h : Keeps s0 s) : Keeps s0 (zeroBanks s hit) :=
  keeps_of h rfl rfl (amFilter_wf _ _ _) id id id (amFilter_wf _ _ _) (amFilter_wf _ _ _) id

theorem keeps_blankCore {s0 : State} {s : State} {m : Nat} (hkeep : Keeps s0 s) :
    Keeps s0 (blankCore s m) := by
  unfold blankCore
  try dsimp only
  with_reducible repeat' (first
    | intro _ | assumption | apply keeps_modCore | apply keeps_setWmode | apply keeps_setPend | apply keeps_blankTables
    | simp only [keeps_upd])

theorem keeps_coreReturns {s0 : State} {s : State} {m : Nat} (hkeep : Keeps s0 s) :
    Keeps s0 (coreReturns s m) := by
  unfold coreReturns
  try dsimp only
  with_reducible repeat' (first
    | assumption | apply keeps_blankCore | apply keeps_ite)

theorem keeps_cleanUp {s0 : State} {s : State} {cls key : Nat} (hkeep : Keeps s0 s) :
    Keeps s0 (cleanUp s cls key) := by
  unfold cleanUp
  try dsimp only
  with_reducible repeat' (first
    | intro _ | assumption | apply keeps_zeroBanks | apply keeps_coreReturns | apply keeps_ite | apply keeps_forEach
    | simp only [keeps_upd] | split)

theorem keeps_unhedge {s0 : State} {s : State} {h : Hedge} (hkeep : Keeps s0 s) :
    Keeps s0 (unhedge s h) := by
  unfold unhedge
  try dsimp only
  with_reducible repeat' (first
    | intro _ | assumption | apply keeps_setF | apply keeps_sendLane | apply keeps_train | apply keeps_showHedge
    | apply keeps_showProbing | apply keeps_cleanUp | apply keeps_ite | simp only [keeps_upd] | split)

theorem keeps_setRepairMap {s0 : State} {s : State} {m : Nat} {rows : List Nat} (hkeep : Keeps s0 s) :
    Keeps s0 (setRepairMap s m rows) := by
  unfold setRepairMap
  try dsimp only
  with_reducible repeat' (first
    | intro _ | assumption | apply keeps_setF | apply keeps_ite)

theorem keeps_logSpare {s0 : State} {s : State} {cause cls res what left : Nat} (hkeep : Keeps s0 s) :
    Keeps s0 (logSpare s cause cls res what left) := by
  unfold logSpare
  try dsimp only
  with_reducible repeat' (first
    | assumption | apply keeps_logPut | simp only [keeps_upd])

theorem keeps_repairCore {s0 : State} {s : State} {m : Nat} {rows : List Nat} (hkeep : Keeps s0 s) :
    KeepsM s0 (repairCore s m rows) := by
  unfold repairCore
  try dsimp only
  with_reducible repeat' (first
    | intro _ | assumption | apply keeps_setRepairMap | apply keeps_logSpare | apply keeps_ite | apply keepsM_ite
    | apply keeps_forEach | simp only [keepsM_some, keepsM_none] | exact True.intro | refine keepsM_get ?_ ‹_ = some _›)

theorem keeps_repairBank {s0 : State} {s : State} {key : Nat} {rows : List Nat} (hkeep : Keeps s0 s) :
    KeepsM s0 (repairBank s key rows) := by
  unfold repairBank
  try dsimp only
  with_reducible repeat' (first
    | intro _ | assumption | apply keeps_logSpare | apply keeps_ite | apply keepsM_ite | apply keeps_forEach
    | apply keepsM_map | intro _ | simp only [keeps_upd, keepsM_some, keepsM_none] | exact True.intro
    | refine keepsM_get ?_ ‹_ = some _›)

theorem keeps_showSpared {s0 : State} {s : State} {k : Nat} (hkeep : Keeps s0 s) :
    Keeps s0 (showSpared s k) := by
  unfold showSpared
  try dsimp only
  with_reducible repeat' (first
    | intro _ | assumption | apply keeps_setF | apply keeps_foldl | apply keepsL_foldl | apply keepsR_foldl
    | simp only [keepsL_mk, keepsR_mk])

theorem keeps_dropDramErr {s0 s : State} {copied : Nat × Nat → Bool} (h : Keeps s0 s) : Keeps s0 (dropDramErr s copied) :=
  keeps_of h rfl rfl id id id id id id (amFilter_wf _ _ _)

theorem keeps_countCopy {s0 : State} {s : State} {k rows : Nat} {errs : List (Nat × Nat)} (hkeep : Keeps s0 s) :
    Keeps s0 (countCopy s k rows errs) := by
  unfold countCopy
  try dsimp only
  with_reducible repeat' (first
    | intro _ | assumption | apply keeps_bump | apply keeps_noteDramUe | apply keeps_ite | apply keeps_forEach)

theorem keeps_repairRows {s0 : State} {s : State} {pc : Nat} {rows : List Nat} (hkeep : Keeps s0 s) :
    KeepsM s0 (repairRows s pc rows) := by
  unfold repairRows
  try dsimp only
  with_reducible repeat' (first
    | intro _ | assumption | apply keeps_logSpare | apply keeps_showSpared | apply keeps_dropDramErr | apply keeps_countCopy
    | apply keeps_ite | apply keepsM_ite | apply keeps_forEach | apply keepsM_map | intro _
    | simp only [keeps_upd, keepsM_some, keepsM_none] | exact True.intro | refine keepsM_get ?_ ‹_ = some _›)

theorem keeps_repairParts {s0 s : State} {size : Nat} {f : State → Nat → List Nat → Option State} {rows : List Nat}
    (hf : ∀ t i l, Keeps s0 t → KeepsM s0 (f t i l)) (h : Keeps s0 s) : KeepsM s0 (repairParts size f s rows) := by
  unfold repairParts
  split
  · simp only [keepsM_none]
  · have : ∀ (l : List Nat) (o : Option State), KeepsM s0 o → KeepsM s0 (l.foldl
        (fun o i => o.bind (fun s => f s i ((rows.filter (fun r => r / size == i)).map (fun r => r % size)))) o) := by
      intro l
      induction l with
      | nil => exact fun o ho => ho
      | cons i l ih =>
        intro o ho
        refine ih _ ?_
        cases o with
        | none => simp only [Option.bind, keepsM_none]
        | some t => exact hf t i _ (ho t rfl)
    exact this _ _ (by simpa only [keepsM_some] using h)

theorem keeps_spareLane {s0 : State} {s : State} {k : Nat} {up : Bool} {lane : Nat} (hkeep : Keeps s0 s) :
    KeepsM s0 (spareLane s k up lane) := by
  unfold spareLane
  try dsimp only
  with_reducible repeat' (first
    | assumption | apply keeps_setF | apply keeps_logSpare | apply keeps_ite | apply keepsM_ite
    | simp only [keeps_upd, keepsM_some, keepsM_none] | exact True.intro | refine keepsM_get ?_ ‹_ = some _›)

theorem keeps_repairStack {s0 : State} {s : State} {k : Nat} {rows : List Nat} (hkeep : Keeps s0 s) :
    KeepsM s0 (repairStack s k rows) := by
  unfold repairStack
  try dsimp only
  with_reducible repeat' (first
    | intro _ | assumption | apply keeps_repairRows | apply keeps_repairParts | apply keeps_spareLane | apply keeps_ite
    | apply keepsM_ite | apply keeps_foldl | apply keepsL_foldl | apply keepsR_foldl | apply keepsM_foldl
    | apply keepsM_bind | intro _ | simp only [keepsL_mk, keepsR_mk, keepsM_some, keepsM_none] | exact True.intro
    | refine keepsM_get ?_ ‹_ = some _›)

theorem keeps_startProbe {s0 : State} {s : State} {h : Hedge} (hkeep : Keeps s0 s) :
    Keeps s0 (startProbe s h) := by
  unfold startProbe
  try dsimp only
  with_reducible repeat' (first
    | assumption | apply keeps_fullRetrain | apply keeps_showProbing | apply keeps_putHedge | apply keeps_ite
    | simp only [keeps_upd])

theorem keeps_execProbe {s0 : State} {cls res : Nat} {s : State} (hkeep : Keeps s0 s) :
    KeepsO s0 (execProbe cls res s) := by
  unfold execProbe
  try dsimp only
  with_reducible repeat' (first
    | assumption | apply keeps_whenAwake | apply keeps_startProbe | apply keeps_ite | apply keepsO_next
    | simp only [keeps_upd] | split)

theorem keeps_endHedgeCmd {s0 : State} {s : State} {action result cls res : Nat} (hkeep : Keeps s0 s) :
    Keeps s0 (endHedgeCmd s action result cls res) := by
  unfold endHedgeCmd
  try dsimp only
  with_reducible repeat' (first
    | assumption | apply keeps_setF | apply keeps_logPut | apply keeps_ite | simp only [keeps_upd])

theorem keeps_returnHedge {s0 : State} {s : State} {h : Hedge} (hkeep : Keeps s0 s) :
    Keeps s0 (returnHedge s h) := by
  unfold returnHedge
  try dsimp only
  with_reducible repeat' (first
    | assumption | apply keeps_unhedge | apply keeps_endHedgeCmd)

theorem keeps_logParity {s0 : State} {s : State} {cls res : Nat} {hedges : Bool} (hkeep : Keeps s0 s) :
    Keeps s0 (logParity s cls res hedges) := by
  unfold logParity
  try dsimp only
  with_reducible repeat' (first
    | assumption | apply keeps_logPut | apply keeps_drawBytes | apply keeps_ite | apply keepsL_ite | apply keepsL_fst
    | simp only [keeps_upd])

theorem keeps_execHedge {s0 : State} {cls res : Nat} {rows : List Nat} {s : State} (hkeep : Keeps s0 s) :
    KeepsO s0 (execHedge cls res rows s) := by
  unfold execHedge
  try dsimp only
  with_reducible repeat' (first
    | assumption | apply keeps_whenAwake | apply keeps_progress | apply keeps_fatal | apply keeps_joinRows
    | apply keeps_applyHedge | apply keeps_logParity | apply keeps_ite | apply keepsO_next | simp only [keeps_upd] | split)

theorem keeps_hedgeCmd {s0 : State} {s : State} {action cls res : Nat} (hkeep : Keeps s0 s) :
    Keeps s0 (hedgeCmd s action cls res) := by
  unfold hedgeCmd
  try dsimp only
  with_reducible repeat' (first
    | assumption | apply keeps_setF | apply keeps_showProbing | apply keeps_putHedge | apply keeps_logProbe
    | apply keeps_hedgeOne | apply keeps_fewLanes | apply keeps_endHedgeCmd | apply keeps_ite | simp only [keeps_upd]
    | split)

theorem keeps_execHedgeAndProbe {s0 : State} {cls : Fin 16} {res : BitVec 32} {s : State} (hkeep : Keeps s0 s) :
    KeepsO s0 (execHedgeAndProbe cls res s) := by
  unfold execHedgeAndProbe
  try dsimp only
  with_reducible repeat' (first
    | assumption | apply keeps_whenServed | apply keeps_progress | apply keeps_hedgeCmd | apply keepsO_next)

theorem keeps_execHedgeAndHold {s0 : State} {cls : Fin 16} {res : BitVec 32} {s : State} (hkeep : Keeps s0 s) :
    KeepsO s0 (execHedgeAndHold cls res s) := by
  unfold execHedgeAndHold
  try dsimp only
  with_reducible repeat' (first
    | assumption | apply keeps_whenServed | apply keeps_progress | apply keeps_hedgeCmd | apply keepsO_next)

theorem keeps_execProbeHedged {s0 : State} {cls : Fin 16} {res : BitVec 32} {s : State} (hkeep : Keeps s0 s) :
    KeepsO s0 (execProbeHedged cls res s) := by
  unfold execProbeHedged
  try dsimp only
  with_reducible repeat' (first
    | assumption | apply keeps_whenServed | apply keeps_progress | apply keeps_hedgeCmd | apply keepsO_next)

theorem keeps_execErrorLogEntryWrite {s0 : State} {s : State} (hkeep : Keeps s0 s) :
    KeepsO s0 (execErrorLogEntryWrite s) := by
  unfold execErrorLogEntryWrite
  try dsimp only
  with_reducible repeat' (first
    | assumption | apply keeps_setF | apply keeps_whenOn | apply keeps_irqSource | apply keeps_toHostEntry | apply keeps_ite
    | apply keepsO_next | simp only [keeps_upd] | split)

theorem keeps_writeLogRing {s0 : State} {s : State} {v : Nat} (hkeep : Keeps s0 s) :
    Keeps s0 (writeLogRing s v) := by
  unfold writeLogRing
  try dsimp only
  with_reducible repeat' (first
    | assumption | apply keeps_regPut | apply keeps_setF | apply keeps_ite | simp only [keeps_upd] | split)

theorem keeps_execLogringEnable {s0 : State} {v : BitVec 64} {s : State} (hkeep : Keeps s0 s) :
    KeepsO s0 (execLogringEnable v s) := by
  unfold execLogringEnable
  try dsimp only
  with_reducible repeat' (first
    | assumption | apply keeps_whenServed | apply keeps_writeLogRing | apply keepsO_next)

end Sys2Proof.Machine
end

