-- ==== Sys2Proof/Laws/KeepsPorts.lean ====
section
/-! SUPPORT. What the operations and the meanings of Machine/Packets, Link, Wickets, Lantern keep: one lemma each (see Laws/Keeps.lean). -/

namespace Sys2Proof.Machine

open Sys2Proof

set_option linter.all false

theorem keeps_popVc {s0 : State} {s : State} {p vc : Nat} {r : RxPkt} (hkeep : Keeps s0 s) :
    Keeps s0 (popVc s p vc r) := by
  unfold popVc
  try dsimp only
  with_reducible repeat' (first
    | intro _ | assumption | apply keeps_modPort | simp only [keeps_upd])

theorem keeps_onPacket {s0 : State} {p : Fin 8} {ty : Nat} {f : State → Pkt → Option State} {s : State} (hf : ∀ t0 t1, Keeps s0
    t0 → KeepsM s0 (f t0 t1)) (hkeep : Keeps s0 s) :
    Keeps s0 (onPacket p ty f s) := by
  unfold onPacket
  try dsimp only
  with_reducible repeat' (first
    | intro _ | assumption | apply keeps_progress | apply keeps_popVc | apply hf | apply keeps_ite | apply keepsL_ite
    | apply keepsR_ite | apply keepsO_ite | apply keepsM_ite | apply keepsN_ite | apply keepsRd_ite | apply keepsN_bind
    | apply keepsM_bind | apply keepsM_getD | apply keepsO_next | apply keeps_forEach | apply keeps_foldl
    | apply keepsL_foldl | apply keepsR_foldl | apply keepsL_fst | apply keepsR_snd | apply keepsN_pair
    | simp only [keeps_upd, keepsL_mk, keepsR_mk, keepsM_some, keepsM_none, keepsN_some, keepsN_none, keepsRd_ok,
        keepsRd_waits, keepsRd_failed, keepsRd_bad]
    | exact True.intro | split | (refine keepsM_get ?_ ‹_ = some _›) | (refine keepsN_get ?_ ‹_ = some (_, _)›)
    | (refine keepsRd_getOk ?_ ‹_ = Read.ok _ _›) | (refine keepsRd_getFailed ?_ ‹_ = Read.failed _ _›)
    | (refine keepsRd_getBad ?_ ‹_ = Read.bad _ _›))

theorem keeps_violate {s0 : State} {s : State} {p : Nat} {h : Hdr} {cause : Nat} (hkeep : Keeps s0 s) :
    Keeps s0 (violate s p h cause) := by
  unfold violate
  try dsimp only
  with_reducible repeat' (first
    | assumption | apply keeps_setF | apply keeps_bump | apply keeps_logPut | apply keeps_logEvent | apply keeps_ite
    | simp only [keeps_upd])

theorem keeps_reply {s0 : State} {s : State} {p : Nat} {h : Hdr} {ty status sub len : Nat} {body : List Byte} (hkeep : Keeps s0
    s) :
    Keeps s0 (reply s p h ty status sub len body) := by
  unfold reply
  try dsimp only
  with_reducible repeat' (first
    | assumption | apply keeps_sendPkt | simp only [keeps_upd])

theorem keeps_addPartial {s0 : State} {s : State} {a v : Nat} (hkeep : Keeps s0 s) :
    Keeps s0 (addPartial s a v) := by
  unfold addPartial
  try dsimp only
  with_reducible repeat' (first
    | assumption | apply keeps_setWord | apply keeps_noteWord | apply keeps_ite)

theorem keeps_collect {s0 : State} {s : State} {p j a : Nat} {body : List Byte} (hkeep : Keeps s0 s) :
    KeepsL s0 (collect s p j a body) := by
  unfold collect
  try dsimp only
  with_reducible repeat' (first
    | intro _ | assumption | apply keeps_setF | apply keeps_bump | apply keeps_logPut | apply keeps_noteWord
    | apply keeps_putWord | apply keeps_poisonWord | apply keeps_addPartial | apply keeps_ite | apply keepsL_ite
    | apply keeps_forEach | apply keepsL_fst | simp only [keeps_upd, keepsL_mk])

theorem keeps_wkLocate {s0 : State} {s : State} {h : Hdr} {off : Nat} {write : Bool} (hkeep : Keeps s0 s) :
    KeepsN s0 (wkLocate s h off write) := by
  unfold wkLocate
  try dsimp only
  with_reducible repeat' (first
    | intro _ | assumption | apply keeps_locate | apply keeps_ite | apply keepsL_ite | apply keepsR_ite | apply keepsO_ite
    | apply keepsM_ite | apply keepsN_ite | apply keepsRd_ite | apply keepsN_bind | apply keepsM_bind | apply keepsM_getD
    | apply keepsO_next | apply keeps_forEach | apply keeps_foldl | apply keepsL_foldl | apply keepsR_foldl
    | apply keepsL_fst | apply keepsR_snd | apply keepsN_pair
    | simp only [keeps_upd, keepsL_mk, keepsR_mk, keepsM_some, keepsM_none, keepsN_some, keepsN_none, keepsRd_ok,
        keepsRd_waits, keepsRd_failed, keepsRd_bad]
    | exact True.intro | split | (refine keepsM_get ?_ ‹_ = some _›) | (refine keepsN_get ?_ ‹_ = some (_, _)›)
    | (refine keepsRd_getOk ?_ ‹_ = Read.ok _ _›) | (refine keepsRd_getFailed ?_ ‹_ = Read.failed _ _›)
    | (refine keepsRd_getBad ?_ ‹_ = Read.bad _ _›))

theorem keeps_serveAt {s0 : State} {s : State} {cls id : Nat} {places : List Nat} (hkeep : Keeps s0 s) :
    KeepsM s0 (serveAt s cls id places) := by
  unfold serveAt
  try dsimp only
  with_reducible repeat' (first
    | intro _ | assumption | apply keeps_useSub | apply keeps_ite | apply keepsM_ite | apply keeps_forEach
    | simp only [keepsM_some, keepsM_none] | exact True.intro | refine keepsM_get ?_ ‹_ = some _›)

theorem keeps_serveWk {s0 : State} {s : State} {p : Nat} {h : Hdr} {off n : Nat} {write : Bool} (hkeep : Keeps s0 s) :
    KeepsM s0 (serveWk s p h off n write) := by
  unfold serveWk
  try dsimp only
  with_reducible repeat' (first
    | assumption | apply keeps_serveAt | simp only [keepsM_some, keepsM_none] | exact True.intro
    | refine keepsM_get ?_ ‹_ = some _›)

theorem keeps_doWr {s0 : State} {p : Nat} {s : State} {k : Pkt} (hkeep : Keeps s0 s) :
    KeepsM s0 (doWr p s k) := by
  unfold doWr
  try dsimp only
  with_reducible repeat' (first
    | intro _ | assumption | apply keeps_setGranted | apply keeps_writeLoc | apply keeps_violate | apply keeps_reply
    | apply keeps_collect | apply keeps_wkLocate | apply keeps_serveWk | apply keeps_ite | apply keepsL_ite
    | apply keepsR_ite | apply keepsO_ite | apply keepsM_ite | apply keepsN_ite | apply keepsRd_ite | apply keepsN_bind
    | apply keepsM_bind | apply keepsM_getD | apply keepsO_next | apply keeps_forEach | apply keeps_foldl
    | apply keepsL_foldl | apply keepsR_foldl | apply keepsL_fst | apply keepsR_snd | apply keepsN_pair
    | simp only [keeps_upd, keepsL_mk, keepsR_mk, keepsM_some, keepsM_none, keepsN_some, keepsN_none, keepsRd_ok,
        keepsRd_waits, keepsRd_failed, keepsRd_bad]
    | exact True.intro | split | (refine keepsM_get ?_ ‹_ = some _›) | (refine keepsN_get ?_ ‹_ = some (_, _)›)
    | (refine keepsRd_getOk ?_ ‹_ = Read.ok _ _›) | (refine keepsRd_getFailed ?_ ‹_ = Read.failed _ _›)
    | (refine keepsRd_getBad ?_ ‹_ = Read.bad _ _›))

theorem keeps_execWr {s0 : State} {p : Fin 8} {s : State} (hkeep : Keeps s0 s) :
    KeepsO s0 (execWr p s) := by
  unfold execWr
  try dsimp only
  with_reducible repeat' (first
    | assumption | apply keeps_whenOn | apply keeps_onPacket | apply keeps_doWr | apply keepsO_next
    | refine keepsM_get ?_ ‹_ = some _›)

theorem keeps_readCuts {s0 : State} {p : Nat} {h : Hdr} {stop : Nat} {l : List (Nat × Nat)} : ∀ {s : State}, Keeps s0 s →
    KeepsM s0 (readCuts p h stop l s) := by
  induction l with
  | nil => intro s h; simpa only [readCuts, keepsM_some] using h
  | cons x l ih =>
    intro s h
    unfold readCuts
    try dsimp only
    with_reducible repeat' (first
    | intro _ | assumption | apply keeps_sendPkt | apply keeps_readLoc | apply keeps_wkLocate | apply keeps_serveWk
    | apply ih | apply keeps_ite | apply keepsL_ite | apply keepsR_ite | apply keepsO_ite | apply keepsM_ite
    | apply keepsN_ite | apply keepsRd_ite | apply keepsN_bind | apply keepsM_bind | apply keepsM_getD | apply keepsO_next
    | apply keeps_forEach | apply keeps_foldl | apply keepsL_foldl | apply keepsR_foldl | apply keepsL_fst
    | apply keepsR_snd | apply keepsN_pair
    | simp only [keeps_upd, keepsL_mk, keepsR_mk, keepsM_some, keepsM_none, keepsN_some, keepsN_none, keepsRd_ok,
        keepsRd_waits, keepsRd_failed, keepsRd_bad]
    | exact True.intro | split | (refine keepsM_get ?_ ‹_ = some _›) | (refine keepsN_get ?_ ‹_ = some (_, _)›)
    | (refine keepsRd_getOk ?_ ‹_ = Read.ok _ _›) | (refine keepsRd_getFailed ?_ ‹_ = Read.failed _ _›)
    | (refine keepsRd_getBad ?_ ‹_ = Read.bad _ _›))

theorem keeps_doRdreq {s0 : State} {p : Nat} {s : State} {k : Pkt} (hkeep : Keeps s0 s) :
    KeepsM s0 (doRdreq p s k) := by
  unfold doRdreq
  try dsimp only
  with_reducible repeat' (first
    | assumption | apply keeps_violate | apply keeps_reply | apply keeps_readCuts | apply keeps_ite | apply keepsM_ite
    | simp only [keepsM_some, keepsM_none] | exact True.intro | refine keepsM_get ?_ ‹_ = some _›)

theorem keeps_execRdreq {s0 : State} {p : Fin 8} {s : State} (hkeep : Keeps s0 s) :
    KeepsO s0 (execRdreq p s) := by
  unfold execRdreq
  try dsimp only
  with_reducible repeat' (first
    | assumption | apply keeps_whenOn | apply keeps_onPacket | apply keeps_doRdreq | apply keepsO_next
    | refine keepsM_get ?_ ‹_ = some _›)

theorem keeps_doFereq {s0 : State} {p : Nat} {s : State} {k : Pkt} (hkeep : Keeps s0 s) :
    KeepsM s0 (doFereq p s k) := by
  unfold doFereq
  try dsimp only
  with_reducible repeat' (first
    | assumption | apply keeps_askRef | apply keeps_violate | apply keeps_reply | apply keeps_ite | apply keepsL_ite
    | apply keepsM_ite | apply keepsL_fst | simp only [keeps_upd, keepsM_some, keepsM_none] | exact True.intro
    | refine keepsM_get ?_ ‹_ = some _›)

theorem keeps_execFereq {s0 : State} {p : Fin 8} {s : State} (hkeep : Keeps s0 s) :
    KeepsO s0 (execFereq p s) := by
  unfold execFereq
  try dsimp only
  with_reducible repeat' (first
    | assumption | apply keeps_whenOn | apply keeps_onPacket | apply keeps_doFereq | apply keepsO_next
    | refine keepsM_get ?_ ‹_ = some _›)

theorem keeps_doCmsg {s0 : State} {p : Nat} {s : State} {k : Pkt} (hkeep : Keeps s0 s) :
    KeepsM s0 (doCmsg p s k) := by
  unfold doCmsg
  try dsimp only
  with_reducible repeat' (first
    | intro _ | assumption | apply keeps_modCreel | apply keeps_askRef | apply keeps_crlStale | apply keeps_stageMsg
    | apply keeps_violate | apply keeps_reply | apply keeps_ite | apply keepsL_ite | apply keepsM_ite | apply keepsM_getD
    | apply keepsL_fst | simp only [keeps_upd, keepsM_some, keepsM_none] | exact True.intro
    | refine keepsM_get ?_ ‹_ = some _›)

theorem keeps_execCmsg {s0 : State} {p : Fin 8} {s : State} (hkeep : Keeps s0 s) :
    KeepsO s0 (execCmsg p s) := by
  unfold execCmsg
  try dsimp only
  with_reducible repeat' (first
    | assumption | apply keeps_whenOn | apply keeps_onPacket | apply keeps_doCmsg | apply keepsO_next
    | refine keepsM_get ?_ ‹_ = some _›)

theorem keeps_doGrantreq {s0 : State} {p : Nat} {s : State} {k : Pkt} (hkeep : Keeps s0 s) :
    KeepsM s0 (doGrantreq p s k) := by
  unfold doGrantreq
  try dsimp only
  with_reducible repeat' (first
    | intro _ | assumption | apply keeps_modWk | apply keeps_askRef | apply keeps_serveWicket | apply keeps_requestGrant
    | apply keeps_violate | apply keeps_reply | apply keeps_ite | apply keepsL_ite | apply keepsM_ite | apply keepsM_getD
    | apply keepsL_fst | simp only [keeps_upd, keepsM_some, keepsM_none] | exact True.intro
    | refine keepsM_get ?_ ‹_ = some _›)

theorem keeps_execGrantreq {s0 : State} {p : Fin 8} {s : State} (hkeep : Keeps s0 s) :
    KeepsO s0 (execGrantreq p s) := by
  unfold execGrantreq
  try dsimp only
  with_reducible repeat' (first
    | assumption | apply keeps_whenOn | apply keeps_onPacket | apply keeps_doGrantreq | apply keepsO_next
    | refine keepsM_get ?_ ‹_ = some _›)

theorem keeps_noteLate {s0 : State} {s : State} {t : Txn} (hkeep : Keeps s0 s) :
    Keeps s0 (noteLate s t) := by
  unfold noteLate
  try dsimp only
  with_reducible repeat' (first
    | intro _ | assumption | apply keeps_staleTask | apply keeps_ite | simp only [keeps_upd] | split)

theorem keeps_endTxn {s0 : State} {s : State} {p : Nat} {t : Txn} {status : Nat} (hkeep : Keeps s0 s) :
    Keeps s0 (endTxn s p t status) := by
  unfold endTxn
  try dsimp only
  with_reducible repeat' (first
    | assumption | apply keeps_dropTxn | apply keeps_chanAnswered | apply keeps_completeShare | apply keeps_noteLate
    | apply keeps_ite | simp only [keeps_upd] | split)

theorem keeps_keepTail {s0 : State} {s : State} {t : Txn} {bs : List Byte} (hkeep : Keeps s0 s) :
    Keeps s0 (keepTail s t bs) := by
  unfold keepTail
  try dsimp only
  with_reducible repeat' (first
    | intro _ | assumption | apply keeps_modChan | simp only [keeps_upd] | split)

theorem keeps_tookData {s0 : State} {s : State} {p : Nat} {t : Txn} {body : List Byte} {n : Nat} (hkeep : Keeps s0 s) :
    Keeps s0 (tookData s p t body n) := by
  unfold tookData
  try dsimp only
  with_reducible repeat' (first
    | assumption | apply keeps_setTxn | apply keeps_noteLate | apply keeps_endTxn | apply keeps_keepTail | apply keeps_ite
    | simp only [keeps_upd])

theorem keeps_staleData {s0 : State} {s : State} {p : Nat} {t : Txn} {n : Nat} (hkeep : Keeps s0 s) :
    KeepsM s0 (staleData s p t n) := by
  unfold staleData
  try dsimp only
  with_reducible repeat' (first
    | assumption | apply keeps_setTxn | apply keeps_chanStale | apply keeps_endTxn | apply keeps_ite | apply keepsM_ite
    | simp only [keeps_upd, keepsM_some, keepsM_none] | exact True.intro | split | refine keepsM_get ?_ ‹_ = some _›)

theorem keeps_haltRun {s0 : State} {s : State} {p : Nat} {t : Txn} {base size va : Nat} (hkeep : Keeps s0 s) :
    Keeps s0 (haltRun s p t base size va) := by
  unfold haltRun
  try dsimp only
  with_reducible repeat' (first
    | intro _ | assumption | apply keeps_modChan | apply keeps_dropTxn | apply keeps_faultChan | apply keeps_endTxn
    | simp only [keeps_upd] | split)

theorem keeps_doRddata {s0 : State} {p : Nat} {s : State} {k : Pkt} (hkeep : Keeps s0 s) :
    KeepsM s0 (doRddata p s k) := by
  unfold doRddata
  try dsimp only
  with_reducible repeat' (first
    | intro _ | assumption | apply keeps_locate | apply keeps_writeLoc | apply keeps_serveAt | apply keeps_endTxn
    | apply keeps_tookData | apply keeps_staleData | apply keeps_haltRun | apply keeps_ite | apply keepsL_ite
    | apply keepsR_ite | apply keepsO_ite | apply keepsM_ite | apply keepsN_ite | apply keepsRd_ite | apply keepsN_bind
    | apply keepsM_bind | apply keepsM_getD | apply keepsO_next | apply keeps_forEach | apply keeps_foldl
    | apply keepsL_foldl | apply keepsR_foldl | apply keepsL_fst | apply keepsR_snd | apply keepsN_pair
    | simp only [keeps_upd, keepsL_mk, keepsR_mk, keepsM_some, keepsM_none, keepsN_some, keepsN_none, keepsRd_ok,
        keepsRd_waits, keepsRd_failed, keepsRd_bad]
    | exact True.intro | split | (refine keepsM_get ?_ ‹_ = some _›) | (refine keepsN_get ?_ ‹_ = some (_, _)›)
    | (refine keepsRd_getOk ?_ ‹_ = Read.ok _ _›) | (refine keepsRd_getFailed ?_ ‹_ = Read.failed _ _›)
    | (refine keepsRd_getBad ?_ ‹_ = Read.bad _ _›))

theorem keeps_execRddata {s0 : State} {p : Fin 8} {s : State} (hkeep : Keeps s0 s) :
    KeepsO s0 (execRddata p s) := by
  unfold execRddata
  try dsimp only
  with_reducible repeat' (first
    | assumption | apply keeps_whenOn | apply keeps_onPacket | apply keeps_doRddata | apply keepsO_next
    | refine keepsM_get ?_ ‹_ = some _›)

theorem keeps_doWrack {s0 : State} {p : Nat} {s : State} {k : Pkt} (hkeep : Keeps s0 s) :
    KeepsM s0 (doWrack p s k) := by
  unfold doWrack
  try dsimp only
  with_reducible repeat' (first
    | intro _ | assumption | apply keeps_setTxn | apply keeps_noteLate | apply keeps_endTxn | apply keeps_ite
    | apply keepsM_ite | apply keepsM_map | intro _ | simp only [keeps_upd, keepsM_some, keepsM_none] | exact True.intro
    | split | refine keepsM_get ?_ ‹_ = some _›)

theorem keeps_execWrack {s0 : State} {p : Fin 8} {s : State} (hkeep : Keeps s0 s) :
    KeepsO s0 (execWrack p s) := by
  unfold execWrack
  try dsimp only
  with_reducible repeat' (first
    | assumption | apply keeps_whenOn | apply keeps_onPacket | apply keeps_doWrack | apply keepsO_next
    | refine keepsM_get ?_ ‹_ = some _›)

theorem keeps_doFereply {s0 : State} {p : Nat} {s : State} {k : Pkt} (hkeep : Keeps s0 s) :
    KeepsM s0 (doFereply p s k) := by
  unfold doFereply
  try dsimp only
  with_reducible repeat' (first
    | assumption | apply keeps_dropTxn | apply keeps_answer | apply keeps_noteLate | apply keeps_ite | apply keepsM_ite
    | simp only [keeps_upd, keepsM_some, keepsM_none] | exact True.intro | split | refine keepsM_get ?_ ‹_ = some _›)

theorem keeps_execFereply {s0 : State} {p : Fin 8} {s : State} (hkeep : Keeps s0 s) :
    KeepsO s0 (execFereply p s) := by
  unfold execFereply
  try dsimp only
  with_reducible repeat' (first
    | assumption | apply keeps_whenOn | apply keeps_onPacket | apply keeps_doFereply | apply keepsO_next
    | refine keepsM_get ?_ ‹_ = some _›)

theorem keeps_doCmsgack {s0 : State} {p : Nat} {s : State} {k : Pkt} (hkeep : Keeps s0 s) :
    KeepsM s0 (doCmsgack p s k) := by
  unfold doCmsgack
  try dsimp only
  with_reducible repeat' (first
    | assumption | apply keeps_endTxn | simp only [keeps_upd, keepsM_some, keepsM_none] | exact True.intro | split
    | refine keepsM_get ?_ ‹_ = some _›)

theorem keeps_execCmsgack {s0 : State} {p : Fin 8} {s : State} (hkeep : Keeps s0 s) :
    KeepsO s0 (execCmsgack p s) := by
  unfold execCmsgack
  try dsimp only
  with_reducible repeat' (first
    | assumption | apply keeps_whenOn | apply keeps_onPacket | apply keeps_doCmsgack | apply keepsO_next
    | refine keepsM_get ?_ ‹_ = some _›)

theorem keeps_resumeTxns {s0 : State} {s : State} {p w : Nat} (hkeep : Keeps s0 s) :
    Keeps s0 (resumeTxns s p w) := by
  unfold resumeTxns
  try dsimp only
  with_reducible repeat' (first
    | intro _ | assumption | apply keeps_setTxn | apply keeps_pumpTxn | apply keeps_forEach | simp only [keeps_upd])

theorem keeps_refuseCredit {s0 : State} {s : State} {p : Nat} {who : Who} (hkeep : Keeps s0 s) :
    Keeps s0 (refuseCredit s p who) := by
  unfold refuseCredit
  try dsimp only
  with_reducible repeat' (first
    | assumption | apply keeps_failCredit | simp only [keeps_upd] | split)

theorem keeps_doGrant {s0 : State} {p : Nat} {s : State} {k : Pkt} (hkeep : Keeps s0 s) :
    KeepsM s0 (doGrant p s k) := by
  unfold doGrant
  try dsimp only
  with_reducible repeat' (first
    | intro _ | assumption | apply keeps_setWallet | apply keeps_dropTxn | apply keeps_sendToken | apply keeps_endTxn
    | apply keeps_resumeTxns | apply keeps_refuseCredit | apply keeps_ite | apply keepsM_ite | apply keeps_forEach
    | simp only [keeps_upd, keepsM_some, keepsM_none] | exact True.intro | split | refine keepsM_get ?_ ‹_ = some _›)

theorem keeps_execGrant {s0 : State} {p : Fin 8} {s : State} (hkeep : Keeps s0 s) :
    KeepsO s0 (execGrant p s) := by
  unfold execGrant
  try dsimp only
  with_reducible repeat' (first
    | assumption | apply keeps_whenOn | apply keeps_onPacket | apply keeps_doGrant | apply keepsO_next
    | refine keepsM_get ?_ ‹_ = some _›)

theorem keeps_sendNak {s0 : State} {s : State} {p : Nat} (hkeep : Keeps s0 s) :
    Keeps s0 (sendNak s p) := by
  unfold sendNak
  try dsimp only
  with_reducible repeat' (first
    | intro _ | assumption | apply keeps_modPort | apply keeps_sendIdle | apply keeps_ite | simp only [keeps_upd])

theorem keeps_takeAck {s0 : State} {s : State} {p ack : Nat} (hkeep : Keeps s0 s) :
    Keeps s0 (takeAck s p ack) := by
  unfold takeAck
  try dsimp only
  with_reducible repeat' (first
    | intro _ | assumption | apply keeps_setF | apply keeps_modPort | apply keeps_progress | apply keeps_ite
    | simp only [keeps_upd] | split)

theorem keeps_takeCredit {s0 : State} {s : State} {p : Nat} {f : Flit} (hkeep : Keeps s0 s) :
    Keeps s0 (takeCredit s p f) := by
  unfold takeCredit
  try dsimp only
  with_reducible repeat' (first
    | assumption | apply keeps_setVcCredit | apply keeps_ite)

theorem keeps_malformed {s0 : State} {s : State} {p : Nat} (hkeep : Keeps s0 s) :
    Keeps s0 (malformed s p) := by
  unfold malformed
  try dsimp only
  with_reducible repeat' (first
    | assumption | apply keeps_setF | apply keeps_bump | apply keeps_logLink | apply keeps_quickRetrain)

theorem keeps_takePayload {s0 : State} {s : State} {p : Nat} {f : Flit} (hkeep : Keeps s0 s) :
    Keeps s0 (takePayload s p f) := by
  unfold takePayload
  try dsimp only
  with_reducible repeat' (first
    | intro _ | assumption | apply keeps_modPort | apply keeps_malformed | apply keeps_ite | simp only [keeps_upd])

theorem keeps_releaseHeld {s0 : State} {s : State} {p : Nat} (hkeep : Keeps s0 s) :
    Keeps s0 (releaseHeld s p) := by
  unfold releaseHeld
  try dsimp only
  with_reducible repeat' (first
    | intro _ | assumption | apply keeps_startShare | apply keeps_askCredit | apply keeps_ite | apply keeps_forEach
    | simp only [keeps_upd] | split)

theorem keeps_peerLane {s0 : State} {p lane : Nat} {on : Bool} {seq : Nat} {s : State} (hkeep : Keeps s0 s) :
    Keeps s0 (peerLane p lane on seq s) := by
  unfold peerLane
  try dsimp only
  with_reducible repeat' (first
    | intro _ | assumption | apply keeps_modPort | simp only [keeps_upd])

theorem keeps_peerMoved {s0 : State} {p lane laser : Nat} {s : State} (hkeep : Keeps s0 s) :
    Keeps s0 (peerMoved p lane laser s) := by
  unfold peerMoved
  try dsimp only
  with_reducible repeat' (first
    | assumption | apply keeps_logLink | apply keeps_setRxLaser)

theorem keeps_peerDrains {s0 : State} {p : Nat} {s : State} (hkeep : Keeps s0 s) :
    Keeps s0 (peerDrains p s) := by
  unfold peerDrains
  try dsimp only
  with_reducible repeat' (first
    | intro _ | assumption | apply keeps_modPort | simp only [keeps_upd])

theorem keeps_peerUndrains {s0 : State} {p : Nat} {s : State} (hkeep : Keeps s0 s) :
    Keeps s0 (peerUndrains p s) := by
  unfold peerUndrains
  try dsimp only
  with_reducible repeat' (first
    | intro _ | assumption | apply keeps_modPort | apply keeps_releaseHeld | simp only [keeps_upd])

theorem keeps_takeCtl {s0 : State} {s : State} {p : Nat} {payload : List Byte} (hkeep : Keeps s0 s) :
    Keeps s0 (takeCtl s p payload) := by
  unfold takeCtl
  try dsimp only
  with_reducible repeat' (first
    | intro _ | assumption | apply keeps_peerLane | apply keeps_peerMoved | apply keeps_peerDrains
    | apply keeps_peerUndrains | simp only [keeps_upd] | split)

theorem keeps_acceptFlit {s0 : State} {s : State} {p : Nat} {f : Flit} (hkeep : Keeps s0 s) :
    Keeps s0 (acceptFlit s p f) := by
  unfold acceptFlit
  try dsimp only
  with_reducible repeat' (first
    | intro _ | assumption | apply keeps_bump | apply keeps_modPort | apply keeps_applyLanes | apply keeps_takeCredit
    | apply keeps_malformed | apply keeps_takePayload | apply keeps_takeCtl | apply keeps_ite | simp only [keeps_upd])

theorem keeps_receiveFlit {s0 : State} {s : State} {p : Nat} {bytes : List Byte} (hkeep : Keeps s0 s) :
    Keeps s0 (receiveFlit s p bytes) := by
  unfold receiveFlit
  try dsimp only
  with_reducible repeat' (first
    | intro _ | assumption | apply keeps_bump | apply keeps_modPort | apply keeps_pump | apply keeps_sendNak
    | apply keeps_takeAck | apply keeps_takeCredit | apply keeps_acceptFlit | apply keeps_ite | simp only [keeps_upd])

theorem keeps_execFlitReceive {s0 : State} {p : Fin 8} {bytes : List Byte} {s : State} (hkeep : Keeps s0 s) :
    KeepsO s0 (execFlitReceive p bytes s) := by
  unfold execFlitReceive
  try dsimp only
  with_reducible repeat' (first
    | assumption | apply keeps_whenAwake | apply keeps_progress | apply keeps_watchLanes | apply keeps_receiveFlit
    | apply keeps_ite | apply keepsO_next)

theorem keeps_replay {s0 : State} {s : State} {p : Nat} (hkeep : Keeps s0 s) :
    Keeps s0 (replay s p) := by
  unfold replay
  try dsimp only
  with_reducible repeat' (first
    | intro _ | assumption | apply keeps_modPort | apply keeps_replayAll | apply keeps_pump | apply keeps_quickRetrain
    | apply keeps_ite | simp only [keeps_upd])

theorem keeps_execNak {s0 : State} {p : Fin 8} {s : State} (hkeep : Keeps s0 s) :
    KeepsO s0 (execNak p s) := by
  unfold execNak
  try dsimp only
  with_reducible repeat' (first
    | intro _ | assumption | apply keeps_whenAwake | apply keeps_modPort | apply keeps_pump | apply keeps_replay
    | apply keeps_ite | apply keepsO_next | simp only [keeps_upd])

theorem keeps_execNakRepeatTimer {s0 : State} {p : Fin 8} {s : State} (hkeep : Keeps s0 s) :
    KeepsO s0 (execNakRepeatTimer p s) := by
  unfold execNakRepeatTimer
  try dsimp only
  with_reducible repeat' (first
    | intro _ | assumption | apply keeps_whenAwake | apply keeps_modPort | apply keeps_sendIdle | apply keeps_ite
    | apply keepsO_next | simp only [keeps_upd])

theorem keeps_execReplayTimeout {s0 : State} {p : Fin 8} {s : State} (hkeep : Keeps s0 s) :
    KeepsO s0 (execReplayTimeout p s) := by
  unfold execReplayTimeout
  try dsimp only
  with_reducible repeat' (first
    | intro _ | assumption | apply keeps_whenAwake | apply keeps_modPort | apply keeps_progress | apply keeps_replay
    | apply keeps_ite | apply keepsO_next | simp only [keeps_upd])

theorem keeps_execAckFlitTimer {s0 : State} {p : Fin 8} {s : State} (hkeep : Keeps s0 s) :
    KeepsO s0 (execAckFlitTimer p s) := by
  unfold execAckFlitTimer
  try dsimp only
  with_reducible repeat' (first
    | intro _ | assumption | apply keeps_whenAwake | apply keeps_sendIdle | apply keeps_watchLanes | apply keeps_ite
    | apply keepsO_next)

theorem keeps_tryUndrain {s0 : State} {s : State} {p : Nat} (hkeep : Keeps s0 s) :
    Keeps s0 (tryUndrain s p) := by
  unfold tryUndrain
  try dsimp only
  with_reducible repeat' (first
    | intro _ | assumption | apply keeps_modPort | apply keeps_sendCtl | apply keeps_releaseHeld | apply keeps_ite
    | simp only [keeps_upd])

theorem keeps_setDrain {s0 : State} {s : State} {p : Nat} (hkeep : Keeps s0 s) :
    Keeps s0 (setDrain s p) := by
  unfold setDrain
  try dsimp only
  with_reducible repeat' (first
    | intro _ | assumption | apply keeps_setF | apply keeps_modPort | apply keeps_sendCtl | apply keeps_ite
    | simp only [keeps_upd])

theorem keeps_clearDrain {s0 : State} {s : State} {p : Nat} (hkeep : Keeps s0 s) :
    Keeps s0 (clearDrain s p) := by
  unfold clearDrain
  try dsimp only
  with_reducible repeat' (first
    | intro _ | assumption | apply keeps_setF | apply keeps_modPort | apply keeps_tryUndrain | apply keeps_ite
    | simp only [keeps_upd])

theorem keeps_execLnkctlDrainSet {s0 : State} {p : Fin 8} {s : State} (hkeep : Keeps s0 s) :
    KeepsO s0 (execLnkctlDrainSet p s) := by
  unfold execLnkctlDrainSet
  try dsimp only
  with_reducible repeat' (first
    | assumption | apply keeps_whenServed | apply keeps_setDrain | apply keepsO_next)

theorem keeps_execLnkctlDrainClear {s0 : State} {p : Fin 8} {s : State} (hkeep : Keeps s0 s) :
    KeepsO s0 (execLnkctlDrainClear p s) := by
  unfold execLnkctlDrainClear
  try dsimp only
  with_reducible repeat' (first
    | assumption | apply keeps_whenServed | apply keeps_clearDrain | apply keepsO_next)

theorem keeps_execDrain {s0 : State} {p : Fin 8} {s : State} (hkeep : Keeps s0 s) :
    KeepsO s0 (execDrain p s) := by
  unfold execDrain
  try dsimp only
  with_reducible repeat' (first
    | assumption | apply keeps_whenAwake | apply keeps_peerDrains | apply keeps_ite | apply keepsO_next)

theorem keeps_execUndrain {s0 : State} {p : Fin 8} {s : State} (hkeep : Keeps s0 s) :
    KeepsO s0 (execUndrain p s) := by
  unfold execUndrain
  try dsimp only
  with_reducible repeat' (first
    | assumption | apply keeps_whenAwake | apply keeps_peerUndrains | apply keeps_ite | apply keepsO_next)

theorem keeps_failHeld {s0 : State} {s : State} {p lim : Nat} (hkeep : Keeps s0 s) :
    Keeps s0 (failHeld s p lim) := by
  unfold failHeld
  try dsimp only
  with_reducible repeat' (first
    | intro _ | assumption | apply keeps_modChan | apply keeps_failShare | apply keeps_failCredit | apply keeps_ite
    | apply keeps_forEach | simp only [keeps_upd] | split)

theorem keeps_execHoldLimitExpiry {s0 : State} {p : Fin 8} {s : State} (hkeep : Keeps s0 s) :
    KeepsO s0 (execHoldLimitExpiry p s) := by
  unfold execHoldLimitExpiry
  try dsimp only
  with_reducible repeat' (first
    | assumption | apply keeps_whenOn | apply keeps_progress | apply keeps_failHeld | apply keeps_ite | apply keepsO_next
    | simp only [keeps_upd] | split)

theorem keeps_execLaneoff {s0 : State} {p : Fin 8} {lane : Fin 16} {seq : Fin 65536} {s : State} (hkeep : Keeps s0 s) :
    KeepsO s0 (execLaneoff p lane seq s) := by
  unfold execLaneoff
  try dsimp only
  with_reducible repeat' (first
    | assumption | apply keeps_whenAwake | apply keeps_peerLane | apply keeps_ite | apply keepsO_next)

theorem keeps_execLaneon {s0 : State} {p : Fin 8} {lane : Fin 16} {seq : Fin 65536} {s : State} (hkeep : Keeps s0 s) :
    KeepsO s0 (execLaneon p lane seq s) := by
  unfold execLaneon
  try dsimp only
  with_reducible repeat' (first
    | assumption | apply keeps_whenAwake | apply keeps_peerLane | apply keeps_ite | apply keepsO_next)

theorem keeps_execLanemove {s0 : State} {p : Fin 8} {lane : Fin 16} {laser : Fin 18} {s : State} (hkeep : Keeps s0 s) :
    KeepsO s0 (execLanemove p lane laser s) := by
  unfold execLanemove
  try dsimp only
  with_reducible repeat' (first
    | assumption | apply keeps_whenAwake | apply keeps_peerMoved | apply keeps_ite | apply keepsO_next)

theorem keeps_setLock {s0 : State} {p : Nat} {s : State} {l : Nat} {k : RingLock} (hkeep : Keeps s0 s) :
    Keeps s0 (setLock p s l k) := by
  unfold setLock
  try dsimp only
  with_reducible repeat' (first
    | intro _ | assumption | apply keeps_setF | apply keeps_modPort | simp only [keeps_upd])

theorem keeps_execRinglock {s0 : State} {p : Fin 8} {locks : List RingLock} {s : State} (hkeep : Keeps s0 s) :
    KeepsO s0 (execRinglock p locks s) := by
  unfold execRinglock
  try dsimp only
  with_reducible repeat' (first
    | intro _ | assumption | apply keeps_whenAwake | apply keeps_setPortState | apply keeps_setLock | apply keeps_ite
    | apply keepsO_next | apply keeps_forEach)

theorem keeps_trainFails {s0 : State} {s : State} {p : Nat} (hkeep : Keeps s0 s) :
    Keeps s0 (trainFails s p) := by
  unfold trainFails
  try dsimp only
  with_reducible repeat' (first
    | intro _ | assumption | apply keeps_modPort | apply keeps_setPortState | apply keeps_portDown | apply keeps_fullRetrain
    | apply keeps_applyHedge | apply keeps_ite | simp only [keeps_upd])

theorem keeps_execLanetrain {s0 : State} {p : Fin 8} {errs : List Nat} {peer : BitVec 16} {s : State} (hkeep : Keeps s0 s) :
    KeepsO s0 (execLanetrain p errs peer s) := by
  unfold execLanetrain
  try dsimp only
  with_reducible repeat' (first
    | intro _ | assumption | apply keeps_whenAwake | apply keeps_setPortState | apply keeps_setLanes
    | apply keeps_applyHedge | apply keeps_trainFails | apply keeps_ite | apply keepsO_next | apply keeps_forEach)

theorem keeps_execAlign {s0 : State} {p : Fin 8} {ok : Bool} {byte : Byte} {s : State} (hkeep : Keeps s0 s) :
    KeepsO s0 (execAlign p ok byte s) := by
  unfold execAlign
  try dsimp only
  with_reducible repeat' (first
    | intro _ | assumption | apply keeps_whenAwake | apply keeps_modPort | apply keeps_replayAll | apply keeps_pump
    | apply keeps_sendCtl | apply keeps_progress | apply keeps_setPortState | apply keeps_tryUndrain
    | apply keeps_trainFails | apply keeps_ite | apply keepsO_next | simp only [keeps_upd])

theorem keeps_beginSession {s0 : State} {s : State} {p serial peerPort : Nat} {lasers : List Nat} {byte : Byte} (hkeep : Keeps
    s0 s) :
    Keeps s0 (beginSession s p serial peerPort lasers byte) := by
  unfold beginSession
  try dsimp only
  with_reducible repeat' (first
    | intro _ | assumption | apply keeps_setF | apply keeps_bump | apply keeps_modPort | apply keeps_setVcCredit
    | apply keeps_logLink | apply keeps_pump | apply keeps_sendCtl | apply keeps_progress | apply keeps_setPortState
    | apply keeps_setRxLaser | apply keeps_markReady | apply keeps_returnHedge | apply keeps_tryUndrain | apply keeps_ite
    | apply keeps_forEach | simp only [keeps_upd] | split)

theorem keeps_execIdent {s0 : State} {p : Fin 8} {serial : BitVec 48} {peerPort : Fin 8} {lasers : List (Fin 18)} {byte : Byte}
    {s : State} (hkeep : Keeps s0 s) :
    KeepsO s0 (execIdent p serial peerPort lasers byte s) := by
  unfold execIdent
  try dsimp only
  with_reducible repeat' (first
    | intro _ | assumption | apply keeps_whenAwake | apply keeps_beginSession | apply keeps_ite | apply keepsO_next)

theorem keeps_execQuickRetrain {s0 : State} {p : Fin 8} {s : State} (hkeep : Keeps s0 s) :
    KeepsO s0 (execQuickRetrain p s) := by
  unfold execQuickRetrain
  try dsimp only
  with_reducible repeat' (first
    | assumption | apply keeps_whenAwake | apply keeps_quickRetrain | apply keeps_ite | apply keepsO_next)

theorem keeps_execFullRetrain {s0 : State} {p : Fin 8} {s : State} (hkeep : Keeps s0 s) :
    KeepsO s0 (execFullRetrain p s) := by
  unfold execFullRetrain
  try dsimp only
  with_reducible repeat' (first
    | assumption | apply keeps_whenAwake | apply keeps_progress | apply keeps_fullRetrain | apply keeps_ite
    | apply keepsO_next)

theorem keeps_execRetrain {s0 : State} {p : Fin 8} {s : State} (hkeep : Keeps s0 s) :
    KeepsO s0 (execRetrain p s) := by
  unfold execRetrain
  try dsimp only
  with_reducible repeat' (first
    | assumption | apply keeps_whenServed | apply keeps_quickRetrain | apply keeps_ite | apply keepsO_next)

theorem keeps_execPortRetryTimer {s0 : State} {p : Fin 8} {s : State} (hkeep : Keeps s0 s) :
    KeepsO s0 (execPortRetryTimer p s) := by
  unfold execPortRetryTimer
  try dsimp only
  with_reducible repeat' (first
    | intro _ | assumption | apply keeps_whenAwake | apply keeps_modPort | apply keeps_fullRetrain | apply keeps_ite
    | apply keepsO_next | simp only [keeps_upd])

theorem keeps_ringLoop {s0 : State} {s : State} {p l pin pdr rxdrop : Nat} (hkeep : Keeps s0 s) :
    Keeps s0 (ringLoop s p l pin pdr rxdrop) := by
  unfold ringLoop
  try dsimp only
  with_reducible repeat' (first
    | intro _ | assumption | apply keeps_setF | apply keeps_modPort | apply keeps_sendLane | apply keeps_watchLanes
    | apply keeps_ite | simp only [keeps_upd])

theorem keeps_execRingLockLoop {s0 : State} {p : Fin 8} {lane : Fin 16} {pin pdr rxdrop : BitVec 32} {s : State} (hkeep : Keeps
    s0 s) :
    KeepsO s0 (execRingLockLoop p lane pin pdr rxdrop s) := by
  unfold execRingLockLoop
  try dsimp only
  with_reducible repeat' (first
    | intro _ | assumption | apply keeps_every | apply keeps_whenAwake | apply keeps_ringLoop | apply keeps_ite
    | apply keepsO_next)

theorem keeps_measureLane {s0 : State} {p : Nat} {s : State} {x : Nat × LaneMeas} (hkeep : Keeps s0 s) :
    Keeps s0 (measureLane p s x) := by
  unfold measureLane
  try dsimp only
  with_reducible repeat' (first
    | intro _ | assumption | apply keeps_setF | apply keeps_bump | apply keeps_modPort | apply keeps_applyHedge
    | apply keeps_ite | simp only [keeps_upd])

theorem keeps_execLaneErrorMeasurement {s0 : State} {p : Fin 8} {meas : List LaneMeas} {s : State} (hkeep : Keeps s0 s) :
    KeepsO s0 (execLaneErrorMeasurement p meas s) := by
  unfold execLaneErrorMeasurement
  try dsimp only
  with_reducible repeat' (first
    | intro _ | assumption | apply keeps_every | apply keeps_whenAwake | apply keeps_progress | apply keeps_watchLanes
    | apply keeps_measureLane | apply keeps_ite | apply keepsO_next | apply keeps_forEach)

theorem keeps_writeLnkctl {s0 : State} {s : State} {p v : Nat} (hkeep : Keeps s0 s) :
    Keeps s0 (writeLnkctl s p v) := by
  unfold writeLnkctl
  try dsimp only
  with_reducible repeat' (first
    | assumption | apply keeps_setF | apply keeps_portDown | apply keeps_quickRetrain | apply keeps_train
    | apply keeps_setDrain | apply keeps_clearDrain | apply keeps_ite)

theorem keeps_refuseOpen {s0 : State} {s : State} {w : Nat} (hkeep : Keeps s0 s) :
    Keeps s0 (refuseOpen s w) := by
  unfold refuseOpen
  try dsimp only
  with_reducible repeat' (first
    | assumption | apply keeps_setF | apply keeps_bump | apply keeps_logPut | simp only [keeps_upd])

theorem keeps_openWicket {s0 : State} {s : State} {w : Nat} (hkeep : Keeps s0 s) :
    Keeps s0 (openWicket s w) := by
  unfold openWicket
  try dsimp only
  with_reducible repeat' (first
    | assumption | apply keeps_setF | apply keeps_setWk)

theorem keeps_closeWicket {s0 : State} {s : State} {w : Nat} (hkeep : Keeps s0 s) :
    Keeps s0 (closeWicket s w) := by
  unfold closeWicket
  try dsimp only
  with_reducible repeat' (first
    | intro _ | assumption | apply keeps_setF | apply keeps_setWk | apply keeps_sendReply | apply keeps_forEach
    | simp only [keeps_upd] | split)

theorem keeps_writeWkctl {s0 : State} {s : State} {w v : Nat} (hkeep : Keeps s0 s) :
    Keeps s0 (writeWkctl s w v) := by
  unfold writeWkctl
  try dsimp only
  with_reducible repeat' (first
    | assumption | apply keeps_setF | apply keeps_refuseOpen | apply keeps_openWicket | apply keeps_closeWicket
    | apply keeps_ite)

theorem keeps_execWicketOpen {s0 : State} {w : Fin 64} {v : BitVec 64} {s : State} (hkeep : Keeps s0 s) :
    KeepsO s0 (execWicketOpen w v s) := by
  unfold execWicketOpen
  try dsimp only
  with_reducible repeat' (first
    | assumption | apply keeps_whenServed | apply keeps_writeWkctl | apply keepsO_next)

theorem keeps_execWicketClose {s0 : State} {w : Fin 64} {v : BitVec 64} {s : State} (hkeep : Keeps s0 s) :
    KeepsO s0 (execWicketClose w v s) := by
  unfold execWicketClose
  try dsimp only
  with_reducible repeat' (first
    | assumption | apply keeps_whenServed | apply keeps_writeWkctl | apply keepsO_next)

theorem keeps_execWicketQuarantineEnd {s0 : State} {w : Fin 64} {s : State} (hkeep : Keeps s0 s) :
    KeepsO s0 (execWicketQuarantineEnd w s) := by
  unfold execWicketQuarantineEnd
  try dsimp only
  with_reducible repeat' (first
    | assumption | apply keeps_setF | apply keeps_whenOn | apply keeps_setWk | apply keeps_ite | apply keepsO_next)

theorem keeps_execWkret {s0 : State} {w : Fin 64} {v : BitVec 64} {s : State} (hkeep : Keeps s0 s) :
    KeepsO s0 (execWkret w v s) := by
  unfold execWkret
  try dsimp only
  with_reducible repeat' (first
    | assumption | apply keeps_whenServed | apply keeps_wicketRelease | apply keepsO_next)

theorem keeps_writeWkrelw {s0 : State} {s : State} {w v : Nat} (hkeep : Keeps s0 s) :
    Keeps s0 (writeWkrelw s w v) := by
  unfold writeWkrelw
  try dsimp only
  with_reducible repeat' (first
    | intro _ | assumption | apply keeps_setF | apply keeps_feAccess | apply keeps_ite | simp only [keeps_upd] | split)

theorem keeps_writeRwctl {s0 : State} {s : State} {p j v : Nat} (hkeep : Keeps s0 s) :
    Keeps s0 (writeRwctl s p j v) := by
  unfold writeRwctl
  try dsimp only
  with_reducible repeat' (first
    | assumption | apply keeps_setF | apply keeps_ite)

theorem keeps_writePwgen {s0 : State} {s : State} {p j v : Nat} (hkeep : Keeps s0 s) :
    Keeps s0 (writePwgen s p j v) := by
  unfold writePwgen
  try dsimp only
  with_reducible repeat' (first
    | intro _ | assumption | apply keeps_setF | apply keeps_setWallet | apply keeps_forEach)

theorem keeps_showIdmem {s0 : State} {s : State} {p : Nat} (hkeep : Keeps s0 s) :
    Keeps s0 (showIdmem s p) := by
  unfold showIdmem
  try dsimp only
  with_reducible repeat' (first
    | intro _ | assumption | apply keeps_regPut | apply keeps_forEach)

theorem keeps_showLantern {s0 : State} {s : State} {p : Nat} (hkeep : Keeps s0 s) :
    Keeps s0 (showLantern s p) := by
  unfold showLantern
  try dsimp only
  with_reducible repeat' (first
    | intro _ | assumption | apply keeps_setF | apply keeps_showIdmem | simp only [keeps_upd] | split)

theorem keeps_logLan {s0 : State} {s : State} {p cause a b : Nat} {hedges : Bool} (hkeep : Keeps s0 s) :
    Keeps s0 (logLan s p cause a b hedges) := by
  unfold logLan
  try dsimp only
  with_reducible repeat' (first
    | assumption | apply keeps_logPut | apply keeps_ite | simp only [keeps_upd])

theorem keeps_recordUsage {s0 : State} {s : State} {p h : Nat} {bay : Bool} (hkeep : Keeps s0 s) :
    Keeps s0 (recordUsage s p h bay) := by
  unfold recordUsage
  try dsimp only
  with_reducible repeat' (first
    | intro _ | assumption | apply keeps_setLan | apply keeps_showLantern | apply keeps_ite | simp only [keeps_upd] | split)

theorem keeps_setLaneLaser {s0 : State} {p : Nat} {s : State} {l k : Nat} (hkeep : Keeps s0 s) :
    Keeps s0 (setLaneLaser p s l k) := by
  unfold setLaneLaser
  try dsimp only
  with_reducible repeat' (first
    | assumption | apply keeps_setF | apply keeps_setTxLaser)

theorem keeps_driveAll {s0 : State} {s : State} {p : Nat} (hkeep : Keeps s0 s) :
    Keeps s0 (driveAll s p) := by
  unfold driveAll
  try dsimp only
  with_reducible repeat' (first
    | intro _ | assumption | apply keeps_setF | apply keeps_forEach)

theorem keeps_startWarm {s0 : State} {s : State} {p : Nat} {boot : Bool} (hkeep : Keeps s0 s) :
    Keeps s0 (startWarm s p boot) := by
  unfold startWarm
  try dsimp only
  with_reducible repeat' (first
    | intro _ | assumption | apply keeps_setF | apply keeps_train | apply keeps_returnHedge | apply keeps_driveAll
    | apply keeps_ite | apply keeps_forEach)

theorem keeps_rejectLantern {s0 : State} {s : State} {p cause : Nat} (hkeep : Keeps s0 s) :
    Keeps s0 (rejectLantern s p cause) := by
  unfold rejectLantern
  try dsimp only
  with_reducible repeat' (first
    | assumption | apply keeps_setF | apply keeps_applyHedge | apply keeps_logLan)

theorem keeps_loadLantern {s0 : State} {s : State} {p : Nat} (hkeep : Keeps s0 s) :
    Keeps s0 (loadLantern s p) := by
  unfold loadLantern
  try dsimp only
  with_reducible repeat' (first
    | intro _ | assumption | apply keeps_setF | apply keeps_showLantern | apply keeps_ite | apply keeps_forEach
    | simp only [keeps_upd] | split)

theorem keeps_checkLantern {s0 : State} {s : State} {p : Nat} {boot : Bool} (hkeep : Keeps s0 s) :
    Keeps s0 (checkLantern s p boot) := by
  unfold checkLantern
  try dsimp only
  with_reducible repeat' (first
    | assumption | apply keeps_setF | apply keeps_startWarm | apply keeps_rejectLantern | apply keeps_loadLantern
    | apply keeps_ite)

theorem keeps_seat {s0 : State} {s : State} {p : Nat} {m : List Byte} {latched : Bool} (hkeep : Keeps s0 s) :
    Keeps s0 (seat s p m latched) := by
  unfold seat
  try dsimp only
  with_reducible repeat' (first
    | assumption | apply keeps_setF | apply keeps_setLan | apply keeps_ite | simp only [keeps_upd])

theorem keeps_readLantern {s0 : State} {s : State} {p : Nat} {boot : Bool} (hkeep : Keeps s0 s) :
    Keeps s0 (readLantern s p boot) := by
  unfold readLantern
  try dsimp only
  with_reducible repeat' (first
    | assumption | apply keeps_setF | apply keeps_showIdmem | apply keeps_checkLantern)

theorem keeps_execLanternInsertion {s0 : State} {p : Fin 8} {mem : List Byte} {latched : Bool} {s : State} (hkeep : Keeps s0 s)
    :
    KeepsO s0 (execLanternInsertion p mem latched s) := by
  unfold execLanternInsertion
  try dsimp only
  with_reducible repeat' (first
    | assumption | apply keeps_progress | apply keeps_recordUsage | apply keeps_seat | apply keeps_readLantern
    | apply keeps_ite | apply keepsO_next)

theorem keeps_execLaserWarmupDone {s0 : State} {p : Fin 8} {tgts : List Nat} {kp : Int} {s : State} (hkeep : Keeps s0 s) :
    KeepsO s0 (execLaserWarmupDone p tgts kp s) := by
  unfold execLaserWarmupDone
  try dsimp only
  with_reducible repeat' (first
    | intro _ | assumption | apply keeps_setF | apply keeps_whenAwake | apply keeps_setPortState | apply keeps_train
    | apply keeps_modLan | apply keeps_recordUsage | apply keeps_setLaneLaser | apply keeps_ite | apply keepsO_next
    | apply keeps_forEach | simp only [keeps_upd] | split)

theorem keeps_loseLight {s0 : State} {s : State} {p : Nat} (hkeep : Keeps s0 s) :
    Keeps s0 (loseLight s p) := by
  unfold loseLight
  try dsimp only
  with_reducible repeat' (first
    | assumption | apply keeps_lasersOff | apply keeps_applyHedge | apply keeps_ite)

theorem keeps_execLanternRemoval {s0 : State} {p : Fin 8} {s : State} (hkeep : Keeps s0 s) :
    KeepsO s0 (execLanternRemoval p s) := by
  unfold execLanternRemoval
  try dsimp only
  with_reducible repeat' (first
    | intro _ | assumption | apply keeps_setF | apply keeps_progress | apply keeps_setLan | apply keeps_logLan
    | apply keeps_loseLight | apply keeps_ite | apply keepsO_next)

theorem keeps_execInterlockOpen {s0 : State} {p : Fin 8} {s : State} (hkeep : Keeps s0 s) :
    KeepsO s0 (execInterlockOpen p s) := by
  unfold execInterlockOpen
  try dsimp only
  with_reducible repeat' (first
    | assumption | apply keeps_setF | apply keeps_progress | apply keeps_loseLight | apply keeps_ite | apply keepsO_next)

theorem keeps_execInterlockClose {s0 : State} {p : Fin 8} {s : State} (hkeep : Keeps s0 s) :
    KeepsO s0 (execInterlockClose p s) := by
  unfold execInterlockClose
  try dsimp only
  with_reducible repeat' (first
    | assumption | apply keeps_setF | apply keeps_progress | apply keeps_checkLantern | apply keeps_ite | apply keepsO_next)

theorem keeps_execBayOvercurrent {s0 : State} {p : Fin 8} {s : State} (hkeep : Keeps s0 s) :
    KeepsO s0 (execBayOvercurrent p s) := by
  unfold execBayOvercurrent
  try dsimp only
  with_reducible repeat' (first
    | intro _ | assumption | apply keeps_whenAwake | apply keeps_progress | apply keeps_modLan | apply keeps_logLan
    | apply keeps_loseLight | apply keeps_ite | apply keepsO_next | simp only [keeps_upd])

theorem keeps_logForceOff {s0 : State} {s : State} {p : Nat} (hkeep : Keeps s0 s) :
    Keeps s0 (logForceOff s p) := by
  unfold logForceOff
  try dsimp only
  with_reducible repeat' (first
    | assumption | apply keeps_drawByte | apply keeps_logLan | apply keepsL_fst)

theorem keeps_forceOff {s0 : State} {s : State} {p : Nat} (hkeep : Keeps s0 s) :
    Keeps s0 (forceOff s p) := by
  unfold forceOff
  try dsimp only
  with_reducible repeat' (first
    | assumption | apply keeps_lasersOff | apply keeps_applyHedge | apply keeps_recordUsage | apply keeps_logForceOff
    | apply keeps_ite)

theorem keeps_writeLanctl {s0 : State} {s : State} {p v : Nat} (hkeep : Keeps s0 s) :
    Keeps s0 (writeLanctl s p v) := by
  unfold writeLanctl
  try dsimp only
  with_reducible repeat' (first
    | assumption | apply keeps_setF | apply keeps_portDown | apply keeps_lasersOff | apply keeps_checkLantern
    | apply keeps_forceOff | apply keeps_ite)

theorem keeps_execForceoffSet {s0 : State} {p : Fin 8} {s : State} (hkeep : Keeps s0 s) :
    KeepsO s0 (execForceoffSet p s) := by
  unfold execForceoffSet
  try dsimp only
  with_reducible repeat' (first
    | assumption | apply keeps_whenServed | apply keeps_progress | apply keeps_writeLanctl | apply keepsO_next)

theorem keeps_execForceoffClear {s0 : State} {p : Fin 8} {s : State} (hkeep : Keeps s0 s) :
    KeepsO s0 (execForceoffClear p s) := by
  unfold execForceoffClear
  try dsimp only
  with_reducible repeat' (first
    | assumption | apply keeps_whenServed | apply keeps_progress | apply keeps_writeLanctl | apply keepsO_next)

theorem keeps_lanEvent {s0 : State} {s : State} {flag count : Fld} (hkeep : Keeps s0 s) :
    Keeps s0 (lanEvent s flag count) := by
  unfold lanEvent
  try dsimp only
  with_reducible repeat' (first
    | assumption | apply keeps_setF | apply keeps_bump | apply keeps_irqSource)

theorem keeps_powerLoop {s0 : State} {p : Nat} {s : State} {k m : Nat} (hkeep : Keeps s0 s) :
    Keeps s0 (powerLoop p s k m) := by
  unfold powerLoop
  try dsimp only
  with_reducible repeat' (first
    | intro _ | assumption | apply keeps_setF | apply keeps_modLan | apply keeps_ite | simp only [keeps_upd])

theorem keeps_execLaserPowerLoop {s0 : State} {p : Fin 8} {mpd : List Nat} {mw : Nat} {caset : BitVec 8} {s : State} (hkeep :
    Keeps s0 s) :
    KeepsO s0 (execLaserPowerLoop p mpd mw caset s) := by
  unfold execLaserPowerLoop
  try dsimp only
  with_reducible repeat' (first
    | intro _ | assumption | apply keeps_setF | apply keeps_every | apply keeps_whenAwake | apply keeps_modLan
    | apply keeps_powerLoop | apply keeps_ite | apply keepsO_next | apply keeps_forEach | simp only [keeps_upd])

theorem keeps_hedgeLaserLane {s0 : State} {s : State} {p k : Nat} (hkeep : Keeps s0 s) :
    Keeps s0 (hedgeLaserLane s p k) := by
  unfold hedgeLaserLane
  try dsimp only
  with_reducible repeat' (first
    | intro _ | assumption | apply keeps_applyHedge | simp only [keeps_upd] | split)

theorem keeps_startSpare {s0 : State} {s : State} {p k j : Nat} (hkeep : Keeps s0 s) :
    Keeps s0 (startSpare s p k j) := by
  unfold startSpare
  try dsimp only
  with_reducible repeat' (first
    | intro _ | assumption | apply keeps_setF | apply keeps_logPut | apply keeps_modLan | apply keeps_recordUsage
    | simp only [keeps_upd])

theorem keeps_loseLaser {s0 : State} {s : State} {p k : Nat} (hkeep : Keeps s0 s) :
    Keeps s0 (loseLaser s p k) := by
  unfold loseLaser
  try dsimp only
  with_reducible repeat' (first
    | assumption | apply keeps_setF | apply keeps_recordUsage | apply keeps_lanEvent | apply keeps_hedgeLaserLane)

theorem keeps_replaceLaser {s0 s : State} {p k : Nat} {o : Option Nat} (h : Keeps s0 s) : Keeps s0 (replaceLaser s p k o) := by
  cases o with
  | some j => exact keeps_startSpare h
  | none => exact keeps_loseLaser h

theorem keeps_retire {s0 : State} {s : State} {p k : Nat} (hkeep : Keeps s0 s) :
    Keeps s0 (retire s p k) := by
  unfold retire
  try dsimp only
  with_reducible repeat' (first
    | assumption | apply keeps_setF | apply keeps_logLan | apply keeps_replaceLaser)

theorem keeps_wearCheck {s0 : State} {p : Nat} {s : State} {k : Nat} (hkeep : Keeps s0 s) :
    Keeps s0 (wearCheck p s k) := by
  unfold wearCheck
  try dsimp only
  with_reducible repeat' (first
    | intro _ | assumption | apply keeps_setF | apply keeps_drawBytes | apply keeps_modLan | apply keeps_logLan
    | apply keeps_recordUsage | apply keeps_lanEvent | apply keeps_retire | apply keeps_ite | apply keepsL_ite
    | apply keepsR_ite | apply keepsO_ite | apply keepsM_ite | apply keepsN_ite | apply keepsRd_ite | apply keepsN_bind
    | apply keepsM_bind | apply keepsM_getD | apply keepsO_next | apply keeps_forEach | apply keeps_foldl
    | apply keepsL_foldl | apply keepsR_foldl | apply keepsL_fst | apply keepsR_snd | apply keepsN_pair
    | simp only [keeps_upd, keepsL_mk, keepsR_mk, keepsM_some, keepsM_none, keepsN_some, keepsN_none, keepsRd_ok,
        keepsRd_waits, keepsRd_failed, keepsRd_bad]
    | exact True.intro | split | (refine keepsM_get ?_ ‹_ = some _›) | (refine keepsN_get ?_ ‹_ = some (_, _)›)
    | (refine keepsRd_getOk ?_ ‹_ = Read.ok _ _›) | (refine keepsRd_getFailed ?_ ‹_ = Read.failed _ _›)
    | (refine keepsRd_getBad ?_ ‹_ = Read.bad _ _›))

theorem keeps_execLaserWearCheck {s0 : State} {p : Fin 8} {s : State} (hkeep : Keeps s0 s) :
    KeepsO s0 (execLaserWearCheck p s) := by
  unfold execLaserWearCheck
  try dsimp only
  with_reducible repeat' (first
    | intro _ | assumption | apply keeps_every | apply keeps_whenAwake | apply keeps_progress | apply keeps_wearCheck
    | apply keeps_ite | apply keepsO_next | apply keeps_forEach)

theorem keeps_execSpareSettled {s0 : State} {p : Fin 8} {s : State} (hkeep : Keeps s0 s) :
    KeepsO s0 (execSpareSettled p s) := by
  unfold execSpareSettled
  try dsimp only
  with_reducible repeat' (first
    | intro _ | assumption | apply keeps_whenAwake | apply keeps_modLan | apply keepsO_next | simp only [keeps_upd] | split)

theorem keeps_endMoves {s0 : State} {s : State} {p : Nat} (hkeep : Keeps s0 s) :
    Keeps s0 (endMoves s p) := by
  unfold endMoves
  try dsimp only
  with_reducible repeat' (first
    | intro _ | assumption | apply keeps_setF | apply keeps_modLan | apply keeps_logLan | apply keeps_lanEvent
    | simp only [keeps_upd] | split)

theorem keeps_moveLane {s0 : State} {s : State} {p l k : Nat} (hkeep : Keeps s0 s) :
    Keeps s0 (moveLane s p l k) := by
  unfold moveLane
  try dsimp only
  with_reducible repeat' (first
    | intro _ | assumption | apply keeps_modPort | apply keeps_logLink | apply keeps_sendCtl | apply keeps_sendLane
    | apply keeps_watchLanes | apply keeps_setLaneLaser | apply keeps_ite | simp only [keeps_upd])

theorem keeps_execLaneMove {s0 : State} {p : Fin 8} {s : State} (hkeep : Keeps s0 s) :
    KeepsO s0 (execLaneMove p s) := by
  unfold execLaneMove
  try dsimp only
  with_reducible repeat' (first
    | intro _ | assumption | apply keeps_whenAwake | apply keeps_modLan | apply keeps_endMoves | apply keeps_moveLane
    | apply keeps_ite | apply keepsO_next | simp only [keeps_upd] | split)

theorem keeps_execLaneTestDone {s0 : State} {p : Fin 8} {lane : Fin 16} {errs : Nat} {lock : Option RingLock} {s : State}
    (hkeep : Keeps s0 s) :
    KeepsO s0 (execLaneTestDone p lane errs lock s) := by
  unfold execLaneTestDone
  try dsimp only
  with_reducible repeat' (first
    | intro _ | assumption | apply keeps_whenAwake | apply keeps_modPort | apply keeps_sendLane | apply keeps_applyHedge
    | apply keeps_watchLanes | apply keeps_setLock | apply keeps_endMoves | apply keeps_ite | apply keepsO_next
    | simp only [keeps_upd] | split)

theorem keeps_execUsageRecordWrite {s0 : State} {p : Fin 8} {s : State} (hkeep : Keeps s0 s) :
    KeepsO s0 (execUsageRecordWrite p s) := by
  unfold execUsageRecordWrite
  try dsimp only
  with_reducible repeat' (first
    | assumption | apply keeps_whenAwake | apply keeps_recordUsage | apply keeps_ite | apply keepsO_next)

theorem keeps_serveSpare {s0 : State} {s : State} {p k j : Nat} (hkeep : Keeps s0 s) :
    Keeps s0 (serveSpare s p k j) := by
  unfold serveSpare
  try dsimp only
  with_reducible repeat' (first
    | assumption | apply keeps_setF | apply keeps_logSpare | apply keeps_logLan | apply keeps_recordUsage
    | apply keeps_lanEvent)

theorem keeps_serveFor {s0 : State} {s : State} {p k : Nat} {j : Option Nat} (hkeep : Keeps s0 s) :
    Keeps s0 (serveFor s p k j) := by
  unfold serveFor
  try dsimp only
  with_reducible repeat' (first
    | assumption | apply keeps_serveSpare | simp only [keeps_upd] | split)

theorem keeps_swapLaser {s0 : State} {p : Nat} {s : State} {k : Nat} (hkeep : Keeps s0 s) :
    Keeps s0 (swapLaser p s k) := by
  unfold swapLaser
  try dsimp only
  with_reducible repeat' (first
    | assumption | apply keeps_setF | apply keeps_logLan | apply keeps_lanEvent | apply keeps_serveFor)

theorem keeps_relock {s0 : State} {s : State} {p l : Nat} (hkeep : Keeps s0 s) :
    Keeps s0 (relock s p l) := by
  unfold relock
  try dsimp only
  with_reducible repeat' (first
    | intro _ | assumption | apply keeps_drawBytes | apply keeps_setLock | apply keeps_ite | apply keepsL_ite
    | apply keepsL_fst)

theorem keeps_repairLane {s0 : State} {s : State} {key : Nat} {lasers : List Nat} {cures : Bool} (hkeep : Keeps s0 s) :
    KeepsM s0 (repairLane s key lasers cures) := by
  unfold repairLane
  try dsimp only
  with_reducible repeat' (first
    | assumption | apply keeps_retire | apply keeps_swapLaser | apply keeps_relock | apply keeps_ite | apply keepsM_ite
    | simp only [keepsM_some, keepsM_none] | exact True.intro | refine keepsM_get ?_ ‹_ = some _›)

theorem keeps_repairPort {s0 : State} {s : State} {p : Nat} {lanes : List Nat} {cures : Bool} (hkeep : Keeps s0 s) :
    KeepsM s0 (repairPort s p lanes cures) := by
  unfold repairPort
  try dsimp only
  with_reducible repeat' (first
    | intro _ | assumption | apply keeps_fullRetrain | apply keeps_unhedge | apply keeps_relock | apply keeps_ite
    | apply keepsM_ite | apply keeps_forEach | simp only [keepsM_some, keepsM_none] | exact True.intro
    | refine keepsM_get ?_ ‹_ = some _›)

theorem keeps_repairLantern {s0 : State} {s : State} {p : Nat} {lasers : List Nat} (hkeep : Keeps s0 s) :
    KeepsM s0 (repairLantern s p lasers) := by
  unfold repairLantern
  try dsimp only
  with_reducible repeat' (first
    | intro _ | assumption | apply keeps_swapLaser | apply keeps_ite | apply keepsM_ite | apply keeps_forEach
    | simp only [keepsM_some, keepsM_none] | exact True.intro | refine keepsM_get ?_ ‹_ = some _›)

theorem keeps_repair {s0 : State} {s : State} {h : Hedge} {rows : List Nat} {cures : Bool} (hkeep : Keeps s0 s) :
    KeepsM s0 (repair s h rows cures) := by
  unfold repair
  try dsimp only
  with_reducible repeat' (first
    | intro _ | assumption | apply keeps_repairCore | apply keeps_repairBank | apply keeps_repairRows
    | apply keeps_repairParts | apply keeps_repairStack | apply keeps_repairLane | apply keeps_repairPort
    | apply keeps_repairLantern | apply keeps_ite | apply keepsM_ite | simp only [keeps_upd, keepsM_some, keepsM_none]
    | exact True.intro | split | refine keepsM_get ?_ ‹_ = some _›)

theorem keeps_probeDone {s0 : State} {s : State} {h : Hedge} {passed : Bool} {found : List Nat} {cures : Bool} (hkeep : Keeps
    s0 s) :
    Keeps s0 (probeDone s h passed found cures) := by
  unfold probeDone
  try dsimp only
  with_reducible repeat' (first
    | intro _ | assumption | apply keeps_bump | apply keeps_portDown | apply keeps_showProbing | apply keeps_putHedge
    | apply keeps_logProbe | apply keeps_hedgeOne | apply keeps_unhedge | apply keeps_endHedgeCmd | apply keeps_repair
    | apply keeps_ite | simp only [keeps_upd] | split | refine keepsM_get ?_ ‹_ = some _›)

theorem keeps_execProbeDone {s0 : State} {cls res : Nat} {pass : Bool} {found : List Nat} {cures : Bool} {s : State} (hkeep :
    Keeps s0 s) :
    KeepsO s0 (execProbeDone cls res pass found cures s) := by
  unfold execProbeDone
  try dsimp only
  with_reducible repeat' (first
    | assumption | apply keeps_whenAwake | apply keeps_progress | apply keeps_probeDone | apply keeps_ite
    | apply keepsO_next | simp only [keeps_upd] | split)

end Sys2Proof.Machine
end

