-- ==== Sys2Proof/Laws/KeepsStores.lean ====
section
/-! SUPPORT. What the operations and the meanings of Machine/Orangery, Slath, Dram, Dma keep: one lemma each (see Laws/Keeps.lean). -/

namespace Sys2Proof.Machine

open Sys2Proof

set_option linter.all false

theorem keeps_passCycles {s0 : State} {s : State} {sl d : Nat} (hkeep : Keeps s0 s) :
    Keeps s0 (passCycles s sl d) := by
  unfold passCycles
  try dsimp only
  with_reducible repeat' (first
    | intro _ | assumption | apply keeps_runTo | simp only [keeps_upd] | split)

theorem keeps_execDynamicSubBankGrant {s0 : State} {sl : Fin 64} {sub : Fin 128} {d : Nat} {s : State} (hkeep : Keeps s0 s) :
    KeepsO s0 (execDynamicSubBankGrant sl sub d s) := by
  unfold execDynamicSubBankGrant
  try dsimp only
  with_reducible repeat' (first
    | intro _ | assumption | apply keeps_whenOn | apply keeps_feAccess | apply keeps_progress | apply keeps_useSub
    | apply keeps_performTurn | apply keeps_passCycles | apply keeps_ite | apply keepsO_next | simp only [keeps_upd] | split)

theorem keeps_countStalls {s0 : State} {s : State} {o c n lost : Nat} (hkeep : Keeps s0 s) :
    Keeps s0 (countStalls s o c n lost) := by
  unfold countStalls
  try dsimp only
  with_reducible repeat' (first
    | intro _ | assumption | apply keeps_bump | apply keeps_ite | simp only [keeps_upd])

theorem keeps_packetHop {s0 : State} {o cycles : Nat} {s : State} (hkeep : Keeps s0 s) :
    Keeps s0 (packetHop o cycles s) := by
  unfold packetHop
  try dsimp only
  with_reducible repeat' (first
    | intro _ | assumption | apply keeps_bump | apply keeps_countStalls | apply keeps_ite | apply keeps_foldl
    | apply keepsL_foldl | apply keepsR_foldl | simp only [keeps_upd, keepsL_mk, keepsR_mk] | split)

theorem keeps_restartFrame {s0 : State} {s : State} (hkeep : Keeps s0 s) :
    Keeps s0 (restartFrame s) := by
  unfold restartFrame
  try dsimp only
  with_reducible repeat' (first
    | intro _ | assumption | simp only [keeps_upd])

theorem keeps_upsetWord {s0 s : State} {w : Nat} {bad : Bool} (h : Keeps s0 s) : Keeps s0 (upsetWord s w bad) := by
  unfold upsetWord
  dsimp only
  exact keeps_of (keeps_ite (keeps_orgWrite (keeps_drawBytes h)) h) rfl rfl id id id id id (amSet_wf _ _ _ _) id

theorem keeps_upsetWords {s0 s : State} {sl : Nat} {errs : List (Nat × Bool)} (h : Keeps s0 s) :
    Keeps s0 (upsetWords s sl errs) := keeps_foldl (fun _ _ ht => keeps_upsetWord ht) h

theorem keeps_execScrubRead {s0 : State} {sl : Fin 64} {errs : List (Nat × Bool)} {s : State} (hkeep : Keeps s0 s) :
    KeepsO s0 (execScrubRead sl errs s) := by
  unfold execScrubRead
  try dsimp only
  with_reducible repeat' (first
    | intro _ | assumption | apply keeps_noteAt | apply keeps_whenOn | apply keeps_noteRead | apply keeps_useSub
    | apply keeps_upsetWords | apply keeps_ite | apply keepsO_next | simp only [keeps_upd])

theorem keeps_execCorrectedWriteback {s0 : State} {sl : Fin 64} {s : State} (hkeep : Keeps s0 s) :
    KeepsO s0 (execCorrectedWriteback sl s) := by
  unfold execCorrectedWriteback
  try dsimp only
  with_reducible repeat' (first
    | intro _ | assumption | apply keeps_whenOn | apply keeps_mendWord | apply keeps_useSub | apply keeps_ite
    | apply keepsO_next | simp only [keeps_upd] | split)

theorem keeps_noteHole {s0 : State} {s : State} (hkeep : Keeps s0 s) :
    Keeps s0 (noteHole s) := by
  unfold noteHole
  try dsimp only
  with_reducible repeat' (first
    | assumption | apply keeps_setF | apply keeps_bump)

theorem keeps_noteNotReady {s0 : State} {s : State} (hkeep : Keeps s0 s) :
    Keeps s0 (noteNotReady s) := by
  unfold noteNotReady
  try dsimp only
  with_reducible repeat' (first
    | assumption | apply keeps_setF | apply keeps_bump)

theorem keeps_writeMdval {s0 : State} {s : State} {v : Nat} (hkeep : Keeps s0 s) :
    Keeps s0 (writeMdval s v) := by
  unfold writeMdval
  try dsimp only
  with_reducible repeat' (first
    | assumption | apply keeps_markWord | apply keeps_poisonWord | apply keeps_progress | apply keeps_noteHole
    | apply keeps_ite)

theorem keeps_execMdvalWrite {s0 : State} {v : BitVec 64} {s : State} (hkeep : Keeps s0 s) :
    KeepsO s0 (execMdvalWrite v s) := by
  unfold execMdvalWrite
  try dsimp only
  with_reducible repeat' (first
    | assumption | apply keeps_whenServed | apply keeps_writeMdval | apply keepsO_next)

theorem keeps_execSliceReady {s0 : State} {sl : Fin 64} {s : State} (hkeep : Keeps s0 s) :
    KeepsO s0 (execSliceReady sl s) := by
  unfold execSliceReady
  try dsimp only
  with_reducible repeat' (first
    | intro _ | assumption | apply keeps_setBit | apply keeps_whenOn | apply keeps_orgReadyCheck | apply keeps_zeroBanks
    | apply keeps_ite | apply keepsO_next)

theorem keeps_slaLocate {s0 : State} {s : State} {ctx space a : Nat} {write : Bool} (hkeep : Keeps s0 s) :
    KeepsL s0 (slaLocate s ctx space a write) := by
  unfold slaLocate
  try dsimp only
  with_reducible repeat' (first
    | assumption | apply keeps_locate | apply keeps_ite | apply keepsL_ite | apply keepsL_fst | simp only [keepsL_mk])

theorem keeps_slaRead {s0 : State} {s : State} {ctx space a n : Nat} (hkeep : Keeps s0 s) :
    KeepsL s0 (slaRead s ctx space a n) := by
  unfold slaRead
  try dsimp only
  with_reducible repeat' (first
    | assumption | apply keeps_readLoc | apply keeps_slaLocate | apply keeps_ite | apply keepsL_ite | apply keepsL_fst
    | simp only [keeps_upd, keepsL_mk] | split)

theorem keeps_readOperands {s0 : State} {s : State} {l : List (Nat × Nat)} (hkeep : Keeps s0 s) :
    KeepsL s0 (readOperands s l) := by
  unfold readOperands
  try dsimp only
  with_reducible repeat' (first
    | intro _ | assumption | apply keeps_orgAccess | apply keeps_ite | apply keepsL_ite | apply keeps_foldl
    | apply keepsL_foldl | apply keepsR_foldl | apply keepsL_fst | simp only [keeps_upd, keepsL_mk, keepsR_mk] | split)

theorem keeps_noteReject {s0 : State} {s : State} {ctx cause : Nat} {body : List Byte} (hkeep : Keeps s0 s) :
    Keeps s0 (noteReject s ctx cause body) := by
  unfold noteReject
  try dsimp only
  with_reducible repeat' (first
    | intro _ | assumption | apply keeps_setF | apply keeps_bump | apply keeps_logPut | simp only [keeps_upd])

theorem keeps_rejected {s0 : State} {s : State} {ctx cause : Nat} {body : List Byte} {x : SubRun} (hkeep : Keeps s0 s) :
    KeepsL s0 (rejected s ctx cause body x) := by
  unfold rejected
  try dsimp only
  with_reducible repeat' (first
    | assumption | apply keeps_noteReject | apply keepsL_fst | simp only [keeps_upd, keepsL_mk])

theorem keeps_takeOperands {s0 : State} {s : State} {x : SubRun} (hkeep : Keeps s0 s) :
    KeepsL s0 (takeOperands s x) := by
  unfold takeOperands
  try dsimp only
  with_reducible repeat' (first
    | assumption | apply keeps_readOperands | apply keepsL_fst | simp only [keeps_upd, keepsL_mk] | split)

theorem keeps_readBlocks {s0 : State} {ctx : Nat} {f : Nat → Nat} {l : List Nat} : ∀ {acc : List Nat} {s : State}, Keeps s0 s →
    KeepsL s0 (readBlocks ctx f l acc s) := by
  induction l with
  | nil => intros; assumption
  | cons x l ih =>
    intros
    unfold readBlocks
    try dsimp only
    with_reducible repeat' (first
    | intro _ | assumption | apply keeps_slaRead | apply ih | apply keeps_ite | apply keepsL_ite | apply keepsL_fst
    | simp only [keeps_upd, keepsL_mk] | split)

theorem keeps_tableFails {s0 : State} {s : State} {x : SubRun} {st : Nat} (hkeep : Keeps s0 s) :
    KeepsL s0 (tableFails s x st) := by
  unfold tableFails
  try dsimp only
  with_reducible repeat' (first
    | assumption | apply keeps_drawByte | apply keeps_ite | apply keepsL_ite | apply keepsL_fst
    | simp only [keeps_upd, keepsL_mk])

theorem keeps_attention {s0 : State} {s : State} {ctx : Nat} {body : List Byte} {x : SubRun} (hkeep : Keeps s0 s) :
    KeepsL s0 (attention s ctx body x) := by
  unfold attention
  try dsimp only
  with_reducible repeat' (first
    | intro _ | assumption | apply keeps_slaRead | apply keeps_rejected | apply keeps_takeOperands | apply keeps_readBlocks
    | apply keeps_tableFails | apply keeps_ite | apply keepsL_ite | apply keepsL_fst | simp only [keeps_upd, keepsL_mk]
    | split)

theorem keeps_checkSub {s0 : State} {s : State} {ctx : Nat} {body : List Byte} {part : Option SubRun} (hkeep : Keeps s0 s) :
    KeepsL s0 (checkSub s ctx body part) := by
  unfold checkSub
  try dsimp only
  with_reducible repeat' (first
    | assumption | apply keeps_rejected | apply keeps_takeOperands | apply keeps_attention | apply keeps_ite
    | apply keepsL_ite | apply keepsL_fst | simp only [keeps_upd, keepsL_mk] | split)

theorem keeps_unitPlace {s0 : State} {s : State} {ctx space : Nat} {write : Bool} {ps : List (Nat × Nat)} (hkeep : Keeps s0 s) :
    KeepsL s0 (unitPlace s ctx space write ps) := by
  unfold unitPlace
  try dsimp only
  with_reducible repeat' (first
    | intro _ | assumption | apply keeps_slaLocate | apply keeps_ite | apply keepsL_ite | apply keeps_foldl
    | apply keepsL_foldl | apply keepsR_foldl | apply keepsL_fst | simp only [keeps_upd, keepsL_mk, keepsR_mk] | split)

theorem keeps_placeSub {s0 : State} {s : State} {ctx : Nat} {x : SubRun} (hkeep : Keeps s0 s) :
    KeepsL s0 (placeSub s ctx x) := by
  unfold placeSub
  try dsimp only
  with_reducible repeat' (first
    | intro _ | assumption | apply keeps_unitPlace | apply keeps_ite | apply keepsL_ite | apply keeps_foldl
    | apply keepsL_foldl | apply keepsR_foldl | apply keepsL_fst | simp only [keeps_upd, keepsL_mk, keepsR_mk] | split)

theorem keeps_slathFault {s0 : State} {s : State} {op core base size va : Nat} {write : Bool} (hkeep : Keeps s0 s) :
    Keeps s0 (slathFault s op core base size va write) := by
  unfold slathFault
  try dsimp only
  with_reducible repeat' (first
    | intro _ | assumption | apply keeps_raiseFault | apply keeps_haltShare | simp only [keeps_upd] | split)

theorem keeps_fillFree {s0 : State} {l : List (Option Byte)} : ∀ {s : State}, Keeps s0 s → KeepsL s0 (fillFree l s) := by
  induction l with
  | nil => intros; assumption
  | cons x l ih =>
    intro s h
    cases x with
    | some b => exact ih h
    | none => exact ih (keepsL_fst (keeps_drawByte h))

theorem keeps_subResult {s0 : State} {s : State} {op core : Nat} {x : SubRun} {i : Nat} (hkeep : Keeps s0 s) :
    KeepsL s0 (subResult s op core x i) := by
  unfold subResult
  try dsimp only
  with_reducible repeat' (first
    | intro _ | assumption | apply keeps_fillFree | apply keeps_ite | apply keepsL_ite | apply keepsL_fst
    | simp only [keepsL_mk])

theorem keeps_runResult {s0 : State} {s : State} {op core : Nat} {subs : List SubRun} (hkeep : Keeps s0 s) :
    KeepsL s0 (runResult s op core subs) := by
  unfold runResult
  try dsimp only
  with_reducible repeat' (first
    | intro _ | assumption | apply keeps_subResult | apply keeps_ite | apply keepsL_ite | apply keeps_foldl
    | apply keepsL_foldl | apply keepsR_foldl | apply keepsL_fst | simp only [keepsL_mk, keepsR_mk])

theorem keeps_putRun {s0 : State} {s : State} {r : SlaRun} (hkeep : Keeps s0 s) :
    Keeps s0 (putRun s r) := by
  unfold putRun
  try dsimp only
  with_reducible repeat' (first
    | intro _ | assumption | simp only [keeps_upd])

theorem keeps_dropRun {s0 : State} {s : State} {op core : Nat} (hkeep : Keeps s0 s) :
    Keeps s0 (dropRun s op core) := by
  unfold dropRun
  try dsimp only
  with_reducible repeat' (first
    | intro _ | assumption | simp only [keeps_upd])

theorem keeps_landSlath {s0 : State} {s : State} {op core ares srl : Nat} {run : SlaRun} (hkeep : Keeps s0 s) :
    Keeps s0 (landSlath s op core ares srl run) := by
  unfold landSlath
  try dsimp only
  with_reducible repeat' (first
    | assumption | apply keeps_orgStore | apply keeps_completeShare | apply keeps_runResult | apply keeps_dropRun
    | apply keeps_ite | apply keepsL_ite | apply keepsL_fst)

theorem keeps_finishSlath {s0 : State} {s : State} {op core : Nat} (hkeep : Keeps s0 s) :
    Keeps s0 (finishSlath s op core) := by
  unfold finishSlath
  try dsimp only
  with_reducible repeat' (first
    | intro _ | assumption | apply keeps_completeShare | apply keeps_putRun | apply keeps_dropRun | apply keeps_landSlath
    | apply keeps_ite | simp only [keeps_upd] | split)

theorem keeps_checkSubs {s0 : State} {ctx : Nat} {l : List (List Byte)} : ∀ {part : Option SubRun} {acc : List SubRun} {s :
    State}, Keeps s0 s → KeepsL s0 (checkSubs ctx part l acc s) := by
  induction l with
  | nil => intros; assumption
  | cons x l ih =>
    intros
    unfold checkSubs
    try dsimp only
    with_reducible repeat' (first
    | intro _ | assumption | apply keeps_checkSub | apply ih | apply keepsL_fst | simp only [keeps_upd, keepsL_mk] | split)

theorem keeps_placeSubs {s0 : State} {d : DynOp} {op core : Nat} {body : List Byte} {l : List (SubRun × Nat)} : ∀ {subs : List
    SubRun} {us : List WUnit} {s : State}, Keeps s0 s → KeepsL s0 (placeSubs d op core body l subs us s) := by
  induction l with
  | nil => intros; assumption
  | cons x l ih =>
    intros
    unfold placeSubs
    try dsimp only
    with_reducible repeat' (first
    | intro _ | assumption | apply keeps_noteReject | apply keeps_rejected | apply keeps_placeSub | apply ih
    | apply keeps_ite | apply keepsL_ite | apply keepsL_fst | simp only [keeps_upd, keepsL_mk] | split)

theorem keeps_requestRun {s0 : State} {s : State} {op core : Nat} {d : DynOp} {run : SlaRun} {req qlen : Nat} {body : List
    Byte} (hkeep : Keeps s0 s) :
    Keeps s0 (requestRun s op core d run req qlen body) := by
  unfold requestRun
  try dsimp only
  with_reducible repeat' (first
    | intro _ | assumption | apply keeps_modStr | apply keeps_setShare | apply keeps_slathFault | apply keeps_putRun
    | apply keeps_finishSlath | apply keeps_checkSubs | apply keeps_placeSubs | apply keeps_ite | apply keepsL_ite
    | apply keepsL_fst | simp only [keeps_upd] | split)

theorem keeps_requestCheck {s0 : State} {s : State} {op core : Nat} (hkeep : Keeps s0 s) :
    Keeps s0 (requestCheck s op core) := by
  unfold requestCheck
  try dsimp only
  with_reducible repeat' (first
    | intro _ | assumption | apply keeps_orgAccess | apply keeps_completeShare | apply keeps_requestRun | apply keeps_ite
    | apply keepsL_ite | apply keepsR_ite | apply keepsO_ite | apply keepsM_ite | apply keepsN_ite | apply keepsRd_ite
    | apply keepsN_bind | apply keepsM_bind | apply keepsM_getD | apply keepsO_next | apply keeps_forEach
    | apply keeps_foldl | apply keepsL_foldl | apply keepsR_foldl | apply keepsL_fst | apply keepsR_snd | apply keepsN_pair
    | simp only [keeps_upd, keepsL_mk, keepsR_mk, keepsM_some, keepsM_none, keepsN_some, keepsN_none, keepsRd_ok,
        keepsRd_waits, keepsRd_failed, keepsRd_bad]
    | exact True.intro | split | (refine keepsM_get ?_ ‹_ = some _›) | (refine keepsN_get ?_ ‹_ = some (_, _)›)
    | (refine keepsRd_getOk ?_ ‹_ = Read.ok _ _›) | (refine keepsRd_getFailed ?_ ‹_ = Read.failed _ _›)
    | (refine keepsRd_getBad ?_ ‹_ = Read.bad _ _›))

theorem keeps_execSlathRequestCheck {s0 : State} {op : Nat} {core : Fin 64} {s : State} (hkeep : Keeps s0 s) :
    KeepsO s0 (execSlathRequestCheck op core s) := by
  unfold execSlathRequestCheck
  try dsimp only
  with_reducible repeat' (first
    | assumption | apply keeps_whenOn | apply keeps_progress | apply keeps_requestCheck | apply keeps_ite
    | apply keepsO_next)

theorem keeps_readUnit {s0 : State} {ctx space : Nat} {ps : List (Nat × Nat)} {s : State} (hkeep : Keeps s0 s) :
    KeepsL s0 (readUnit ctx space ps s) := by
  unfold readUnit
  try dsimp only
  with_reducible repeat' (first
    | intro _ | assumption | apply keeps_slaRead | apply keeps_ite | apply keepsL_ite | apply keeps_foldl
    | apply keepsL_foldl | apply keepsR_foldl | apply keepsL_fst | simp only [keeps_upd, keepsL_mk, keepsR_mk] | split)

theorem keeps_runUnit {s0 : State} {s : State} {ctx : Nat} {x : SubRun} {u : WUnit} (hkeep : Keeps s0 s) :
    KeepsL s0 (runUnit s ctx x u) := by
  unfold runUnit
  try dsimp only
  with_reducible repeat' (first
    | intro _ | assumption | apply keeps_writeLoc | apply keeps_slaLocate | apply keeps_readUnit | apply keeps_ite
    | apply keepsL_ite | apply keepsL_fst | simp only [keeps_upd, keepsL_mk] | split)

theorem keeps_putUnit {s0 : State} {s : State} {u : WUnit} (hkeep : Keeps s0 s) :
    Keeps s0 (putUnit s u) := by
  unfold putUnit
  try dsimp only
  with_reducible repeat' (first
    | intro _ | assumption | apply keeps_ite | simp only [keeps_upd])

theorem keeps_execWorkUnitStart {s0 : State} {k : Fin 32} {s : State} (hkeep : Keeps s0 s) :
    KeepsO s0 (execWorkUnitStart k s) := by
  unfold execWorkUnitStart
  try dsimp only
  with_reducible repeat' (first
    | intro _ | assumption | apply keeps_whenOn | apply keeps_pointGrant | apply keeps_runUnit | apply keeps_putUnit
    | apply keeps_ite | apply keepsL_ite | apply keepsO_next | apply keepsL_fst | simp only [keeps_upd] | split)

theorem keeps_execWorkUnitDone {s0 : State} {k : Fin 32} {ns : Nat} {s : State} (hkeep : Keeps s0 s) :
    KeepsO s0 (execWorkUnitDone k ns s) := by
  unfold execWorkUnitDone
  try dsimp only
  with_reducible repeat' (first
    | intro _ | assumption | apply keeps_bump | apply keeps_whenOn | apply keeps_progress | apply keeps_finishSlath
    | apply keeps_putUnit | apply keeps_ite | apply keepsO_next | simp only [keeps_upd] | split)

theorem keeps_execPacketHop {s0 : State} {out : Fin 480} {cycles : Nat} {s : State} (hkeep : Keeps s0 s) :
    KeepsO s0 (execPacketHop out cycles s) := by
  unfold execPacketHop
  try dsimp only
  with_reducible repeat' (first
    | intro _ | assumption | apply keeps_whenOn | apply keeps_progress | apply keeps_packetHop | apply keeps_finishSlath
    | apply keeps_ite | apply keepsO_next | apply keeps_forEach)

theorem keeps_cancelSlath {s0 : State} {s : State} {op core : Nat} (hkeep : Keeps s0 s) :
    Keeps s0 (cancelSlath s op core) := by
  unfold cancelSlath
  try dsimp only
  with_reducible repeat' (first
    | intro _ | assumption | apply keeps_setShare | apply keeps_completeShare | apply keeps_rejected | apply keeps_putRun
    | apply keeps_dropRun | apply keeps_ite | apply keepsL_ite | apply keepsL_fst | simp only [keeps_upd] | split)

theorem keeps_execPageWalk {s0 : State} {c : Fin 16} {va : BitVec 48} {write sla : Bool} {s : State} (hkeep : Keeps s0 s) :
    KeepsO s0 (execPageWalk c va write sla s) := by
  unfold execPageWalk
  try dsimp only
  with_reducible repeat' (first
    | assumption | apply keeps_whenAwake | apply keeps_translate | apply keepsO_next | apply keepsL_fst)

theorem keeps_writeInval {s0 : State} {s : State} {v : Nat} (hkeep : Keeps s0 s) :
    Keeps s0 (writeInval s v) := by
  unfold writeInval
  try dsimp only
  with_reducible repeat' (first
    | intro _ | assumption | apply keeps_setF | apply keeps_bump | apply keeps_ite | simp only [keeps_upd])

theorem keeps_execInval {s0 : State} {v : BitVec 64} {s : State} (hkeep : Keeps s0 s) :
    KeepsO s0 (execInval v s) := by
  unfold execInval
  try dsimp only
  with_reducible repeat' (first
    | assumption | apply keeps_whenServed | apply keeps_writeInval | apply keepsO_next)

theorem keeps_execInvalidationComplete {s0 : State} {s : State} (hkeep : Keeps s0 s) :
    KeepsO s0 (execInvalidationComplete s) := by
  unfold execInvalidationComplete
  try dsimp only
  with_reducible repeat' (first
    | assumption | apply keeps_setF | apply keeps_whenAwake | apply keepsO_next | simp only [keeps_upd])

theorem keeps_execDramRefresh {s0 : State} {k : Fin 32} {pc : Fin 64} {bank : Fin 16} {s : State} (hkeep : Keeps s0 s) :
    KeepsO s0 (execDramRefresh k pc bank s) := by
  unfold execDramRefresh
  try dsimp only
  with_reducible repeat' (first
    | intro _ | assumption | apply keeps_whenAwake | apply keepsO_next | simp only [keeps_upd])

theorem keeps_execDramTemperatureSample {s0 : State} {k : Fin 32} {degc : Fin 256} {s : State} (hkeep : Keeps s0 s) :
    KeepsO s0 (execDramTemperatureSample k degc s) := by
  unfold execDramTemperatureSample
  try dsimp only
  with_reducible repeat' (first
    | intro _ | assumption | apply keeps_setF | apply keeps_every | apply keeps_whenAwake | apply keeps_ite
    | apply keepsO_next)

theorem keeps_scrubBlock {s0 : State} {s : State} {d : Nat} (hkeep : Keeps s0 s) :
    Keeps s0 (scrubBlock s d) := by
  unfold scrubBlock
  try dsimp only
  with_reducible repeat' (first
    | assumption | apply keeps_bump | apply keeps_noteDramUe | apply keeps_noteDramCe | apply keeps_ite
    | simp only [keeps_upd] | split)

theorem keeps_upsetBlock {s0 : State} {s : State} {k i : Nat} {u : Upset} (hkeep : Keeps s0 s) :
    Keeps s0 (upsetBlock s k i u) := by
  unfold upsetBlock
  try dsimp only
  with_reducible repeat' (first
    | assumption | apply keeps_dramWrite | apply keeps_setDramErr | simp only [keeps_upd] | split)

theorem keeps_execDramScrubRead {s0 : State} {k : Fin 32} {errs : List (Nat × Upset)} {s : State} (hkeep : Keeps s0 s) :
    KeepsO s0 (execDramScrubRead k errs s) := by
  unfold execDramScrubRead
  try dsimp only
  with_reducible repeat' (first
    | intro _ | assumption | apply keeps_setF | apply keeps_bump | apply keeps_noteAt | apply keeps_whenAwake
    | apply keeps_scrubBlock | apply keeps_upsetBlock | apply keeps_ite | apply keepsO_next | apply keeps_forEach
    | apply keeps_foldl | apply keepsL_foldl | apply keepsR_foldl | simp only [keepsL_mk, keepsR_mk])

theorem keeps_execDramCorrectedWriteback {s0 : State} {k : Fin 32} {s : State} (hkeep : Keeps s0 s) :
    KeepsO s0 (execDramCorrectedWriteback k s) := by
  unfold execDramCorrectedWriteback
  try dsimp only
  with_reducible repeat' (first
    | intro _ | assumption | apply keeps_setDramErr | apply keeps_whenAwake | apply keeps_ite | apply keepsO_next
    | simp only [keeps_upd] | split)

theorem keeps_execRowSparing {s0 : State} {k : Fin 32} {pc : Fin 64} {bank : Fin 16} {row : Fin 36864} {s : State} (hkeep :
    Keeps s0 s) :
    KeepsO s0 (execRowSparing k pc bank row s) := by
  unfold execRowSparing
  try dsimp only
  with_reducible repeat' (first
    | assumption | apply keeps_whenAwake | apply keeps_repairRows | apply keeps_ite | apply keepsO_next | apply keepsM_getD
    | refine keepsM_get ?_ ‹_ = some _›)

theorem keeps_execDieLinkReplay {s0 : State} {k : Fin 32} {s : State} (hkeep : Keeps s0 s) :
    KeepsO s0 (execDieLinkReplay k s) := by
  unfold execDieLinkReplay
  try dsimp only
  with_reducible repeat' (first
    | assumption | apply keeps_bump | apply keeps_whenAwake | apply keepsO_next)

theorem keeps_logNoLane {s0 : State} {s : State} {k : Nat} (hkeep : Keeps s0 s) :
    Keeps s0 (logNoLane s k) := by
  unfold logNoLane
  try dsimp only
  with_reducible repeat' (first
    | assumption | apply keeps_logPut | apply keeps_drawBytes | apply keeps_ite | apply keepsL_ite | apply keepsL_fst
    | simp only [keeps_upd])

theorem keeps_execDieLinkLaneSpare {s0 : State} {k : Fin 32} {up : Bool} {lane : Fin 264} {s : State} (hkeep : Keeps s0 s) :
    KeepsO s0 (execDieLinkLaneSpare k up lane s) := by
  unfold execDieLinkLaneSpare
  try dsimp only
  with_reducible repeat' (first
    | assumption | apply keeps_whenAwake | apply keeps_progress | apply keeps_applyHedge | apply keeps_spareLane
    | apply keeps_logNoLane | apply keepsO_next | simp only [keeps_upd] | split | refine keepsM_get ?_ ‹_ = some _›)

theorem keeps_execDieLinkRetrainDone {s0 : State} {k : Fin 32} {s : State} (hkeep : Keeps s0 s) :
    KeepsO s0 (execDieLinkRetrainDone k s) := by
  unfold execDieLinkRetrainDone
  try dsimp only
  with_reducible repeat' (first
    | intro _ | assumption | apply keeps_whenAwake | apply keepsO_next | simp only [keeps_upd])

theorem keeps_zeroStack {s0 s : State} {k : Nat} (h : Keeps s0 s) : Keeps s0 (zeroStack s k) :=
  keeps_of h rfl rfl id (amFilter_wf _ _ _) id id id id (amFilter_wf _ _ _)

theorem keeps_execStackReady {s0 : State} {k : Fin 32} {s : State} (hkeep : Keeps s0 s) :
    KeepsO s0 (execStackReady k s) := by
  unfold execStackReady
  try dsimp only
  with_reducible repeat' (first
    | assumption | apply keeps_setF | apply keeps_setBit | apply keeps_whenAwake | apply keeps_markReady
    | apply keeps_zeroStack | apply keeps_ite | apply keepsO_next)

theorem keeps_endChain {s0 : State} {s : State} {ch : Nat} {stopped fetchFail : Bool} (hkeep : Keeps s0 s) :
    Keeps s0 (endChain s ch stopped fetchFail) := by
  unfold endChain
  try dsimp only
  with_reducible repeat' (first
    | intro _ | assumption | apply keeps_setChan | apply keeps_setQ | apply keeps_pushRec | apply keeps_ite
    | simp only [keeps_upd] | split)

theorem keeps_nextDesc {s0 : State} {s : State} {ch : Nat} {d : Desc} (hkeep : Keeps s0 s) :
    Keeps s0 (nextDesc s ch d) := by
  unfold nextDesc
  try dsimp only
  with_reducible repeat' (first
    | assumption | apply keeps_setChan | apply keeps_endChain | apply keeps_ite | simp only [keeps_upd])

theorem keeps_countDesc {s0 : State} {s : State} {ch status bytes : Nat} (hkeep : Keeps s0 s) :
    Keeps s0 (countDesc s ch status bytes) := by
  unfold countDesc
  try dsimp only
  with_reducible repeat' (first
    | assumption | apply keeps_setF | apply keeps_bump | apply keeps_logPut | apply keeps_setChan | apply keeps_ite
    | simp only [keeps_upd])

theorem keeps_endDesc {s0 : State} {s : State} {ch : Nat} {write : Bool} (hkeep : Keeps s0 s) :
    Keeps s0 (endDesc s ch write) := by
  unfold endDesc
  try dsimp only
  with_reducible repeat' (first
    | intro _ | assumption | apply keeps_logPut | apply keeps_completeWord | apply keeps_locate | apply keeps_writeLoc
    | apply keeps_faultChan | apply keeps_nextDesc | apply keeps_countDesc | apply keeps_ite | apply keepsL_ite
    | apply keepsR_ite | apply keepsO_ite | apply keepsM_ite | apply keepsN_ite | apply keepsRd_ite | apply keepsN_bind
    | apply keepsM_bind | apply keepsM_getD | apply keepsO_next | apply keeps_forEach | apply keeps_foldl
    | apply keepsL_foldl | apply keepsR_foldl | apply keepsL_fst | apply keepsR_snd | apply keepsN_pair
    | simp only [keeps_upd, keepsL_mk, keepsR_mk, keepsM_some, keepsM_none, keepsN_some, keepsN_none, keepsRd_ok,
        keepsRd_waits, keepsRd_failed, keepsRd_bad]
    | exact True.intro | split | (refine keepsM_get ?_ ‹_ = some _›) | (refine keepsN_get ?_ ‹_ = some (_, _)›)
    | (refine keepsRd_getOk ?_ ‹_ = Read.ok _ _›) | (refine keepsRd_getFailed ?_ ‹_ = Read.failed _ _›)
    | (refine keepsRd_getBad ?_ ‹_ = Read.bad _ _›))

theorem keeps_execDescriptorEnd {s0 : State} {ch : Fin 64} {s : State} (hkeep : Keeps s0 s) :
    KeepsO s0 (execDescriptorEnd ch s) := by
  unfold execDescriptorEnd
  try dsimp only
  with_reducible repeat' (first
    | assumption | apply keeps_whenOn | apply keeps_progress | apply keeps_endDesc | apply keepsO_next)

theorem keeps_fetchDesc {s0 : State} {s : State} {ch hostSt : Nat} (hkeep : Keeps s0 s) :
    Keeps s0 (fetchDesc s ch hostSt) := by
  unfold fetchDesc
  try dsimp only
  with_reducible repeat' (first
    | assumption | apply keeps_setF | apply keeps_setChan | apply keeps_locate | apply keeps_readLoc | apply keeps_faultChan
    | apply keeps_raisePri | apply keeps_endChain | apply keeps_ite | apply keepsL_ite | apply keepsL_fst
    | simp only [keeps_upd] | split)

theorem keeps_execDescriptorFetch {s0 : State} {ch : Fin 64} {hostSt : Fin 4} {s : State} (hkeep : Keeps s0 s) :
    KeepsO s0 (execDescriptorFetch ch hostSt s) := by
  unfold execDescriptorFetch
  try dsimp only
  with_reducible repeat' (first
    | assumption | apply keeps_whenOn | apply keeps_progress | apply keeps_fetchDesc | apply keepsO_next)

theorem keeps_locateAll {s0 : State} {ctx : Nat} {write : Bool} {l : List (Nat × Nat)} : ∀  {s : State}, Keeps s0 s → KeepsL s0
    (locateAll ctx write l s) := by
  induction l with
  | nil => intros; assumption
  | cons x l ih =>
    intros
    unfold locateAll
    try dsimp only
    with_reducible repeat' (first
    | intro _ | assumption | apply keeps_locate | apply ih | apply keepsL_fst | simp only [keeps_upd, keepsL_mk] | split)

theorem keeps_readAll {s0 : State} {ctx hostSt : Nat} {l : List (Nat × Nat)} : ∀ {bs : List Byte} {s : State}, Keeps s0 s →
    KeepsL s0 (readAll ctx hostSt l bs s) := by
  induction l with
  | nil => intros; assumption
  | cons x l ih =>
    intros
    unfold readAll
    try dsimp only
    with_reducible repeat' (first
    | intro _ | assumption | apply keeps_locate | apply keeps_readLoc | apply ih | apply keeps_ite | apply keepsL_ite
    | apply keepsL_fst | simp only [keepsL_mk] | split)

theorem keeps_writeAll {s0 : State} {ctx : Nat} {l : List (Nat × Nat)} : ∀ {bs : List Byte} {s : State}, Keeps s0 s → KeepsL s0
    (writeAll ctx l bs s) := by
  induction l with
  | nil => intros; assumption
  | cons x l ih =>
    intros
    unfold writeAll
    try dsimp only
    with_reducible repeat' (first
    | intro _ | assumption | apply keeps_locate | apply keeps_writeLoc | apply ih | apply keeps_ite | apply keepsL_ite
    | apply keepsL_fst | simp only [keepsL_mk] | split)

theorem keeps_takeRequest {s0 : State} {s : State} {ch : Nat} {d : Desc} (hkeep : Keeps s0 s) :
    Keeps s0 (takeRequest s ch d) := by
  unfold takeRequest
  try dsimp only
  with_reducible repeat' (first
    | intro _ | assumption | apply keeps_setF | apply keeps_setChan | apply keeps_failRun | apply keeps_ite
    | simp only [keeps_upd])

theorem keeps_sendRun {s0 : State} {s : State} {ch : Nat} {d : Desc} (hkeep : Keeps s0 s) :
    KeepsL s0 (sendRun s ch d) := by
  unfold sendRun
  try dsimp only
  with_reducible repeat' (first
    | intro _ | assumption | apply keeps_modChan | apply keeps_ite | apply keepsL_ite | apply keepsL_fst
    | simp only [keeps_upd, keepsL_mk])

theorem keeps_performRun {s0 : State} {s : State} {ch : Nat} {d : Desc} {hostSt : Nat} (hkeep : Keeps s0 s) :
    Keeps s0 (performRun s ch d hostSt) := by
  unfold performRun
  try dsimp only
  with_reducible repeat' (first
    | intro _ | assumption | apply keeps_setChan | apply keeps_modChan | apply keeps_peerRead | apply keeps_outBytes
    | apply keeps_finishRun | apply keeps_failRun | apply keeps_runToPeer | apply keeps_faultChan | apply keeps_grantChan
    | apply keeps_raisePri | apply keeps_useSub | apply keeps_locateAll | apply keeps_readAll | apply keeps_writeAll
    | apply keeps_sendRun | apply keeps_ite | apply keepsL_ite | apply keepsR_ite | apply keepsO_ite | apply keepsM_ite
    | apply keepsN_ite | apply keepsRd_ite | apply keepsN_bind | apply keepsM_bind | apply keepsM_getD | apply keepsO_next
    | apply keeps_forEach | apply keeps_foldl | apply keepsL_foldl | apply keepsR_foldl | apply keepsL_fst
    | apply keepsR_snd | apply keepsN_pair
    | simp only [keeps_upd, keepsL_mk, keepsR_mk, keepsM_some, keepsM_none, keepsN_some, keepsN_none, keepsRd_ok,
        keepsRd_waits, keepsRd_failed, keepsRd_bad]
    | exact True.intro | split | (refine keepsM_get ?_ ‹_ = some _›) | (refine keepsN_get ?_ ‹_ = some (_, _)›)
    | (refine keepsRd_getOk ?_ ‹_ = Read.ok _ _›) | (refine keepsRd_getFailed ?_ ‹_ = Read.failed _ _›)
    | (refine keepsRd_getBad ?_ ‹_ = Read.bad _ _›))

theorem keeps_dmaRun {s0 : State} {s : State} {ch hostSt : Nat} (hkeep : Keeps s0 s) :
    Keeps s0 (dmaRun s ch hostSt) := by
  unfold dmaRun
  try dsimp only
  with_reducible repeat' (first
    | assumption | apply keeps_takeRequest | apply keeps_performRun | apply keeps_ite | simp only [keeps_upd] | split)

theorem keeps_execDmaRun {s0 : State} {ch : Fin 64} {hostSt : Fin 4} {s : State} (hkeep : Keeps s0 s) :
    KeepsO s0 (execDmaRun ch hostSt s) := by
  unfold execDmaRun
  try dsimp only
  with_reducible repeat' (first
    | assumption | apply keeps_whenOn | apply keeps_progress | apply keeps_dmaRun | apply keepsO_next)

theorem keeps_addRequests {s0 : State} {s : State} {l n : Nat} (hkeep : Keeps s0 s) :
    Keeps s0 (addRequests s l n) := by
  unfold addRequests
  try dsimp only
  with_reducible repeat' (first
    | assumption | apply keeps_setF | apply keeps_ite)

theorem keeps_execRequestLineWrite {s0 : State} {l : Fin 256} {v : BitVec 64} {s : State} (hkeep : Keeps s0 s) :
    KeepsO s0 (execRequestLineWrite l v s) := by
  unfold execRequestLineWrite
  try dsimp only
  with_reducible repeat' (first
    | assumption | apply keeps_whenServed | apply keeps_addRequests | apply keepsO_next)

theorem keeps_stopChan {s0 : State} {s : State} {ch : Nat} (hkeep : Keeps s0 s) :
    Keeps s0 (stopChan s ch) := by
  unfold stopChan
  try dsimp only
  with_reducible repeat' (first
    | intro _ | assumption | apply keeps_modChan | apply keeps_ite | simp only [keeps_upd])

theorem keeps_killChan {s0 : State} {s : State} {ch : Nat} (hkeep : Keeps s0 s) :
    Keeps s0 (killChan s ch) := by
  unfold killChan
  try dsimp only
  with_reducible repeat' (first
    | intro _ | assumption | apply keeps_setF | apply keeps_setChan | apply keeps_dropChanWaits | apply keeps_endChain
    | apply keeps_endDesc | apply keeps_ite | simp only [keeps_upd] | split)

theorem keeps_writeChctl {s0 : State} {s : State} {ch v : Nat} (hkeep : Keeps s0 s) :
    Keeps s0 (writeChctl s ch v) := by
  unfold writeChctl
  try dsimp only
  with_reducible repeat' (first
    | assumption | apply keeps_regPut | apply keeps_progress | apply keeps_stopChan | apply keeps_killChan | apply keeps_ite
    | simp only [keeps_upd] | split)

theorem keeps_execChannelKill {s0 : State} {ch : Fin 64} {v : BitVec 64} {s : State} (hkeep : Keeps s0 s) :
    KeepsO s0 (execChannelKill ch v s) := by
  unfold execChannelKill
  try dsimp only
  with_reducible repeat' (first
    | assumption | apply keeps_whenServed | apply keeps_writeChctl | apply keepsO_next)

theorem keeps_execChannelStop {s0 : State} {ch : Fin 64} {v : BitVec 64} {s : State} (hkeep : Keeps s0 s) :
    KeepsO s0 (execChannelStop ch v s) := by
  unfold execChannelStop
  try dsimp only
  with_reducible repeat' (first
    | assumption | apply keeps_whenServed | apply keeps_writeChctl | apply keepsO_next)

theorem keeps_quietChan {s0 : State} {s : State} {ch : Nat} (hkeep : Keeps s0 s) :
    Keeps s0 (quietChan s ch) := by
  unfold quietChan
  try dsimp only
  with_reducible repeat' (first
    | assumption | apply keeps_setF | apply keeps_ite)

theorem keeps_execChannelQuiet {s0 : State} {ch : Fin 64} {s : State} (hkeep : Keeps s0 s) :
    KeepsO s0 (execChannelQuiet ch s) := by
  unfold execChannelQuiet
  try dsimp only
  with_reducible repeat' (first
    | assumption | apply keeps_whenOn | apply keeps_quietChan | apply keepsO_next)

theorem keeps_startChain {s0 : State} {s : State} {ch ctx q cmd a : Nat} (hkeep : Keeps s0 s) :
    Keeps s0 (startChain s ch ctx q cmd a) := by
  unfold startChain
  try dsimp only
  with_reducible repeat' (first
    | assumption | apply keeps_setF | apply keeps_setChan | simp only [keeps_upd])

theorem keeps_execDevicePageFault {s0 : State} {s : State} (hkeep : Keeps s0 s) :
    KeepsO s0 (execDevicePageFault s) := by
  unfold execDevicePageFault
  try dsimp only
  with_reducible repeat' (first
    | assumption | apply keeps_whenOn | apply keeps_deliverFault | apply keepsO_next)

theorem keeps_resumeChan {s0 : State} {s : State} {ch : Nat} (hkeep : Keeps s0 s) :
    Keeps s0 (resumeChan s ch) := by
  unfold resumeChan
  try dsimp only
  with_reducible repeat' (first
    | assumption | apply keeps_setChan | apply keeps_ite | simp only [keeps_upd] | split)

theorem keeps_refuseChan {s0 : State} {s : State} {ch space : Nat} (hkeep : Keeps s0 s) :
    Keeps s0 (refuseChan s ch space) := by
  unfold refuseChan
  try dsimp only
  with_reducible repeat' (first
    | assumption | apply keeps_setChan | apply keeps_failRun | apply keeps_endChain | apply keeps_endDesc | apply keeps_ite
    | simp only [keeps_upd] | split)

theorem keeps_resumeSlath {s0 : State} {s : State} {op core : Nat} {f : PageFault} {ok : Bool} (hkeep : Keeps s0 s) :
    Keeps s0 (resumeSlath s op core f ok) := by
  unfold resumeSlath
  try dsimp only
  with_reducible repeat' (first
    | assumption | apply keeps_setShare | apply keeps_putRun | apply keeps_requestCheck | apply keeps_ite
    | simp only [keeps_upd] | split)

theorem keeps_resumeShare {s0 : State} {s : State} {op core space : Nat} {ok : Bool} (hkeep : Keeps s0 s) :
    Keeps s0 (resumeShare s op core space ok) := by
  unfold resumeShare
  try dsimp only
  with_reducible repeat' (first
    | assumption | apply keeps_setShare | apply keeps_completeShare | apply keeps_ite | simp only [keeps_upd] | split)

theorem keeps_settleAgent {s0 : State} {space : Nat} {ok : Bool} {s : State} {b : FaultBy} (hkeep : Keeps s0 s) :
    Keeps s0 (settleAgent space ok s b) := by
  unfold settleAgent
  try dsimp only
  with_reducible repeat' (first
    | assumption | apply keeps_setTask | apply keeps_chanStale | apply keeps_resumeChan | apply keeps_refuseChan
    | apply keeps_resumeShare | apply keeps_ite | simp only [keeps_upd] | split)

theorem keeps_settleFault {s0 : State} {f : PageFault} {ok : Bool} {s : State} {b : FaultBy} (hkeep : Keeps s0 s) :
    Keeps s0 (settleFault f ok s b) := by
  unfold settleFault
  try dsimp only
  with_reducible repeat' (first
    | assumption | apply keeps_resumeSlath | apply keeps_settleAgent | simp only [keeps_upd] | split)

theorem keeps_writeFltresp {s0 : State} {s : State} {v : Nat} (hkeep : Keeps s0 s) :
    Keeps s0 (writeFltresp s v) := by
  unfold writeFltresp
  try dsimp only
  with_reducible repeat' (first
    | intro _ | assumption | apply keeps_setF | apply keeps_bump | apply keeps_logEvent | apply keeps_progress
    | apply keeps_settleFault | apply keeps_ite | apply keeps_forEach | simp only [keeps_upd] | split)

theorem keeps_execFltresp {s0 : State} {v : BitVec 64} {s : State} (hkeep : Keeps s0 s) :
    KeepsO s0 (execFltresp v s) := by
  unfold execFltresp
  try dsimp only
  with_reducible repeat' (first
    | assumption | apply keeps_whenServed | apply keeps_writeFltresp | apply keepsO_next)

theorem keeps_execAtsInvalidationRequest {s0 : State} {c : Option (Fin 16)} {a n : Nat} {s : State} (hkeep : Keeps s0 s) :
    KeepsO s0 (execAtsInvalidationRequest c a n s) := by
  unfold execAtsInvalidationRequest
  try dsimp only
  with_reducible repeat' (first
    | intro _ | assumption | apply keeps_whenOn | apply keepsO_next | simp only [keeps_upd] | split)

theorem keeps_execPrgResponse {s0 : State} {idx : Fin 512} {ok : Bool} {s : State} (hkeep : Keeps s0 s) :
    KeepsO s0 (execPrgResponse idx ok s) := by
  unfold execPrgResponse
  try dsimp only
  with_reducible repeat' (first
    | intro _ | assumption | apply keeps_whenOn | apply keeps_progress | apply keeps_settleAgent | apply keepsO_next
    | simp only [keeps_upd] | split)

end Sys2Proof.Machine
end

