-- ==== Sys2Proof/Laws/KeepsGatehouse.lean ====
section
/-! SUPPORT. What the operations and the meanings of Machine/Commands, Kills, Placing keep: one lemma each (see Laws/Keeps.lean). -/

namespace Sys2Proof.Machine

open Sys2Proof

set_option linter.all false

theorem keeps_gateLog {s0 : State} {s : State} {c q cause status detail : Nat} (hkeep : Keeps s0 s) :
    Keeps s0 (gateLog s c q cause status detail) := by
  unfold gateLog
  try dsimp only
  with_reducible repeat' (first
    | assumption | apply keeps_logPut | simp only [keeps_upd])

theorem keeps_doorbell {s0 : State} {s : State} {c q tail : Nat} (hkeep : Keeps s0 s) :
    Keeps s0 (doorbell s c q tail) := by
  unfold doorbell
  try dsimp only
  with_reducible repeat' (first
    | intro _ | assumption | apply keeps_setF | apply keeps_bump | apply keeps_modQ | apply keeps_stopQueue
    | apply keeps_gateLog | apply keeps_ite | simp only [keeps_upd])

theorem keeps_execDoorbell {s0 : State} {c : Fin 16} {q : Fin 8} {v : BitVec 64} {s : State} (hkeep : Keeps s0 s) :
    KeepsO s0 (execDoorbell c q v s) := by
  unfold execDoorbell
  try dsimp only
  with_reducible repeat' (first
    | assumption | apply keeps_whenServed | apply keeps_doorbell | apply keepsO_next)

theorem keeps_askCmds {s0 : State} {s : State} {c q p n : Nat} (hkeep : Keeps s0 s) :
    Keeps s0 (askCmds s c q p n) := by
  unfold askCmds
  try dsimp only
  with_reducible repeat' (first
    | intro _ | assumption | apply keeps_sendUp | apply keeps_forEach)

theorem keeps_fetchCmds {s0 : State} {s : State} {c q hostSt : Nat} (hkeep : Keeps s0 s) :
    Keeps s0 (fetchCmds s c q hostSt) := by
  unfold fetchCmds
  try dsimp only
  with_reducible repeat' (first
    | intro _ | assumption | apply keeps_setF | apply keeps_bump | apply keeps_modQ | apply keeps_askCmds | apply keeps_ite
    | simp only [keeps_upd])

theorem keeps_popCmd {s0 : State} {s : State} {c q : Nat} (hkeep : Keeps s0 s) :
    Keeps s0 (popCmd s c q) := by
  unfold popCmd
  try dsimp only
  with_reducible repeat' (first
    | intro _ | assumption | apply keeps_setF | apply keeps_modQ | apply keeps_ite | simp only [keeps_upd])

theorem keeps_completeFront {s0 : State} {s : State} {c q : Nat} {cm : Cmd} {status detail : Nat} (hkeep : Keeps s0 s) :
    Keeps s0 (completeFront s c q cm status detail) := by
  unfold completeFront
  try dsimp only
  with_reducible repeat' (first
    | assumption | apply keeps_pushRec | apply keeps_popCmd)

theorem keeps_badFront {s0 : State} {s : State} {c q : Nat} {cm : Cmd} {detail : Nat} (hkeep : Keeps s0 s) :
    Keeps s0 (badFront s c q cm detail) := by
  unfold badFront
  try dsimp only
  with_reducible repeat' (first
    | assumption | apply keeps_stopAtRec | apply keeps_gateLog | apply keeps_completeFront)

theorem keeps_rejectFront {s0 : State} {s : State} {c q : Nat} {cm : Cmd} {code node : Nat} (hkeep : Keeps s0 s) :
    Keeps s0 (rejectFront s c q cm code node) := by
  unfold rejectFront
  try dsimp only
  with_reducible repeat' (first
    | assumption | apply keeps_setF | apply keeps_bump | apply keeps_stopAtRec | apply keeps_gateLog
    | apply keeps_completeFront | apply keeps_ite)

theorem keeps_fetchFailed {s0 : State} {s : State} {c q : Nat} {cm : Cmd} {st : Nat} (hkeep : Keeps s0 s) :
    Keeps s0 (fetchFailed s c q cm st) := by
  unfold fetchFailed
  try dsimp only
  with_reducible repeat' (first
    | assumption | apply keeps_gateLog | apply keeps_completeFront)

theorem keeps_fetchError {s0 : State} {s : State} {c q : Nat} {cm : Cmd} {st : Nat} (hkeep : Keeps s0 s) :
    Keeps s0 (fetchError s c q cm st) := by
  unfold fetchError
  try dsimp only
  with_reducible repeat' (first
    | assumption | apply keeps_stopAtRec | apply keeps_gateLog | apply keeps_completeFront | simp only [keeps_upd])

theorem keeps_settleFront {s0 : State} {c q : Nat} {s : State} (hkeep : Keeps s0 s) :
    Keeps s0 (settleFront c q s) := by
  unfold settleFront
  try dsimp only
  with_reducible repeat' (first
    | assumption | apply keeps_badFront | apply keeps_fetchError | apply keeps_ite | simp only [keeps_upd] | split)

theorem keeps_execCommandFetch {s0 : State} {c : Fin 16} {q : Fin 8} {hostSt : Fin 4} {s : State} (hkeep : Keeps s0 s) :
    KeepsO s0 (execCommandFetch c q hostSt s) := by
  unfold execCommandFetch
  try dsimp only
  with_reducible repeat' (first
    | assumption | apply keeps_whenOn | apply keeps_fetchCmds | apply keeps_settleFront | apply keepsO_next)

theorem keeps_readDev {s0 : State} {s : State} {c a n hostSt : Nat} (hkeep : Keeps s0 s) :
    KeepsL s0 (readDev s c a n hostSt) := by
  unfold readDev
  try dsimp only
  with_reducible repeat' (first
    | assumption | apply keeps_readAll | apply keeps_ite | apply keepsL_ite | apply keepsL_fst | simp only [keepsL_mk])

theorem keeps_readBody {s0 : State} {s : State} {c node hostSt : Nat} {b : List Byte} (hkeep : Keeps s0 s) :
    KeepsRd s0 (readBody s c node hostSt b) := by
  unfold readBody
  try dsimp only
  with_reducible repeat' (first
    | intro _ | assumption | apply keeps_readDev | apply keeps_ite | apply keepsL_ite | apply keepsR_ite | apply keepsO_ite
    | apply keepsM_ite | apply keepsN_ite | apply keepsRd_ite | apply keepsN_bind | apply keepsM_bind | apply keepsM_getD
    | apply keepsO_next | apply keeps_forEach | apply keeps_foldl | apply keepsL_foldl | apply keepsR_foldl
    | apply keepsL_fst | apply keepsR_snd | apply keepsN_pair
    | simp only [keeps_upd, keepsL_mk, keepsR_mk, keepsM_some, keepsM_none, keepsN_some, keepsN_none, keepsRd_ok,
        keepsRd_waits, keepsRd_failed, keepsRd_bad]
    | exact True.intro | split | (refine keepsM_get ?_ ‹_ = some _›) | (refine keepsN_get ?_ ‹_ = some (_, _)›)
    | (refine keepsRd_getOk ?_ ‹_ = Read.ok _ _›) | (refine keepsRd_getFailed ?_ ‹_ = Read.failed _ _›)
    | (refine keepsRd_getBad ?_ ‹_ = Read.bad _ _›))

theorem keeps_readNodes {s0 : State} {c hostSt : Nat} {l : List (List Byte)} : ∀ {i : Nat} {ns : List Node} {s : State}, Keeps
    s0 s → KeepsRd s0 (readNodes c hostSt i l ns s) := by
  induction l with
  | nil => intros; assumption
  | cons x l ih =>
    intros
    unfold readNodes
    try dsimp only
    with_reducible repeat' (first
    | intro _ | assumption | apply keeps_readBody | apply ih
    | simp only [keeps_upd, keepsRd_ok, keepsRd_waits, keepsRd_failed, keepsRd_bad] | exact True.intro | split
    | refine keepsRd_getOk ?_ ‹_ = Read.ok _ _› | refine keepsRd_getFailed ?_ ‹_ = Read.failed _ _›
    | refine keepsRd_getBad ?_ ‹_ = Read.bad _ _›)

theorem keeps_readTasks {s0 : State} {s : State} {c hostSt : Nat} {b : List Byte} (hkeep : Keeps s0 s) :
    KeepsRd s0 (readTasks s c hostSt b) := by
  unfold readTasks
  try dsimp only
  with_reducible repeat' (first
    | intro _ | assumption | apply keeps_readDev | apply keeps_readBody | apply keeps_readNodes | apply keeps_ite
    | apply keepsL_ite | apply keepsRd_ite | apply keepsL_fst
    | simp only [keeps_upd, keepsRd_ok, keepsRd_waits, keepsRd_failed, keepsRd_bad] | exact True.intro | split
    | refine keepsRd_getOk ?_ ‹_ = Read.ok _ _› | refine keepsRd_getFailed ?_ ‹_ = Read.failed _ _›
    | refine keepsRd_getBad ?_ ‹_ = Read.bad _ _›)

theorem keeps_addTask {s0 : State} {s : State} {c q : Nat} {cm : Cmd} {n : Node} (hkeep : Keeps s0 s) :
    KeepsL s0 (addTask s c q cm n) := by
  unfold addTask
  try dsimp only
  with_reducible repeat' (first
    | intro _ | assumption | apply keeps_setTask | apply keeps_doorbell | apply keeps_ite | apply keepsL_ite
    | apply keepsL_fst | simp only [keeps_upd, keepsL_mk])

theorem keeps_addTasks {s0 : State} {c q : Nat} {cm : Cmd} {l : List Node} : ∀  {s : State}, Keeps s0 s → KeepsL s0 (addTasks c
    q cm l s) := by
  induction l with
  | nil => intros; assumption
  | cons x l ih =>
    intros
    unfold addTasks
    try dsimp only
    with_reducible repeat' (first
    | intro _ | assumption | apply keeps_addTask | apply ih | apply keepsL_fst | simp only [keepsL_mk] | split)

theorem keeps_acceptNodes {s0 : State} {s : State} {c q : Nat} {cm : Cmd} {l : List Node} (hkeep : Keeps s0 s) :
    Keeps s0 (acceptNodes s c q cm l) := by
  unfold acceptNodes
  try dsimp only
  with_reducible repeat' (first
    | intro _ | assumption | apply keeps_setF | apply keeps_modQ | apply keeps_popCmd | apply keeps_rejectFront
    | apply keeps_addTasks | apply keeps_ite | apply keepsL_ite | apply keepsL_fst | simp only [keeps_upd] | split)

theorem keeps_acceptTasks {s0 : State} {hostSt c q : Nat} {cm : Cmd} {b : List Byte} {s : State} (hkeep : Keeps s0 s) :
    Keeps s0 (acceptTasks hostSt c q cm b s) := by
  unfold acceptTasks
  try dsimp only
  with_reducible repeat' (first
    | assumption | apply keeps_badFront | apply keeps_rejectFront | apply keeps_fetchFailed | apply keeps_readTasks
    | apply keeps_acceptNodes | apply keeps_ite | simp only [keeps_upd] | split | refine keepsRd_getOk ?_ ‹_ = Read.ok _ _›
    | refine keepsRd_getFailed ?_ ‹_ = Read.failed _ _› | refine keepsRd_getBad ?_ ‹_ = Read.bad _ _›)

theorem keeps_acceptFront {s0 : State} {c q op : Nat} {eff : Cmd → List Byte → State → State} {s : State} (heff : ∀ t0 t1 t2,
    Keeps s0 t2 → Keeps s0 (eff t0 t1 t2)) (hkeep : Keeps s0 s) :
    Keeps s0 (acceptFront c q op eff s) := by
  unfold acceptFront
  try dsimp only
  with_reducible repeat' (first
    | assumption | apply keeps_progress | apply keeps_settleFront | apply heff | apply keeps_ite | simp only [keeps_upd]
    | split)

theorem keeps_execTask {s0 : State} {c : Fin 16} {q : Fin 8} {hostSt : Fin 4} {s : State} (hkeep : Keeps s0 s) :
    KeepsO s0 (execTask c q hostSt s) := by
  unfold execTask
  try dsimp only
  with_reducible repeat' (first
    | assumption | apply keeps_whenOn | apply keeps_acceptTasks | apply keeps_acceptFront | apply keepsO_next)

theorem keeps_execGraph {s0 : State} {c : Fin 16} {q : Fin 8} {hostSt : Fin 4} {s : State} (hkeep : Keeps s0 s) :
    KeepsO s0 (execGraph c q hostSt s) := by
  unfold execGraph
  try dsimp only
  with_reducible repeat' (first
    | assumption | apply keeps_whenOn | apply keeps_acceptTasks | apply keeps_acceptFront | apply keepsO_next)

theorem keeps_plainCmd {s0 : State} {c q op : Nat} {eff : Cmd → List Byte → State → State} {cm : Cmd} {b : List Byte} {s :
    State} (heff : ∀ t0 t1 t2, Keeps s0 t2 → Keeps s0 (eff t0 t1 t2)) (hkeep : Keeps s0 s) :
    Keeps s0 (plainCmd c q op eff cm b s) := by
  unfold plainCmd
  try dsimp only
  with_reducible repeat' (first
    | assumption | apply keeps_badFront | apply keeps_rejectFront | apply heff | apply keeps_ite | simp only [keeps_upd]
    | split)

theorem keeps_execNop {s0 : State} {c : Fin 16} {q : Fin 8} {s : State} (hkeep : Keeps s0 s) :
    KeepsO s0 (execNop c q s) := by
  unfold execNop
  try dsimp only
  with_reducible repeat' (first
    | intro _ | assumption | apply keeps_whenOn | apply keeps_completeFront | apply keeps_acceptFront | apply keeps_plainCmd
    | apply keepsO_next)

theorem keeps_putSlotField {s0 : State} {s : State} {sl cls deadline pt : Nat} {mask : Nat} (hkeep : Keeps s0 s) :
    Keeps s0 (putSlotField s sl cls deadline pt mask) := by
  unfold putSlotField
  try dsimp only
  with_reducible repeat' (first
    | assumption | apply keeps_setF | apply keeps_ite)

theorem keeps_openSlot {s0 : State} {s : State} {c sl : Nat} {b : List Byte} (hkeep : Keeps s0 s) :
    Keeps s0 (openSlot s c sl b) := by
  unfold openSlot
  try dsimp only
  with_reducible repeat' (first
    | assumption | apply keeps_setF | apply keeps_putSlotField)

theorem keeps_openSeq {s0 : State} {c q : Nat} {cm : Cmd} {b : List Byte} {s : State} (hkeep : Keeps s0 s) :
    Keeps s0 (openSeq c q cm b s) := by
  unfold openSeq
  try dsimp only
  with_reducible repeat' (first
    | intro _ | assumption | apply keeps_completeFront | apply keeps_rejectFront | apply keeps_openSlot | apply keeps_ite
    | simp only [keeps_upd] | split)

theorem keeps_execOpenSeq {s0 : State} {c : Fin 16} {q : Fin 8} {s : State} (hkeep : Keeps s0 s) :
    KeepsO s0 (execOpenSeq c q s) := by
  unfold execOpenSeq
  try dsimp only
  with_reducible repeat' (first
    | intro _ | assumption | apply keeps_whenOn | apply keeps_acceptFront | apply keeps_plainCmd | apply keeps_openSeq
    | apply keeps_ite | apply keepsL_ite | apply keepsR_ite | apply keepsO_ite | apply keepsM_ite | apply keepsN_ite
    | apply keepsRd_ite | apply keepsN_bind | apply keepsM_bind | apply keepsM_getD | apply keepsO_next
    | apply keeps_forEach | apply keeps_foldl | apply keepsL_foldl | apply keepsR_foldl | apply keepsL_fst
    | apply keepsR_snd | apply keepsN_pair
    | simp only [keeps_upd, keepsL_mk, keepsR_mk, keepsM_some, keepsM_none, keepsN_some, keepsN_none, keepsRd_ok,
        keepsRd_waits, keepsRd_failed, keepsRd_bad]
    | exact True.intro | split | (refine keepsM_get ?_ ‹_ = some _›) | (refine keepsN_get ?_ ‹_ = some (_, _)›)
    | (refine keepsRd_getOk ?_ ‹_ = Read.ok _ _›) | (refine keepsRd_getFailed ?_ ‹_ = Read.failed _ _›)
    | (refine keepsRd_getBad ?_ ‹_ = Read.bad _ _›))

theorem keeps_setSeq {s0 : State} {c q : Nat} {cm : Cmd} {b : List Byte} {s : State} (hkeep : Keeps s0 s) :
    Keeps s0 (setSeq c q cm b s) := by
  unfold setSeq
  try dsimp only
  with_reducible repeat' (first
    | assumption | apply keeps_setF | apply keeps_completeFront | apply keeps_rejectFront | apply keeps_putSlotField
    | apply keeps_ite)

theorem keeps_execSetSeq {s0 : State} {c : Fin 16} {q : Fin 8} {s : State} (hkeep : Keeps s0 s) :
    KeepsO s0 (execSetSeq c q s) := by
  unfold execSetSeq
  try dsimp only
  with_reducible repeat' (first
    | intro _ | assumption | apply keeps_whenOn | apply keeps_acceptFront | apply keeps_plainCmd | apply keeps_setSeq
    | apply keeps_ite | apply keepsL_ite | apply keepsR_ite | apply keepsO_ite | apply keepsM_ite | apply keepsN_ite
    | apply keepsRd_ite | apply keepsN_bind | apply keepsM_bind | apply keepsM_getD | apply keepsO_next
    | apply keeps_forEach | apply keeps_foldl | apply keepsL_foldl | apply keepsR_foldl | apply keepsL_fst
    | apply keepsR_snd | apply keepsN_pair
    | simp only [keeps_upd, keepsL_mk, keepsR_mk, keepsM_some, keepsM_none, keepsN_some, keepsN_none, keepsRd_ok,
        keepsRd_waits, keepsRd_failed, keepsRd_bad]
    | exact True.intro | split | (refine keepsM_get ?_ ‹_ = some _›) | (refine keepsN_get ?_ ‹_ = some (_, _)›)
    | (refine keepsRd_getOk ?_ ‹_ = Read.ok _ _›) | (refine keepsRd_getFailed ?_ ‹_ = Read.failed _ _›)
    | (refine keepsRd_getBad ?_ ‹_ = Read.bad _ _›))

theorem keeps_closeSeq {s0 : State} {c q : Nat} {cm : Cmd} {b : List Byte} {s : State} (hkeep : Keeps s0 s) :
    Keeps s0 (closeSeq c q cm b s) := by
  unfold closeSeq
  try dsimp only
  with_reducible repeat' (first
    | intro _ | assumption | apply keeps_setF | apply keeps_completeFront | apply keeps_rejectFront | apply keeps_ite)

theorem keeps_execCloseSeq {s0 : State} {c : Fin 16} {q : Fin 8} {s : State} (hkeep : Keeps s0 s) :
    KeepsO s0 (execCloseSeq c q s) := by
  unfold execCloseSeq
  try dsimp only
  with_reducible repeat' (first
    | intro _ | assumption | apply keeps_whenOn | apply keeps_acceptFront | apply keeps_plainCmd | apply keeps_closeSeq
    | apply keeps_ite | apply keepsL_ite | apply keepsR_ite | apply keepsO_ite | apply keepsM_ite | apply keepsN_ite
    | apply keepsRd_ite | apply keepsN_bind | apply keepsM_bind | apply keepsM_getD | apply keepsO_next
    | apply keeps_forEach | apply keeps_foldl | apply keepsL_foldl | apply keepsR_foldl | apply keepsL_fst
    | apply keepsR_snd | apply keepsN_pair
    | simp only [keeps_upd, keepsL_mk, keepsR_mk, keepsM_some, keepsM_none, keepsN_some, keepsN_none, keepsRd_ok,
        keepsRd_waits, keepsRd_failed, keepsRd_bad]
    | exact True.intro | split | (refine keepsM_get ?_ ‹_ = some _›) | (refine keepsN_get ?_ ‹_ = some (_, _)›)
    | (refine keepsRd_getOk ?_ ‹_ = Read.ok _ _›) | (refine keepsRd_getFailed ?_ ‹_ = Read.failed _ _›)
    | (refine keepsRd_getBad ?_ ‹_ = Read.bad _ _›))

theorem keeps_writeUnits {s0 : State} {s : State} {c : Nat} {units : List Nat} (hkeep : Keeps s0 s) :
    Keeps s0 (writeUnits s c units) := by
  unfold writeUnits
  try dsimp only
  with_reducible repeat' (first
    | intro _ | assumption | apply keeps_orgWrite | apply keeps_drawBytes | apply keeps_forEach | apply keepsL_fst)

theorem keeps_loadBin {s0 : State} {hostSt c q : Nat} {cm : Cmd} {b : List Byte} {s : State} (hkeep : Keeps s0 s) :
    Keeps s0 (loadBin hostSt c q cm b s) := by
  unfold loadBin
  try dsimp only
  with_reducible repeat' (first
    | assumption | apply keeps_setBin | apply keeps_completeFront | apply keeps_rejectFront | apply keeps_fetchFailed
    | apply keeps_readDev | apply keeps_writeUnits | apply keeps_ite | apply keepsL_ite | apply keepsL_fst
    | simp only [keeps_upd] | split)

theorem keeps_execLoadBin {s0 : State} {c : Fin 16} {q : Fin 8} {hostSt : Fin 4} {s : State} (hkeep : Keeps s0 s) :
    KeepsO s0 (execLoadBin c q hostSt s) := by
  unfold execLoadBin
  try dsimp only
  with_reducible repeat' (first
    | intro _ | assumption | apply keeps_whenOn | apply keeps_acceptFront | apply keeps_plainCmd | apply keeps_loadBin
    | apply keeps_ite | apply keepsL_ite | apply keepsR_ite | apply keepsO_ite | apply keepsM_ite | apply keepsN_ite
    | apply keepsRd_ite | apply keepsN_bind | apply keepsM_bind | apply keepsM_getD | apply keepsO_next
    | apply keeps_forEach | apply keeps_foldl | apply keepsL_foldl | apply keepsR_foldl | apply keepsL_fst
    | apply keepsR_snd | apply keepsN_pair
    | simp only [keeps_upd, keepsL_mk, keepsR_mk, keepsM_some, keepsM_none, keepsN_some, keepsN_none, keepsRd_ok,
        keepsRd_waits, keepsRd_failed, keepsRd_bad]
    | exact True.intro | split | (refine keepsM_get ?_ ‹_ = some _›) | (refine keepsN_get ?_ ‹_ = some (_, _)›)
    | (refine keepsRd_getOk ?_ ‹_ = Read.ok _ _›) | (refine keepsRd_getFailed ?_ ‹_ = Read.failed _ _›)
    | (refine keepsRd_getBad ?_ ‹_ = Read.bad _ _›))

theorem keeps_unloadBin {s0 : State} {c q : Nat} {cm : Cmd} {b : List Byte} {s : State} (hkeep : Keeps s0 s) :
    Keeps s0 (unloadBin c q cm b s) := by
  unfold unloadBin
  try dsimp only
  with_reducible repeat' (first
    | intro _ | assumption | apply keeps_setBin | apply keeps_completeFront | apply keeps_rejectFront | apply keeps_ite
    | simp only [keeps_upd])

theorem keeps_execUnloadBin {s0 : State} {c : Fin 16} {q : Fin 8} {s : State} (hkeep : Keeps s0 s) :
    KeepsO s0 (execUnloadBin c q s) := by
  unfold execUnloadBin
  try dsimp only
  with_reducible repeat' (first
    | intro _ | assumption | apply keeps_whenOn | apply keeps_acceptFront | apply keeps_plainCmd | apply keeps_unloadBin
    | apply keeps_ite | apply keepsL_ite | apply keepsR_ite | apply keepsO_ite | apply keepsM_ite | apply keepsN_ite
    | apply keepsRd_ite | apply keepsN_bind | apply keepsM_bind | apply keepsM_getD | apply keepsO_next
    | apply keeps_forEach | apply keeps_foldl | apply keepsL_foldl | apply keepsR_foldl | apply keepsL_fst
    | apply keepsR_snd | apply keepsN_pair
    | simp only [keeps_upd, keepsL_mk, keepsR_mk, keepsM_some, keepsM_none, keepsN_some, keepsN_none, keepsRd_ok,
        keepsRd_waits, keepsRd_failed, keepsRd_bad]
    | exact True.intro | split | (refine keepsM_get ?_ ‹_ = some _›) | (refine keepsN_get ?_ ‹_ = some (_, _)›)
    | (refine keepsRd_getOk ?_ ‹_ = Read.ok _ _›) | (refine keepsRd_getFailed ?_ ‹_ = Read.failed _ _›)
    | (refine keepsRd_getBad ?_ ‹_ = Read.bad _ _›))

theorem keeps_dmaStart {s0 : State} {c q : Nat} {cm : Cmd} {b : List Byte} {s : State} (hkeep : Keeps s0 s) :
    Keeps s0 (dmaStart c q cm b s) := by
  unfold dmaStart
  try dsimp only
  with_reducible repeat' (first
    | intro _ | assumption | apply keeps_modQ | apply keeps_startChain | apply keeps_popCmd | apply keeps_rejectFront
    | apply keeps_ite | simp only [keeps_upd])

theorem keeps_execDmaStart {s0 : State} {c : Fin 16} {q : Fin 8} {s : State} (hkeep : Keeps s0 s) :
    KeepsO s0 (execDmaStart c q s) := by
  unfold execDmaStart
  try dsimp only
  with_reducible repeat' (first
    | intro _ | assumption | apply keeps_whenOn | apply keeps_acceptFront | apply keeps_plainCmd | apply keeps_dmaStart
    | apply keeps_ite | apply keepsL_ite | apply keepsR_ite | apply keepsO_ite | apply keepsM_ite | apply keepsN_ite
    | apply keepsRd_ite | apply keepsN_bind | apply keepsM_bind | apply keepsM_getD | apply keepsO_next
    | apply keeps_forEach | apply keeps_foldl | apply keepsL_foldl | apply keepsR_foldl | apply keepsL_fst
    | apply keepsR_snd | apply keepsN_pair
    | simp only [keeps_upd, keepsL_mk, keepsR_mk, keepsM_some, keepsM_none, keepsN_some, keepsN_none, keepsRd_ok,
        keepsRd_waits, keepsRd_failed, keepsRd_bad]
    | exact True.intro | split | (refine keepsM_get ?_ ‹_ = some _›) | (refine keepsN_get ?_ ‹_ = some (_, _)›)
    | (refine keepsRd_getOk ?_ ‹_ = Read.ok _ _›) | (refine keepsRd_getFailed ?_ ‹_ = Read.failed _ _›)
    | (refine keepsRd_getBad ?_ ‹_ = Read.bad _ _›))

theorem keeps_execReadinessPoll {s0 : State} {s : State} (hkeep : Keeps s0 s) :
    KeepsO s0 (execReadinessPoll s) := by
  unfold execReadinessPoll
  try dsimp only
  with_reducible repeat' (first
    | intro _ | assumption | apply keeps_every | apply keeps_whenOn | apply keeps_setTask | apply keeps_progress
    | apply keepsO_next | apply keeps_forEach | simp only [keeps_upd] | split)

theorem keeps_cancelFe {s0 : State} {s : State} {op core : Nat} (hkeep : Keeps s0 s) :
    Keeps s0 (cancelFe s op core) := by
  unfold cancelFe
  try dsimp only
  with_reducible repeat' (first
    | intro _ | assumption | apply keeps_dropOp | apply keeps_countSop | simp only [keeps_upd])

theorem keeps_cancelShare {s0 : State} {op : Nat} {s : State} {x : Share} (hkeep : Keeps s0 s) :
    Keeps s0 (cancelShare op s x) := by
  unfold cancelShare
  try dsimp only
  with_reducible repeat' (first
    | intro _ | assumption | apply keeps_completeShare | apply keeps_cancelSlath | apply keeps_cancelFe | apply keeps_ite
    | simp only [keeps_upd] | split)

theorem keeps_cancelOps {s0 : State} {s : State} {id : Nat} (hkeep : Keeps s0 s) :
    Keeps s0 (cancelOps s id) := by
  unfold cancelOps
  try dsimp only
  with_reducible repeat' (first
    | intro _ | assumption | apply keeps_cancelShare | apply keeps_forEach)

theorem keeps_discardSaved {s0 : State} {s : State} {t : Task} (hkeep : Keeps s0 s) :
    Keeps s0 (discardSaved s t) := by
  unfold discardSaved
  try dsimp only
  with_reducible repeat' (first
    | assumption | apply keeps_dropSaved | simp only [keeps_upd] | split)

theorem keeps_killRunning {s0 : State} {s : State} {k : Nat} {t : Task} (hkeep : Keeps s0 s) :
    Keeps s0 (killRunning s k t) := by
  unfold killRunning
  try dsimp only
  with_reducible repeat' (first
    | intro _ | assumption | apply keeps_stopStream | apply keeps_cutHandler | apply keeps_cancelOps | apply keeps_ite
    | apply keeps_forEach | simp only [keeps_upd] | split)

theorem keeps_killTask {s0 : State} {s : State} {i : Nat} (hkeep : Keeps s0 s) :
    Keeps s0 (killTask s i) := by
  unfold killTask
  try dsimp only
  with_reducible repeat' (first
    | assumption | apply keeps_endTask | apply keeps_poisonOuts | apply keeps_cancelOps | apply keeps_discardSaved
    | apply keeps_killRunning | simp only [keeps_upd] | split)

theorem keeps_killTasks {s0 : State} {s : State} {l : List Nat} (hkeep : Keeps s0 s) :
    Keeps s0 (killTasks s l) := by
  unfold killTasks
  try dsimp only
  with_reducible repeat' (first
    | intro _ | assumption | apply keeps_endTasks | apply keeps_poisonOuts | apply keeps_cancelOps
    | apply keeps_discardSaved | apply keeps_killTask | apply keeps_forEach | simp only [keeps_upd] | split)

theorem keeps_kill {s0 : State} {c q : Nat} {cm : Cmd} {b : List Byte} {s : State} (hkeep : Keeps s0 s) :
    Keeps s0 (kill c q cm b s) := by
  unfold kill
  try dsimp only
  with_reducible repeat' (first
    | intro _ | assumption | apply keeps_modQ | apply keeps_staleTask | apply keeps_completeCmds | apply keeps_gateLog
    | apply keeps_popCmd | apply keeps_rejectFront | apply keeps_killTasks | apply keeps_ite | simp only [keeps_upd])

theorem keeps_execKill {s0 : State} {c : Fin 16} {q : Fin 8} {s : State} (hkeep : Keeps s0 s) :
    KeepsO s0 (execKill c q s) := by
  unfold execKill
  try dsimp only
  with_reducible repeat' (first
    | intro _ | assumption | apply keeps_whenOn | apply keeps_acceptFront | apply keeps_plainCmd | apply keeps_kill
    | apply keeps_ite | apply keepsL_ite | apply keepsR_ite | apply keepsO_ite | apply keepsM_ite | apply keepsN_ite
    | apply keepsRd_ite | apply keepsN_bind | apply keepsM_bind | apply keepsM_getD | apply keepsO_next
    | apply keeps_forEach | apply keeps_foldl | apply keepsL_foldl | apply keepsR_foldl | apply keepsL_fst
    | apply keepsR_snd | apply keepsN_pair
    | simp only [keeps_upd, keepsL_mk, keepsR_mk, keepsM_some, keepsM_none, keepsN_some, keepsN_none, keepsRd_ok,
        keepsRd_waits, keepsRd_failed, keepsRd_bad]
    | exact True.intro | split | (refine keepsM_get ?_ ‹_ = some _›) | (refine keepsN_get ?_ ‹_ = some (_, _)›)
    | (refine keepsRd_getOk ?_ ‹_ = Read.ok _ _›) | (refine keepsRd_getFailed ?_ ‹_ = Read.failed _ _›)
    | (refine keepsRd_getBad ?_ ‹_ = Read.bad _ _›))

theorem keeps_killQueue {s0 : State} {s : State} {c q : Nat} (hkeep : Keeps s0 s) :
    Keeps s0 (killQueue s c q) := by
  unfold killQueue
  try dsimp only
  with_reducible repeat' (first
    | assumption | apply keeps_setF | apply keeps_raiseVec | apply keeps_ite)

theorem keeps_killContext {s0 : State} {s : State} {c : Nat} (hkeep : Keeps s0 s) :
    Keeps s0 (killContext s c) := by
  unfold killContext
  try dsimp only
  with_reducible repeat' (first
    | intro _ | assumption | apply keeps_cutHandler | apply keeps_progress | apply keeps_killChan | apply keeps_gateLog
    | apply keeps_cancelShare | apply keeps_killTasks | apply keeps_killQueue | apply keeps_ite | apply keeps_forEach
    | simp only [keeps_upd] | split)

theorem keeps_writeCtxkill {s0 : State} {s : State} {c v : Nat} (hkeep : Keeps s0 s) :
    Keeps s0 (writeCtxkill s c v) := by
  unfold writeCtxkill
  try dsimp only
  with_reducible repeat' (first
    | assumption | apply keeps_killContext | apply keeps_ite)

theorem keeps_execCtxkill {s0 : State} {c : Fin 16} {v : BitVec 64} {s : State} (hkeep : Keeps s0 s) :
    KeepsO s0 (execCtxkill c v s) := by
  unfold execCtxkill
  try dsimp only
  with_reducible repeat' (first
    | assumption | apply keeps_whenServed | apply keeps_writeCtxkill | apply keepsO_next)

theorem keeps_stopMeter {s0 : State} {el : Nat} {s : State} {sl : Nat} (hkeep : Keeps s0 s) :
    Keeps s0 (stopMeter el s sl) := by
  unfold stopMeter
  try dsimp only
  with_reducible repeat' (first
    | assumption | apply keeps_setF | apply keeps_bump | apply keeps_ite)

theorem keeps_closeTask {s0 : State} {s : State} {r : Rec} {written : Bool} (hkeep : Keeps s0 s) :
    Keeps s0 (closeTask s r written) := by
  unfold closeTask
  try dsimp only
  with_reducible repeat' (first
    | assumption | apply keeps_setTask | apply keeps_ite | simp only [keeps_upd] | split)

theorem keeps_judge {s0 : State} {s : State} {r : Rec} (hkeep : Keeps s0 s) :
    KeepsL s0 (judge s r) := by
  unfold judge
  try dsimp only
  with_reducible repeat' (first
    | intro _ | assumption | apply keeps_stopMeter | apply keeps_ite | apply keepsL_ite | apply keeps_forEach
    | apply keepsL_fst | simp only [keeps_upd, keepsL_mk])

theorem keeps_writeRec {s0 : State} {s : State} {c q : Nat} (hkeep : Keeps s0 s) :
    Keeps s0 (writeRec s c q) := by
  unfold writeRec
  try dsimp only
  with_reducible repeat' (first
    | intro _ | assumption | apply keeps_setF | apply keeps_raiseVec | apply keeps_toHost | apply keeps_modQ
    | apply keeps_closeTask | apply keeps_judge | apply keeps_ite | apply keepsL_ite | apply keepsL_fst
    | simp only [keeps_upd] | split)

theorem keeps_execCompletionRecordWrite {s0 : State} {c : Fin 16} {q : Fin 8} {s : State} (hkeep : Keeps s0 s) :
    KeepsO s0 (execCompletionRecordWrite c q s) := by
  unfold execCompletionRecordWrite
  try dsimp only
  with_reducible repeat' (first
    | assumption | apply keeps_whenOn | apply keeps_settleFront | apply keeps_writeRec | apply keepsO_next)

theorem keeps_writeCplHead {s0 : State} {s : State} {c q v : Nat} (hkeep : Keeps s0 s) :
    Keeps s0 (writeCplHead s c q v) := by
  unfold writeCplHead
  try dsimp only
  with_reducible repeat' (first
    | assumption | apply keeps_setF)

theorem keeps_execCompletionConsumerCount {s0 : State} {c : Fin 16} {q : Fin 8} {v : BitVec 64} {s : State} (hkeep : Keeps s0
    s) :
    KeepsO s0 (execCompletionConsumerCount c q v s) := by
  unfold execCompletionConsumerCount
  try dsimp only
  with_reducible repeat' (first
    | assumption | apply keeps_whenServed | apply keeps_settleFront | apply keeps_writeCplHead | apply keepsO_next)

theorem keeps_execTaskIdQuarantineExpiry {s0 : State} {i : Fin 4096} {s : State} (hkeep : Keeps s0 s) :
    KeepsO s0 (execTaskIdQuarantineExpiry i s) := by
  unfold execTaskIdQuarantineExpiry
  try dsimp only
  with_reducible repeat' (first
    | intro _ | assumption | apply keeps_whenOn | apply keeps_setTask | apply keeps_ite | apply keepsO_next
    | simp only [keeps_upd] | split)

theorem keeps_enableQueue {s0 : State} {s : State} {c q : Nat} (hkeep : Keeps s0 s) :
    Keeps s0 (enableQueue s c q) := by
  unfold enableQueue
  try dsimp only
  with_reducible repeat' (first
    | intro _ | assumption | apply keeps_setF | apply keeps_modQ | simp only [keeps_upd])

theorem keeps_disableQueue {s0 : State} {s : State} {c q : Nat} (hkeep : Keeps s0 s) :
    Keeps s0 (disableQueue s c q) := by
  unfold disableQueue
  try dsimp only
  with_reducible repeat' (first
    | intro _ | assumption | apply keeps_setF | apply keeps_modQ | simp only [keeps_upd])

theorem keeps_stopAcceptance {s0 : State} {s : State} {c q : Nat} (hkeep : Keeps s0 s) :
    Keeps s0 (stopAcceptance s c q) := by
  unfold stopAcceptance
  try dsimp only
  with_reducible repeat' (first
    | assumption | apply keeps_setF | apply keeps_raiseVec | apply keeps_ite)

theorem keeps_resumeAcceptance {s0 : State} {s : State} {c q : Nat} (hkeep : Keeps s0 s) :
    Keeps s0 (resumeAcceptance s c q) := by
  unfold resumeAcceptance
  try dsimp only
  with_reducible repeat' (first
    | assumption | apply keeps_setF | apply keeps_ite)

theorem keeps_writeQctl {s0 : State} {s : State} {c q v : Nat} (hkeep : Keeps s0 s) :
    Keeps s0 (writeQctl s c q v) := by
  unfold writeQctl
  try dsimp only
  with_reducible repeat' (first
    | assumption | apply keeps_setF | apply keeps_settleFront | apply keeps_enableQueue | apply keeps_disableQueue
    | apply keeps_stopAcceptance | apply keeps_resumeAcceptance | apply keeps_ite)

theorem keeps_execQueueEnable {s0 : State} {c : Fin 16} {q : Fin 8} {vec : BitVec 8} {s : State} (hkeep : Keeps s0 s) :
    KeepsO s0 (execQueueEnable c q vec s) := by
  unfold execQueueEnable
  try dsimp only
  with_reducible repeat' (first
    | assumption | apply keeps_whenServed | apply keeps_writeQctl | apply keepsO_next)

theorem keeps_execQueueDisable {s0 : State} {c : Fin 16} {q : Fin 8} {vec : BitVec 8} {s : State} (hkeep : Keeps s0 s) :
    KeepsO s0 (execQueueDisable c q vec s) := by
  unfold execQueueDisable
  try dsimp only
  with_reducible repeat' (first
    | assumption | apply keeps_whenServed | apply keeps_writeQctl | apply keepsO_next)

theorem keeps_execQueueStop {s0 : State} {c : Fin 16} {q : Fin 8} {s : State} (hkeep : Keeps s0 s) :
    KeepsO s0 (execQueueStop c q s) := by
  unfold execQueueStop
  try dsimp only
  with_reducible repeat' (first
    | assumption | apply keeps_whenServed | apply keeps_writeQctl | apply keepsO_next)

theorem keeps_execQueueResume {s0 : State} {c : Fin 16} {q : Fin 8} {s : State} (hkeep : Keeps s0 s) :
    KeepsO s0 (execQueueResume c q s) := by
  unfold execQueueResume
  try dsimp only
  with_reducible repeat' (first
    | assumption | apply keeps_whenServed | apply keeps_writeQctl | apply keepsO_next)

theorem keeps_writeCtxctl {s0 : State} {s : State} {c v : Nat} (hkeep : Keeps s0 s) :
    Keeps s0 (writeCtxctl s c v) := by
  unfold writeCtxctl
  try dsimp only
  with_reducible repeat' (first
    | intro _ | assumption | apply keeps_setF | apply keeps_setBit | apply keeps_ite | simp only [keeps_upd])

theorem keeps_execContextEnable {s0 : State} {c : Fin 16} {v : BitVec 64} {s : State} (hkeep : Keeps s0 s) :
    KeepsO s0 (execContextEnable c v s) := by
  unfold execContextEnable
  try dsimp only
  with_reducible repeat' (first
    | assumption | apply keeps_whenServed | apply keeps_writeCtxctl | apply keepsO_next)

theorem keeps_writeModecfg {s0 : State} {s : State} {v : Nat} (hkeep : Keeps s0 s) :
    Keeps s0 (writeModecfg s v) := by
  unfold writeModecfg
  try dsimp only
  with_reducible repeat' (first
    | intro _ | assumption | apply keeps_setF | apply keeps_bump | apply keeps_ite)

theorem keeps_execModecfgWrite {s0 : State} {v : BitVec 64} {s : State} (hkeep : Keeps s0 s) :
    KeepsO s0 (execModecfgWrite v s) := by
  unfold execModecfgWrite
  try dsimp only
  with_reducible repeat' (first
    | assumption | apply keeps_whenServed | apply keeps_writeModecfg | apply keepsO_next)

theorem keeps_freshCore {s0 : State} {s : State} {m : Nat} (hkeep : Keeps s0 s) :
    Keeps s0 (freshCore s m) := by
  unfold freshCore
  try dsimp only
  with_reducible repeat' (first
    | intro _ | assumption | apply keeps_modCore | apply keeps_blankTables | simp only [keeps_upd])

theorem keeps_startTask {s0 : State} {s : State} {i : Nat} {t : Task} {k : Nat} {p : List Byte} {plan : List Reservation}
    (hkeep : Keeps s0 s) :
    Keeps s0 (startTask s i t k p plan) := by
  unfold startTask
  try dsimp only
  with_reducible repeat' (first
    | intro _ | assumption | apply keeps_setStr | apply keeps_setTask | apply keeps_pointGrant | apply keeps_installPlan
    | apply keeps_freshCore | apply keeps_forEach | simp only [keeps_upd])

theorem keeps_placeTask {s0 : State} {s : State} {i : Nat} {t : Task} {k hostSt : Nat} {plan : List Reservation} (hkeep : Keeps
    s0 s) :
    Keeps s0 (placeTask s i t k hostSt plan) := by
  unfold placeTask
  try dsimp only
  with_reducible repeat' (first
    | intro _ | assumption | apply keeps_setTask | apply keeps_endTask | apply keeps_gateLog | apply keeps_readDev
    | apply keeps_startTask | apply keeps_ite | apply keepsL_ite | apply keepsR_ite | apply keepsO_ite | apply keepsM_ite
    | apply keepsN_ite | apply keepsRd_ite | apply keepsN_bind | apply keepsM_bind | apply keepsM_getD | apply keepsO_next
    | apply keeps_forEach | apply keeps_foldl | apply keepsL_foldl | apply keepsR_foldl | apply keepsL_fst
    | apply keepsR_snd | apply keepsN_pair
    | simp only [keeps_upd, keepsL_mk, keepsR_mk, keepsM_some, keepsM_none, keepsN_some, keepsN_none, keepsRd_ok,
        keepsRd_waits, keepsRd_failed, keepsRd_bad]
    | exact True.intro | split | (refine keepsM_get ?_ ‹_ = some _›) | (refine keepsN_get ?_ ‹_ = some (_, _)›)
    | (refine keepsRd_getOk ?_ ‹_ = Read.ok _ _›) | (refine keepsRd_getFailed ?_ ‹_ = Read.failed _ _›)
    | (refine keepsRd_getBad ?_ ‹_ = Read.bad _ _›))

theorem keeps_tryHosts {s0 : State} {i : Nat} {t : Task} {hostSt : Nat} {l : List Nat} : ∀  {s : State}, Keeps s0 s → Keeps s0
    (tryHosts i t hostSt l s) := by
  induction l with
  | nil =>
    intros
    unfold tryHosts
    with_reducible repeat' (first
    | intro _ | assumption | apply keeps_setTask | apply keeps_noteCollision | apply keeps_placeTask | apply ih
    | apply keeps_ite | simp only [keeps_upd] | split)
  | cons x l ih =>
    intros
    unfold tryHosts
    try dsimp only
    with_reducible repeat' (first
    | intro _ | assumption | apply keeps_setTask | apply keeps_noteCollision | apply keeps_placeTask | apply ih
    | apply keeps_ite | simp only [keeps_upd] | split)

theorem keeps_requestAll {s0 : State} {s : State} (hkeep : Keeps s0 s) :
    Keeps s0 (requestAll s) := by
  unfold requestAll
  try dsimp only
  with_reducible repeat' (first
    | intro _ | assumption | apply keeps_beginPreempt | apply keeps_ite | apply keeps_forEach)

theorem keeps_execTaskDispatch {s0 : State} {hostSt : Fin 4} {s : State} (hkeep : Keeps s0 s) :
    KeepsO s0 (execTaskDispatch hostSt s) := by
  unfold execTaskDispatch
  try dsimp only
  with_reducible repeat' (first
    | assumption | apply keeps_whenOn | apply keeps_progress | apply keeps_tryHosts | apply keeps_requestAll
    | apply keeps_ite | apply keepsO_next | simp only [keeps_upd] | split)

theorem keeps_execPreemptionSave {s0 : State} {k : Fin 16} {s : State} (hkeep : Keeps s0 s) :
    KeepsO s0 (execPreemptionSave k s) := by
  unfold execPreemptionSave
  try dsimp only
  with_reducible repeat' (first
    | assumption | apply keeps_whenOn | apply keeps_setTask | apply keeps_saveImages | apply keepsO_next
    | simp only [keeps_upd] | split)

theorem keeps_execPreemptionComplete {s0 : State} {k : Fin 16} {s : State} (hkeep : Keeps s0 s) :
    KeepsO s0 (execPreemptionComplete k s) := by
  unfold execPreemptionComplete
  try dsimp only
  with_reducible repeat' (first
    | intro _ | assumption | apply keeps_bump | apply keeps_whenOn | apply keeps_setTask | apply keeps_freeStream
    | apply keepsO_next | simp only [keeps_upd] | split)

theorem keeps_reloadOne {s0 : State} {k : Nat} {s : State} {id : Nat} {g : Option Image} (hkeep : Keeps s0 s) :
    KeepsL s0 (reloadOne k s id g) := by
  unfold reloadOne
  try dsimp only
  with_reducible repeat' (first
    | intro _ | assumption | apply keeps_modWSet | apply keeps_noteStatic | apply keepsL_fst
    | simp only [keeps_upd, keepsL_mk] | split)

theorem keeps_reloadWeights {s0 : State} {k : Nat} {s : State} {w : Weights} (hkeep : Keeps s0 s) :
    KeepsL s0 (reloadWeights k s w) := by
  unfold reloadWeights
  try dsimp only
  with_reducible repeat' (first
    | assumption | apply keeps_reloadOne | apply keeps_ite | apply keepsL_ite | apply keepsL_fst
    | simp only [keeps_upd, keepsL_mk] | split)

theorem keeps_reloadAll {s0 : State} {k : Nat} {ws : List Weights} {s : State} (hkeep : Keeps s0 s) :
    KeepsL s0 (reloadAll k ws s) := by
  unfold reloadAll
  try dsimp only
  with_reducible repeat' (first
    | intro _ | assumption | apply keeps_reloadWeights | apply keeps_foldl | apply keepsL_foldl | apply keepsR_foldl
    | apply keepsL_fst | simp only [keepsL_mk, keepsR_mk])

theorem keeps_restoreCore {s0 : State} {k : Nat} {ws : List (Weights × Weights)} {s : State} {p : Nat × SavedCore} (hkeep :
    Keeps s0 s) :
    Keeps s0 (restoreCore k ws s p) := by
  unfold restoreCore
  try dsimp only
  with_reducible repeat' (first
    | intro _ | assumption | apply keeps_setF | apply keeps_modCore | apply keeps_noteStatic | apply keeps_setArray
    | apply keeps_setTable | apply keeps_ite | apply keeps_forEach | simp only [keeps_upd])

theorem keeps_unpark {s0 : State} {s : State} {k : Nat} (hkeep : Keeps s0 s) :
    Keeps s0 (unpark s k) := by
  unfold unpark
  try dsimp only
  with_reducible repeat' (first
    | assumption | apply keeps_setStr | apply keeps_takeAnswer | simp only [keeps_upd] | split)

theorem keeps_resumeTask {s0 : State} {s : State} {i : Nat} {t : Task} {sv : Saved} {k : Nat} (hkeep : Keeps s0 s) :
    Keeps s0 (resumeTask s i t sv k) := by
  unfold resumeTask
  try dsimp only
  with_reducible repeat' (first
    | intro _ | assumption | apply keeps_bump | apply keeps_setStr | apply keeps_modStr | apply keeps_modWSet
    | apply keeps_dropParked | apply keeps_setTask | apply keeps_pointGrant | apply keeps_installPlan
    | apply keeps_noteCollision | apply keeps_progress | apply keeps_reloadAll | apply keeps_restoreCore
    | apply keeps_unpark | apply keeps_ite | apply keepsL_ite | apply keeps_forEach | apply keepsL_fst
    | simp only [keeps_upd] | split)

theorem keeps_execTaskResume {s0 : State} {s : State} (hkeep : Keeps s0 s) :
    KeepsO s0 (execTaskResume s) := by
  unfold execTaskResume
  try dsimp only
  with_reducible repeat' (first
    | assumption | apply keeps_whenOn | apply keeps_resumeTask | apply keeps_ite | apply keepsO_next | simp only [keeps_upd]
    | split)

theorem keeps_execTaskRetry {s0 : State} {i : Fin 4096} {s : State} (hkeep : Keeps s0 s) :
    KeepsO s0 (execTaskRetry i s) := by
  unfold execTaskRetry
  try dsimp only
  with_reducible repeat' (first
    | intro _ | assumption | apply keeps_whenOn | apply keeps_setTask | apply keeps_ite | apply keepsO_next
    | simp only [keeps_upd] | split)

theorem keeps_promote {s0 : State} {s : State} {i : Nat} {t : Task} (hkeep : Keeps s0 s) :
    Keeps s0 (promote s i t) := by
  unfold promote
  try dsimp only
  with_reducible repeat' (first
    | intro _ | assumption | apply keeps_modStr | apply keeps_setTask | simp only [keeps_upd] | split)

theorem keeps_execDeadlineSlackEvaluation {s0 : State} {s : State} (hkeep : Keeps s0 s) :
    KeepsO s0 (execDeadlineSlackEvaluation s) := by
  unfold execDeadlineSlackEvaluation
  try dsimp only
  with_reducible repeat' (first
    | intro _ | assumption | apply keeps_every | apply keeps_whenOn | apply keeps_promote | apply keepsO_next
    | apply keeps_forEach)

theorem keeps_execAgingEvaluation {s0 : State} {s : State} (hkeep : Keeps s0 s) :
    KeepsO s0 (execAgingEvaluation s) := by
  unfold execAgingEvaluation
  try dsimp only
  with_reducible repeat' (first
    | intro _ | assumption | apply keeps_every | apply keeps_whenOn | apply keeps_ite | apply keepsO_next
    | apply keeps_forEach | simp only [keeps_upd])

theorem keeps_execCompletionTimeout {s0 : State} {r : HostReader} {s : State} (hkeep : Keeps s0 s) :
    KeepsO s0 (execCompletionTimeout r s) := by
  unfold execCompletionTimeout
  try dsimp only
  with_reducible repeat' (first
    | assumption | apply keeps_whenOn | apply keeps_progress | apply keeps_performShare | apply keeps_fetchDesc
    | apply keeps_dmaRun | apply keeps_fetchCmds | apply keeps_settleFront | apply keeps_ite | apply keepsO_next
    | simp only [keeps_upd] | split)

end Sys2Proof.Machine
end

