-- ==== Sys2Proof/Laws/KeepsHost.lean ====
section
/-! SUPPORT. What the operations and the meanings of Machine/View, Lodge, Host, Reset keep: one lemma each (see Laws/Keeps.lean). -/

namespace Sys2Proof.Machine

open Sys2Proof

set_option linter.all false

theorem keeps_modLodge {s0 : State} {s : State} {f : Lodge → Lodge} (hkeep : Keeps s0 s) :
    Keeps s0 (modLodge s f) := by
  unfold modLodge
  try dsimp only
  with_reducible repeat' (first
    | assumption | simp only [keeps_upd])

theorem keeps_monitorFails {s0 : State} {s : State} {j cause value : Nat} (hkeep : Keeps s0 s) :
    Keeps s0 (monitorFails s j cause value) := by
  unfold monitorFails
  try dsimp only
  with_reducible repeat' (first
    | assumption | apply keeps_bump | apply keeps_logPut | apply keeps_applyHedge | apply keeps_ite | simp only [keeps_upd])

theorem keeps_monitorOne {s0 : State} {s : State} {j : Nat} {m : GenMeas} (hkeep : Keeps s0 s) :
    Keeps s0 (monitorOne s j m) := by
  unfold monitorOne
  try dsimp only
  with_reducible repeat' (first
    | intro _ | assumption | apply keeps_setF | apply keeps_modLodge | apply keeps_monitorFails | apply keeps_ite
    | simp only [keeps_upd])

theorem keeps_execMonitorWindow {s0 : State} {meas : List GenMeas} {s : State} (hkeep : Keeps s0 s) :
    KeepsO s0 (execMonitorWindow meas s) := by
  unfold execMonitorWindow
  try dsimp only
  with_reducible repeat' (first
    | intro _ | assumption | apply keeps_eachWindow | apply keeps_whenAwake | apply keeps_monitorOne | apply keeps_ite
    | apply keepsO_next | apply keeps_forEach)

theorem keeps_execReferenceClockLoss {s0 : State} {s : State} (hkeep : Keeps s0 s) :
    KeepsO s0 (execReferenceClockLoss s) := by
  unfold execReferenceClockLoss
  try dsimp only
  with_reducible repeat' (first
    | intro _ | assumption | apply keeps_setF | apply keeps_whenAwake | apply keeps_monitorFails | apply keepsO_next
    | apply keeps_forEach | simp only [keeps_upd])

theorem keeps_setRail {s0 : State} {s : State} {i : Nat} (hkeep : Keeps s0 s) :
    Keeps s0 (setRail s i) := by
  unfold setRail
  try dsimp only
  with_reducible repeat' (first
    | intro _ | assumption | apply keeps_modLodge | simp only [keeps_upd])

theorem keeps_railFor {s0 : State} {s : State} {target : Nat} (hkeep : Keeps s0 s) :
    Keeps s0 (railFor s target) := by
  unfold railFor
  try dsimp only
  with_reducible repeat' (first
    | assumption | apply keeps_setRail)

theorem keeps_beginChange {s0 : State} {s : State} {target at_ low : Nat} (hkeep : Keeps s0 s) :
    Keeps s0 (beginChange s target at_ low) := by
  unfold beginChange
  try dsimp only
  with_reducible repeat' (first
    | assumption | apply keeps_setF | apply keeps_railFor | simp only [keeps_upd])

theorem keeps_decideStep {s0 : State} {s : State} {target : Nat} (hkeep : Keeps s0 s) :
    Keeps s0 (decideStep s target) := by
  unfold decideStep
  try dsimp only
  with_reducible repeat' (first
    | assumption | apply keeps_setF | apply keeps_setRail | apply keeps_railFor | apply keeps_beginChange | apply keeps_ite
    | simp only [keeps_upd] | split)

theorem keeps_execChangeEpoch {s0 : State} {s : State} (hkeep : Keeps s0 s) :
    KeepsO s0 (execChangeEpoch s) := by
  unfold execChangeEpoch
  try dsimp only
  with_reducible repeat' (first
    | intro _ | assumption | apply keeps_setF | apply keeps_whenAwake | apply keeps_clockFrom | apply keeps_modLodge
    | apply keeps_ite | apply keepsO_next | apply keeps_forEach | simp only [keeps_upd] | split)

theorem keeps_resumeMonitors {s0 : State} {s : State} {r : Nat} (hkeep : Keeps s0 s) :
    Keeps s0 (resumeMonitors s r) := by
  unfold resumeMonitors
  try dsimp only
  with_reducible repeat' (first
    | intro _ | assumption | simp only [keeps_upd])

theorem keeps_resumePlots {s0 : State} {s : State} {c : Change} {r : Nat} (hkeep : Keeps s0 s) :
    Keeps s0 (resumePlots s c r) := by
  unfold resumePlots
  try dsimp only
  with_reducible repeat' (first
    | assumption | apply keeps_setF | apply keeps_bump | apply keeps_clockFrom | apply keeps_progress
    | apply keeps_restartFrame | apply keeps_setRail | apply keeps_beginChange | apply keeps_resumeMonitors
    | apply keeps_ite | simp only [keeps_upd] | split)

theorem keeps_execChangeResume {s0 : State} {s : State} (hkeep : Keeps s0 s) :
    KeepsO s0 (execChangeResume s) := by
  unfold execChangeResume
  try dsimp only
  with_reducible repeat' (first
    | intro _ | assumption | apply keeps_setF | apply keeps_whenAwake | apply keeps_resumePlots | apply keeps_ite
    | apply keepsO_next | apply keeps_forEach | simp only [keeps_upd] | split)

theorem keeps_execLockTimeout {s0 : State} {late : List (Fin 10)} {s : State} (hkeep : Keeps s0 s) :
    KeepsO s0 (execLockTimeout late s) := by
  unfold execLockTimeout
  try dsimp only
  with_reducible repeat' (first
    | intro _ | assumption | apply keeps_setF | apply keeps_whenAwake | apply keeps_monitorFails | apply keeps_resumePlots
    | apply keeps_ite | apply keepsO_next | apply keeps_forEach | simp only [keeps_upd] | split)

theorem keeps_governor {s0 : State} {pin pd : Nat} {temps : List Int} {s : State} (hkeep : Keeps s0 s) :
    Keeps s0 (governor pin pd temps s) := by
  unfold governor
  try dsimp only
  with_reducible repeat' (first
    | intro _ | assumption | apply keeps_setF | apply keeps_bump | apply keeps_irqSource | apply keeps_modLodge
    | apply keeps_decideStep | apply keeps_ite | simp only [keeps_upd])

theorem keeps_execGovernor {s0 : State} {pin pd : Nat} {temps : List Int} {s : State} (hkeep : Keeps s0 s) :
    KeepsO s0 (execGovernor pin pd temps s) := by
  unfold execGovernor
  try dsimp only
  with_reducible repeat' (first
    | assumption | apply keeps_every | apply keeps_whenAwake | apply keeps_governor | apply keeps_ite | apply keepsO_next)

theorem keeps_execCoolUpdate {s0 : State} {s : State} (hkeep : Keeps s0 s) :
    KeepsO s0 (execCoolUpdate s) := by
  unfold execCoolUpdate
  try dsimp only
  with_reducible repeat' (first
    | intro _ | assumption | apply keeps_setF | apply keeps_every | apply keeps_whenAwake | apply keepsO_next
    | simp only [keeps_upd])

theorem keeps_newWindow {s0 : State} {s : State} {lost : Bool} (hkeep : Keeps s0 s) :
    Keeps s0 (newWindow s lost) := by
  unfold newWindow
  try dsimp only
  with_reducible repeat' (first
    | intro _ | assumption | apply keeps_modLodge | simp only [keeps_upd])

theorem keeps_telemetry {s0 : State} {m : TelMeas} {sent : Bool} {s : State} (hkeep : Keeps s0 s) :
    Keeps s0 (telemetry m sent s) := by
  unfold telemetry
  try dsimp only
  with_reducible repeat' (first
    | intro _ | assumption | apply keeps_setF | apply keeps_bump | apply keeps_irqSource | apply keeps_toHostEntry
    | apply keeps_modLodge | apply keeps_newWindow | apply keeps_ite | simp only [keeps_upd])

theorem keeps_execTelemetryFrame {s0 : State} {m : TelMeas} {sent : Bool} {s : State} (hkeep : Keeps s0 s) :
    KeepsO s0 (execTelemetryFrame m sent s) := by
  unfold execTelemetryFrame
  try dsimp only
  with_reducible repeat' (first
    | assumption | apply keeps_eachWindow | apply keeps_whenAwake | apply keeps_telemetry | apply keepsO_next)

theorem keeps_writeTelring {s0 : State} {s : State} {v : Nat} (hkeep : Keeps s0 s) :
    Keeps s0 (writeTelring s v) := by
  unfold writeTelring
  try dsimp only
  with_reducible repeat' (first
    | intro _ | assumption | apply keeps_setF | apply keeps_modLodge | apply keeps_ite | simp only [keeps_upd])

theorem keeps_execTelringEnable {s0 : State} {v : BitVec 64} {s : State} (hkeep : Keeps s0 s) :
    KeepsO s0 (execTelringEnable v s) := by
  unfold execTelringEnable
  try dsimp only
  with_reducible repeat' (first
    | assumption | apply keeps_writeTelring | apply keeps_ite | apply keepsO_next)

theorem keeps_barError {s0 : State} {s : State} {bit off : Nat} (hkeep : Keeps s0 s) :
    Keeps s0 (barError s bit off) := by
  unfold barError
  try dsimp only
  with_reducible repeat' (first
    | assumption | apply keeps_setF | apply keeps_bump | apply keeps_logEvent | simp only [keeps_upd] | split)

theorem keeps_winOf {s0 : State} {s : State} {r : State × Loc} (hr : KeepsL s0 r) (hkeep : Keeps s0 s) :
    KeepsL s0 (winOf s r) := by
  unfold winOf
  try dsimp only
  with_reducible repeat' (first
    | assumption | apply keeps_ite | apply keepsL_ite | apply keepsL_fst | simp only [keeps_upd, keepsL_mk] | split)

theorem keeps_windowAt {s0 : State} {s : State} {o : Nat} {write : Bool} (hkeep : Keeps s0 s) :
    KeepsL s0 (windowAt s o write) := by
  unfold windowAt
  try dsimp only
  with_reducible repeat' (first
    | assumption | apply keeps_locate | apply keeps_winOf | apply keepsL_fst | simp only [keepsL_mk])

theorem keeps_noteWin {s0 : State} {w : State × WinAt} {o : Nat} (hw : KeepsL s0 w) :
    Keeps s0 (noteWin w o) := by
  unfold noteWin
  try dsimp only
  with_reducible repeat' (first
    | intro _ | assumption | apply keeps_noteHole | apply keeps_noteNotReady | apply keeps_barError | apply keeps_ite
    | apply keepsL_ite | apply keepsR_ite | apply keepsO_ite | apply keepsM_ite | apply keepsN_ite | apply keepsRd_ite
    | apply keepsN_bind | apply keepsM_bind | apply keepsM_getD | apply keepsO_next | apply keeps_forEach
    | apply keeps_foldl | apply keepsL_foldl | apply keepsR_foldl | apply keepsL_fst | apply keepsR_snd | apply keepsN_pair
    | simp only [keeps_upd, keepsL_mk, keepsR_mk, keepsM_some, keepsM_none, keepsN_some, keepsN_none, keepsRd_ok,
        keepsRd_waits, keepsRd_failed, keepsRd_bad]
    | exact True.intro | split | (refine keepsM_get ?_ ‹_ = some _›) | (refine keepsN_get ?_ ‹_ = some (_, _)›)
    | (refine keepsRd_getOk ?_ ‹_ = Read.ok _ _›) | (refine keepsRd_getFailed ?_ ‹_ = Read.failed _ _›)
    | (refine keepsRd_getBad ?_ ‹_ = Read.bad _ _›))

theorem keeps_pieceRead {s0 : State} {w : State × WinAt} {o n : Nat} (hw : KeepsL s0 w) :
    KeepsL s0 (pieceRead w o n) := by
  unfold pieceRead
  try dsimp only
  with_reducible repeat' (first
    | assumption | apply keeps_readLoc | apply keeps_barError | apply keeps_noteWin | apply keeps_ite | apply keepsL_ite
    | apply keepsL_fst | simp only [keeps_upd, keepsL_mk] | split)

theorem keeps_pieceWrite {s0 : State} {w : State × WinAt} {o : Nat} {bs : List Byte} (hw : KeepsL s0 w) :
    Keeps s0 (pieceWrite w o bs) := by
  unfold pieceWrite
  try dsimp only
  with_reducible repeat' (first
    | assumption | apply keeps_writeLoc | apply keeps_barError | apply keeps_noteWin | apply keeps_ite | apply keepsL_ite
    | apply keepsL_fst | simp only [keeps_upd] | split)

theorem keeps_windowRead {s0 : State} {l : List (Nat × Nat)} : ∀ {acc : List Byte} {ue : Bool} {s : State}, Keeps s0 s → KeepsL
    s0 (windowRead l acc ue s) := by
  induction l with
  | nil => intros; assumption
  | cons x l ih =>
    intros
    unfold windowRead
    try dsimp only
    with_reducible repeat' (first
    | intro _ | assumption | apply keeps_windowAt | apply keeps_pieceRead | apply ih | apply keeps_ite | apply keepsL_ite
    | apply keepsL_fst | simp only [keepsL_mk] | split)

theorem keeps_bar2Read {s0 : State} {s : State} {o n : Nat} (hkeep : Keeps s0 s) :
    Keeps s0 (bar2Read s o n) := by
  unfold bar2Read
  try dsimp only
  with_reducible repeat' (first
    | assumption | apply keeps_drawBytes | apply keeps_reply | apply keeps_barError | apply keeps_windowRead
    | apply keeps_ite | apply keepsL_ite | apply keepsL_fst | simp only [keeps_upd] | split)

theorem keeps_unsupported {s0 : State} {s : State} (hkeep : Keeps s0 s) :
    Keeps s0 (unsupported s) := by
  unfold unsupported
  try dsimp only
  with_reducible repeat' (first
    | assumption | apply keeps_reply | simp only [keeps_upd])

theorem keeps_execBar2Read {s0 : State} {o : BitVec 28} {n : Nat} {s : State} (hkeep : Keeps s0 s) :
    KeepsO s0 (execBar2Read o n s) := by
  unfold execBar2Read
  try dsimp only
  with_reducible repeat' (first
    | assumption | apply keeps_bar2Read | apply keeps_unsupported | apply keeps_ite | apply keepsO_next)

theorem keeps_windowWrite {s0 : State} {base : Nat} {bs : List Byte} {l : List (Nat × Nat)} : ∀  {s : State}, Keeps s0 s →
    KeepsL s0 (windowWrite base bs l s) := by
  induction l with
  | nil => intros; assumption
  | cons x l ih =>
    intros
    unfold windowWrite
    try dsimp only
    with_reducible repeat' (first
    | intro _ | assumption | apply keeps_windowAt | apply keeps_pieceWrite | apply ih | apply keeps_ite | apply keepsL_ite
    | apply keepsL_fst | simp only [keepsL_mk] | split)

theorem keeps_bar2Write {s0 : State} {s : State} {o : Nat} {bs : List Byte} (hkeep : Keeps s0 s) :
    Keeps s0 (bar2Write s o bs) := by
  unfold bar2Write
  try dsimp only
  with_reducible repeat' (first
    | assumption | apply keeps_barError | apply keeps_windowWrite | apply keeps_ite | apply keepsL_ite | apply keepsL_fst)

theorem keeps_poisonedTlp {s0 : State} {s : State} (hkeep : Keeps s0 s) :
    Keeps s0 (poisonedTlp s) := by
  unfold poisonedTlp
  try dsimp only
  with_reducible repeat' (first
    | assumption | simp only [keeps_upd])

theorem keeps_execBar2Write {s0 : State} {o : BitVec 28} {bs : List Byte} {ep : Bool} {s : State} (hkeep : Keeps s0 s) :
    KeepsO s0 (execBar2Write o bs ep s) := by
  unfold execBar2Write
  try dsimp only
  with_reducible repeat' (first
    | assumption | apply keeps_whenServed | apply keeps_bar2Write | apply keeps_poisonedTlp | apply keeps_ite
    | apply keepsO_next)

theorem keeps_unmasked {s0 : State} {s : State} {v : Nat} (hkeep : Keeps s0 s) :
    Keeps s0 (unmasked s v) := by
  unfold unmasked
  try dsimp only
  with_reducible repeat' (first
    | assumption | apply keeps_setBit | apply keeps_raiseVec | apply keeps_ite)

theorem keeps_writeMsix {s0 : State} {s : State} {v w : Nat} (hkeep : Keeps s0 s) :
    Keeps s0 (writeMsix s v w) := by
  unfold writeMsix
  try dsimp only
  with_reducible repeat' (first
    | assumption | apply keeps_setF | apply keeps_unmasked)

theorem keeps_execMsixUnmask {s0 : State} {v : BitVec 8} {s : State} (hkeep : Keeps s0 s) :
    KeepsO s0 (execMsixUnmask v s) := by
  unfold execMsixUnmask
  try dsimp only
  with_reducible repeat' (first
    | assumption | apply keeps_setF | apply keeps_unmasked | apply keeps_ite | apply keepsO_next)

theorem keeps_fwResult {s0 : State} {s : State} {r : Nat} (hkeep : Keeps s0 s) :
    Keeps s0 (fwResult s r) := by
  unfold fwResult
  try dsimp only
  with_reducible repeat' (first
    | assumption | apply keeps_setF)

theorem keeps_setImage {s0 : State} {s : State} {i : Nat} {x : FwImage} (hkeep : Keeps s0 s) :
    Keeps s0 (setImage s i x) := by
  unfold setImage
  try dsimp only
  with_reducible repeat' (first
    | intro _ | assumption | apply keeps_modLodge | simp only [keeps_upd])

theorem keeps_fwWrite {s0 : State} {s : State} {v hostSt : Nat} (hkeep : Keeps s0 s) :
    Keeps s0 (fwWrite s v hostSt) := by
  unfold fwWrite
  try dsimp only
  with_reducible repeat' (first
    | intro _ | assumption | apply keeps_setF | apply keeps_sendUp | apply keeps_modLodge | apply keeps_fwResult
    | apply keeps_setImage | apply keeps_ite | simp only [keeps_upd])

theorem keeps_execFirmwareWrite {s0 : State} {v : BitVec 64} {hostSt : Fin 4} {s : State} (hkeep : Keeps s0 s) :
    KeepsO s0 (execFirmwareWrite v hostSt s) := by
  unfold execFirmwareWrite
  try dsimp only
  with_reducible repeat' (first
    | assumption | apply keeps_fwWrite | apply keeps_ite | apply keepsO_next)

theorem keeps_execFirmwareWriteDone {s0 : State} {same : Bool} {s : State} (hkeep : Keeps s0 s) :
    KeepsO s0 (execFirmwareWriteDone same s) := by
  unfold execFirmwareWriteDone
  try dsimp only
  with_reducible repeat' (first
    | intro _ | assumption | apply keeps_setF | apply keeps_whenUp | apply keeps_modLodge | apply keeps_fwResult
    | apply keeps_setImage | apply keeps_ite | apply keepsO_next | simp only [keeps_upd] | split)

theorem keeps_fwActivate {s0 : State} {s : State} (hkeep : Keeps s0 s) :
    Keeps s0 (fwActivate s) := by
  unfold fwActivate
  try dsimp only
  with_reducible repeat' (first
    | intro _ | assumption | apply keeps_modLodge | apply keeps_fwResult | apply keeps_ite | simp only [keeps_upd])

theorem keeps_execFirmwareActivate {s0 : State} {s : State} (hkeep : Keeps s0 s) :
    KeepsO s0 (execFirmwareActivate s) := by
  unfold execFirmwareActivate
  try dsimp only
  with_reducible repeat' (first
    | assumption | apply keeps_fwActivate | apply keeps_ite | apply keepsO_next)

theorem keeps_writeFwcmd {s0 : State} {s : State} {v : Nat} (hkeep : Keeps s0 s) :
    Keeps s0 (writeFwcmd s v) := by
  unfold writeFwcmd
  try dsimp only
  with_reducible repeat' (first
    | assumption | apply keeps_fwWrite | apply keeps_fwActivate | simp only [keeps_upd] | split)

theorem keeps_plainWrite {s0 : State} {s : State} {r : RegRow} {off v : Nat} (hkeep : Keeps s0 s) :
    Keeps s0 (plainWrite s r off v) := by
  unfold plainWrite
  try dsimp only
  with_reducible repeat' (first
    | assumption | apply keeps_regPut)

theorem keeps_regEffect {s0 : State} {s : State} {r : RegRow} {off v : Nat} {low high : Bool} (hkeep : Keeps s0 s) :
    Keeps s0 (regEffect s r off v low high) := by
  unfold regEffect
  try dsimp only
  with_reducible repeat' (first
    | intro _ | assumption | apply keeps_modStr | apply keeps_wicketRelease | apply keeps_progress
    | apply keeps_deliverFault | apply keeps_writeCrlCfg | apply keeps_writeHostHead | apply keeps_hedgeCmd
    | apply keeps_writeLogRing | apply keeps_writeLnkctl | apply keeps_writeWkctl | apply keeps_writeWkrelw
    | apply keeps_writeRwctl | apply keeps_writePwgen | apply keeps_writeLanctl | apply keeps_writeMdval
    | apply keeps_writeInval | apply keeps_writeChctl | apply keeps_writeFltresp | apply keeps_settleFront
    | apply keeps_writeCtxkill | apply keeps_writeCplHead | apply keeps_writeQctl | apply keeps_writeCtxctl
    | apply keeps_writeModecfg | apply keeps_writeTelring | apply keeps_writeMsix | apply keeps_writeFwcmd
    | apply keeps_plainWrite | apply keeps_ite | apply keeps_forEach | simp only [keeps_upd])

theorem keeps_bar0Write {s0 : State} {s : State} {off size v : Nat} (hkeep : Keeps s0 s) :
    Keeps s0 (bar0Write s off size v) := by
  unfold bar0Write
  try dsimp only
  with_reducible repeat' (first
    | assumption | apply keeps_regEffect | apply keeps_ite | simp only [keeps_upd] | split)

theorem keeps_bar4Write {s0 : State} {s : State} {off size v : Nat} (hkeep : Keeps s0 s) :
    Keeps s0 (bar4Write s off size v) := by
  unfold bar4Write
  try dsimp only
  with_reducible repeat' (first
    | assumption | apply keeps_addRequests | apply keeps_doorbell | apply keeps_settleFront | apply keeps_writeCplHead
    | apply keeps_barError | apply keeps_ite)

theorem keeps_execRegisterWrite {s0 : State} {w : BarWrite} {s : State} (hkeep : Keeps s0 s) :
    KeepsO s0 (execRegisterWrite w s) := by
  unfold execRegisterWrite
  try dsimp only
  with_reducible repeat' (first
    | assumption | apply keeps_poisonedTlp | apply keeps_bar0Write | apply keeps_bar4Write | apply keeps_ite
    | apply keepsO_next)

theorem keeps_keepRegs {s0 s : State} {keep : Nat → Bool} (h : Keeps s0 s) : Keeps s0 (keepRegs s keep) :=
  keeps_of h rfl rfl id id id (amFilter_wf _ _ _) id id id

theorem keeps_resetHostRegs {s0 : State} {s : State} (hkeep : Keeps s0 s) :
    Keeps s0 (resetHostRegs s) := by
  unfold resetHostRegs
  try dsimp only
  with_reducible repeat' (first
    | intro _ | assumption | apply keeps_setF | apply keeps_keepRegs | simp only [keeps_upd])

theorem keeps_dropTask {s0 : State} {s : State} {i : Nat} (hkeep : Keeps s0 s) :
    Keeps s0 (dropTask s i) := by
  unfold dropTask
  try dsimp only
  with_reducible repeat' (first
    | assumption | apply keeps_setTask | apply keeps_ite | simp only [keeps_upd] | split)

theorem keeps_dropSlot {s0 : State} {s : State} {sl : Nat} (hkeep : Keeps s0 s) :
    Keeps s0 (dropSlot s sl) := by
  unfold dropSlot
  try dsimp only
  with_reducible repeat' (first
    | assumption | apply keeps_regPut)

theorem keeps_dropStream {s0 : State} {s : State} {k : Nat} (hkeep : Keeps s0 s) :
    Keeps s0 (dropStream s k) := by
  unfold dropStream
  try dsimp only
  with_reducible repeat' (first
    | intro _ | assumption | apply keeps_modStr | apply keeps_removePlan | simp only [keeps_upd])

theorem keeps_dropQueue {s0 : State} {s : State} {c q : Nat} (hkeep : Keeps s0 s) :
    Keeps s0 (dropQueue s c q) := by
  unfold dropQueue
  try dsimp only
  with_reducible repeat' (first
    | assumption | apply keeps_setF | apply keeps_setQ)

theorem keeps_dropChan {s0 : State} {s : State} {ch : Nat} (hkeep : Keeps s0 s) :
    Keeps s0 (dropChan s ch) := by
  unfold dropChan
  try dsimp only
  with_reducible repeat' (first
    | assumption | apply keeps_setF | apply keeps_setChan | apply keeps_ite | simp only [keeps_upd])

theorem keeps_dropCreel {s0 : State} {s : State} {c : Nat} (hkeep : Keeps s0 s) :
    Keeps s0 (dropCreel s c) := by
  unfold dropCreel
  try dsimp only
  with_reducible repeat' (first
    | intro _ | assumption | apply keeps_modCreel | apply keeps_closeCreel | simp only [keeps_upd] | split)

theorem keeps_dropWicket {s0 : State} {s : State} {w : Nat} (hkeep : Keeps s0 s) :
    Keeps s0 (dropWicket s w) := by
  unfold dropWicket
  try dsimp only
  with_reducible repeat' (first
    | assumption | apply keeps_closeWicket | apply keeps_ite)

theorem keeps_flr {s0 : State} {s : State} (hkeep : Keeps s0 s) :
    Keeps s0 (flr s) := by
  unfold flr
  try dsimp only
  with_reducible repeat' (first
    | intro _ | assumption | apply keeps_setF | apply keeps_modCore | apply keeps_killChan | apply keeps_killContext
    | apply keeps_resetHostRegs | apply keeps_dropTask | apply keeps_dropSlot | apply keeps_dropStream
    | apply keeps_dropQueue | apply keeps_dropChan | apply keeps_dropCreel | apply keeps_dropWicket | apply keeps_forEach
    | simp only [keeps_upd] | split)

theorem keeps_execFlr {s0 : State} {s : State} (hkeep : Keeps s0 s) :
    KeepsO s0 (execFlr s) := by
  unfold execFlr
  try dsimp only
  with_reducible repeat' (first
    | assumption | apply keeps_whenUp | apply keeps_flr | apply keepsO_next)

theorem keeps_linkDown {s0 : State} {s : State} (hkeep : Keeps s0 s) :
    Keeps s0 (linkDown s) := by
  unfold linkDown
  try dsimp only
  with_reducible repeat' (first
    | assumption | apply keeps_setF | simp only [keeps_upd])

theorem keeps_execHotReset {s0 : State} {s : State} (hkeep : Keeps s0 s) :
    KeepsO s0 (execHotReset s) := by
  unfold execHotReset
  try dsimp only
  with_reducible repeat' (first
    | assumption | apply keeps_whenUp | apply keeps_flr | apply keeps_linkDown | apply keepsO_next)

theorem keeps_execPerst {s0 : State} {s : State} (hkeep : Keeps s0 s) :
    KeepsO s0 (execPerst s) := by
  unfold execPerst
  try dsimp only
  with_reducible repeat' (first
    | assumption | apply keeps_whenUp | apply keeps_flr | apply keeps_linkDown | apply keepsO_next)

theorem keeps_execD3hotEntry {s0 : State} {s : State} (hkeep : Keeps s0 s) :
    KeepsO s0 (execD3hotEntry s) := by
  unfold execD3hotEntry
  try dsimp only
  with_reducible repeat' (first
    | assumption | apply keeps_whenUp | apply keepsO_next | simp only [keeps_upd])

theorem keeps_execD0Return {s0 : State} {s : State} (hkeep : Keeps s0 s) :
    KeepsO s0 (execD0Return s) := by
  unfold execD0Return
  try dsimp only
  with_reducible repeat' (first
    | assumption | apply keeps_whenUp | apply keepsO_next | simp only [keeps_upd])

theorem keeps_execCablePresenceChange {s0 : State} {j3 j4 : Bool} {s : State} (hkeep : Keeps s0 s) :
    KeepsO s0 (execCablePresenceChange j3 j4 s) := by
  unfold execCablePresenceChange
  try dsimp only
  with_reducible repeat' (first
    | assumption | apply keepsO_next | simp only [keeps_upd])

theorem keeps_trainPcie {s0 : State} {s : State} {u : LinkUp} (hkeep : Keeps s0 s) :
    Keeps s0 (trainPcie s u) := by
  unfold trainPcie
  try dsimp only
  with_reducible repeat' (first
    | intro _ | assumption | apply keeps_setF | apply keeps_bump | apply keeps_unmasked | apply keeps_linkDown
    | apply keeps_ite | apply keeps_forEach | simp only [keeps_upd])

theorem keeps_execPcieLinkTraining {s0 : State} {u : LinkUp} {s : State} (hkeep : Keeps s0 s) :
    KeepsO s0 (execPcieLinkTraining u s) := by
  unfold execPcieLinkTraining
  try dsimp only
  with_reducible repeat' (first
    | assumption | apply keeps_whenUp | apply keeps_trainPcie | apply keepsO_next)

theorem keeps_afterReset {s0 s : State} (h : Keeps s0 s) : Keeps s0 (afterReset s) :=
  keeps_of h rfl rfl (fun _ => rfl) (fun _ => rfl) id (fun _ => rfl) (fun _ => rfl) (fun _ => rfl) (fun _ => rfl)

theorem keeps_loadIdentity {s0 : State} {s : State} (hkeep : Keeps s0 s) :
    Keeps s0 (loadIdentity s) := by
  unfold loadIdentity
  try dsimp only
  with_reducible repeat' (first
    | assumption | apply keeps_setF | apply keeps_ite)

theorem keeps_loadRepairs {s0 : State} {old s : State} (hold : Keeps s0 old) (hkeep : Keeps s0 s) :
    Keeps s0 (loadRepairs old s) := by
  unfold loadRepairs
  try dsimp only
  with_reducible repeat' (first
    | intro _ | assumption | apply keeps_regPut | apply keeps_setF | apply keeps_bump | apply keeps_showSpared
    | apply keeps_ite | apply keeps_forEach)

theorem keeps_loadHedges {s0 : State} {s : State} (hkeep : Keeps s0 s) :
    Keeps s0 (loadHedges s) := by
  unfold loadHedges
  try dsimp only
  with_reducible repeat' (first
    | intro _ | assumption | apply keeps_setF | apply keeps_showHedge | apply keeps_ite | apply keeps_forEach)

theorem keeps_bootBays {s0 : State} {old s : State} (hold : Keeps s0 old) (hkeep : Keeps s0 s) :
    Keeps s0 (bootBays old s) := by
  unfold bootBays
  try dsimp only
  with_reducible repeat' (first
    | intro _ | assumption | apply keeps_setF | apply keeps_readLantern | apply keeps_forEach)

theorem keeps_moduleReset {s0 : State} {s : State} (hkeep : Keeps s0 s) :
    Keeps s0 (moduleReset s) := by
  unfold moduleReset
  try dsimp only
  with_reducible repeat' (first
    | intro _ | assumption | apply keeps_setF | apply keeps_progress | apply keeps_markReady | apply keeps_setRail
    | apply keeps_afterReset | apply keeps_loadIdentity | apply keeps_loadRepairs | apply keeps_loadHedges
    | apply keeps_bootBays | apply keeps_ite | apply keeps_forEach | simp only [keeps_upd] | split)

theorem keeps_execModuleReset {s0 : State} {s : State} (hkeep : Keeps s0 s) :
    KeepsO s0 (execModuleReset s) := by
  unfold execModuleReset
  try dsimp only
  with_reducible repeat' (first
    | assumption | apply keeps_moduleReset | apply keepsO_next | simp only [keeps_upd])

theorem keeps_execPavilionReady {s0 : State} {n : Fin 8} {s : State} (hkeep : Keeps s0 s) :
    KeepsO s0 (execPavilionReady n s) := by
  unfold execPavilionReady
  try dsimp only
  with_reducible repeat' (first
    | intro _ | assumption | apply keeps_whenOn | apply keeps_markReady | apply keeps_ite | apply keepsO_next)

theorem keeps_unpowered {s0 s : State} {l : Bool} (h : Keeps s0 s) : Keeps s0 (unpowered s l) :=
  keeps_of h rfl rfl (fun _ => rfl) (fun _ => rfl) id (amFilter_wf _ _ _) (fun _ => rfl) (fun _ => rfl) (fun _ => rfl)

theorem keeps_powerOff {s0 : State} {s : State} {lodge : Bool} (hkeep : Keeps s0 s) :
    Keeps s0 (powerOff s lodge) := by
  unfold powerOff
  try dsimp only
  with_reducible repeat' (first
    | intro _ | assumption | apply keeps_lasersOff | apply keeps_unpowered | apply keeps_forEach)

theorem keeps_execUndervoltage48v {s0 : State} {s : State} (hkeep : Keeps s0 s) :
    KeepsO s0 (execUndervoltage48v s) := by
  unfold execUndervoltage48v
  try dsimp only
  with_reducible repeat' (first
    | assumption | apply keeps_whenUp | apply keeps_powerOff | apply keepsO_next)

theorem keeps_execUndervoltage12v {s0 : State} {s : State} (hkeep : Keeps s0 s) :
    KeepsO s0 (execUndervoltage12v s) := by
  unfold execUndervoltage12v
  try dsimp only
  with_reducible repeat' (first
    | assumption | apply keeps_powerOff | apply keeps_ite | apply keepsO_next | simp only [keeps_upd])

theorem keeps_execThermalTrip {s0 : State} {s : State} (hkeep : Keeps s0 s) :
    KeepsO s0 (execThermalTrip s) := by
  unfold execThermalTrip
  try dsimp only
  with_reducible repeat' (first
    | assumption | apply keeps_whenUp | apply keeps_powerOff | apply keepsO_next)

theorem keeps_execResetPin {s0 : State} {low : Bool} {us : Nat} {s : State} (hkeep : Keeps s0 s) :
    KeepsO s0 (execResetPin low us s) := by
  unfold execResetPin
  try dsimp only
  with_reducible repeat' (first
    | assumption | apply keeps_moduleReset | apply keeps_powerOff | apply keeps_ite | apply keepsO_next
    | simp only [keeps_upd])

theorem keeps_smbus {s0 : State} {s : State} {v : Nat} (hkeep : Keeps s0 s) :
    Keeps s0 (smbus s v) := by
  unfold smbus
  try dsimp only
  with_reducible repeat' (first
    | assumption | apply keeps_reply | simp only [keeps_upd])

theorem keeps_smbusRead {s0 : State} {s : State} {v : Nat} (hkeep : Keeps s0 s) :
    KeepsO s0 (smbusRead s v) := by
  unfold smbusRead
  try dsimp only
  with_reducible repeat' (first
    | assumption | apply keeps_smbus | apply keeps_ite | apply keepsO_next)

theorem keeps_execSmbusReadReady {s0 : State} {s : State} (hkeep : Keeps s0 s) :
    KeepsO s0 (execSmbusReadReady s) := by
  unfold execSmbusReadReady
  try dsimp only
  with_reducible repeat' (first
    | assumption | apply keeps_smbusRead | apply keepsO_next)

theorem keeps_execSmbusReadLodgestat {s0 : State} {s : State} (hkeep : Keeps s0 s) :
    KeepsO s0 (execSmbusReadLodgestat s) := by
  unfold execSmbusReadLodgestat
  try dsimp only
  with_reducible repeat' (first
    | assumption | apply keeps_smbusRead | apply keepsO_next)

theorem keeps_execSmbusReadPwr {s0 : State} {s : State} (hkeep : Keeps s0 s) :
    KeepsO s0 (execSmbusReadPwr s) := by
  unfold execSmbusReadPwr
  try dsimp only
  with_reducible repeat' (first
    | assumption | apply keeps_smbusRead | apply keepsO_next)

theorem keeps_execSmbusReadCoolctl {s0 : State} {s : State} (hkeep : Keeps s0 s) :
    KeepsO s0 (execSmbusReadCoolctl s) := by
  unfold execSmbusReadCoolctl
  try dsimp only
  with_reducible repeat' (first
    | assumption | apply keeps_smbusRead | apply keepsO_next)

theorem keeps_execSmbusReadTjmax {s0 : State} {s : State} (hkeep : Keeps s0 s) :
    KeepsO s0 (execSmbusReadTjmax s) := by
  unfold execSmbusReadTjmax
  try dsimp only
  with_reducible repeat' (first
    | assumption | apply keeps_smbusRead | apply keepsO_next)

theorem keeps_execSmbusReadErrstat {s0 : State} {s : State} (hkeep : Keeps s0 s) :
    KeepsO s0 (execSmbusReadErrstat s) := by
  unfold execSmbusReadErrstat
  try dsimp only
  with_reducible repeat' (first
    | assumption | apply keeps_smbusRead | apply keepsO_next)

theorem keeps_execSmbusReadSerial {s0 : State} {s : State} (hkeep : Keeps s0 s) :
    KeepsO s0 (execSmbusReadSerial s) := by
  unfold execSmbusReadSerial
  try dsimp only
  with_reducible repeat' (first
    | assumption | apply keeps_smbusRead | apply keepsO_next)

theorem keeps_tdo {s0 : State} {s : State} {l : List Bool} (hkeep : Keeps s0 s) :
    Keeps s0 (tdo s l) := by
  unfold tdo
  try dsimp only
  with_reducible repeat' (first
    | assumption | simp only [keeps_upd])

theorem keeps_jtag {s0 : State} {s t : State} (hs : Keeps s0 s) (hkeep : Keeps s0 t) :
    KeepsO s0 (jtag s t) := by
  unfold jtag
  try dsimp only
  with_reducible repeat' (first
    | assumption | apply keeps_ite | apply keepsO_next)

theorem keeps_execJtagIdcode {s0 : State} {s : State} (hkeep : Keeps s0 s) :
    KeepsO s0 (execJtagIdcode s) := by
  unfold execJtagIdcode
  try dsimp only
  with_reducible repeat' (first
    | assumption | apply keeps_tdo | apply keeps_jtag | apply keepsO_next)

theorem keeps_bypass {s0 : State} {s : State} {l : List Bool} (hkeep : Keeps s0 s) :
    Keeps s0 (bypass s l) := by
  unfold bypass
  try dsimp only
  with_reducible repeat' (first
    | assumption | apply keeps_tdo)

theorem keeps_execJtagBypass {s0 : State} {l : List Bool} {s : State} (hkeep : Keeps s0 s) :
    KeepsO s0 (execJtagBypass l s) := by
  unfold execJtagBypass
  try dsimp only
  with_reducible repeat' (first
    | assumption | apply keeps_jtag | apply keeps_bypass | apply keepsO_next)

theorem keeps_execJtagBoundaryScan {s0 : State} {l : List Bool} {s : State} (hkeep : Keeps s0 s) :
    KeepsO s0 (execJtagBoundaryScan l s) := by
  unfold execJtagBoundaryScan
  try dsimp only
  with_reducible repeat' (first
    | intro _ | assumption | apply keeps_drawBytes | apply keeps_tdo | apply keeps_jtag | apply keeps_bypass
    | apply keeps_ite | apply keepsL_ite | apply keepsO_next | apply keepsL_fst)

end Sys2Proof.Machine
end

