-- ==== Sys2Proof/Laws/Step.lean ====
section
/-! SUPPORT. What a command and a step can do, derived from the lemmas of Laws/Keeps: for `exec` and for an idle tick. -/

namespace Sys2Proof.Machine

open Sys2Proof

/-- No command touches the queue or the part, and every command keeps the canonical form. -/
theorem exec_keeps (c : Instr) (s : State) : KeepsO s (exec c s) := by
  cases c with
  | wloadR _ _ _ _ => exact keeps_execWloadR (keeps_refl s)
  | wloadS _ _ _ _ _ => exact keeps_execWloadS (keeps_refl s)
  | mpass _ _ _ => exact keeps_execMpass (keeps_refl s)
  | mpasst _ _ _ => exact keeps_execMpasst (keeps_refl s)
  | mdist _ _ _ => exact keeps_execMdist (keeps_refl s)
  | msqd _ _ _ => exact keeps_execMsqd (keeps_refl s)
  | mcmpx _ _ _ => exact keeps_execMcmpx (keeps_refl s)
  | mcmpn _ _ _ => exact keeps_execMcmpn (keeps_refl s)
  | tload _ _ _ => exact keeps_execTload (keeps_refl s)
  | tstore _ _ _ _ => exact keeps_execTstore (keeps_refl s)
  | sload _ _ _ => exact keeps_execSload (keeps_refl s)
  | sstore _ _ _ => exact keeps_execSstore (keeps_refl s)
  | slath _ _ _ => exact keeps_execSlath (keeps_refl s)
  | sset _ _ _ _ => exact keeps_execSset (keeps_refl s)
  | sadd _ _ _ _ _ => exact keeps_execSadd (keeps_refl s)
  | aset _ _ _ _ => exact keeps_execAset (keeps_refl s)
  | aadd _ _ _ _ _ => exact keeps_execAadd (keeps_refl s)
  | loop _ _ _ _ => exact keeps_execLoop (keeps_refl s)
  | endloop _ _ => exact keeps_execEndloop (keeps_refl s)
  | eprog _ _ _ => exact keeps_execEprog (keeps_refl s)
  | eshufX _ _ _ _ _ => exact keeps_execEshufX (keeps_refl s)
  | eshufB _ _ _ _ _ => exact keeps_execEshufB (keeps_refl s)
  | esum _ _ _ _ _ => exact keeps_execEsum (keeps_refl s)
  | emax _ _ _ _ _ _ => exact keeps_execEmax (keeps_refl s)
  | ebcast _ _ _ _ _ _ _ _ => exact keeps_execEbcast (keeps_refl s)
  | equant _ _ _ => exact keeps_execEquant (keeps_refl s)
  | fwait _ _ _ => exact keeps_execFwait (keeps_refl s)
  | ftake _ _ _ => exact keeps_execFtake (keeps_refl s)
  | ffill _ _ _ => exact keeps_execFfill (keeps_refl s)
  | fempty _ _ _ => exact keeps_execFempty (keeps_refl s)
  | fcountPlus _ _ _ _ _ => exact keeps_execFcountPlus (keeps_refl s)
  | fcountMinus _ _ _ _ _ _ _ => exact keeps_execFcountMinus (keeps_refl s)
  | csend _ _ _ => exact keeps_execCsend (keeps_refl s)
  | csendTry _ _ _ _ => exact keeps_execCsendTry (keeps_refl s)
  | hret _ _ => exact keeps_execHret (keeps_refl s)
  | tcfg _ _ _ _ => exact keeps_execTcfg (keeps_refl s)
  | trel _ _ _ => exact keeps_execTrel (keeps_refl s)
  | fenceL _ _ => exact keeps_execFenceL (keeps_refl s)
  | fenceX _ _ => exact keeps_execFenceX (keeps_refl s)
  | commit _ _ => exact keeps_execCommit (keeps_refl s)
  | commitBufferRelease _ => exact keeps_execCommitBufferRelease (keeps_refl s)
  | yield _ _ => exact keeps_execYield (keeps_refl s)
  | programEnd _ => exact keeps_execProgramEnd (keeps_refl s)
  | holdRelease _ => exact keeps_execHoldRelease (keeps_refl s)
  | operationCompletion _ _ _ => exact keeps_execOperationCompletion (keeps_refl s)
  | trellisToken _ => exact keeps_execTrellisToken (keeps_refl s)
  | trellisTimeout _ => exact keeps_execTrellisTimeout (keeps_refl s)
  | handlerDispatch _ => exact keeps_execHandlerDispatch (keeps_refl s)
  | handlerTimeLimit _ => exact keeps_execHandlerTimeLimit (keeps_refl s)
  | waitTimeout _ => exact keeps_execWaitTimeout (keeps_refl s)
  | settleIntervalExpiry _ => exact keeps_execSettleIntervalExpiry (keeps_refl s)
  | doorbell _ _ _ => exact keeps_execDoorbell (keeps_refl s)
  | commandFetch _ _ _ => exact keeps_execCommandFetch (keeps_refl s)
  | completionConsumerCount _ _ _ => exact keeps_execCompletionConsumerCount (keeps_refl s)
  | nop _ _ => exact keeps_execNop (keeps_refl s)
  | task _ _ _ => exact keeps_execTask (keeps_refl s)
  | graph _ _ _ => exact keeps_execGraph (keeps_refl s)
  | openSeq _ _ => exact keeps_execOpenSeq (keeps_refl s)
  | setSeq _ _ => exact keeps_execSetSeq (keeps_refl s)
  | closeSeq _ _ => exact keeps_execCloseSeq (keeps_refl s)
  | loadBin _ _ _ => exact keeps_execLoadBin (keeps_refl s)
  | unloadBin _ _ => exact keeps_execUnloadBin (keeps_refl s)
  | kill _ _ => exact keeps_execKill (keeps_refl s)
  | dmaStart _ _ => exact keeps_execDmaStart (keeps_refl s)
  | readinessPoll => exact keeps_execReadinessPoll (keeps_refl s)
  | taskDispatch _ => exact keeps_execTaskDispatch (keeps_refl s)
  | preemptionSave _ => exact keeps_execPreemptionSave (keeps_refl s)
  | preemptionComplete _ => exact keeps_execPreemptionComplete (keeps_refl s)
  | taskResume => exact keeps_execTaskResume (keeps_refl s)
  | taskRetry _ => exact keeps_execTaskRetry (keeps_refl s)
  | deadlineSlackEvaluation => exact keeps_execDeadlineSlackEvaluation (keeps_refl s)
  | agingEvaluation => exact keeps_execAgingEvaluation (keeps_refl s)
  | completionRecordWrite _ _ => exact keeps_execCompletionRecordWrite (keeps_refl s)
  | taskIdQuarantineExpiry _ => exact keeps_execTaskIdQuarantineExpiry (keeps_refl s)
  | creelDelivery _ => exact keeps_execCreelDelivery (keeps_refl s)
  | creditGrant _ => exact keeps_execCreditGrant (keeps_refl s)
  | creelEnable _ _ => exact keeps_execCreelEnable (keeps_refl s)
  | creelDisable _ _ => exact keeps_execCreelDisable (keeps_refl s)
  | creelQuarantineEnd _ => exact keeps_execCreelQuarantineEnd (keeps_refl s)
  | hostCreelHeadWrite _ _ => exact keeps_execHostCreelHeadWrite (keeps_refl s)
  | belvedereSample => exact keeps_execBelvedereSample (keeps_refl s)
  | dynamicSubBankGrant _ _ _ => exact keeps_execDynamicSubBankGrant (keeps_refl s)
  | packetHop _ _ => exact keeps_execPacketHop (keeps_refl s)
  | scrubRead _ _ => exact keeps_execScrubRead (keeps_refl s)
  | correctedWriteback _ => exact keeps_execCorrectedWriteback (keeps_refl s)
  | mdvalWrite _ => exact keeps_execMdvalWrite (keeps_refl s)
  | sliceReady _ => exact keeps_execSliceReady (keeps_refl s)
  | slathRequestCheck _ _ => exact keeps_execSlathRequestCheck (keeps_refl s)
  | workUnitStart _ => exact keeps_execWorkUnitStart (keeps_refl s)
  | workUnitDone _ _ => exact keeps_execWorkUnitDone (keeps_refl s)
  | pageWalk _ _ _ _ => exact keeps_execPageWalk (keeps_refl s)
  | inval _ => exact keeps_execInval (keeps_refl s)
  | invalidationComplete => exact keeps_execInvalidationComplete (keeps_refl s)
  | dramRefresh _ _ _ => exact keeps_execDramRefresh (keeps_refl s)
  | dramTemperatureSample _ _ => exact keeps_execDramTemperatureSample (keeps_refl s)
  | dramScrubRead _ _ => exact keeps_execDramScrubRead (keeps_refl s)
  | dramCorrectedWriteback _ => exact keeps_execDramCorrectedWriteback (keeps_refl s)
  | rowSparing _ _ _ _ => exact keeps_execRowSparing (keeps_refl s)
  | dieLinkReplay _ => exact keeps_execDieLinkReplay (keeps_refl s)
  | dieLinkLaneSpare _ _ _ => exact keeps_execDieLinkLaneSpare (keeps_refl s)
  | stackReady _ => exact keeps_execStackReady (keeps_refl s)
  | descriptorFetch _ _ => exact keeps_execDescriptorFetch (keeps_refl s)
  | dmaRun _ _ => exact keeps_execDmaRun (keeps_refl s)
  | descriptorEnd _ => exact keeps_execDescriptorEnd (keeps_refl s)
  | requestLineWrite _ _ => exact keeps_execRequestLineWrite (keeps_refl s)
  | devicePageFault => exact keeps_execDevicePageFault (keeps_refl s)
  | fltresp _ => exact keeps_execFltresp (keeps_refl s)
  | channelKill _ _ => exact keeps_execChannelKill (keeps_refl s)
  | channelStop _ _ => exact keeps_execChannelStop (keeps_refl s)
  | channelQuiet _ => exact keeps_execChannelQuiet (keeps_refl s)
  | atsInvalidationRequest _ _ _ => exact keeps_execAtsInvalidationRequest (keeps_refl s)
  | prgResponse _ _ => exact keeps_execPrgResponse (keeps_refl s)
  | completionTimeout _ => exact keeps_execCompletionTimeout (keeps_refl s)
  | wicketOpen _ _ => exact keeps_execWicketOpen (keeps_refl s)
  | wicketClose _ _ => exact keeps_execWicketClose (keeps_refl s)
  | wicketQuarantineEnd _ => exact keeps_execWicketQuarantineEnd (keeps_refl s)
  | wkret _ _ => exact keeps_execWkret (keeps_refl s)
  | flitReceive _ _ => exact keeps_execFlitReceive (keeps_refl s)
  | nak _ => exact keeps_execNak (keeps_refl s)
  | nakRepeatTimer _ => exact keeps_execNakRepeatTimer (keeps_refl s)
  | replayTimeout _ => exact keeps_execReplayTimeout (keeps_refl s)
  | ackFlitTimer _ => exact keeps_execAckFlitTimer (keeps_refl s)
  | wr _ => exact keeps_execWr (keeps_refl s)
  | rdreq _ => exact keeps_execRdreq (keeps_refl s)
  | rddata _ => exact keeps_execRddata (keeps_refl s)
  | wrack _ => exact keeps_execWrack (keeps_refl s)
  | fereq _ => exact keeps_execFereq (keeps_refl s)
  | fereply _ => exact keeps_execFereply (keeps_refl s)
  | cmsg _ => exact keeps_execCmsg (keeps_refl s)
  | cmsgack _ => exact keeps_execCmsgack (keeps_refl s)
  | grantreq _ => exact keeps_execGrantreq (keeps_refl s)
  | grant _ => exact keeps_execGrant (keeps_refl s)
  | laneoff _ _ _ => exact keeps_execLaneoff (keeps_refl s)
  | laneon _ _ _ => exact keeps_execLaneon (keeps_refl s)
  | lanemove _ _ _ => exact keeps_execLanemove (keeps_refl s)
  | drain _ => exact keeps_execDrain (keeps_refl s)
  | undrain _ => exact keeps_execUndrain (keeps_refl s)
  | ident _ _ _ _ _ => exact keeps_execIdent (keeps_refl s)
  | laserWarmupDone _ _ _ => exact keeps_execLaserWarmupDone (keeps_refl s)
  | ringlock _ _ => exact keeps_execRinglock (keeps_refl s)
  | lanetrain _ _ _ => exact keeps_execLanetrain (keeps_refl s)
  | align _ _ _ => exact keeps_execAlign (keeps_refl s)
  | quickRetrain _ => exact keeps_execQuickRetrain (keeps_refl s)
  | fullRetrain _ => exact keeps_execFullRetrain (keeps_refl s)
  | retrain _ => exact keeps_execRetrain (keeps_refl s)
  | lnkctlDrainSet _ => exact keeps_execLnkctlDrainSet (keeps_refl s)
  | lnkctlDrainClear _ => exact keeps_execLnkctlDrainClear (keeps_refl s)
  | holdLimitExpiry _ => exact keeps_execHoldLimitExpiry (keeps_refl s)
  | ringLockLoop _ _ _ _ _ => exact keeps_execRingLockLoop (keeps_refl s)
  | laneTestDone _ _ _ _ => exact keeps_execLaneTestDone (keeps_refl s)
  | laneErrorMeasurement _ _ => exact keeps_execLaneErrorMeasurement (keeps_refl s)
  | portRetryTimer _ => exact keeps_execPortRetryTimer (keeps_refl s)
  | lanternInsertion _ _ _ => exact keeps_execLanternInsertion (keeps_refl s)
  | lanternRemoval _ => exact keeps_execLanternRemoval (keeps_refl s)
  | interlockOpen _ => exact keeps_execInterlockOpen (keeps_refl s)
  | laserPowerLoop _ _ _ _ => exact keeps_execLaserPowerLoop (keeps_refl s)
  | laserWearCheck _ => exact keeps_execLaserWearCheck (keeps_refl s)
  | spareSettled _ => exact keeps_execSpareSettled (keeps_refl s)
  | laneMove _ => exact keeps_execLaneMove (keeps_refl s)
  | usageRecordWrite _ => exact keeps_execUsageRecordWrite (keeps_refl s)
  | forceoffSet _ => exact keeps_execForceoffSet (keeps_refl s)
  | forceoffClear _ => exact keeps_execForceoffClear (keeps_refl s)
  | bayOvercurrent _ => exact keeps_execBayOvercurrent (keeps_refl s)
  | hedge _ _ _ => exact keeps_execHedge (keeps_refl s)
  | probe _ _ => exact keeps_execProbe (keeps_refl s)
  | probeDone _ _ _ _ _ => exact keeps_execProbeDone (keeps_refl s)
  | hedgeAndProbe _ _ => exact keeps_execHedgeAndProbe (keeps_refl s)
  | hedgeAndHold _ _ => exact keeps_execHedgeAndHold (keeps_refl s)
  | probeHedged _ _ => exact keeps_execProbeHedged (keeps_refl s)
  | errorLogEntryWrite => exact keeps_execErrorLogEntryWrite (keeps_refl s)
  | logringEnable _ => exact keeps_execLogringEnable (keeps_refl s)
  | monitorWindow _ => exact keeps_execMonitorWindow (keeps_refl s)
  | governor _ _ _ => exact keeps_execGovernor (keeps_refl s)
  | changeEpoch => exact keeps_execChangeEpoch (keeps_refl s)
  | changeResume => exact keeps_execChangeResume (keeps_refl s)
  | lockTimeout _ => exact keeps_execLockTimeout (keeps_refl s)
  | coolUpdate => exact keeps_execCoolUpdate (keeps_refl s)
  | telemetryFrame _ _ => exact keeps_execTelemetryFrame (keeps_refl s)
  | telringEnable _ => exact keeps_execTelringEnable (keeps_refl s)
  | modecfgWrite _ => exact keeps_execModecfgWrite (keeps_refl s)
  | queueEnable _ _ _ => exact keeps_execQueueEnable (keeps_refl s)
  | queueDisable _ _ _ => exact keeps_execQueueDisable (keeps_refl s)
  | queueStop _ _ => exact keeps_execQueueStop (keeps_refl s)
  | queueResume _ _ => exact keeps_execQueueResume (keeps_refl s)
  | ctxkill _ _ => exact keeps_execCtxkill (keeps_refl s)
  | contextEnable _ _ => exact keeps_execContextEnable (keeps_refl s)
  | bar2Read _ _ => exact keeps_execBar2Read (keeps_refl s)
  | bar2Write _ _ _ => exact keeps_execBar2Write (keeps_refl s)
  | registerWrite _ => exact keeps_execRegisterWrite (keeps_refl s)
  | msixUnmask _ => exact keeps_execMsixUnmask (keeps_refl s)
  | firmwareWrite _ _ => exact keeps_execFirmwareWrite (keeps_refl s)
  | firmwareWriteDone _ => exact keeps_execFirmwareWriteDone (keeps_refl s)
  | firmwareActivate => exact keeps_execFirmwareActivate (keeps_refl s)
  | flr => exact keeps_execFlr (keeps_refl s)
  | hotReset => exact keeps_execHotReset (keeps_refl s)
  | perst => exact keeps_execPerst (keeps_refl s)
  | d3hotEntry => exact keeps_execD3hotEntry (keeps_refl s)
  | cablePresenceChange _ _ => exact keeps_execCablePresenceChange (keeps_refl s)
  | resetPin _ _ => exact keeps_execResetPin (keeps_refl s)
  | moduleReset => exact keeps_execModuleReset (keeps_refl s)
  | pavilionReady _ => exact keeps_execPavilionReady (keeps_refl s)
  | undervoltage48v => exact keeps_execUndervoltage48v (keeps_refl s)
  | undervoltage12v => exact keeps_execUndervoltage12v (keeps_refl s)
  | thermalTrip => exact keeps_execThermalTrip (keeps_refl s)
  | smbusReadReady => exact keeps_execSmbusReadReady (keeps_refl s)
  | smbusReadLodgestat => exact keeps_execSmbusReadLodgestat (keeps_refl s)
  | smbusReadPwr => exact keeps_execSmbusReadPwr (keeps_refl s)
  | smbusReadCoolctl => exact keeps_execSmbusReadCoolctl (keeps_refl s)
  | smbusReadTjmax => exact keeps_execSmbusReadTjmax (keeps_refl s)
  | smbusReadErrstat => exact keeps_execSmbusReadErrstat (keeps_refl s)
  | smbusReadSerial => exact keeps_execSmbusReadSerial (keeps_refl s)
  | jtagIdcode => exact keeps_execJtagIdcode (keeps_refl s)
  | jtagBypass _ => exact keeps_execJtagBypass (keeps_refl s)
  | jtagBoundaryScan _ => exact keeps_execJtagBoundaryScan (keeps_refl s)
  | referenceClockLoss => exact keeps_execReferenceClockLoss (keeps_refl s)
  | pcieLinkTraining _ => exact keeps_execPcieLinkTraining (keeps_refl s)
  | d0Return => exact keeps_execD0Return (keeps_refl s)
  | dieLinkRetrainDone _ => exact keeps_execDieLinkRetrainDone (keeps_refl s)
  | interlockClose _ => exact keeps_execInterlockClose (keeps_refl s)

/-- A tick keeps the same. -/
theorem idle_keeps (s : State) : Keeps s (idle s) := keeps_idle (keeps_refl s)

end Sys2Proof.Machine
end

