-- ==== Sys2Proof/Tests/Slice0.lean ====
section
/-! SUPPORT. Tests of the model: small states, a witness for the hypotheses of every statement, ill-formed operands that the
checks refuse, and worked examples of the spec. -/

namespace Sys2Proof.Tests

set_option Elab.async false

open Sys2Proof Sys2Proof.Machine

/-- The module after its bring-up, with the host link up. -/
def onState : State :=
  { State.reset with pins := { State.reset.pins with conv := true, lodge := true }, pcie := { State.reset.pcie with l0 := true } }

/-- A stream that runs on a whole pavilion. -/
def runStr : Stream := { Stream.reset with st := .running, cores := rangeFrom 0 8, nextSlot := 1 }

/-- Stream 0 runs. -/
def runState : State := setStr onState 0 runStr

/-- Stream 0 runs inside one loop level. -/
def loopState : State := setStr onState 0 { runStr with loops := [(2, 5)] }

/-- Registers 0 to 7 of stream 0 are LIVE with 8-bit lanes. -/
def tileState : State :=
  setStr onState 0 { runStr with tile := (rangeFrom 0 8).map (fun r => (r, ⟨.live, .w8, false, [], 0⟩)) }

/-- A handler runs on core 9 inside one loop level. -/
def handlerState : State := setCore onState 9 { Core.reset with handler := some ⟨0, 0, 2, [(1, 1)], 0⟩ }

/-- Granules 0 to 7 of slices 0 to 7 belong to context 0. -/
def owned (s : State) : State := forEach (List.range 8) (fun s m => regPut s (rORG_OWN (48 * m)) 0x8080808080808080#64) s

def regsOf (l : List (Nat × Nat)) (st : Width) : List (Nat × RegMeta) :=
  l.flatMap (fun p => (rangeFrom p.1 p.2).map (fun r => (r, ⟨.live, st, false, [], 0⟩)))

/-- Stream 0 runs with weights placed in its slices. -/
def weightState : State := owned (setStr onState 0 { runStr with aregs := [(1, 0x10000#52)] })

/-- Stream 0 runs with 8-bit tiles in registers 0 to 7 and 32-bit tiles in registers 32 to 47. -/
def passState : State :=
  owned (setStr onState 0 { runStr with
    sregs := [(1, 4#32), (3, 8#32)], aregs := [(1, 0x1000#52)], tile := regsOf [(0, 8)] .w8 ++ regsOf [(32, 16)] .w32 })

/-- As `passState`, with a weight image pending on every core. -/
def swapState : State := forEach (List.range 8) (fun s m => setPend s m 1) passState

/-- As `passState`, for movements. -/
def moveState : State := passState

/-- A TSTORE row of stream 0 is due. -/
def storeState : State := setStr onState 0 { runStr with stores := [⟨3, 0, [(8, 1#8)]⟩] }

/-- As `passState`, with a program of two steps. -/
def progState : State :=
  modStr passState 0 (fun t => { t with programs := [[⟨.recip 4, .tileA, .reg, .reg, .stage 0⟩, ⟨.add, .stage 0, .imm 1, .reg, .d⟩]] })

def progOpnds : EprogOpnds := ⟨⟨32, 8⟩, ⟨0, 8⟩, none, 0, 1#4, some 1, none, none, false, 0⟩

/-- A task body that asks for a whole pavilion of stream 0. -/
def bodyOf (cls : Nat) : TaskBody := ⟨0, cls, 0, 1, 0, false, 0, false, 0, [], 0, [], 0, 0⟩

def taskOf (i cls : Nat) (st : TaskSt) : Task :=
  ⟨i, 0, 0, 0, none, true, [], bodyOf cls, cls, 0, i, false, 0, 0, false, false, false, none, 0, st, some 0, none, 0, 0, 0⟩

/-- A bulk task runs on stream 0, and an urgent task waits for it; context 0 has a save slot. -/
def yieldState : State :=
  setF (setF { runState with tasks := [(0, some (taskOf 0 2 (.running 0))), (1, some (taskOf 1 0 .waiting))] } (fSAVEAREA_NSAVE 0) 1) fORG_ORGREADY_READY 0xFF

/-- Queue 0 of context 0 runs, with two commands of its ring not fetched. -/
def gateState : State :=
  setF (setF (setF (setF onState (fQCTL_EN 0 0) 1) (fQSTAT_STATE 0 0) qRunning) (fQPTR_TAIL 0 0) 2) (fCTXCTL_EN 0) 1

def fetchedOf (b : List Byte) : Fetched := ⟨b, 0, 0, none⟩

/-- One fetched command stands at the front of that queue. -/
def frontState (b : List Byte) : State := modQ gateState 0 0 (fun x => { x with fetched := [fetchedOf b] })

/-- The 64 bytes of a command: opcode, flags, tag, then the bytes from offset 8. -/
def cmdBytes (op flags tag : Nat) (rest : List Byte) : List Byte :=
  leBytes 1 op ++ leBytes 1 flags ++ leBytes 2 tag ++ leBytes 4 0 ++ rest ++ List.replicate (56 - rest.length) 0#8

def nopBytes : List Byte := cmdBytes 0 0 1 []
def openBytes : List Byte := cmdBytes 3 0 2 (leBytes 2 5 ++ leBytes 1 2 ++ leBytes 1 0 ++ leBytes 4 90 ++ leBytes 8 0x1000000000040)
def setBytes : List Byte := cmdBytes 4 0 3 (leBytes 2 5 ++ leBytes 1 1 ++ leBytes 1 0 ++ leBytes 4 70 ++ leBytes 8 0x1000000000080 ++ leBytes 1 15)
def closeBytes : List Byte := cmdBytes 5 0 4 (leBytes 2 5)
def unloadBytes : List Byte := cmdBytes 7 0 5 (leBytes 2 5)
def loadBytes : List Byte := cmdBytes 6 0 6 (leBytes 8 0x8000000004000 ++ leBytes 4 64 ++ leBytes 1 5)
def taskBytes : List Byte := cmdBytes 1 0 7 []
def graphBytes : List Byte := cmdBytes 2 0 8 []
def killBytes : List Byte := cmdBytes 8 0 9 (leBytes 2 7)
def dmaBytes : List Byte := cmdBytes 9 0 10 (leBytes 2 3 ++ leBytes 6 0 ++ leBytes 8 0x8000000008000)

/-- A LOAD_BIN at the front; the Gatehouse area of context 0 is one reserved granule of slice 1. -/
def binState : State :=
  setF (setF (regPut (frontState loadBytes) (rORG_OWN 48) 0xC0C0C0C0C0C0C0C0#64) (fBINAREA_COUNT 0) 1) (fBINAREA_BASE 0) 0x200

theorem witness_StepRunsTheFrontCommand : ({ State.reset with pending := [.nop 0 0] } : State).pending = [.nop 0 0] := rfl

theorem witness_IdleStepIsATick_off : State.reset.pending = [] ∧ on State.reset = false := ⟨rfl, rfl⟩

theorem witness_IdleStepIsATick_on : onState.pending = [] ∧ on onState = true := ⟨rfl, rfl⟩

theorem witness_QueueIsFirstInFirstOut : step State.reset = .next State.reset := rfl

theorem witness_CanonicalFormIsKept : State.reset.canonical = true ∧ step State.reset = .next State.reset := ⟨rfl, rfl⟩

theorem witness_ScalarAndAddressRegisterWrites :
    issues runState 0 3 plainPlan ∧ (slotTaken (atIssue runState 0 3) 0 1).calm = true := by
  unfold issues
  decide +kernel

theorem witness_HardwareLoops_loop :
    issues runState 0 0 (loopPlan 3) ∧ (slotTaken (atIssue runState 0 0) 0 1).calm = true := by
  unfold issues
  decide +kernel

theorem witness_HardwareLoops_endloop :
    issues loopState 0 0 endloopPlan ∧ (slotTaken (atIssue loopState 0 0) 0 1).calm = true ∧
    (getStr (slotTaken (atIssue loopState 0 0) 0 1) 0).loops = [(2, 5)] := by
  unfold issues
  decide +kernel

theorem witness_HardwareLoops_handler :
    (getCore handlerState 9).handler = some ⟨0, 0, 2, [(1, 1)], 0⟩ := by decide +kernel

theorem witness_TileConfiguration_tcfg :
    issues runState 0 0 (tcfgPlan ⟨60, 4⟩ 2) ∧ (slotTaken (atIssue runState 0 0) 0 1).calm = true := by
  unfold issues
  decide +kernel

theorem witness_TileConfiguration_trel :
    issues tileState 0 0 (trelPlan ⟨0, 4⟩) ∧ (slotTaken (atIssue tileState 0 0) 0 1).calm = true := by
  unfold issues
  decide +kernel

theorem witness_WeightLoadsEnterThePipeline_R :
    issues weightState 0 0 (wloadRPlan 0 0 1) ∧ (slotTaken (atIssue weightState 0 0) 0 1).calm = true := by
  unfold issues
  decide +kernel

theorem witness_WeightLoadsEnterThePipeline_S :
    issues weightState 0 0 (wloadSPlan 0 0 1 2) ∧ (slotTaken (atIssue weightState 0 0) 0 1).calm = true := by
  unfold issues
  decide +kernel

/-- Source and destination of the passes of the witnesses. -/
def passOpnds : PassOpnds := ⟨⟨32, 8⟩, ⟨0, 8⟩, none, 3, 0, false, false⟩

theorem witness_PassesEnterThePipeline :
    issues passState 0 0 (passPlan .mpass passOpnds none) ∧ issues passState 0 0 (passPlan .mpasst passOpnds none) ∧
    issues passState 0 0 (passPlan .mdist passOpnds none) ∧ issues passState 0 0 (passPlan .msqd passOpnds none) ∧
    issues passState 0 0 (passPlan .mcmpx passOpnds (some ⟨40, 8⟩)) ∧ issues passState 0 0 (passPlan .mcmpn passOpnds (some ⟨40, 8⟩)) ∧
    (getStr (slotTaken (atIssue passState 0 0) 0 1) 0).cores.Nodup ∧ (slotTaken (atIssue passState 0 0) 0 1).calm = true := by
  unfold issues
  decide +kernel

theorem witness_PassesEnterThePipeline_swap :
    issues swapState 0 0 (passPlan .mpass { passOpnds with swap := true } none) ∧
    (getStr (slotTaken (atIssue swapState 0 0) 0 1) 0).cores.Nodup ∧ (slotTaken (atIssue swapState 0 0) 0 1).calm = true := by
  unfold issues
  decide +kernel

/-- Operands of a movement of registers 0 and 1 at local offset 0, exponents at 4,096. -/
def moveOpnds : MoveOpnds := ⟨⟨0, 2⟩, 0, 0, some 1, some 1, false⟩

theorem witness_MovementsEnterThePipeline :
    issues moveState 0 0 (movePlan moveOpnds false 0) ∧ issues moveState 0 0 (movePlan moveOpnds true 1) ∧
    tileWidth (getStr (slotTaken (atIssue moveState 0 0) 0 1) 0) moveOpnds.t = some .w8 ∧
    (slotTaken (atIssue moveState 0 0) 0 1).calm = true := by
  unfold issues
  decide +kernel

theorem witness_TstoreWritesItsOwnBytesAlone_others :
    ∀ x ∈ (getStr storeState 0).stores, x.cycle ≤ 5 → ∀ b, (9, b) ∉ x.cells := by decide +kernel

theorem witness_TstoreWritesItsOwnBytesAlone_cells :
    (0x2000000, 0#8) ∈ tstoreCells RegData.zero ⟨⟨0, 1⟩, 0, 128, some 4096, 4, false, 1, 8, 4⟩ 1 0 := by decide +kernel

theorem witness_ElementMacroOpsEnterThePipeline :
    issues passState 0 0 (eshufXPlan ⟨32, 8⟩ ⟨40, 8⟩ 5) ∧ issues passState 0 0 (eshufBPlan ⟨32, 8⟩ ⟨40, 8⟩ 0) ∧
    issues passState 0 0 (esumPlan ⟨32, 8⟩ ⟨0, 8⟩ 5) ∧ issues passState 0 0 (emaxPlan ⟨32, 8⟩ ⟨0, 8⟩ 5 (some ⟨40, 8⟩)) ∧
    issues passState 0 0 (ebcastPlan ⟨32, 8⟩ ⟨0, 8⟩ 0 false 2 0) ∧
    issues passState 0 0 (equantPlan ⟨⟨0, 8⟩, ⟨32, 8⟩, 40, false, 2, false, 0⟩) ∧
    (slotTaken (atIssue passState 0 0) 0 1).calm = true := by
  unfold issues
  decide +kernel

theorem witness_ElementMacroOpsEnterThePipeline_eprog :
    issues progState 0 0 (eprogPlan progOpnds) ∧ (slotTaken (atIssue progState 0 0) 0 1).calm = true := by
  unfold issues
  decide +kernel

/-- As `passState`, with operands of a copy of 2 rows of 32 bytes and of a slath request. -/
def copyState : State :=
  modStr passState 0 (fun t => { t with
    sregs := [(1, 4#32), (2, 2#32), (3, 32#32), (4, 64#32), (5, 96#32)],
    aregs := [(1, 0x1000#52), (2, 0x1000000002000#52), (3, 0x8000#52)] })

def copyOpnds : XferOpnds := { each := true, adst := 1, asrc := 2, acpl := 3, srows := 2, srb := 3, sss := 3, sds := 3, scs := 4, count := false }
def storeOpnds : XferOpnds := { copyOpnds with adst := 2, asrc := 1, each := false }
def slathOpnds : SlathOpnds := { each := false, areq := 1, qlen := 64, ares := 0, srl := 5, acpl := 3, scs := 4, count := false }

theorem witness_DynamicMacroOps_stream :
    issues copyState 0 0 (xferPlan 0 copyOpnds true) ∧ issues copyState 0 0 (xferPlan 0 storeOpnds false) ∧
    issues copyState 0 0 (slathPlan 0 slathOpnds) ∧ (slotTaken (atIssue copyState 0 0) 0 2).still = true := by
  unfold issues
  decide +kernel

/-- A handler of core 0 with operands of a copy and of a slath request. -/
def handlerCopy : State :=
  setCore copyState 0 { Core.reset with
    handler := some ⟨0, 0, 2, [], 0⟩, hs := [(2, 2#32), (3, 32#32), (4, 64#32), (5, 96#32)],
    ha := [(1, 0x1000#52), (2, 0x1000000002000#52), (3, 0x8000#52)] }

theorem witness_DynamicMacroOps_handler :
    handlerCopy.still = true ∧ paused handlerCopy = false ∧ ((getCore handlerCopy 0).handler = some ⟨0, 0, 2, [], 0⟩) ∧
    xferLegal handlerCopy (issHnd handlerCopy 0) copyOpnds true = true ∧
    xferLegal handlerCopy (issHnd handlerCopy 0) storeOpnds false = true ∧
    slathLegal handlerCopy (issHnd handlerCopy 0) slathOpnds = true := by decide +kernel

/-- As `copyState`, with a FULL word of value 5 at address 0x1000 and a counter word of CAP 9, COUNT 4 at 0x1008. -/
def wordState : State :=
  setMetaW (setMetaW (setWord (setWord (modStr copyState 0 (fun t => { t with
    aregs := [(1, 0x1000#52), (2, 0x1008#52), (3, 0x1010#52)] })) 0x1000 0x700000005) 0x1008 0x90004) 0x1000 .full) 0x1008 .full

/-- Stream 0 of `s` as a macro-op of slot 2 leaves it at its issue, its operand values and the tracker entry of its word noted, three
cycles on. -/
def threeOn (s : State) (data : List Nat) (w : Nat) (writes : Bool) : State :=
  runTo 0 ((getStr (slotTaken (atIssue s 0 0) 0 2) 0).now + 3)
    (modStr (slotTaken (atIssue s 0 0) 0 2) 0 (fun t => { t with data := data, ranges := t.ranges ++ feRanges t [(0, w)] writes }))

/-- As `wordState`, at an access of the word of slice 0. -/
def waitingState : State := modStr wordState 0 (fun t => { t with st := .waiting, wait := .words [0] none none (0, 0, 0) })

def waitOpnds (r : AReg) : FwaitOpnds := { each := false, aw := r, sd := some 7, sd2 := some 8, ag := 0, sgl := 0 }

theorem witness_TakesAtALocalWord_full :
    let u := slotTaken (atIssue wordState 0 0) 0 2
    let v := threeOn wordState [0x1000, 0, 0, 0] 0x1000 false
    issues wordState 0 0 (fwaitPlan 0 (waitOpnds 1) false) ∧ issues wordState 0 0 (fwaitPlan 0 (waitOpnds 1) true) ∧
    v.calm = true ∧ (getStr v 0).st = .running ∧ ordered v = false ∧ bankHedged v 0x1000 = false ∧ v.waiters = [] ∧
    strWords u 0 (getStr u 0) false 0x1000 = [.here 0 0x1000] ∧ areg (getStr u 0) 1 = 0x1000 ∧ metaOf v 0x1000 = .full ∧ v.orgErr = [] := by
  unfold issues
  decide +kernel

theorem witness_TakesAtALocalWord_empty :
    let u := slotTaken (atIssue wordState 0 0) 0 2
    let v := threeOn wordState [0x1010, 0, 0, 0] 0x1010 true
    issues wordState 0 0 (fwaitPlan 0 (waitOpnds 3) false) ∧ issues wordState 0 0 (fwaitPlan 0 (waitOpnds 3) true) ∧
    strWords u 0 (getStr u 0) false 0x1010 = [.here 0 0x1010] ∧ areg (getStr u 0) 3 = 0x1010 ∧ metaOf v 0x1010 = .empty ∧
    v.calm = true ∧ (getStr v 0).st = .running ∧ ordered v = false ∧ bankHedged v 0x1010 = false ∧ v.waiters = [] ∧ orgErrAt v 0x1010 = 0 := by
  unfold issues
  decide +kernel

theorem witness_TakesAtALocalWord_count :
    let u := slotTaken (atIssue wordState 0 0) 0 2
    let v := threeOn wordState [0x1008, 4, 0, 0] 0x1008 true
    let y := threeOn wordState [0x1008, 32, 0, 0] 0x1008 true
    issues wordState 0 0 (fcountMinusPlan 0 false 2 1) ∧ issues wordState 0 0 (fcountMinusPlan 0 false 2 3) ∧
    sreg (getStr u 0) 1 = 4 ∧ sreg (getStr u 0) 3 = 32 ∧ areg (getStr u 0) 2 = 0x1008 ∧
    v.calm = true ∧ (getStr v 0).st = .running ∧ ordered v = false ∧ v.waiters = [] ∧
    y.calm = true ∧ (getStr y 0).st = .running ∧ ordered y = false ∧ y.waiters = [] ∧ bankHedged y 0x1008 = false ∧
    metaOf y 0x1008 ≠ .poisoned ∧ orgErrAt y 0x1008 = 0 ∧ cntCount (wordVal y 0x1008) < sreg (getStr u 0) 3 ∧ strWords u 0 (getStr u 0) false 0x1008 = [.here 0 0x1008] ∧
    bankHedged v 0x1008 = false ∧ metaOf v 0x1008 ≠ .poisoned ∧ cntCount (wordVal v 0x1008) = sreg (getStr u 0) 1 ∧ orgErrAt v 0x1008 = 0 := by
  unfold issues
  decide +kernel

/-- The operands of the fills of the witnesses. -/
def fillOpnds : FfillOpnds := ⟨false, 3, .imm 7, none⟩

theorem witness_FillsAtALocalWord :
    let u := slotTaken (atIssue wordState 0 0) 0 2
    let v := threeOn wordState (fillData (getStr u 0) fillOpnds) 0x1010 true
    issues wordState 0 0 (ffillPlan 0 fillOpnds true) ∧ issues wordState 0 0 (ffillPlan 0 fillOpnds false) ∧
    publishGap 0 0 false (areg (getStr wordState 0) 3) false wordState = 0 ∧ strWords u 0 (getStr u 0) false 0x1010 = [.here 0 0x1010] ∧ areg (getStr u 0) 3 = 0x1010 ∧
    storeCycle (getStr u 0) 3 = (getStr u 0).now + 3 ∧ inOuts (getStr u 0).outs 0x1010 = false ∧ v.calm = true ∧
    (getStr v 0).st = .running ∧ bankHedged v 0x1010 = false ∧ v.waiters = [] ∧ ordered v = false ∧ metaOf v 0x1010 = .empty := by
  unfold issues
  decide +kernel

theorem witness_FillsAtALocalWord_count :
    let u := slotTaken (atIssue wordState 0 0) 0 2
    let v := threeOn wordState [0x1008, 5, 0, 0] 0x1008 true
    issues wordState 0 0 (fcountPlusPlan 0 false 2 5) ∧ publishGap 0 0 false (areg (getStr wordState 0) 2) true wordState = 0 ∧
    strWords u 0 (getStr u 0) false 0x1008 = [.here 0 0x1008] ∧ areg (getStr u 0) 2 = 0x1008 ∧
    inOuts (getStr u 0).outs 0x1008 = false ∧ v.calm = true ∧
    (getStr v 0).st = .running ∧ bankHedged v 0x1008 = false ∧ v.waiters = [] ∧ ordered v = false ∧
    metaOf v 0x1008 ≠ .poisoned ∧ orgErrAt v 0x1008 = 0 ∧ cntCount (wordVal v 0x1008) + 5 = cntCap (wordVal v 0x1008) := by
  unfold issues
  decide +kernel

/-- An uncorrectable counter word keeps its value, and the stream issues nothing more of its task (R274, R275). -/
theorem test_count_at_uncorrectable_word :
    let s := { waitingState with orgErr := [(0x1008, 2)] }
    let t := feAccess s 0x1008 (.local_ 0 0) 0 (.count 1)
    wordVal t 0x1008 = 0x90004 ∧ (getStr t 0).st = .ending ∧ getF t (fSLC_UECNT_COUNT 0) = 1 := by decide +kernel

/-- As `wordState`, where the word at 0x1008 is an output of the task. -/
def outState : State := modStr wordState 0 (fun t => { t with outs := [(0x1008, 16)] })

theorem witness_FillsAtALocalWord_held :
    let u := slotTaken (atIssue outState 0 0) 0 2
    issues outState 0 0 (ffillPlan 0 fillOpnds true) ∧ issues outState 0 0 (fcountPlusPlan 0 false 2 5) ∧
    publishGap 0 0 false (areg (getStr outState 0) 2) true outState = 0 ∧ strWords u 0 (getStr u 0) false 0x1010 = [.here 0 0x1010] ∧ inOuts (getStr u 0).outs 0x1010 = true ∧
    inOuts (getStr u 0).outs 0x1008 = true ∧ u.calm = true := by
  unfold issues
  decide +kernel

theorem witness_HandlersUseWordsWithoutWaiting :
    paused handlerCopy = false ∧ (getCore handlerCopy 0).handler = some ⟨0, 0, 2, [], 0⟩ ∧ hsreg (getCore handlerCopy 0) 5 < 65536 ∧
    hndWord handlerCopy (issHnd handlerCopy 0) 0 false (hareg (getCore handlerCopy 0) 1) = some 0x1000 ∧ spaceOf 0x1000 ≠ 9 := by
  decide +kernel

/-- As `copyState`, with a creel of core 0 in its RES granule 2, an account for it and a message at 0x1000. -/
def sendState : State :=
  let s := modStr copyState 0 (fun t => { t with aregs := [(1, 0x1000#52), (2, 0x20000#52)], accounts := [⟨0, 200, 0⟩], resident := some 0 })
  regPut (setF (setF s (fCRLCFG_EN 0 0 0) 1) (fCRLCFG_BASE 0 0 0) 0x20) (rORG_OWN 0) 0x8080808080C08080#64

def sendOpnds (n : Nat) (early : Bool) : CsendOpnds := { each := false, ar := 2, am := 1, len := n, early := early }

theorem witness_SendsUseTheirCredit_stream :
    let v := noteData 0 (csendPlan 0 (sendOpnds 64 false)) (slotTaken (atIssue sendState 0 0) 0 2)
    issues sendState 0 0 (csendPlan 0 (sendOpnds 64 false)) ∧ issues sendState 0 0 (csendPlan 0 (sendOpnds 64 true)) ∧
    issues sendState 0 0 (csendPlan 0 (sendOpnds 256 false)) ∧
    v.calm = true ∧ v.orgErr = [] ∧ ringOf v 0 (areg (getStr v 0) 2) = some (0, 0) ∧
    (∃ b ∈ (getStr v 0).accounts, b.tag = 0) ∧ 64 + 32 ≤ accountOf (getStr v 0).accounts 0 ∧
    accountOf (getStr v 0).accounts 0 < 256 + 32 := by
  unfold issues
  decide +kernel

/-- A handler of core 0 that can send to the creel of `sendState`. -/
def handlerSends : State :=
  setCore sendState 0 { Core.reset with
    handler := some ⟨0, 0, 2, [], 0⟩, ha := [(1, 0x1000#52), (2, 0x20000#52)], accounts := [⟨0, 200, 0⟩] }

theorem witness_SendsUseTheirCredit_handler :
    paused handlerSends = false ∧ (getCore handlerSends 0).handler = some ⟨0, 0, 2, [], 0⟩ ∧ csendLegal handlerSends (issHnd handlerSends 0) (sendOpnds 64 false) = true ∧
    csendLegal handlerSends (issHnd handlerSends 0) (sendOpnds 256 false) = true ∧
    ringOf handlerSends (issHnd handlerSends 0).ctx (hareg (getCore handlerSends 0) 2) = some (0, 0) ∧
    (∃ b ∈ (getCore handlerSends 0).accounts, b.tag = 0) ∧ 64 + 32 ≤ accountOf (getCore handlerSends 0).accounts 0 ∧
    accountOf (getCore handlerSends 0).accounts 0 < 256 + 32 := by decide +kernel

/-- As `sendState`, with a message of 64 bytes in the creel. -/
def messageState : State := modCreel sendState 0 (fun x => { x with entries := [⟨0, 96, 0, 0, 3, 0⟩] })

theorem witness_HandlersStartAndEnd_start :
    paused messageState = false ∧ messageState.orgErr = [] ∧ (getCore messageState 0).handler = none ∧ coreHedged messageState 0 = false ∧
    getBit messageState fHEDGEMISC_PAV 0 = false ∧ 0 ∈ (getStr messageState (streamOfCore messageState 0)).cores ∧
    (getStr messageState (streamOfCore messageState 0)).st ≠ .idle ∧ (getStr messageState (streamOfCore messageState 0)).resident ≠ none ∧
    messageState.fatal = false ∧ nextCreel messageState 0 = some 0 ∧ (getCreel messageState 0).entries = [⟨0, 96, 0, 0, 3, 0⟩] := by
  decide +kernel

/-- A handler of core 0 runs on that message, in one loop level or in none. -/
def endingState (l : List (Nat × Nat)) : State :=
  setF (setCore messageState 0 { Core.reset with handler := some ⟨0, 0, 0, l, 4⟩ }) fREFTICK_TICK 1000000

theorem witness_HandlersStartAndEnd_end :
    paused (endingState []) = false ∧ paused (endingState [(1, 2)]) = false ∧
    (getCore (endingState []) 0).handler = some ⟨0, 0, 0, [], 4⟩ ∧ (getCore (endingState [(1, 2)]) 0).handler = some ⟨0, 0, 0, [(1, 2)], 4⟩ ∧
    (getCreel (endingState []) 0).entries = [⟨0, 96, 0, 0, 3, 0⟩] ∧ (getCreel (endingState [(1, 2)]) 0).entries = [⟨0, 96, 0, 0, 3, 0⟩] ∧
    getF (endingState []) (fHNDLIM_LIMIT 0 0) ≠ 0 ∧
    getF (endingState []) (fHNDLIM_LIMIT 0 0) ≤ cyclesSince (endingState []) 0 := by decide +kernel

theorem witness_FencesAndCommit :
    issues runState 0 0 plainPlan ∧ issues runState 0 0 commitPlan ∧
    let v := staticPart 0 (slotTaken (atIssue runState 0 0) 0 1)
    v.still = true ∧ paused v = false ∧ fenceMet v 0 false = true ∧ fenceMet v 0 true = true ∧ opsOf v 0 = [] ∧ (getStr v 0).commit = [] ∧
    quiet (getStr v 0) = true := by
  unfold issues
  decide +kernel

/-- As `runState`, with an operation in flight; and with an entry in the commit buffer. -/
def busyState : State := { runState with ops := [(0, ⟨.stream 0, 0, 0, 0, 0, false, false, false, 0, 0, [], [⟨0, .fe 0 (.count 1), none, .sent⟩]⟩)], nextOp := 1 }
def bufferState : State := modStr runState 0 (fun t => { t with commit := [.fill [0] 1] })

theorem witness_FencesAndCommit_wait :
    issues busyState 0 0 plainPlan ∧ issues busyState 0 0 commitPlan ∧ issues bufferState 0 0 commitPlan ∧
    let v := staticPart 0 (slotTaken (atIssue busyState 0 0) 0 1)
    let b := staticPart 0 (slotTaken (atIssue bufferState 0 0) 0 1)
    v.still = true ∧ paused v = false ∧ paused b = false ∧ fenceMet v 0 false = false ∧ fenceMet v 0 true = false ∧ b.still = true ∧ fenceMet b 0 true = true ∧
    (getStr b 0).commit ≠ [] := by
  unfold issues
  decide +kernel

theorem witness_YieldAndTheEndOfAProgram_idle :
    issues runState 0 0 plainPlan ∧ (slotTaken (atIssue runState 0 0) 0 1).calm = true ∧
    yieldWanted (slotTaken (atIssue runState 0 0) 0 1) 0 = false ∧ paused runState = false ∧ (getStr runState 0).st = .running := by
  unfold issues
  decide +kernel

theorem witness_YieldAndTheEndOfAProgram_wanted :
    let u := slotTaken (atIssue yieldState 0 0) 0 1
    issues yieldState 0 0 plainPlan ∧ u.calm = true ∧ yieldWanted u 0 = true ∧ preemptible (getStr u 0) = true ∧
    (getStr u 0).flights = [] ∧ (getStr u 0).lands = [] ∧ (getStr u 0).stores = [] ∧ (getStr u 0).acq = [] := by
  unfold issues
  decide +kernel

/-- Stream 0 at COMMIT step 2 with two entries held for the word at 0x1008, and an access that is due. -/
def releaseState (d : List (Nat × CEntry)) : State :=
  modStr wordState 0 (fun t => { t with
    st := .ending, wait := .commit2, commit := [.count [0x1008] 1, .count [0x1008] 2], releasing := d })

theorem witness_CommitReleasesItsBuffer :
    let ok := fun (d : List (Nat × CEntry)) (w : Nat) =>
      let v := runTo 0 ((getStr (releaseState d) 0).now + 1) (releaseState d)
      (getStr (releaseState d) 0).wait = .commit2 ∧ (getStr (releaseState d) 0).releasing = d ∧ (getStr (releaseState d) 0).now = 0 ∧
      (getStr v 0).wait = .commit2 ∧ (setStr v 0 Stream.reset).still = true ∧ paused (releaseState d) = false ∧ paused v = false ∧
      (getStr v 0).ended = none ∧ v.waiters = [] ∧ ordered v = false ∧ bankHedged v w = false ∧ orgErrAt v w = 0 ∧
      entryLocal (getStr v 0) 0 (.count [0x1008] 1) = true
    ok [] 0 ∧
    ok [(1, .fill [0x1010] 7)] 0x1010 ∧ metaOf (runTo 0 1 (releaseState [(1, .fill [0x1010] 7)])) 0x1010 = .empty ∧
    ok [(1, .count [0x1008] 5)] 0x1008 ∧
    ok [(1, .fill [0x1000] 7)] 0x1000 ∧ metaOf (runTo 0 1 (releaseState [(1, .fill [0x1000] 7)])) 0x1000 = .full := by
  decide +kernel

theorem witness_CommitReleasesItsBuffer_poisoned :
    let s := setMetaW (releaseState [(1, .fill [0x1000] 7)]) 0x1000 .poisoned
    metaOf (runTo 0 ((getStr s 0).now + 1) s) 0x1000 = .poisoned ∧ (getStr s 0).releasing = [((getStr s 0).now + 1, .fill [0x1000] 7)] := by
  decide +kernel

theorem witness_CommitReleasesItsBuffer_idle : (getStr runState 0).wait ≠ .commit2 := by decide +kernel

/-- As `moveState`, held on a TLOAD; its range meets one that an operation still holds, or none. -/
def heldState (l : List Range) : State :=
  modStr moveState 0 (fun t => { t with st := .held, held := some (.tload (.stream 0) 0 moveOpnds), ranges := l })

/-- That stream as it tries its macro-op again. -/
def freedState (s : State) : State :=
  modStr s 0 (fun x => { readOn (cyclesSince s (getStr s 0).heldAt) x with st := .running, held := none, heldAs := [], preempt := none, obliged := false })

theorem witness_HeldMacroOpsIssueAgain :
    (getStr (heldState []) 0).st = .held ∧ (getStr (heldState []) 0).held = some (.tload (.stream 0) 0 moveOpnds) ∧
    (getStr (heldState []) 0).preempt = none ∧ paused (heldState []) = false ∧ (getStr (heldState []) 0).obliged = false ∧
    (getStr runState 0).st ≠ .held ∧
    (getStr (nextOf (exec (.tload (.stream 0) 0 moveOpnds) (freedState (heldState []))) (heldState [])) 0).st ≠ .held ∧
    let h := heldState [⟨false, 9, [0], 0, 63, true, 0⟩]
    (getStr h 0).st = .held ∧ (getStr (nextOf (exec (.tload (.stream 0) 0 moveOpnds) (freedState h)) h) 0).st = .held := by decide +kernel

theorem witness_HeldMacroOpsIssueAgain_load :
    issues (freedState (heldState [])) 0 0 (movePlan moveOpnds false 0) ∧
    let u := slotTaken (atIssue (freedState (heldState [])) 0 0) 0 1
    u.calm = true ∧ tileWidth (getStr u 0) moveOpnds.t = some .w8 := by
  unfold issues
  decide +kernel

/-- A copy of 64 bytes from `src` to 0x9000 with completion word 0x1010 is in flight. -/
def opState (src : Nat) : State :=
  { wordState with
    ops := [(3, ⟨.stream 0, 0, 0, 0, 0, false, false, false, 0, 0, [], [⟨5, .sload ⟨src, 0x9000, 1, 64, 0, 0⟩, some 0x1010, .waiting 0⟩]⟩)], nextOp := 4 }

theorem witness_CopiesArePerformed :
    let ok := fun (s : State) => s.orgErr = [] ∧ s.still = true ∧ paused s = false ∧ s.packets = [] ∧
      s.bankq = [] ∧ s.units = [] ∧ s.ops.length = 1 ∧ (List.range 64).all (fun ch => (chanReady s ch).isNone) = true ∧ metaOf s 0x1010 = .empty ∧ bankHedged s 0x1010 = false ∧
      s.waiters = [] ∧ ordered s = false ∧ orgAssigned 0x9000 = true ∧ orgHedged s 0x9000 64 = false ∧ (findOp s 3).isSome = true ∧
      ∀ d ∈ (findOp s 3).toList, ∀ x ∈ d.shares, ∀ y ∈ (xferOf x.op).toList,
        (pieceplaces s d.ctx (xferPieces y)).all (fun p => decide (8192 ≤ p) || subFree s p) = true
    ok (opState 0x1000) ∧ orgAssigned 0x1000 = true ∧ orgHedged (opState 0x1000) 0x1000 64 = false ∧
    ok (opState 0x8000000002000) ∧ spaceOf 0x8000000002000 = 8 := by decide +kernel

/-- Stream 0 waits for the reply of operation 3, and tokens cross the trellis. -/
def tokenState (kd : TokenKind) : State :=
  let s := modStr wordState 0 (fun t => match kd with
    | .reply _ _ => { t with st := .waiting, wait := .reply 3 (some 4) none (0, 0, 0) }
    | .grant _ _ _ => { t with accounts := [⟨7, 10, 0⟩] })
  { s with ops := [(3, ⟨.stream 0, 0, 0, 0, 0, false, false, true, 0, 0, [], [⟨0, .fe 0x1000 (.take .ftake true), none, .done 0⟩]⟩)],
           tokens := [⟨2, 0, kd, 0⟩], nextOp := 4 }

theorem witness_TokensAreTakenUp :
    let a := tokenState (.reply 3 (.ok 9))
    let b := tokenState (.grant (.stream 0) 7 64)
    (a.change = none) ∧ a.still = true ∧ (getStr a 0).wait = .reply 3 (some 4) none (0, 0, 0) ∧ (findOp a 3).isSome = true ∧
    b.change = none ∧ b.still = true ∧ (getStr b 0).wait = .none_ ∧ (∃ x ∈ (getStr b 0).accounts, x.tag = 7) ∧
    a.tokens.find? (fun z => z.id == 2) = some ⟨2, 0, .reply 3 (.ok 9), 0⟩ ∧ tick a < 0 + 1000 ∧
    0 + 1000 ≤ tick (setF a fREFTICK_TICK 1000) ∧ (setF a fREFTICK_TICK 1000).fatal = false := by decide +kernel

/-- The plots stand still. -/
theorem witness_TokensAreTakenUp_stopped :
    ((({ tokenState (.reply 3 (.ok 9)) with change := some ⟨3, 0, true, none⟩ } : State).change.map (fun c => c.stopped)).getD false) = true := rfl

/-- Stream 0 has waited at a word for 200 us, with a limit of 1 us. -/
def lateState : State :=
  setF (setF (modStr wordState 0 (fun t => { t with st := .waiting, wait := .words [0] none none (0, 0, 0) })) fREFTICK_TICK 20000) (fSTRWTO_STRWTO 0 0) 1

theorem witness_WaitsHaveALimit :
    getF lateState (fSTRWTO_STRWTO 0 0) ≠ 0 ∧ (getStr lateState 0).st = .waiting ∧ (getStr lateState 0).wait.limited = true ∧
    100 * getF lateState (fSTRWTO_STRWTO 0 0) < tick lateState - (getStr lateState 0).waitSince ∧ (getStr runState 0).st ≠ .waiting := by
  decide +kernel

/-- Two takers wait at a FULL word, MODECFG.ORDERED being set. -/
def orderState (now : Nat) : State :=
  let s := setF (setF wordState fGATE_MODECFG_ORDERED 1) fREFTICK_TICK now
  { s with ops := [(3, ⟨.stream 0, 0, 0, 0, 0, false, false, true, 0, 0, [], [⟨0, .fe 0x1000 (.take .ftake true), none, .sent⟩]⟩)], nextOp := 4,
           waiters := [⟨0x1000, .remote 4, 9, .ftake, 0, 0⟩, ⟨0x1000, .remote 3, 2, .ftake, 1, 0⟩], fullAt := [(0x1000, 1)] }

/-- The same, in an open wicket that peers use for full/empty operations. -/
def sharedState (now : Nat) : State :=
  setF (setF (setF (setF (orderState now) (fWKCTL_EN 3) 1) (fWKCTL_PERM 3) 4) (fWKBASE_BASE 3) 1) (fWKSIZE_PAGES 3) 1

theorem witness_TakersAreServedInKeyOrder :
    let ok := fun (s : State) => (ordered s = true ∧ takersOf s 0x1000 = [⟨0x1000, .remote 3, 2, .ftake, 1, 0⟩, ⟨0x1000, .remote 4, 9, .ftake, 0, 0⟩] ∧
      metaOf s 0x1000 = .full ∧ s.still = true ∧ bankHedged s 0x1000 = false ∧ orgErrAt s 0x1000 = 0 ∧ (findOp s 3).isSome = true)
    ok (orderState 1000) ∧ 128 ≤ cyclesSince (orderState 1000) 0 ∧ ok (orderState 5) ∧
    cyclesSince (orderState 5) 0 < 128 ∧ inSharedWicket (orderState 5) 0x1000 = false := by decide +kernel

theorem witness_TakersAreServedInKeyOrder_shared :
    inSharedWicket (sharedState 200) 0x1000 = true ∧ ordered (sharedState 200) = true ∧ (takersOf (sharedState 200) 0x1000).length = 2 ∧
    tick (sharedState 200) = 200 ∧ (sharedState 200).still = true ∧ metaOf (sharedState 200) 0x1000 = .full := by decide +kernel

/-- The wicket's interval lasts 200 ticks (R503), where 128 cycles have long passed. -/
theorem test_settle_in_wicket :
    settledFor (sharedState 199) 0x1000 199 = false ∧ settledFor (sharedState 200) 0x1000 200 = true ∧
    settledFor (orderState 199) 0x1000 199 = true := by decide +kernel

theorem witness_DoorbellsAndFetches :
    (getQ gateState 0 0).fetched = [] ∧ gateState.fatal = false ∧ served gateState = true ∧ working gateState = true ∧
    isSet gateState (fQCTL_EN 0 0) = true ∧ isSet gateState (fQCTL_EN 1 0) = false ∧ getF gateState (fQPTR_TAIL 0 0) = 2 ∧
    queueOpen gateState 0 0 = true ∧ sub32 3 (getF gateState (fQPTR_HEAD 0 0)) ≤ cmdEntries gateState 0 0 ∧
    cmdEntries gateState 0 0 < sub32 99 (getF gateState (fQPTR_HEAD 0 0)) ∧
    sub32 (getF gateState (fQPTR_TAIL 0 0)) (getF gateState (fQPTR_HEAD 0 0)) ≠ 0 ∧
    fld (fromHost gateState 0 64) 0 1 < 10 ∧ (getQ gateState 0 0).recs = [] ∧ (getQ gateState 0 0).cmds = [] := by decide +kernel

theorem witness_QueueAndContextSwitches :
    served gateState = true ∧ isSet gateState (fQCTL_EN 1 0) = false ∧ isSet gateState (fQCTL_EN 0 0) = true ∧
    qState gateState 0 0 = qRunning ∧ qState (setF gateState (fQSTAT_STATE 0 0) qStopped) 0 0 = qStopped ∧
    bitOf 1 0 ≠ isSet gateState fGATE_MODECFG_ORDERED ∧ unended gateState = [] ∧ (∀ ch, ch < 64 → (getChan gateState ch).st = .idle) ∧
    unended { gateState with tasks := [(0, some (taskOf 0 2 .waiting))] } ≠ [] := by decide +kernel

theorem witness_PlainCommandsComplete :
    (let s := frontState nopBytes; atFront s 0 0 (fetchedOf nopBytes) 0 ∧ firstBad (formChecks s 0 0 nopBytes) = none) ∧
    (let s := frontState openBytes; atFront s 0 0 (fetchedOf openBytes) 3 ∧ firstBad (formChecks s 0 3 openBytes) = none ∧
      fld openBytes 8 2 ≠ 0xFFFF ∧ slotOpen s (fld openBytes 8 2) = false ∧ slotOpen (setF s (fSEQA_OPEN 5) 1) (fld openBytes 8 2) = true ∧
      bitOf (fld openBytes 1 1) 0 = false) ∧
    (let s := setF (frontState setBytes) (fSEQA_OPEN 5) 1; atFront s 0 0 (fetchedOf setBytes) 4 ∧ firstBad (formChecks s 0 4 setBytes) = none ∧
      slotOpen s (fld setBytes 8 2) = true ∧ slotCtx s (fld setBytes 8 2) = 0) ∧
    (let s := setF (frontState closeBytes) (fSEQA_OPEN 5) 1; atFront s 0 0 (fetchedOf closeBytes) 5 ∧
      firstBad (formChecks s 0 5 closeBytes) = none ∧ slotOpen s (fld closeBytes 8 2) = true ∧ slotCtx s (fld closeBytes 8 2) = 0 ∧ unended s = []) ∧
    (let s := setBin (frontState unloadBytes) 0 5 { Bin.reset with loaded := true }; atFront s 0 0 (fetchedOf unloadBytes) 7 ∧
      firstBad (formChecks s 0 7 unloadBytes) = none ∧ handleOk s 0 (fld unloadBytes 8 2) = true ∧ unended s = []) := by
  unfold atFront
  decide +kernel

theorem witness_PlainCommandsComplete_load :
    let s := binState
    let r := readDev s 0 (fld loadBytes 8 8) (fld loadBytes 16 4) 0
    atFront s 0 0 (fetchedOf loadBytes) 6 ∧ firstBad (formChecks s 0 6 loadBytes) = none ∧ (getBin s 0 (fld loadBytes 20 1)).loaded = false ∧
    areaOk s 0 = true ∧ ((freeUnits s 0).take ((fld loadBytes 16 4 + 4095) / 4096)).length = (fld loadBytes 16 4 + 4095) / 4096 ∧
    readWaits s 0 (fld loadBytes 8 8) (fld loadBytes 16 4) = false ∧ r.2.2 = 0 ∧ r.1.still = true := by
  unfold atFront
  decide +kernel

/-- A node of the test body. -/
def nodeOf : Node := ⟨none, [], true, bodyOf 2⟩

/-- A TASK or GRAPH waits at the front, its nodes read; the binary of its handle is loaded. -/
def taskState (b : List Byte) : State :=
  modQ (setBin (setF (frontState b) fORG_ORGREADY_READY 0xFF) 0 0 { Bin.reset with loaded := true }) 0 0 (fun x => { x with parsed := some [nodeOf] })

theorem witness_TasksAndChainsAreAccepted :
    (let s := taskState taskBytes; atFront s 0 0 (fetchedOf taskBytes) 1 ∧ (getQ s 0 0).parsed = some [nodeOf] ∧ taskRoom s 0 1 = true ∧
      firstReject s 0 [nodeOf] = none ∧ readyNow s nodeOf.body ≠ 2) ∧
    (let s := taskState graphBytes; atFront s 0 0 (fetchedOf graphBytes) 2 ∧ (getQ s 0 0).parsed = some [nodeOf]) ∧
    (let s := setF { taskState taskBytes with tasks := [(0, some (taskOf 0 2 .waiting))] } (fCTXCTL_MAXTASK 0) 1;
      atFront s 0 0 (fetchedOf taskBytes) 1 ∧ (getQ s 0 0).parsed = some [nodeOf] ∧ taskRoom s 0 1 = false) ∧
    (let s := setF (setF (frontState dmaBytes) (fCHCTL_EN 3) 1) (fCHCTL_QUIET 3) 1; atFront s 0 0 (fetchedOf dmaBytes) 9 ∧
      firstBad (formChecks s 0 9 dmaBytes) = none ∧ chanTakes s 0 (fld dmaBytes 8 2) = true) := by
  unfold atFront
  decide +kernel

theorem witness_KillsEndTasks :
    let s := modQ { frontState killBytes with tasks := [(7, some { taskOf 7 2 .waiting with cmd := 40 })] } 0 0
      (fun x => { x with cmds := [⟨40, 0, 1, 9, 0, 0, [7], none, none, 0⟩] })
    atFront s 0 0 (fetchedOf killBytes) 8 ∧ firstBad (formChecks s 0 8 killBytes) = none ∧ fld killBytes 8 2 = 7 ∧
    amGet (fun _ => 0) s.gens 7 = 0 ∧ taskById s 7 = some { taskOf 7 2 .waiting with cmd := 40 } ∧
    (unended s).filter (fun p => p.2.id == 7) = [(7, { taskOf 7 2 .waiting with cmd := 40 })] ∧ s.ops = [] ∧
    atFront (frontState killBytes) 0 0 (fetchedOf killBytes) 8 ∧ unended (frontState killBytes) = [] ∧ bitOf (fld killBytes 1 1) 0 = false ∧
    served s = true := by
  unfold atFront
  decide +kernel

/-- Three tasks wait for readiness words, the first of which is full. -/
def watchState : State :=
  setMetaW { onState with tasks := (List.range 3).map (fun i => (i, some { taskOf i 2 .waiting with body := { bodyOf 2 with rdy := true, ready := 64 + 8 * i } })) } 64 .full

theorem witness_TaskTimersAct_poll :
    working watchState = true ∧ watchState.still = true ∧ (watchers watchState).length = 3 ∧
    (∀ p ∈ watchers watchState, getTask watchState p.1 = some p.2 ∧ readyNow watchState p.2.body = if p.1 = 0 then 1 else 0) ∧
    due watchState evReadiness 200 = true ∧ due (noteAt watchState evReadiness) evReadiness 200 = false := by decide +kernel

/-- A running task whose sequence runs late, a retrying task, and one that ended 1 ms ago. -/
def timerState : State :=
  setF (setF { setStr onState 0 runStr with tasks := [
      (0, some { taskOf 0 2 (.running 0) with body := { bodyOf 2 with seqs := [3], urgth := 200 } }), (1, some (taskOf 1 2 (.retrying 0))),
      (2, some (taskOf 2 2 (.ended 0 0)))] } (fSEQB_DEADLINE 3) 50) fREFTICK_TICK 100000

theorem witness_TaskTimersAct :
    working timerState = true ∧ ((unended timerState).filter (fun p => promotes timerState p.2)).length = 1 ∧
    (∀ p ∈ unended onState, promotes onState p.2 = false) ∧
    getTask timerState 1 = some (taskOf 1 2 (.retrying 0)) ∧ timerState.ops = [] ∧ getTask timerState 2 = some (taskOf 2 2 (.ended 0 0)) ∧
    100000 ≤ tick timerState ∧ recWaits timerState 2 = false ∧ due timerState evSlack 100 = true ∧ due timerState evAging 100 = true ∧
    due (noteAt timerState evAging) evAging 100 = false := by decide +kernel

/-- A ready task with a parameter block in the Orangery, and no pre-emption. -/
def dispatchState : State :=
  setF (setF (orgWrite (owned { onState with tasks := [(1, some { taskOf 1 2 .waiting with body := { bodyOf 2 with plen := 2, param := 64, wreg := 5 } })] })
    64 (leBytes 8 0x1122334455667788 ++ leBytes 8 9)) fORG_ORGREADY_READY 0xFF) fGATE_DISPCFG_PREEN 0

theorem witness_TasksStart :
    let s := dispatchState
    let tk := { taskOf 1 2 .waiting with body := { bodyOf 2 with plen := 2, param := 64, wreg := 5 } }
    working s = true ∧ s.fatal = false ∧ isSet s fGATE_DISPCFG_PREEN = false ∧ chosen s = some (1, tk, [0]) ∧ isPreempted tk = false ∧
    plansIn s tk = false ∧ readWaits s 0 64 16 = false ∧ (readDev s 0 64 16 0).2.2 = 0 ∧ (readDev s 0 64 16 0).1.still = true := by decide +kernel

/-- The task of stream 0 is leaving; `w` says that its save has been written. -/
def leaveState (w : Bool) : State :=
  { setStr onState 0 { runStr with sregs := [(1, 77#32)], loops := [(2, 5)] } with
    tasks := [(0, some (taskOf 0 2 (.preempting 0 0 w none)))], slots := [⟨0, 0, 0, 0, 0⟩] }

/-- A pre-empted task may go on. -/
def resumeState : State :=
  setF { onState with
    tasks := [(0, some { taskOf 0 2 (.preempted 0 0) with saved := some ⟨{ runStr with sregs := [(1, 77#32)] }, [(0, keepCore onState 0)]⟩ })],
    slots := [⟨0, 0, 0, 0, 0⟩] } fORG_ORGREADY_READY 0xFF

theorem witness_TasksLeave :
    leaving (leaveState false) 0 = some (0, taskOf 0 2 (.preempting 0 0 false none), 0, false) ∧ working (leaveState false) = true ∧
    slotOff (leaveState false) 0 0 + 65536 ≤ sliceBytes ∧ commitBytes (getStr (leaveState false) 0) ≤ 16384 ∧
    leaving (leaveState true) 0 = some (0, taskOf 0 2 (.preempting 0 0 true none), 0, true) ∧
    working resumeState = true ∧ resumeState.fatal = false ∧ resumeState.still = true ∧
    (chosen resumeState).map (fun p => (p.1, p.2.2, p.2.1.saved.map (fun v => v.cores.map Prod.fst))) = some (0, [0], some [0]) := by decide +kernel

/-- A record of queue 0 waits to be written, and one of the error log. -/
def ringState : State :=
  setF (modQ { gateState with logQ := [{ LogEntry.blank with kind := 5 }] } 0 0 (fun x => { x with recs := [⟨4, 0, 1, 7, 5, 2, 0, 0, [], 0, 0, 3, 1, true, false, some 5, false⟩] }))
    fLOGRING_EN 1

theorem witness_RecordsReachTheirRings :
    let s := ringState
    working s = true ∧ s.fatal = false ∧ (getQ s 0 0).fetched = [] ∧
    (nextRec s (getQ s 0 0) (getQ s 0 0).recs false).map (fun r => (recSilent r, r.seqs)) = some (false, []) ∧ ringFull s 0 0 = false ∧
    ringFull (setF s (fCPLPTR_CPLTAIL 0 0) 64) 0 0 = true ∧ s.logQ.length = 1 ∧ isSet s fLOGRING_EN = true ∧
    (getF s fLOGPTR_TAIL + 2 ^ 32 - getF s fLOGPTR_HEAD) % 2 ^ 32 < logSize s ∧ isSet (setF s fLOGRING_EN 0) fLOGRING_EN = false ∧
    served s = true ∧ isSet gateState fLOGRING_EN = false ∧ servedAt s rTELRING = true ∧ isSet s fTELRING_EN = false := by decide +kernel

def stageOf (key order : Nat) : StageMsg := ⟨key, order, 0, 0x1005, 0, 0, 3, 2, 0, List.replicate 64 9#8, .op 4 3⟩

/-- A message of operation 4 waits at the input stage of creel 5, whose tail is `tl`. -/
def deliverState (c tl : Nat) : State :=
  setCreel (setF { setF onState (crlEN c) 1 with
    ops := [(4, ⟨.stream 0, 0, 2, 0, 0, false, false, false, 0, 0, [], [⟨3, .send c 0x1005 0 (List.replicate 64 9#8) 0, none, .sent⟩]⟩)] } (crlTAIL c) tl)
    c { Creel.reset with stage := [stageOf 3 7, stageOf 5 8], out := 96 }

theorem witness_CreelEntriesAreWrittenAtTail :
    (∀ p ∈ [(5, 0), (5, 4000), (5, 4032), (520, 64)],
      let s := deliverState p.1 p.2
      let x := getCreel s p.1
      working s = true ∧ s.still = true ∧ stageOf 3 7 ∈ x.stage ∧ stageReady s p.1 x.stage = true ∧
      crlHedged s p.1 = false ∧ ordered s = false ∧ x.stage.head? = some (stageOf 3 7) ∧ (x.stage.map StageMsg.order).Nodup ∧
      s.packets = [] ∧ crlS s p.1 = 4096 ∧ getF s (crlTAIL p.1) = p.2 ∧ getF s (crlMSGS p.1) = 0 ∧ getF s (crlOCC p.1) = 0) := by decide +kernel

/-- Host creel 520 is open with two entries and a grant request. -/
def creelState : State :=
  setCreel (setF (setF (setF (setF onState (crlEN 520) 1) (crlOCC 520) 192) (crlMSGS 520) 2) (crlPOOL 520) 3904)
    520 { Creel.reset with entries := [⟨0, 96, 0, 0, 1, 0⟩, ⟨96, 96, 0, 1, 1, 0⟩], requests := [⟨.own (.stream 2), 0x1208, 96, 4096⟩] }

theorem witness_CreelsOpenCloseAndGrant :
    served onState = true ∧ isSet onState (crlEN 520) = false ∧ isSet onState (crlQUIET 520) = true ∧
    isSet (setF onState (crlQUIET 520) 0) (crlQUIET 520) = false ∧ isSet creelState (crlEN 520) = true ∧ served creelState = true ∧
    (let s := setF (setF onState (crlQUIET 520) 0) (crlEN 520) 0
     (getCreel s 520).out = 0 ∧ crlTraffic s 520 = false ∧ isSet s (crlQUIET 520) = false) ∧
    tick (setF creelState fREFTICK_TICK 5) < (getCreel creelState 520).cleared + 100000 ∧
    crlS creelState 520 = 4096 ∧ getF creelState (crlOCC 520) = 192 ∧ getF creelState (crlTAIL 520) = 0 ∧ crlHedged creelState 520 = false ∧
    96 ≤ min 4096 (getF creelState (crlPOOL 520) - 256) ∧ min 4096 (getF (setF creelState (crlPOOL 520) 300) (crlPOOL 520) - 256) < 96 := by
  decide +kernel

/-- Stream 0 waits at a word, with the Belvedere on for context 0. -/
def belvState : State :=
  setF (setF (setF (setF (setStr onState 0 { runStr with st := .waiting, wait := .words [0] none none (0, 0, 0), bcnt := 8 }) fBELVCTL_EN 1)
    fBELVCTL_THRESH 9) (fBELVCTX_EN 0) 1) (fBELVCTX_ADDR 0) 5

theorem witness_TheBelvedereSamples :
    working belvState = true ∧ belvState.fatal = false ∧ isSet (setF onState fBELVCTL_EN 0) fBELVCTL_EN = false ∧ isSet belvState fBELVCTL_EN = true ∧
    (∀ c, c < 16 → isSet (setF belvState (fBELVCTX_EN 0) 0) (fBELVCTX_EN c) = false) ∧ isSet belvState (fBELVCTX_EN 0) = true ∧
    (∀ j, j < 16 → j ≠ 0 → isSet belvState (fBELVCTX_EN j) = false) ∧ streamsOf belvState 0 = [0] ∧ (getStr belvState 0).issued = false ∧
    blockedOn (getStr belvState 0) = 1 ∧ max 1 (getF belvState fBELVCTL_THRESH) = 9 ∧ taskList belvState = [] ∧
    (∀ m, m < 64 → 0 ∉ (getCore belvState m).handled) ∧ getF belvState (fBELVCTX_ADDR 0) ≠ 0 ∧
    due belvState evSample (100 * max 1 (getF belvState fBELVCTL_SAMPLE)) = true ∧
    due (noteAt belvState evSample) evSample (100 * max 1 (getF belvState fBELVCTL_SAMPLE)) = false := by decide +kernel

/-- An access of operation 4 waits at a sub-bank of slice 0, and packets wait at router 0 for link direction 0. -/
def bankState : State :=
  { onState with
    ops := [(4, ⟨.stream 0, 0, 2, 0, 0, false, false, false, 0, 0, [], [⟨0, .fe 0x1000 (.fill 7), none, .sent⟩]⟩)],
    bankq := [⟨0, 0, 2, 0, 0x1000, .fill 7, .remote 4, 0⟩],
    packets := [⟨4, 0, 0, 1, true, 0, 0, 1, 0, 0⟩, ⟨5, 0, 2, 1, false, 0, 0, 3, 0, 0⟩] }

theorem witness_SubBankGrantsAndHops :
    working bankState = true ∧ (let u := passCycles bankState 0 3
      subFree u 0 = true ∧ grantBank (amGet (fun _ => 0) u.bankRR 0) ((eligible 0 0 [] u.bankq).map .fe ++ turnsAt u 0) =
        some (.fe ⟨0, 0, 2, 0, 0x1000, .fill 7, .remote 4, 0⟩) ∧
      (findOp u 4).isSome = true ∧ metaOf u 0x1000 = .empty ∧ bankHedged u 0x1000 = false ∧ u.waiters = [] ∧
      ordered u = false ∧ u.still = true ∧ (eligible 0 1 [] u.bankq).map BankWant.fe ++ turnsAt u 1 = []) ∧
    bankState.slaRuns = [] ∧ headsFor bankState 0 7 = bankState.packets ∧
    amGet (fun _ => 0) bankState.outAt 0 = 0 ∧ (bankState.packets.all (inputFree bankState 7)) = true ∧
    getBit bankState (fORG_PLANMASK_MASK 0) 3 = false ∧ headsFor bankState 1 7 = [] ∧
    (let s := { bankState with packets := [⟨4, 0, 0, 1, true, 0, 0, 1, 0, 0⟩] }; headsFor s 0 3 = s.packets ∧
      getBit (setF s (fORG_PLANMASK_MASK 0) 8) (fORG_PLANMASK_MASK 0) 3 = true ∧
      bitsOf (getF (setF s (fORG_PLANOWN_OWNER 0) 0x1000) (fORG_PLANOWN_OWNER 0)) 15 12 = 1 ∧
      bitsOf (getF s (fORG_PLANOWN_OWNER 0)) 15 12 = 0) := by decide +kernel

theorem witness_SubBankGrantsAndHops_turn :
    (let u := passCycles (opState 0x1000) 0 3
     let key := 128 * orgSlice 0x1000 + 0x1000 / 32 % 128
     subFree u key = true ∧ grantBank (amGet (fun _ => 0) u.bankRR key) ((eligible 0 0 [] u.bankq).map .fe ++ turnsAt u key) = some (.xfer 0 3 3 5) ∧
       (match findOp u 3, shareOf u 3 5 with
        | some o, some x => (match turnOf u 3 o x with
          | some (p, _) => !(dropPieces p.2.2 (readyPieces u 3 o x)).isEmpty && orgAssigned p.1 && orgAssigned p.2.1 && decide (p.1 % 32 + p.2.2 ≤ 32) &&
              decide (p.2.1 % 32 + p.2.2 ≤ 32) && !(orgHedged u p.1 p.2.2) && !(orgHedged u p.2.1 p.2.2)
          | none => false)
        | _, _ => false) = true ∧ u.orgErr = [] ∧ u.still = true) ∧ working { opState 0x1000 with lodge := onState.lodge } = true := by decide +kernel

theorem witness_SubBankGrantsAndHops_credit :
    bankState.packets.all (hasCredit bankState 0) = true ∧
    ∃ l, hasCredit { bankState with packets := l } 0 ⟨4, 0, 0, 1, true, 0, 0, 1, 0, 0⟩ = false := by
  refine ⟨by simp [bankState, hasCredit, linkEnds], List.replicate (Config.promDepth + 1) ⟨9, 0, 0, 1, false, 1, 2, 1, 0, 0⟩, ?_⟩
  simp [hasCredit, linkEnds, inputOf]

theorem witness_OrangeryWordsAreScrubbedAndSet :
    (let s := setF onState fORG_SCRUBCTL_EN 1; working s = true ∧ isSet s fORG_SCRUBCTL_EN = true ∧ s.orgErr = [] ∧
      orgScrubDue s 1 = true ∧ accessFree s 1 0 = true ∧ accessFree (upsetWords s 1 [(2, false)]) 1 0 = true ∧
      isSet (setF s fORG_SCRUBCTL_EN 0) fORG_SCRUBCTL_EN = false) ∧
    (let s := { onState with orgErr := [(0x2000008, 1)], orgWb := [0x2000008] }; s.orgWb.find? (fun a => orgSlice a == 1) = some 0x2000008 ∧
      s.orgWb.find? (fun a => orgSlice a == 2) = none ∧ accessFree s 1 0 = true ∧ orgErrAt s 0x2000008 = 1 ∧ amWf (fun _ => 0) s.orgErr = true) ∧
    (let s := setF onState fORG_MDADDR_ADDR 0x200; served s = true ∧ orgAssigned (getF s fORG_MDADDR_ADDR * 8) = true ∧ bankHedged s 0x1000 = false ∧
      s.still = true ∧ s.waiters = [] ∧ watchers s = [] ∧ bankHedged (setF s (fSLC_BANKHEDGE_HEDGED 0) 1) 0x1000 = true) ∧
    orgAssigned (getF (setF onState fORG_MDADDR_ADDR 0x300000) fORG_MDADDR_ADDR * 8) = false ∧
    getBit onState fORG_ORGREADY_READY 3 = false ∧ hedgedAt onState 4 3 = false ∧ onState.canonical = true ∧
    getBit (setF onState fORG_ORGREADY_READY 8) fORG_ORGREADY_READY 3 = true := by decide +kernel

/-- Stack 3 works. -/
def stackState : State := setF (setF onState fSLA_READY_MAP 8) fSLA_SCRUBCTL_EN 1

theorem witness_DramStacksTendThemselves :
    working stackState = true ∧ isSet stackState fSLA_SCRUBCTL_EN = true ∧ isSet (setF onState fSLA_SCRUBCTL_EN 0) fSLA_SCRUBCTL_EN = false ∧
    dramScrubDue stackState 3 = true ∧ stackState.dramErr = [] ∧ getF stackState (fSTK_SCRUBPOS_NEXT 3) = 0 ∧
    (∀ pc, pc < 64 → dramFails stackState (blockDpa 3 pc 0) = false ∧ dramWaits stackState (blockDpa 3 pc 0) = false) ∧
    (let s := { stackState with dramWb := [0x3000], dramErr := [(0x3000, 1)] }; s.dramWb.find? (fun d => dpaStack d == 3) = some 0x3000 ∧
      dramErrAt s 0x3000 = 1) ∧
    hedgedAt stackState 5 195 = false ∧ hedgedAt { stackState with hedges := [⟨5, 195, false, false, false, 0, [], 0, 0⟩] } 5 195 = true ∧
    stackState.lodge.dramSpares = [] ∧ getF stackState (fSTK_LINKSTAT_SPUP 3) < 8 ∧ 3 ∉ stackState.lodge.linkWait ∧
    stackReady stackState 3 = true ∧ stackReady stackState 4 = false ∧ stackHedged stackState 4 = false ∧ stackState.canonical = true := by
  decide +kernel

/-- Operation 4 of stream 0 waits for its request, which holds `b`, to be checked. -/
def requestState (b : List Byte) (st : ShareState) (body : List Byte) : State :=
  setF { orgWrite stackState 0x2000 b with
    ops := [(4, ⟨.stream 0, 0, 2, 0, 0, false, false, false, 0, 0, [], [⟨0, .slath 0x2000 64 0x3000 128 body, some 0x1000, st⟩]⟩)] } (fSLA_CTXMEM_PRIV 0) 1

/-- An array sum of four elements of stack 3. -/
def sumBytes : List Byte := leBytes 1 9 ++ List.replicate 7 0#8 ++ leBytes 8 0x2003000000000 ++ List.replicate 16 0#8 ++ leBytes 4 4 ++ List.replicate 28 0#8

def unitOf (st : Nat) (vals : List (Int × Bool)) : WUnit := ⟨4, 0, 0, 0, 3, 2, 0, st, 0, 2, vals, []⟩

def unitState (st : Nat) : State :=
  { requestState sumBytes .sent sumBytes with units := [unitOf st [(1, false), (2, false), (3, false), (4, false)]], slaRuns := [⟨4, 0, [SubRun.fresh (readSub sumBytes)], none, [], false⟩] }

theorem witness_SlathRequestsRunInUnits :
    (∀ b ∈ [sumBytes, List.replicate 64 0#8],
      let s := requestState b (.waiting 0) b
      working s = true ∧ s.fatal = false ∧ s.still = true ∧ (findOp s 4).isSome = true ∧ s.orgErr = [] ∧ metaOf s 0x1000 = .empty ∧
      bankHedged s 0x1000 = false ∧ s.waiters = [] ∧ ordered s = false ∧ slaRunOf s 4 0 = none ∧ orgHedged s 0x2000 64 = false ∧ s.units = [] ∧ watchers s = []) ∧
    firstCheck (requestState (List.replicate 64 0#8) (.waiting 0) (List.replicate 64 0#8)) 0 (readSub (List.replicate 64 0#8)) ≠ 0 ∧
    (let s := requestState sumBytes (.waiting 0) sumBytes
     let r := readSub sumBytes
     sumBytes.length = 64 ∧ r.daddr < 2 ^ 52 ∧ firstCheck s 0 r = 0 ∧ r.op = 9 ∧ spaceOf r.daddr = 2 ∧ r.daddr % 4096 + 4 * r.cnt0 ≤ 4096 ∧ bitsOf r.daddr 47 41 = 0 ∧
      bitsOf r.daddr 35 0 < stackBytes) ∧
    (let s := unitState 0
     nextUnit s 3 = some (unitOf 0 [(1, false), (2, false), (3, false), (4, false)]) ∧ nextUnit s 2 = none ∧ s.dramErr = [] ∧ dramFails s 0x3000 = false ∧ dramWanted s 3 (workClass s 4) = false) ∧
    (let s := unitState 1
     s.units.find? (fun v => v.stack == 3 && v.st == 1) = some (unitOf 1 [(1, false), (2, false), (3, false), (4, false)]) ∧ orgHedged s 0x3000 64 = false ∧
      s.lodge.linkWait.contains 3 = false ∧ working s = true ∧ s.still = true) ∧
    (let p : PromPkt := ⟨4, 0, 2, 0, false, 3, 5, 0, 0, 0⟩
     let s := { unitState 2 with packets := [{ p with at_ := 0, inp := 4 }], slaRuns := (unitState 2).slaRuns.map (fun r => { r with sent := true }) }
     nextOut { p with at_ := 0, inp := 4 } = 224 ∧ amGet (fun _ => 0) s.outAt 224 ≠ s.frame + 2 + 1 ∧ inputFree s (s.frame + 2) { p with at_ := 0, inp := 4 } = true ∧
      s.units.length = 1 ∧ s.slaRuns.length = 1 ∧ working s = true ∧ s.fatal = false ∧ s.still = true) := by decide +kernel

/-- Context 0 translates a 2 MiB page: tables at 0x10000 and 0x11000 of stack 16 and 17, leaf in a table at 0x12000. -/
def walkState : State :=
  setF (setF (setF (dramWrite (dramWrite (dramWrite onState 0x10000 (leBytes 8 0x11001)) 0x11000 (leBytes 8 0x12001)) 0x12000 (leBytes 8 0x20001F))
    fSLA_READY_MAP 0xFFFFFFFF) (fSLA_CTXMEM_EN 0) 1) (fSLA_CTXMEM_ROOT 0) 0x10

theorem witness_AddressesAreTranslated :
    let s := walkState
    working s = true ∧ tlbHit s.slaTlb 0 0x1234 = none ∧ isSet s (fSLA_CTXMEM_EN 0) = true ∧ isSet s (fSLA_CTXMEM_EN 1) = false ∧ s.dramErr = [] ∧
    (∀ a ∈ [0x10000, 0x11000, 0x12000], dramWaits s a = false ∧ dramFails s a = false) ∧
    leVal (dramRead s 0x10000 8) = 0x11001 ∧ leVal (dramRead s 0x11000 8) = 0x12001 ∧ leVal (dramRead s 0x12000 8) = 0x20001F ∧
    pteBad 0 0x11001 = false ∧ pteBad 1 0x12001 = false ∧ pteBad 2 0x20001F = false ∧ s.slaTlb.length < 4096 ∧
    (tlbHit [⟨0, 0, 2 ^ 21, 0x200000, true, true, none⟩] 0 0x1234).isSome = true ∧
    served s = true ∧ isSet s fSLA_INVALSTAT_BUSY = false ∧ isSet (setF s fSLA_INVALSTAT_BUSY 1) fSLA_INVALSTAT_BUSY = true := by decide +kernel

/-- A descriptor of a chain: one run of 64 bytes from 0x1000 to 0x2000, or a FILL. -/
def descOf (op flags next : Nat) : Desc := ⟨next, op, flags, 3, 0x1000, 0x2000, 64, 1, 1, 1, [0, 0, 0], [0, 0, 0], 0, 0⟩

def chanOf (st : ChanSt) (addr : Nat) (d : Option Desc) : Chan := { Chan.reset with st := st, ctx := 0, q := 0, cmd := 7, addr := addr, desc := d }

/-- Channel 3 carries a chain of queue 0. -/
def chanState (c : Chan) : State :=
  setChan (modQ gateState 0 0 (fun x => { x with cmds := [⟨7, 0, 9, 5, 0, 0, [], some 3, none, 0⟩] })) 3 c

theorem witness_DmaChainsRun :
    (let s := chanState (chanOf .fetching 0x1000 none); working s = true ∧ s.still = true ∧ s.orgErr = [] ∧ orgAssigned 0x1000 = true ∧
      orgHedged s 0x1000 128 = false ∧ (getQ s 0 0).cmds.length = 1) ∧
    (let s := chanState (chanOf .fetching 0x8000000001000 none); s.still = true ∧ spaceOf 0x8000000001000 = 8 ∧ 0x8000000001000 % 128 = 0) ∧
    (descOf 0 0 0).overlaps = false ∧ (descOf 1 0 0).overlaps = false ∧ (descOf 0 0 0).srcAt 0 = 0x1000 ∧ (descOf 0 0 0).dstAt 0 = 0x2000 ∧ runPorts (descOf 0 0 0) = [] ∧ runPorts (descOf 1 0 0) = [] ∧
    (let s := chanState (chanOf .running 0x3000 (some (descOf 0 1 0))); getF s (fDMA_REQ_KIND 3) = 0 ∧ getF s (fDMA_REQ_PEND 3) = 0 ∧
      bitOf (descOf 0 1 0).flags 0 = true ∧ s.waiters = [] ∧ s.bankq = [] ∧ orgHedged s 0x1000 64 = false ∧ orgHedged s 0x2000 64 = false) ∧
    (let s := chanState (chanOf .running 0x3000 (some (descOf 0 0 0))); nextChan s = some 3 ∧ (chanReady s 3).isSome = true ∧
      outranked s (chanPoint s 3) 0 7 (runPlaces s 3 (descOf 0 0 0)) = false ∧
      (runPlaces s 3 (descOf 0 0 0)).all (fun p => subFree s p) = true ∧ runPackets s 3 (descOf 0 0 0) = [] ∧ runPackets s 3 (descOf 1 0 0) ≠ [] ∧
      nextChan (setChan s 4 { chanOf .running 0x3000 (some (descOf 0 0 0)) with cmd := 5 }) = some 4) ∧
    (let s := chanState (chanOf .ending 0x3000 (some (descOf 0 0 0x4000))); orgAssigned 0x3070 = true ∧ orgHedged s 0x3070 16 = false ∧
      descAddrOk 0x4000 = true ∧ (getChan s 3).stop = false) := by decide +kernel

theorem witness_DmaChannelsStopAndAreAsked :
    (let s := chanState (chanOf .fetching 0x1000 none); served s = true ∧ getF s (fDMA_REQ_KIND 5) = 0 ∧
      getF (setF s (fDMA_REQ_KIND 5) 1) (fDMA_REQ_KIND 5) = 1 ∧ (getQ s 0 0).cmds.map (fun x => (x.opcode, x.key)) = [(9, 7)] ∧
      chanAwaits s 4 = false ∧ (getChan s 4).st = .idle) ∧
    (let s := setPort onState 0 { Port.reset with txns := [⟨1, .dma 4 0, 0, 0, 0, [], [], false, none⟩] }
     chanAwaits s 4 = true ∧ tick s < (getChan s 4).endTick + 100000 ∧ (getChan s 4).endTick + 100000 ≤ tick (setF s fREFTICK_TICK 100000)) := by
  decide +kernel

def faultOf (fid : Option Nat) : PageFault := ⟨fid, 0, 0x10000, 0x10000, [.dma 3], 2, 1, 3, 0x1000000010000, 0, 0⟩

theorem witness_FaultsAreReportedAndAnswered :
    (let s := setF { onState with faults := [faultOf none] } fDMA_FLTRING_EN 1; working s = true ∧ s.faults.find? (fun g => g.fid.isNone) = some (faultOf none) ∧
      freeFid s = some 0 ∧ (getF s fDMA_FLTPTR_TAIL + 2 ^ 32 - getF s fDMA_FLTPTR_HEAD) % 2 ^ 32 < faultRing s) ∧
    (let s := { chanState (chanOf .faulted 0x3000 (some (descOf 0 0 0))) with faults := [faultOf (some 4096)], pri := [⟨5, .dma 3, true, none⟩] }
     served s = true ∧ s.still = true ∧ (getChan s 3).st = .faulted ∧ (getChan s 3).idx < (descOf 0 0 0).runs ∧ isSet s (fCTXCTL_YK8 0) = false) ∧
    onState.faults = [] ∧ onState.pri = [] ∧ runReadsHost onState 3 = false ∧
    runReadsHost (chanState (chanOf .running 0x3000 (some { descOf 0 0 0 with src := 0x8000000000000 }))) 3 = true ∧
    shareReadsHost onState 4 3 = false ∧
    shareReadsHost { onState with ops := [(4, ⟨.stream 0, 0, 2, 0, 0, false, false, false, 0, 0, [],
      [⟨3, .sload ⟨0x8000000000000, 0x1000, 1, 32, 0, 0⟩, none, .waiting 0⟩]⟩)] } 4 3 = true := by decide +kernel

/-- Wicket 5 may be opened: its window lies in host memory. -/
def wicketState : State := setF onState (fWKBASE_BASE 5) 0x8000000000

theorem witness_WicketsOpenAndClose :
    served wicketState = true ∧ isSet wicketState (fWKCTL_EN 5) = false ∧ isSet wicketState (fWKCTL_QUIET 5) = true ∧ spaceOf (wkBase wicketState 5) = 8 ∧
    isSet (setF wicketState (fWKCTL_QUIET 5) 0) (fWKCTL_QUIET 5) = false ∧ isSet (setF wicketState (fWKCTL_EN 5) 1) (fWKCTL_EN 5) = true ∧
    (getWk wicketState 5).requests = [] ∧ ((getWk wicketState 5).granted.map Prod.snd).sum = 0 ∧
    (let s := setWk wicketState 5 { Wicket.reset with granted := [(2, 512)] }
     ¬ (((getWk s 5).granted.map Prod.snd).sum = 0 ∨ (getWk s 5).closed + 100000 ≤ tick s)) := by decide +kernel

/-- Port 2 is active; it holds one flit for replay. -/
def portState2 : State :=
  setPort (setF (setF onState (fLNKSTAT_STATE 2) 6) (fLANEMAP_ACTIVE 2) 0xFFFF) 2 { Port.reset with txSeq := 1, buf := [⟨0, 1, false, 0, 0, 0, [8#8], 0⟩] }

/-- A flit of 256 bytes with its CRC. -/
def wireFlit (seq flags sop : Nat) (payload : List Byte) : List Byte :=
  let body := leBytes 2 seq ++ leBytes 2 65535 ++ leBytes 1 flags ++ leBytes 4 0 ++ leBytes 0 0 ++ List.replicate 0 0#8 ++ leBytes 1 0 ++ leBytes 2 0 ++ padTo 240 payload
  let body := body.take 8 ++ leBytes 1 sop ++ body.drop 9
  body ++ leBytes 4 (crc32 body)

theorem witness_FlitsAreReceived :
    let s := setF (setF (setF onState (fLNKSTAT_STATE 2) 6) (fLNKSESS_LINKID 2) 0) (fLANEMAP_ACTIVE 2) 0xFFFF
    awake s = true ∧ s.still = true ∧ minLanes s 2 ≤ activeLanes s 2 ∧ portRuns s 2 = true ∧ portRuns s 3 = false ∧ (getPort s 2).txq = [] ∧ (getPort s 2).lanes = [] ∧ (getPort s 2).buf = [] ∧
    (getPort s 2).rxSeq = 65535 ∧ (readFlit []).crcOk = false ∧
    (let f := readFlit (wireFlit 0 8 15 []); f.crcOk = true ∧ f.linkid = 0 ∧ f.nak = false ∧ f.credit = 0 ∧ f.seq = 0 ∧ f.idle = false ∧ f.ctrl = true) ∧
    (let f := readFlit (wireFlit 0 1 0 [8#8]); f.crcOk = true ∧ f.seq = 0 ∧ f.ctrl = false ∧ f.vc = 1 ∧ f.sop = 0 ∧
      (parsePkts 1 16 f.payload).2.2 = true ∧ (parsePkts 1 16 f.payload).1.length = 1) ∧
    (readFlit (wireFlit 7 8 15 [])).seq = 7 := by decide +kernel

theorem witness_FlitsAreSentAgain :
    let on_ := fun (f : Port → Port) => setF (modPort portState2 2 f) fREFTICK_TICK 5000
    portRuns (on_ id) 2 = true ∧ minLanes (on_ id) 2 ≤ activeLanes (on_ id) 2 ∧ (on_ id).still = true ∧ (getPort (on_ id) 2).buf ≠ [] ∧ (getPort (on_ id) 2).progress + 1600 ≤ tick (on_ id) ∧
    (getPort (on_ (fun x => { x with replays := 8 })) 2).replays = 8 ∧ (getPort (on_ (fun x => { x with nakIn := some 0 })) 2).nakIn = some 0 ∧
    (getPort (on_ (fun x => { x with nakd := true })) 2).nakTick + 400 ≤ 5000 ∧ (getPort (on_ (fun x => { x with owes := true })) 2).sentAt + 20 ≤ 5000 ∧
    (getPort (on_ id) 2).owes = false ∧ (∀ n ∈ (getPort (on_ id) 2).owed, n = 0) ∧ tick portState2 < (getPort portState2 2).progress + 1600 := by
  decide +kernel

/-- A header of the peer for wicket 5, or for the transaction of tag 7. -/
def hdrOf (ty off sub len : Nat) : Hdr := ⟨ty, 64, 0, 0, 5, 7, off, sub, len⟩

/-- Port 2 holds one packet; wicket 5 is open to it at Orangery address 0x1000, with credit for 512 bytes. -/
def heardState (k : Pkt) : State :=
  let s := setF (setF onState (fWKCTL_EN 5) 1) (fWKCTL_PERM 5) 15
  let s := setF (setF (setF s (fWKPEER_PORTS 5) 4) (fWKPEER_PCTX 5) 1) (fWKBASE_BASE 5) 1
  let s := setWk (setF (setF s (fWKSIZE_PAGES 5) 2) (fWKPOOL_POOL 5) 8192) 5 { Wicket.reset with granted := [(2, 512)] }
  setPort s 2 { Port.reset with rxq := [⟨k, 1⟩] }

theorem witness_RequestsOfAPeerArePerformed :
    (let k : Pkt := ⟨hdrOf 1 0x40 0 8, leBytes 8 77⟩
     let s := heardState k
     working s = true ∧ s.fatal = false ∧ s.still = true ∧ vcHead s 2 2 = some ⟨k, 1⟩ ∧ vcHead s 2 0 = none ∧ (getPort s 2).txq = [] ∧ (getPort s 2).lanes = [] ∧
      wicketCheck s 2 k.hdr 1 8 true = 0 ∧ inWindow s 2 k.hdr = .out ∧ orgAssigned 0x1040 = true ∧ orgHedged s 0x1040 8 = false ∧ wkBase s 5 = 0x1000 ∧
      portGranted (getWk s 5) 2 = 512 ∧ vcCredit s 2 1 = 0 ∧ portUp s 2 = false ∧ s.orgErr = [] ∧
      wicketCheck s 2 { k.hdr with handle := 6 } 1 8 true = 1 ∧ wicketCheck s 2 { k.hdr with handle := 4101 } 1 8 true = 2 ∧
      wicketCheck s 3 k.hdr 1 8 true = 3 ∧ wicketCheck s 2 k.hdr 1 8 false = 4 ∧ wicketCheck s 2 { k.hdr with off := 8185 } 1 8 true = 5) ∧
    (let k : Pkt := ⟨hdrOf 1 0x40 0 8, leBytes 8 77⟩
     let s := setF (setF (setF (setF (setF (heardState k) (fRWCTL_EN 2 1) 1) (fRWCTL_WKT 2 1) 5) (fRWBASE_VALUE 2 1) 8) (fRWLEN_VALUE 2 1) 8) (fRWCNT_VALUE 2 1) 32
     let s := setWord s 0x1100 (2 ^ 16)
     inWindow s 2 k.hdr = .win 1 ∧ s.orgErr = [] ∧ orgHedged s 0x1040 8 = false ∧ s.waiters = [] ∧ s.tasks = [] ∧ wkBase s (getF s (fRWCTL_WKT 2 1)) + winCnt s 2 1 = 0x1100 ∧ seenMeta s 0x1100 = .empty ∧
      cntCount (wordVal s 0x1100) + 1 ≤ cntCap (wordVal s 0x1100)) ∧
    (let k : Pkt := ⟨hdrOf 2 0x40 0 100, []⟩
     let s := setF (setF (heardState k) (fLNKSTAT_STATE 2) 6) (fVCCRED_CRED 2) (5 * 2 ^ 16)
     vcHead s 2 0 = some ⟨k, 1⟩ ∧ portUp s 2 = true ∧ vcCredit s 2 1 = 5 ∧ wicketCheck s 2 k.hdr 0 100 true = 0) ∧
    (let k : Pkt := ⟨hdrOf 5 0x40 3 16, leBytes 16 9⟩
     let s := heardState k
     vcHead s 2 0 = some ⟨k, 1⟩ ∧ wicketCheck s 2 k.hdr 2 8 true = 0 ∧ spaceOf 0x1040 = 0) := by decide +kernel

theorem witness_MessagesOfAPeer :
    (let k : Pkt := ⟨hdrOf 7 0x0 0 32, leBytes 32 9⟩
     let s := setF (setF (heardState k) (crlEN 3) 1) (fCRLCFG_BASE 0 0 3) 1
     vcHead s 2 2 = some ⟨k, 1⟩ ∧ crlBase s 3 = 0x1000 ∧ crlAt s 0 0x1000 = some 3 ∧ wicketCheck s 2 k.hdr 3 32 true = 0 ∧
      amGet (fun _ => 0) (getCreel s 3).peers 2 = 0 ∧ amGet (fun _ => 0) (getCreel (setCreel s 3 { Creel.reset with peers := [(2, 64)] }) 3).peers 2 = 64 ∧
      crlAt s 0 0x1040 = none) ∧
    (let k : Pkt := ⟨hdrOf 9 0x0 1 4, leBytes 4 5000⟩
     let s := heardState k
     vcHead s 2 0 = some ⟨k, 1⟩ ∧ leVal (k.body.take 4) = 5000 ∧ (getWk s 5).requests = [] ∧ getF s (fWKPOOL_POOL 5) = 8192 ∧
      min (roundUp 5000 256) (8192 / 256 * 256) = 5120 ∧ min (roundUp 5000 256) (1024 / 256 * 256) = 1024) := by decide +kernel

/-- Port 2 has sent a share of operation 4 under tag 7, and holds one reply. -/
def askedState (k : Pkt) (so : ShareOp) (t0 : Txn) : State :=
  let s := setPort onState 2 { Port.reset with rxq := [⟨k, 1⟩], txns := [t0] }
  { s with ops := [(4, ⟨.stream 0, 0, 2, 0, 0, false, false, false, 0, 0, [], [⟨3, so, some 0x2000, .sent⟩]⟩)] }

theorem witness_RepliesOfAPeerEndTransactions :
    (let q : Xfer := ⟨0x9000000000000, 0x1000, 1, 32, 0, 0⟩
     let k : Pkt := ⟨hdrOf 3 0 0 32, leBytes 32 9⟩
     let t0 : Txn := ⟨7, .share 4 3, 0, 32, 0, [⟨0, 32, 0x1000⟩], [], false, none⟩
     let s := askedState k (.sload q) t0
     working s = true ∧ s.fatal = false ∧ s.still = true ∧ s.orgErr = [] ∧ s.packets = [] ∧ ordered s = false ∧ s.waiters = [] ∧ s.tasks = [] ∧
      vcHead s 2 1 = some ⟨k, 1⟩ ∧ findTxn s 2 7 = some t0 ∧ (findOp s 4).isSome = true ∧ orgAssigned 0x2000 = true ∧ metaOf s 0x2000 = .empty ∧
      bankHedged s 0x2000 = false ∧ placeOf t0 0 = some 0x1000 ∧ orgHedged s 0x1000 32 = false ∧ findTxn onState 2 7 = none) ∧
    (∀ ty ∈ [4, 6, 8, 10], vcHead (askedState ⟨hdrOf ty 0 0 1, leBytes 8 4096⟩ (.sstore ⟨0x1000, 0x9000000000000, 1, 32, 0, 0⟩)
      ⟨7, .share 4 3, 0, 1, 0, [], [], false, none⟩) 2 1 = some ⟨⟨hdrOf ty 0 0 1, leBytes 8 4096⟩, 1⟩) ∧
    (let t0 : Txn := ⟨2 ^ 24 + 7, .wicketCredit 5, 5, 1, 0, [], [], false, none⟩
     let s := askedState ⟨hdrOf 10 0 1 8, leBytes 8 4096⟩ (.fe 0x9000000000000 (.count 1)) t0
     findTxn s 2 (2 ^ 24 + 7) = some t0 ∧ replyKey (hdrOf 10 0 1 8) = 2 ^ 24 + 7 ∧ replyKey (hdrOf 3 0 0 32) = 7 ∧ (∀ u ∈ (getPort s 2).txns, u.wk = 5 → u.todo = []) ∧ leVal ((leBytes 8 4096).take 4) = 4096) := by decide +kernel

/-- Port 2 is enabled and trains; its lantern is ready, two of its lasers in service. -/
def trainState (st : Nat) : State :=
  let s := setF (setF (setF (setF onState (fLNKSTAT_STATE 2) st) (fLNKCTL_EN 2) 1) (fLANCTL_EN 2) 1) (fLANSTAT_STATE 2) 4
  setF (setF s (fLASER_STATE 2 0) 1) (fLASER_STATE 2 3) 1

theorem witness_TrainingRunsThroughItsStates :
    (let s := modLan (setF (trainState 1) (fLANSTAT_STATE 2) 3) 2 (fun x => { x with mem := List.replicate 512 0#8 })
     awake s = true ∧ s.fatal = false ∧ getF s (fLANSTAT_STATE 2) = 3 ∧ portState s 2 = 1 ∧ (getLan s 2).mem.length = 512 ∧ laserInService s 2 3 = true ∧ laserInService s 2 4 = false ∧
      isSet s (fLANSTAT_KNOWN 2) = false ∧
      (let s' := { setF s (fLANSTAT_KNOWN 2) 1 with lodge := { s.lodge with calib := [(2, List.replicate 16 0#8, [], 5)] } }
       isSet s' (fLANSTAT_KNOWN 2) = true ∧ storedCal s' 2 = some ([], 5))) ∧
    portState (trainState 2) 2 = 2 ∧ portState (trainState 3) 2 = 3 ∧ portState (trainState 4) 2 = 4 ∧ portState (trainState 5) 2 = 5 ∧
    ([⟨5, 1, 100, 30000⟩] : List RingLock)[0]? = some ⟨5, 1, 100, 30000⟩ ∧
    (∀ l : Fin 16, getBit (trainState 3) (fLANEMAP_HEDGED 2) l = (trainState 3).hedges.any (fun h => h.cls == 7 && h.res % 128 == 2 + 8 * l.val)) ∧
    (getPort (trainState 3) 2).attempts = 0 ∧ (getPort (trainState 3) 2).quick = false ∧ (getPort (trainState 3) 2).txq = [] ∧
    (getPort (trainState 4) 2).lanes = [] ∧ (getPort (trainState 4) 2).ctlq = [] ∧ (getPort (trainState 4) 2).nakIn = none ∧ hedgedAt (trainState 3) 8 2 = false ∧ lanternHedged (trainState 3) 2 = false ∧ (getPort (trainState 5) 2).undrain = false ∧
    isSet (trainState 5) (fLNKCTL_DRAIN 2) = false ∧
    (getPort (modPort (trainState 4) 2 (fun x => { x with quick := true, buf := [⟨0, 1, false, 0, 0, 0, [8#8], 0⟩] })) 2).quick = true ∧
    (getPort (modPort (trainState 4) 2 (fun x => { x with attempts := 2 })) 2).attempts = 2 ∧
    ([(7 : Fin 18)] : List (Fin 18))[0]? = some 7 := by decide +kernel

theorem witness_PortsRetrain :
    (let s := trainState 6
     s.fatal = false ∧ awake s = true ∧ served s = true ∧ portState s 2 = 6 ∧ s.still = true ∧ (getPort s 2).txns = [] ∧
      (∀ k : Fin 16, (getStr s k).wait = .none_) ∧ isSet s (fLNKCTL_EN 2) = true ∧ portHedged s 2 = false ∧ isSet (setF onState (fLNKCTL_EN 2) 0) (fLNKCTL_EN 2) = false ∧
      portState onState 2 = 0) ∧
    (let s := setF { trainState 7 with hedges := [⟨8, 2, true, false, false, 0, [], 0, 0⟩] } fREFTICK_TICK 6000000000
     isSet s (fLNKCTL_EN 2) = true ∧ getF s (fLANSTAT_STATE 2) = 4 ∧ portState s 2 = 7 ∧ lanternHedged s 2 = false ∧
      (getPort s 2).tries + 6000000000 ≤ tick s ∧ hedgeOf s 8 2 = some ⟨8, 2, true, false, false, 0, [], 0, 0⟩) := by decide +kernel

/-- Port 2 is active with lanes 0 and 1 in the stripe. -/
def lanesState : State := setF (setF (trainState 6) (fLANEMAP_ACTIVE 2) 3) (fLNKCTL_MINLANES 2) 1

theorem witness_LanesAndDrainsOfAPort :
    (let s := lanesState
     s.fatal = false ∧ awake s = true ∧ working s = true ∧ served s = true ∧ s.still = true ∧ hedgedAt s 8 2 = false ∧ lanternHedged s 2 = false ∧ minLanes s 2 < activeLanes s 2 ∧
      (let u := setF s (fLNKCTL_MINLANES 2) 2; activeLanes u 2 = minLanes u 2) ∧ amGet (fun _ => ([] : List Byte)) (getPort s 2).rxPart 1 = [] ∧ portUp s 2 = true ∧ portUp (trainState 3) 2 = false ∧ s.ops = [] ∧
      (∀ k : Fin 16, (getStr s k).wait = .none_) ∧ (∀ ch : Fin 64, (getChan s ch).heldAt = none) ∧ getBit s (fLANEMAP_ACTIVE 2) 0 = true ∧
      getBit s (fLANEMAP_ACTIVE 2) 2 = false ∧ isSet s (fLNKCTL_DRAIN 2) = false ∧ isSet (setF s (fLNKCTL_DRAIN 2) 1) (fLNKCTL_DRAIN 2) = true ∧
      (getPort s 2).lanes = [] ∧ (getPort s 2).nakIn = none ∧ (getPort s 2).ctlq = [] ∧ (getPort s 2).buf = [] ∧ getF s (fLNKSESS_LINKID 2) = 0 ∧ (getPort s 2).rxSeq = 65535 ∧
      ([⟨5, 11, 0⟩] : List LaneMeas)[0]? = some ⟨5, 11, 0⟩ ∧ amGet (fun _ => 0) [(0, 2)] 0 = 2) ∧
    (let f := readFlit (wireFlit 0 1 15 []); f.crcOk = true ∧ f.linkid = 0 ∧ f.nak = false ∧ f.credit = 0 ∧ f.seq = 0 ∧ f.idle = false ∧ f.ctrl = false ∧ f.vc = 1 ∧ f.sop = 15) ∧
    (let q : Xfer := ⟨0x9200000000000, 0x1000, 1, 32, 0, 0⟩
     let s := setF (setF (setF { lanesState with ops := [(4, ⟨.stream 0, 0, 2, 0, 0, false, false, false, 0, 0, [], [⟨3, .sload q, some 0x2000, .waiting 0⟩]⟩)] } (fLNKCTL_DRAIN 2) 1)
       (fLNKCTL_HOLDTO 2) 1) fREFTICK_TICK 100001
     spaceOf q.src = 9 ∧ peerPort q.src = 2 ∧ s.still = true ∧ portHolds s 2 = true ∧ getF s (fLNKCTL_HOLDTO 2) = 1 ∧ 0 + 1 * 100000 < tick s ∧ s.packets = [] ∧
      orgAssigned 0x2000 = true ∧ s.waiters = [] ∧ s.tasks = [] ∧ metaOf s 0x2000 = .empty ∧ bankHedged s 0x2000 = false) ∧
    (let s := modPort lanesState 2 (fun x => { x with rings := [(0, ⟨0, 1, 1, 0, false, 9⟩)], testing := [1] })
     512 < (sext 32 (4096 * 4096 / max 4096 1 % 2 ^ 32) - 0).natAbs ∧ (amGet (fun _ => (⟨0, 0, 1, 0, false, 0⟩ : Ring)) (getPort s 2).rings 0).off = 9 ∧
      (getPort s 2).testing.contains 0 = false ∧ (getPort s 2).testing.contains 1 = true ∧ getBit s (fLANEMAP_HEDGED 2) 1 = false ∧
      due s (evRing 2 0) 1000 = true ∧ due s (evLanes 2) 100000000 = true ∧ due (noteAt s (evRing 2 0)) (evRing 2 0) 1000 = false) := by decide +kernel

/-- A good identity memory: 18 lasers at the frequencies of R511, BINIT 1000, the first copy of the usage record valid, 16 lasers in
service. -/
def lanternMem : List Byte :=
  [76#8, 78#8, 84#8, 78#8, 1#8, 18#8, 0#8, 0#8, 0#8, 0#8, 0#8, 0#8, 0#8, 0#8, 0#8, 0#8, 0#8, 0#8, 0#8, 0#8, 0#8, 0#8, 0#8, 0#8, 0#8, 0#8, 0#8, 0#8, 0#8, 0#8, 0#8, 0#8] ++
  [0#8, 0#8, 0#8, 0#8, 0#8, 0#8, 0#8, 0#8, 0#8, 0#8, 0#8, 0#8, 0#8, 0#8, 0#8, 0#8, 0#8, 2#8, 0#8, 0#8, 0#8, 0#8, 0#8, 0#8, 0#8, 0#8, 0#8, 0#8, 0#8, 0#8, 0#8, 0#8] ++
  [192#8, 40#8, 160#8, 13#8, 0#8, 54#8, 163#8, 13#8, 64#8, 67#8, 166#8, 13#8, 128#8, 80#8, 169#8, 13#8, 192#8, 93#8, 172#8, 13#8, 0#8, 107#8, 175#8, 13#8, 64#8, 120#8, 178#8, 13#8, 128#8, 133#8, 181#8, 13#8] ++
  [192#8, 146#8, 184#8, 13#8, 0#8, 160#8, 187#8, 13#8, 64#8, 173#8, 190#8, 13#8, 128#8, 186#8, 193#8, 13#8, 192#8, 199#8, 196#8, 13#8, 0#8, 213#8, 199#8, 13#8, 64#8, 226#8, 202#8, 13#8, 128#8, 239#8, 205#8, 13#8] ++
  [192#8, 252#8, 208#8, 13#8, 0#8, 10#8, 212#8, 13#8, 0#8, 0#8, 0#8, 0#8, 0#8, 0#8, 0#8, 0#8, 0#8, 0#8, 0#8, 0#8, 0#8, 0#8, 0#8, 0#8, 0#8, 0#8, 0#8, 0#8, 0#8, 0#8, 0#8, 0#8] ++
  [0#8, 0#8, 0#8, 0#8, 0#8, 0#8, 0#8, 0#8, 0#8, 0#8, 0#8, 0#8, 232#8, 3#8, 232#8, 3#8, 232#8, 3#8, 232#8, 3#8, 232#8, 3#8, 232#8, 3#8, 232#8, 3#8, 232#8, 3#8, 232#8, 3#8, 232#8, 3#8] ++
  [232#8, 3#8, 232#8, 3#8, 232#8, 3#8, 232#8, 3#8, 232#8, 3#8, 232#8, 3#8, 232#8, 3#8, 232#8, 3#8, 0#8, 0#8, 0#8, 0#8, 0#8, 0#8, 0#8, 0#8, 0#8, 0#8, 0#8, 0#8, 0#8, 0#8, 0#8, 0#8] ++
  [0#8, 0#8, 0#8, 0#8, 0#8, 0#8, 0#8, 0#8, 0#8, 0#8, 0#8, 0#8, 0#8, 0#8, 0#8, 0#8, 0#8, 0#8, 0#8, 0#8, 0#8, 0#8, 0#8, 0#8, 0#8, 0#8, 0#8, 0#8, 158#8, 157#8, 218#8, 254#8] ++
  [5#8, 0#8, 0#8, 0#8, 0#8, 0#8, 0#8, 0#8, 0#8, 0#8, 0#8, 0#8, 0#8, 0#8, 0#8, 0#8, 0#8, 0#8, 0#8, 0#8, 0#8, 0#8, 0#8, 0#8, 0#8, 0#8, 0#8, 0#8, 0#8, 0#8, 0#8, 0#8] ++
  List.replicate 32 0#8 ++
  [0#8, 0#8, 0#8, 0#8, 0#8, 0#8, 0#8, 0#8, 0#8, 0#8, 0#8, 0#8, 0#8, 0#8, 0#8, 0#8, 0#8, 0#8, 0#8, 0#8, 0#8, 0#8, 0#8, 0#8, 1#8, 1#8, 1#8, 1#8, 1#8, 1#8, 1#8, 1#8] ++
  [1#8, 1#8, 1#8, 1#8, 1#8, 1#8, 1#8, 1#8, 0#8, 0#8, 0#8, 0#8, 0#8, 0#8, 0#8, 0#8, 0#8, 0#8, 0#8, 0#8, 0#8, 0#8, 0#8, 0#8, 0#8, 0#8, 0#8, 0#8, 180#8, 164#8, 40#8, 134#8] ++
  [1#8, 0#8, 0#8, 0#8, 0#8, 0#8, 0#8, 0#8, 0#8, 0#8, 0#8, 0#8, 0#8, 0#8, 0#8, 0#8, 0#8, 0#8, 0#8, 0#8, 0#8, 0#8, 0#8, 0#8, 0#8, 0#8, 0#8, 0#8, 0#8, 0#8, 0#8, 0#8] ++
  List.replicate 32 0#8 ++
  List.replicate 32 0#8 ++
  List.replicate 32 0#8

/-- Bay 2 holds that lantern, ready, its first 16 lasers in service. -/
def litState : State :=
  let s := setLan (setF (setF (setF (setF onState (fLANSTAT_PRESENT 2) 1) (fLANSTAT_INTLK 2) 1) (fLANSTAT_STATE 2) 4) (fLANCTL_EN 2) 1) 2 { Lantern.reset with mem := lanternMem }
  (List.range 16).foldl (fun s k => setF (setF s (fLASER_STATE 2 k) 1) (fLASER_BIAS 2 k) 1000) s

theorem witness_LanternsLiveInTheirBays_memory :
    lanternMem.length = 512 ∧ rejectCause lanternMem 8 = 0 ∧ validCopy lanternMem = some 0x100 ∧ rejectCause ((padTo 512 []).take 512) 8 = 1 ∧ (padTo 512 lanternMem).take 512 = lanternMem := by decide +kernel

theorem witness_LanternsLiveInTheirBays :
    (let s := litState
     isSet s (fLANSTAT_PRESENT 2) = true ∧ on s = true ∧ awake s = true ∧ served s = true ∧ s.still = true ∧ (getPort s 2).txns = [] ∧
      (∀ k : Fin 16, (getStr s k).wait = .none_) ∧ lanternHedged s 2 = false ∧ isSet s (fLANCTL_FORCEOFF 2) = false ∧ isSet s (fLANCTL_EN 2) = true ∧
      isSet s (fLANSTAT_INTLK 2) = true ∧ getF s (fLANSTAT_STATE 2) = 4 ∧ isSet s (fLNKCTL_EN 2) = true ∧ minLanes s 2 = 8 ∧
      laserInService s 2 3 = true ∧ laserInService s 2 17 = false ∧ hedgedAt s 8 2 = false) ∧
    isSet onState (fLANSTAT_PRESENT 2) = false ∧ on onState = true ∧ on State.reset = false ∧ isSet State.reset (fLANSTAT_PRESENT 2) = false ∧
    getF onState (fLANSTAT_STATE 2) ≠ 4 ∧ portState onState 2 = 0 ∧ isSet onState (fLANSTAT_INTLK 2) = false := by decide +kernel

/-- A ready lantern whose laser 3 alone is in service, with one second of 1000 readings of `bias`. -/
def wornState (bias : Nat) (spare : Nat) : State :=
  let s := setF (setF (setF onState (fLANSTAT_STATE 2) 4) (fLASER_STATE 2 3) 1) (fLANSTAT_PRESENT 2) 1
  let s := (List.range 18).foldl (fun s k => if k = 3 then s else setF s (fLASER_STATE 2 k) spare) s
  setLan s 2 { Lantern.reset with mem := lanternMem, sums := [(3, bias * 1000), (35, 1000)] }

theorem witness_LaserWear :
    (∀ j : Fin 18, laserInService (wornState 1200 0) 2 j = decide (j = 3)) ∧ (wornState 1200 0).still = true ∧
    (∀ j : Fin 18, laserInService (wornState 1600 3) 2 j = decide (j = 3)) ∧ (∀ j : Fin 18, getF (wornState 1600 3) (fLASER_STATE 2 j) ≠ 0) ∧
    binit (getLan (wornState 1200 0) 2).mem 3 = 1000 ∧ 1600 * 1000 / 1000 % 65536 * 100 / 1000 % 65536 = 160 ∧
    (List.range 18).find? (fun j => getF (wornState 1600 0) (fLASER_STATE 2 j) == 0) = some 0 ∧ getF (wornState 1600 0) (fLASER_STATE 2 3) = 1 ∧
    (getLan (wornState 1600 0) 2).mem.length = 512 ∧ amGet (fun _ => 0) (getLan (wornState 1600 0) 2).sums (32 + 0) = 0 ∧
    (getLan (wornState 1600 0) 2).means = [] ∧
    due (wornState 1200 0) (evWear 2) 100000000 = true ∧ due (wornState 1200 0) (evPower 2) 100000 = true ∧
    due (noteAt (wornState 1200 0) (evWear 2)) (evWear 2) 100000000 = false := by
  decide +kernel

theorem witness_LanesMoveAndHoursCount :
    (let s := modLan litState 2 (fun y => { y with settling := some 16 }); (getLan s 2).settling ≠ none) ∧
    (let s := modLan litState 2 (fun y => { y with moves := [15], retiring := some 3 }); (getLan s 2).moves = [15] ∧ (getPort s 2).testing = [] ∧
      (getPort s 2).lanes = [] ∧ portUp s 2 = false ∧ (getLan s 2).settling = none ∧ ((List.range 18).filter (laserInService s 2))[15]? = some 15 ∧
      (let u := setF (setF s (fLNKSTAT_STATE 2) 6) (fLANEMAP_ACTIVE 2) 0xFFFF; minLanes u 2 ≤ activeLanes u 2 ∧ getBit u (fLANEMAP_ACTIVE 2) 15 = true) ∧
      (getPort (modPort s 2 (fun x => { x with testing := [15] })) 2).testing = [15] ∧ (getLan (modLan s 2 (fun y => { y with moves := [] })) 2).moves = [] ∧ portUp (setF s (fLNKSTAT_STATE 2) 6) 2 = true) ∧
    (let s := setF litState fREFTICK_TICK 360000000000; (getLan s 2).hourAt + 360000000000 ≤ tick s ∧ getF s (fLANSTAT_STATE 2) ≠ 2 ∧
      fieldAt lanternMem 0x100 4 = 5 ∧ fieldAt lanternMem 0x104 4 = 0) ∧
    (let s := setF (setF { litState with hedges := [⟨9, 0x1F02, false, false, false, 0, [], 0, 0⟩] } (fLANCTL_FORCEOFF 2) 1) (fLNKSTAT_STATE 2) 7
     isSet s (fLANCTL_FORCEOFF 2) = true ∧ portState s 2 = 7 ∧ (getLan s 2).supplyOff = false ∧ s.still = true) := by decide +kernel

/-- Core 9 is hedged. -/
def hedgedState (probing : Bool) (cmd : Nat) : State := { onState with hedges := [⟨1, 9, false, probing, false, 0, [], cmd, 0⟩] }

theorem witness_HedgesAndProbes :
    (let s := hedgedState false 0
     awake s = true ∧ served s = true ∧ s.still = true ∧ s.fatal = false ∧ resExists 1 0xFF09 = true ∧ resExists 1 0xFF49 = false ∧ hedgeKey 1 0xFF09 = 9 ∧
      hedgeKey 1 9 = 9 ∧ (∀ k : Fin 16, (getStr s k).st = .idle) ∧ hedgedAt s 1 9 = true ∧ hedgedAt s 1 10 = false ∧ hedgedAt s 2 1 = false ∧ hedgedAt s 11 1 = false ∧
      hedgedAt s 11 8 = false ∧ hedgeOf s 1 10 = none ∧ transientsOf s 1 9 = 0 ∧ getF s fPROBECFG_COUNT = 3 ∧
      isSet s (fARRREPAIR_V0 1 1) = false ∧ isSet s (fARRREPAIR_V1 1 1) = false ∧ isSet s fHEDGECMDST_BUSY = false ∧
      isSet (setF s fHEDGECMDST_BUSY 1) fHEDGECMDST_BUSY = true ∧ resExists 1 (0xFF0A#32).toNat = true) ∧
    transientsOf { hedgedState true 0 with transients := [⟨1, 9, 0, [3]⟩, ⟨1, 9, 0, [3]⟩] } 1 9 = 2 ∧
    transientsOf { hedgedState true 0 with transients := [⟨1, 9, 0, []⟩, ⟨1, 9, 0, []⟩] } 1 9 = 2 ∧
    (hedgedState true 3).hedges = [⟨1, 9, false, true, false, 0, [], 3, 0⟩] ∧ (hedgedState true 3).still = true := by decide +kernel

/-- The module at step 5 with every generator locked, at tick `at_`. -/
def clockState (at_ : Nat) (c : Option Change) : State :=
  let s := setF (setF (setF { onState with change := c } fSTEPSTAT_CUR 5) fSTEPCTL_STEPREQ 7) fREFTICK_TICK at_
  (List.range 10).foldl (fun s j => setF s (fGENMON_LOCK j) 1) s

def coolTemps : List Int := List.replicate 64 (50 * 16)

theorem witness_ClockStepsAndLimits :
    awake (clockState 0 none) = true ∧ (clockState 0 none).change = none ∧ isSet (clockState 0 none) (fGENMON_LOCK 9) = true ∧
    isSet onState (fGENMON_LOCK 3) = false ∧ (∃ i : Fin 52, coolTemps.getD i 0 = 800) ∧ (∀ i : Fin 52, coolTemps.getD i 0 ≤ 800) ∧
    (∀ i : Fin 52, onState.lodge.temps.getD i 0 ≤ 0) ∧ onState.lodge.temps.getD 0 0 = 0 ∧ (∀ k : Fin 32, getF onState (fSTK_TEMP_DEGC k) ≤ 0) ∧
    (let s := clockState 0 none
     let v := fun (i : Nat) => s.lodge.vddc.getD i 0
     let kk := fun (i : Nat) => (625 + 125 * i) * v i * v i * 1000000 / ((625 + 125 * 5) * v 5 * v 5)
     (2290000 + 2 ^ 32 - 1090000) % 2 ^ 32 + 1090000 * kk 6 / 1000000 + 100000 ≤ 2800000 ∧
      2800000 < (2290000 + 2 ^ 32 - 1090000) % 2 ^ 32 + 1090000 * kk 7 / 1000000 + 100000 ∧ getF s fSTEPCTL_CAPW = 2800 ∧ min 7 (s.lodge.tlims.getD 9 7 + 1) = 7) ∧
    isSet onState fTELRING_EN = false ∧ isSet (setF onState fTELRING_EN 1) fTELRING_EN = true ∧
    awake (clockState 9000 (some ⟨6, 4096, true, some (4, 5000)⟩)) = true ∧ tick (clockState 6000 (some ⟨6, 4096, true, some (4, 5000)⟩)) ≤ 4096 + 2000 ∧ hedgedAt (clockState 0 none) 11 8 = false ∧ 4096 + 2000 ≤ tick (clockState 9000 (some ⟨6, 4096, true, none⟩)) ∧
    tick (clockState 9000 none) = 9000 ∧ isSet (clockState 9000 none) (fGENMON_HEDGED 4) = false ∧
    ([⟨5, 89⟩] : List GenMeas)[0]? = some ⟨5, 89⟩ ∧
    (let s := clockState 100000 none
     windowEnded s evMonitors 1024 = true ∧ windowEnded (noteAt s evMonitors) evMonitors 1024 = false ∧ tick s % 100000 = 0 ∧
      due s evGovernor 100000 = true ∧ due s evCool 100000 = true ∧ windowEnded s evTelemetry 100000 = true ∧
      windowEnded (noteAt s evTelemetry) evTelemetry 100000 = false ∧ due (noteAt s evCool) evCool 100000 = false) := by decide +kernel

/-- The window is open on the Orangery, and its slices are ready. -/
def windowState : State := setF (setF onState fHOST_WINCTL_EN 1) fORG_ORGREADY_READY (2 ^ 64 - 1)

theorem witness_TheHostReadsAndWrites :
    served windowState = true ∧ servedAt windowState rPROBECFG = true ∧ served State.reset = false ∧ (let u := { onState with pcie := { onState.pcie with d3 := true } }; on u = true ∧ u.pcie.l0 = true ∧ paused u = false) ∧ servedAt State.reset 0 = false ∧
    (rowOf rPROBECFG).map (fun r => r.base) = some rPROBECFG ∧ (rowOf (rLNKEVT 3)).map (fun r => (r.base, r.w1c)) = some (rLNKEVT 0, 15) ∧ rowOf 0xFFFF0 = none ∧
    orgAssigned 0x1000 = true ∧ orgAssigned 0x1FFF000 = false ∧ orgHedged windowState 0x1000 64 = false ∧ windowState.orgErr = [] ∧ windowState.fatal = false ∧
    getBit windowState fORG_ORGREADY_READY (orgSlice 0x1000) = true ∧ isSet onState fHOST_WINCTL_EN = false ∧
    (let s := setF windowState (fSLC_BANKHEDGE_HEDGED 0) 0xFFFF; orgHedged s 0x1000 64 = true) ∧
    (let s := setBit { onState with pcie := { onState.pcie with msixEn := true } } (fHOST_MSIXPBA_PEND 0) 5 true
     getBit s (fHOST_MSIXPBA_PEND 0) 5 = true ∧ s.pcie.msixEn = true ∧ s.pcie.msixMask = false ∧ servedAt s 0 = true) ∧
    onState.lodge.images.length = 2 ∧ onState.lodge.active < 2 ∧ isSet onState fFWSTAT_BUSY = false ∧ isSet (setF onState fFWSTAT_BUSY 1) fFWSTAT_BUSY = true ∧
    (onState.lodge.images.getD 1 ⟨[], false⟩).good = false ∧
    (let l : Lodge := { onState.lodge with images := [⟨[], true⟩, ⟨[1#8], true⟩] }; (l.images.getD 1 ⟨[], false⟩).good = true) ∧
    onState.pins.lodge = true ∧ State.reset.pins.lodge = false ∧ onState.pins.resetLow = false ∧
    onState.pins.aux12 = true ∧ (let t := { onState with pins := { onState.pins with aux12 := false } }; t.pins.aux12 = false ∧ t.pins.lodge = true) ∧
    onState.lodge.writing = none := by decide +kernel

theorem witness_ResetsAndPower :
    on onState = true ∧ on State.reset = false ∧ State.reset.pins.lodge = false ∧ unended onState = [] ∧ onState.ops = [] ∧ (∀ k : Fin 16, (getStr onState k).st = .idle) ∧
    (∀ ch : Fin 64, (getChan onState ch).st = .idle) ∧ (∀ m : Fin 64, (getCore onState m).handler = none) ∧ onState.still = true ∧ onState.pcie.l0 = true ∧
    recovering onState = false ∧ onState.pins.cbl = [false, false] ∧ (∀ i : Fin 4, getF onState (fHOST_MSIXPBA_PEND i) = 0) ∧
    (onState.lodge.images.getD onState.lodge.active ⟨[], false⟩).good = true ∧ onState.lodge.active < 2 ∧ onState.lodge.bootStep < 8 ∧
    getBit onState fHEDGEMISC_PAV 2 = false ∧ getBit onState fORG_ORGREADY_READY 16 = false ∧
    (let s := setF onState fORG_ORGREADY_READY (2 ^ 64 - 1); getBit s fHEDGEMISC_PAV 2 = false ∧ ∀ i : Fin 8, getBit s fORG_ORGREADY_READY (8 * 2 + i) = true) ∧
    onState.pins.conv = true ∧ onState.pins.lodge = true ∧ onState.pins.aux12 = true ∧ onState.pins.refclk = true ∧ paused onState = false := by decide +kernel


/-! ### Ill-formed operands, one term for each check of `Instr.wf`, and a well-formed neighbour at the end of the range -/

def okPass : PassOpnds := ⟨⟨32, 8⟩, ⟨0, 8⟩, none, 3, 0, false, false⟩
def okCmp : CmpOpnds := ⟨okPass, ⟨40, 8⟩, 4⟩
def okQuant : EquantOpnds := ⟨⟨0, 8⟩, ⟨32, 8⟩, 16, false, 0, true, 0⟩
def okSend : CsendOpnds := ⟨false, 1, 2, 64, false⟩
def okSlath : SlathOpnds := ⟨false, 1, 64, 2, 3, 4, 5, false⟩
def okLock : RingLock := ⟨0, 1, 0, 0⟩
def okLink : LinkUp := ⟨5, 16, true, true, true, true, true, false, 32, 256, 512, 10000, [0, 2 ^ 28, 0]⟩
def okMeas : TelMeas := ⟨0, [], [], []⟩
def st0 : Who := .stream 0

theorem test_wf_gap : (Instr.fenceL st0 65535).wf = true ∧ (Instr.fenceL st0 65536).wf = false := by decide
theorem test_wf_tile :
    (Instr.tcfg st0 0 ⟨63, 31⟩ 0).wf = true ∧ (Instr.tcfg st0 0 ⟨64, 1⟩ 0).wf = false ∧ (Instr.trel st0 0 ⟨0, 32⟩).wf = false := by decide
theorem test_wf_optional_tile :
    (Instr.emax st0 0 ⟨0, 1⟩ ⟨1, 1⟩ 7 (some ⟨2, 1⟩)).wf = true ∧ (Instr.emax st0 0 ⟨0, 1⟩ ⟨1, 1⟩ 7 (some ⟨2, 40⟩)).wf = false := by decide
theorem test_wf_pass :
    (Instr.mpass st0 0 { okPass with eref := 32767 }).wf = true ∧ (Instr.mpass st0 0 { okPass with eref := 32768 }).wf = false ∧
    (Instr.mdist st0 0 { okPass with eref := -32769 }).wf = false := by decide
theorem test_wf_compare : (Instr.mcmpx st0 0 okCmp).wf = true ∧ (Instr.mcmpn st0 0 { okCmp with d2 := ⟨70, 1⟩ }).wf = false := by decide
theorem test_wf_exponent :
    (Instr.eprog st0 0 { progOpnds with eexp := -128 }).wf = true ∧ (Instr.eprog st0 0 { progOpnds with eexp := 128 }).wf = false ∧
    (Instr.equant st0 0 okQuant).wf = true ∧ (Instr.equant st0 0 { okQuant with e := -129 }).wf = false := by decide
theorem test_wf_lengths :
    (Instr.csend st0 0 okSend).wf = true ∧ (Instr.csend st0 0 { okSend with len := 65536 }).wf = false ∧
    (Instr.slath st0 0 okSlath).wf = true ∧ (Instr.slath st0 0 { okSlath with qlen := 65536 }).wf = false := by decide
theorem test_wf_loop : (Instr.loop st0 0 1 1).wf = true ∧ (Instr.loop st0 0 1 0).wf = false ∧ (Instr.loop st0 0 1 (2 ^ 32)).wf = false := by decide
theorem test_wf_fcount : (Instr.fcountPlus st0 0 false 1 65535).wf = true ∧ (Instr.fcountPlus st0 0 false 1 65536).wf = false := by decide
theorem test_wf_settle_word :
    (Instr.settleIntervalExpiry 8).wf = true ∧ (Instr.settleIntervalExpiry 12).wf = false ∧ (Instr.settleIntervalExpiry (2 ^ 31)).wf = false := by decide
theorem test_wf_creel : (Instr.creelDelivery 575).wf = true ∧ (Instr.creelDelivery 576).wf = false := by decide
theorem test_wf_scrub :
    (Instr.scrubRead 0 (List.replicate 5 (0, true))).wf = false ∧ (Instr.dramScrubRead 0 (List.replicate 65 (0, .correctable))).wf = false ∧
    (Instr.dramScrubRead 31 (List.replicate 64 (0, .uncorrectable))).wf = true := by decide
theorem test_wf_invalidation :
    (Instr.atsInvalidationRequest none 0 (2 ^ 64)).wf = true ∧ (Instr.atsInvalidationRequest (some 3) 1 (2 ^ 64)).wf = false := by decide
theorem test_wf_flit :
    (Instr.flitReceive 0 (List.replicate 256 0#8)).wf = true ∧ (Instr.flitReceive 0 (List.replicate 255 0#8)).wf = false := by decide +kernel
theorem test_wf_lasers :
    (Instr.ident 0 0 0 (List.replicate 15 0) 0).wf = false ∧ (Instr.laserWarmupDone 0 (List.replicate 17 0) 0).wf = false ∧
    (Instr.laserWarmupDone 0 (List.replicate 18 65536) 0).wf = false ∧ (Instr.laserWarmupDone 0 (List.replicate 18 0) (-1)).wf = false ∧
    (Instr.laserPowerLoop 0 (List.replicate 18 0) 65536 0).wf = false ∧ (Instr.laserPowerLoop 0 (List.replicate 18 65535) 65535 0).wf = true := by decide
theorem test_wf_locks :
    (Instr.ringlock 0 (List.replicate 16 okLock)).wf = true ∧ (Instr.ringlock 0 (List.replicate 15 okLock)).wf = false ∧
    (Instr.laneTestDone 0 0 0 none).wf = true ∧ (Instr.laneTestDone 0 0 (4 * 10 ^ 8 + 1) none).wf = false ∧
    (Instr.lanetrain 0 (List.replicate 15 0) 0).wf = false ∧ (Instr.lanetrain 0 (List.replicate 16 (10 ^ 9 + 1)) 0).wf = false ∧
    (Instr.laneTestDone 0 0 0 (some { okLock with ksign := 0 })).wf = false ∧ (Instr.laneTestDone 0 0 0 (some { okLock with htx := 2 ^ 32 })).wf = false ∧
    (Instr.laneTestDone 0 0 0 (some { okLock with rset := -1 })).wf = false := by decide
theorem test_wf_lane_measurement : (Instr.laneErrorMeasurement 0 (List.replicate 17 ⟨0, 0, 0⟩)).wf = false := by decide
theorem test_wf_lantern : (Instr.lanternInsertion 0 (List.replicate 511 0#8) true).wf = false := by decide +kernel
theorem test_wf_hedge :
    (Instr.hedge 13 0 []).wf = true ∧ (Instr.hedge 14 0 []).wf = false ∧ (Instr.probe 1 (2 ^ 32)).wf = false ∧
    (Instr.probeDone 14 0 true [] false).wf = false := by decide
theorem test_wf_clocks :
    (Instr.monitorWindow (List.replicate 9 ⟨0, 100⟩)).wf = false ∧ (Instr.governor 0 0 (List.replicate 63 0)).wf = false ∧
    (Instr.lockTimeout (List.replicate 11 0)).wf = false := by decide
theorem test_wf_telemetry :
    (Instr.telemetryFrame okMeas true).wf = true ∧ (Instr.telemetryFrame { okMeas with rails := List.replicate 15 (0, 0) } true).wf = false ∧
    (Instr.telemetryFrame { okMeas with plot := List.replicate 11 0 } true).wf = false ∧
    (Instr.telemetryFrame { okMeas with stack := List.replicate 33 0 } true).wf = false := by decide
theorem test_wf_window :
    (Instr.bar2Read 0 4096).wf = true ∧ (Instr.bar2Read 0 4097).wf = false ∧ (Instr.bar2Read 0 0).wf = false ∧
    (Instr.bar2Read 0xFFFFFFF#28 2).wf = false ∧ (Instr.bar2Write 0 [] false).wf = false := by decide +kernel
theorem test_wf_bar_write :
    (Instr.registerWrite ⟨false, 8, 8, 0, false⟩).wf = true ∧ (Instr.registerWrite ⟨true, 8, 2, 0, false⟩).wf = true ∧
    (Instr.registerWrite ⟨true, 0, 513, 0, false⟩).wf = false ∧ (Instr.registerWrite ⟨false, 0x4000000, 4, 0, false⟩).wf = false ∧
    (Instr.registerWrite ⟨true, 0x1FFFC, 8, 0, false⟩).wf = false := by decide
theorem test_wf_link : (Instr.pcieLinkTraining okLink).wf = true ∧ (Instr.pcieLinkTraining { okLink with width := 3 }).wf = false ∧
    (Instr.pcieLinkTraining { okLink with mps := 1024 }).wf = false ∧ (Instr.pcieLinkTraining { okLink with bars := [1, 0, 0] }).wf = false := by decide

/-! ### The table gives no command bits -/

theorem test_decode_none : decodeTableWord 64 0xFF = none ∧ (onState.withFetchWord 64 0xFF).pending = [] := by decide +kernel

/-! ### Worked examples of the spec, their results taken from its text -/

/-- The bands of spec/02's column, each given by its band sum. -/
def exampleColumn : List Band :=
  [⟨-6, -4, [(true, 37415, 1)]⟩, ⟨-5, -4, [(true, -12003, 1)]⟩, ⟨-7, -3, [(true, 8191, 1)]⟩, ⟨-6, -5, [(true, 4093, 1)]⟩]

/-- spec/02, "Worked example: one column". -/
theorem test_column_example : columnTotal .mpass (-10) exampleColumn = (23646, false) ∧
    (addBand .mpass (-35) (0, false) ⟨-6, -4, [(true, 37415, 1)]⟩) = (549755813887, true) ∧ rne 4095 1 = 2048 := by decide +kernel

/-- spec/02, "Worked example: into SI8 for the next layer": the block takes t = 8 and exponent −2. -/
theorem test_requantisation_example : rne (23646 * 26214) 15 = 18917 ∧
    blockFit 8 (-10) [(23646 * 26214, 15), (-5005 * 26214, 15)] = ([74, -16], -2, false) := by decide +kernel

/-- The two table entries that spec/02 gives for its logistic table. -/
def exampleTable : List Int := List.replicate 123 0 ++ [14012, 14301]

/-- spec/02, "Lookup with interpolation". -/
theorem test_lookup_example : lookup (-1234) exampleTable = 14064 := by decide +kernel

/-- spec/04, "Worked example: a gated activation": lane 40 of register 3. -/
theorem test_gated_activation_example :
    runSteps (fun _ => exampleTable) (-4936) 0 0 0 40 3 16
      [⟨.shift (-2), .tileA, .reg, .reg, .stage 0⟩, ⟨.lut 0, .stage 0, .reg, .reg, .stage 1⟩, ⟨.mulsh 15, .stage 0, .stage 1, .reg, .d⟩] [] 0 false =
      (-530, false) := by decide +kernel

/-- spec/13, "Worked example: one step of a cross-module sum": the stored word reads as −1,794,967,296 and overflows. -/
theorem test_cross_module_sum_example : deliver (partial48 [2000000000, 500000000]) = (-1794967296, true) := by decide +kernel

/-- The descriptor of spec/11's example, the host buffer at address 0 of space 8. -/
def exampleDesc : Desc := ⟨0, 0, 0, 0, 0x8000000000000, 0x20080000, 256, 128, 8, 1, [256, 32768, 0], [288, 0x2000000, 0], 0, 0⟩

/-- spec/11, "Worked example: features into a pavilion": run (5, 3). -/
theorem test_dma_example : exampleDesc.runs = 1024 ∧ exampleDesc.runs * exampleDesc.run = 262144 ∧
    exampleDesc.srcAt (5 + 3 * 128) = 0x8000000000000 + 0x18500 ∧ exampleDesc.dstAt (5 + 3 * 128) = 0x260805A0 ∧
    orgSlice 0x260805A0 = 19 ∧ orgOff 0x260805A0 = 0x805A0 := by decide +kernel

/-- spec/16, "Worked example: a boost request": the governor run at tick 12,400,000. -/
theorem test_boost_example :
    (fun t : State => (getF t fSTEPSTAT_TARGET, getF t fSTEPSTAT_LIMIT, t.change.map (fun c => c.epoch)))
      (nextOf (exec (.governor 2290000 1090000 coolTemps) (setF (clockState 12400000 none) fSTEPCTL_BOOSTEN 1)) State.reset) =
      (6, 2, some 12406784) := by decide +kernel

end Sys2Proof.Tests
end

section
namespace Sys2Proof.Machine

open Sys2Proof

/-! ### Bits of words and of register fields -/

theorem bitOf_eq_testBit (w i : Nat) : bitOf w i = w.testBit i := by
  rw [bitOf, bitsOf, Nat.add_sub_cancel_left, Nat.testBit_eq_decide_div_mod_eq]
  exact Bool.beq_eq_decide_eq _ _

theorem testBit_bitsOf (w hi lo i : Nat) : (bitsOf w hi lo).testBit i = (decide (i < hi + 1 - lo) && w.testBit (lo + i)) := by
  rw [bitsOf, Nat.testBit_mod_two_pow, Nat.testBit_div_two_pow, Nat.add_comm i]

theorem bitsOf_lt (w hi lo : Nat) : bitsOf w hi lo < 2 ^ (hi + 1 - lo) := Nat.mod_lt _ (Nat.two_pow_pos _)

/-- Replacing bits [hi:lo] gives those bits the new value and keeps every other one. -/
theorem testBit_putBits (w hi lo v i : Nat) :
    (putBits w hi lo v).testBit i = if lo ≤ i ∧ i ≤ hi then v.testBit (i - lo) else w.testBit i := by
  have hw : putBits w hi lo v =
      2 ^ lo * (2 ^ (hi + 1 - lo) * (w / 2 ^ lo / 2 ^ (hi + 1 - lo)) + v % 2 ^ (hi + 1 - lo)) + w % 2 ^ lo := by
    have h1 := Nat.div_add_mod w (2 ^ lo)
    have h2 := Nat.div_add_mod (w / 2 ^ lo) (2 ^ (hi + 1 - lo))
    have h3 : putBits w hi lo v =
        w - w / 2 ^ lo % 2 ^ (hi + 1 - lo) * 2 ^ lo + v % 2 ^ (hi + 1 - lo) * 2 ^ lo := rfl
    rw [h3]
    generalize w / 2 ^ lo % 2 ^ (hi + 1 - lo) = b at *
    generalize v % 2 ^ (hi + 1 - lo) = c at *
    generalize 2 ^ (hi + 1 - lo) * (w / 2 ^ lo / 2 ^ (hi + 1 - lo)) = a at *
    rw [← h2] at h1
    simp only [Nat.mul_add, Nat.mul_comm b, Nat.mul_comm c] at *
    omega
  rw [hw, Nat.testBit_two_pow_mul_add _ (Nat.mod_lt _ (Nat.two_pow_pos lo)),
    Nat.testBit_two_pow_mul_add _ (Nat.mod_lt _ (Nat.two_pow_pos (hi + 1 - lo))),
    Nat.testBit_mod_two_pow, Nat.testBit_mod_two_pow, Nat.testBit_div_two_pow, Nat.testBit_div_two_pow]
  by_cases h1 : i < lo
  · simp [h1, Nat.not_le.2 h1]
  by_cases h2 : i - lo < hi + 1 - lo
  · have : lo ≤ i ∧ i ≤ hi := by omega
    simp [h1, h2, this]
  · have h3 : ¬(lo ≤ i ∧ i ≤ hi) := by omega
    have h4 : i - lo - (hi + 1 - lo) + (hi + 1 - lo) + lo = i := by omega
    simp [h1, h2, h3, h4]

/-- Putting back the value that the bits hold changes nothing. -/
theorem putBits_of_bitsOf (w hi lo v : Nat) (h : v = bitsOf w hi lo) : putBits w hi lo v = w := by
  refine Nat.eq_of_testBit_eq (fun i => ?_)
  rw [testBit_putBits]
  split
  · next hi' =>
    have : i - lo < hi + 1 - lo := by omega
    rw [h, testBit_bitsOf, Nat.add_sub_cancel' hi'.1]
    simp [this]
  · rfl

theorem regGet_setF_self (s : State) (f : Fld) (v : Nat) :
    regGet (setF s f v) f.reg = BitVec.ofNat 64 (putBits (regGet s f.reg).toNat f.hi f.lo v) :=
  regGet_regPut_self s f.reg _

theorem testBit_regGet_setF (s : State) (f : Fld) (v i : Nat) (hi : i < 64) :
    (regGet (setF s f v) f.reg).toNat.testBit i =
      if f.lo ≤ i ∧ i ≤ f.hi then v.testBit (i - f.lo) else (regGet s f.reg).toNat.testBit i := by
  rw [regGet_setF_self, BitVec.toNat_ofNat, Nat.testBit_mod_two_pow, testBit_putBits]
  simp [hi]

/-- A field reads as what it was set to, as far as its width goes. -/
theorem getF_setF_self (s : State) (f : Fld) (v : Nat) (h : f.hi < 64) :
    getF (setF s f v) f = v % 2 ^ (f.hi + 1 - f.lo) := by
  refine Nat.eq_of_testBit_eq (fun i => ?_)
  rw [getF, testBit_bitsOf, Nat.testBit_mod_two_pow]
  by_cases hi : i < f.hi + 1 - f.lo
  · have h2 : f.lo ≤ f.lo + i ∧ f.lo + i ≤ f.hi := by omega
    rw [testBit_regGet_setF _ _ _ _ (by omega), if_pos h2, Nat.add_sub_cancel_left]
  · simp [hi]

/-- Two fields that share no bit of a register. -/
def Fld.apart (f g : Fld) : Bool := f.reg != g.reg || decide (f.hi < g.lo) || decide (g.hi < f.lo)

/-- Setting a field leaves the fields that share no bit with it. -/
theorem getF_setF_apart (s : State) (f g : Fld) (v : Nat) (h : f.apart g = true) : getF (setF s f v) g = getF s g := by
  simp only [Fld.apart, Bool.or_eq_true, bne_iff_ne, decide_eq_true_eq, or_assoc] at h
  by_cases hr : f.reg = g.reg
  · refine Nat.eq_of_testBit_eq (fun i => ?_)
    rw [getF, getF, testBit_bitsOf, testBit_bitsOf]
    by_cases hi : i < g.hi + 1 - g.lo ∧ g.lo + i < 64
    · have h2 : ¬(f.lo ≤ g.lo + i ∧ g.lo + i ≤ f.hi) := by
        rcases h with h | h | h
        · exact absurd hr h
        · omega
        · omega
      rw [← hr, testBit_regGet_setF _ _ _ _ hi.2, if_neg h2]
    · rcases Decidable.not_and_iff_or_not.1 hi with hi | hi
      · simp [hi]
      · rw [BitVec.testBit_toNat, BitVec.testBit_toNat, BitVec.getLsbD_of_ge _ _ (by omega), BitVec.getLsbD_of_ge _ _ (by omega)]
  · exact getF_setF_other s f g v hr

theorem isSet_setF_self (s : State) (f : Fld) (v : Nat) (h : f.hi < 64) :
    isSet (setF s f v) f = (v % 2 ^ (f.hi + 1 - f.lo) == 1) := by
  rw [isSet, getF_setF_self s f v h]

theorem isSet_setF_apart (s : State) (f g : Fld) (v : Nat) (h : f.apart g = true) : isSet (setF s f v) g = isSet s g := by
  rw [isSet, isSet, getF_setF_apart s f g v h]

/-- A counter field counts modulo its width (R606). -/
theorem getF_bump_self (s : State) (f : Fld) (n : Nat) (h : f.hi < 64) :
    getF (bump s f n) f = (getF s f + n) % 2 ^ (f.hi + 1 - f.lo) := getF_setF_self s f _ h

theorem getF_bump_apart (s : State) (f g : Fld) (n : Nat) (h : f.apart g = true) : getF (bump s f n) g = getF s g :=
  getF_setF_apart s f g _ h

theorem isSet_bump_apart (s : State) (f g : Fld) (n : Nat) (h : f.apart g = true) : isSet (bump s f n) g = isSet s g :=
  isSet_setF_apart s f g _ h

theorem regGet_bump_other (s : State) (f : Fld) (n b : Nat) (h : f.reg ≠ b) : regGet (bump s f n) b = regGet s b :=
  regGet_setF_other s f _ b h

theorem regGet_setBit_other (s : State) (f : Fld) (i : Nat) (v : Bool) (b : Nat) (h : f.reg ≠ b) :
    regGet (setBit s f i v) b = regGet s b := regGet_setF_other s f _ b h

theorem getBit_setBit_self (s : State) (f : Fld) (i : Nat) (b : Bool) (h : f.hi < 64) (hi : i + f.lo ≤ f.hi) :
    getBit (setBit s f i b) f i = b := by
  have h1 : i < f.hi + 1 - f.lo := by omega
  rw [getBit, setBit, getF_setF_self s f _ h, bitOf_eq_testBit, Nat.testBit_mod_two_pow, testBit_putBits]
  cases b <;> simp [h1]

end Sys2Proof.Machine
end

section
namespace Sys2Proof.Machine

open Sys2Proof

/-! ### Looking up the row of a register

`rowOf` searches every row of the register map.  The registers of one kind lie in one range of offsets, which few rows reach,
so a search over those few finds the same row. -/

/-- Whether a row may have a register `d` or more past its base. -/
def dimsReach : List (Nat × Nat) → Nat → Bool
  | [], d => d == 0
  | (c, st) :: _, d => decide (d / st < c)

/-- The rows that may have a register from `lo` to `hi`. -/
def rowsNear (lo hi : Nat) : List RegRow := regRows.filter (fun r => decide (r.base ≤ hi) && dimsReach r.dims (lo - r.base))

theorem dimsReach_of_dimsHit {ds : List (Nat × Nat)} {d e : Nat} (h : dimsHit ds e = true) (hd : d ≤ e) : dimsReach ds d = true := by
  cases ds with
  | nil => simp [dimsHit, dimsReach] at h ⊢; omega
  | cons p ds =>
    simp only [dimsHit, dimsReach, Bool.and_eq_true, decide_eq_true_eq] at h ⊢
    exact Nat.lt_of_le_of_lt (Nat.div_le_div_right hd) h.1

theorem rowOf_near {lo hi off : Nat} (h1 : lo ≤ off) (h2 : off ≤ hi) : rowOf off = (rowsNear lo hi).find? (fun r => r.hit off) := by
  rw [rowOf, rowsNear, List.find?_filter]
  congr 1
  funext r
  cases hit : r.hit off with
  | false => simp
  | true =>
    simp only [RegRow.hit, Bool.and_eq_true, decide_eq_true_eq] at hit
    have hreach : dimsReach r.dims (lo - r.base) = true := dimsReach_of_dimsHit hit.2 (Nat.sub_le_sub_right h1 _)
    simp [hreach, Nat.le_trans hit.1 h2]

/-- The register at `off` belongs to the row at `base`, with first index `i` and reset value `v`. -/
def RowAt (off base i v : Nat) : Prop :=
  ∃ r, rowOf off = some r ∧ r.base = base ∧ (ixOf r.dims (off - r.base)).getD 0 0 = i ∧ r.reset = v

/-- The same, found among the near rows. -/
def placeNear (lo hi off : Nat) : Option (Nat × Nat × Nat) :=
  ((rowsNear lo hi).find? (fun r => r.hit off)).map (fun r => (r.base, (ixOf r.dims (off - r.base)).getD 0 0, r.reset))

theorem rowAt_of_near {lo hi off base i v : Nat} (h : placeNear lo hi off = some (base, i, v)) (hoff : lo ≤ off ∧ off ≤ hi) :
    RowAt off base i v := by
  rw [placeNear, ← rowOf_near hoff.1 hoff.2, Option.map_eq_some_iff] at h
  simpa [RowAt] using h

/-- At reset a register holds the reset value of its row (R20). -/
theorem regGet_reset_of_row {off base i v : Nat} (h : RowAt off base i v) : regGet State.reset off = BitVec.ofNat 64 v := by
  obtain ⟨r, hr, -, -, hv⟩ := h
  have hdefault : regGet State.reset off = regDefault off := rfl
  rw [hdefault, regDefault, regReset, hr]
  exact congrArg _ hv

theorem row_wkctl (w : Fin 64) : RowAt (rWKCTL w) (rWKCTL 0) w 0x40000000000000 := by
  have h : ∀ w : Fin 64, placeNear (rWKCTL 0) (rWKCTL 63) (rWKCTL w) = some (rWKCTL 0, w.val, 0x40000000000000) := by decide +kernel
  exact rowAt_of_near (h w) (by simp only [rWKCTL]; omega)

theorem row_wkret (w : Fin 64) : RowAt (rWKRET w) (rWKRET 0) w 0 := by
  have h : ∀ w : Fin 64, placeNear (rWKRET 0) (rWKRET 63) (rWKRET w) = some (rWKRET 0, w.val, 0) := by decide +kernel
  exact rowAt_of_near (h w) (by simp only [rWKRET]; omega)

theorem row_chctl (ch : Fin 64) : RowAt (rCHCTL ch) (rCHCTL 0) ch 0x500000000000000 := by
  have h : ∀ ch : Fin 64, placeNear (rCHCTL 0) (rCHCTL 63) (rCHCTL ch) = some (rCHCTL 0, ch.val, 0x500000000000000) := by decide +kernel
  exact rowAt_of_near (h ch) (by simp only [rCHCTL]; omega)

theorem row_ctxctl (c : Fin 16) : RowAt (rCTXCTL c) (rCTXCTL 0) c 0x100000000000 := by
  have h : ∀ c : Fin 16, placeNear (rCTXCTL 0) (rCTXCTL 15) (rCTXCTL c) = some (rCTXCTL 0, c.val, 0x100000000000) := by decide +kernel
  exact rowAt_of_near (h c) (by simp only [rCTXCTL]; omega)

theorem row_lnkctl (p : Fin 8) : RowAt (rLNKCTL p) (rLNKCTL 0) p 0x808000000000ea60 := by
  have h : ∀ p : Fin 8, placeNear (rLNKCTL 0) (rLNKCTL 7) (rLNKCTL p) = some (rLNKCTL 0, p.val, 0x808000000000ea60) := by decide +kernel
  exact rowAt_of_near (h p) (by simp only [rLNKCTL]; omega)

theorem row_lnkstat (p : Fin 8) : RowAt (rLNKSTAT p) (rLNKSTAT 0) p 0 := by
  have h : ∀ p : Fin 8, placeNear (rLNKSTAT 0) (rLNKSTAT 7) (rLNKSTAT p) = some (rLNKSTAT 0, p.val, 0) := by decide +kernel
  exact rowAt_of_near (h p) (by simp only [rLNKSTAT]; omega)

theorem row_genmon (j : Fin 10) : RowAt (rGENMON j) (rGENMON 0) j 0x190000 := by
  have h : ∀ j : Fin 10, placeNear (rGENMON 0) (rGENMON 9) (rGENMON j) = some (rGENMON 0, j.val, 0x190000) := by decide +kernel
  exact rowAt_of_near (h j) (by simp only [rGENMON]; omega)

theorem row_qctl (c : Fin 16) (q : Fin 8) : RowAt (rQCTL c q) (rQCTL 0 0) c 0 := by
  have h : ∀ (c : Fin 16) (q : Fin 8), placeNear (rQCTL 0 0) (rQCTL 15 7) (rQCTL c q) = some (rQCTL 0 0, c.val, 0) := by decide +kernel
  exact rowAt_of_near (h c q) (by simp only [rQCTL]; omega)

theorem row_qstat (c : Fin 16) (q : Fin 8) : RowAt (rQSTAT c q) (rQSTAT 0 0) c 0 := by
  have h : ∀ (c : Fin 16) (q : Fin 8), placeNear (rQSTAT 0 0) (rQSTAT 15 7) (rQSTAT c q) = some (rQSTAT 0 0, c.val, 0) := by decide +kernel
  exact rowAt_of_near (h c q) (by simp only [rQSTAT]; omega)

theorem row_fltresp : RowAt rDMA_FLTRESP rDMA_FLTRESP 0 0 :=
  rowAt_of_near (lo := rDMA_FLTRESP) (hi := rDMA_FLTRESP) (by decide +kernel) ⟨Nat.le_refl _, Nat.le_refl _⟩

theorem row_fwcmd : RowAt rFWCMD rFWCMD 0 0 :=
  rowAt_of_near (lo := rFWCMD) (hi := rFWCMD) (by decide +kernel) ⟨Nat.le_refl _, Nat.le_refl _⟩

end Sys2Proof.Machine
end

section
namespace Sys2Proof.Machine

open Sys2Proof

/-! ### Register writes by their access codes (R15, R16, R18) -/

/-- RW bits take the new value, W1C bits written 1 read 0, every other bit keeps its value. -/
theorem testBit_regWritten (r : RegRow) (old new b : Nat) :
    (regWritten r old new).testBit b =
      if r.rw.testBit b then new.testBit b else if new.testBit b && r.w1c.testBit b then false else old.testBit b := by
  have h : regWritten r old new = ((((old ||| r.rw) ^^^ r.rw) ^^^ (old &&& (new &&& r.w1c))) ||| (new &&& r.rw)) := rfl
  rw [h]
  simp only [Nat.testBit_or, Nat.testBit_xor, Nat.testBit_and]
  generalize r.rw.testBit b = w, r.w1c.testBit b = c, new.testBit b = n, old.testBit b = o
  revert w c n o
  decide

/-- The value that an aligned write presents to its register, in the place of the half that it writes (R15). -/
def writeVal (off size v : Nat) : Nat := if size = 8 then v else if off % 8 = 0 then v % 2 ^ 32 else v % 2 ^ 32 * 2 ^ 32

/-- Whether a write reaches bit `b` of its register: one of 4 bytes reaches one half (R15). -/
abbrev writeReaches (off size b : Nat) : Prop := size = 8 ∨ (b < 32 ↔ off % 8 = 0)

/-- A bit that a write reaches is presented as written; any other one as the register holds it, if it is RW, and as 0 otherwise. -/
theorem testBit_widen (r : RegRow) (old off size v b : Nat) (hb : b < 64) :
    (writeReaches off size b → (widen r old off size v).testBit b = (writeVal off size v).testBit b) ∧
    (¬ writeReaches off size b → (widen r old off size v).testBit b = (old.testBit b && r.rw.testBit b)) := by
  have hlow : ∀ x : Nat, b < 32 → (x % 2 ^ 32).testBit b = x.testBit b := fun x h => by
    rw [Nat.testBit_mod_two_pow, decide_eq_true h, Bool.true_and]
  have hhigh : ∀ x : Nat, ¬ b < 32 → (x / 2 ^ 32).testBit (b - 32) = x.testBit b := fun x h => by
    rw [Nat.testBit_div_two_pow, Nat.sub_add_cancel (Nat.le_of_not_lt h)]
  have hjoin : ∀ x y : Nat, (x * 2 ^ 32 + y % 2 ^ 32).testBit b = if b < 32 then y.testBit b else x.testBit (b - 32) := fun x y => by
    rw [Nat.mul_comm, Nat.testBit_two_pow_mul_add _ (Nat.mod_lt _ (Nat.two_pow_pos _)), ← ite_congr rfl (hlow y) (fun _ => rfl)]
  have hkeep : (Nat.land old r.rw).testBit b = (old.testBit b && r.rw.testBit b) := Nat.testBit_and ..
  unfold writeReaches writeVal widen
  by_cases h8 : size = 8
  · have : (v % 2 ^ 64).testBit b = v.testBit b := by rw [Nat.testBit_mod_two_pow, decide_eq_true hb, Bool.true_and]
    simp only [h8, if_true, this, true_or, not_true_eq_false, implies_true, and_self, false_implies]
  by_cases h0 : off % 8 = 0
  · rw [if_neg h8, if_neg h8, if_pos h0, if_pos h0, hjoin, ← hkeep]
    refine ⟨fun h => ?_, fun h => ?_⟩
    · have hlt : b < 32 := (h.resolve_left h8).2 h0
      rw [if_pos hlt, hlow v hlt]
    · have hge : ¬ b < 32 := fun hlt => h (.inr ⟨fun _ => h0, fun _ => hlt⟩)
      rw [if_neg hge, hhigh _ hge]
  · rw [if_neg h8, if_neg h8, if_neg h0, if_neg h0, hjoin, ← hkeep]
    refine ⟨fun h => ?_, fun h => ?_⟩
    · have hge : ¬ b < 32 := fun hlt => h0 ((h.resolve_left h8).1 hlt)
      rw [if_neg hge, Nat.mul_comm, Nat.testBit_two_pow_mul, decide_eq_true (Nat.le_of_not_lt hge), Bool.true_and]
    · have hlt : b < 32 := Decidable.byContradiction fun hge => h (.inr ⟨fun hlt => absurd hlt hge, fun h => absurd h h0⟩)
      rw [if_pos hlt]

/-- What a write by the access codes makes of each bit of its register. -/
theorem bitOf_plainWrite (s : State) (r : RegRow) (reg off size v b : Nat) (hb : b < 64) :
    bitOf (regGet (plainWrite s r reg (widen r (regGet s reg).toNat off size v)) reg).toNat b =
      if writeReaches off size b ∧ bitOf r.rw b = true then bitOf (writeVal off size v) b
      else if writeReaches off size b ∧ bitOf r.w1c b = true ∧ bitOf (writeVal off size v) b = true then false
      else bitOf (regGet s reg).toNat b := by
  obtain ⟨hreached, hkept⟩ := testBit_widen r (regGet s reg).toNat off size v b hb
  have hw : regGet (plainWrite s r reg (widen r (regGet s reg).toNat off size v)) reg =
      BitVec.ofNat 64 (regWritten r (regGet s reg).toNat (widen r (regGet s reg).toNat off size v)) := regGet_regPut_self ..
  simp only [hw, bitOf_eq_testBit, BitVec.toNat_ofNat, Nat.testBit_mod_two_pow, hb, decide_true, Bool.true_and, testBit_regWritten]
  by_cases hr : writeReaches off size b
  · simp only [hr, hreached hr, true_and, Bool.and_eq_true, and_comm]
  · simp only [hr, hkept hr, false_and, if_false]
    cases r.rw.testBit b <;> simp

/-! ### The host's register writes, case by case -/

theorem exec_registerWrite (w : BarWrite) (s : State) : exec (.registerWrite w) s = execRegisterWrite w s := rfl

theorem registerWrite_unserved {w : BarWrite} {s : State} (h : ¬ servedAt s (if w.bar4 then 0x100000 else w.off) = true) :
    exec (.registerWrite w) s = .next s := by
  simp only [exec_registerWrite, execRegisterWrite, h, Bool.not_false, if_true]

theorem registerWrite_poisoned {w : BarWrite} {s : State} (h : servedAt s (if w.bar4 then 0x100000 else w.off) = true)
    (hep : w.ep = true) : exec (.registerWrite w) s = .next (poisonedTlp s) := by
  simp only [exec_registerWrite, execRegisterWrite, h, hep, Bool.not_true, Bool.false_eq_true, if_false, if_true]

theorem registerWrite_bar0 {w : BarWrite} {s : State} (h : servedAt s (if w.bar4 then 0x100000 else w.off) = true)
    (hep : w.ep = false) (hb : w.bar4 = false) : exec (.registerWrite w) s = .next (bar0Write s w.off w.size w.v.toNat) := by
  simp only [exec_registerWrite, execRegisterWrite, h, hep, Bool.not_true, Bool.false_eq_true, if_false]
  rw [hb]
  rfl

theorem registerWrite_bar4 {w : BarWrite} {s : State} (h : servedAt s (if w.bar4 then 0x100000 else w.off) = true)
    (hep : w.ep = false) (hb : w.bar4 = true) : exec (.registerWrite w) s = .next (bar4Write s w.off w.size w.v.toNat) := by
  simp only [exec_registerWrite, execRegisterWrite, h, hep, Bool.not_true, Bool.false_eq_true, if_false]
  rw [hb]
  rfl

/-- An access of 8 or of 4 bytes, aligned to its size (R15). -/
abbrev writeFits (off size : Nat) : Prop := (size = 8 ∧ off % 8 = 0) ∨ (size = 4 ∧ off % 4 = 0)

theorem writeFits_iff (off size : Nat) :
    ((size == 8 && off % 8 == 0) || (size == 4 && off % 4 == 0)) = true ↔ writeFits off size := by
  simp [writeFits]

theorem bar0Write_dropped {s : State} {off size v : Nat} (h : ¬ writeFits off size ∨ rowOf (off / 8 * 8) = none) :
    bar0Write s off size v = s := by
  unfold bar0Write
  by_cases hf : writeFits off size
  · simp [(writeFits_iff off size).2 hf, h.resolve_left (not_not_intro hf)]
  · simp [mt (writeFits_iff off size).1 hf]

theorem bar0Write_row {s : State} {off size v : Nat} {r : RegRow} (hf : writeFits off size) (hr : rowOf (off / 8 * 8) = some r) :
    bar0Write s off size v = regEffect s r (off / 8 * 8) (widen r (regGet s (off / 8 * 8)).toNat off size v) (off % 8 == 0)
      (size == 8 || off % 8 == 4) := by
  unfold bar0Write
  simp [(writeFits_iff off size).2 hf, hr]

/-- The registers whose write has an effect of its own. -/
def actingRegs : List Nat :=
  [rCRLCFG 0 0 0, rHCRLCFG 0, rHCRLPTR 0, rORG_MDVAL, rSLA_INVAL, rCTXCTL 0, rCTXKILL 0, rQCTL 0 0, rCPLPTR 0 0, rGATE_MODECFG,
    rDMA_FLTRESP, rDMA_FLTRING, rDMA_FLTPTR, rCHCTL 0, rWKCTL 0, rWKRELW 0, rWKRET 0, rLNKCTL 0, rPWGEN 0 0, rRWCTL 0 0, rLANCTL 0,
    rHOST_IRQSRC 0, rHOST_MSIXCTL 0, rLOGRING, rLOGMASK, rHEDGECMD, rFWCMD, rTELRING, rBELVCTL]

theorem regEffect_plain {s : State} {r : RegRow} {off v : Nat} {low high : Bool} (h : r.base ∉ actingRegs) :
    regEffect s r off v low high = plainWrite s r off v := by
  simp only [actingRegs, List.mem_cons, List.not_mem_nil, or_false, not_or] at h
  simp only [regEffect, h, if_false]

/-- A write of a register with no effect of its own changes that register alone, by the access codes. -/
theorem registerWrite_plain {w : BarWrite} {s : State} {r : RegRow} (h : servedAt s (if w.bar4 then 0x100000 else w.off) = true)
    (hep : w.ep = false) (hb : w.bar4 = false) (hf : writeFits w.off w.size) (hr : rowOf (w.off / 8 * 8) = some r)
    (hbase : r.base ∉ actingRegs) :
    exec (.registerWrite w) s = .next (plainWrite s r (w.off / 8 * 8) (widen r (regGet s (w.off / 8 * 8)).toNat w.off w.size w.v.toNat)) := by
  rw [registerWrite_bar0 h hep hb, bar0Write_row hf hr, regEffect_plain hbase]

/-! ### What serves a request -/

/-- What `served` says: the module is on, the link is up, the function is in D0, the plots run and the module is not in recovery. -/
theorem served_iff (s : State) : served s = true ↔
    on s = true ∧ s.pcie.l0 = true ∧ s.pcie.d3 = false ∧ paused s = false ∧ recovering s = false := by
  simp [served, servedAt, and_assoc]

theorem servedAt_of_served {s : State} (h : served s = true) (off : Nat) : servedAt s off = true := by
  obtain ⟨h1, h2, h3, h4, h5⟩ := (served_iff s).1 h
  simp [servedAt, h1, h2, h3, h4, h5]

/-- A write of a whole register that is served has that register's effect. -/
theorem registerWrite_whole {s : State} {off : Nat} {r : RegRow} (v : BitVec 64) (h : served s = true) (h8 : off % 8 = 0)
    (hr : rowOf off = some r) :
    exec (.registerWrite ⟨false, off, 8, v, false⟩) s = .next (regEffect s r off v.toNat true true) := by
  have hoff : off / 8 * 8 = off := Nat.div_mul_cancel (Nat.dvd_of_mod_eq_zero h8)
  have hwiden : widen r (regGet s off).toNat off 8 v.toNat = v.toNat := by simp [widen, Nat.mod_eq_of_lt v.isLt]
  rw [registerWrite_bar0 (by simpa using servedAt_of_served h off) rfl rfl,
    bar0Write_row (r := r) (.inl ⟨rfl, h8⟩) (by simpa [hoff] using hr)]
  simp [hoff, hwiden, h8]

theorem wkctlWrite_eq {s : State} (h : served s = true) (w : Fin 64) (v : BitVec 64) :
    exec (.registerWrite ⟨false, rWKCTL w, 8, v, false⟩) s = .next (writeWkctl s w v.toNat) := by
  obtain ⟨r, hr, hbase, hi, -⟩ := row_wkctl w
  rw [registerWrite_whole v h (by simp only [rWKCTL]; omega) hr]
  simp only [regEffect, hi]
  simp [hbase, rWKCTL, rCRLCFG, rHCRLCFG, rHCRLPTR, rORG_MDVAL, rSLA_INVAL, rCTXCTL, rCTXKILL, rQCTL, rCPLPTR, rGATE_MODECFG,
    rDMA_FLTRESP, rDMA_FLTRING, rDMA_FLTPTR, rCHCTL]

theorem wkretWrite_eq {s : State} (h : served s = true) (w : Fin 64) (v : BitVec 64) :
    exec (.registerWrite ⟨false, rWKRET w, 8, v, false⟩) s = .next (wicketRelease s w (bitsOf v.toNat 31 8 * 256)) := by
  obtain ⟨r, hr, hbase, hi, -⟩ := row_wkret w
  rw [registerWrite_whole v h (by simp only [rWKRET]; omega) hr]
  simp only [regEffect, hi]
  simp [hbase, rWKCTL, rCRLCFG, rHCRLCFG, rHCRLPTR, rORG_MDVAL, rSLA_INVAL, rCTXCTL, rCTXKILL, rQCTL, rCPLPTR, rGATE_MODECFG,
    rDMA_FLTRESP, rDMA_FLTRING, rDMA_FLTPTR, rCHCTL, rWKRELW, rWKRET]

end Sys2Proof.Machine
end

section
namespace Sys2Proof.Machine

open Sys2Proof

/-! ### Register writes that act as a command of their own -/

theorem fltrespWrite_eq {s : State} (h : served s = true) (v : BitVec 64) :
    exec (.registerWrite ⟨false, rDMA_FLTRESP, 8, v, false⟩) s = .next (writeFltresp s v.toNat) := by
  obtain ⟨r, hr, hbase, -⟩ := row_fltresp
  rw [registerWrite_whole v h rfl hr]
  simp [regEffect, hbase, rCRLCFG, rHCRLCFG, rHCRLPTR, rORG_MDVAL, rSLA_INVAL, rCTXCTL, rCTXKILL, rQCTL, rCPLPTR, rGATE_MODECFG,
    rDMA_FLTRESP]

theorem fwcmdWrite_eq {s : State} (h : served s = true) (v : BitVec 64) :
    exec (.registerWrite ⟨false, rFWCMD, 8, v, false⟩) s = .next (writeFwcmd s v.toNat) := by
  obtain ⟨r, hr, hbase, -⟩ := row_fwcmd
  rw [registerWrite_whole v h rfl hr]
  simp [regEffect, hbase, rCRLCFG, rHCRLCFG, rHCRLPTR, rORG_MDVAL, rSLA_INVAL, rCTXCTL, rCTXKILL, rQCTL, rCPLPTR, rGATE_MODECFG,
    rDMA_FLTRESP, rDMA_FLTRING, rDMA_FLTPTR, rCHCTL, rWKCTL, rWKRELW, rWKRET, rLNKCTL, rPWGEN, rRWCTL, rLANCTL, rHOST_IRQSRC,
    rHOST_MSIXCTL, rLOGRING, rLOGMASK, rHEDGECMD, rFWCMD]

theorem bitsOf_single (v i : Nat) : bitsOf v i i = if bitOf v i = true then 1 else 0 := by
  have h : bitsOf v i i < 2 := by simpa using bitsOf_lt v i i
  simp only [bitOf, beq_iff_eq]
  split <;> omega

/-- A write of WKCTL opens its wicket if bit 63 is 1, and closes it otherwise. -/
theorem wkctlWrite_opens {s : State} (h : served s = true) (w : Fin 64) (v : BitVec 64) (hv : bitOf v.toNat 63 = true) :
    exec (.registerWrite ⟨false, rWKCTL w, 8, v, false⟩) s = exec (.wicketOpen w v) s := by
  have hopen : exec (.wicketOpen w v) s = whenServed s (writeWkctl s w (putBits v.toNat 63 63 1)) := rfl
  rw [wkctlWrite_eq h, hopen, whenServed_of _ _ h, putBits_of_bitsOf _ _ _ _ (by rw [bitsOf_single, if_pos hv])]

theorem wkctlWrite_closes {s : State} (h : served s = true) (w : Fin 64) (v : BitVec 64) (hv : bitOf v.toNat 63 = false) :
    exec (.registerWrite ⟨false, rWKCTL w, 8, v, false⟩) s = exec (.wicketClose w v) s := by
  have hclose : exec (.wicketClose w v) s = whenServed s (writeWkctl s w (putBits v.toNat 63 63 0)) := rfl
  rw [wkctlWrite_eq h, hclose, whenServed_of _ _ h, putBits_of_bitsOf _ _ _ _ (by rw [bitsOf_single, hv]; rfl)]

theorem wkretWrite_acts {s : State} (h : served s = true) (w : Fin 64) (v : BitVec 64) :
    exec (.registerWrite ⟨false, rWKRET w, 8, v, false⟩) s = exec (.wkret w v) s := by
  rw [wkretWrite_eq h, ← whenServed_of s _ h]
  rfl

theorem fltrespWrite_acts {s : State} (h : served s = true) (v : BitVec 64) :
    exec (.registerWrite ⟨false, rDMA_FLTRESP, 8, v, false⟩) s = exec (.fltresp v) s := by
  rw [fltrespWrite_eq h, ← whenServed_of s _ h]
  rfl

/-- The operation of FWCMD stands in its two top bits. -/
theorem bitsOf_pair (v : Nat) : bitsOf v 63 62 = 2 * bitsOf v 63 63 + bitsOf v 62 62 := by
  simp only [bitsOf]
  omega

theorem fwcmdWrite_writes {s : State} (h : served s = true) (v : BitVec 64) (h63 : bitOf v.toNat 63 = false)
    (h62 : bitOf v.toNat 62 = true) :
    exec (.registerWrite ⟨false, rFWCMD, 8, v, false⟩) s = exec (.firmwareWrite v 0) s := by
  have hop : bitsOf v.toNat 63 62 = 1 := by simp [bitsOf_pair, bitsOf_single, h63, h62]
  have hcmd : exec (.firmwareWrite v 0) s = .next (if servedAt s rFWCMD then fwWrite s v.toNat 0 else s) := rfl
  rw [fwcmdWrite_eq h, hcmd, if_pos (servedAt_of_served h _), writeFwcmd, hop]
  rfl

theorem fwcmdWrite_activates {s : State} (h : served s = true) (v : BitVec 64) (h63 : bitOf v.toNat 63 = true)
    (h62 : bitOf v.toNat 62 = false) :
    exec (.registerWrite ⟨false, rFWCMD, 8, v, false⟩) s = exec .firmwareActivate s := by
  have hop : bitsOf v.toNat 63 62 = 2 := by simp [bitsOf_pair, bitsOf_single, h63, h62]
  have hcmd : exec .firmwareActivate s = .next (if servedAt s rFWCMD then fwActivate s else s) := rfl
  rw [fwcmdWrite_eq h, hcmd, if_pos (servedAt_of_served h _), writeFwcmd, hop]
  rfl

/-- A BAR4 write at a queue's place is a doorbell (R575). -/
theorem bar4Write_doorbell (s : State) (c : Fin 16) (q : Fin 8) (v : Nat) :
    bar4Write s (4096 * c + 8 * q) 8 v = doorbell s c q (v % 2 ^ 32) := by
  have h8 : (4096 * c.val + 8 * q.val) % 8 = 0 := by omega
  have hlt : 4096 * c.val + 8 * q.val < 0x10000 := by omega
  have hc : (4096 * c.val + 8 * q.val) / 0x1000 = c := by omega
  have hq : (4096 * c.val + 8 * q.val) % 0x1000 = 8 * q := by omega
  have hlow : 8 * q.val < 0x40 := by omega
  have hq' : 8 * q.val / 8 = q := by omega
  unfold bar4Write
  simp only [h8, hlt, hc, hq, hlow, hq', if_true, beq_self_eq_true, Bool.true_and, Bool.true_or, Bool.not_true, Bool.false_eq_true,
    if_false, ne_eq, not_true_eq_false]

/-- A BAR4 write at a request line's place adds to the line (R470, R575). -/
theorem bar4Write_request (s : State) (l : Fin 256) (v : Nat) :
    bar4Write s (0x10000 + 8 * l) 8 v = addRequests s l (v % 65536) := by
  have h8 : (0x10000 + 8 * l.val) % 8 = 0 := by omega
  have hge : ¬ 0x10000 + 8 * l.val < 0x10000 := by omega
  have hlt : 0x10000 + 8 * l.val < 0x10800 := by omega
  have hl : (0x10000 + 8 * l.val - 0x10000) / 8 = l := by omega
  unfold bar4Write
  simp only [h8, hge, hlt, hl, if_true, beq_self_eq_true, Bool.true_and, Bool.true_or, Bool.not_true, Bool.false_eq_true,
    if_false, ne_eq, not_true_eq_false]

theorem registerWrite_doorbell {s : State} (h : served s = true) (c : Fin 16) (q : Fin 8) (v : BitVec 64) :
    exec (.registerWrite ⟨true, 4096 * c + 8 * q, 8, v, false⟩) s = exec (.doorbell c q v) s := by
  have hcmd : exec (.doorbell c q v) s = whenServed s (doorbell s c q (v.toNat % 2 ^ 32)) := rfl
  rw [registerWrite_bar4 (by exact h) rfl rfl, bar4Write_doorbell, hcmd, whenServed_of _ _ h]

theorem registerWrite_request {s : State} (h : served s = true) (l : Fin 256) (v : BitVec 64) :
    exec (.registerWrite ⟨true, 0x10000 + 8 * l, 8, v, false⟩) s = exec (.requestLineWrite l v) s := by
  have hcmd : exec (.requestLineWrite l v) s = whenServed s (addRequests s l (v.toNat % 65536)) := rfl
  rw [registerWrite_bar4 (by exact h) rfl rfl, bar4Write_request, hcmd, whenServed_of _ _ h]

/-! ### The log and the errors of the BARs -/

theorem sameMemory_refl (s : State) : sameMemory s s := ⟨rfl, rfl, rfl, rfl, rfl, rfl⟩

theorem sameMemory_trans {r s t : State} (h1 : sameMemory r s) (h2 : sameMemory s t) : sameMemory r t := by
  obtain ⟨a1, a2, a3, a4, a5, a6⟩ := h1
  obtain ⟨b1, b2, b3, b4, b5, b6⟩ := h2
  exact ⟨b1.trans a1, b2.trans a2, b3.trans a3, b4.trans a4, b5.trans a5, b6.trans a6⟩

theorem sameMemory_setF (s : State) (f : Fld) (v : Nat) : sameMemory s (setF s f v) := ⟨rfl, rfl, rfl, rfl, rfl, rfl⟩

theorem sameMemory_bump (s : State) (f : Fld) (n : Nat) : sameMemory s (bump s f n) := ⟨rfl, rfl, rfl, rfl, rfl, rfl⟩

/-- What recording an event can do: the event is counted, and then masked, queued or lost. -/
theorem logPut_cases (s : State) (e : LogEntry) :
    let u := bump s (fKINDCNT_COUNT e.kind) 1
    let x := { e with tick := tick u }
    logPut s e = u ∨ logPut s e = { u with logQ := u.logQ ++ [x], console := u.console ++ [.entry x] } ∨
      logPut s e = bump (setF u fLOGSTAT_LOST 1) fLOGSTAT_LOSTCNT 1 := by
  intro u x
  have heq : logPut s e = if e.kind != 0x15 && e.kind != 0x16 && !(bitOf (getF u fLOGMASK_MASK) (e.kind - 1)) then u
    else if logRoom u then { u with logQ := u.logQ ++ [x], console := u.console ++ [.entry x] }
    else bump (setF u fLOGSTAT_LOST 1) fLOGSTAT_LOSTCNT 1 := rfl
  rw [heq]
  split
  · exact .inl rfl
  · split
    · exact .inr (.inl rfl)
    · exact .inr (.inr rfl)

theorem sameMemory_queued (s : State) (q : List LogEntry) (c : List ConsoleLine) :
    sameMemory s { s with logQ := q, console := c } := ⟨rfl, rfl, rfl, rfl, rfl, rfl⟩

theorem sameMemory_logPut (s : State) (e : LogEntry) : sameMemory s (logPut s e) := by
  have hcounted := sameMemory_bump s (fKINDCNT_COUNT e.kind) 1
  rcases logPut_cases s e with h | h | h <;> rw [h]
  · exact hcounted
  · exact sameMemory_trans hcounted (sameMemory_queued ..)
  · exact sameMemory_trans hcounted (sameMemory_trans (sameMemory_setF ..) (sameMemory_bump ..))

/-- Recording an event touches the counter of its kind and LOGSTAT alone. -/
theorem regGet_logPut_other (s : State) (e : LogEntry) (b : Nat) (hk : rKINDCNT e.kind ≠ b) (hl : rLOGSTAT ≠ b) :
    regGet (logPut s e) b = regGet s b := by
  have hu : regGet (bump s (fKINDCNT_COUNT e.kind) 1) b = regGet s b := regGet_bump_other _ _ _ _ hk
  rcases logPut_cases s e with h | h | h
  · rw [h, hu]
  · rw [h]
    exact hu
  · rw [h, regGet_bump_other _ _ _ _ hl, regGet_setF_other _ _ _ _ hl, hu]

theorem getF_logPut_other (s : State) (e : LogEntry) (f : Fld) (hk : rKINDCNT e.kind ≠ f.reg) (hl : rLOGSTAT ≠ f.reg) :
    getF (logPut s e) f = getF s f := by
  rw [getF, getF, regGet_logPut_other s e _ hk hl]

/-- The flag of BARERR that an access sets, by its number, and the counter beside it. -/
def barFlag : Nat → Fld
  | 0 => fHOST_BARERR_TRANS
  | 1 => fHOST_BARERR_UE
  | 2 => fHOST_BARERR_OFF
  | _ => fHOST_BARERR_DBSIZE

def barCount : Nat → Fld
  | 0 => fHOST_BARERRCNT_TRANSCNT
  | 1 => fHOST_BARERRCNT_UECNT
  | 2 => fHOST_BARERRCNT_OFFCNT
  | _ => fHOST_BARERRCNT_DBSIZECNT

/-- The flags of BARERR, each with its counter. -/
def barFields : List (Fld × Fld) :=
  [(fHOST_BARERR_TRANS, fHOST_BARERRCNT_TRANSCNT), (fHOST_BARERR_UE, fHOST_BARERRCNT_UECNT),
    (fHOST_BARERR_OFF, fHOST_BARERRCNT_OFFCNT), (fHOST_BARERR_DBSIZE, fHOST_BARERRCNT_DBSIZECNT)]

theorem barFields_mem (i : Nat) : (barFlag i, barCount i) ∈ barFields := by
  match i with
  | 0 | 1 | 2 | _ + 3 => simp [barFlag, barCount, barFields]

/-- Each flag is one of the four lowest bits of BARERR, and each counter has 16 bits of BARERRCNT. -/
theorem barFields_shape : ∀ p ∈ barFields, p.1.reg = rHOST_BARERR ∧ p.1.hi = p.1.lo ∧ p.1.hi < 4 ∧
    p.2.reg = rHOST_BARERRCNT ∧ p.2.hi < 64 ∧ p.2.hi + 1 - p.2.lo = 16 := by decide

theorem barError_eq (s : State) (i off : Nat) :
    barError s i off = logEvent (setF (bump (setF s (barFlag i) 1) (barCount i) 1) fHOST_BARERR_LASTOFF (off / 16)) 0x12 i 0 [off, 0, 0, 0] := by
  match i with
  | 0 => rfl
  | 1 => rfl
  | 2 => rfl
  | _ + 3 => rfl

/-- A field of the two registers of BAR errors reads the same after the event is recorded. -/
theorem getF_barError (s : State) (i off : Nat) (f : Fld) (hf : f.reg = rHOST_BARERR ∨ f.reg = rHOST_BARERRCNT) :
    getF (barError s i off) f = getF (setF (bump (setF s (barFlag i) 1) (barCount i) 1) fHOST_BARERR_LASTOFF (off / 16)) f := by
  have hk : rKINDCNT 0x12 ≠ f.reg ∧ rLOGSTAT ≠ f.reg := by rcases hf with hf | hf <;> rw [hf] <;> decide
  rw [barError_eq, logEvent, getF_logPut_other _ _ _ hk.1 hk.2]

theorem sameMemory_barError (s : State) (i off : Nat) : sameMemory s (barError s i off) := by
  rw [barError_eq]
  exact sameMemory_trans (sameMemory_trans (sameMemory_trans (sameMemory_setF ..) (sameMemory_bump ..)) (sameMemory_setF ..))
    (sameMemory_logPut ..)

/-- An access in error sets its flag, counts and keeps its offset (R586). -/
theorem barError_reports (s : State) (i off : Nat) :
    isSet (barError s i off) (barFlag i) = true ∧ getF (barError s i off) (barCount i) = (getF s (barCount i) + 1) % 2 ^ 16 ∧
    getF (barError s i off) fHOST_BARERR_LASTOFF = off / 16 % 2 ^ 48 := by
  obtain ⟨hfreg, hfbit, hflow, hcreg, hchi, hcwidth⟩ := barFields_shape _ (barFields_mem i)
  dsimp only at hfreg hfbit hflow hcreg hchi hcwidth
  have hcf : (barCount i).apart (barFlag i) = true := by simp [Fld.apart, hfreg, hcreg, rHOST_BARERR, rHOST_BARERRCNT]
  have hfc : (barFlag i).apart (barCount i) = true := by simp [Fld.apart, hfreg, hcreg, rHOST_BARERR, rHOST_BARERRCNT]
  have hlf : fHOST_BARERR_LASTOFF.apart (barFlag i) = true := by simp [Fld.apart, fHOST_BARERR_LASTOFF, hflow]
  have hlc : fHOST_BARERR_LASTOFF.apart (barCount i) = true := by
    simp [Fld.apart, hcreg, fHOST_BARERR_LASTOFF, rHOST_BARERR, rHOST_BARERRCNT]
  refine ⟨?_, ?_, ?_⟩
  · rw [isSet, getF_barError _ _ _ _ (.inl hfreg), getF_setF_apart _ _ _ _ hlf, getF_bump_apart _ _ _ _ hcf,
      getF_setF_self _ _ _ (by omega), hfbit, Nat.add_sub_cancel_left]
    rfl
  · rw [getF_barError _ _ _ _ (.inr hcreg), getF_setF_apart _ _ _ _ hlc, getF_bump_self _ _ _ hchi, hcwidth,
      getF_setF_apart _ _ _ _ hfc]
  · rw [getF_barError _ _ _ _ (.inl rfl), getF_setF_self _ _ _ (by decide)]
    rfl

theorem bar4Write_misfit {s : State} {off size v : Nat} (h : ¬ writeFits off size) : bar4Write s off size v = barError s 3 off := by
  unfold bar4Write
  rw [if_pos (by rw [eq_false_of_ne_true (mt (writeFits_iff off size).1 h), Bool.not_false])]

end Sys2Proof.Machine
end

section
namespace Sys2Proof.Machine

open Sys2Proof

/-! ### Cutting a range at boundaries -/

theorem cutAt_empty (m fuel off : Nat) : cutAt m fuel off 0 = [] := by
  cases fuel <;> simp [cutAt]

/-- A range that crosses no boundary is one piece. -/
theorem cutAt_within {m off n : Nat} (fuel : Nat) (hn : 1 ≤ n) (hm : off % m + n ≤ m) : cutAt m (fuel + 1) off n = [(off, n)] := by
  have hk : min n (m - off % m) = n := Nat.min_eq_left (by omega)
  simp only [cutAt, if_neg (Nat.ne_of_gt hn), hk, Nat.sub_self, cutAt_empty]

/-! ### Writing bytes of the Orangery where no word is in error (R275) -/

theorem foldl_amErase_nil {β : Type} (l : List Nat) : l.foldl (fun (m : List (Nat × β)) w => amErase m w) [] = [] :=
  foldl_same _ _ l (fun _ _ => rfl)

theorem orgWrite_clean {s : State} (h : s.orgErr = []) (a : Nat) (bs : List Byte) :
    orgWrite s a bs = { s with org := putBytes s.org a bs } := by
  rw [orgWrite, h, foldl_amErase_nil, ← h]

/-- What a merge write does with one piece. -/
def mergeStep (a : Nat) (bs : List Byte) (acc : State × Bool) (c : Nat × Nat) : State × Bool :=
  if orgErrAt acc.1 c.1 = 2 ∧ c.2 < 8 then (noteUe acc.1 (c.1 / 8 * 8) 2, true)
  else
    let s := if orgErrAt acc.1 c.1 = 1 ∧ c.2 < 8 then
        bump (mendWord acc.1 c.1) (fSLC_CECNT_COUNT (orgSlice c.1)) 1
      else acc.1
    (orgWrite s c.1 ((bs.drop (c.1 - a)).take c.2), acc.2)

theorem mergeWrite_eq (s : State) (a : Nat) (bs : List Byte) :
    mergeWrite s a bs = (cutAt 8 (bs.length / 8 + 2) a bs.length).foldl (mergeStep a bs) (s, false) := rfl

theorem mergeStep_clean {s : State} (h : s.orgErr = []) (a : Nat) (bs : List Byte) (b : Bool) (off k : Nat) :
    mergeStep a bs (s, b) (off, k) = ({ s with org := putBytes s.org off ((bs.drop (off - a)).take k) }, b) := by
  have herr : orgErrAt s off = 0 := by rw [orgErrAt, h]; rfl
  have h2 : ¬ (0 = 2 ∧ k < 8) := fun hc => absurd hc.1 (by decide)
  have h1 : ¬ (0 = 1 ∧ k < 8) := fun hc => absurd hc.1 (by decide)
  simp only [mergeStep, herr, if_neg h2, if_neg h1, orgWrite_clean h]

/-- The pieces from `off` on write the bytes of `bs` from there on. -/
theorem mergeSteps_clean (s : State) (h : s.orgErr = []) (a : Nat) (bs : List Byte) (fuel : Nat) :
    ∀ (off n : Nat) (m : List Host.Cell), a ≤ off → off - a + n ≤ bs.length → (n = 0 ∨ off % 8 + n ≤ 8 * fuel) →
    ∃ m', (cutAt 8 fuel off n).foldl (mergeStep a bs) ({ s with org := m }, false) = ({ s with org := m' }, false) ∧
      ∀ x, amGet freshByte m' x = if off ≤ x ∧ x < off + n then bs.getD (x - a) 0 else amGet freshByte m x := by
  have hdone : ∀ (off : Nat) (m : List Host.Cell) (x : Nat), amGet freshByte m x =
      if off ≤ x ∧ x < off + 0 then bs.getD (x - a) 0 else amGet freshByte m x := fun off m x => by rw [if_neg (by omega)]
  induction fuel with
  | zero =>
    intro off n m _ _ hfuel
    obtain rfl : n = 0 := by omega
    exact ⟨m, rfl, hdone off m⟩
  | succ fuel ih =>
    intro off n m ha hlen hfuel
    by_cases hn : n = 0
    · subst hn
      exact ⟨m, by rw [cutAt_empty]; rfl, hdone off m⟩
    obtain ⟨k, hk⟩ : ∃ k, k = min n (8 - off % 8) := ⟨_, rfl⟩
    obtain ⟨m', hfold, hread⟩ := ih (off + k) (n - k) (putBytes m off ((bs.drop (off - a)).take k)) (by omega) (by omega) (by omega)
    refine ⟨m', ?_, fun x => ?_⟩
    · rw [cutAt, if_neg hn, ← hk, List.foldl_cons, mergeStep_clean (s := { s with org := m }) h]
      exact hfold
    · have hpart : ((bs.drop (off - a)).take k).length = k := by
        rw [List.length_take, List.length_drop]
        omega
      rw [hread, amGet_putBytes, hpart]
      by_cases h1 : off + k ≤ x ∧ x < off + k + (n - k)
      · rw [if_pos h1, if_pos (by omega)]
      · rw [if_neg h1]
        by_cases h2 : off ≤ x ∧ x < off + k
        · have hx : off - a + (x - off) = x - a := by omega
          rw [if_pos h2, if_pos (by omega), List.getD_eq_getElem?_getD, List.getElem?_take_of_lt (by omega), List.getElem?_drop, hx,
            List.getD_eq_getElem?_getD]
          rfl
        · rw [if_neg h2, if_neg (by omega)]

/-- A merge write where no word is in error writes its bytes, and changes nothing else. -/
theorem mergeWrite_clean {s : State} (h : s.orgErr = []) (a : Nat) (bs : List Byte) :
    ∃ m, mergeWrite s a bs = ({ s with org := m }, false) ∧
      ∀ x, amGet freshByte m x = if a ≤ x ∧ x < a + bs.length then bs.getD (x - a) 0 else orgByte s x := by
  rw [mergeWrite_eq]
  exact mergeSteps_clean s h a bs _ a bs.length s.org (Nat.le_refl a) (by omega) (.inr (by omega))

/-! ### The window (R570, R571) -/

/-- The Orangery address that BAR2 offset `o` names while the window's space is 0. -/
def windowOrg (s : State) (o : Nat) : Nat := getF s fHOST_WINCTL_BASE * 2 ^ 28 + o

/-- The piece at offset `o` lies in an Orangery slice that is ready. -/
def windowPlaced (s : State) (o : Nat) : Prop :=
  orgAssigned (windowOrg s o) = true ∧ getBit s fORG_ORGREADY_READY (orgSlice (windowOrg s o)) = true

/-- The window shows the Orangery. -/
def windowShowsOrg (s : State) : Prop := isSet s fHOST_WINCTL_EN = true ∧ getF s fHOST_WINCTL_SPACE = 0

theorem windowOpen_of_shows {s : State} (h : windowShowsOrg s) : windowOpen s = true := by
  simp [windowOpen, h.1, h.2]

theorem windowOpen_of_closed {s : State} (h : isSet s fHOST_WINCTL_EN = false ∨ 2 < getF s fHOST_WINCTL_SPACE) :
    windowOpen s = false := by
  rcases h with h | h
  · simp [windowOpen, h]
  · simp [windowOpen, h]

/-- A local Orangery address is in space 0. -/
theorem locate_local (s : State) (ctx : Nat) {a : Nat} (write sla : Bool) (h : a < 2 ^ 48) :
    locate s ctx a write sla = (s, if orgAssigned a then .org a else .bad 4) := by
  have hs : spaceOf a = 0 := by simp only [spaceOf, bitsOf]; omega
  rw [locate, hs]
  rfl

theorem winOf_org (s : State) (a : Nat) :
    winOf s (s, .org a) = (s, if getBit s fORG_ORGREADY_READY (orgSlice a) then .at_ (.org a) else .notReady) := rfl

theorem winOf_bad (s : State) (st : Nat) : winOf s (s, .bad st) = (s, if getF s fHOST_WINCTL_SPACE = 0 then .hole else .trans) := rfl

theorem windowAt_local {s : State} {o : Nat} (write : Bool) (h : windowShowsOrg s) (ho : o < 2 ^ 28) :
    windowAt s o write = winOf s (s, if orgAssigned (windowOrg s o) then .org (windowOrg s o) else .bad 4) := by
  have hbase : getF s fHOST_WINCTL_BASE < 2 ^ 20 := bitsOf_lt _ _ _
  have haddr : windowAddr s o = windowOrg s o := by rw [windowAddr, windowOrg, h.2, Nat.zero_mul, Nat.zero_add]
  rw [windowAt, haddr, locate_local _ _ _ _ (by rw [windowOrg]; omega)]

theorem windowAt_placed {s : State} {o : Nat} (write : Bool) (h : windowShowsOrg s) (ho : o < 2 ^ 28) (hp : windowPlaced s o) :
    windowAt s o write = (s, .at_ (.org (windowOrg s o))) := by
  obtain ⟨ha, hr⟩ := hp
  rw [windowAt_local write h ho, if_pos ha, winOf_org, if_pos hr]

theorem windowAt_hole {s : State} {o : Nat} (write : Bool) (h : windowShowsOrg s) (ho : o < 2 ^ 28)
    (ha : orgAssigned (windowOrg s o) = false) : windowAt s o write = (s, .hole) := by
  rw [windowAt_local write h ho, if_neg (by rw [ha]; exact Bool.false_ne_true), winOf_bad, if_pos h.2]

/-- A read of one piece, with what the piece answers. -/
theorem bar2Read_piece {s : State} {o n : Nat} {p : WinAt} (h : windowOpen s = true) (hf : s.fatal = false) (hn : 1 ≤ n)
    (hcut : o % 4096 + n ≤ 4096) (hp : windowAt s o false = (s, p)) (hw : p ≠ .waits) :
    let r := pieceRead (s, p) o n
    bar2Read s o n = { r.1 with reply := ⟨if r.2.2 then List.replicate n (0#8) else r.2.1, r.2.2, false⟩ } := by
  have hf' : isSet s fERRSTAT_FATAL = false := hf
  simp only [bar2Read, h, hf', cutAt_within _ hn hcut, windowRead, hp, hw, Bool.not_true, Bool.false_eq_true, if_false, List.nil_append,
    Bool.false_or]

theorem bar2Read_closed {s : State} (h : windowOpen s = false) (o n : Nat) :
    bar2Read s o n = { barError s 2 o with reply := ⟨List.replicate n (0#8), false, false⟩ } := by
  simp only [bar2Read, h, Bool.not_false, if_true]

theorem bar2Read_fatal {s : State} (h : windowOpen s = true) (hf : s.fatal = true) (o n : Nat) :
    bar2Read s o n = { (drawBytes n s).1 with reply := ⟨(drawBytes n s).2, false, false⟩ } := by
  have hf' : isSet s fERRSTAT_FATAL = true := hf
  simp only [bar2Read, h, hf', Bool.not_true, Bool.false_eq_true, if_false, if_true]

theorem noteRead_clean {s : State} (h : s.orgErr = []) (a n by_ : Nat) : noteRead s a n by_ = s := by
  rw [noteRead, h]
  rfl

/-- A read of the Orangery where nothing is hedged or in error brings its bytes and changes nothing. -/
theorem pieceRead_clean {s : State} {a n : Nat} (o : Nat) (h : s.orgErr = []) (hh : orgHedged s a n = false) :
    pieceRead (s, .at_ (.org a)) o n = (s, orgRead s a n, false) := by
  have hue : orgUe s a n = false := by rw [orgUe, h]; rfl
  simp [pieceRead, readLoc, orgAccess, hh, noteRead_clean h, hue]

theorem pieceRead_hedged {s : State} {a n : Nat} (o : Nat) (hh : orgHedged s a n = true) :
    pieceRead (s, .at_ (.org a)) o n = (barError s 1 o, List.replicate n (0#8), true) := by
  simp [pieceRead, readLoc, orgAccess, hh]

/-- A write of one piece. -/
theorem bar2Write_piece {s : State} {o : Nat} {bs : List Byte} {p : WinAt} (h : windowOpen s = true) (hn : 1 ≤ bs.length)
    (hcut : o % 4096 + bs.length ≤ 4096) (hp : windowAt s o true = (s, p)) (hw : p ≠ .waits) :
    bar2Write s o bs = pieceWrite (s, p) o bs := by
  simp only [bar2Write, h, cutAt_within _ hn hcut, windowWrite, hp, hw, Bool.not_true, Bool.false_eq_true, if_false, if_true, Nat.sub_self,
    List.drop_zero, List.take_length]

theorem bar2Write_closed {s : State} (h : windowOpen s = false) (o : Nat) (bs : List Byte) : bar2Write s o bs = barError s 2 o := by
  simp only [bar2Write, h, Bool.not_false, if_true]

/-- A write of the Orangery where nothing is hedged or in error. -/
theorem pieceWrite_clean {s : State} {a : Nat} {bs : List Byte} (o : Nat) (h : s.orgErr = []) (hh : orgHedged s a bs.length = false) :
    ∃ m, pieceWrite (s, .at_ (.org a)) o bs = { s with org := m } ∧
      ∀ x, amGet freshByte m x = if a ≤ x ∧ x < a + bs.length then bs.getD (x - a) 0 else orgByte s x := by
  obtain ⟨m, hm, hread⟩ := mergeWrite_clean h a bs
  refine ⟨m, ?_, hread⟩
  simp [pieceWrite, writeLoc, orgStore, hh, hm]

/-! ### The answers of window accesses -/

theorem exec_bar2Read (o : BitVec 28) (n : Nat) (s : State) : exec (.bar2Read o n) s = execBar2Read o n s := rfl

theorem exec_bar2Write (o : BitVec 28) (bs : List Byte) (ep : Bool) (s : State) :
    exec (.bar2Write o bs ep) s = execBar2Write o bs ep s := rfl

theorem exec_bar2Read_unsupported {s : State} {o : BitVec 28} {n : Nat}
    (h : (on s = true ∧ s.pcie.l0 = true ∧ s.pcie.d3 = true ∧ paused s = false) ∨ (served s = true ∧ 2 ^ 28 < o.toNat + n)) :
    exec (.bar2Read o n) s = .next (unsupported s) := by
  rcases h with ⟨h1, h2, h3, h4⟩ | ⟨hs, hn⟩
  · simp [exec_bar2Read, execBar2Read, h1, h2, h3, h4]
  · obtain ⟨-, -, hd3, -, -⟩ := (served_iff s).1 hs
    have hn' : ¬ o.toNat + n ≤ 2 ^ 28 := Nat.not_le.2 hn
    simp only [exec_bar2Read, execBar2Read, hs, hd3, hn', Bool.and_false, Bool.false_and, Bool.not_true, Bool.false_eq_true, if_false]

theorem exec_bar2Read_unserved {s : State} {o : BitVec 28} {n : Nat} (h : served s = false)
    (ha : ¬ (on s = true ∧ s.pcie.l0 = true ∧ s.pcie.d3 = true ∧ paused s = false)) : exec (.bar2Read o n) s = .next s := by
  have ha' : (on s && s.pcie.l0 && s.pcie.d3 && !(paused s)) = false := by
    rw [← Bool.not_eq_true]
    simpa [and_assoc] using ha
  simp only [exec_bar2Read, execBar2Read, h, ha', Bool.false_eq_true, if_false, Bool.not_false, if_true]

theorem exec_bar2Read_served {s : State} {o : BitVec 28} {n : Nat} (h : served s = true) (hn : o.toNat + n ≤ 2 ^ 28) :
    exec (.bar2Read o n) s = .next (bar2Read s o.toNat n) := by
  obtain ⟨-, -, hd3, -, -⟩ := (served_iff s).1 h
  simp only [exec_bar2Read, execBar2Read, h, hd3, hn, Bool.and_false, Bool.false_and, Bool.not_true, Bool.false_eq_true, if_false, if_true]

theorem exec_bar2Write_dropped {s : State} {o : BitVec 28} {bs : List Byte} {ep : Bool}
    (h : served s = false ∨ (ep = false ∧ 2 ^ 28 < o.toNat + bs.length)) : exec (.bar2Write o bs ep) s = .next s := by
  rcases h with h | ⟨hep, hn⟩
  · simp [exec_bar2Write, execBar2Write, whenServed, h]
  · simp only [exec_bar2Write, execBar2Write, whenServed, hep, Nat.not_le.2 hn, Bool.false_eq_true, if_false, ite_self]

theorem exec_bar2Write_poisoned {s : State} (o : BitVec 28) (bs : List Byte) (h : served s = true) :
    exec (.bar2Write o bs true) s = .next (poisonedTlp s) := by
  simp [exec_bar2Write, execBar2Write, whenServed, h]

theorem exec_bar2Write_served {s : State} {o : BitVec 28} {bs : List Byte} (h : served s = true) (hn : o.toNat + bs.length ≤ 2 ^ 28) :
    exec (.bar2Write o bs false) s = .next (bar2Write s o.toNat bs) := by
  simp only [exec_bar2Write, execBar2Write, whenServed, h, hn, Bool.false_eq_true, if_false, if_true]

end Sys2Proof.Machine
end

section
namespace Sys2Proof.Machine

open Sys2Proof

/-! ### MSI-X (R577, R580) -/

/-- Once nothing masks a vector whose pending bit is set, the bit is cleared and its message goes out. -/
theorem unmasked_pending {s : State} {v : Nat} (hp : getBit s (fHOST_MSIXPBA_PEND (v / 64)) (v % 64) = true)
    (hen : s.pcie.msixEn = true) (hfn : s.pcie.msixMask = false) (hv : isSet s (fHOST_MSIXCTL_MASK v) = false)
    (hreg : rHOST_MSIXPBA (v / 64) ≠ rHOST_MSIXCTL v ∧ rHOST_MSIXPBA (v / 64) ≠ rHOST_MSIXADDR v) :
    unmasked s v = { setBit s (fHOST_MSIXPBA_PEND (v / 64)) (v % 64) false with
      msgs := s.msgs ++ [((regGet s (rHOST_MSIXADDR v)).toNat, getF s (fHOST_MSIXCTL_DATA v))] } := by
  obtain ⟨hctl, haddr⟩ := hreg
  have hctl' : ∀ f : Fld, f.reg = rHOST_MSIXCTL v →
      getF (setBit s (fHOST_MSIXPBA_PEND (v / 64)) (v % 64) false) f = getF s f := fun f hf =>
    getF_setF_other _ _ _ _ (by rw [hf]; exact hctl)
  have hmask : isSet (setBit s (fHOST_MSIXPBA_PEND (v / 64)) (v % 64) false) (fHOST_MSIXCTL_MASK v) = false := by
    rw [isSet, hctl' _ rfl]
    exact hv
  simp only [unmasked, raiseVec, hp, hen, hfn, hv, hmask, setBit_fields, hctl' (fHOST_MSIXCTL_DATA v) rfl,
    regGet_setBit_other s (fHOST_MSIXPBA_PEND (v / 64)) (v % 64) false _ haddr, Bool.not_true, Bool.not_false, Bool.and_self, Bool.or_self,
    Bool.false_eq_true, if_false, if_true]

/-- A vector that is not pending, or that MSI-X as a whole masks or does not enable, sends nothing. -/
theorem unmasked_quiet {s : State} {v : Nat} (h : ¬ getBit s (fHOST_MSIXPBA_PEND (v / 64)) (v % 64) = true ∨ s.pcie.msixEn = false ∨
    s.pcie.msixMask = true) : unmasked s v = s := by
  rcases h with h | h | h <;> simp [unmasked, h]

theorem msixRegs_apart {v : Nat} (hv : v < 256) :
    rHOST_MSIXPBA (v / 64) ≠ rHOST_MSIXCTL v ∧ rHOST_MSIXPBA (v / 64) ≠ rHOST_MSIXADDR v ∧ rHOST_MSIXCTL v ≠ rHOST_MSIXADDR v := by
  simp only [rHOST_MSIXPBA, rHOST_MSIXCTL, rHOST_MSIXADDR]
  omega

theorem exec_msixUnmask {s : State} (h : servedAt s 0 = true) (v : BitVec 8) :
    exec (.msixUnmask v) s = .next (unmasked (setF s (fHOST_MSIXCTL_MASK v.toNat) 0) v.toNat) := by
  have harm : exec (.msixUnmask v) s = execMsixUnmask v s := rfl
  rw [harm, execMsixUnmask, if_pos h]

theorem sameMemory_setBit (s : State) (f : Fld) (i : Nat) (b : Bool) : sameMemory s (setBit s f i b) := sameMemory_setF ..

/-- Setting a field changes its register alone. -/
theorem onlyRegs_setF (s : State) (f : Fld) (v : Nat) : onlyRegs s (setF s f v) [f.reg] := fun _ hoff =>
  regGet_setF_other _ _ _ _ (fun h => hoff (List.mem_singleton.2 h.symm))

theorem isSet_withMsgs (s : State) (m : List (Nat × Nat)) (f : Fld) : isSet { s with msgs := m } f = isSet s f := rfl

theorem getBit_withMsgs (s : State) (m : List (Nat × Nat)) (f : Fld) (i : Nat) : getBit { s with msgs := m } f i = getBit s f i := rfl
theorem sameMemory_withMsgs {s t : State} (m : List (Nat × Nat)) (h : sameMemory s t) : sameMemory s { t with msgs := m } := h

section
variable (s : State) {v : Nat} (hv : v < 256)

include hv in
/-- Clearing the mask bit of a vector leaves its pending bit. -/
theorem pending_maskCleared : getBit (setF s (fHOST_MSIXCTL_MASK v) 0) (fHOST_MSIXPBA_PEND (v / 64)) (v % 64) =
    getBit s (fHOST_MSIXPBA_PEND (v / 64)) (v % 64) := by
  rw [getBit, getBit, getF_setF_other _ _ _ _ (msixRegs_apart hv).1.symm]

theorem mask_maskCleared (v : Nat) : isSet (setF s (fHOST_MSIXCTL_MASK v) 0) (fHOST_MSIXCTL_MASK v) = false :=
  isSet_setF_self _ _ _ (by simp [fHOST_MSIXCTL_MASK])

include hv

/-- A vector whose mask bit is cleared sends the message that waits, if nothing else holds it. -/
theorem unmask_sends (hw : getBit s (fHOST_MSIXPBA_PEND (v / 64)) (v % 64) = true) (hen : s.pcie.msixEn = true)
    (hfn : s.pcie.msixMask = false) :
    unmasked (setF s (fHOST_MSIXCTL_MASK v) 0) v =
      { setBit (setF s (fHOST_MSIXCTL_MASK v) 0) (fHOST_MSIXPBA_PEND (v / 64)) (v % 64) false with
        msgs := s.msgs ++ [((regGet s (rHOST_MSIXADDR v)).toNat, getF s (fHOST_MSIXCTL_DATA v))] } := by
  obtain ⟨hpc, hpa, hca⟩ := msixRegs_apart hv
  have hdata : getF (setF s (fHOST_MSIXCTL_MASK v) 0) (fHOST_MSIXCTL_DATA v) = getF s (fHOST_MSIXCTL_DATA v) :=
    getF_setF_apart _ _ _ _ (by simp [Fld.apart, fHOST_MSIXCTL_MASK, fHOST_MSIXCTL_DATA])
  have haddr : regGet (setF s (fHOST_MSIXCTL_MASK v) 0) (rHOST_MSIXADDR v) = regGet s (rHOST_MSIXADDR v) :=
    regGet_setF_other _ _ _ _ hca
  have hmsgs : (setF s (fHOST_MSIXCTL_MASK v) 0).msgs = s.msgs := by simp
  rw [unmasked_pending ((pending_maskCleared s hv).trans hw) (by simpa using hen) (by simpa using hfn) (mask_maskCleared s v) ⟨hpc, hpa⟩,
    hdata, haddr, hmsgs]

theorem unmask_quiet (h : ¬ getBit s (fHOST_MSIXPBA_PEND (v / 64)) (v % 64) = true ∨ s.pcie.msixEn = false ∨ s.pcie.msixMask = true) :
    unmasked (setF s (fHOST_MSIXCTL_MASK v) 0) v = setF s (fHOST_MSIXCTL_MASK v) 0 :=
  unmasked_quiet (by rw [pending_maskCleared s hv]; simpa using h)

theorem unmask_sends_reads (hw : getBit s (fHOST_MSIXPBA_PEND (v / 64)) (v % 64) = true) (hen : s.pcie.msixEn = true)
    (hfn : s.pcie.msixMask = false) :
    getBit (unmasked (setF s (fHOST_MSIXCTL_MASK v) 0) v) (fHOST_MSIXPBA_PEND (v / 64)) (v % 64) = false ∧
    (unmasked (setF s (fHOST_MSIXCTL_MASK v) 0) v).msgs =
      s.msgs ++ [((regGet s (rHOST_MSIXADDR v)).toNat, getF s (fHOST_MSIXCTL_DATA v))] := by
  have hbit : v % 64 + (fHOST_MSIXPBA_PEND (v / 64)).lo ≤ (fHOST_MSIXPBA_PEND (v / 64)).hi := by
    simp only [fHOST_MSIXPBA_PEND]
    omega
  rw [unmask_sends s hv hw hen hfn]
  exact ⟨(getBit_withMsgs ..).trans (getBit_setBit_self _ _ _ _ (Nat.lt_succ_self 63) hbit), rfl⟩

theorem unmask_quiet_reads (h : ¬ getBit s (fHOST_MSIXPBA_PEND (v / 64)) (v % 64) = true ∨ s.pcie.msixEn = false ∨
    s.pcie.msixMask = true) :
    (unmasked (setF s (fHOST_MSIXCTL_MASK v) 0) v).msgs = s.msgs ∧
    onlyRegs s (unmasked (setF s (fHOST_MSIXCTL_MASK v) 0) v) [rHOST_MSIXCTL v] := by
  rw [unmask_quiet s hv h]
  exact ⟨by simp, onlyRegs_setF s (fHOST_MSIXCTL_MASK v) 0⟩

/-- The mask bit reads 0 afterwards, sent or not. -/
theorem unmask_clears : isSet (unmasked (setF s (fHOST_MSIXCTL_MASK v) 0) v) (fHOST_MSIXCTL_MASK v) = false ∧
    sameMemory s (unmasked (setF s (fHOST_MSIXCTL_MASK v) 0) v) := by
  by_cases h : ¬ getBit s (fHOST_MSIXPBA_PEND (v / 64)) (v % 64) = true ∨ s.pcie.msixEn = false ∨ s.pcie.msixMask = true
  · rw [unmask_quiet s hv h]
    exact ⟨mask_maskCleared s v, sameMemory_setF ..⟩
  · simp only [not_or, Bool.not_eq_false, Bool.not_eq_true] at h
    obtain ⟨hw, hen, hfn⟩ := h
    have hmask : isSet (setBit (setF s (fHOST_MSIXCTL_MASK v) 0) (fHOST_MSIXPBA_PEND (v / 64)) (v % 64) false) (fHOST_MSIXCTL_MASK v) =
        false := by
      rw [setBit, isSet, getF_setF_other _ _ _ _ (msixRegs_apart hv).1]
      exact mask_maskCleared s v
    have hmem := sameMemory_trans (sameMemory_setF s (fHOST_MSIXCTL_MASK v) 0)
      (sameMemory_setBit _ (fHOST_MSIXPBA_PEND (v / 64)) (v % 64) false)
    rw [unmask_sends s hv hw hen hfn]
    exact ⟨(isSet_withMsgs ..).trans hmask, sameMemory_withMsgs _ hmem⟩

end

/-! ### Firmware (R616, R617) -/

/-- The result of a firmware command stands in FWSTAT, whose BUSY is 0. -/
theorem fwResult_reads (s : State) {r : Nat} (hr : r < 8) :
    isSet (fwResult s r) fFWSTAT_BUSY = false ∧ getF (fwResult s r) fFWSTAT_RESULT = r := by
  refine ⟨?_, ?_⟩
  · rw [fwResult, isSet_setF_apart _ _ _ _ (by decide)]
    exact isSet_setF_self _ _ _ (by decide)
  · rw [fwResult, getF_setF_self _ _ _ (by decide)]
    exact Nat.mod_eq_of_lt hr

theorem regGet_fwResult_other (s : State) (r b : Nat) (h : rFWSTAT ≠ b) : regGet (fwResult s r) b = regGet s b := by
  rw [fwResult, regGet_setF_other _ _ _ _ h, regGet_setF_other _ _ _ _ h]

theorem fwWrite_busy {s : State} (h : isSet s fFWSTAT_BUSY = true) (v hostSt : Nat) : fwWrite s v hostSt = s := by
  rw [fwWrite, if_pos h]

theorem fwActivate_busy {s : State} (h : isSet s fFWSTAT_BUSY = true) : fwActivate s = s := by
  rw [fwActivate, if_pos h]

theorem fwWrite_empty {s : State} (h : ¬ isSet s fFWSTAT_BUSY = true) {v : Nat} (hn : bitsOf v 61 52 = 0) (hostSt : Nat) :
    fwWrite s v hostSt = fwResult s 3 := by
  rw [fwWrite, if_neg h]
  exact if_pos hn

theorem fwWrite_failed {s : State} (h : ¬ isSet s fFWSTAT_BUSY = true) {v hostSt : Nat} (hn : 0 < bitsOf v 61 52) (hh : hostSt ≠ 0) :
    fwWrite s v hostSt = fwResult s 4 := by
  rw [fwWrite, if_neg h]
  exact (if_neg (Nat.ne_of_gt hn)).trans (if_pos hh)

/-- LODGESTAT shows that an image is being written, unless the module is in recovery. -/
def fwWriting (s : State) (code : Nat) : State := if recovering s then s else setF s fLODGESTAT_STATE code

theorem getF_fwWriting_apart (s : State) (code : Nat) (f : Fld) (h : fLODGESTAT_STATE.apart f = true) :
    getF (fwWriting s code) f = getF s f := by
  unfold fwWriting
  split
  · rfl
  · exact getF_setF_apart _ _ _ _ h

theorem fwWriting_fields (s : State) (code : Nat) : (fwWriting s code).lodge = s.lodge ∧ sameMemory s (fwWriting s code) ∧
    onlyRegs s (fwWriting s code) [rLODGESTAT] := by
  unfold fwWriting
  split
  · exact ⟨rfl, sameMemory_refl s, fun _ _ => rfl⟩
  · exact ⟨by simp, sameMemory_setF .., onlyRegs_setF s fLODGESTAT_STATE code⟩

/-- The module neither enters recovery nor leaves it by that. -/
theorem recovering_fwWriting (s : State) {code : Nat} (hc : code < 8) (h2 : code ≠ 2) :
    recovering (fwWriting s code) = recovering s := by
  unfold fwWriting
  split
  · rfl
  · next h =>
    have hcode : getF (setF s fLODGESTAT_STATE code) fLODGESTAT_STATE = code :=
      (getF_setF_self _ _ _ (by decide)).trans (Nat.mod_eq_of_lt hc)
    rw [recovering, hcode, eq_false_of_ne_true h]
    simpa using h2

/-! What a change of the Lodge's own memory leaves as it was. -/

theorem getF_modLodge (s : State) (g : Lodge → Lodge) (f : Fld) : getF (modLodge s g) f = getF s f := rfl
theorem isSet_modLodge (s : State) (g : Lodge → Lodge) (f : Fld) : isSet (modLodge s g) f = isSet s f := rfl
theorem sameMemory_modLodge (s : State) (g : Lodge → Lodge) : sameMemory s (modLodge s g) := ⟨rfl, rfl, rfl, rfl, rfl, rfl⟩

/-- The image that does not run depends on LODGESTAT and the boot header alone. -/
theorem idleImage_congr {s t : State} (hr : recovering t = recovering s) (hi : getF t fLODGESTAT_IMAGE = getF s fLODGESTAT_IMAGE)
    (ha : t.lodge.active = s.lodge.active) : idleImage t = idleImage s := by
  rw [idleImage, idleImage, hr, hi, ha]

/-- The state in which the writing of an image begins: the bytes are fetched, and BUSY is 1. -/
def fwBegun (s : State) (v : Nat) : State :=
  fwWriting (setF (setF (sendUp s none false (bitsOf v 51 12 * 4096) (4096 * bitsOf v 61 52)) fFWSTAT_BUSY 1) fFWSTAT_RESULT 0) 3

/-- The bytes of the new image. -/
def fwBytes (s : State) (v : Nat) : List Byte := fromHost s (bitsOf v 51 12 * 4096) (4096 * bitsOf v 61 52)

/-- An image that does not run begins to be overwritten, and is bad from now on (R617; assumption 64). -/
theorem fwWrite_begins {s : State} (h : ¬ isSet s fFWSTAT_BUSY = true) {v : Nat} (hn : 0 < bitsOf v 61 52) :
    fwWrite s v 0 = setImage (modLodge (fwBegun s v) (fun l => { l with writing := some (fwBytes s v) }))
      (idleImage (fwBegun s v)) ⟨[], false⟩ := by
  have hstart : isSet s fFWSTAT_BUSY = false := eq_false_of_ne_true h
  simp only [fwWrite, fwBegun, fwBytes, fwWriting, hstart, Nat.ne_of_gt hn, ne_eq, not_true_eq_false, Bool.false_eq_true, if_false]

/-- That state differs from the one before in FWSTAT, LODGESTAT and the requests to the host. -/
theorem fwBegun_reads (s : State) (v : Nat) : isSet (fwBegun s v) fFWSTAT_BUSY = true ∧ getF (fwBegun s v) fFWSTAT_RESULT = 0 ∧
    (fwBegun s v).lodge = s.lodge ∧ sameMemory s (fwBegun s v) ∧ idleImage (fwBegun s v) = idleImage s := by
  unfold fwBegun
  generalize bitsOf v 51 12 * 4096 = a, 4096 * bitsOf v 61 52 = n
  have hsent : sameMemory s (sendUp s none false a n) := ⟨rfl, rfl, rfl, rfl, rfl, rfl⟩
  have hidle : idleImage (sendUp s none false a n) = idleImage s := idleImage_congr rfl rfl rfl
  have hlodge : (sendUp s none false a n).lodge = s.lodge := rfl
  generalize sendUp s none false a n = u at hsent hidle hlodge
  obtain ⟨hl, hm, -⟩ := fwWriting_fields (setF (setF u fFWSTAT_BUSY 1) fFWSTAT_RESULT 0) 3
  have hmarks : idleImage (setF (setF u fFWSTAT_BUSY 1) fFWSTAT_RESULT 0) = idleImage u := by
    refine idleImage_congr ?_ ?_ (by simp)
    · rw [recovering, recovering, getF_setF_apart _ _ _ _ (by decide), getF_setF_apart _ _ _ _ (by decide)]
    · rw [getF_setF_apart _ _ _ _ (by decide), getF_setF_apart _ _ _ _ (by decide)]
  refine ⟨?_, ?_, ?_, ?_, ?_⟩
  · rw [isSet, getF_fwWriting_apart _ _ _ (by decide), getF_setF_apart _ _ _ _ (by decide), getF_setF_self _ _ _ (by decide)]
    rfl
  · rw [getF_fwWriting_apart _ _ _ (by decide), getF_setF_self _ _ _ (by decide)]
    rfl
  · rw [hl, ← hlodge]
    simp
  · exact sameMemory_trans (sameMemory_trans hsent (sameMemory_trans (sameMemory_setF ..) (sameMemory_setF ..))) hm
  · have hstate : idleImage (fwWriting (setF (setF u fFWSTAT_BUSY 1) fFWSTAT_RESULT 0) 3) =
        idleImage (setF (setF u fFWSTAT_BUSY 1) fFWSTAT_RESULT 0) :=
      idleImage_congr (recovering_fwWriting _ (by decide) (by decide)) (getF_fwWriting_apart _ _ _ (by decide)) (by rw [hl])
    rw [hstate, hmarks, hidle]

/-- What the beginning of a write leaves to read (R617). -/
theorem fwWrite_begins_reads {s : State} (h : ¬ isSet s fFWSTAT_BUSY = true) {v : Nat} (hn : 0 < bitsOf v 61 52) :
    isSet (fwWrite s v 0) fFWSTAT_BUSY = true ∧ getF (fwWrite s v 0) fFWSTAT_RESULT = 0 ∧
    (fwWrite s v 0).lodge = { s.lodge with writing := some (fwBytes s v), images := s.lodge.images.set (idleImage s) ⟨[], false⟩ } ∧
    sameMemory s (fwWrite s v 0) := by
  obtain ⟨hbusy, hres, hlodge, hmem, hidle⟩ := fwBegun_reads s v
  rw [fwWrite_begins h hn, hidle, setImage]
  generalize fwBytes s v = bytes
  generalize fwBegun s v = u at hbusy hres hlodge hmem
  refine ⟨?_, ?_, ?_, sameMemory_trans hmem (sameMemory_trans (sameMemory_modLodge ..) (sameMemory_modLodge ..))⟩
  · rw [isSet_modLodge, isSet_modLodge, hbusy]
  · rw [getF_modLodge, getF_modLodge, hres]
  · rw [modLodge, modLodge, hlodge]

theorem exec_firmwareWriteDone (same : Bool) (s : State) : exec (.firmwareWriteDone same) s = execFirmwareWriteDone same s := rfl

/-- Nothing is being written: the read-back has nothing to report. -/
theorem fwDone_none {s : State} (h : s.lodge.writing = none) (same : Bool) : exec (.firmwareWriteDone same) s = .next s := by
  simp only [exec_firmwareWriteDone, execFirmwareWriteDone, whenUp, h, ite_self]

/-- The state after the read-back of `bytes`, good or bad. -/
def fwDone (s : State) (bytes : List Byte) (good : Bool) : State :=
  fwResult (fwWriting (setImage (modLodge s (fun l => { l with writing := none }))
    (idleImage s) ⟨bytes, good⟩) 1) (if good then 1 else 2)

theorem firmwareWriteDone_of_writing {s : State} (h : on s = true) {bytes : List Byte} (hw : s.lodge.writing = some bytes) (same : Bool) :
    exec (.firmwareWriteDone same) s = .next (fwDone s bytes (same && Config.imageGood bytes)) := by
  simp only [exec_firmwareWriteDone, execFirmwareWriteDone, whenUp, h, hw, if_true, fwDone, fwWriting]

/-- The read-back ends the write: the image stands in the flash, and only a good one counts as good (R617). -/
theorem fwDone_reads (s : State) (bytes : List Byte) (good : Bool) :
    isSet (fwDone s bytes good) fFWSTAT_BUSY = false ∧ getF (fwDone s bytes good) fFWSTAT_RESULT = (if good then 1 else 2) ∧
    (fwDone s bytes good).lodge = { s.lodge with writing := none, images := s.lodge.images.set (idleImage s) ⟨bytes, good⟩ } ∧
    onlyRegs s (fwDone s bytes good) [rFWSTAT, rLODGESTAT] ∧ sameMemory s (fwDone s bytes good) := by
  rw [fwDone]
  generalize hu : setImage (modLodge s (fun l => { l with writing := none })) (idleImage s) ⟨bytes, good⟩ = u
  have hlodge : u.lodge = { s.lodge with writing := none, images := s.lodge.images.set (idleImage s) ⟨bytes, good⟩ } := hu ▸ rfl
  have hmem : sameMemory s u := hu ▸ sameMemory_trans (sameMemory_modLodge ..) (sameMemory_modLodge ..)
  have hregs : ∀ off, regGet u off = regGet s off := fun _ => hu ▸ rfl
  obtain ⟨hl, hm, hr⟩ := fwWriting_fields u 1
  obtain ⟨hbusy, hres⟩ := fwResult_reads (fwWriting u 1) (r := if good then 1 else 2) (by split <;> decide)
  refine ⟨hbusy, hres, ?_, fun off hoff => ?_, ?_⟩
  · rw [← hlodge, ← hl]
    simp [fwResult]
  · simp only [List.mem_cons, List.not_mem_nil, or_false, not_or] at hoff
    rw [regGet_fwResult_other _ _ _ (Ne.symm hoff.1), hr off (by simpa using hoff.2), hregs]
  · exact sameMemory_trans hmem (sameMemory_trans hm (sameMemory_trans (sameMemory_setF ..) (sameMemory_setF ..)))

theorem fwActivate_good {s : State} (h : ¬ isSet s fFWSTAT_BUSY = true)
    (hg : (s.lodge.images.getD (idleImage s) ⟨[], false⟩).good = true) :
    fwActivate s = fwResult (modLodge s (fun l => { l with active := idleImage s })) 1 := by
  rw [fwActivate, if_neg h, if_pos hg]

theorem fwActivate_bad {s : State} (h : ¬ isSet s fFWSTAT_BUSY = true)
    (hg : (s.lodge.images.getD (idleImage s) ⟨[], false⟩).good = false) : fwActivate s = fwResult s 3 := by
  rw [fwActivate, if_neg h, if_neg (by rw [hg]; exact Bool.false_ne_true)]

theorem lodge_fwResult (s : State) (r : Nat) : (fwResult s r).lodge = s.lodge := by simp [fwResult]

theorem exec_firmwareWrite {s : State} (h : servedAt s rFWCMD = true) (v : BitVec 64) (st : Fin 4) :
    exec (.firmwareWrite v st) s = .next (fwWrite s v.toNat st) := by
  have harm : exec (.firmwareWrite v st) s = execFirmwareWrite v st s := rfl
  rw [harm, execFirmwareWrite, if_pos h]

theorem exec_firmwareActivate {s : State} (h : servedAt s rFWCMD = true) : exec .firmwareActivate s = .next (fwActivate s) := by
  have harm : exec .firmwareActivate s = execFirmwareActivate s := rfl
  rw [harm, execFirmwareActivate, if_pos h]

/-! ### Reads on the management bus (R655) -/

/-- The registers of which a field is computed from another unit when they are read. -/
def computedRegs : List Nat :=
  [rARRSTAT 0 0, rTRLIVE 0 0, rTRSTALE 0 0, rTRREL 0 0, rTRWIDTH0 0 0, rTRWIDTH1 0 0, rEESTAT 0 0, rSOPOUT 0 0, rCRLHDR 0 0 0,
    rSTRSTAT 0 0, rSTRWAIT 0 0, rSTRHOLDCY 0 0, rSTRPC 0 0, rSTRLT 0 0, rSTRLOOP0 0 0, rSTRLOOP1 0 0, rGATE_GATESTAT, rGATE_YIELDREQ,
    rQSTAT 0 0, rDMA_DMASTAT, rCHSTAT 0, rLNKSTAT 0, rORG_MDVAL, rLOGSTAT, rLODGESTAT, rMTRNOW 0]

theorem liveFields_none {base : Nat} (h : base ∉ computedRegs) (s : State) (ix : List Nat) : liveFields s base ix = [] := by
  simp only [computedRegs, List.mem_cons, List.not_mem_nil, or_false, not_or] at h
  simp only [liveFields, h, if_false]

/-- A register of which no field is computed reads as it stands. -/
theorem readReg_stored {off : Nat} (hr : (rowOf off).map (fun r => r.base) = some off) (h : off ∉ computedRegs) (s : State) :
    readReg s off = (regGet s off).toNat := by
  obtain ⟨r, hr, hbase⟩ := Option.map_eq_some_iff.1 hr
  simp only [readReg, hr, hbase, liveFields_none h, List.foldl_nil]

theorem liveFields_lodgestat (s : State) (ix : List Nat) : liveFields s rLODGESTAT ix = [(31, 0, poweredHours s)] := by
  simp [liveFields, rARRSTAT, rTRLIVE, rTRSTALE, rTRREL, rTRWIDTH0, rTRWIDTH1, rEESTAT, rSOPOUT, rCRLHDR, rSTRSTAT, rSTRWAIT, rSTRHOLDCY,
    rSTRPC, rSTRLT, rSTRLOOP0, rSTRLOOP1, rGATE_GATESTAT, rGATE_YIELDREQ, rQSTAT, rDMA_DMASTAT, rCHSTAT, rLNKSTAT, rORG_MDVAL, rLOGSTAT,
    rLODGESTAT]

/-- LODGESTAT reads its stored fields above the powered hours of the module's life (R641). -/
theorem readReg_lodgestat (s : State) : readReg s rLODGESTAT =
    (regGet s rLODGESTAT).toNat / 2 ^ 32 * 2 ^ 32 + (s.lodge.powTicks + tick s) / 360000000000 % 2 ^ 32 := by
  have hr : (rowOf rLODGESTAT).map (fun r => r.base) = some rLODGESTAT := by decide +kernel
  obtain ⟨r, hr, hbase⟩ := Option.map_eq_some_iff.1 hr
  have hput : ∀ w v : Nat, putBits w 31 0 v = w / 2 ^ 32 * 2 ^ 32 + v % 2 ^ 32 := fun w v => by
    have hlow : putBits w 31 0 v = w - w / 1 % 2 ^ 32 * 1 + v % 2 ^ 32 * 1 := rfl
    rw [hlow]
    omega
  simp only [readReg, hr, hbase, liveFields_lodgestat, List.foldl_cons, List.foldl_nil, hput, poweredHours, powered]

/-- A read is answered while the Lodge has its supply, and changes nothing else. -/
theorem smbusRead_answers {c : Instr} {s : State} {v : Nat} (h : exec c s = smbusRead s v) :
    (s.pins.lodge = false → exec c s = .next s) ∧
    (s.pins.lodge = true → nextIs c s fun t => t.reply = ⟨leBytes 8 v, false, false⟩ ∧ { t with reply := s.reply } = s) := by
  rw [smbusRead] at h
  refine ⟨fun hl => ?_, fun hl => ⟨smbus s v, ?_, rfl, rfl⟩⟩
  · rw [h, hl]
    rfl
  · rw [h, hl]
    rfl

end Sys2Proof.Machine
end

section
namespace Sys2Proof.Machine

open Sys2Proof

/-! ### What a step does (O3) -/

theorem step_of_idle {s : State} (h : s.pending = []) : step s = .next (idle s) := by rw [step, h]

theorem step_of_command {s : State} {c : Instr} {rest : List Instr} (h : s.pending = c :: rest) :
    step s = exec c { s with pending := rest } := by rw [step, h]

/-- A step keeps what its command keeps, counted from the state without the front command. -/
theorem step_keeps {s t : State} (h : step s = .next t) : Keeps { s with pending := s.pending.tail } t := by
  match hp : s.pending with
  | [] =>
    obtain rfl : idle s = t := by simpa [step_of_idle hp] using h
    have : { s with pending := [] } = s := by rw [← hp]
    simpa only [List.tail_nil, this] using idle_keeps s
  | c :: rest =>
    rw [step_of_command hp] at h
    exact exec_keeps c _ t h

/-- Settles O3: a step takes the front command from the queue, and neither the command's meaning nor a tick touches the rest
of the queue or the part. -/
theorem queueIsFirstInFirstOut : Obligations.QueueIsFirstInFirstOut := by
  intro s t h
  obtain ⟨hqueue, hpart, _⟩ := step_keeps h
  exact ⟨hqueue, hpart⟩

/-! ### The registers at reset (O60) -/

/-- At reset every port wants 8 lanes at least, and is down (R560). -/
theorem ports_reset (p : Fin 8) : getF State.reset (fLNKCTL_MINLANES p) = 8 ∧ portState State.reset p = 0 := by
  simp only [portState, getF, fLNKCTL_MINLANES, fLNKSTAT_STATE, regGet_reset_of_row (row_lnkctl p), regGet_reset_of_row (row_lnkstat p)]
  decide

/-- At reset every generator's jitter limit is 25 ps (R620, R640). -/
theorem generators_reset (j : Fin 10) : getF State.reset (fGENMON_JITLIM j) = 25 := by
  simp only [getF, fGENMON_JITLIM, regGet_reset_of_row (row_genmon j)]
  decide

/-- At reset every wicket is closed and quiet. -/
theorem wickets_reset (w : Fin 64) : isSet State.reset (fWKCTL_EN w) = false ∧ isSet State.reset (fWKCTL_QUIET w) = true := by
  simp only [isSet, getF, fWKCTL_EN, fWKCTL_QUIET, regGet_reset_of_row (row_wkctl w)]
  decide

/-- At reset every DMA channel is disabled and quiet. -/
theorem channels_reset (ch : Fin 64) : isSet State.reset (fCHCTL_EN ch) = false ∧ isSet State.reset (fCHCTL_QUIET ch) = true := by
  simp only [isSet, getF, fCHCTL_EN, fCHCTL_QUIET, regGet_reset_of_row (row_chctl ch)]
  decide

/-- At reset every context is disabled. -/
theorem contexts_reset (c : Fin 16) : isSet State.reset (fCTXCTL_EN c) = false := by
  simp only [isSet, getF, fCTXCTL_EN, regGet_reset_of_row (row_ctxctl c)]
  decide

/-- At reset every queue is disabled. -/
theorem queues_reset (c : Fin 16) (q : Fin 8) : isSet State.reset (fQCTL_EN c q) = false ∧ qState State.reset c q = qDisabled := by
  simp only [isSet, qState, getF, fQCTL_EN, fQSTAT_STATE, regGet_reset_of_row (row_qctl c q), regGet_reset_of_row (row_qstat c q)]
  decide

/-- At reset the power cap is that of R629 and the probe settings are those of R613. -/
theorem settings_reset : getF State.reset fSTEPCTL_CAPW = 2800 ∧ getF State.reset fPROBECFG_WINDOW = 24 ∧
    getF State.reset fPROBECFG_COUNT = 3 ∧ isSet State.reset fPROBECFG_AUTO = true := by decide +kernel

/-- Settles O60: nothing is listed in the state at reset, and the configuration fields have the values of their rows. -/
theorem resetState : Obligations.ResetState := by
  obtain ⟨hcap, hwindow, hcount, hauto⟩ := settings_reset
  have hfatal : State.reset.fatal = false := by decide +kernel
  have hstill : State.reset.still = true := by decide +kernel
  exact ⟨rfl, rfl, rfl, hfatal, hstill, rfl, rfl, rfl, rfl, fun _ => rfl, fun _ => rfl, rfl, rfl, rfl, rfl, rfl, hcap, hwindow,
    hcount, hauto, ports_reset, generators_reset, wickets_reset, channels_reset, fun c => ⟨contexts_reset c, queues_reset c⟩⟩

end Sys2Proof.Machine
end

section
namespace Sys2Proof.Machine

open Sys2Proof

/-! ### The statement on the host's and the board's ways in (O58), clause by clause -/

/-- A poisoned request is counted and reported through AER, and has no other effect (R565). -/
theorem poisonedTlp_reports (s : State) : (poisonedTlp s).aer = s.aer + 1 ∧ (poisonedTlp s).pcie.cfg.poisoned = true ∧
    { poisonedTlp s with aer := s.aer, pcie := { (poisonedTlp s).pcie with
      cfg := { (poisonedTlp s).pcie.cfg with poisoned := s.pcie.cfg.poisoned } } } = s := ⟨rfl, rfl, rfl⟩

/-- A register with no effect of its own takes what is written, and nothing else changes. -/
theorem plainWrite_frame (s : State) (r : RegRow) (off v : Nat) :
    onlyRegs s (plainWrite s r off v) [off] ∧ { plainWrite s r off v with regs := s.regs } = s :=
  ⟨fun _ hoff => regGet_regPut_other _ _ _ _ (fun h => hoff (List.mem_singleton.2 h.symm)), rfl⟩

/-! A completion stands in `reply`, and changes nothing else. -/

theorem isSet_withReply (s : State) (r : Reply) (f : Fld) : isSet { s with reply := r } f = isSet s f := rfl
theorem getF_withReply (s : State) (r : Reply) (f : Fld) : getF { s with reply := r } f = getF s f := rfl
theorem sameMemory_withReply {s t : State} (r : Reply) (h : sameMemory s t) : sameMemory s { t with reply := r } := h

/-- The fields of BARERR after an access in error whose completion stands in `reply`. -/
theorem barError_replied (s : State) (i off : Nat) (r : Reply) :
    isSet { barError s i off with reply := r } (barFlag i) = true ∧
    getF { barError s i off with reply := r } (barCount i) = (getF s (barCount i) + 1) % 2 ^ 16 ∧
    sameMemory s { barError s i off with reply := r } := by
  obtain ⟨hflag, hcount, -⟩ := barError_reports s i off
  exact ⟨(isSet_withReply ..).trans hflag, (getF_withReply ..).trans hcount, sameMemory_withReply _ (sameMemory_barError s i off)⟩

/-- A hole sets its flag (R277). -/
theorem noteHole_reports (s : State) : isSet (noteHole s) fORG_HOLESTAT_HOLE = true ∧ sameMemory s (noteHole s) := by
  refine ⟨?_, sameMemory_trans (sameMemory_setF ..) (sameMemory_bump ..)⟩
  rw [noteHole, isSet_bump_apart _ _ _ _ (by decide)]
  exact isSet_setF_self _ _ _ (by decide)

section
variable {s : State} {o : BitVec 28} {n : Nat} (hs : served s = true) (ho : o.toNat + n ≤ 2 ^ 28) (hn : 1 ≤ n)
  (hcut : o.toNat % 4096 + n ≤ 4096)

include hs ho

/-- A read through a window that is closed answers zeros and sets OFF (R571). -/
theorem read_closed (hc : isSet s fHOST_WINCTL_EN = false ∨ 2 < getF s fHOST_WINCTL_SPACE) :
    nextIs (.bar2Read o n) s fun t => t.reply = ⟨List.replicate n 0#8, false, false⟩ ∧ isSet t fHOST_BARERR_OFF = true ∧
      getF t fHOST_BARERRCNT_OFFCNT = (getF s fHOST_BARERRCNT_OFFCNT + 1) % 2 ^ 16 ∧ sameMemory s t := by
  refine ⟨_, exec_bar2Read_served hs ho, ?_⟩
  rw [bar2Read_closed (windowOpen_of_closed hc)]
  exact ⟨rfl, barError_replied s 2 _ _⟩

/-- After a module-fatal error the bytes are free (R597). -/
theorem read_fatal (hw : windowShowsOrg s) (hf : s.fatal = true) :
    nextIs (.bar2Read o n) s fun t => t.reply.bytes.length = n ∧ t.reply.ep = false ∧ t.regs = s.regs ∧ sameMemory s t := by
  refine ⟨_, exec_bar2Read_served hs ho, ?_⟩
  rw [bar2Read_fatal (windowOpen_of_shows hw) hf]
  exact ⟨by simp [drawBytes], rfl, rfl, rfl, rfl, rfl, rfl, rfl, rfl⟩

include hn hcut

/-- A read of Orangery bytes that are neither hedged nor in error. -/
theorem read_placed (hw : windowShowsOrg s) (hp : windowPlaced s o.toNat) (hf : s.fatal = false) (herr : s.orgErr = [])
    (hh : orgHedged s (windowOrg s o.toNat) n = false) :
    nextIs (.bar2Read o n) s fun t => t.reply = ⟨orgRead s (windowOrg s o.toNat) n, false, false⟩ ∧ { t with reply := s.reply } = s := by
  refine ⟨_, exec_bar2Read_served hs ho, ?_⟩
  rw [bar2Read_piece (windowOpen_of_shows hw) hf hn hcut (windowAt_placed false hw o.isLt hp) (by simp), pieceRead_clean _ herr hh]
  exact ⟨rfl, rfl⟩

/-- A read of hedged bytes answers zeros with EP, and sets UE (R571; assumption 62). -/
theorem read_hedged (hw : windowShowsOrg s) (hp : windowPlaced s o.toNat) (hf : s.fatal = false)
    (hh : orgHedged s (windowOrg s o.toNat) n = true) :
    nextIs (.bar2Read o n) s fun t => t.reply = ⟨List.replicate n 0#8, true, false⟩ ∧ isSet t fHOST_BARERR_UE = true ∧
      getF t fHOST_BARERRCNT_UECNT = (getF s fHOST_BARERRCNT_UECNT + 1) % 2 ^ 16 := by
  refine ⟨_, exec_bar2Read_served hs ho, ?_⟩
  rw [bar2Read_piece (windowOpen_of_shows hw) hf hn hcut (windowAt_placed false hw o.isLt hp) (by simp), pieceRead_hedged _ hh]
  obtain ⟨hflag, hcount, -⟩ := barError_replied s 1 o.toNat ⟨List.replicate n 0#8, true, false⟩
  exact ⟨rfl, hflag, hcount⟩

/-- A read of an unassigned address answers zeros and is noted (R277). -/
theorem read_hole (hw : windowShowsOrg s) (hf : s.fatal = false) (ha : orgAssigned (windowOrg s o.toNat) = false) :
    nextIs (.bar2Read o n) s fun t => t.reply = ⟨List.replicate n 0#8, false, false⟩ ∧ isSet t fORG_HOLESTAT_HOLE = true ∧
      sameMemory s t := by
  refine ⟨_, exec_bar2Read_served hs ho, ?_⟩
  rw [bar2Read_piece (windowOpen_of_shows hw) hf hn hcut (windowAt_hole false hw o.isLt ha) (by simp)]
  obtain ⟨hflag, hmem⟩ := noteHole_reports s
  exact ⟨rfl, (isSet_withReply ..).trans hflag, sameMemory_withReply _ hmem⟩

end

section
variable {s : State} {o : BitVec 28} {bs : List Byte} (hs : served s = true) (ho : o.toNat + bs.length ≤ 2 ^ 28)

include hs ho

theorem write_closed (hc : isSet s fHOST_WINCTL_EN = false ∨ 2 < getF s fHOST_WINCTL_SPACE) :
    nextIs (.bar2Write o bs false) s fun t => isSet t fHOST_BARERR_OFF = true ∧
      getF t fHOST_BARERRCNT_OFFCNT = (getF s fHOST_BARERRCNT_OFFCNT + 1) % 2 ^ 16 ∧ sameMemory s t := by
  refine ⟨_, exec_bar2Write_served hs ho, ?_⟩
  rw [bar2Write_closed (windowOpen_of_closed hc)]
  obtain ⟨hflag, hcount, -⟩ := barError_reports s 2 o.toNat
  exact ⟨hflag, hcount, sameMemory_barError s 2 _⟩

/-- A write writes the bytes behind the window, and no others. -/
theorem write_placed (hn : 1 ≤ bs.length) (hcut : o.toNat % 4096 + bs.length ≤ 4096) (hw : windowShowsOrg s)
    (hp : windowPlaced s o.toNat) (herr : s.orgErr = []) (hh : orgHedged s (windowOrg s o.toNat) bs.length = false) :
    nextIs (.bar2Write o bs false) s fun t =>
      (∀ j, j < bs.length → orgByte t (windowOrg s o.toNat + j) = bs.getD j 0) ∧
      (∀ b, b < windowOrg s o.toNat ∨ windowOrg s o.toNat + bs.length ≤ b → orgByte t b = orgByte s b) ∧
      t.wordMeta = s.wordMeta ∧ t.dram = s.dram ∧ t.host = s.host ∧ t.regs = s.regs := by
  obtain ⟨m, hm, hread⟩ := pieceWrite_clean (s := s) (bs := bs) o.toNat herr hh
  refine ⟨{ s with org := m }, ?_, fun j hj => ?_, fun b hb => ?_, rfl, rfl, rfl, rfl⟩
  · rw [exec_bar2Write_served hs ho, bar2Write_piece (windowOpen_of_shows hw) hn hcut (windowAt_placed true hw o.isLt hp) (by simp), hm]
  · rw [orgByte, hread, if_pos (by omega), Nat.add_sub_cancel_left]
  · rw [orgByte, hread, if_neg (by omega)]

end

/-- The image that does not run, written out. -/
theorem idleImage_eq (s : State) :
    idleImage s = if getF s fLODGESTAT_STATE = 2 then 1 - s.lodge.active else 1 - getF s fLODGESTAT_IMAGE := by
  simp [idleImage, recovering]

/-! The test port answers while the 12 V auxiliary rail is within its limits (R654, R660). -/

theorem jtag_off {s : State} (h : s.pins.aux12 = false) (t : State) : jtag s t = .next s := by
  rw [jtag, if_neg (by rw [h]; exact Bool.false_ne_true)]

theorem jtag_on {s : State} (h : s.pins.aux12 = true) (t : State) : jtag s t = .next t := by
  rw [jtag, if_pos h]

/-- A firmware write that is served, by its length and the host's answer (R617; assumption 64). -/
theorem firmwareWrite_answers {s : State} (h : servedAt s rFWCMD = true) (hb : ¬ isSet s fFWSTAT_BUSY = true) (v : BitVec 64)
    (st : Fin 4) :
    (bitsOf v.toNat 61 52 = 0 → nextIs (.firmwareWrite v st) s fun t =>
      (isSet t fFWSTAT_BUSY = false ∧ getF t fFWSTAT_RESULT = 3) ∧ t.lodge = s.lodge) ∧
    (0 < bitsOf v.toNat 61 52 → st ≠ 0 → nextIs (.firmwareWrite v st) s fun t =>
      (isSet t fFWSTAT_BUSY = false ∧ getF t fFWSTAT_RESULT = 4) ∧ t.lodge = s.lodge) ∧
    (0 < bitsOf v.toNat 61 52 → st = 0 → nextIs (.firmwareWrite v st) s fun t =>
      isSet t fFWSTAT_BUSY = true ∧ getF t fFWSTAT_RESULT = 0 ∧ t.lodge.writing = some (fwBytes s v.toNat) ∧
      t.lodge.images = s.lodge.images.set (idleImage s) ⟨[], false⟩ ∧ t.lodge.active = s.lodge.active ∧ sameMemory s t) := by
  refine ⟨fun hn => ⟨_, exec_firmwareWrite h v st, ?_⟩, fun hn hst => ⟨_, exec_firmwareWrite h v st, ?_⟩,
    fun hn hst => ⟨_, exec_firmwareWrite h v st, ?_⟩⟩
  · rw [fwWrite_empty hb hn]
    exact ⟨fwResult_reads s (by decide), lodge_fwResult s 3⟩
  · rw [fwWrite_failed hb hn (Fin.val_ne_zero_iff.2 hst)]
    exact ⟨fwResult_reads s (by decide), lodge_fwResult s 4⟩
  · obtain ⟨hbusy, hres, hlodge, hmem⟩ := fwWrite_begins_reads hb hn
    rw [show st.val = 0 from congrArg Fin.val hst, hlodge]
    exact ⟨hbusy, hres, rfl, rfl, rfl, hmem⟩

/-- An image that does not run becomes active only when it is good (R617). -/
theorem firmwareActivate_answers {s : State} (h : servedAt s rFWCMD = true) (hb : ¬ isSet s fFWSTAT_BUSY = true) :
    ((s.lodge.images.getD (idleImage s) ⟨[], false⟩).good = true → nextIs .firmwareActivate s fun t =>
      (isSet t fFWSTAT_BUSY = false ∧ getF t fFWSTAT_RESULT = 1) ∧ t.lodge = { s.lodge with active := idleImage s }) ∧
    ((s.lodge.images.getD (idleImage s) ⟨[], false⟩).good = false → nextIs .firmwareActivate s fun t =>
      (isSet t fFWSTAT_BUSY = false ∧ getF t fFWSTAT_RESULT = 3) ∧ t.lodge = s.lodge) := by
  refine ⟨fun hg => ⟨_, exec_firmwareActivate h, ?_⟩, fun hg => ⟨_, exec_firmwareActivate h, ?_⟩⟩
  · rw [fwActivate_good hb hg]
    exact ⟨fwResult_reads _ (by decide), lodge_fwResult _ 1⟩
  · rw [fwActivate_bad hb hg]
    exact ⟨fwResult_reads _ (by decide), lodge_fwResult _ 3⟩

/-- What each read of the management bus answers (R655). -/
def smbusReads (s : State) : List (Instr × Nat) :=
  [(.smbusReadReady, (regGet s rLODGE_READY).toNat), (.smbusReadPwr, (regGet s rCLK_PWR).toNat), (.smbusReadCoolctl, (regGet s rCOOLCTL).toNat),
    (.smbusReadErrstat, (regGet s rERRSTAT).toNat), (.smbusReadSerial, (regGet s rHOST_SERIAL).toNat), (.smbusReadTjmax, s.lodge.telLast),
    (.smbusReadLodgestat, (regGet s rLODGESTAT).toNat / 2 ^ 32 * 2 ^ 32 + (s.lodge.powTicks + tick s) / 360000000000 % 2 ^ 32)]

/-- Of these registers no field is computed from another unit. -/
theorem busRegs_stored : ∀ off ∈ [rLODGE_READY, rCLK_PWR, rCOOLCTL, rERRSTAT, rHOST_SERIAL],
    (rowOf off).map (fun r => r.base) = some off ∧ off ∉ computedRegs := by decide +kernel

theorem smbusReads_eq (s : State) : ∀ r ∈ smbusReads s, exec r.1 s = smbusRead s r.2 := by
  have hstored : ∀ off ∈ [rLODGE_READY, rCLK_PWR, rCOOLCTL, rERRSTAT, rHOST_SERIAL],
      smbusRead s (readReg s off) = smbusRead s (regGet s off).toNat := fun off hoff => by
    rw [readReg_stored (busRegs_stored off hoff).1 (busRegs_stored off hoff).2]
  have hlodge : smbusRead s (readReg s rLODGESTAT) = smbusRead s _ := congrArg _ (readReg_lodgestat s)
  simp only [smbusReads, List.forall_mem_cons, List.not_mem_nil, false_implies, implies_true, and_true]
  exact ⟨hstored _ (by simp), hstored _ (by simp), hstored _ (by simp), hstored _ (by simp), hstored _ (by simp), rfl, hlodge⟩

/-- Settles O58: each way in goes to its own lemma, by what serves the request, what the window shows and what is hedged or in
error. -/
theorem theHostReadsAndWrites : Obligations.TheHostReadsAndWrites := by
  intro s poisoned unsupported_
  refine ⟨fun w => ⟨registerWrite_unserved, fun h hep => ⟨_, registerWrite_poisoned h hep, poisonedTlp_reports s⟩,
      fun h hep hb hd => ?_, fun r h hep hb hf hr hbase => ?_, fun h hep hb hf => ?_⟩,
    fun h v => ⟨fun w => ⟨wkctlWrite_opens h w v, wkctlWrite_closes h w v, wkretWrite_acts h w v⟩, fltrespWrite_acts h v,
      fwcmdWrite_writes h v, fwcmdWrite_activates h v, fun c q => registerWrite_doorbell h c q v,
      fun l => registerWrite_request h l v⟩,
    fun o n => ⟨fun h => ⟨_, exec_bar2Read_unsupported h, rfl, rfl⟩, exec_bar2Read_unserved, fun h hin => ?_, fun bs ep hlen => ?_⟩,
    fun v h => ?_, ?_, fun r hr => smbusRead_answers (smbusReads_eq s r hr), ?_, ?_⟩
  · rw [registerWrite_bar0 h hep hb, bar0Write_dropped hd]
  · obtain ⟨honly, hframe⟩ := plainWrite_frame s r (w.off / 8 * 8) (widen r (regGet s (w.off / 8 * 8)).toNat w.off w.size w.v.toNat)
    exact ⟨_, registerWrite_plain h hep hb hf hr hbase, honly, hframe, fun b => bitOf_plainWrite s r _ _ _ _ b b.isLt⟩
  · refine ⟨_, registerWrite_bar4 h hep hb, ?_⟩
    rw [bar4Write_misfit hf]
    obtain ⟨hflag, hcount, hoff⟩ := barError_reports s 3 w.off
    exact ⟨hflag, hcount, hoff, sameMemory_barError s 3 w.off⟩
  · obtain ⟨ho, hn, hcut⟩ := hin
    exact ⟨read_closed h ho, fun ⟨hw, hp⟩ => read_placed h ho hn hcut hw hp, fun ⟨hw, hp⟩ => read_hedged h ho hn hcut hw hp,
      read_hole h ho hn hcut, read_fatal h ho⟩
  · subst hlen
    refine ⟨exec_bar2Write_dropped, fun h hep => ?_, fun h hep ⟨ho, _, _⟩ hc => ?_, fun h hep ⟨ho, hn, hcut⟩ ⟨hw, hp⟩ herr hh => ?_⟩
    · rw [hep]
      exact ⟨_, exec_bar2Write_poisoned o bs h, poisonedTlp_reports s⟩
    · rw [hep]
      exact write_closed h ho hc
    · rw [hep]
      exact write_placed h ho hn hcut hw hp herr hh
  · obtain ⟨hmask, hmem⟩ := unmask_clears s v.isLt
    exact ⟨_, exec_msixUnmask h v, hmask, hmem, unmask_sends_reads s v.isLt, unmask_quiet_reads s v.isLt⟩
  · rw [← idleImage_eq]
    refine fun hlen hact => ⟨fun h => ⟨fun v st hb => ⟨?_, ?_⟩, fun v st hb => firmwareWrite_answers h hb v st,
      firmwareActivate_answers h⟩, fun hon same => ⟨fun hw => fwDone_none hw same, fun b hw => ?_⟩⟩
    · rw [exec_firmwareWrite h, fwWrite_busy hb]
    · rw [exec_firmwareActivate h, fwActivate_busy hb]
    · obtain ⟨hbusy, hres, hlodge, honly, hmem⟩ := fwDone_reads s b (same && Config.imageGood b)
      exact ⟨_, firmwareWriteDone_of_writing hon hw same, ⟨hbusy, hres⟩, hlodge, honly, hmem⟩
  · exact fun h => ⟨jtag_off h _, fun l => ⟨jtag_off h _, jtag_off h _⟩⟩
  · refine fun h => ⟨⟨_, jtag_on h _, rfl⟩, fun l => ⟨⟨_, jtag_on h _, rfl⟩, fun hr => ⟨_, jtag_on h _, ?_⟩, fun hr => ⟨_, jtag_on h _, ?_⟩⟩⟩
    · rw [hr]
      rfl
    · rw [hr]
      exact ⟨by simp [tdo, drawBytes], rfl⟩

end Sys2Proof.Machine
end

section
namespace Sys2Proof.Machine

open Sys2Proof

/-! ### Fields of a register that reads the same -/

theorem getF_of_regGet {s t : State} {f : Fld} (h : regGet t f.reg = regGet s f.reg) : getF t f = getF s f := by
  rw [getF, getF, h]

theorem isSet_of_regGet {s t : State} {f : Fld} (h : regGet t f.reg = regGet s f.reg) : isSet t f = isSet s f := by
  rw [isSet, isSet, getF_of_regGet h]

/-! ### The swap front of a pass (R79) -/

/-- The swap front on one core. -/
def swapFront (s : State) (m : Nat) : State :=
  setWmode (setPend (modCore s m (fun c => { c with weights := c.weights.swapped })) m 0) m 0

theorem swapArrays_cons (m : Nat) (ms : List Nat) (s : State) : swapArrays (m :: ms) s = swapArrays ms (swapFront s m) := rfl

theorem getCore_swapFront_self (s : State) (m : Nat) :
    getCore (swapFront s m) m = { getCore s m with weights := (getCore s m).weights.swapped } :=
  getCore_setCore_self s m _

theorem getCore_swapFront_other (s : State) {m n : Nat} (h : m ≠ n) : getCore (swapFront s m) n = getCore s n :=
  getCore_setCore_other s m n _ h

/-- Each core has an array register of its own. -/
theorem arrstat_ne {m n : Nat} (h : m ≠ n) : rARRSTAT (m / 8) (m % 8) ≠ rARRSTAT (n / 8) (n % 8) := by
  simp only [rARRSTAT]
  omega

theorem regGet_swapFront_other (s : State) {m off : Nat} (h : rARRSTAT (m / 8) (m % 8) ≠ off) :
    regGet (swapFront s m) off = regGet s off := by
  rw [swapFront, setWmode, regGet_setF_other _ _ _ _ h, setPend, regGet_setF_other _ _ _ _ h]
  rfl

theorem swapFront_clears (s : State) (m : Nat) : pendOf (swapFront s m) m = false ∧ wmodeOf (swapFront s m) m = 0 := by
  have hapart : (fARRSTAT_WMODE (m / 8) (m % 8)).apart (fARRSTAT_PEND (m / 8) (m % 8)) = true := by
    simp [Fld.apart, fARRSTAT_WMODE, fARRSTAT_PEND]
  refine ⟨?_, getF_setF_self _ _ _ (by decide : 5 < 64)⟩
  rw [pendOf, swapFront, setWmode, isSet_setF_apart _ _ _ _ hapart]
  exact isSet_setF_self _ _ _ (by decide : 3 < 64)

theorem swapArrays_frame (ms : List Nat) : ∀ s : State, ∃ cs rs, swapArrays ms s = { s with cores := cs, regs := rs } := by
  induction ms with
  | nil => exact fun s => ⟨s.cores, s.regs, rfl⟩
  | cons m ms ih =>
    intro s
    obtain ⟨cs, rs, h⟩ := ih (swapFront s m)
    exact ⟨cs, rs, (swapArrays_cons m ms s).trans h⟩

theorem getStr_swapArrays (ms : List Nat) (s : State) (k : Nat) : getStr (swapArrays ms s) k = getStr s k := by
  obtain ⟨cs, rs, h⟩ := swapArrays_frame ms s
  rw [h]
  rfl

theorem getCore_swapArrays_other {m : Nat} (ms : List Nat) (hm : m ∉ ms) : ∀ s : State, getCore (swapArrays ms s) m = getCore s m := by
  induction ms with
  | nil => exact fun _ => rfl
  | cons n ms ih =>
    obtain ⟨hne, hms⟩ := not_or.1 (mt List.mem_cons.2 hm)
    intro s
    rw [swapArrays_cons, ih hms, getCore_swapFront_other s (Ne.symm hne)]

/-- A swap front writes the array registers of its cores alone. -/
theorem onlyRegs_swapArrays (ms : List Nat) : ∀ s : State,
    onlyRegs s (swapArrays ms s) (ms.map (fun m => rARRSTAT (m / 8) (m % 8))) := by
  induction ms with
  | nil => exact fun _ _ _ => rfl
  | cons m ms ih =>
    intro s off hoff
    obtain ⟨hne, hms⟩ := not_or.1 (mt List.mem_cons.2 hoff)
    rw [swapArrays_cons, ih _ off hms, regGet_swapFront_other s (Ne.symm hne)]

/-- Every core of a swap front, each named once, exchanges its registers and shows SI8 weights and none pending. -/
theorem swapArrays_swaps {m : Nat} (ms : List Nat) (hnodup : ms.Nodup) (hm : m ∈ ms) : ∀ s : State,
    pendOf (swapArrays ms s) m = false ∧ wmodeOf (swapArrays ms s) m = 0 ∧
    getCore (swapArrays ms s) m = { getCore s m with weights := (getCore s m).weights.swapped } := by
  induction ms with
  | nil => exact absurd hm List.not_mem_nil
  | cons n ms ih =>
    obtain ⟨hn, hms⟩ := List.nodup_cons.1 hnodup
    intro s
    rw [swapArrays_cons]
    rcases List.mem_cons.1 hm with rfl | hm
    · have hreg : regGet (swapArrays ms (swapFront s m)) (rARRSTAT (m / 8) (m % 8)) =
          regGet (swapFront s m) (rARRSTAT (m / 8) (m % 8)) := by
        refine onlyRegs_swapArrays ms _ _ (fun hmem => ?_)
        obtain ⟨j, hj, heq⟩ := List.mem_map.1 hmem
        exact arrstat_ne (fun h : j = m => hn (h ▸ hj)) heq
      obtain ⟨hpend, hmode⟩ := swapFront_clears s m
      exact ⟨(isSet_of_regGet hreg).trans hpend, (getF_of_regGet hreg).trans hmode,
        (getCore_swapArrays_other ms hn _).trans (getCore_swapFront_self s m)⟩
    · rw [← getCore_swapFront_other s (fun h : n = m => hn (h ▸ hm))]
      exact ih hms hm (swapFront s n)

/-! ### A pass at issue -/

/-- A stream with a static operation put in flight at its cycle, `before` the arrays of its cores where it changes them (R107). -/
def withFlight (t : Stream) (op : FlightOp) (before : List (Nat × ArrayAt)) (data : List Nat) : Stream :=
  { t with flights := t.flights ++ [⟨t.seq, t.now, t.pc, t.cores, op, [], [], [], [], false, before, false, data⟩] }

theorem getStr_launch (k : Nat) (op : FlightOp) (data : List Nat) (u : State) :
    getStr (launch k op [] data u) k = withFlight (getStr u k) op [] data := by
  rw [launch, modStr, getStr_setStr_self, List.append_nil]
  rfl

theorem getStr_noteBefore_launch (k : Nat) (op : FlightOp) (data : List Nat) (u : State) :
    getStr (noteBefore k (launch k op [] data u)) k = withFlight (getStr u k) op (arraysOf u k) data := by
  rw [noteBefore, modStr, getStr_setStr_self, getStr_launch, withFlight]
  dsimp only
  rw [List.dropLast_concat, List.getLast?_concat]
  rfl

/-- The state in which a pass has been put in flight, before the swap front. -/
def passLaunched (k : Nat) (mode : PassMode) (o : PassOpnds) (d2 : Tile) (ib : Int) (u : State) : State :=
  let v := launch k (.pass (passOf mode o d2 ib u (getStr u k))) [] (passData o (getStr u k)) u
  if o.swap then noteBefore k v else v

section
variable (k : Nat) (mode : PassMode) (o : PassOpnds) (d2 : Tile) (ib : Int) (u : State)

theorem getStr_passLaunched : getStr (passLaunched k mode o d2 ib u) k = withFlight (getStr u k)
    (.pass (passOf mode o d2 ib u (getStr u k))) (if o.swap then arraysOf u k else []) (passData o (getStr u k)) := by
  cases hswap : o.swap with
  | false => simp only [passLaunched, hswap, Bool.false_eq_true, if_false, getStr_launch]
  | true => simp only [passLaunched, hswap, if_true, getStr_noteBefore_launch]

theorem getStr_passLaunched_other {j : Nat} (hj : j ≠ k) : getStr (passLaunched k mode o d2 ib u) j = getStr u j := by
  have hlaunch : ∀ op data, getStr (launch k op [] data u) j = getStr u j := fun _ _ => getStr_setStr_other _ _ _ _ (Ne.symm hj)
  rw [passLaunched]
  split
  · exact (getStr_setStr_other _ _ _ _ (Ne.symm hj)).trans (hlaunch _ _)
  · exact hlaunch _ _

theorem passLaunched_frame : ∃ z, passLaunched k mode o d2 ib u = { u with streams := z } := by
  rw [passLaunched]
  split
  · exact ⟨_, rfl⟩
  · exact ⟨_, rfl⟩

/-- A pass feeds 16-bit lanes when its source tile has them. -/
theorem passOf_eq (t : Stream) : passOf mode o d2 ib u t =
    { passOf mode o d2 ib u t with i16 := decide (tileWidth t o.s = some .w16) } := by
  rw [← Bool.beq_eq_decide_eq]
  rfl

/-- What a pass at issue notes of its feed, by which later distances are measured (R81). -/
def feedNoted (t : Stream) : Stream :=
  { t with arr := { t.arr with
      pass := some (t.now, (passOf mode o d2 ib u (getStr u k)).feed)
      subPass := if o.swap || activeFmt u (getStr u k) == 0 then t.arr.subPass
        else some (t.now, (passOf mode o d2 ib u (getStr u k)).feed) } }

theorem passEff_eq : passEff k mode o d2 ib u = modStr
    (if o.swap then swapArrays (getStr u k).cores (passLaunched k mode o d2 ib u) else passLaunched k mode o d2 ib u) k
    (feedNoted k mode o d2 ib u) := by
  have hcores : (getStr (launch k (.pass (passOf mode o d2 ib u (getStr u k))) [] (passData o (getStr u k)) u) k).cores =
      (getStr u k).cores := by rw [getStr_launch, withFlight]
  rw [passEff, hcores, passLaunched]
  split
  · rfl
  · rfl

/-- A pass at issue changes streams, and by its swap front cores and registers, but nothing else. -/
theorem passEff_frame : ∃ z cs rs, passEff k mode o d2 ib u = { u with streams := z, cores := cs, regs := rs } ∧
    (o.swap = false → cs = u.cores ∧ rs = u.regs) := by
  obtain ⟨z, hlaunched⟩ := passLaunched_frame k mode o d2 ib u
  rw [passEff_eq, hlaunched]
  split
  · next hswap =>
    obtain ⟨cs, rs, hswapped⟩ := swapArrays_frame (getStr u k).cores { u with streams := z }
    rw [hswapped]
    exact ⟨_, _, _, rfl, fun h => absurd hswap (Bool.eq_false_iff.1 h)⟩
  · exact ⟨_, _, _, rfl, fun _ => ⟨rfl, rfl⟩⟩

theorem getStr_passEff_self : getStr (passEff k mode o d2 ib u) k =
    feedNoted k mode o d2 ib u (getStr (passLaunched k mode o d2 ib u) k) := by
  rw [passEff_eq, modStr, getStr_setStr_self]
  split
  · rw [getStr_swapArrays]
  · rfl

theorem getStr_passEff_other {j : Nat} (hj : j ≠ k) : getStr (passEff k mode o d2 ib u) j = getStr u j := by
  rw [passEff_eq, modStr, getStr_setStr_other _ _ _ _ (Ne.symm hj), ← getStr_passLaunched_other k mode o d2 ib u hj]
  split
  · rw [getStr_swapArrays]
  · rfl

theorem sameMemory_passEff : sameMemory u (passEff k mode o d2 ib u) := by
  obtain ⟨z, cs, rs, h, -⟩ := passEff_frame k mode o d2 ib u
  rw [h]
  exact ⟨rfl, rfl, rfl, rfl, rfl, rfl⟩

theorem calm_passEff (hcalm : u.calm = true) : (passEff k mode o d2 ib u).calm = true := by
  refine calm_of_same u _ hcalm ?_ (fun j => ?_)
  · obtain ⟨z, cs, rs, h, -⟩ := passEff_frame k mode o d2 ib u
    rw [h]
  · by_cases hj : j = k
    · rw [hj, getStr_passEff_self, getStr_passLaunched]
      rfl
    · rw [getStr_passEff_other _ _ _ _ _ _ hj]

theorem passEff_keeps_arrays (hswap : o.swap = false) :
    (passEff k mode o d2 ib u).cores = u.cores ∧ (passEff k mode o d2 ib u).regs = u.regs := by
  obtain ⟨z, cs, rs, h, hkept⟩ := passEff_frame k mode o d2 ib u
  rw [h]
  exact hkept hswap

/-- With the swap bit the swap front passes over the cores of the stream (R79). -/
theorem passEff_swaps_arrays (hswap : o.swap = true) :
    let t := passEff k mode o d2 ib u
    let ms := (getStr u k).cores
    onlyRegs u t (ms.map (fun m => rARRSTAT (m / 8) (m % 8))) ∧ (∀ m, m ∉ ms → getCore t m = getCore u m) ∧
    (ms.Nodup → ∀ m ∈ ms, pendOf t m = false ∧ wmodeOf t m = 0 ∧
      getCore t m = { getCore u m with weights := (getCore u m).weights.swapped }) := by
  obtain ⟨z, hlaunched⟩ := passLaunched_frame k mode o d2 ib u
  rw [passEff_eq, hswap, if_pos rfl, hlaunched]
  exact ⟨onlyRegs_swapArrays _ { u with streams := z }, fun m hm => getCore_swapArrays_other _ hm { u with streams := z },
    fun hnodup m hm => swapArrays_swaps _ hnodup hm { u with streams := z }⟩

end

/-- A pass that issues at once has its effect at issue, in the slot that it takes. -/
theorem issuePass_of {s : State} {k gap : Nat} {mode : PassMode} {i : Instr} {o : PassOpnds} {d2 : Option Tile} {sib : Option SReg}
    (h : issues s k gap (passPlan mode o d2)) (hcalm : (slotTaken (atIssue s k gap) k 1).calm = true) :
    issuePass mode k gap i o d2 sib s = passEff k mode o (d2.getD ⟨0, 0⟩)
      ((sib.map (fun r => sregI (getStr (slotTaken (atIssue s k gap) k 1) k) r.val)).getD 0) (slotTaken (atIssue s k gap) k 1) := by
  rw [issuePass, issueStr_of _ _ _ _ _ _ _ h, settle_calm _ (calm_passEff _ _ _ _ _ _ hcalm)]

/-- Settles O10: the six passes issue by one effect, which puts the pass in flight, notes its feed and, with the swap bit, lets the
swap front pass over the cores. -/
theorem passesEnterThePipeline : Obligations.PassesEnterThePipeline := by
  intro s k gap hcalm u x enters
  have hall : ∀ c mode o d2 sib ib, exec c s = .next (issuePass mode k gap c o d2 sib s) →
      (sib.map (fun r : SReg => sregI x r.val)).getD 0 = ib → enters c mode o d2 ib := by
    intro c mode o d2 sib ib hexec hib hissues hnodup
    have hissued : issuePass mode k gap c o d2 sib s = passEff k mode o (d2.getD ⟨0, 0⟩) ib u := by
      rw [issuePass_of hissues hcalm, ← hib]
    have hstr := getStr_passEff_self k mode o (d2.getD ⟨0, 0⟩) ib u
    rw [getStr_passLaunched, feedNoted, withFlight, passOf_eq] at hstr
    refine ⟨passEff k mode o (d2.getD ⟨0, 0⟩) ib u, by rw [hexec, hissued], ?_⟩
    refine ⟨?_, ?_, by rw [hstr], fun j hj => getStr_passEff_other _ _ _ _ _ _ hj, sameMemory_passEff ..,
      fun hswap => passEff_keeps_arrays _ _ _ _ _ _ hswap, fun hswap => ?_⟩
    · exact ⟨congrArg Stream.flights hstr, (congrArg Stream.ranges hstr).trans (List.append_nil _).symm⟩
    · rw [hstr]
      rfl
    · obtain ⟨hregs, hother, hcores⟩ := passEff_swaps_arrays k mode o (d2.getD ⟨0, 0⟩) ib u hswap
      exact ⟨hregs, hother, hcores hnodup⟩
  exact ⟨fun o => hall _ _ o none none 0 rfl rfl, fun o => hall _ _ o none none 0 rfl rfl, fun o => hall _ _ o none none 0 rfl rfl,
    fun o => hall _ _ o none none 0 rfl rfl, fun o => hall _ _ o.p (some o.d2) (some o.sib) _ rfl rfl,
    fun o => hall _ _ o.p (some o.d2) (some o.sib) _ rfl rfl⟩

end Sys2Proof.Machine
end

section
namespace Sys2Proof.Machine

open Sys2Proof

/-! ### A core's hedge where its handler's creel is none of the 576 (O56) -/

/-- The number past those of R416 whose pointer register (HCRLPTR) would lie where HEDGECORE does. -/
def strayCreel : Nat := 512 + (rHEDGECORE - rHCRLPTR 0) / 0x40

/-- The module is on, and core 0 runs a handler on the one entry of the stray creel. -/
def strayHandlerState : State :=
  { State.reset with
    pins := { State.reset.pins with conv := true, lodge := true }
    cores := [(0, { Core.reset with handler := some ⟨strayCreel, 0, 0, [], 0⟩ })]
    creels := [(strayCreel, { Creel.reset with entries := [⟨0, 32, 32, 0, 0, 0⟩] })] }

theorem strayHandlerState_awake : awake strayHandlerState = true ∧ strayHandlerState.fatal = false := by decide +kernel

theorem strayHandlerState_unhedged (cls key : Nat) : hedgedAt strayHandlerState cls key = false := rfl

/-- The hedge of core 0 cuts its handler, whose message is consumed (R152, R423): HEAD of the stray creel becomes 0, and with it
the core's bit of HEDGECORE. -/
theorem strayHandler_hedge_clears_bit :
    getBit (nextOf (exec (.hedge 1 0xFF00 []) strayHandlerState) strayHandlerState) fHEDGECORE_MAP 0 = false := by decide +kernel

/-- Refutes O56: the statement takes every state that is awake, one with a handler on a creel number past 575 too.  In
`strayHandlerState` the hedge of core 0 leaves the core's own bit of HEDGECORE at 0.  What is missing is a hypothesis that the
state's numbers of units are in range. -/
theorem not_hedgesAndProbes : ¬ Obligations.HedgesAndProbes := by
  intro h
  obtain ⟨hawake, hfatal⟩ := strayHandlerState_awake
  obtain ⟨herrors, -⟩ := h strayHandlerState
  obtain ⟨-, -, hnew, -⟩ := herrors hawake 1 0xFF00 []
  obtain ⟨t, ht, -, -, -, hbit⟩ := hnew (by decide) (by decide) hfatal (.inl (by decide))
    ⟨strayHandlerState_unhedged _ _, fun c _ => strayHandlerState_unhedged c.1 c.2⟩
  have hclear := strayHandler_hedge_clears_bit
  rw [ht] at hclear
  exact absurd (hbit rfl) (Bool.eq_false_iff.1 hclear)

end Sys2Proof.Machine
end

section
namespace Sys2Proof.Machine

open Sys2Proof

/-! ### What a walk over a list keeps and what it reaches -/

theorem forEach_keeps {β : Type} {P : State → Prop} {f : State → β → State} {l : List β}
    (hkeep : ∀ s, ∀ x ∈ l, P s → P (f s x)) : ∀ s, P s → P (forEach l f s) := by
  induction l with
  | nil => exact fun _ h => h
  | cons y l ih =>
    exact fun s h => ih (fun s x hx => hkeep s x (List.mem_cons_of_mem _ hx)) _ (hkeep s y List.mem_cons_self h)

/-- What one step of a walk makes true, and no other step undoes, is true at its end. -/
theorem forEach_reaches {β : Type} {P : State → Prop} {f : State → β → State} {l : List β} {x : β} (hx : x ∈ l)
    (hset : ∀ s, P (f s x)) (hkeep : ∀ s, ∀ y ∈ l, P s → P (f s y)) (s : State) : P (forEach l f s) := by
  obtain ⟨l₁, l₂, rfl⟩ := List.append_of_mem hx
  have hwalk : forEach (l₁ ++ x :: l₂) f s = forEach l₂ f (f (forEach l₁ f s) x) := List.foldl_append
  rw [hwalk]
  exact forEach_keeps (fun s y hy => hkeep s y (by simp [hy])) _ (hset _)

/-! ### A change of some registers, and of nothing else -/

/-- `t` differs from `s` in registers of the list alone. -/
def regsAlone (s t : State) (l : List Nat) : Prop := onlyRegs s t l ∧ { t with regs := s.regs } = s

theorem regsAlone_refl (s : State) (l : List Nat) : regsAlone s s l := ⟨fun _ _ => rfl, rfl⟩

theorem onlyRegs_setF_mem {s t : State} {l : List Nat} {f : Fld} (v : Nat) (hf : f.reg ∈ l) (h : onlyRegs s t l) :
    onlyRegs s (setF t f v) l := fun off hoff => by
  rw [regGet_setF_other _ _ _ _ (fun he : f.reg = off => hoff (he ▸ hf)), h off hoff]

theorem regsAlone_setF {s t : State} {l : List Nat} {f : Fld} (v : Nat) (hf : f.reg ∈ l) (h : regsAlone s t l) :
    regsAlone s (setF t f v) l := ⟨onlyRegs_setF_mem v hf h.1, h.2⟩

theorem regsAlone_eq {s t : State} {l : List Nat} (h : regsAlone s t l) : t = { s with regs := t.regs } := by
  obtain ⟨-, h⟩ := h
  rw [← h]

/-- Setting one bit of a map of bits leaves the others. -/
theorem getBit_setBit_other (s : State) (f : Fld) (i j : Nat) (b : Bool) (h : f.hi < 64) (hj : j + f.lo ≤ f.hi) (hij : i ≠ j) :
    getBit (setBit s f i b) f j = getBit s f j := by
  have hwidth : j < f.hi + 1 - f.lo := by omega
  have hbit : ¬ (i ≤ j ∧ j ≤ i) := by omega
  rw [getBit, setBit, getF_setF_self s f _ h, bitOf_eq_testBit, Nat.testBit_mod_two_pow, testBit_putBits, if_neg hbit, getBit,
    bitOf_eq_testBit, decide_eq_true hwidth, Bool.true_and]

/-! ### An element macro-op at issue (R136 to R138) -/

/-- A stream with an element macro-op put in flight at its cycle, the engine taken until `free`. -/
def withElement (x : Stream) (op : FlightOp) (rs : List Range) (data : List Nat) : Stream :=
  { x with
    flights := x.flights ++ [⟨x.seq, x.now, x.pc, x.cores, op, [], [], [], rs, false, [], false, data⟩]
    ranges := x.ranges ++ rs
    eeFree := x.now + elemDuration op }

section
variable (k : Nat) (op : FlightOp) (rs : List Range) (data : List Nat) (u : State)

theorem getStr_elemEff_self : getStr (elemEff k op rs data u) k = withElement (getStr u k) op rs data := by
  rw [elemEff, modStr, getStr_setStr_self, launch, modStr, getStr_setStr_self]
  rfl

theorem getStr_elemEff_other {j : Nat} (hj : j ≠ k) : getStr (elemEff k op rs data u) j = getStr u j := by
  rw [elemEff, modStr, getStr_setStr_other _ _ _ _ hj.symm, launch, modStr, getStr_setStr_other _ _ _ _ hj.symm]

theorem elemEff_frame : ∃ z, elemEff k op rs data u = { u with streams := z } := ⟨_, rfl⟩

theorem elemEff_onlyStream : onlyStream u (elemEff k op rs data u) k := by
  obtain ⟨z, hz⟩ := elemEff_frame k op rs data u
  refine ⟨?_, fun _ hj => getStr_elemEff_other k op rs data u hj⟩
  rw [hz]

theorem elemEff_launched : launched u (elemEff k op rs data u) k op rs data := by
  rw [launched, launchedOver, getStr_elemEff_self]
  exact ⟨rfl, rfl⟩

theorem ended_elemEff (j : Nat) : (getStr (elemEff k op rs data u) j).ended = (getStr u j).ended := by
  by_cases hj : j = k
  · rw [hj, getStr_elemEff_self]
    rfl
  · rw [getStr_elemEff_other k op rs data u hj]

theorem calm_elemEff (h : u.calm = true) : (elemEff k op rs data u).calm = true :=
  calm_of_same u _ h rfl (ended_elemEff k op rs data u)

end

/-- An element macro-op that issues at once is in flight, and the engine takes no other for its duration. -/
theorem element_enters {s : State} {k gap : Nat} {c : Instr} {plan : State → Stream → Plan} {op : FlightOp}
    (hexec : exec c s = .next (issueStr k gap 1 c plan (elemEff k op [] (elemData op)) s))
    (hcalm : (slotTaken (atIssue s k gap) k 1).calm = true) (h : issues s k gap plan) :
    let u := slotTaken (atIssue s k gap) k 1
    nextIs c s fun t => launched u t k op [] (elemData op) ∧ onlyStream u t k ∧
      { getStr t k with flights := (getStr u k).flights } = { getStr u k with eeFree := (getStr u k).now + elemDuration op } := by
  intro u
  refine ⟨elemEff k op [] (elemData op) u, ?_, elemEff_launched .., elemEff_onlyStream .., ?_⟩
  · rw [hexec, issueStr_of _ _ _ _ _ _ _ h, settle_calm _ (calm_elemEff _ _ _ _ _ hcalm)]
  · rw [getStr_elemEff_self, withElement, List.append_nil]

/-! ### The tables that an EPROG loads (R126, R128) -/

/-- Table `i` of core `m` counts as loaded, from its image's address. -/
def tableNoted (e : EprogF) (m : Nat) (s : State) (i : Nat) : State :=
  setBit (setF s (fTBLADDR_OFFSET (m / 8) (m % 8) i) (e.tbase + 512 * i)) (fEESTAT_TVALID (m / 8) (m % 8)) i true

/-- The tables that the mask of an EPROG names. -/
def maskTables (e : EprogF) : List Nat := (List.range 4).filter (fun i => bitOf e.tmask i)

/-- The tables of an EPROG on one core, and on some cores. -/
def coreTablesNoted (e : EprogF) (s : State) (m : Nat) : State := forEach (maskTables e) (tableNoted e m) s
def tablesNoted (e : EprogF) (ms : List Nat) (s : State) : State := forEach ms (coreTablesNoted e) s

/-- The registers of a core that its tables stand in. -/
def tableRegs (m : Nat) : List Nat := rEESTAT (m / 8) (m % 8) :: (List.range 4).map (fun i => rTBLADDR (m / 8) (m % 8) i)

theorem eprogEff_eq (k : Nat) (o : EprogOpnds) (u : State) : eprogEff k o u = tablesNoted (eprogOf (getStr u k) o) (getStr u k).cores
    (elemEff k (.eprog (eprogOf (getStr u k) o)) (tableRanges (getStr u k) (eprogOf (getStr u k) o)) (eprogData o) u) := rfl

theorem mem_maskTables {e : EprogF} {i : Nat} : i ∈ maskTables e ↔ i < 4 ∧ bitOf e.tmask i = true := by
  rw [maskTables, List.mem_filter, List.mem_range]

theorem tableNoted_regsAlone {s t : State} {l : List Nat} (e : EprogF) {m i : Nat} (hl : ∀ r ∈ tableRegs m, r ∈ l) (hi : i < 4)
    (h : regsAlone s t l) : regsAlone s (tableNoted e m t i) l := by
  have haddr : rTBLADDR (m / 8) (m % 8) i ∈ l := hl _ (List.mem_cons_of_mem _ (List.mem_map.2 ⟨i, List.mem_range.2 hi, rfl⟩))
  have hstat : rEESTAT (m / 8) (m % 8) ∈ l := hl _ List.mem_cons_self
  exact regsAlone_setF _ hstat (regsAlone_setF _ haddr h)

theorem coreTablesNoted_regsAlone {s t : State} {l : List Nat} (e : EprogF) {m : Nat} (hl : ∀ r ∈ tableRegs m, r ∈ l)
    (h : regsAlone s t l) : regsAlone s (coreTablesNoted e t m) l :=
  forEach_keeps (P := fun v => regsAlone s v l) (fun _ _ hi hv => tableNoted_regsAlone e hl (mem_maskTables.1 hi).1 hv) t h

theorem tablesNoted_regsAlone (e : EprogF) (ms : List Nat) (s : State) : regsAlone s (tablesNoted e ms s) (ms.flatMap tableRegs) :=
  forEach_keeps (P := fun t => regsAlone s t (ms.flatMap tableRegs))
    (fun _ _ hm h => coreTablesNoted_regsAlone e (fun _ hr => List.mem_flatMap.2 ⟨_, hm, hr⟩) h) s (regsAlone_refl s _)

/-- An EPROG with an empty mask loads no table. -/
theorem tablesNoted_none {e : EprogF} (h : e.tmask = 0) (ms : List Nat) (s : State) : tablesNoted e ms s = s := by
  have hnone : maskTables e = [] := by
    rw [maskTables, h]
    decide
  refine foldl_same _ _ _ (fun m _ => ?_)
  rw [coreTablesNoted, hnone]
  rfl

/-- The register of the loaded tables is none of a table's address, and each core has its own. -/
theorem eestat_ne_tbladdr (m n : Nat) {i : Nat} (hi : i < 4) :
    rTBLADDR (n / 8) (n % 8) i ≠ rEESTAT (m / 8) (m % 8) := by
  simp only [rTBLADDR, rEESTAT]
  omega

theorem eestat_ne {m n : Nat} (h : m ≠ n) : rEESTAT (m / 8) (m % 8) ≠ rEESTAT (n / 8) (n % 8) := by
  simp only [rEESTAT]
  omega

theorem tableNoted_loads (e : EprogF) (s : State) (m : Nat) {i : Nat} (hi : i < 4) :
    getBit (tableNoted e m s i) (fEESTAT_TVALID (m / 8) (m % 8)) i = true :=
  getBit_setBit_self _ _ _ _ (by decide : 7 < 64) (by change i + 4 ≤ 7; omega)

/-- A loaded table stays loaded when another is. -/
theorem tableNoted_keeps (e : EprogF) {s : State} {m i : Nat} (hi : i < 4) (n : Nat) {j : Nat} (hj : j < 4)
    (h : getBit s (fEESTAT_TVALID (m / 8) (m % 8)) i = true) :
    getBit (tableNoted e n s j) (fEESTAT_TVALID (m / 8) (m % 8)) i = true := by
  have haddr : getBit (setF s (fTBLADDR_OFFSET (n / 8) (n % 8) j) (e.tbase + 512 * j)) (fEESTAT_TVALID (m / 8) (m % 8)) i = true := by
    rw [getBit, getF_setF_other _ _ _ _ (eestat_ne_tbladdr m n hj)]
    exact h
  by_cases hmn : n = m
  · subst hmn
    by_cases hij : j = i
    · rw [hij]
      exact tableNoted_loads e s n hi
    · rw [tableNoted, getBit_setBit_other _ _ _ _ _ (by decide : 7 < 64) (by change i + 4 ≤ 7; omega) hij]
      exact haddr
  · rw [tableNoted, setBit, getBit, getF_setF_other _ _ _ _ (eestat_ne hmn)]
    exact haddr

theorem coreTablesNoted_keeps (e : EprogF) {s : State} {m i : Nat} (hi : i < 4) (n : Nat)
    (h : getBit s (fEESTAT_TVALID (m / 8) (m % 8)) i = true) :
    getBit (coreTablesNoted e s n) (fEESTAT_TVALID (m / 8) (m % 8)) i = true :=
  forEach_keeps (P := fun t => getBit t (fEESTAT_TVALID (m / 8) (m % 8)) i = true)
    (fun _ _ hj ht => tableNoted_keeps e hi n (mem_maskTables.1 hj).1 ht) s h

theorem coreTablesNoted_loads {e : EprogF} {i : Nat} (hi : i ∈ maskTables e) (m : Nat) (s : State) :
    getBit (coreTablesNoted e s m) (fEESTAT_TVALID (m / 8) (m % 8)) i = true := by
  have hlt : i < 4 := (mem_maskTables.1 hi).1
  exact forEach_reaches (P := fun t => getBit t (fEESTAT_TVALID (m / 8) (m % 8)) i = true) hi
    (fun t => tableNoted_loads e t m hlt) (fun _ _ hj ht => tableNoted_keeps e hlt m (mem_maskTables.1 hj).1 ht) s

/-- On every core every table that the mask names counts as loaded. -/
theorem tablesNoted_loads {e : EprogF} {ms : List Nat} {m i : Nat} (hm : m ∈ ms) (hi : i ∈ maskTables e) (s : State) :
    getBit (tablesNoted e ms s) (fEESTAT_TVALID (m / 8) (m % 8)) i = true :=
  forEach_reaches (P := fun t => getBit t (fEESTAT_TVALID (m / 8) (m % 8)) i = true) hm (fun t => coreTablesNoted_loads hi m t)
    (fun _ n _ ht => coreTablesNoted_keeps e (mem_maskTables.1 hi).1 n ht) s

/-! ### The element macro-ops at issue (O13) -/

/-- An EPROG at issue is in flight, and beside that changes the registers of its tables alone. -/
theorem eprogEff_launches (k : Nat) (o : EprogOpnds) (u : State) :
    let x := getStr u k
    let e := eprogOf x o
    let t := eprogEff k o u
    getStr t k = withElement x (.eprog e) (tableRanges x e) (eprogData o) ∧ (∀ j, j ≠ k → getStr t j = getStr u j) ∧
    t.cores = u.cores ∧ t.tasks = u.tasks ∧ sameMemory u t ∧ onlyRegs u t (x.cores.flatMap tableRegs) := by
  intro x e t
  obtain ⟨hregs, hrest⟩ := tablesNoted_regsAlone e x.cores (elemEff k (.eprog e) (tableRanges x e) (eprogData o) u)
  have ht : t = { elemEff k (.eprog e) (tableRanges x e) (eprogData o) u with regs := t.regs } := regsAlone_eq ⟨hregs, hrest⟩
  rw [ht]
  exact ⟨getStr_elemEff_self k (.eprog e) (tableRanges x e) (eprogData o) u,
    fun j hj => getStr_elemEff_other k (.eprog e) (tableRanges x e) (eprogData o) u hj,
    rfl, rfl, ⟨rfl, rfl, rfl, rfl, rfl, rfl⟩, hregs⟩

/-- Settles O13: each element macro-op issues by one effect, which puts it in flight and takes the engine for its duration; an
EPROG notes its tables besides. -/
theorem elementMacroOpsEnterThePipeline : Obligations.ElementMacroOpsEnterThePipeline := by
  intro s k gap hcalm u x enters
  have hall : ∀ c plan op, exec c s = .next (issueStr k gap 1 c plan (elemEff k op [] (elemData op)) s) →
      enters c plan op (elemDuration op) := fun c plan op hexec hissues => element_enters hexec hcalm hissues
  refine ⟨fun d sr m => hall _ _ _ rfl, fun d sr c => hall _ _ _ rfl, fun d sr g => hall _ _ _ rfl, fun d sr g d2 => hall _ _ _ rfl,
    fun d sr v col op kk => hall _ _ _ rfl, fun o => hall _ _ _ rfl, fun o hissues _ => ?_⟩
  obtain ⟨hstr, hothers, hcore, htasks, hmem, hregs⟩ := eprogEff_launches k o u
  have hended : ∀ j, (getStr (eprogEff k o u) j).ended = (getStr u j).ended := fun j => by
    by_cases hj : j = k.val
    · rw [hj, hstr]
      rfl
    · rw [hothers j hj]
  have hexec : exec (.eprog (.stream k) gap o) s = .next (eprogEff k o u) := by
    have harm : exec (.eprog (.stream k) gap o) s =
        .next (issueStr k gap 1 (.eprog (.stream k) gap o) (eprogPlan o) (eprogEff k o) s) := rfl
    rw [harm, issueStr_of _ _ _ _ _ _ _ hissues, settle_calm _ (calm_of_same u _ hcalm htasks hended)]
  refine ⟨eprogEff k o u, hexec, ⟨congrArg Stream.flights hstr, congrArg Stream.ranges hstr⟩, ?_, hothers, hcore, hmem,
    fun hmask => ?_, hregs, fun m hm i hi hbit => tablesNoted_loads hm (mem_maskTables.2 ⟨hi, hbit⟩) _⟩
  · rw [hstr]
    rfl
  · rw [eprogEff_eq, tablesNoted_none hmask]
    rfl

end Sys2Proof.Machine
end

section
namespace Sys2Proof.Machine

open Sys2Proof

/-! ### TCFG of a register that a macro-op in flight has read (O8) -/

/-- In cycle 4 stream 0 has in flight an ESHUF.X issued in cycle 1, which read its source, register 0, in cycle 2 and writes
register 8 in cycle 6.  Register 0 has been released since. -/
def releasedSourceState : State :=
  setStr State.reset 0 { Stream.reset with
    st := .running, cores := [0], now := 4, nextSlot := 4, seq := 2,
    tile := [(8, ⟨.live, .w8, false, [], 0⟩)],
    flights := [⟨0, 1, 0, [0], .eshufX ⟨8, 1⟩ ⟨0, 1⟩ 0, [], [], [], [], false, [], false, [8, 0, 0, 0]⟩] }

/-- A TCFG of register 0 issues there at once. -/
theorem releasedSourceState_issues : issues releasedSourceState 0 0 (tcfgPlan ⟨0, 1⟩ 0) ∧
    (slotTaken (atIssue releasedSourceState 0 0) 0 1).calm = true := by
  unfold issues
  decide +kernel

/-- The ESHUF.X could be run again with the same results before, and cannot after (R106, R389). -/
theorem releasedSourceState_spoils :
    (getStr (slotTaken (atIssue releasedSourceState 0 0) 0 1) 0).flights.map Flight.spoilt = [false] ∧
    (getStr (nextOf (exec (.tcfg (.stream 0) 0 ⟨0, 1⟩ 0) releasedSourceState) releasedSourceState) 0).flights.map Flight.spoilt =
      [true] := by decide +kernel

/-- Refutes O8: the statement lets a TCFG change nothing of its stream but the tile registers, and the model also marks each macro-op
in flight that has read one of them, which cannot be run again after a pre-emption (R106, R389).  In `releasedSourceState` the
ESHUF.X in flight is so marked. -/
theorem not_tileConfiguration : ¬ Obligations.TileConfiguration := by
  intro h
  obtain ⟨hissues, hcalm⟩ := releasedSourceState_issues
  obtain ⟨htcfg, -⟩ := h releasedSourceState 0 0 ⟨0, 1⟩ 0 hcalm
  obtain ⟨t, ht, -, -, -, hstream, -⟩ := htcfg hissues
  obtain ⟨hbefore, hafter⟩ := releasedSourceState_spoils
  rw [ht] at hafter
  have hsame := congrArg Stream.flights hstream
  have hkept : (getStr t 0).flights.map Flight.spoilt = [false] := (congrArg (List.map Flight.spoilt) hsame).trans hbefore
  exact absurd (hkept.symm.trans hafter) (by decide)

end Sys2Proof.Machine
end

section
namespace Sys2Proof.Machine

open Sys2Proof

/-! ### An operation in flight under the number that is given next (O17) -/

/-- Core 0 runs a handler of context 0, to which granule 0 belongs.  The operation in flight, of class 1, has the number that the next
one gets. -/
def takenNumberState : State :=
  { regPut State.reset (rORG_OWN 0) 0x80 with
    cores := [(0, { Core.reset with handler := some ⟨0, 0, 0, [], 0⟩ })]
    ops := [(1, ⟨.stream 0, 0, 1, 0, 0, false, false, false, 0, 0, [], []⟩)] }

theorem takenNumberState_sends : paused takenNumberState = false ∧
    (getCore takenNumberState 0).handler = some ⟨0, 0, 0, [], 0⟩ ∧
    hndWord takenNumberState (issHnd takenNumberState 0) 0 true (hareg (getCore takenNumberState 0) 0) = some 0 := by decide +kernel

/-- FCOUNT+ sends its access with the class of the operation that had the number before, and not with its own. -/
theorem takenNumberState_class : (issHnd takenNumberState 0).cls = 0 ∧
    (nextOf (exec (.fcountPlus (.handler 0) 0 true 0 1) takenNumberState) takenNumberState).bankq.map BankReq.cls = [1] := by
  decide +kernel

/-- Refutes O17: the statement takes every state, even one in which an operation in flight has the number that the next one gets
(`State.nextOp`).  In `takenNumberState` an FCOUNT+ is looked up under that number, and goes to its sub-bank with the class of the
older operation.  What is missing is a hypothesis that no operation in flight has that number. -/
theorem not_handlersUseWordsWithoutWaiting : ¬ Obligations.HandlersUseWordsWithoutWaiting := by
  intro h
  obtain ⟨hrun, hhandler, hword⟩ := takenNumberState_sends
  obtain ⟨-, -, -, -, hcount⟩ := h takenNumberState 0 0 0 _ hrun hhandler
  obtain ⟨t, ht, hbank, -⟩ := hcount true 0 1 (by decide) (by decide) (by decide) hword (by decide)
  obtain ⟨hown, hsent⟩ := takenNumberState_class
  rw [ht] at hsent
  have hcls : t.bankq.map BankReq.cls = [(issHnd takenNumberState 0).cls] := congrArg (List.map BankReq.cls) hbank
  rw [hown] at hcls
  exact absurd (hcls.symm.trans hsent) (by decide)

end Sys2Proof.Machine
end

section
namespace Sys2Proof.Machine

open Sys2Proof

/-! ### The message of a creel that is consumed (R423, R425) -/

/-- The registers of a creel that change when a message of it is consumed. -/
def creelRegs (c : Nat) : List Nat := [(crlOCC c).reg, (crlMSGS c).reg, (crlHEAD c).reg, (crlPOOL c).reg]

/-- HEAD after the head entry is consumed. -/
def headAfter (s : State) (c : Nat) (e : CrlEntry) : Nat :=
  if e.marker ≠ 0 then 0 else if e.off + e.size = crlS s c then 0 else e.off + e.size

/-- A creel with its entries and two of its registers changed, and HEAD set: what is left is to give the bytes back. -/
def headTaken (s : State) (c : Nat) (e : CrlEntry) (es : List CrlEntry) : State :=
  let t := setCreel s c { getCreel s c with entries := es }
  let t := setF t (crlOCC c) (getF t (crlOCC c) - (e.size + e.marker))
  let t := setF t (crlMSGS c) (getF t (crlMSGS c) - 1)
  setF t (crlHEAD c) (headAfter t c e)

theorem consumeHead_eq {s : State} {c : Nat} {e : CrlEntry} {es : List CrlEntry} (he : (getCreel s c).entries = e :: es) :
    consumeHead s c = poolAdd (headTaken s c e es) c (e.size + e.marker) := by
  rw [consumeHead, he]
  rfl

/-- The pool shares no bit with the other fields that change. -/
theorem creelFields_apart (c : Nat) : (crlOCC c).apart (crlPOOL c) = true ∧ (crlMSGS c).apart (crlPOOL c) = true ∧
    (crlHEAD c).apart (crlPOOL c) = true := by
  unfold crlOCC crlMSGS crlHEAD crlPOOL crlPick
  cases crlHost c <;> simp [Fld.apart, fCRLSTAT_OCC, fCRLSTAT_MSGS, fCRLPTR_HEAD, fCRLCRED_POOL, fHCRLSTAT_OCC, fHCRLSTAT_MSGS,
    fHCRLPTR_HEAD, fHCRLCRED_POOL, rCRLSTAT, rCRLPTR, rCRLCRED, rHCRLSTAT, rHCRLPTR, rHCRLCRED]

theorem crlPOOL_width (c : Nat) : (crlPOOL c).hi = 44 ∧ (crlPOOL c).lo = 24 := by
  unfold crlPOOL crlPick
  cases crlHost c <;> exact ⟨rfl, rfl⟩

theorem getF_headTaken_pool (s : State) (c : Nat) (e : CrlEntry) (es : List CrlEntry) :
    getF (headTaken s c e es) (crlPOOL c) = getF s (crlPOOL c) := by
  obtain ⟨hocc, hmsgs, hhead⟩ := creelFields_apart c
  rw [headTaken, getF_setF_apart _ _ _ _ hhead, getF_setF_apart _ _ _ _ hmsgs, getF_setF_apart _ _ _ _ hocc]
  rfl

/-- The head entry leaves the creel, and its bytes return to the pool. -/
theorem consumeHead_consumes {s : State} {c : Nat} {e : CrlEntry} {es : List CrlEntry} (he : (getCreel s c).entries = e :: es) :
    (getCreel (consumeHead s c) c).entries = es ∧
    getF (consumeHead s c) (crlPOOL c) = (getF s (crlPOOL c) + e.size + e.marker) % 2 ^ 21 := by
  obtain ⟨hhi, hlo⟩ := crlPOOL_width c
  rw [consumeHead_eq he]
  refine ⟨congrArg Creel.entries (getCreel_setCreel_self s c { getCreel s c with entries := es }), ?_⟩
  rw [poolAdd, getF_setF_self _ _ _ (by omega), getF_headTaken_pool, hhi, hlo, Nat.add_assoc]

/-- `t` differs from `s` in creels, and in registers of creel `c`, alone. -/
def creelAlone (s t : State) (c : Nat) : Prop := (∃ z rs, t = { s with creels := z, regs := rs }) ∧ onlyRegs s t (creelRegs c)

theorem creelAlone_setF {s t : State} {c : Nat} {f : Fld} (v : Nat) (hf : f.reg ∈ creelRegs c) (h : creelAlone s t c) :
    creelAlone s (setF t f v) c := by
  obtain ⟨⟨z, rs, ht⟩, hregs⟩ := h
  refine ⟨?_, onlyRegs_setF_mem v hf hregs⟩
  rw [ht]
  exact ⟨_, _, rfl⟩

/-- Consuming a message changes its creel and the creel's registers alone. -/
theorem consumeHead_frame (s : State) (c : Nat) : creelAlone s (consumeHead s c) c := by
  match he : (getCreel s c).entries with
  | [] =>
    have hnone : consumeHead s c = s := by rw [consumeHead, he]
    rw [hnone]
    exact ⟨⟨s.creels, s.regs, rfl⟩, fun _ _ => rfl⟩
  | e :: es =>
    have hentries : creelAlone s (setCreel s c { getCreel s c with entries := es }) c := ⟨⟨_, s.regs, rfl⟩, fun _ _ => rfl⟩
    rw [consumeHead_eq he, headTaken, poolAdd]
    exact creelAlone_setF _ (by simp [creelRegs]) (creelAlone_setF _ (by simp [creelRegs]) (creelAlone_setF _ (by simp [creelRegs])
      (creelAlone_setF _ (by simp [creelRegs]) hentries)))

/-! ### The registers of a handler unit -/

/-- The registers of core `m`'s handler unit that its end shows in: state, count, faults and their counters (R154). -/
def handlerUnitRegs (m : Nat) : List Nat :=
  [rHNDSTAT (m / 8) (m % 8), rHNDCNT (m / 8) (m % 8), rHNDFLT (m / 8) (m % 8), rHNDFCNT (m / 8) (m % 8)]

/-- Where the registers of the creels lie (R439, R586). -/
theorem creelRegs_place {c r : Nat} (hc : c < 576) (hr : r ∈ creelRegs c) :
    (0x10000 ≤ r ∧ r < 0x11000) ∨ (0x1010000 ≤ r ∧ r < 0x1800000 ∧ 0x5000 ≤ r % 0x10000) := by
  simp only [creelRegs, crlOCC, crlMSGS, crlHEAD, crlPOOL, crlPick, crlHost, decide_eq_true_eq, List.mem_cons, List.not_mem_nil,
    or_false] at hr
  split at hr
  · simp only [fHCRLSTAT_OCC, fHCRLSTAT_MSGS, fHCRLPTR_HEAD, fHCRLCRED_POOL, rHCRLSTAT, rHCRLPTR, rHCRLCRED] at hr
    omega
  · simp only [fCRLSTAT_OCC, fCRLSTAT_MSGS, fCRLPTR_HEAD, fCRLCRED_POOL, rCRLSTAT, rCRLPTR, rCRLCRED] at hr
    omega

theorem handlerUnitReg_not_creelReg {m c r : Nat} (hc : c < 576) (hr : r ∈ handlerUnitRegs m) : r ∉ creelRegs c := by
  intro hmem
  have hplace := creelRegs_place hc hmem
  simp only [handlerUnitRegs, rHNDSTAT, rHNDCNT, rHNDFLT, rHNDFCNT, List.mem_cons, List.not_mem_nil, or_false] at hr
  omega

/-- Nor is it a register that recording a handler's fault touches (R608). -/
theorem logReg_not_creelReg {c r : Nat} (hc : c < 576) (hr : r = rKINDCNT 0x0C ∨ r = rLOGSTAT) : r ∉ creelRegs c := by
  intro hmem
  have hplace := creelRegs_place hc hmem
  simp only [rKINDCNT, rLOGSTAT] at hr
  omega

/-! ### The end of a handler (R148, R235, R423) -/

/-- The handler `h` of core `m` has ended in `t`: its unit is free, it is counted, and the head entry `e` of its creel is consumed, with
`es` left there. -/
structure HandlerEnds (s t : State) (m : Nat) (h : Handler) (e : CrlEntry) (es : List CrlEntry) : Prop where
  core : getCore t m = { getCore s m with handler := none, hndEnds := (getCore s m).hndEnds + 1 }
  others : ∀ j, j ≠ m → getCore t j = getCore s j
  streams : t.streams = s.streams
  memory : sameMemory s t
  stopped : isSet t (fHNDSTAT_RUN (m / 8) (m % 8)) = false
  counted : getF t (fHNDCNT_COUNT (m / 8) (m % 8)) = (getF s (fHNDCNT_COUNT (m / 8) (m % 8)) + 1) % 2 ^ 64
  consumed : (getCreel t h.creel).entries = es
  returned : getF t (crlPOOL h.creel) = (getF s (crlPOOL h.creel) + e.size + e.marker) % 2 ^ 21

/-- A handler that has stopped and is counted, its message not yet consumed. -/
def handlerStopped (s : State) (m : Nat) : State :=
  setF (modCore (bump s (fHNDCNT_COUNT (m / 8) (m % 8)) 1) m (fun c => { c with handler := none, hndEnds := c.hndEnds + 1 }))
    (fHNDSTAT_RUN (m / 8) (m % 8)) 0

theorem endHandler_eq {s : State} {m : Nat} {h : Handler} (hh : (getCore s m).handler = some h) :
    endHandler s m = consumeHead (handlerStopped s m) h.creel := by
  have hcounted : (getCore (bump s (fHNDCNT_COUNT (m / 8) (m % 8)) 1) m).handler = some h := hh
  rw [endHandler, hh, cutHandler]
  simp only [hcounted]
  rfl

theorem handlerStopped_regs (s : State) (m : Nat) :
    onlyRegs s (handlerStopped s m) [rHNDSTAT (m / 8) (m % 8), rHNDCNT (m / 8) (m % 8)] :=
  onlyRegs_setF_mem _ (by simp [fHNDSTAT_RUN])
    (onlyRegs_setF_mem (s := s) (t := s) (f := fHNDCNT_COUNT (m / 8) (m % 8)) _ (by simp [fHNDCNT_COUNT]) (fun _ _ => rfl))

theorem getCore_handlerStopped (s : State) (m : Nat) :
    getCore (handlerStopped s m) m = { getCore s m with handler := none, hndEnds := (getCore s m).hndEnds + 1 } :=
  getCore_setCore_self _ m _

theorem getCore_handlerStopped_other (s : State) {m j : Nat} (hj : j ≠ m) : getCore (handlerStopped s m) j = getCore s j :=
  getCore_setCore_other _ m j _ hj.symm

theorem handlerStopped_shows (s : State) (m : Nat) : isSet (handlerStopped s m) (fHNDSTAT_RUN (m / 8) (m % 8)) = false ∧
    getF (handlerStopped s m) (fHNDCNT_COUNT (m / 8) (m % 8)) = (getF s (fHNDCNT_COUNT (m / 8) (m % 8)) + 1) % 2 ^ 64 := by
  have hapart : (fHNDSTAT_RUN (m / 8) (m % 8)).apart (fHNDCNT_COUNT (m / 8) (m % 8)) = true := by
    simp [Fld.apart, fHNDSTAT_RUN, fHNDCNT_COUNT, rHNDSTAT, rHNDCNT]
  refine ⟨isSet_setF_self _ _ _ (by decide : 0 < 64), ?_⟩
  rw [handlerStopped, getF_setF_apart _ _ _ _ hapart]
  exact getF_bump_self s (fHNDCNT_COUNT (m / 8) (m % 8)) 1 (by decide : 63 < 64)

/-- Ending a handler ends it, and of the unit's registers touches the state and the count alone. -/
theorem endHandler_ends {s : State} {m : Nat} {h : Handler} {e : CrlEntry} {es : List CrlEntry}
    (hh : (getCore s m).handler = some h) (he : (getCreel s h.creel).entries = e :: es) (hc : h.creel < 576) :
    HandlerEnds s (endHandler s m) m h e es ∧
    regGet (endHandler s m) (rHNDFLT (m / 8) (m % 8)) = regGet s (rHNDFLT (m / 8) (m % 8)) := by
  have hunit : ∀ r ∈ handlerUnitRegs m, r ∉ creelRegs h.creel := fun _ hr => handlerUnitReg_not_creelReg hc hr
  have hpoolReg : (crlPOOL h.creel).reg ∈ creelRegs h.creel := by simp [creelRegs]
  obtain ⟨hrun, hcount⟩ := handlerStopped_shows s m
  obtain ⟨hentries, hpool⟩ := consumeHead_consumes (s := handlerStopped s m) he
  obtain ⟨⟨z, rs, hframe⟩, hregs⟩ := consumeHead_frame (handlerStopped s m) h.creel
  have hkept : regGet (handlerStopped s m) (crlPOOL h.creel).reg = regGet s (crlPOOL h.creel).reg := by
    refine handlerStopped_regs s m _ (fun hmem => hunit _ ?_ hpoolReg)
    simp only [List.mem_cons, List.not_mem_nil, or_false] at hmem
    rcases hmem with hmem | hmem <;> simp [handlerUnitRegs, hmem]
  have hflt : regGet (handlerStopped s m) (rHNDFLT (m / 8) (m % 8)) = regGet s (rHNDFLT (m / 8) (m % 8)) :=
    handlerStopped_regs s m _ (by simp [rHNDFLT, rHNDSTAT, rHNDCNT])
  have hcores : ∀ j, getCore (consumeHead (handlerStopped s m) h.creel) j = getCore (handlerStopped s m) j := fun _ => by
    rw [hframe]
    rfl
  rw [endHandler_eq hh]
  refine ⟨⟨?_, fun j hj => ?_, ?_, ?_, ?_, ?_, hentries, ?_⟩, ?_⟩
  · rw [hcores, getCore_handlerStopped]
  · rw [hcores, getCore_handlerStopped_other s hj]
  · rw [hframe]
    rfl
  · rw [hframe]
    exact ⟨rfl, rfl, rfl, rfl, rfl, rfl⟩
  · rw [isSet_of_regGet (hregs _ (hunit _ (by simp [handlerUnitRegs, fHNDSTAT_RUN]))), hrun]
  · rw [getF_of_regGet (hregs _ (hunit _ (by simp [handlerUnitRegs, fHNDCNT_COUNT]))), hcount]
  · rw [hpool, getF_of_regGet hkept]
  · rw [hregs _ (hunit _ (by simp [handlerUnitRegs])), hflt]

/-! ### A handler's fault (R149, R151, R210) -/

/-- A fault of a handler is flagged in `f`, counted in `g` and recorded. -/
def handlerFaulted (s : State) (f g : Fld) (x : LogEntry) : State := logPut (bump (setF s f 1) g 1) x

theorem setF_frame (s : State) (f : Fld) (v : Nat) : ∃ rs, setF s f v = { s with regs := rs } := ⟨_, rfl⟩
theorem bump_frame (s : State) (f : Fld) (n : Nat) : ∃ rs, bump s f n = { s with regs := rs } := ⟨_, rfl⟩

theorem logPut_frame (s : State) (x : LogEntry) : ∃ q c rs, logPut s x = { s with logQ := q, console := c, regs := rs } := by
  rcases logPut_cases s x with hcase | hcase | hcase
  · exact ⟨s.logQ, s.console, _, hcase⟩
  · exact ⟨_, _, _, hcase⟩
  · obtain ⟨rs₁, hcounted⟩ := bump_frame s (fKINDCNT_COUNT x.kind) 1
    obtain ⟨rs₂, hlost⟩ := setF_frame (bump s (fKINDCNT_COUNT x.kind) 1) fLOGSTAT_LOST 1
    obtain ⟨rs₃, hlostCount⟩ := bump_frame (setF (bump s (fKINDCNT_COUNT x.kind) 1) fLOGSTAT_LOST 1) fLOGSTAT_LOSTCNT 1
    rw [hcase, hlostCount, hlost, hcounted]
    exact ⟨s.logQ, s.console, rs₃, rfl⟩

theorem handlerFaulted_frame (s : State) (f g : Fld) (x : LogEntry) :
    ∃ q c rs, handlerFaulted s f g x = { s with logQ := q, console := c, regs := rs } := by
  obtain ⟨q, c, rs, hlog⟩ := logPut_frame (bump (setF s f 1) g 1) x
  rw [handlerFaulted, hlog]
  exact ⟨q, c, rs, rfl⟩

section
variable {s : State} {m : Nat} {f g : Fld} {x : LogEntry} (hf : f.reg = rHNDFLT (m / 8) (m % 8))
  (hg : g.reg = rHNDFCNT (m / 8) (m % 8)) (hx : x.kind = 0x0C)

include hf hg hx

theorem handlerFaulted_regs : onlyRegs s (handlerFaulted s f g x)
    [rHNDFLT (m / 8) (m % 8), rHNDFCNT (m / 8) (m % 8), rKINDCNT 0x0C, rLOGSTAT] := by
  intro off hoff
  simp only [List.mem_cons, List.not_mem_nil, or_false, not_or] at hoff
  obtain ⟨hflt, hcnt, hkind, hstat⟩ := hoff
  rw [handlerFaulted, regGet_logPut_other _ _ _ (by rw [hx]; exact Ne.symm hkind) (Ne.symm hstat),
    regGet_bump_other _ _ _ _ (by rw [hg]; exact Ne.symm hcnt), regGet_setF_other _ _ _ _ (by rw [hf]; exact Ne.symm hflt)]

theorem handlerFaulted_flags (hbit : f.hi = f.lo) (hhi : f.hi < 64) : isSet (handlerFaulted s f g x) f = true := by
  have hplace : rKINDCNT x.kind ≠ f.reg ∧ rLOGSTAT ≠ f.reg ∧ g.reg ≠ f.reg := by
    rw [hf, hg, hx]
    simp only [rKINDCNT, rLOGSTAT, rHNDFLT, rHNDFCNT]
    omega
  obtain ⟨hkind, hstat, hcnt⟩ := hplace
  rw [handlerFaulted, isSet_of_regGet (regGet_logPut_other _ _ _ hkind hstat), isSet_of_regGet (regGet_bump_other _ _ _ _ hcnt),
    isSet_setF_self _ _ _ hhi, hbit, Nat.add_sub_cancel_left]
  rfl

/-- A handler that ends with a fault ends, and the fault's flag is set. -/
theorem handlerFaulted_ends {h : Handler} {e : CrlEntry} {es : List CrlEntry} (hbit : f.hi = f.lo) (hhi : f.hi < 64)
    (hh : (getCore s m).handler = some h) (he : (getCreel s h.creel).entries = e :: es) (hc : h.creel < 576) :
    HandlerEnds s (endHandler (handlerFaulted s f g x) m) m h e es ∧ isSet (endHandler (handlerFaulted s f g x) m) f = true := by
  have hflag := handlerFaulted_flags (s := s) hf hg hx hbit hhi
  have hregs := handlerFaulted_regs (s := s) hf hg hx
  obtain ⟨q, c, rs, hframe⟩ := handlerFaulted_frame s f g x
  generalize hu : handlerFaulted s f g x = u at hflag hregs hframe ⊢
  have hcores : ∀ j, getCore u j = getCore s j := fun _ => by
    rw [hframe]
    rfl
  have hcreels : getCreel u h.creel = getCreel s h.creel := by
    rw [hframe]
    rfl
  have hmem : sameMemory s u := by
    rw [hframe]
    exact ⟨rfl, rfl, rfl, rfl, rfl, rfl⟩
  have hstreams : u.streams = s.streams := by rw [hframe]
  have hcount : regGet u (rHNDCNT (m / 8) (m % 8)) = regGet s (rHNDCNT (m / 8) (m % 8)) := by
    refine hregs _ ?_
    simp only [List.mem_cons, List.not_mem_nil, or_false, rHNDCNT, rHNDFLT, rHNDFCNT, rKINDCNT, rLOGSTAT]
    omega
  have hpool : regGet u (crlPOOL h.creel).reg = regGet s (crlPOOL h.creel).reg := by
    have hpoolReg : (crlPOOL h.creel).reg ∈ creelRegs h.creel := by simp [creelRegs]
    refine hregs _ (fun hmem => ?_)
    simp only [List.mem_cons, List.not_mem_nil, or_false] at hmem
    rcases hmem with hr | hr | hr
    · exact handlerUnitReg_not_creelReg (m := m) hc (by simp [handlerUnitRegs, hr]) hpoolReg
    · exact handlerUnitReg_not_creelReg (m := m) hc (by simp [handlerUnitRegs, hr]) hpoolReg
    · exact logReg_not_creelReg hc hr hpoolReg
  obtain ⟨hends, hflt⟩ := endHandler_ends (s := u) (by rw [hcores]; exact hh) (by rw [hcreels]; exact he) hc
  refine ⟨⟨?_, fun j hj => ?_, hends.streams.trans hstreams, sameMemory_trans hmem hends.memory, hends.stopped, ?_, hends.consumed,
    ?_⟩, ?_⟩
  · rw [hends.core, hcores]
  · rw [hends.others j hj, hcores]
  · rw [hends.counted, getF_of_regGet hcount]
  · rw [hends.returned, getF_of_regGet hpool]
  · rw [← hf] at hflt
    rw [isSet_of_regGet hflt, hflag]

end

/-- An illegal macro-op ends the handler with ILL (R149). -/
theorem handlerIll_ends {s : State} {m : Nat} (cause : Nat) {h : Handler} {e : CrlEntry} {es : List CrlEntry}
    (hh : (getCore s m).handler = some h) (he : (getCreel s h.creel).entries = e :: es) (hc : h.creel < 576) :
    HandlerEnds s (handlerIll s m cause) m h e es ∧ isSet (handlerIll s m cause) (fHNDFLT_ILL (m / 8) (m % 8)) = true := by
  have heq : ∃ x : LogEntry, x.kind = 0x0C ∧ handlerIll s m cause =
      endHandler (handlerFaulted s (fHNDFLT_ILL (m / 8) (m % 8)) (fHNDFCNT_ILCNT (m / 8) (m % 8)) x) m := by
    rw [handlerIll, hh]
    exact ⟨_, rfl, rfl⟩
  obtain ⟨x, hx, heq⟩ := heq
  rw [heq]
  exact handlerFaulted_ends rfl rfl hx rfl (by decide : 0 < 64) hh he hc

/-- A time limit that has passed ends the handler with TLIM (R151). -/
theorem handlerTimeLimit_ends {s : State} {m : Fin 64} {h : Handler} {e : CrlEntry} {es : List CrlEntry}
    (hp : paused s = false) (hh : (getCore s m).handler = some h) (he : (getCreel s h.creel).entries = e :: es) (hc : h.creel < 576)
    (hlim : getF s (fHNDLIM_LIMIT (m / 8) (m % 8)) ≠ 0) (hlate : getF s (fHNDLIM_LIMIT (m / 8) (m % 8)) ≤ cyclesSince s h.start) :
    nextIs (.handlerTimeLimit m) s fun t => HandlerEnds s t m h e es ∧ isSet t (fHNDFLT_TLIM (m / 8) (m % 8)) = true := by
  have hover : ¬ (getF s (fHNDLIM_LIMIT (m / 8) (m % 8)) = 0 ∨ cyclesSince s h.start < getF s (fHNDLIM_LIMIT (m / 8) (m % 8)) ∨
      paused s = true) := by simp [hlim, hlate, hp]
  have heq : ∃ x : LogEntry, x.kind = 0x0C ∧ exec (.handlerTimeLimit m) s =
      .next (endHandler (handlerFaulted s (fHNDFLT_TLIM (m / 8) (m % 8)) (fHNDFCNT_TLCNT (m / 8) (m % 8)) x) m) := by
    have harm : exec (.handlerTimeLimit m) s = execHandlerTimeLimit m s := rfl
    rw [harm, execHandlerTimeLimit]
    simp only [hh, if_neg hover]
    exact ⟨_, rfl, rfl⟩
  obtain ⟨x, hx, heq⟩ := heq
  exact ⟨_, heq, handlerFaulted_ends rfl rfl hx rfl (by decide : 1 < 64) hh he hc⟩

/-- A time limit that is off, or has not passed, does nothing. -/
theorem handlerTimeLimit_waits {s : State} {m : Fin 64} {h : Handler} (hh : (getCore s m).handler = some h)
    (hlim : getF s (fHNDLIM_LIMIT (m / 8) (m % 8)) = 0 ∨ cyclesSince s h.start < getF s (fHNDLIM_LIMIT (m / 8) (m % 8))) :
    exec (.handlerTimeLimit m) s = .next s := by
  have hwaits : getF s (fHNDLIM_LIMIT (m / 8) (m % 8)) = 0 ∨ cyclesSince s h.start < getF s (fHNDLIM_LIMIT (m / 8) (m % 8)) ∨
      paused s = true := hlim.imp_right .inl
  have harm : exec (.handlerTimeLimit m) s = execHandlerTimeLimit m s := rfl
  rw [harm, execHandlerTimeLimit]
  simp only [hh, if_pos hwaits]

/-- HRET ends the handler; inside an open loop level it does so with ILL (R203, R235). -/
theorem hret_ends {s : State} {m : Fin 64} (gap : Nat) {h : Handler} {e : CrlEntry} {es : List CrlEntry}
    (hp : paused s = false) (hh : (getCore s m).handler = some h) (he : (getCreel s h.creel).entries = e :: es) (hc : h.creel < 576) :
    (h.loops = [] → nextIs (.hret (.handler m) gap) s fun t => HandlerEnds s t m h e es) ∧
    (h.loops ≠ [] → nextIs (.hret (.handler m) gap) s fun t => HandlerEnds s t m h e es ∧
      isSet t (fHNDFLT_ILL (m / 8) (m % 8)) = true) := by
  have hdepth : handlerDepth s m = h.loops.length := by rw [handlerDepth, hh]; rfl
  have harm : exec (.hret (.handler m) gap) s =
      .next (unlessPaused s (if handlerDepth s m = 0 then endHandler s m else handlerIll s m 0x01)) := rfl
  rw [unlessPaused, hp, hdepth] at harm
  refine ⟨fun hloops => ⟨endHandler s m, ?_, (endHandler_ends hh he hc).1⟩,
    fun hloops => ⟨handlerIll s m 0x01, ?_, handlerIll_ends 0x01 hh he hc⟩⟩
  · rw [harm, hloops]
    rfl
  · rw [harm, if_neg (mt List.length_eq_zero_iff.1 hloops)]
    rfl

end Sys2Proof.Machine
end

section
namespace Sys2Proof.Machine

open Sys2Proof

/-! ### Reading the payload of a message -/

theorem leVal_lt (bs : List Byte) : leVal bs < 256 ^ bs.length := by
  induction bs with
  | nil => exact Nat.one_pos
  | cons b bs ih =>
    have hb : b.toNat < 256 := b.isLt
    rw [leVal, List.length_cons, Nat.pow_succ]
    omega

theorem orgRead_drop_take (s : State) (a : Nat) {n i k : Nat} (h : i + k ≤ n) :
    ((orgRead s a n).drop i).take k = orgRead s (a + i) k := by
  have hlen : (orgRead s a n).length = n := by rw [orgRead, List.length_map, List.length_range]
  refine List.ext_getElem ?_ (fun j h1 h2 => ?_)
  · rw [List.length_take, List.length_drop, hlen, orgRead, List.length_map, List.length_range]
    omega
  · simp only [orgRead, List.getElem_take, List.getElem_drop, List.getElem_map, List.getElem_range, Nat.add_assoc]

/-- Reading after the first `n` numbers have each been written. -/
theorem amGet_writeRange {β : Type} [DecidableEq β] (d : Nat → β) (f : Nat → β) (l : List (Nat × β)) (n i : Nat) :
    amGet d ((List.range n).foldl (fun m j => amSet d m j (f j)) l) i = if i < n then f i else amGet d l i := by
  induction n with
  | zero => rfl
  | succ n ih =>
    rw [List.range_succ, List.foldl_append, List.foldl_cons, List.foldl_nil, amGet_amSet, ih]
    by_cases h : n = i
    · rw [if_pos h, if_pos (by omega), h]
    · rw [if_neg h]
      by_cases hlt : i < n
      · rw [if_pos hlt, if_pos (by omega)]
      · rw [if_neg hlt, if_neg (by omega)]

theorem noteRead_of_disjoint {s : State} {a n : Nat} (h : ∀ e ∈ s.orgErr, overlaps e.1 8 a n = false) (by_ : Nat) :
    noteRead s a n by_ = s := by
  have hnone : s.orgErr.filter (fun p => overlaps p.1 8 a n) = [] :=
    List.filter_eq_nil_iff.2 (fun p hp => by simp [h p hp])
  rw [noteRead, hnone]
  rfl

/-! ### The dispatch of a handler (R148, R430) -/

/-- Where the payload of a creel's entry lies. -/
def payloadAt (s : State) (c : Nat) (e : CrlEntry) : Nat := crlBase s c + e.off + 32

/-- The routine that a creel's configuration names (R147). -/
def creelRoutine (s : State) (c : Nat) : Nat := getF s (fCRLCFG_ROUTINE (c / 64) (c / 8 % 8) (c % 8))

/-- hs0 to hs7 hold the first 32 bytes of the payload at `a`, hs8 the creel's index in its core. -/
def payloadRegs (s : State) (c a : Nat) : List (Nat × BitVec 32) :=
  amSet (fun _ => 0#32) ((List.range 8).foldl (fun l i =>
    amSet (fun _ => 0#32) l i (BitVec.ofNat 32 (leVal (((orgRead s a 32).drop (4 * i)).take 4)))) []) 8 (BitVec.ofNat 32 (c % 8))

/-- A core whose unit has taken the message at `a`. -/
def dispatchedCore (s : State) (m c a : Nat) : Core :=
  let x := getCore s m
  let ctx := (getStr s (streamOfCore s m)).ctx
  { x with
    handler := some ⟨c, creelRoutine s c, tick s, [], 0⟩
    hs := payloadRegs s c a
    ha := amSet (fun _ => 0#52) [] 0 (BitVec.ofNat 52 a)
    handled := if x.handled.contains ctx then x.handled else x.handled ++ [ctx] }

/-- The state in which core `m` has begun to handle entry `e` of creel `c`. -/
def dispatched (s : State) (m c : Nat) (e : CrlEntry) : State :=
  setF (setF (setF (setCore s m (dispatchedCore s m c (payloadAt s c e))) (fHNDSTAT_RUN (m / 8) (m % 8)) 1)
    (fHNDSTAT_CREEL (m / 8) (m % 8)) (c % 8)) (fHNDSTAT_ROUTINE (m / 8) (m % 8)) (creelRoutine s c)

/-- The handler unit of core `m` may take a message. -/
def mayDispatch (s : State) (m : Nat) : Prop :=
  paused s = false ∧ (getCore s m).handler = none ∧ coreHedged s m = false ∧ getBit s fHEDGEMISC_PAV (m / 8) = false ∧
  (getStr s (streamOfCore s m)).st ≠ .idle ∧ m ∈ (getStr s (streamOfCore s m)).cores ∧
  (getStr s (streamOfCore s m)).resident ≠ none ∧ s.fatal = false

theorem handlerDispatch_of {s : State} {m : Fin 64} {c : Nat} {e : CrlEntry} {es : List CrlEntry} (h : mayDispatch s m)
    (hc : nextCreel s m = some c) (he : (getCreel s c).entries = e :: es)
    (herr : ∀ p ∈ s.orgErr, overlaps p.1 8 (payloadAt s c e) 32 = false) :
    exec (.handlerDispatch m) s = .next (dispatched s m c e) := by
  obtain ⟨hp, hfree, hcore, hpav, hst, hmem, hres, hfatal⟩ := h
  have harm : exec (.handlerDispatch m) s = execHandlerDispatch m s := rfl
  have hfatal' : isSet s fERRSTAT_FATAL = false := hfatal
  have hst' : ((getStr s (streamOfCore s m)).st == StrState.idle) = false := beq_eq_false_iff_ne.2 hst
  have hres' : (getStr s (streamOfCore s m)).resident.isNone = false :=
    Option.isNone_eq_false_iff.2 (Option.isSome_iff_ne_none.2 hres)
  have hmem' : (getStr s (streamOfCore s m)).cores.contains m.val = true := List.contains_iff_mem.2 hmem
  have hread := noteRead_of_disjoint herr 0
  rw [payloadAt] at hread
  rw [harm, execHandlerDispatch]
  simp only [hp, hfree, hcore, hpav, hst', hmem', hres', hfatal', hc, he, hread, Option.isSome_none, Bool.not_true, Bool.or_false,
    Bool.false_eq_true, if_false]
  rfl

section
variable (s : State) (m c : Nat) (e : CrlEntry)

theorem getCore_dispatched : getCore (dispatched s m c e) m = dispatchedCore s m c (payloadAt s c e) :=
  getCore_setCore_self s m _

theorem getCore_dispatched_other {j : Nat} (hj : j ≠ m) : getCore (dispatched s m c e) j = getCore s j :=
  getCore_setCore_other s m j _ hj.symm

theorem dispatched_runs : isSet (dispatched s m c e) (fHNDSTAT_RUN (m / 8) (m % 8)) = true := by
  have hroutine : (fHNDSTAT_ROUTINE (m / 8) (m % 8)).apart (fHNDSTAT_RUN (m / 8) (m % 8)) = true := by
    simp [Fld.apart, fHNDSTAT_ROUTINE, fHNDSTAT_RUN]
  have hcreel : (fHNDSTAT_CREEL (m / 8) (m % 8)).apart (fHNDSTAT_RUN (m / 8) (m % 8)) = true := by
    simp [Fld.apart, fHNDSTAT_CREEL, fHNDSTAT_RUN]
  rw [dispatched, isSet_setF_apart _ _ _ _ hroutine, isSet_setF_apart _ _ _ _ hcreel]
  exact isSet_setF_self _ _ _ (by decide : 0 < 64)

theorem dispatched_regs : onlyRegs s (dispatched s m c e) [rHNDSTAT (m / 8) (m % 8)] :=
  onlyRegs_setF_mem _ (by simp [fHNDSTAT_ROUTINE]) (onlyRegs_setF_mem _ (by simp [fHNDSTAT_CREEL])
    (onlyRegs_setF_mem _ (by simp [fHNDSTAT_RUN]) (fun _ _ => rfl)))

theorem dispatched_rest : { dispatched s m c e with cores := s.cores, regs := s.regs } = s := by
  unfold dispatched
  obtain ⟨rs₁, hrun⟩ := setF_frame (setCore s m (dispatchedCore s m c (payloadAt s c e))) (fHNDSTAT_RUN (m / 8) (m % 8)) 1
  rw [hrun]
  rfl

/-- What the handler finds in its registers (R148). -/
theorem dispatchedCore_reads (a : Nat) :
    (∀ i, i < 8 → hsreg (dispatchedCore s m c a) i = leVal (orgRead s (a + 4 * i) 4)) ∧
    hsreg (dispatchedCore s m c a) 8 = c % 8 ∧ hareg (dispatchedCore s m c a) 0 = a % 2 ^ 52 := by
  refine ⟨fun i hi => ?_, ?_, ?_⟩
  · have hbound : leVal (orgRead s (a + 4 * i) 4) < 2 ^ 32 := by
      have hlt := leVal_lt (orgRead s (a + 4 * i) 4)
      rw [orgRead, List.length_map, List.length_range] at hlt
      exact hlt
    rw [hsreg, dispatchedCore, payloadRegs, amGet_amSet_other _ _ _ _ _ (by omega), amGet_writeRange, if_pos hi,
      orgRead_drop_take s a (by omega), BitVec.toNat_ofNat, Nat.mod_eq_of_lt hbound]
  · rw [hsreg, dispatchedCore, payloadRegs, amGet_amSet_self, BitVec.toNat_ofNat]
    omega
  · rw [hareg, dispatchedCore, amGet_amSet_self, BitVec.toNat_ofNat]

end

/-- Settles O19: a dispatch writes the core's unit from the message, and HRET, an open loop level's HRET and the time limit each end
the handler by one effect. -/
theorem handlersStartAndEnd : Obligations.HandlersStartAndEnd := by
  refine ⟨?_, ?_⟩
  · intro s m c e es hp hfree hcore hpav hst hmem hres hfatal hc he a herr
    obtain ⟨hs, hs8, ha0⟩ := dispatchedCore_reads s m c (payloadAt s c e)
    rw [← getCore_dispatched] at hs8 ha0
    simp only [← getCore_dispatched] at hs
    refine ⟨_, handlerDispatch_of ⟨hp, hfree, hcore, hpav, hst, hmem, hres, hfatal⟩ hc he herr, ?_⟩
    exact ⟨by rw [getCore_dispatched, dispatchedCore, Option.map_some], hs, hs8, ha0, dispatched_runs s m c e,
      fun j hj => getCore_dispatched_other s m c e hj, dispatched_regs s m c e, dispatched_rest s m c e⟩
  · intro s m gap h e es hp hh he hc ends lim
    have hends : ∀ t, HandlerEnds s t m h e es → ends t := fun t ht =>
      ⟨by rw [ht.core], ht.stopped, ht.counted, ht.consumed, by rw [ht.core], by rw [ht.core, ← hh], ht.memory, ht.streams,
        by rw [ht.returned, Nat.add_assoc]⟩
    obtain ⟨hclosed, hopen⟩ := hret_ends gap hp hh he hc
    refine ⟨fun hloops => ?_, fun hloops => ?_, fun hlim hlate => ?_, fun hlim => handlerTimeLimit_waits hh hlim⟩
    · obtain ⟨t, ht, hended⟩ := hclosed hloops
      exact ⟨t, ht, hends t hended⟩
    · obtain ⟨t, ht, hended, hflag⟩ := hopen hloops
      exact ⟨t, ht, hends t hended, hflag⟩
    · obtain ⟨t, ht, hended, hflag⟩ := handlerTimeLimit_ends hp hh he hc hlim hlate
      exact ⟨t, ht, hends t hended, hflag⟩

/-! ### Macro-ops that a handler may not use (R149) -/

/-- A waiting FCOUNT− is illegal in a handler. -/
theorem fcountMinus_waiting_ill {s : State} {m : Fin 64} (hp : paused s = false) (hrun : (getCore s m).handler.isSome = true)
    (gap : Nat) (each : Bool) (a : AReg) (k : SReg) (chk : Bool) :
    exec (.fcountMinus (.handler m) gap each a k true chk) s = .next (handlerIll s m 0x01) := by
  have harm : exec (.fcountMinus (.handler m) gap each a k true chk) s =
      .next (if !(hndRuns s m) then s else handlerIll s m 0x01) := rfl
  have hruns : hndRuns s m = true := by rw [hndRuns, hrun, hp]; rfl
  rw [harm, hruns]
  rfl

/-- Settles O20: each of these macro-ops is illegal in a handler, and an illegal macro-op ends it by one effect. -/
theorem otherMacroOpsEndAHandler : Obligations.OtherMacroOpsEndAHandler := by
  intro s m gap h e es hp hh he hc w ends
  have hill : ∀ c, exec c s = .next (handlerIll s m 0x01) → ends c := fun c hexec => by
    obtain ⟨hended, hflag⟩ := handlerIll_ends 0x01 hh he hc
    exact ⟨_, hexec, by rw [hended.core], hended.consumed, hflag, hended.stopped, hended.others, hended.streams, hended.memory⟩
  have hmain : ∀ c, exec c s = .next (unlessPaused s (handlerIll s m 0x01)) → ends c := fun c hexec =>
    hill c (by rw [hexec, unlessPaused, hp]; rfl)
  have hwait : ∀ each a k chk, ends (.fcountMinus w gap each a k true chk) := fun each a k chk =>
    hill _ (fcountMinus_waiting_ill hp (by rw [hh]; rfl) gap each a k chk)
  exact ⟨fun _ _ => hmain _ rfl, fun _ _ _ => hmain _ rfl, fun _ => hmain _ rfl, fun _ => hmain _ rfl, fun _ => hmain _ rfl,
    fun _ => hmain _ rfl, fun _ => hmain _ rfl, fun _ => hmain _ rfl, fun _ => hmain _ rfl, fun _ _ => hmain _ rfl,
    fun _ _ => hmain _ rfl, fun _ _ _ => hmain _ rfl, fun _ _ => hmain _ rfl, fun _ _ _ => hmain _ rfl, fun _ => hmain _ rfl,
    fun _ _ _ => hmain _ rfl, fun _ _ _ => hmain _ rfl, fun _ _ _ => hmain _ rfl, fun _ _ _ _ => hmain _ rfl,
    fun _ _ _ _ _ _ => hmain _ rfl, fun _ => hmain _ rfl, fun _ => hmain _ rfl, fun _ => hmain _ rfl, hwait, fun _ _ => hmain _ rfl,
    fun _ => hmain _ rfl, hmain _ rfl, hmain _ rfl, hmain _ rfl, hmain _ rfl⟩

end Sys2Proof.Machine
end
